-- ==== Sys2Proof/Syntax.lean ====
section
/-!
DEFINITION. Sys2Proof/Syntax.lean: the instructions of the seven pages (R64), the step words of the collective
sequencer (R363) and the events of the device's other agents, one constructor for each row of the opcode table.
Operand codes are already turned into names (R46); extension words into records of their fields (R54 to R62).
-/

namespace Sys2Proof

/-- A guard (R43, R44): a predicate 0 to 11, always (12), never (13). -/
inductive Guard where
  | pred (n : Fin 12) | always | never
  deriving DecidableEq, Repr

/-- What every instruction word carries: its guard, and the live-mask word when `SP` is set (R43, R52). -/
structure Pre where
  g : Guard := .always
  sp : Option Word := none
  deriving DecidableEq, Repr

/-- The operand namespace of R46. `lit w` is code 127 with its literal word (R48); `litNone` is code 127 in a field
that takes no literal word: a destination, or `A` of `IADDI` (R39, R128). -/
inductive Opnd where
  | v (n : Fin 64) | s (n : Fin 48) | t (n : Fin 4) | k (n : Fin 6)
  | lane | hz | opc | rtime | nul | lit (w : Word) | litNone
  deriving DecidableEq, Repr

/-- Type codes 0 to 13 (R63). -/
inductive Ty where
  | i32 | u32 | f32 | bf16x2 | f16x2 | i16x2 | i8x4 | u8x4 | i64 | u64 | f64 | nf8x4 | nf8wx4 | nf4x8
  deriving DecidableEq, Repr

/-- Rounding modes (R55). -/
inductive Rm where
  | rne | rtz | rup | rdn
  deriving DecidableEq, Repr

/-- Scopes 0 to 5 (R86). -/
inductive Scope where
  | grp | core | clu | dev | sys | devp
  deriving DecidableEq, Repr

/-- Memory orders (R60). -/
inductive Ord where
  | rlx | acq | rel | ar
  deriving DecidableEq, Repr

/-- The three spaces of `CPY` and `WAITF` (R61, R138). -/
inductive Space where
  | global | scratch | bank
  deriving DecidableEq, Repr

/-- ALU3 (R55) with a third operand. -/
structure Alu3 where
  c : Opnd
  ty : Ty
  rm : Rm := .rne
  sat : Bool := false
  na : Bool := false
  nb : Bool := false
  nc : Bool := false
  deriving DecidableEq, Repr

/-- ALU3 (R55) of an instruction without a third operand: `C` and `NC` are 0 (R251). -/
structure Alu2 where
  ty : Ty
  rm : Rm := .rne
  sat : Bool := false
  na : Bool := false
  nb : Bool := false
  deriving DecidableEq, Repr

/-- SEL (R56). -/
structure SelX where
  ps : Fin 12
  ty : Ty
  deriving DecidableEq, Repr

/-- Condition codes (R57). -/
inductive CC where
  | eq | ne | lt | le | gt | ge | ord | unord
  deriving DecidableEq, Repr

/-- CMP (R57). -/
structure CmpX where
  cc : CC
  ty : Ty
  deriving DecidableEq, Repr

/-- PLOP (R58). -/
structure PlopX where
  tt : BitVec 4
  deriving DecidableEq, Repr

/-- LOP3 (R58). -/
structure Lop3X where
  c : Opnd
  tt : BitVec 8
  deriving DecidableEq, Repr

/-- CVT (R59). -/
structure CvtX where
  sty : Ty
  dty : Ty
  rm : Rm := .rne
  sat : Bool := false
  deriving DecidableEq, Repr

/-- MX (R60). `w` is the width code 0 to 5. -/
structure Mx where
  aop : BitVec 4 := 0
  w : Fin 6
  sgn : Bool := false
  ord : Ord := .rlx
  scope : Scope := .grp
  h : Bool := false
  ret : Bool := false
  ofs : BitVec 17 := 0
  deriving DecidableEq, Repr

/-- CX (R61). -/
structure Cx where
  ssp : Space
  dsp : Space
  bar : Opnd
  csc : Scope
  h : Bool := false
  bytes : Bool := false
  par : Bool := false
  deriving DecidableEq, Repr

/-- TX (R176). -/
structure TxX where
  txi : BitVec 8
  csc : Scope
  bar : Opnd
  h : Bool := false
  bytes : Bool := false
  par : Bool := false
  pad : Bool := false
  deriving DecidableEq, Repr

/-- BK (R185): `opk` 0 ADD, 1 SUB, 2 MUL, 3 MIN, 4 MAX, 5 FMA, 6 COPY. -/
structure BkX where
  opk : Fin 7
  ty : Ty
  rm : Rm := .rne
  sat : Bool := false
  sc : Bool := false
  csc : Scope
  h : Bool := false
  deriving DecidableEq, Repr

/-- RS (R187): `npg` is the number of pages less one. -/
structure RsX where
  npg : BitVec 12
  csc : Scope
  h : Bool := false
  deriving DecidableEq, Repr

/-- MMA (R62). -/
structure MmaX where
  tile : BitVec 4
  row : BitVec 7
  txa : BitVec 8
  ovw : Bool := false
  deriving DecidableEq, Repr

/-- MSTS (R62); `dty` by the codes of R240. -/
structure MstsX where
  c : Opnd
  tile : BitVec 4
  dty : BitVec 4
  rm : Rm := .rne
  sat : Bool := false
  deriving DecidableEq, Repr

/-- LW (R229). -/
structure LwX where
  txi : BitVec 8
  swp : Bool := false
  deriving DecidableEq, Repr

/-- EW (R229); `ety` 0, 8 or 10. -/
structure EwX where
  tile : BitVec 4
  row : BitVec 7
  col : BitVec 7
  ncm : BitVec 7
  ety : BitVec 4
  deriving DecidableEq, Repr

/-- ST (R229): mode 0 MAX, 1 SUM, 2 SUMSQ, 3 LSE. -/
structure StX where
  c : Opnd
  tile : BitVec 4
  mode : BitVec 2
  deriving DecidableEq, Repr

/-- MS (R229). -/
structure MsX where
  c : Opnd
  tile : BitVec 4
  rm : Rm := .rne
  deriving DecidableEq, Repr

/-- MC (R374). -/
structure McX where
  ssp : Bool
  c : Opnd
  rel : Bool := false
  deriving DecidableEq, Repr

/-- RL (R374); `ety` by the codes of R362, `rop` 0 ADD, 1 MIN, 2 MAX. -/
structure RlX where
  ety : BitVec 4
  rop : Fin 3
  acq : Bool := false
  deriving DecidableEq, Repr

/-- AM (R374). -/
structure AmX where
  sb : BitVec 8
  deriving DecidableEq, Repr

/-- RP (R374). -/
structure RpX where
  node : BitVec 10
  nw : BitVec 4
  deriving DecidableEq, Repr

/-- BAR modes (R135). -/
inductive BarMode where
  | sync | arrive | wait
  deriving DecidableEq, Repr

/-- BAR (R135). -/
structure BarX where
  idx : BitVec 4
  clu : Bool := false
  mode : BarMode := .sync
  deriving DecidableEq, Repr

/-- SPAWN (R140). -/
structure SpX where
  node : BitVec 10
  nw : BitVec 4
  rem : Bool := false
  deriving DecidableEq, Repr

/-- WAITF (R138): `cc` 0 EQ to 7 NONE; `pr` the predicate pair, if any. -/
structure WfX where
  cc : BitVec 3
  spc : Space
  w64 : Bool := false
  acq : Bool := false
  scope : Scope := .grp
  tmo : BitVec 5 := 0
  pr : Option (Fin 6) := none
  ofs : BitVec 12 := 0
  deriving DecidableEq, Repr

/-- SH (R258): mode 0 PICK, 1 STEP, 2 ROLL, 3 MIRROR. -/
structure ShX where
  c : Opnd
  mode : BitVec 2
  pr : Option (Fin 6) := none
  w64 : Bool := false
  seg : BitVec 3 := 0
  deriving DecidableEq, Repr

/-- VT (R258): mode 0 EVERY, 1 SOME, 2 SAME, 3 MOST. -/
structure VtX where
  mode : BitVec 2
  ps : Fin 12
  neg : Bool := false
  deriving DecidableEq, Repr

/-- RX (R258): 0 ADD, 1 MIN, 2 MAX, 3 AND, 4 OR, 5 XOR. -/
structure RxX where
  opr : Fin 6
  ty : Ty
  deriving DecidableEq, Repr

/-- SC (R258): 0 ADD, 1 XOR, 2 MIN, 3 MAX. -/
structure ScX where
  opr : Fin 4
  ty : Ty
  exc : Bool := false
  deriving DecidableEq, Repr

/-- GM (R258). -/
structure GmX where
  inS : Bool
  ext : Bool
  deriving DecidableEq, Repr

/-- LM (R258): 0 BELOW, 1 UPTO, 2 ABOVE, 3 ONWARD, 4 SELF, 5 ACTIVE, 6 EARLIER, 7 LATER. -/
structure LmX where
  mode : BitVec 3
  deriving DecidableEq, Repr

/-- The fields of a sequencer step word (R363). `value` is bits [31:0] of SIGNAL with `MD` = 1, else 0. -/
structure StepW where
  pa : BitVec 2 := 0
  pb : BitVec 2 := 0
  bs : BitVec 2 := 0
  bd : BitVec 2 := 0
  ia : BitVec 2 := 0
  ij : BitVec 2 := 0
  ib : BitVec 2 := 0
  cf : Bool := false
  md : Bool := false
  k : BitVec 12 := 0
  sb : BitVec 8 := 0
  fb : BitVec 6 := 0
  nb : BitVec 6 := 0
  value : Word := 0
  deriving DecidableEq, Repr

/-- What a guide core's service of a not-present page came to (R320). -/
inductive Service where
  | served | unreadable | removed
  deriving DecidableEq, Repr

/-- What a LINKCTL flit carries (R343, R347 to R349, R408). -/
inductive LinkMsg where
  | attested | retry (seq : Nat) | trigger | newKey | keyInstalled
  deriving DecidableEq, Repr

/-- A request or reply of a peer, as its flits carry it (R342, R343): the tag, the context, the address of `ARG`, the
requester's mode (R308), a byte mask, a count of payload flits or an atomic's operator and width, and the payload. -/
structure PeerMsg where
  tag : Nat := 0
  ctx : Nat := 0
  addr : Nat := 0
  sys : Bool := false
  mask : DWord := 0
  n : Nat := 0
  aop : BitVec 4 := 0
  w : Nat := 2
  data : List Byte := []
  deriving DecidableEq, Repr

/-- Collective control (R365, R367): a slot credit, an acknowledgement, ABORT, a NACK with its cause; and a pulled reduction that the
receiver is to serve (R356). -/
inductive CollMsg where
  | credit | ack | abort | nack (cause : Nat) | reduce
  deriving DecidableEq, Repr

/-- A firmware image as it arrives: its bytes, and the public keys and signatures that come with it (R411). -/
structure Image where
  bytes : List Byte
  edKey : List Byte := []
  edSig : List Byte := []
  mlKey : List Byte := []
  mlSig : List Byte := []
  deriving DecidableEq, Repr

/-- A bank window grant (R309): whole 4 KiB blocks, owned or shared. -/
structure Window where
  base : Nat
  len : Nat
  shared : Bool := false
  deriving DecidableEq, Repr

/-- What system software sets up when it creates a context (R274, R278, R285, R293, R309, R310, R359, R404). `rates`: the reserved copy
rate of each core; `epochs`: the
address in the own device and the die pair of each epoch window mapped (DESIGN CHOICE, log entry 37). -/
structure CtxCfg where
  sys : Bool := false
  cores : List Nat := []
  bounded : List Nat := []
  boundRight : Bool := false
  classes : List Nat := [0, 1]
  maxPrio : Nat := 7
  windows : List Window := []
  roots : List (Option Nat) := []
  grants : List (Nat × Nat) := []
  rma : List Window := []
  rates : List (Nat × Nat) := []
  epochs : List (Nat × Nat) := []
  deriving DecidableEq, Repr

/-- What an event acts on. The opcode table gives an event no fields; the agent that acts and what it brings stand
in `State.sel`, which the step sets before the event is executed. `a` to `d` are numbers whose meaning each event
says (an operation, a group and lane, a core, a link ...). -/
structure Sel where
  a : Nat := 0
  b : Nat := 0
  c : Nat := 0
  d : Nat := 0
  flag : Bool := false
  msg : PeerMsg := {}
  words : List Word := []
  svc : Service := .served
  link : LinkMsg := .attested
  coll : CollMsg := .credit
  img : Image := { bytes := [] }
  cfg : CtxCfg := {}
  /-- The header of the last flit of what a link brings, and the plane that it came on (R342); none for what the device brings itself. -/
  hdr : Option (BitVec 128) := none
  plane : Nat := 0
  deriving DecidableEq, Repr

/-- One constructor for each row of the opcode table. Instructions carry `Pre`, their extension record, and the
fields their form reads in the order D, A, B; events carry what selects their agent and what it brings. -/
inductive Instr where
  | iadd (p : Pre) (d : Opnd) (a : Opnd) (b : Opnd)
  | isub (p : Pre) (d : Opnd) (a : Opnd) (b : Opnd)
  | imul (p : Pre) (d : Opnd) (a : Opnd) (b : Opnd)
  | imulhI (p : Pre) (d : Opnd) (a : Opnd) (b : Opnd)
  | imulhU (p : Pre) (d : Opnd) (a : Opnd) (b : Opnd)
  | iminI (p : Pre) (d : Opnd) (a : Opnd) (b : Opnd)
  | iminU (p : Pre) (d : Opnd) (a : Opnd) (b : Opnd)
  | imaxI (p : Pre) (d : Opnd) (a : Opnd) (b : Opnd)
  | imaxU (p : Pre) (d : Opnd) (a : Opnd) (b : Opnd)
  | and (p : Pre) (d : Opnd) (a : Opnd) (b : Opnd)
  | or (p : Pre) (d : Opnd) (a : Opnd) (b : Opnd)
  | xor (p : Pre) (d : Opnd) (a : Opnd) (b : Opnd)
  | andn (p : Pre) (d : Opnd) (a : Opnd) (b : Opnd)
  | shl (p : Pre) (d : Opnd) (a : Opnd) (b : Opnd)
  | shr (p : Pre) (d : Opnd) (a : Opnd) (b : Opnd)
  | sar (p : Pre) (d : Opnd) (a : Opnd) (b : Opnd)
  | rol (p : Pre) (d : Opnd) (a : Opnd) (b : Opnd)
  | iadd64 (p : Pre) (d : Opnd) (a : Opnd) (b : Opnd)
  | isub64 (p : Pre) (d : Opnd) (a : Opnd) (b : Opnd)
  | imad (p : Pre) (x : Alu3) (d : Opnd) (a : Opnd) (b : Opnd)
  | imadw (p : Pre) (x : Alu3) (d : Opnd) (a : Opnd) (b : Opnd)
  | bfeU (p : Pre) (d : Opnd) (a : Opnd) (b : Opnd)
  | bfeI (p : Pre) (d : Opnd) (a : Opnd) (b : Opnd)
  | bfi (p : Pre) (x : Alu3) (d : Opnd) (a : Opnd) (b : Opnd)
  | popc (p : Pre) (d : Opnd) (a : Opnd)
  | clz (p : Pre) (d : Opnd) (a : Opnd)
  | brev (p : Pre) (d : Opnd) (a : Opnd)
  | prmt (p : Pre) (x : Alu3) (d : Opnd) (a : Opnd) (b : Opnd)
  | clmul (p : Pre) (d : Opnd) (a : Opnd) (b : Opnd)
  | clmulh (p : Pre) (d : Opnd) (a : Opnd) (b : Opnd)
  | fadd (p : Pre) (d : Opnd) (a : Opnd) (b : Opnd)
  | fsub (p : Pre) (d : Opnd) (a : Opnd) (b : Opnd)
  | fmul (p : Pre) (d : Opnd) (a : Opnd) (b : Opnd)
  | ffma (p : Pre) (x : Alu3) (d : Opnd) (a : Opnd) (b : Opnd)
  | fmin (p : Pre) (d : Opnd) (a : Opnd) (b : Opnd)
  | fmax (p : Pre) (d : Opnd) (a : Opnd) (b : Opnd)
  | sel (p : Pre) (x : SelX) (d : Opnd) (a : Opnd) (b : Opnd)
  | padd (p : Pre) (x : Alu2) (d : Opnd) (a : Opnd) (b : Opnd)
  | psub (p : Pre) (x : Alu2) (d : Opnd) (a : Opnd) (b : Opnd)
  | pmul (p : Pre) (x : Alu2) (d : Opnd) (a : Opnd) (b : Opnd)
  | pfma (p : Pre) (x : Alu3) (d : Opnd) (a : Opnd) (b : Opnd)
  | pmin (p : Pre) (x : Alu2) (d : Opnd) (a : Opnd) (b : Opnd)
  | pmax (p : Pre) (x : Alu2) (d : Opnd) (a : Opnd) (b : Opnd)
  | dadd (p : Pre) (d : Opnd) (a : Opnd) (b : Opnd)
  | dmul (p : Pre) (d : Opnd) (a : Opnd) (b : Opnd)
  | dfma (p : Pre) (x : Alu3) (d : Opnd) (a : Opnd) (b : Opnd)
  | icmp (p : Pre) (x : CmpX) (d : BitVec 7) (a : Opnd) (b : Opnd)
  | fcmp (p : Pre) (x : CmpX) (d : BitVec 7) (a : Opnd) (b : Opnd)
  | plop (p : Pre) (x : PlopX) (d : BitVec 7) (a : BitVec 7) (b : BitVec 7)
  | mov (p : Pre) (d : Opnd) (a : Opnd)
  | movi (p : Pre) (d : Opnd) (imm : BitVec 14)
  | iaddi (p : Pre) (d : Opnd) (a : Opnd) (b : BitVec 7)
  | cvt (p : Pre) (x : CvtX) (d : Opnd) (a : Opnd)
  | frnd (p : Pre) (x : Alu2) (d : Opnd) (a : Opnd)
  | fclass (p : Pre) (d : Opnd) (a : Opnd)
  | fabs (p : Pre) (d : Opnd) (a : Opnd)
  | lop3 (p : Pre) (x : Lop3X) (d : Opnd) (a : Opnd) (b : Opnd)
  | iabs (p : Pre) (d : Opnd) (a : Opnd)
  | ldg (p : Pre) (x : Mx) (d : Opnd) (a : Opnd) (b : Opnd)
  | stg (p : Pre) (x : Mx) (d : Opnd) (a : Opnd) (b : Opnd)
  | lds (p : Pre) (x : Mx) (d : Opnd) (a : Opnd) (b : Opnd)
  | sts (p : Pre) (x : Mx) (d : Opnd) (a : Opnd) (b : Opnd)
  | ldb (p : Pre) (x : Mx) (d : Opnd) (a : Opnd) (b : Opnd)
  | stb (p : Pre) (x : Mx) (d : Opnd) (a : Opnd) (b : Opnd)
  | atomg (p : Pre) (x : Mx) (d : Opnd) (a : Opnd) (b : Opnd)
  | atoms (p : Pre) (x : Mx) (d : Opnd) (a : Opnd) (b : Opnd)
  | atomb (p : Pre) (x : Mx) (d : Opnd) (a : Opnd) (b : Opnd)
  | fence (p : Pre) (x : Mx)
  | tfence (p : Pre) (x : Mx)
  | pref (p : Pre) (x : Mx) (a : Opnd) (b : Opnd)
  | qpush (p : Pre) (x : Mx) (d : Opnd) (a : BitVec 7)
  | qpop (p : Pre) (x : Mx) (d : Opnd) (a : BitVec 7)
  | cpy (p : Pre) (x : Cx) (d : Opnd) (a : Opnd) (b : Opnd)
  | tload (p : Pre) (x : TxX) (d : Opnd) (a : Opnd) (b : Opnd)
  | tstore (p : Pre) (x : TxX) (d : Opnd) (a : Opnd) (b : Opnd)
  | pwait (p : Pre) (a : Opnd)
  | ptest (p : Pre) (d : BitVec 7) (a : Opnd)
  | binit (p : Pre) (a : Opnd) (b : Opnd)
  | bexp (p : Pre) (a : Opnd) (b : Opnd)
  | barr (p : Pre) (a : Opnd)
  | bwait (p : Pre) (d : Opnd) (a : Opnd) (b : Opnd)
  | btest (p : Pre) (d : BitVec 7) (a : Opnd) (b : Opnd)
  | bankop (p : Pre) (x : BkX) (d : Opnd) (a : Opnd) (b : Opnd)
  | restripe (p : Pre) (x : RsX) (d : Opnd) (a : Opnd) (b : Opnd)
  | geoq (p : Pre) (d : Opnd) (a : Opnd)
  | cancel (p : Pre) (d : Opnd) (a : Opnd)
  | manch (p : Pre) (d : BitVec 7) (a : Opnd)
  | mldw (p : Pre) (x : LwX) (d : BitVec 7) (a : Opnd)
  | mswap (p : Pre) (d : BitVec 7)
  | mma (p : Pre) (x : MmaX) (d : BitVec 7) (a : Opnd) (b : Opnd)
  | mzero (p : Pre) (d : BitVec 7) (a : BitVec 7)
  | mrd (p : Pre) (x : EwX) (d : BitVec 7) (a : Opnd) (b : Opnd)
  | mwr (p : Pre) (x : EwX) (d : BitVec 7) (a : Opnd) (b : Opnd)
  | msts (p : Pre) (x : MstsX) (d : BitVec 7) (a : Opnd) (b : Opnd)
  | rstat (p : Pre) (x : StX) (d : BitVec 7) (a : Opnd) (b : Opnd)
  | mscale (p : Pre) (x : MsX) (d : BitVec 7) (a : Opnd) (b : Opnd)
  | tdef (p : Pre) (id : BitVec 8) (a : Opnd)
  | tqry (p : Pre) (d : Opnd) (id : BitVec 8) (wd : BitVec 3)
  | mopr (p : Pre)
  | mwait (p : Pre) (a : BitVec 7)
  | mcst (p : Pre) (x : McX) (d : Opnd) (a : Opnd) (b : Opnd)
  | rload (p : Pre) (x : RlX) (d : Opnd) (a : Opnd) (b : Opnd)
  | coll (p : Pre) (h : Bool) (a : Opnd)
  | scbset (p : Pre) (a : Opnd) (b : Opnd)
  | scbclr (p : Pre) (a : Opnd) (b : Opnd)
  | arm (p : Pre) (x : AmX) (a : Opnd) (b : Opnd)
  | gang (p : Pre) (a : Opnd) (b : Opnd)
  | peerq (p : Pre) (d : Opnd) (a : Opnd)
  | wcflush (p : Pre)
  | rspawn (p : Pre) (x : RpX) (a : Opnd) (b : Opnd)
  | mgrp (p : Pre) (a : Opnd) (b : Opnd)
  | bra (p : Pre) (imm : BitVec 21)
  | brx (p : Pre) (a : Opnd)
  | call (p : Pre) (d : Opnd) (imm : BitVec 14)
  | ret (p : Pre) (a : Opnd)
  | brh (p : Pre) (imm : BitVec 14) (a : Opnd)
  | waith (p : Pre) (a : Opnd)
  | reconv (p : Pre)
  | bar (p : Pre) (x : BarX) (a : Opnd)
  | spawn (p : Pre) (x : SpX) (a : Opnd) (b : Opnd)
  | exit (p : Pre)
  | suspend (p : Pre) (d : Opnd) (a : Opnd)
  | resume (p : Pre) (a : Opnd)
  | resumeS (p : Pre) (d : Opnd) (a : Opnd)
  | cdiscard (p : Pre) (d : Opnd) (a : Opnd)
  | ccopyMove (p : Pre) (a : Opnd) (b : Opnd)
  | ccopyFork (p : Pre) (a : Opnd) (b : Opnd)
  | sleep (p : Pre) (a : Opnd)
  | waitf (p : Pre) (x : WfX) (d : Opnd) (a : Opnd) (b : Opnd)
  | trap (p : Pre) (imm : BitVec 14)
  | rft (p : Pre)
  | getsr (p : Pre) (d : Opnd) (a : BitVec 7)
  | setsr (p : Pre) (d : BitVec 7) (a : Opnd)
  | yieldH (p : Pre)
  | racq (p : Pre) (a : Opnd)
  | rrel (p : Pre)
  | nop (p : Pre)
  | steal (p : Pre) (d : Opnd) (a : Opnd)
  | launch (p : Pre) (d : Opnd) (a : Opnd)
  | waitl (p : Pre) (d : Opnd) (a : Opnd)
  | snap (p : Pre) (a : Opnd)
  | rcp (p : Pre) (d : Opnd) (a : Opnd)
  | rsq (p : Pre) (d : Opnd) (a : Opnd)
  | sqrt (p : Pre) (d : Opnd) (a : Opnd)
  | exp2 (p : Pre) (d : Opnd) (a : Opnd)
  | log2 (p : Pre) (d : Opnd) (a : Opnd)
  | sinpi (p : Pre) (d : Opnd) (a : Opnd)
  | cospi (p : Pre) (d : Opnd) (a : Opnd)
  | tanh (p : Pre) (d : Opnd) (a : Opnd)
  | fdiv (p : Pre) (d : Opnd) (a : Opnd) (b : Opnd)
  | sigm (p : Pre) (d : Opnd) (a : Opnd)
  | shfl (p : Pre) (x : ShX) (d : Opnd) (a : Opnd) (b : Opnd)
  | vote (p : Pre) (x : VtX) (d : BitVec 7)
  | ballot (p : Pre) (d : Opnd) (a : BitVec 7)
  | redux (p : Pre) (x : RxX) (d : Opnd) (a : Opnd)
  | scan (p : Pre) (x : ScX) (d : Opnd) (a : Opnd)
  | matchL (p : Pre) (d : Opnd) (a : Opnd)
  | matchW64 (p : Pre) (d : Opnd) (a : Opnd)
  | gmred (p : Pre) (x : GmX) (d : Opnd) (a : Opnd)
  | gmtab (p : Pre) (d : BitVec 7) (a : Opnd)
  | first (p : Pre) (d : Opnd) (a : Opnd)
  | lanemask (p : Pre) (x : LmX) (d : Opnd)
  | send (w : StepW)
  | recv (w : StepW)
  | rrs (w : StepW)
  | rrw (w : StepW)
  | copyStep (w : StepW)
  | waitStep (w : StepW)
  | loopStep (w : StepW)
  | endl (w : StepW)
  | peerStep (w : StepW)
  | signal (w : StepW)
  | endStep (w : StepW)
  /-- INSTRUCTION_SWEEP: `a` the core, `b` the slice. -/
  | instructionSweep
  /-- PATH_STARVATION: `a` the group. -/
  | pathStarvation
  /-- GROUP_BOOST: `a` the group. -/
  | groupBoost
  /-- CLAUSE_START: `a` the group, `b` the lane. -/
  | clauseStart
  /-- CORE_RESTART_END: `a` the core. -/
  | coreRestartEnd
  /-- REGISTER_BLOCK_AVAILABLE: `a` the core. -/
  | registerBlockAvailable
  /-- FLAG_HEADROOM_FREED: `a` the group. -/
  | flagHeadroomFreed
  /-- OPERATION_LIMIT_FREED: `a` the group. -/
  | operationLimitFreed
  /-- TICKET_SLOT_FREED: `a` the core. -/
  | ticketSlotFreed
  /-- ENGINE_PLACE_FREED: `a` the core. -/
  | enginePlaceFreed
  /-- BATCH_PORT_GRANT: `a` the core. -/
  | batchPortGrant
  /-- TRAP_DELIVERY: `a` the group, `b` the lane. -/
  | trapDelivery
  /-- GLOBAL_LOAD_RETURN: `a` the operation, `flag`: whether the L1 serves it. -/
  | globalLoadReturn
  /-- GLOBAL_STORE_ACCEPT: `a` the operation. -/
  | globalStoreAccept
  /-- REMOTE_TIMEOUT: `a` the operation. -/
  | remoteTimeout
  /-- HELD_OPERATION_RELEASE: `a` the operation; `flag`: the pair comparator finds a mismatch (R286). -/
  | heldOperationRelease
  /-- THREAD_EXIT_COMPLETE: `a` the group, `b` the lane. -/
  | threadExitComplete
  /-- WAITH_RETURN: `a` the group, `b` the lane. -/
  | waithReturn
  /-- WAITF_WAKE: `a` the group, `b` the lane. -/
  | waitfWake
  /-- WAITF_TIMEOUT: `a` the group, `b` the lane. -/
  | waitfTimeout
  /-- SLEEP_EXPIRY: `a` the group, `b` the lane. -/
  | sleepExpiry
  /-- PROMISE_EXPIRY: `a` the group, `b` the lane. -/
  | promiseExpiry
  /-- COPY_SECTOR: `a` the operation. -/
  | copySector
  /-- COPY_COMPLETE: `a` the operation. -/
  | copyComplete
  /-- PAGE_WALK_COMPLETE: `a` the context, `b` the virtual address. -/
  | pageWalkComplete
  /-- PAGE_SERVICE: `a` the context, `b` the virtual address, `svc` its outcome, `msg.data` the page's bytes from its
  start; those not given are 0. -/
  | pageService
  /-- PARKED_REPLAY: `a` the group. -/
  | parkedReplay
  /-- REPL_INVALIDATE_ACK: `a` the operation, `b` the die. -/
  | replInvalidateAck
  /-- RESTRIPE_LINE_MOVE: `a` the operation. -/
  | restripeLineMove
  /-- TFENCE_WALKER_ACK: `a` the operation, `b` the walker. -/
  | tfenceWalkerAck
  /-- PLANNED_DIE_OFFLINE: `a` the die. -/
  | plannedDieOffline
  /-- RETAINED_STATE_EXIT: `a` the die. -/
  | retainedStateExit
  /-- BANK_REQUEST_ADMIT: `a` the operation. -/
  | bankRequestAdmit
  /-- BANK_REQUEST_PERFORM: `a` the bank. -/
  | bankRequestPerform
  /-- WC_DRAIN: `a` the core, `b` the entry. -/
  | wcDrain
  /-- WC_ENTRY_AGE_EXPIRY: `a` the core, `b` the entry. -/
  | wcEntryAgeExpiry
  /-- BIN_RECORD_ACCEPT: `a` the operation. -/
  | binRecordAccept
  /-- BIN_TIMER_EXPIRY: `a` the core, `b` the context, `c` the node. -/
  | binTimerExpiry
  /-- BIN_DEFERRED_LAUNCH: `a` the core, `b` the context, `c` the node. -/
  | binDeferredLaunch
  /-- SPILL_REFILL: `a` the core, `b` the context. -/
  | spillRefill
  /-- SPILL_WAIT_END: `a` the operation; with `flag`, `a` the group whose threads wait. -/
  | spillWaitEnd
  /-- STEAL_COPY_ARRIVAL: `a` the lend. -/
  | stealCopyArrival
  /-- STEAL_ACK: `a` the lend. -/
  | stealAck
  /-- STEAL_CONFIRM: `a` the lend. -/
  | stealConfirm
  /-- STEAL_REFUSAL: `a` the lend. -/
  | stealRefusal
  /-- LEND_TIMEOUT: `a` the lend. -/
  | lendTimeout
  /-- STEAL_ANSWER_TIMEOUT: `a` the group. -/
  | stealAnswerTimeout
  /-- THIEF_CORE_RESET: `a` the core. -/
  | thiefCoreReset
  /-- VICTIM_CORE_RESET: `a` the core. -/
  | victimCoreReset
  /-- HOST_INTAKE: `a` the context, `b` the address, `words` the record. -/
  | hostIntake
  /-- GRID_QUEUE_HEAD: `a` the context, `b` the priority. -/
  | gridQueueHead
  /-- ADMISSION: `a` the grid. -/
  | admission
  /-- EFFECTIVE_PRIORITY_AGING: `a` the grid. -/
  | effectivePriorityAging
  /-- TEAM_PLACEMENT: `a` the grid. -/
  | teamPlacement
  /-- CLUSTER_RESERVATION: `a` the grid. -/
  | clusterReservation
  /-- GRID_END: `a` the grid. -/
  | gridEnd
  /-- PREEMPTION: `a` the grid; with `flag`, `a` the team whose pre-emption stops. -/
  | preemption
  /-- TEAM_SAVE: `a` the team. -/
  | teamSave
  /-- TEAM_RESTORE: `a` the record. -/
  | teamRestore
  /-- ENERGY_WINDOW_END. -/
  | energyWindowEnd
  /-- CHECKPOINT: `a` the team. -/
  | checkpoint
  /-- SUSPEND_WRITE: `a` the group. -/
  | suspendWrite
  /-- RESUME_CLAIM: `a` the operation. -/
  | resumeClaim
  /-- RESTORED_GROUP_START: `a` the group. -/
  | restoredGroupStart
  /-- MATRIX_OP_START: `a` the core, `b` the engine entry. -/
  | matrixOpStart
  /-- MATRIX_OPERAND_RELEASE: `a` the core, `b` the engine entry. -/
  | matrixOperandRelease
  /-- MATRIX_OP_RETIRE: `a` the core, `b` the engine entry. -/
  | matrixOpRetire
  /-- PREAMBLE: `a` the peer, `b` the plane. -/
  | preamble
  /-- INTEG: `a` the peer, `b` the plane, `c` the block's generation, `flag`: whether tag and `SEQ` hold. -/
  | integ
  /-- SEALED_BLOCK_CLOSE: `a` the peer, `b` the plane. -/
  | sealedBlockClose
  /-- GRANT: `a` the peer, `b` the plane, `c` the channel, `d` the count. -/
  | grant
  /-- LINKCTL: `a` the peer, `b` the plane, `link` the message. -/
  | linkctl
  /-- READ: `a` the sender, `msg` the message. -/
  | read
  /-- WRITE: `a` the sender, `msg` the message. -/
  | write
  /-- WDATA: `a` the sender, `msg` the message: its sector's address and byte mask. -/
  | wdata
  /-- ATOMIC: `a` the sender, `msg` the message. -/
  | atomic
  /-- RDATA: `a` the sender, `msg` the message. -/
  | rdata
  /-- ACK: `a` the sender, `b` the tag. -/
  | ack
  /-- NACK: `a` the sender, `b` the tag, `c` the cause. -/
  | nack
  /-- MCAST: `a` the sender, `msg` the message. -/
  | mcast
  /-- MCAST_ROUND: `a` the operation. -/
  | mcastRound
  /-- LANE_RETUNE_DONE: `a` the operation. -/
  | laneRetuneDone
  /-- MCAST_REPLY_TIMEOUT: `a` the operation, `b` the position. -/
  | mcastReplyTimeout
  /-- RLOAD_REPLIES_COMPLETE: `a` the operation. -/
  | rloadRepliesComplete
  /-- RLOAD_SERVER_FALLBACK: `a` the operation. -/
  | rloadServerFallback
  /-- SPAWN_FLIT: `a` the sender, `msg` the message. -/
  | spawnFlit
  /-- CDATA: `a` the prog, `b` the sender, `msg.data` the bytes. -/
  | cdata
  /-- CCTL: `a` the prog, `b` the sender, `coll` the message. -/
  | cctl
  /-- REKEY_START: `a` the peer, `b` the plane. -/
  | rekeyStart
  /-- KEY_INSTALL: `a` the peer, `b` the plane. -/
  | keyInstall
  /-- GEN_FLIP: `a` the peer, `b` the plane. -/
  | genFlip
  /-- OLD_KEY_ERASE: `a` the peer, `b` the plane. -/
  | oldKeyErase
  /-- PLANE_LOSS: `a` the plane. -/
  | planeLoss
  /-- GANG_PREPARE: `a` the sender, `b` the gang, `c` the context, `words` the record. -/
  | gangPrepare
  /-- GANG_PREPARED: `a` the operation, `b` the sender. -/
  | gangPrepared
  /-- GANG_REFUSED: `a` the operation, `b` the sender. -/
  | gangRefused
  /-- GANG_GO: `a` the gang. -/
  | gangGo
  /-- GANG_GO_ACK: `a` the operation, `b` the sender. -/
  | gangGoAck
  /-- GANG_ABORT: `a` the gang. -/
  | gangAbort
  /-- GANG_TEAR: `a` the gang. -/
  | gangTear
  /-- GANG_PREPARE_TIMEOUT: `a` the operation. -/
  | gangPrepareTimeout
  /-- GANG_GO_WAIT_TIMEOUT: `a` the gang. -/
  | gangGoWaitTimeout
  /-- GANG_ACK_TIMEOUT: `a` the operation. -/
  | gangAckTimeout
  /-- COLL_PROGRAM_START: `a` the prog. -/
  | collProgramStart
  /-- PROGRAM_FAULT: `a` the prog. -/
  | programFault
  /-- CHUNK_TIMEOUT: `a` the prog. -/
  | chunkTimeout
  /-- UET_RMA_WRITE: `a` the context, `b` the address, `msg.data` the bytes. -/
  | uetRmaWrite
  /-- CXL_EXPANDER_REMOVAL: `a` the port. -/
  | cxlExpanderRemoval
  /-- POWER_ON; `flag`: a package reset, through which `RTIME` runs on. -/
  | powerOn
  /-- BOOT_IMAGE: `img` the image. -/
  | bootImage
  /-- GET_MEASUREMENTS. -/
  | getMeasurements
  /-- FREQUENCY_STEP: `a` the pair, `b` the frequency in MHz. -/
  | frequencyStep
  /-- RELOCK_DONE: `a` the pair. -/
  | relockDone
  /-- THERMAL_STEP: `a` the pair. -/
  | thermalStep
  /-- THERMAL_SHUTDOWN. -/
  | thermalShutdown
  /-- SCRUB_READ: `a` the die, `flag`: whether an error was corrected. -/
  | scrubRead
  /-- UNCORRECTABLE_ERROR: `a` the physical address, `b` the tag of a line that no page, window or team covers: a context,
  or 64 for shared. -/
  | uncorrectableError
  /-- DIE_FAILURE: `a` the die. -/
  | dieFailure
  /-- DEBUG_HALT: `a` the die. -/
  | debugHalt
  /-- DEBUG_RELEASE: `a` the die. -/
  | debugRelease
  /-- SNAP_IN: `a` the time it is held, in ns. -/
  | snapIn
  /-- SNAPSHOT_REARM. -/
  | snapshotRearm
  /-- CCOPY_COMPLETE: `a` the operation. -/
  | ccopyComplete
  /-- STEAL_REQUEST: `a` the group. -/
  | stealRequest
  /-- PLANE_ONLINE: `a` the plane. -/
  | planeOnline
  /-- CONTEXT_CREATION: `a` the context, `cfg` what system software sets up. With `flag`, of a context that exists, system
  software changes what it has set up, and clears the touched-dies bits in `b` (R274, R400; DESIGN CHOICE, log entry 41). -/
  | contextCreation
  /-- CONTEXT_END: `a` the context. -/
  | contextEnd
  deriving DecidableEq, Repr

end Sys2Proof
end

