-- ==== Sys2Proof/WellFormed.lean ====
section
/-!
DEFINITION. Sys2Proof/WellFormed.lean: which instructions have an encoding the device accepts (R54 to R63, R159,
R164, R229, R240, R251, R256, R363). What is legal to encode but traps on its operands (R50, R51, R160) is
Sys2Proof/Machine/Legal.lean.
-/

namespace Sys2Proof

/-- A field read as a source takes a literal word with code 127. -/
def Opnd.src (o : Opnd) : Bool := o ≠ .litNone
/-- A destination field takes none (R39). -/
def Opnd.dst : Opnd → Bool
  | .lit _ => false
  | _ => true

def Ty.isFloat : Ty → Bool
  | .f32 | .bf16x2 | .f16x2 | .f64 | .nf8x4 | .nf8wx4 | .nf4x8 => true
  | .i32 | .u32 | .i16x2 | .i8x4 | .u8x4 | .i64 | .u64 => false

/-- 64-bit types name pairs (R63). -/
def Ty.is64 : Ty → Bool
  | .i64 | .u64 | .f64 => true
  | .f32 | .bf16x2 | .f16x2 | .nf8x4 | .nf8wx4 | .nf4x8 | .i32 | .u32 | .i16x2 | .i8x4 | .u8x4 => false

/-- The packed types of R253. -/
def Ty.isPacked5 : Ty → Bool
  | .bf16x2 | .f16x2 | .i16x2 | .i8x4 | .u8x4 => true
  | _ => false

def Alu3.imad (x : Alu3) : Bool := (x.ty = .i32 || x.ty = .u32) && x.rm = .rne && x.c.src
def Alu3.bare (x : Alu3) : Bool := x.ty = .i32 && x.rm = .rne && !x.sat && !x.na && !x.nb && !x.nc && x.c.src
def Alu3.flt (x : Alu3) (t : Ty) : Bool := x.ty = t && x.c.src
def Alu3.packed (x : Alu3) : Bool := x.ty.isPacked5 && (x.ty.isFloat || x.rm = .rne) && x.c.src
def Alu2.packed (x : Alu2) : Bool := x.ty.isPacked5 && (x.ty.isFloat || x.rm = .rne)
def Alu2.minmax (x : Alu2) : Bool := x.packed && !x.na && !x.nb
def Alu2.frnd (x : Alu2) : Bool := (x.ty = .f32 || x.ty = .f64) && !x.sat && !x.na && !x.nb
def SelX.ok (x : SelX) : Bool := [Ty.i32, .u32, .f32, .i64, .u64, .f64].contains x.ty
def CmpX.icmp (x : CmpX) : Bool := [Ty.i32, .u32, .i64, .u64].contains x.ty && x.cc ≠ .ord && x.cc ≠ .unord
def CmpX.fcmp (x : CmpX) : Bool := x.ty = .f32 || x.ty = .f64

/-- The pairs of R256. -/
def CvtX.ok (x : CvtX) : Bool :=
  let six := [Ty.i32, .u32, .i64, .u64, .f32, .f64]
  let small := [Ty.i8x4, .u8x4, .i16x2]
  let flt := [Ty.bf16x2, .f16x2, .nf8x4, .nf8wx4]
  (six.contains x.sty && six.contains x.dty && x.sty ≠ x.dty)
    || (x.sty = .f32 && (flt.contains x.dty || x.dty = .nf4x8))
    || (x.dty = .f32 && (flt.contains x.sty || x.sty = .nf4x8))
    || (flt.contains x.sty && flt.contains x.dty && x.sty ≠ x.dty)
    || (small.contains x.sty && (x.dty = .i32 || x.dty = .f32))
    || (small.contains x.dty && (x.sty = .i32 || x.sty = .f32))

def Mx.load (x : Mx) : Bool :=
  x.aop = 0 && (!x.sgn || x.w.val ≤ 1) && (x.ord = .rlx || x.ord = .acq) && !x.ret
def Mx.store (x : Mx) : Bool := x.aop = 0 && !x.sgn && (x.ord = .rlx || x.ord = .rel) && !x.ret
/-- Widths and `RET` of the atomics (R164). -/
def Mx.atom (x : Mx) : Bool :=
  let w := x.w.val
  !x.sgn &&
    match x.aop.toNat with
    | 1 | 6 | 7 | 13 => w == 2
    | 14 => w == 4 && !x.ret
    | 15 => w == 2 && x.ret
    | _ => w == 2 || w == 3
def Mx.atomGS (x : Mx) : Bool := x.atom && x.aop.toNat ≤ 13
def Mx.fence (x : Mx) : Bool := x.aop = 0 && x.w.val == 0 && !x.sgn && !x.h && !x.ret && x.ofs = 0
def Mx.tfence (x : Mx) : Bool := x.fence && x.ord = .rlx && (x.scope = .dev || x.scope = .sys)
def Mx.pref (x : Mx) : Bool :=
  x.aop = 0 && x.w.val ≤ 1 && !x.sgn && x.ord = .rlx && x.scope = .grp && !x.h && !x.ret
def Mx.queue (x : Mx) : Bool :=
  x.aop = 0 && x.w.val == 2 && !x.sgn && x.ord = .rlx && x.scope = .grp && !x.ret && x.ofs = 0
def Cx.ok (x : Cx) : Bool := x.csc ≠ .devp && x.bar.src && (x.bar ≠ .nul || (!x.bytes && !x.par))
def TxX.ok (x : TxX) : Bool := x.csc ≠ .devp && x.bar.src && (x.bar ≠ .nul || (!x.bytes && !x.par))
def BkX.ok (x : BkX) : Bool :=
  [Ty.i32, .u32, .f32, .bf16x2, .f16x2, .i64, .u64, .f64].contains x.ty
    && (x.ty.isFloat || x.rm = .rne) && (!x.ty.isFloat || !x.sat) && x.csc ≠ .devp
def RsX.ok (x : RsX) : Bool := x.csc ≠ .devp
def MstsX.ok (x : MstsX) : Bool := x.c.src && x.dty ≠ 7 && x.dty.toNat < 12
def RlX.ok (x : RlX) : Bool := [0, 1, 2, 3, 4, 8, 10].contains x.ety.toNat
def BarX.ok (x : BarX) : Bool := !x.clu || x.idx.toNat ≤ 3
def RxX.tyOk (t : Ty) : Bool := [Ty.i32, .u32, .f32, .i64, .u64].contains t
def RxX.ok (x : RxX) : Bool := RxX.tyOk x.ty && (x.ty ≠ .f32 || x.opr.val ≤ 2)
def ScX.ok (x : ScX) : Bool := RxX.tyOk x.ty && (x.ty ≠ .f32 || x.opr.val ≠ 1)

/-- The fields a step uses; every other field is zero (R363). -/
def StepW.only (w : StepW) (pa pb bs bd idx cf md k bitsF : Bool) : Bool :=
  (pa || w.pa = 0) && (pb || w.pb = 0) && (bs || w.bs = 0) && (bd || w.bd = 0)
    && (idx || (w.ia = 0 && w.ij = 0 && w.ib = 0)) && (cf || !w.cf) && (md || !w.md) && (k || w.k = 0)
    && (bitsF || (w.sb = 0 && w.fb = 0 && w.nb = 0))

/-- An index's coefficients (R363, R364). -/
def StepW.idxOk (w : StepW) : Bool := w.ia ≠ 2 && w.ij ≠ 3 && w.ib ≠ 2
def StepW.bitsOk (w : StepW) : Bool := w.fb.toNat + w.nb.toNat ≤ 63

/-- Whether the device accepts the encoding (else `ILLEGAL_INSTRUCTION`, R54), and every field can be encoded. -/
def Instr.shapeOk : Instr → Bool
  | .iadd _ d a b => d.dst && a.src && b.src
  | .isub _ d a b => d.dst && a.src && b.src
  | .imul _ d a b => d.dst && a.src && b.src
  | .imulhI _ d a b => d.dst && a.src && b.src
  | .imulhU _ d a b => d.dst && a.src && b.src
  | .iminI _ d a b => d.dst && a.src && b.src
  | .iminU _ d a b => d.dst && a.src && b.src
  | .imaxI _ d a b => d.dst && a.src && b.src
  | .imaxU _ d a b => d.dst && a.src && b.src
  | .and _ d a b => d.dst && a.src && b.src
  | .or _ d a b => d.dst && a.src && b.src
  | .xor _ d a b => d.dst && a.src && b.src
  | .andn _ d a b => d.dst && a.src && b.src
  | .shl _ d a b => d.dst && a.src && b.src
  | .shr _ d a b => d.dst && a.src && b.src
  | .sar _ d a b => d.dst && a.src && b.src
  | .rol _ d a b => d.dst && a.src && b.src
  | .iadd64 _ d a b => d.dst && a.src && b.src
  | .isub64 _ d a b => d.dst && a.src && b.src
  | .imad _ x d a b => x.imad && d.dst && a.src && b.src
  | .imadw _ x d a b => x.imad && d.dst && a.src && b.src
  | .bfeU _ d a b => d.dst && a.src && b.src
  | .bfeI _ d a b => d.dst && a.src && b.src
  | .bfi _ x d a b => x.bare && d.dst && a.src && b.src
  | .popc _ d a => d.dst && a.src
  | .clz _ d a => d.dst && a.src
  | .brev _ d a => d.dst && a.src
  | .prmt _ x d a b => x.bare && d.dst && a.src && b.src
  | .clmul _ d a b => d.dst && a.src && b.src
  | .clmulh _ d a b => d.dst && a.src && b.src
  | .fadd _ d a b => d.dst && a.src && b.src
  | .fsub _ d a b => d.dst && a.src && b.src
  | .fmul _ d a b => d.dst && a.src && b.src
  | .ffma _ x d a b => x.flt .f32 && d.dst && a.src && b.src
  | .fmin _ d a b => d.dst && a.src && b.src
  | .fmax _ d a b => d.dst && a.src && b.src
  | .sel _ x d a b => x.ok && d.dst && a.src && b.src
  | .padd _ x d a b => x.packed && d.dst && a.src && b.src
  | .psub _ x d a b => x.packed && d.dst && a.src && b.src
  | .pmul _ x d a b => x.packed && d.dst && a.src && b.src
  | .pfma _ x d a b => x.packed && d.dst && a.src && b.src
  | .pmin _ x d a b => x.minmax && d.dst && a.src && b.src
  | .pmax _ x d a b => x.minmax && d.dst && a.src && b.src
  | .dadd _ d a b => d.dst && a.src && b.src
  | .dmul _ d a b => d.dst && a.src && b.src
  | .dfma _ x d a b => x.flt .f64 && d.dst && a.src && b.src
  | .icmp _ x _ a b => x.icmp && a.src && b.src
  | .fcmp _ x _ a b => x.fcmp && a.src && b.src
  | .plop _ _ _ _ _ => true
  | .mov _ d a => d.dst && a.src
  | .movi _ d _ => d.dst
  | .iaddi _ d a _ => d.dst && a.dst
  | .cvt _ x d a => x.ok && d.dst && a.src
  | .frnd _ x d a => x.frnd && d.dst && a.src
  | .fclass _ d a => d.dst && a.src
  | .fabs _ d a => d.dst && a.src
  | .lop3 _ x d a b => x.c.src && d.dst && a.src && b.src
  | .iabs _ d a => d.dst && a.src
  | .ldg _ x d a b => x.load && d.dst && a.src && b.src
  | .stg _ x d a b => x.store && d.src && a.src && b.src
  | .lds _ x d a b => x.load && d.dst && a.src && b.src
  | .sts _ x d a b => x.store && d.src && a.src && b.src
  | .ldb _ x d a b => x.load && d.dst && a.src && b.src
  | .stb _ x d a b => x.store && d.src && a.src && b.src
  | .atomg _ x d a b => x.atomGS && d.src && a.src && b.src
  | .atoms _ x d a b => x.atomGS && d.src && a.src && b.src
  | .atomb _ x d a b => x.atom && d.src && a.src && b.src
  | .fence _ x => x.fence
  | .tfence _ x => x.tfence
  | .pref _ x a b => x.pref && a.src && b.src
  | .qpush _ x d _ => x.queue && d.src
  | .qpop _ x d _ => x.queue && d.dst
  | .cpy _ x d a b => x.ok && d.dst && a.src && b.src
  | .tload _ x d a b => x.ok && d.dst && a.src && b.src
  | .tstore _ x d a b => x.ok && !x.pad && d.dst && a.src && b.src
  | .pwait _ a => a.src
  | .ptest _ _ a => a.src
  | .binit _ a b => a.src && b.src
  | .bexp _ a b => a.src && b.src
  | .barr _ a => a.src
  | .bwait _ d a b => d.dst && a.src && b.src
  | .btest _ _ a b => a.src && b.src
  | .bankop _ x d a b => x.ok && d.dst && a.src && b.src
  | .restripe _ x d a b => x.ok && d.dst && a.src && b.src
  | .geoq _ d a => d.dst && a.src
  | .cancel _ d a => d.dst && a.src
  | .manch _ _ a => a.src
  | .mldw _ _ _ a => a.src
  | .mswap _ _ => true
  | .mma _ _ _ a b => a.src && b.src
  | .mzero _ _ _ => true
  | .mrd _ x _ a b => x.ety = 0 && a.src && b.src
  | .mwr _ x _ a b => (x.ety = 8 || x.ety = 10) && a.src && b.src
  | .msts _ x _ a b => x.ok && a.src && b.src
  | .rstat _ x _ a b => x.c.src && a.src && b.src
  | .mscale _ x _ a b => x.c.src && a.src && b.src
  | .tdef _ _ a => a.src
  | .tqry _ d _ _ => d.dst
  | .mopr _ => true
  | .mwait _ _ => true
  | .mcst _ x d a b => x.c.src && d.dst && a.src && b.src
  | .rload _ x d a b => x.ok && d.src && a.src && b.src
  | .coll _ _ a => a.src
  | .scbset _ a b => a.src && b.src
  | .scbclr _ a b => a.src && b.src
  | .arm _ _ a b => a.src && b.src
  | .gang _ a b => a.src && b.src
  | .peerq _ d a => d.dst && a.src
  | .wcflush _ => true
  | .rspawn _ _ a b => a.src && b.src
  | .mgrp _ a b => a.src && b.src
  | .bra _ _ => true
  | .brx _ a => a.src
  | .call _ d _ => d.dst
  | .ret _ a => a.src
  | .brh _ _ a => a.src
  | .waith _ a => a.src
  | .reconv _ => true
  | .bar _ x a => x.ok && a.src
  | .spawn _ x a b => (x.rem || b = .nul) && a.src && b.src
  | .exit _ => true
  | .suspend _ d a => d.dst && a.src
  | .resume _ a => a.src
  | .resumeS _ d a => d.dst && a.src
  | .cdiscard _ d a => d.dst && a.src
  | .ccopyMove _ a b => a.src && b.src
  | .ccopyFork _ a b => a.src && b.src
  | .sleep _ a => a.src
  | .waitf _ _ d a b => d.dst && a.src && b.src
  | .trap _ _ => true
  | .rft _ => true
  | .getsr _ d _ => d.dst
  | .setsr _ _ a => a.src
  | .yieldH _ => true
  | .racq _ a => a.src
  | .rrel _ => true
  | .nop _ => true
  | .steal _ d a => d.dst && a.src
  | .launch _ d a => d.dst && a.src
  | .waitl _ d a => d.dst && a.src
  | .snap _ a => a.src
  | .rcp _ d a => d.dst && a.src
  | .rsq _ d a => d.dst && a.src
  | .sqrt _ d a => d.dst && a.src
  | .exp2 _ d a => d.dst && a.src
  | .log2 _ d a => d.dst && a.src
  | .sinpi _ d a => d.dst && a.src
  | .cospi _ d a => d.dst && a.src
  | .tanh _ d a => d.dst && a.src
  | .fdiv _ d a b => d.dst && a.src && b.src
  | .sigm _ d a => d.dst && a.src
  | .shfl _ x d a b => x.c.src && d.dst && a.src && b.src
  | .vote _ _ _ => true
  | .ballot _ d _ => d.dst
  | .redux _ x d a => x.ok && d.dst && a.src
  | .scan _ x d a => x.ok && d.dst && a.src
  | .matchL _ d a => d.dst && a.src
  | .matchW64 _ d a => d.dst && a.src
  | .gmred _ _ d a => d.dst && a.src
  | .gmtab _ _ a => a.src
  | .first _ d a => d.dst && a.src
  | .lanemask _ _ d => d.dst
  | .send w => w.value = 0 && w.only true false true false true true false true false && w.idxOk
  | .recv w => w.value = 0 && w.only true false false true true true false true false && w.idxOk
  | .rrs w => w.value = 0 && w.only true true true false true false false true false && w.idxOk
  | .rrw w => w.value = 0 && w.only true false true true true false false true false && w.idxOk
  | .copyStep w => w.value = 0 && w.only false false true true true false false true false && w.idxOk
  | .waitStep w => w.value = 0 && (if w.md then w.only false false false false false false true false false else w.only false false false false false false true false true && w.bitsOk)
  | .loopStep w => w.value = 0 && w.only false false false false true false true true false && w.ia = 0 && w.ib = 0 && w.ij ≠ 3
  | .endl w => w.value = 0 && w.only false false false false false false false false false
  | .peerStep w => w.value = 0 && w.only true false false false true false false true false && w.ia ≠ 3 && w.ij = 0 && w.ib = 0
  | .signal w => (w.value = 0 || w.md) && (if w.md then w.only false false false true false false true true false else w.only false false false false false false true false true && w.bitsOk)
  | .endStep w => w.value = 0 && w.only false false false false false false false false false
  | .instructionSweep => true
  | .pathStarvation => true
  | .groupBoost => true
  | .clauseStart => true
  | .coreRestartEnd => true
  | .registerBlockAvailable => true
  | .flagHeadroomFreed => true
  | .operationLimitFreed => true
  | .ticketSlotFreed => true
  | .enginePlaceFreed => true
  | .batchPortGrant => true
  | .trapDelivery => true
  | .globalLoadReturn => true
  | .globalStoreAccept => true
  | .remoteTimeout => true
  | .heldOperationRelease => true
  | .threadExitComplete => true
  | .waithReturn => true
  | .waitfWake => true
  | .waitfTimeout => true
  | .sleepExpiry => true
  | .promiseExpiry => true
  | .copySector => true
  | .copyComplete => true
  | .pageWalkComplete => true
  | .pageService => true
  | .parkedReplay => true
  | .replInvalidateAck => true
  | .restripeLineMove => true
  | .tfenceWalkerAck => true
  | .plannedDieOffline => true
  | .retainedStateExit => true
  | .bankRequestAdmit => true
  | .bankRequestPerform => true
  | .wcDrain => true
  | .wcEntryAgeExpiry => true
  | .binRecordAccept => true
  | .binTimerExpiry => true
  | .binDeferredLaunch => true
  | .spillRefill => true
  | .spillWaitEnd => true
  | .stealCopyArrival => true
  | .stealAck => true
  | .stealConfirm => true
  | .stealRefusal => true
  | .lendTimeout => true
  | .stealAnswerTimeout => true
  | .thiefCoreReset => true
  | .victimCoreReset => true
  | .hostIntake => true
  | .gridQueueHead => true
  | .admission => true
  | .effectivePriorityAging => true
  | .teamPlacement => true
  | .clusterReservation => true
  | .gridEnd => true
  | .preemption => true
  | .teamSave => true
  | .teamRestore => true
  | .energyWindowEnd => true
  | .checkpoint => true
  | .suspendWrite => true
  | .resumeClaim => true
  | .restoredGroupStart => true
  | .matrixOpStart => true
  | .matrixOperandRelease => true
  | .matrixOpRetire => true
  | .preamble => true
  | .integ => true
  | .sealedBlockClose => true
  | .grant => true
  | .linkctl => true
  | .read => true
  | .write => true
  | .wdata => true
  | .atomic => true
  | .rdata => true
  | .ack => true
  | .nack => true
  | .mcast => true
  | .mcastRound => true
  | .laneRetuneDone => true
  | .mcastReplyTimeout => true
  | .rloadRepliesComplete => true
  | .rloadServerFallback => true
  | .spawnFlit => true
  | .cdata => true
  | .cctl => true
  | .rekeyStart => true
  | .keyInstall => true
  | .genFlip => true
  | .oldKeyErase => true
  | .planeLoss => true
  | .gangPrepare => true
  | .gangPrepared => true
  | .gangRefused => true
  | .gangGo => true
  | .gangGoAck => true
  | .gangAbort => true
  | .gangTear => true
  | .gangPrepareTimeout => true
  | .gangGoWaitTimeout => true
  | .gangAckTimeout => true
  | .collProgramStart => true
  | .programFault => true
  | .chunkTimeout => true
  | .uetRmaWrite => true
  | .cxlExpanderRemoval => true
  | .powerOn => true
  | .bootImage => true
  | .getMeasurements => true
  | .frequencyStep => true
  | .relockDone => true
  | .thermalStep => true
  | .thermalShutdown => true
  | .scrubRead => true
  | .uncorrectableError => true
  | .dieFailure => true
  | .debugHalt => true
  | .debugRelease => true
  | .snapIn => true
  | .snapshotRearm => true
  | .ccopyComplete => true
  | .stealRequest => true
  | .planeOnline => true
  | .contextCreation => true
  | .contextEnd => true

/-- A well-formed instruction: every field in its range and accepted. -/
abbrev Instr.WellFormed (i : Instr) : Prop := i.shapeOk = true

end Sys2Proof
end

