-- ==== Sys2Proof/Decode.lean ====
section
/-!
DEFINITION. Sys2Proof/Decode.lean: from words to instructions and back (R37 to R65, R363). Decoding is total and names
what it refuses. After the decoder stands the encoder, written from the same tables.
-/

namespace Sys2Proof

/-- Why a word is refused: `ILLEGAL_CLAUSE` (R39, R40), `ILLEGAL_INSTRUCTION` (R54, R64, R65), a program fault of the
sequencer (R363), or words that are missing. -/
inductive DecodeError where
  | illegalClause | illegalInstruction | programFault | short
  deriving DecidableEq, Repr

/-! ## Fields -/

/-- The field of `len` bits at bit `lo`. -/
abbrev bits (w : Word) (lo len : Nat) : BitVec len := w.extractLsb' lo len

/-- One bit as a truth value. -/
def bit1 (w : Word) (i : Nat) : Bool := w.getLsbD i

/-- A truth value as one bit. -/
def b1 (b : Bool) : BitVec 1 := BitVec.ofBool b

def Guard.ofBits (g : BitVec 4) : Option Guard :=
  if h : g.toNat < 12 then some (.pred ⟨g.toNat, h⟩)
  else if g = 12 then some .always
  else if g = 13 then some .never
  else none

def Guard.toBits : Guard → BitVec 4
  | .pred n => BitVec.ofNat 4 n.val
  | .always => 12
  | .never => 13

/-- R46, with the literal that code 127 takes. -/
def Opnd.ofCode (c : BitVec 7) (l : Opnd) : Opnd :=
  let n := c.toNat
  if h : n < 64 then .v ⟨n, h⟩
  else if h : n - 64 < 48 then .s ⟨n - 64, h⟩
  else if h : n - 112 < 4 then .t ⟨n - 112, h⟩
  else if h : n - 116 < 6 then .k ⟨n - 116, h⟩
  else if n = 122 then .lane
  else if n = 123 then .hz
  else if n = 124 then .opc
  else if n = 125 then .rtime
  else if n = 126 then .nul
  else l

def Opnd.code : Opnd → BitVec 7
  | .v n => BitVec.ofNat 7 n.val
  | .s n => BitVec.ofNat 7 (64 + n.val)
  | .t n => BitVec.ofNat 7 (112 + n.val)
  | .k n => BitVec.ofNat 7 (116 + n.val)
  | .lane => 122
  | .hz => 123
  | .opc => 124
  | .rtime => 125
  | .nul => 126
  | .lit _ => 127
  | .litNone => 127

def Ty.ofCode (c : BitVec 4) : Option Ty :=
  match c.toNat with
  | 0 => some .i32 | 1 => some .u32 | 2 => some .f32 | 3 => some .bf16x2 | 4 => some .f16x2 | 5 => some .i16x2
  | 6 => some .i8x4 | 7 => some .u8x4 | 8 => some .i64 | 9 => some .u64 | 10 => some .f64 | 11 => some .nf8x4
  | 12 => some .nf8wx4 | 13 => some .nf4x8 | _ => none

def Ty.code : Ty → BitVec 4
  | .i32 => 0 | .u32 => 1 | .f32 => 2 | .bf16x2 => 3 | .f16x2 => 4 | .i16x2 => 5 | .i8x4 => 6 | .u8x4 => 7
  | .i64 => 8 | .u64 => 9 | .f64 => 10 | .nf8x4 => 11 | .nf8wx4 => 12 | .nf4x8 => 13

def Rm.ofCode (c : BitVec 2) : Rm :=
  match c.toNat with
  | 0 => .rne | 1 => .rtz | 2 => .rup | _ => .rdn

def Rm.code : Rm → BitVec 2
  | .rne => 0 | .rtz => 1 | .rup => 2 | .rdn => 3

def Scope.ofCode (c : BitVec 3) : Option Scope :=
  match c.toNat with
  | 0 => some .grp | 1 => some .core | 2 => some .clu | 3 => some .dev | 4 => some .sys | 5 => some .devp | _ => none

def Scope.code : Scope → BitVec 3
  | .grp => 0 | .core => 1 | .clu => 2 | .dev => 3 | .sys => 4 | .devp => 5

def Ord.ofCode (c : BitVec 2) : Ord :=
  match c.toNat with
  | 0 => .rlx | 1 => .acq | 2 => .rel | _ => .ar

def Ord.code : Ord → BitVec 2
  | .rlx => 0 | .acq => 1 | .rel => 2 | .ar => 3

def Space.ofCode (c : BitVec 2) : Option Space :=
  match c.toNat with
  | 0 => some .global | 1 => some .scratch | 2 => some .bank | _ => none

def Space.code : Space → BitVec 2
  | .global => 0 | .scratch => 1 | .bank => 2

def CC.ofCode (c : BitVec 4) : Option CC :=
  match c.toNat with
  | 0 => some .eq | 1 => some .ne | 2 => some .lt | 3 => some .le | 4 => some .gt | 5 => some .ge
  | 6 => some .ord | 7 => some .unord | _ => none

def CC.code : CC → BitVec 4
  | .eq => 0 | .ne => 1 | .lt => 2 | .le => 3 | .gt => 4 | .ge => 5 | .ord => 6 | .unord => 7

def BarMode.ofCode (c : BitVec 2) : Option BarMode :=
  match c.toNat with
  | 0 => some .sync | 1 => some .arrive | 2 => some .wait | _ => none

def BarMode.code : BarMode → BitVec 2
  | .sync => 0 | .arrive => 1 | .wait => 2

/-- A number below a bound, read from a field. -/
def finOf (n : Nat) {k : Nat} (x : BitVec k) : Option (Fin n) :=
  if h : x.toNat < n then some ⟨x.toNat, h⟩ else none

/-- A predicate pair 0 to 5, or 15 for none (R138, R258). -/
def prOf (x : BitVec 4) : Option (Option (Fin 6)) :=
  if x = 15 then some none else (finOf 6 x).map some

def prBits : Option (Fin 6) → BitVec 4
  | none => 15
  | some k => BitVec.ofNat 4 k.val

/-! ## Extension words: one reader and one writer for each shape -/

def Alu3.read (w : Word) (c : Opnd) : Option Alu3 :=
  if bits w 0 15 = 0 then
    (Ty.ofCode (bits w 21 4)).map fun ty =>
      ⟨c, ty, Rm.ofCode (bits w 19 2), bit1 w 18, bit1 w 17, bit1 w 16, bit1 w 15⟩
  else none

def Alu3.bits (x : Alu3) : Word :=
  (0 : BitVec 7) ++ x.ty.code ++ x.rm.code ++ b1 x.sat ++ b1 x.na ++ b1 x.nb ++ b1 x.nc ++ (0 : BitVec 15)

def Alu2.read (w : Word) : Option Alu2 :=
  if Sys2Proof.bits w 25 7 = 0 ∧ Sys2Proof.bits w 0 16 = 0 then
    (Ty.ofCode (Sys2Proof.bits w 21 4)).map fun ty =>
      ⟨ty, Rm.ofCode (Sys2Proof.bits w 19 2), bit1 w 18, bit1 w 17, bit1 w 16⟩
  else none

def Alu2.bits (x : Alu2) : Word :=
  (0 : BitVec 7) ++ x.ty.code ++ x.rm.code ++ b1 x.sat ++ b1 x.na ++ b1 x.nb ++ (0 : BitVec 16)

def SelX.read (w : Word) : Option SelX :=
  if Sys2Proof.bits w 0 24 = 0 then
    (finOf 12 (Sys2Proof.bits w 28 4)).bind fun ps =>
      (Ty.ofCode (Sys2Proof.bits w 24 4)).map fun ty => ⟨ps, ty⟩
  else none

def SelX.bits (x : SelX) : Word := BitVec.ofNat 4 x.ps.val ++ x.ty.code ++ (0 : BitVec 24)

def CmpX.read (w : Word) : Option CmpX :=
  if Sys2Proof.bits w 0 24 = 0 then
    (CC.ofCode (Sys2Proof.bits w 28 4)).bind fun cc =>
      (Ty.ofCode (Sys2Proof.bits w 24 4)).map fun ty => ⟨cc, ty⟩
  else none

def CmpX.bits (x : CmpX) : Word := x.cc.code ++ x.ty.code ++ (0 : BitVec 24)

def PlopX.read (w : Word) : Option PlopX :=
  if Sys2Proof.bits w 0 28 = 0 then some ⟨Sys2Proof.bits w 28 4⟩ else none

def PlopX.bits (x : PlopX) : Word := x.tt ++ (0 : BitVec 28)

def Lop3X.read (w : Word) (c : Opnd) : Option Lop3X :=
  if Sys2Proof.bits w 0 17 = 0 then some ⟨c, Sys2Proof.bits w 17 8⟩ else none

def Lop3X.bits (x : Lop3X) : Word := (0 : BitVec 7) ++ x.tt ++ (0 : BitVec 17)

def CvtX.read (w : Word) : Option CvtX :=
  if Sys2Proof.bits w 21 3 = 0 ∧ Sys2Proof.bits w 0 18 = 0 then
    (Ty.ofCode (Sys2Proof.bits w 28 4)).bind fun s =>
      (Ty.ofCode (Sys2Proof.bits w 24 4)).map fun d => ⟨s, d, Rm.ofCode (Sys2Proof.bits w 19 2), bit1 w 18⟩
  else none

def CvtX.bits (x : CvtX) : Word :=
  x.sty.code ++ x.dty.code ++ (0 : BitVec 3) ++ x.rm.code ++ b1 x.sat ++ (0 : BitVec 18)

def Mx.read (w : Word) : Option Mx :=
  (finOf 6 (Sys2Proof.bits w 25 3)).bind fun wd =>
    (Scope.ofCode (Sys2Proof.bits w 19 3)).map fun sc =>
      ⟨Sys2Proof.bits w 28 4, wd, bit1 w 24, Ord.ofCode (Sys2Proof.bits w 22 2), sc, bit1 w 18, bit1 w 17,
        Sys2Proof.bits w 0 17⟩

def Mx.bits (x : Mx) : Word :=
  x.aop ++ BitVec.ofNat 3 x.w.val ++ b1 x.sgn ++ x.ord.code ++ x.scope.code ++ b1 x.h ++ b1 x.ret ++ x.ofs

def Cx.read (w : Word) (bar : Opnd) : Option Cx :=
  if Sys2Proof.bits w 0 15 = 0 then
    (Space.ofCode (Sys2Proof.bits w 30 2)).bind fun s =>
      (Space.ofCode (Sys2Proof.bits w 28 2)).bind fun d =>
        (Scope.ofCode (Sys2Proof.bits w 18 3)).map fun c => ⟨s, d, bar, c, bit1 w 17, bit1 w 16, bit1 w 15⟩
  else none

def Cx.bits (x : Cx) : Word :=
  x.ssp.code ++ x.dsp.code ++ (0 : BitVec 7) ++ x.csc.code ++ b1 x.h ++ b1 x.bytes ++ b1 x.par ++ (0 : BitVec 15)

def TxX.read (w : Word) (bar : Opnd) : Option TxX :=
  if Sys2Proof.bits w 0 10 = 0 then
    (Scope.ofCode (Sys2Proof.bits w 21 3)).map fun c =>
      ⟨Sys2Proof.bits w 24 8, c, bar, bit1 w 13, bit1 w 12, bit1 w 11, bit1 w 10⟩
  else none

def TxX.bits (x : TxX) : Word :=
  x.txi ++ x.csc.code ++ (0 : BitVec 7) ++ b1 x.h ++ b1 x.bytes ++ b1 x.par ++ b1 x.pad ++ (0 : BitVec 10)

def BkX.read (w : Word) : Option BkX :=
  if Sys2Proof.bits w 0 16 = 0 then
    (finOf 7 (Sys2Proof.bits w 28 4)).bind fun k =>
      (Ty.ofCode (Sys2Proof.bits w 24 4)).bind fun ty =>
        (Scope.ofCode (Sys2Proof.bits w 17 3)).map fun c =>
          ⟨k, ty, Rm.ofCode (Sys2Proof.bits w 22 2), bit1 w 21, bit1 w 20, c, bit1 w 16⟩
  else none

def BkX.bits (x : BkX) : Word :=
  BitVec.ofNat 4 x.opk.val ++ x.ty.code ++ x.rm.code ++ b1 x.sat ++ b1 x.sc ++ x.csc.code ++ b1 x.h ++ (0 : BitVec 16)

def RsX.read (w : Word) : Option RsX :=
  if Sys2Proof.bits w 0 16 = 0 then
    (Scope.ofCode (Sys2Proof.bits w 17 3)).map fun c => ⟨Sys2Proof.bits w 20 12, c, bit1 w 16⟩
  else none

def RsX.bits (x : RsX) : Word := x.npg ++ x.csc.code ++ b1 x.h ++ (0 : BitVec 16)

def MmaX.read (w : Word) : Option MmaX :=
  if Sys2Proof.bits w 0 12 = 0 then
    some ⟨Sys2Proof.bits w 28 4, Sys2Proof.bits w 21 7, Sys2Proof.bits w 13 8, bit1 w 12⟩
  else none

def MmaX.bits (x : MmaX) : Word := x.tile ++ x.row ++ x.txa ++ b1 x.ovw ++ (0 : BitVec 12)

def MstsX.read (w : Word) (c : Opnd) : Option MstsX :=
  if Sys2Proof.bits w 0 14 = 0 then
    some ⟨c, Sys2Proof.bits w 21 4, Sys2Proof.bits w 17 4, Rm.ofCode (Sys2Proof.bits w 15 2), bit1 w 14⟩
  else none

def MstsX.bits (x : MstsX) : Word :=
  (0 : BitVec 7) ++ x.tile ++ x.dty ++ x.rm.code ++ b1 x.sat ++ (0 : BitVec 14)

def LwX.read (w : Word) : Option LwX :=
  if Sys2Proof.bits w 0 23 = 0 then some ⟨Sys2Proof.bits w 24 8, bit1 w 23⟩ else none

def LwX.bits (x : LwX) : Word := x.txi ++ b1 x.swp ++ (0 : BitVec 23)

def EwX.read (w : Word) : Option EwX :=
  if Sys2Proof.bits w 0 3 = 0 then
    some ⟨Sys2Proof.bits w 28 4, Sys2Proof.bits w 21 7, Sys2Proof.bits w 14 7, Sys2Proof.bits w 7 7, Sys2Proof.bits w 3 4⟩
  else none

def EwX.bits (x : EwX) : Word := x.tile ++ x.row ++ x.col ++ x.ncm ++ x.ety ++ (0 : BitVec 3)

def StX.read (w : Word) (c : Opnd) : Option StX :=
  if Sys2Proof.bits w 0 19 = 0 then some ⟨c, Sys2Proof.bits w 21 4, Sys2Proof.bits w 19 2⟩ else none

def StX.bits (x : StX) : Word := (0 : BitVec 7) ++ x.tile ++ x.mode ++ (0 : BitVec 19)

def MsX.read (w : Word) (c : Opnd) : Option MsX :=
  if Sys2Proof.bits w 0 19 = 0 then some ⟨c, Sys2Proof.bits w 21 4, Rm.ofCode (Sys2Proof.bits w 19 2)⟩ else none

def MsX.bits (x : MsX) : Word := (0 : BitVec 7) ++ x.tile ++ x.rm.code ++ (0 : BitVec 19)

def McX.read (w : Word) (c : Opnd) : Option McX :=
  if Sys2Proof.bits w 0 23 = 0 then some ⟨bit1 w 31, c, bit1 w 23⟩ else none

def McX.bits (x : McX) : Word := b1 x.ssp ++ (0 : BitVec 7) ++ b1 x.rel ++ (0 : BitVec 23)

def RlX.read (w : Word) : Option RlX :=
  if Sys2Proof.bits w 0 25 = 0 then
    (finOf 3 (Sys2Proof.bits w 26 2)).map fun r => ⟨Sys2Proof.bits w 28 4, r, bit1 w 25⟩
  else none

def RlX.bits (x : RlX) : Word := x.ety ++ BitVec.ofNat 2 x.rop.val ++ b1 x.acq ++ (0 : BitVec 25)

def AmX.read (w : Word) : Option AmX :=
  if Sys2Proof.bits w 0 24 = 0 then some ⟨Sys2Proof.bits w 24 8⟩ else none

def AmX.bits (x : AmX) : Word := x.sb ++ (0 : BitVec 24)

def RpX.read (w : Word) : Option RpX :=
  if Sys2Proof.bits w 0 18 = 0 then some ⟨Sys2Proof.bits w 22 10, Sys2Proof.bits w 18 4⟩ else none

def RpX.bits (x : RpX) : Word := x.node ++ x.nw ++ (0 : BitVec 18)

def BarX.read (w : Word) : Option BarX :=
  if Sys2Proof.bits w 0 25 = 0 then
    (BarMode.ofCode (Sys2Proof.bits w 25 2)).map fun m => ⟨Sys2Proof.bits w 28 4, bit1 w 27, m⟩
  else none

def BarX.bits (x : BarX) : Word := x.idx ++ b1 x.clu ++ x.mode.code ++ (0 : BitVec 25)

def SpX.read (w : Word) : Option SpX :=
  if Sys2Proof.bits w 0 17 = 0 then some ⟨Sys2Proof.bits w 22 10, Sys2Proof.bits w 18 4, bit1 w 17⟩ else none

def SpX.bits (x : SpX) : Word := x.node ++ x.nw ++ b1 x.rem ++ (0 : BitVec 17)

def WfX.read (w : Word) : Option WfX :=
  if bit1 w 31 then none
  else
    (Space.ofCode (Sys2Proof.bits w 26 2)).bind fun sp =>
      (Scope.ofCode (Sys2Proof.bits w 21 3)).bind fun sc =>
        (prOf (Sys2Proof.bits w 12 4)).map fun pr =>
          ⟨Sys2Proof.bits w 28 3, sp, bit1 w 25, bit1 w 24, sc, Sys2Proof.bits w 16 5, pr, Sys2Proof.bits w 0 12⟩

def WfX.bits (x : WfX) : Word :=
  (0 : BitVec 1) ++ x.cc ++ x.spc.code ++ b1 x.w64 ++ b1 x.acq ++ x.scope.code ++ x.tmo ++ prBits x.pr ++ x.ofs

def ShX.read (w : Word) (c : Opnd) : Option ShX :=
  if Sys2Proof.bits w 0 15 = 0 then
    (prOf (Sys2Proof.bits w 19 4)).map fun pr =>
      ⟨c, Sys2Proof.bits w 23 2, pr, bit1 w 18, Sys2Proof.bits w 15 3⟩
  else none

def ShX.bits (x : ShX) : Word :=
  (0 : BitVec 7) ++ x.mode ++ prBits x.pr ++ b1 x.w64 ++ x.seg ++ (0 : BitVec 15)

def VtX.read (w : Word) : Option VtX :=
  if Sys2Proof.bits w 0 25 = 0 then
    (finOf 12 (Sys2Proof.bits w 26 4)).map fun ps => ⟨Sys2Proof.bits w 30 2, ps, bit1 w 25⟩
  else none

def VtX.bits (x : VtX) : Word := x.mode ++ BitVec.ofNat 4 x.ps.val ++ b1 x.neg ++ (0 : BitVec 25)

def RxX.read (w : Word) : Option RxX :=
  if Sys2Proof.bits w 0 24 = 0 then
    (finOf 6 (Sys2Proof.bits w 28 4)).bind fun o => (Ty.ofCode (Sys2Proof.bits w 24 4)).map fun ty => ⟨o, ty⟩
  else none

def RxX.bits (x : RxX) : Word := BitVec.ofNat 4 x.opr.val ++ x.ty.code ++ (0 : BitVec 24)

def ScX.read (w : Word) : Option ScX :=
  if Sys2Proof.bits w 0 23 = 0 then
    (finOf 4 (Sys2Proof.bits w 28 4)).bind fun o =>
      (Ty.ofCode (Sys2Proof.bits w 24 4)).map fun ty => ⟨o, ty, bit1 w 23⟩
  else none

def ScX.bits (x : ScX) : Word := BitVec.ofNat 4 x.opr.val ++ x.ty.code ++ b1 x.exc ++ (0 : BitVec 23)

def GmX.read (w : Word) : Option GmX :=
  if Sys2Proof.bits w 0 30 = 0 then some ⟨bit1 w 31, bit1 w 30⟩ else none

def GmX.bits (x : GmX) : Word := b1 x.inS ++ b1 x.ext ++ (0 : BitVec 30)

def LmX.read (w : Word) : Option LmX :=
  if Sys2Proof.bits w 0 29 = 0 then some ⟨Sys2Proof.bits w 29 3⟩ else none

def LmX.bits (x : LmX) : Word := x.mode ++ (0 : BitVec 29)

/-! ## The form of each opcode -/

/-- What a field of the instruction word is (R48, R114, R131, R158, R173, R228, R251, R258, R373): not read, a
destination, a source (code 127 takes a literal), an operand that never takes one, or a number. -/
inductive Role where
  | none | dst | src | noLit | imm
  deriving DecidableEq, Repr

/-- An opcode's form: the three fields, whether an extension word follows (X in R64), and the bit at which the
extension word holds an operand. -/
structure Form where
  d : Role
  a : Role
  b : Role
  ext : Bool := false
  at? : Option Nat := Option.none
  deriving DecidableEq, Repr

/-- A field as read. -/
inductive Fld where
  | none | op (o : Opnd) | imm (x : BitVec 7)
  deriving DecidableEq, Repr

/-- An instruction of any page with its fields split and its literals taken, before its opcode gives it a name. -/
structure Gen where
  page : Nat
  op : Nat
  p : Pre
  d : Fld := .none
  a : Fld := .none
  b : Fld := .none
  x : Option Word := Option.none
  c : Option Opnd := Option.none
  deriving DecidableEq, Repr

/-- The ALU page (R64). -/
def formAlu : Nat → Option Form
  | 0x00 => some ⟨.dst, .src, .src, false, none⟩
  | 0x01 => some ⟨.dst, .src, .src, false, none⟩
  | 0x02 => some ⟨.dst, .src, .src, false, none⟩
  | 0x03 => some ⟨.dst, .src, .src, false, none⟩
  | 0x04 => some ⟨.dst, .src, .src, false, none⟩
  | 0x05 => some ⟨.dst, .src, .src, false, none⟩
  | 0x06 => some ⟨.dst, .src, .src, false, none⟩
  | 0x07 => some ⟨.dst, .src, .src, false, none⟩
  | 0x08 => some ⟨.dst, .src, .src, false, none⟩
  | 0x09 => some ⟨.dst, .src, .src, false, none⟩
  | 0x0A => some ⟨.dst, .src, .src, false, none⟩
  | 0x0B => some ⟨.dst, .src, .src, false, none⟩
  | 0x0C => some ⟨.dst, .src, .src, false, none⟩
  | 0x0D => some ⟨.dst, .src, .src, false, none⟩
  | 0x0E => some ⟨.dst, .src, .src, false, none⟩
  | 0x0F => some ⟨.dst, .src, .src, false, none⟩
  | 0x10 => some ⟨.dst, .src, .src, false, none⟩
  | 0x11 => some ⟨.dst, .src, .src, false, none⟩
  | 0x12 => some ⟨.dst, .src, .src, false, none⟩
  | 0x13 => some ⟨.dst, .src, .src, true, some 25⟩
  | 0x14 => some ⟨.dst, .src, .src, true, some 25⟩
  | 0x15 => some ⟨.dst, .src, .src, false, none⟩
  | 0x16 => some ⟨.dst, .src, .src, false, none⟩
  | 0x17 => some ⟨.dst, .src, .src, true, some 25⟩
  | 0x18 => some ⟨.dst, .src, .none, false, none⟩
  | 0x19 => some ⟨.dst, .src, .none, false, none⟩
  | 0x1A => some ⟨.dst, .src, .none, false, none⟩
  | 0x1B => some ⟨.dst, .src, .src, true, some 25⟩
  | 0x1C => some ⟨.dst, .src, .src, false, none⟩
  | 0x1D => some ⟨.dst, .src, .src, false, none⟩
  | 0x1E => some ⟨.dst, .src, .src, false, none⟩
  | 0x1F => some ⟨.dst, .src, .src, false, none⟩
  | 0x20 => some ⟨.dst, .src, .src, false, none⟩
  | 0x21 => some ⟨.dst, .src, .src, true, some 25⟩
  | 0x22 => some ⟨.dst, .src, .src, false, none⟩
  | 0x23 => some ⟨.dst, .src, .src, false, none⟩
  | 0x24 => some ⟨.dst, .src, .src, true, none⟩
  | 0x25 => some ⟨.dst, .src, .src, true, none⟩
  | 0x26 => some ⟨.dst, .src, .src, true, none⟩
  | 0x27 => some ⟨.dst, .src, .src, true, none⟩
  | 0x28 => some ⟨.dst, .src, .src, true, some 25⟩
  | 0x29 => some ⟨.dst, .src, .src, true, none⟩
  | 0x2A => some ⟨.dst, .src, .src, true, none⟩
  | 0x2B => some ⟨.dst, .src, .src, false, none⟩
  | 0x2C => some ⟨.dst, .src, .src, false, none⟩
  | 0x2D => some ⟨.dst, .src, .src, true, some 25⟩
  | 0x2E => some ⟨.imm, .src, .src, true, none⟩
  | 0x2F => some ⟨.imm, .src, .src, true, none⟩
  | 0x30 => some ⟨.imm, .imm, .imm, true, none⟩
  | 0x31 => some ⟨.dst, .src, .none, false, none⟩
  | 0x32 => some ⟨.dst, .imm, .imm, false, none⟩
  | 0x33 => some ⟨.dst, .noLit, .imm, false, none⟩
  | 0x34 => some ⟨.dst, .src, .none, true, none⟩
  | 0x35 => some ⟨.dst, .src, .none, true, none⟩
  | 0x36 => some ⟨.dst, .src, .none, false, none⟩
  | 0x37 => some ⟨.dst, .src, .none, false, none⟩
  | 0x38 => some ⟨.dst, .src, .src, true, some 25⟩
  | 0x39 => some ⟨.dst, .src, .none, false, none⟩
  | _ => none

/-- The MEM page (R64). -/
def formMem : Nat → Option Form
  | 0x00 => some ⟨.dst, .src, .src, true, none⟩
  | 0x01 => some ⟨.src, .src, .src, true, none⟩
  | 0x02 => some ⟨.dst, .src, .src, true, none⟩
  | 0x03 => some ⟨.src, .src, .src, true, none⟩
  | 0x04 => some ⟨.dst, .src, .src, true, none⟩
  | 0x05 => some ⟨.src, .src, .src, true, none⟩
  | 0x06 => some ⟨.src, .src, .src, true, none⟩
  | 0x07 => some ⟨.src, .src, .src, true, none⟩
  | 0x08 => some ⟨.src, .src, .src, true, none⟩
  | 0x09 => some ⟨.none, .none, .none, true, none⟩
  | 0x0A => some ⟨.none, .none, .none, true, none⟩
  | 0x0B => some ⟨.none, .src, .src, true, none⟩
  | 0x0C => some ⟨.src, .imm, .none, true, none⟩
  | 0x0D => some ⟨.dst, .imm, .none, true, none⟩
  | _ => none

/-- The ASYNC page (R64). -/
def formAsync : Nat → Option Form
  | 0x00 => some ⟨.dst, .src, .src, true, some 21⟩
  | 0x01 => some ⟨.dst, .src, .src, true, some 14⟩
  | 0x02 => some ⟨.dst, .src, .src, true, some 14⟩
  | 0x03 => some ⟨.none, .src, .none, false, none⟩
  | 0x04 => some ⟨.imm, .src, .none, false, none⟩
  | 0x05 => some ⟨.none, .src, .src, false, none⟩
  | 0x06 => some ⟨.none, .src, .src, false, none⟩
  | 0x07 => some ⟨.none, .src, .none, false, none⟩
  | 0x08 => some ⟨.dst, .src, .src, false, none⟩
  | 0x09 => some ⟨.imm, .src, .src, false, none⟩
  | 0x0A => some ⟨.dst, .src, .src, true, none⟩
  | 0x0B => some ⟨.dst, .src, .src, true, none⟩
  | 0x0C => some ⟨.dst, .src, .none, false, none⟩
  | 0x0D => some ⟨.dst, .src, .none, false, none⟩
  | _ => none

/-- The MTX page (R64). -/
def formMtx : Nat → Option Form
  | 0x00 => some ⟨.imm, .src, .none, false, none⟩
  | 0x01 => some ⟨.imm, .src, .none, true, none⟩
  | 0x02 => some ⟨.imm, .none, .none, false, none⟩
  | 0x03 => some ⟨.imm, .src, .src, true, none⟩
  | 0x04 => some ⟨.imm, .imm, .none, false, none⟩
  | 0x05 => some ⟨.imm, .src, .src, true, none⟩
  | 0x06 => some ⟨.imm, .src, .src, true, none⟩
  | 0x07 => some ⟨.imm, .src, .src, true, some 25⟩
  | 0x08 => some ⟨.imm, .src, .src, true, some 25⟩
  | 0x09 => some ⟨.imm, .src, .src, true, some 25⟩
  | 0x0A => some ⟨.imm, .src, .imm, false, none⟩
  | 0x0B => some ⟨.dst, .imm, .imm, false, none⟩
  | 0x0C => some ⟨.none, .none, .none, false, none⟩
  | 0x0D => some ⟨.none, .imm, .none, false, none⟩
  | _ => none

/-- The FAB page (R64). -/
def formFab : Nat → Option Form
  | 0x00 => some ⟨.dst, .src, .src, true, some 24⟩
  | 0x01 => some ⟨.src, .src, .src, true, none⟩
  | 0x02 => some ⟨.imm, .src, .none, false, none⟩
  | 0x03 => some ⟨.none, .src, .src, false, none⟩
  | 0x04 => some ⟨.none, .src, .src, false, none⟩
  | 0x05 => some ⟨.none, .src, .src, true, none⟩
  | 0x06 => some ⟨.none, .src, .src, false, none⟩
  | 0x07 => some ⟨.dst, .src, .none, false, none⟩
  | 0x08 => some ⟨.none, .none, .none, false, none⟩
  | 0x09 => some ⟨.none, .src, .src, true, none⟩
  | 0x0A => some ⟨.none, .src, .src, false, none⟩
  | _ => none

/-- The CTL page (R64). -/
def formCtl : Nat → Option Form
  | 0x00 => some ⟨.imm, .imm, .imm, false, none⟩
  | 0x01 => some ⟨.none, .src, .none, false, none⟩
  | 0x02 => some ⟨.dst, .imm, .imm, false, none⟩
  | 0x03 => some ⟨.none, .src, .none, false, none⟩
  | 0x04 => some ⟨.imm, .src, .imm, false, none⟩
  | 0x05 => some ⟨.none, .src, .none, false, none⟩
  | 0x06 => some ⟨.none, .none, .none, false, none⟩
  | 0x07 => some ⟨.none, .src, .none, true, none⟩
  | 0x08 => some ⟨.none, .src, .src, true, none⟩
  | 0x09 => some ⟨.none, .none, .none, false, none⟩
  | 0x0A => some ⟨.dst, .src, .none, false, none⟩
  | 0x0B => some ⟨.dst, .src, .imm, false, none⟩
  | 0x0C => some ⟨.dst, .src, .none, false, none⟩
  | 0x0D => some ⟨.imm, .src, .src, false, none⟩
  | 0x0E => some ⟨.none, .src, .none, false, none⟩
  | 0x0F => some ⟨.dst, .src, .src, true, none⟩
  | 0x10 => some ⟨.none, .imm, .imm, false, none⟩
  | 0x11 => some ⟨.none, .none, .none, false, none⟩
  | 0x12 => some ⟨.dst, .imm, .none, false, none⟩
  | 0x13 => some ⟨.imm, .src, .none, false, none⟩
  | 0x14 => some ⟨.none, .none, .none, false, none⟩
  | 0x15 => some ⟨.none, .src, .none, false, none⟩
  | 0x16 => some ⟨.none, .none, .none, false, none⟩
  | 0x17 => some ⟨.none, .none, .none, false, none⟩
  | 0x18 => some ⟨.dst, .src, .none, false, none⟩
  | 0x19 => some ⟨.dst, .src, .none, false, none⟩
  | 0x1A => some ⟨.dst, .src, .none, false, none⟩
  | 0x1B => some ⟨.none, .src, .none, false, none⟩
  | _ => none

/-- The SFU and cross-lane page (R64). -/
def formSfu : Nat → Option Form
  | 0x00 => some ⟨.dst, .src, .none, false, none⟩
  | 0x01 => some ⟨.dst, .src, .none, false, none⟩
  | 0x02 => some ⟨.dst, .src, .none, false, none⟩
  | 0x03 => some ⟨.dst, .src, .none, false, none⟩
  | 0x04 => some ⟨.dst, .src, .none, false, none⟩
  | 0x05 => some ⟨.dst, .src, .none, false, none⟩
  | 0x06 => some ⟨.dst, .src, .none, false, none⟩
  | 0x07 => some ⟨.dst, .src, .none, false, none⟩
  | 0x08 => some ⟨.dst, .src, .src, false, none⟩
  | 0x09 => some ⟨.dst, .src, .none, false, none⟩
  | 0x0A => some ⟨.dst, .src, .src, true, some 25⟩
  | 0x0B => some ⟨.imm, .none, .none, true, none⟩
  | 0x0C => some ⟨.dst, .imm, .none, false, none⟩
  | 0x0D => some ⟨.dst, .src, .none, true, none⟩
  | 0x0E => some ⟨.dst, .src, .none, true, none⟩
  | 0x0F => some ⟨.dst, .src, .imm, false, none⟩
  | 0x10 => some ⟨.dst, .src, .none, true, none⟩
  | 0x11 => some ⟨.imm, .src, .none, false, none⟩
  | 0x12 => some ⟨.dst, .src, .none, false, none⟩
  | 0x13 => some ⟨.dst, .none, .none, true, none⟩
  | _ => none

/-- The form of opcode `op` on page `page`, if it is assigned (R64). -/
def formOf (page op : Nat) : Option Form :=
  match page with
  | 0 => formAlu op
  | 1 => formMem op
  | 2 => formAsync op
  | 3 => formMtx op
  | 4 => formFab op
  | 5 => formCtl op
  | 6 => formSfu op
  | _ => none

/-- How many literal words a field adds (R39). -/
def Role.lits (r : Role) (c : BitVec 7) : Nat :=
  match r with
  | .src => if c = 127 then 1 else 0
  | _ => 0

/-- The opcode of an instruction word. -/
def opOf (w : Word) : Nat := (bits w 21 6).toNat

/-- How many words the instruction at the head of `ws` takes: the word, its extension, its literals and its live word
(R39). An unassigned opcode takes neither extension nor literal. -/
def instrLen (page : Nat) (ws : List Word) : Nat :=
  match ws with
  | [] => 1
  | w :: rest =>
    let sp := if bit1 w 31 then 1 else 0
    match formOf page (opOf w) with
    | none => 1 + sp
    | some f =>
      let x := rest.headD 0
      let cl := match f.at? with
        | none => 0
        | some k => if bits x k 7 = 127 then 1 else 0
      1 + (if f.ext then 1 else 0) + (f.d.lits (bits w 14 7) + f.a.lits (bits w 7 7) + f.b.lits (bits w 0 7) + cl) + sp

/-- Reads one field; a source with code 127 takes the next literal word (R48). -/
def Fld.read (r : Role) (c : BitVec 7) (ws : List Word) : Option (Fld × List Word) :=
  match r with
  | .none => some (.none, ws)
  | .imm => some (.imm c, ws)
  | .dst => some (.op (Opnd.ofCode c .litNone), ws)
  | .noLit => some (.op (Opnd.ofCode c .litNone), ws)
  | .src =>
    if c = 127 then
      match ws with
      | [] => Option.none
      | l :: ws => some (.op (.lit l), ws)
    else some (.op (Opnd.ofCode c .litNone), ws)

/-- The operand of the extension word, if it holds one. -/
def readExtOpnd (at? : Option Nat) (x : Word) (ws : List Word) : Option (Option Opnd × List Word) :=
  match at? with
  | none => some (none, ws)
  | some k =>
    match Fld.read .src (bits x k 7) ws with
    | some (.op o, ws) => some (some o, ws)
    | _ => none

/-- Splits the first instruction of `ws` into its fields, and gives the words after it. -/
def readGen (page : Nat) (ws : List Word) : Except DecodeError (Gen × List Word) :=
  match ws with
  | [] => .error .short
  | w :: r0 =>
    match Guard.ofBits (bits w 27 4), formOf page (opOf w) with
    | some g, some f =>
      let r1 := if f.ext then r0.drop 1 else r0
      let x := r0.headD 0
      if f.ext && r0.isEmpty then .error .short
      else
        match (Fld.read f.d (bits w 14 7) r1).bind fun (d, r2) =>
            (Fld.read f.a (bits w 7 7) r2).bind fun (a, r3) =>
              (Fld.read f.b (bits w 0 7) r3).bind fun (b, r4) =>
                (readExtOpnd f.at? x r4).map fun (c, r5) => (d, a, b, c, r5) with
        | none => .error .short
        | some (d, a, b, c, r5) =>
          let gx := if f.ext then some x else none
          if bit1 w 31 then
            match r5 with
            | [] => .error .short
            | l :: r6 => .ok (⟨page, opOf w, ⟨g, some l⟩, d, a, b, gx, c⟩, r6)
          else .ok (⟨page, opOf w, ⟨g, none⟩, d, a, b, gx, c⟩, r5)
    | _, _ => .error .illegalInstruction

/-! ## Naming the instruction -/

def Gen.oneOp (f : Fld) : Option Opnd :=
  match f with
  | .op o => some o
  | _ => none

def Gen.oneImm (f : Fld) : Option (BitVec 7) :=
  match f with
  | .imm x => some x
  | _ => none

/-- The 14-bit immediate over `A` and `B` (R45). -/
def Gen.i14 (g : Gen) : Option (BitVec 14) :=
  (Gen.oneImm g.a).bind fun a => (Gen.oneImm g.b).map fun b => a ++ b

/-- The 21-bit immediate over `D`, `A` and `B` (R45). -/
def Gen.i21 (g : Gen) : Option (BitVec 21) :=
  (Gen.oneImm g.d).bind fun d => (Gen.oneImm g.a).bind fun a => (Gen.oneImm g.b).map fun b => d ++ a ++ b

def Gen.brh (g : Gen) : Option (BitVec 14) :=
  (Gen.oneImm g.d).bind fun d => (Gen.oneImm g.b).map fun b => d ++ b

/-- The ALU page. -/
def Gen.alu (g : Gen) : Option Instr :=
  match g.op with
  | 0x00 => (Gen.oneOp g.d).bind fun d => (Gen.oneOp g.a).bind fun a => (Gen.oneOp g.b).map fun b => .iadd g.p d a b
  | 0x01 => (Gen.oneOp g.d).bind fun d => (Gen.oneOp g.a).bind fun a => (Gen.oneOp g.b).map fun b => .isub g.p d a b
  | 0x02 => (Gen.oneOp g.d).bind fun d => (Gen.oneOp g.a).bind fun a => (Gen.oneOp g.b).map fun b => .imul g.p d a b
  | 0x03 => (Gen.oneOp g.d).bind fun d => (Gen.oneOp g.a).bind fun a => (Gen.oneOp g.b).map fun b => .imulhI g.p d a b
  | 0x04 => (Gen.oneOp g.d).bind fun d => (Gen.oneOp g.a).bind fun a => (Gen.oneOp g.b).map fun b => .imulhU g.p d a b
  | 0x05 => (Gen.oneOp g.d).bind fun d => (Gen.oneOp g.a).bind fun a => (Gen.oneOp g.b).map fun b => .iminI g.p d a b
  | 0x06 => (Gen.oneOp g.d).bind fun d => (Gen.oneOp g.a).bind fun a => (Gen.oneOp g.b).map fun b => .iminU g.p d a b
  | 0x07 => (Gen.oneOp g.d).bind fun d => (Gen.oneOp g.a).bind fun a => (Gen.oneOp g.b).map fun b => .imaxI g.p d a b
  | 0x08 => (Gen.oneOp g.d).bind fun d => (Gen.oneOp g.a).bind fun a => (Gen.oneOp g.b).map fun b => .imaxU g.p d a b
  | 0x09 => (Gen.oneOp g.d).bind fun d => (Gen.oneOp g.a).bind fun a => (Gen.oneOp g.b).map fun b => .and g.p d a b
  | 0x0A => (Gen.oneOp g.d).bind fun d => (Gen.oneOp g.a).bind fun a => (Gen.oneOp g.b).map fun b => .or g.p d a b
  | 0x0B => (Gen.oneOp g.d).bind fun d => (Gen.oneOp g.a).bind fun a => (Gen.oneOp g.b).map fun b => .xor g.p d a b
  | 0x0C => (Gen.oneOp g.d).bind fun d => (Gen.oneOp g.a).bind fun a => (Gen.oneOp g.b).map fun b => .andn g.p d a b
  | 0x0D => (Gen.oneOp g.d).bind fun d => (Gen.oneOp g.a).bind fun a => (Gen.oneOp g.b).map fun b => .shl g.p d a b
  | 0x0E => (Gen.oneOp g.d).bind fun d => (Gen.oneOp g.a).bind fun a => (Gen.oneOp g.b).map fun b => .shr g.p d a b
  | 0x0F => (Gen.oneOp g.d).bind fun d => (Gen.oneOp g.a).bind fun a => (Gen.oneOp g.b).map fun b => .sar g.p d a b
  | 0x10 => (Gen.oneOp g.d).bind fun d => (Gen.oneOp g.a).bind fun a => (Gen.oneOp g.b).map fun b => .rol g.p d a b
  | 0x11 => (Gen.oneOp g.d).bind fun d => (Gen.oneOp g.a).bind fun a => (Gen.oneOp g.b).map fun b => .iadd64 g.p d a b
  | 0x12 => (Gen.oneOp g.d).bind fun d => (Gen.oneOp g.a).bind fun a => (Gen.oneOp g.b).map fun b => .isub64 g.p d a b
  | 0x13 => ((match g.x, g.c with | some w, some c => Alu3.read w c | _, _ => none)).bind fun x => (Gen.oneOp g.d).bind fun d => (Gen.oneOp g.a).bind fun a => (Gen.oneOp g.b).map fun b => .imad g.p x d a b
  | 0x14 => ((match g.x, g.c with | some w, some c => Alu3.read w c | _, _ => none)).bind fun x => (Gen.oneOp g.d).bind fun d => (Gen.oneOp g.a).bind fun a => (Gen.oneOp g.b).map fun b => .imadw g.p x d a b
  | 0x15 => (Gen.oneOp g.d).bind fun d => (Gen.oneOp g.a).bind fun a => (Gen.oneOp g.b).map fun b => .bfeU g.p d a b
  | 0x16 => (Gen.oneOp g.d).bind fun d => (Gen.oneOp g.a).bind fun a => (Gen.oneOp g.b).map fun b => .bfeI g.p d a b
  | 0x17 => ((match g.x, g.c with | some w, some c => Alu3.read w c | _, _ => none)).bind fun x => (Gen.oneOp g.d).bind fun d => (Gen.oneOp g.a).bind fun a => (Gen.oneOp g.b).map fun b => .bfi g.p x d a b
  | 0x18 => (Gen.oneOp g.d).bind fun d => (Gen.oneOp g.a).map fun a => .popc g.p d a
  | 0x19 => (Gen.oneOp g.d).bind fun d => (Gen.oneOp g.a).map fun a => .clz g.p d a
  | 0x1A => (Gen.oneOp g.d).bind fun d => (Gen.oneOp g.a).map fun a => .brev g.p d a
  | 0x1B => ((match g.x, g.c with | some w, some c => Alu3.read w c | _, _ => none)).bind fun x => (Gen.oneOp g.d).bind fun d => (Gen.oneOp g.a).bind fun a => (Gen.oneOp g.b).map fun b => .prmt g.p x d a b
  | 0x1C => (Gen.oneOp g.d).bind fun d => (Gen.oneOp g.a).bind fun a => (Gen.oneOp g.b).map fun b => .clmul g.p d a b
  | 0x1D => (Gen.oneOp g.d).bind fun d => (Gen.oneOp g.a).bind fun a => (Gen.oneOp g.b).map fun b => .clmulh g.p d a b
  | 0x1E => (Gen.oneOp g.d).bind fun d => (Gen.oneOp g.a).bind fun a => (Gen.oneOp g.b).map fun b => .fadd g.p d a b
  | 0x1F => (Gen.oneOp g.d).bind fun d => (Gen.oneOp g.a).bind fun a => (Gen.oneOp g.b).map fun b => .fsub g.p d a b
  | 0x20 => (Gen.oneOp g.d).bind fun d => (Gen.oneOp g.a).bind fun a => (Gen.oneOp g.b).map fun b => .fmul g.p d a b
  | 0x21 => ((match g.x, g.c with | some w, some c => Alu3.read w c | _, _ => none)).bind fun x => (Gen.oneOp g.d).bind fun d => (Gen.oneOp g.a).bind fun a => (Gen.oneOp g.b).map fun b => .ffma g.p x d a b
  | 0x22 => (Gen.oneOp g.d).bind fun d => (Gen.oneOp g.a).bind fun a => (Gen.oneOp g.b).map fun b => .fmin g.p d a b
  | 0x23 => (Gen.oneOp g.d).bind fun d => (Gen.oneOp g.a).bind fun a => (Gen.oneOp g.b).map fun b => .fmax g.p d a b
  | 0x24 => (g.x.bind SelX.read).bind fun x => (Gen.oneOp g.d).bind fun d => (Gen.oneOp g.a).bind fun a => (Gen.oneOp g.b).map fun b => .sel g.p x d a b
  | 0x25 => (g.x.bind Alu2.read).bind fun x => (Gen.oneOp g.d).bind fun d => (Gen.oneOp g.a).bind fun a => (Gen.oneOp g.b).map fun b => .padd g.p x d a b
  | 0x26 => (g.x.bind Alu2.read).bind fun x => (Gen.oneOp g.d).bind fun d => (Gen.oneOp g.a).bind fun a => (Gen.oneOp g.b).map fun b => .psub g.p x d a b
  | 0x27 => (g.x.bind Alu2.read).bind fun x => (Gen.oneOp g.d).bind fun d => (Gen.oneOp g.a).bind fun a => (Gen.oneOp g.b).map fun b => .pmul g.p x d a b
  | 0x28 => ((match g.x, g.c with | some w, some c => Alu3.read w c | _, _ => none)).bind fun x => (Gen.oneOp g.d).bind fun d => (Gen.oneOp g.a).bind fun a => (Gen.oneOp g.b).map fun b => .pfma g.p x d a b
  | 0x29 => (g.x.bind Alu2.read).bind fun x => (Gen.oneOp g.d).bind fun d => (Gen.oneOp g.a).bind fun a => (Gen.oneOp g.b).map fun b => .pmin g.p x d a b
  | 0x2A => (g.x.bind Alu2.read).bind fun x => (Gen.oneOp g.d).bind fun d => (Gen.oneOp g.a).bind fun a => (Gen.oneOp g.b).map fun b => .pmax g.p x d a b
  | 0x2B => (Gen.oneOp g.d).bind fun d => (Gen.oneOp g.a).bind fun a => (Gen.oneOp g.b).map fun b => .dadd g.p d a b
  | 0x2C => (Gen.oneOp g.d).bind fun d => (Gen.oneOp g.a).bind fun a => (Gen.oneOp g.b).map fun b => .dmul g.p d a b
  | 0x2D => ((match g.x, g.c with | some w, some c => Alu3.read w c | _, _ => none)).bind fun x => (Gen.oneOp g.d).bind fun d => (Gen.oneOp g.a).bind fun a => (Gen.oneOp g.b).map fun b => .dfma g.p x d a b
  | 0x2E => (g.x.bind CmpX.read).bind fun x => (Gen.oneImm g.d).bind fun d => (Gen.oneOp g.a).bind fun a => (Gen.oneOp g.b).map fun b => .icmp g.p x d a b
  | 0x2F => (g.x.bind CmpX.read).bind fun x => (Gen.oneImm g.d).bind fun d => (Gen.oneOp g.a).bind fun a => (Gen.oneOp g.b).map fun b => .fcmp g.p x d a b
  | 0x30 => (g.x.bind PlopX.read).bind fun x => (Gen.oneImm g.d).bind fun d => (Gen.oneImm g.a).bind fun a => (Gen.oneImm g.b).map fun b => .plop g.p x d a b
  | 0x31 => (Gen.oneOp g.d).bind fun d => (Gen.oneOp g.a).map fun a => .mov g.p d a
  | 0x32 => (Gen.oneOp g.d).bind fun d => (g.i14).map fun imm => .movi g.p d imm
  | 0x33 => (Gen.oneOp g.d).bind fun d => (Gen.oneOp g.a).bind fun a => (Gen.oneImm g.b).map fun b => .iaddi g.p d a b
  | 0x34 => (g.x.bind CvtX.read).bind fun x => (Gen.oneOp g.d).bind fun d => (Gen.oneOp g.a).map fun a => .cvt g.p x d a
  | 0x35 => (g.x.bind Alu2.read).bind fun x => (Gen.oneOp g.d).bind fun d => (Gen.oneOp g.a).map fun a => .frnd g.p x d a
  | 0x36 => (Gen.oneOp g.d).bind fun d => (Gen.oneOp g.a).map fun a => .fclass g.p d a
  | 0x37 => (Gen.oneOp g.d).bind fun d => (Gen.oneOp g.a).map fun a => .fabs g.p d a
  | 0x38 => ((match g.x, g.c with | some w, some c => Lop3X.read w c | _, _ => none)).bind fun x => (Gen.oneOp g.d).bind fun d => (Gen.oneOp g.a).bind fun a => (Gen.oneOp g.b).map fun b => .lop3 g.p x d a b
  | 0x39 => (Gen.oneOp g.d).bind fun d => (Gen.oneOp g.a).map fun a => .iabs g.p d a
  | _ => none

/-- The MEM page. -/
def Gen.mem (g : Gen) : Option Instr :=
  match g.op with
  | 0x00 => (g.x.bind Mx.read).bind fun x => (Gen.oneOp g.d).bind fun d => (Gen.oneOp g.a).bind fun a => (Gen.oneOp g.b).map fun b => .ldg g.p x d a b
  | 0x01 => (g.x.bind Mx.read).bind fun x => (Gen.oneOp g.d).bind fun d => (Gen.oneOp g.a).bind fun a => (Gen.oneOp g.b).map fun b => .stg g.p x d a b
  | 0x02 => (g.x.bind Mx.read).bind fun x => (Gen.oneOp g.d).bind fun d => (Gen.oneOp g.a).bind fun a => (Gen.oneOp g.b).map fun b => .lds g.p x d a b
  | 0x03 => (g.x.bind Mx.read).bind fun x => (Gen.oneOp g.d).bind fun d => (Gen.oneOp g.a).bind fun a => (Gen.oneOp g.b).map fun b => .sts g.p x d a b
  | 0x04 => (g.x.bind Mx.read).bind fun x => (Gen.oneOp g.d).bind fun d => (Gen.oneOp g.a).bind fun a => (Gen.oneOp g.b).map fun b => .ldb g.p x d a b
  | 0x05 => (g.x.bind Mx.read).bind fun x => (Gen.oneOp g.d).bind fun d => (Gen.oneOp g.a).bind fun a => (Gen.oneOp g.b).map fun b => .stb g.p x d a b
  | 0x06 => (g.x.bind Mx.read).bind fun x => (Gen.oneOp g.d).bind fun d => (Gen.oneOp g.a).bind fun a => (Gen.oneOp g.b).map fun b => .atomg g.p x d a b
  | 0x07 => (g.x.bind Mx.read).bind fun x => (Gen.oneOp g.d).bind fun d => (Gen.oneOp g.a).bind fun a => (Gen.oneOp g.b).map fun b => .atoms g.p x d a b
  | 0x08 => (g.x.bind Mx.read).bind fun x => (Gen.oneOp g.d).bind fun d => (Gen.oneOp g.a).bind fun a => (Gen.oneOp g.b).map fun b => .atomb g.p x d a b
  | 0x09 => (g.x.bind Mx.read).map fun x => .fence g.p x
  | 0x0A => (g.x.bind Mx.read).map fun x => .tfence g.p x
  | 0x0B => (g.x.bind Mx.read).bind fun x => (Gen.oneOp g.a).bind fun a => (Gen.oneOp g.b).map fun b => .pref g.p x a b
  | 0x0C => (g.x.bind Mx.read).bind fun x => (Gen.oneOp g.d).bind fun d => (Gen.oneImm g.a).map fun a => .qpush g.p x d a
  | 0x0D => (g.x.bind Mx.read).bind fun x => (Gen.oneOp g.d).bind fun d => (Gen.oneImm g.a).map fun a => .qpop g.p x d a
  | _ => none

/-- The ASYNC page. -/
def Gen.async (g : Gen) : Option Instr :=
  match g.op with
  | 0x00 => ((match g.x, g.c with | some w, some c => Cx.read w c | _, _ => none)).bind fun x => (Gen.oneOp g.d).bind fun d => (Gen.oneOp g.a).bind fun a => (Gen.oneOp g.b).map fun b => .cpy g.p x d a b
  | 0x01 => ((match g.x, g.c with | some w, some c => TxX.read w c | _, _ => none)).bind fun x => (Gen.oneOp g.d).bind fun d => (Gen.oneOp g.a).bind fun a => (Gen.oneOp g.b).map fun b => .tload g.p x d a b
  | 0x02 => ((match g.x, g.c with | some w, some c => TxX.read w c | _, _ => none)).bind fun x => (Gen.oneOp g.d).bind fun d => (Gen.oneOp g.a).bind fun a => (Gen.oneOp g.b).map fun b => .tstore g.p x d a b
  | 0x03 => (Gen.oneOp g.a).map fun a => .pwait g.p a
  | 0x04 => (Gen.oneImm g.d).bind fun d => (Gen.oneOp g.a).map fun a => .ptest g.p d a
  | 0x05 => (Gen.oneOp g.a).bind fun a => (Gen.oneOp g.b).map fun b => .binit g.p a b
  | 0x06 => (Gen.oneOp g.a).bind fun a => (Gen.oneOp g.b).map fun b => .bexp g.p a b
  | 0x07 => (Gen.oneOp g.a).map fun a => .barr g.p a
  | 0x08 => (Gen.oneOp g.d).bind fun d => (Gen.oneOp g.a).bind fun a => (Gen.oneOp g.b).map fun b => .bwait g.p d a b
  | 0x09 => (Gen.oneImm g.d).bind fun d => (Gen.oneOp g.a).bind fun a => (Gen.oneOp g.b).map fun b => .btest g.p d a b
  | 0x0A => (g.x.bind BkX.read).bind fun x => (Gen.oneOp g.d).bind fun d => (Gen.oneOp g.a).bind fun a => (Gen.oneOp g.b).map fun b => .bankop g.p x d a b
  | 0x0B => (g.x.bind RsX.read).bind fun x => (Gen.oneOp g.d).bind fun d => (Gen.oneOp g.a).bind fun a => (Gen.oneOp g.b).map fun b => .restripe g.p x d a b
  | 0x0C => (Gen.oneOp g.d).bind fun d => (Gen.oneOp g.a).map fun a => .geoq g.p d a
  | 0x0D => (Gen.oneOp g.d).bind fun d => (Gen.oneOp g.a).map fun a => .cancel g.p d a
  | _ => none

/-- The MTX page. -/
def Gen.mtx (g : Gen) : Option Instr :=
  match g.op with
  | 0x00 => (Gen.oneImm g.d).bind fun d => (Gen.oneOp g.a).map fun a => .manch g.p d a
  | 0x01 => (g.x.bind LwX.read).bind fun x => (Gen.oneImm g.d).bind fun d => (Gen.oneOp g.a).map fun a => .mldw g.p x d a
  | 0x02 => (Gen.oneImm g.d).map fun d => .mswap g.p d
  | 0x03 => (g.x.bind MmaX.read).bind fun x => (Gen.oneImm g.d).bind fun d => (Gen.oneOp g.a).bind fun a => (Gen.oneOp g.b).map fun b => .mma g.p x d a b
  | 0x04 => (Gen.oneImm g.d).bind fun d => (Gen.oneImm g.a).map fun a => .mzero g.p d a
  | 0x05 => (g.x.bind EwX.read).bind fun x => (Gen.oneImm g.d).bind fun d => (Gen.oneOp g.a).bind fun a => (Gen.oneOp g.b).map fun b => .mrd g.p x d a b
  | 0x06 => (g.x.bind EwX.read).bind fun x => (Gen.oneImm g.d).bind fun d => (Gen.oneOp g.a).bind fun a => (Gen.oneOp g.b).map fun b => .mwr g.p x d a b
  | 0x07 => ((match g.x, g.c with | some w, some c => MstsX.read w c | _, _ => none)).bind fun x => (Gen.oneImm g.d).bind fun d => (Gen.oneOp g.a).bind fun a => (Gen.oneOp g.b).map fun b => .msts g.p x d a b
  | 0x08 => ((match g.x, g.c with | some w, some c => StX.read w c | _, _ => none)).bind fun x => (Gen.oneImm g.d).bind fun d => (Gen.oneOp g.a).bind fun a => (Gen.oneOp g.b).map fun b => .rstat g.p x d a b
  | 0x09 => ((match g.x, g.c with | some w, some c => MsX.read w c | _, _ => none)).bind fun x => (Gen.oneImm g.d).bind fun d => (Gen.oneOp g.a).bind fun a => (Gen.oneOp g.b).map fun b => .mscale g.p x d a b
  | 0x0A => ((match g.d, g.b with | .imm d, .imm b => if b.extractLsb' 1 6 = 0 then some ((b.extractLsb' 0 1) ++ d) else none | _, _ => none)).bind fun id => (Gen.oneOp g.a).map fun a => .tdef g.p id a
  | 0x0B => (Gen.oneOp g.d).bind fun d => ((match g.a, g.b with | .imm a, .imm b => if b.extractLsb' 4 3 = 0 then some ((b.extractLsb' 0 1) ++ a) else none | _, _ => none)).bind fun id => (((Gen.oneImm g.b).map fun b : BitVec 7 => b.extractLsb' 1 3)).map fun wd => .tqry g.p d id wd
  | 0x0C => some (.mopr g.p)
  | 0x0D => (Gen.oneImm g.a).map fun a => .mwait g.p a
  | _ => none

/-- The FAB page. -/
def Gen.fab (g : Gen) : Option Instr :=
  match g.op with
  | 0x00 => ((match g.x, g.c with | some w, some c => McX.read w c | _, _ => none)).bind fun x => (Gen.oneOp g.d).bind fun d => (Gen.oneOp g.a).bind fun a => (Gen.oneOp g.b).map fun b => .mcst g.p x d a b
  | 0x01 => (g.x.bind RlX.read).bind fun x => (Gen.oneOp g.d).bind fun d => (Gen.oneOp g.a).bind fun a => (Gen.oneOp g.b).map fun b => .rload g.p x d a b
  | 0x02 => ((Gen.oneImm g.d).bind fun d => if d.extractLsb' 1 6 = 0 then some (d.getLsbD 0) else none).bind fun h => (Gen.oneOp g.a).map fun a => .coll g.p h a
  | 0x03 => (Gen.oneOp g.a).bind fun a => (Gen.oneOp g.b).map fun b => .scbset g.p a b
  | 0x04 => (Gen.oneOp g.a).bind fun a => (Gen.oneOp g.b).map fun b => .scbclr g.p a b
  | 0x05 => (g.x.bind AmX.read).bind fun x => (Gen.oneOp g.a).bind fun a => (Gen.oneOp g.b).map fun b => .arm g.p x a b
  | 0x06 => (Gen.oneOp g.a).bind fun a => (Gen.oneOp g.b).map fun b => .gang g.p a b
  | 0x07 => (Gen.oneOp g.d).bind fun d => (Gen.oneOp g.a).map fun a => .peerq g.p d a
  | 0x08 => some (.wcflush g.p)
  | 0x09 => (g.x.bind RpX.read).bind fun x => (Gen.oneOp g.a).bind fun a => (Gen.oneOp g.b).map fun b => .rspawn g.p x a b
  | 0x0A => (Gen.oneOp g.a).bind fun a => (Gen.oneOp g.b).map fun b => .mgrp g.p a b
  | _ => none

/-- The CTL page. -/
def Gen.ctl (g : Gen) : Option Instr :=
  match g.op with
  | 0x00 => (g.i21).map fun imm => .bra g.p imm
  | 0x01 => (Gen.oneOp g.a).map fun a => .brx g.p a
  | 0x02 => (Gen.oneOp g.d).bind fun d => (g.i14).map fun imm => .call g.p d imm
  | 0x03 => (Gen.oneOp g.a).map fun a => .ret g.p a
  | 0x04 => (g.brh).bind fun imm => (Gen.oneOp g.a).map fun a => .brh g.p imm a
  | 0x05 => (Gen.oneOp g.a).map fun a => .waith g.p a
  | 0x06 => some (.reconv g.p)
  | 0x07 => (g.x.bind BarX.read).bind fun x => (Gen.oneOp g.a).map fun a => .bar g.p x a
  | 0x08 => (g.x.bind SpX.read).bind fun x => (Gen.oneOp g.a).bind fun a => (Gen.oneOp g.b).map fun b => .spawn g.p x a b
  | 0x09 => some (.exit g.p)
  | 0x0A => (Gen.oneOp g.d).bind fun d => (Gen.oneOp g.a).map fun a => .suspend g.p d a
  | 0x0B =>
    match g.b with
    | .imm f => if f = 0 then (Gen.oneOp g.a).map fun a => .resume g.p a else if f = 1 then (Gen.oneOp g.d).bind fun d => (Gen.oneOp g.a).map fun a => .resumeS g.p d a else none
    | _ => none
  | 0x0C => (Gen.oneOp g.d).bind fun d => (Gen.oneOp g.a).map fun a => .cdiscard g.p d a
  | 0x0D =>
    match g.d with
    | .imm f => if f = 0 then (Gen.oneOp g.a).bind fun a => (Gen.oneOp g.b).map fun b => .ccopyMove g.p a b else if f = 1 then (Gen.oneOp g.a).bind fun a => (Gen.oneOp g.b).map fun b => .ccopyFork g.p a b else none
    | _ => none
  | 0x0E => (Gen.oneOp g.a).map fun a => .sleep g.p a
  | 0x0F => (g.x.bind WfX.read).bind fun x => (Gen.oneOp g.d).bind fun d => (Gen.oneOp g.a).bind fun a => (Gen.oneOp g.b).map fun b => .waitf g.p x d a b
  | 0x10 => (g.i14).map fun imm => .trap g.p imm
  | 0x11 => some (.rft g.p)
  | 0x12 => (Gen.oneOp g.d).bind fun d => (Gen.oneImm g.a).map fun a => .getsr g.p d a
  | 0x13 => (Gen.oneImm g.d).bind fun d => (Gen.oneOp g.a).map fun a => .setsr g.p d a
  | 0x14 => some (.yieldH g.p)
  | 0x15 => (Gen.oneOp g.a).map fun a => .racq g.p a
  | 0x16 => some (.rrel g.p)
  | 0x17 => some (.nop g.p)
  | 0x18 => (Gen.oneOp g.d).bind fun d => (Gen.oneOp g.a).map fun a => .steal g.p d a
  | 0x19 => (Gen.oneOp g.d).bind fun d => (Gen.oneOp g.a).map fun a => .launch g.p d a
  | 0x1A => (Gen.oneOp g.d).bind fun d => (Gen.oneOp g.a).map fun a => .waitl g.p d a
  | 0x1B => (Gen.oneOp g.a).map fun a => .snap g.p a
  | _ => none

/-- The SFU and cross-lane page. -/
def Gen.sfu (g : Gen) : Option Instr :=
  match g.op with
  | 0x00 => (Gen.oneOp g.d).bind fun d => (Gen.oneOp g.a).map fun a => .rcp g.p d a
  | 0x01 => (Gen.oneOp g.d).bind fun d => (Gen.oneOp g.a).map fun a => .rsq g.p d a
  | 0x02 => (Gen.oneOp g.d).bind fun d => (Gen.oneOp g.a).map fun a => .sqrt g.p d a
  | 0x03 => (Gen.oneOp g.d).bind fun d => (Gen.oneOp g.a).map fun a => .exp2 g.p d a
  | 0x04 => (Gen.oneOp g.d).bind fun d => (Gen.oneOp g.a).map fun a => .log2 g.p d a
  | 0x05 => (Gen.oneOp g.d).bind fun d => (Gen.oneOp g.a).map fun a => .sinpi g.p d a
  | 0x06 => (Gen.oneOp g.d).bind fun d => (Gen.oneOp g.a).map fun a => .cospi g.p d a
  | 0x07 => (Gen.oneOp g.d).bind fun d => (Gen.oneOp g.a).map fun a => .tanh g.p d a
  | 0x08 => (Gen.oneOp g.d).bind fun d => (Gen.oneOp g.a).bind fun a => (Gen.oneOp g.b).map fun b => .fdiv g.p d a b
  | 0x09 => (Gen.oneOp g.d).bind fun d => (Gen.oneOp g.a).map fun a => .sigm g.p d a
  | 0x0A => ((match g.x, g.c with | some w, some c => ShX.read w c | _, _ => none)).bind fun x => (Gen.oneOp g.d).bind fun d => (Gen.oneOp g.a).bind fun a => (Gen.oneOp g.b).map fun b => .shfl g.p x d a b
  | 0x0B => (g.x.bind VtX.read).bind fun x => (Gen.oneImm g.d).map fun d => .vote g.p x d
  | 0x0C => (Gen.oneOp g.d).bind fun d => (Gen.oneImm g.a).map fun a => .ballot g.p d a
  | 0x0D => (g.x.bind RxX.read).bind fun x => (Gen.oneOp g.d).bind fun d => (Gen.oneOp g.a).map fun a => .redux g.p x d a
  | 0x0E => (g.x.bind ScX.read).bind fun x => (Gen.oneOp g.d).bind fun d => (Gen.oneOp g.a).map fun a => .scan g.p x d a
  | 0x0F =>
    match g.b with
    | .imm f => if f = 0 then (Gen.oneOp g.d).bind fun d => (Gen.oneOp g.a).map fun a => .matchL g.p d a else if f = 1 then (Gen.oneOp g.d).bind fun d => (Gen.oneOp g.a).map fun a => .matchW64 g.p d a else none
    | _ => none
  | 0x10 => (g.x.bind GmX.read).bind fun x => (Gen.oneOp g.d).bind fun d => (Gen.oneOp g.a).map fun a => .gmred g.p x d a
  | 0x11 => (Gen.oneImm g.d).bind fun d => (Gen.oneOp g.a).map fun a => .gmtab g.p d a
  | 0x12 => (Gen.oneOp g.d).bind fun d => (Gen.oneOp g.a).map fun a => .first g.p d a
  | 0x13 => (g.x.bind LmX.read).bind fun x => (Gen.oneOp g.d).map fun d => .lanemask g.p x d
  | _ => none

/-- The instruction that the fields name; none where the extension word or an immediate has a value the form does not
accept (R54). -/
def Gen.instr (g : Gen) : Option Instr :=
  match g.page with
  | 0 => g.alu
  | 1 => g.mem
  | 2 => g.async
  | 3 => g.mtx
  | 4 => g.fab
  | 5 => g.ctl
  | 6 => g.sfu
  | _ => none

/-- Decodes the first instruction of `ws` on page `page`, and gives the words after it (R43 to R65). -/
def decodeWords (page : Nat) (ws : List Word) : Except DecodeError (Instr × List Word) :=
  match readGen page ws with
  | .error e => .error e
  | .ok (g, rest) =>
    match g.instr with
    | none => .error .illegalInstruction
    | some i => if i.shapeOk then .ok (i, rest) else .error .illegalInstruction

/-! ## Clauses -/

/-- A clause header's fields (R37). -/
structure Header where
  n : Nat
  page : Nat
  wait : BitVec 12
  seta : Option Nat
  setb : Option Nat
  hw : Bool
  tail : Bool
  rel : Bool
  y : Bool
  deriving DecidableEq, Repr

/-- The flag of a `SETA` or `SETB` field: 0 to 11, or 15 for none; 12 to 14 are refused. -/
def flagOf (x : BitVec 4) : Option (Option Nat) :=
  if x.toNat < 12 then some (some x.toNat) else if x = 15 then some none else none

def Header.read (w : Word) : Option Header :=
  (flagOf (bits w 19 4)).bind fun a =>
    (flagOf (bits w 23 4)).bind fun b =>
      let n := (bits w 0 4).toNat
      let page := (bits w 4 3).toNat
      let rel := bit1 w 29
      if bit1 w 31 || n == 0 || page == 7 || (rel && n < 3) then none
      else some ⟨n, page, bits w 7 12, a, b, bit1 w 27, bit1 w 28, rel, bit1 w 30⟩

/-- Words of the instruction area decoded on the clause's page (R39). -/
def Header.limit (h : Header) : Nat := h.n - (if h.rel then 2 else 0) - (if h.tail then 1 else 0)

/-- Walks the instruction area (R39): `left` words remain, `fuel` bounds the walk. -/
def walkArea (page : Nat) (tail : Bool) : Nat → Nat → List Word → Bool
  | 0, left, _ => left == 0
  | fuel + 1, left, ws =>
    if left = 0 then true
    else
      let len := instrLen page ws
      let sp := bit1 (ws.headD 0) 31
      if sp && (tail || len != left) then false
      else if len > left then false
      else walkArea page tail fuel (left - len) (ws.drop len)

/-- CheckTail (R40): no extension, no literal, no safe point. An unassigned opcode passes. -/
def checkTail (w : Word) : Bool :=
  !bit1 w 31 &&
    match formOf 5 (opOf w) with
    | none => true
    | some f => !f.ext && instrLen 5 [w] == 1

/-- CheckClause (R39): the header and the `n` words after it. -/
def checkClause (hw : Word) (ws : List Word) : Option Header :=
  (Header.read hw).bind fun h =>
    if ws.length = h.n && walkArea h.page h.tail h.n h.limit (ws.take h.limit)
        && (!h.tail || checkTail (ws.getD h.limit 0)) then some h
    else none

/-! ## Step words (R363) -/

/-- A 64-bit step word's field. -/
abbrev dbits (w : DWord) (lo len : Nat) : BitVec len := w.extractLsb' lo len

def StepW.ofDWord (w : DWord) : StepW :=
  let sig1 := dbits w 60 4 = 10 ∧ w.getLsbD 44
  ⟨dbits w 58 2, dbits w 56 2, dbits w 54 2, dbits w 52 2, dbits w 50 2, dbits w 48 2, dbits w 46 2, w.getLsbD 45,
    w.getLsbD 44, dbits w 32 12, if sig1 then 0 else dbits w 24 8, if sig1 then 0 else dbits w 18 6,
    if sig1 then 0 else dbits w 12 6, if sig1 then dbits w 0 32 else 0⟩

def StepW.toDWord (op : BitVec 4) (x : StepW) : DWord :=
  op ++ x.pa ++ x.pb ++ x.bs ++ x.bd ++ x.ia ++ x.ij ++ x.ib ++ b1 x.cf ++ b1 x.md ++ x.k ++
    (if op = 10 ∧ x.md then x.value else x.sb ++ x.fb ++ x.nb ++ (0 : BitVec 12))

def stepOf (op : Nat) (x : StepW) : Option Instr :=
  match op with
  | 0 => some (.endStep x) | 1 => some (.send x) | 2 => some (.recv x) | 3 => some (.rrs x) | 4 => some (.rrw x)
  | 5 => some (.copyStep x) | 6 => some (.waitStep x) | 7 => some (.loopStep x) | 8 => some (.endl x)
  | 9 => some (.peerStep x) | 10 => some (.signal x) | _ => none

/-- Decodes a step word; 11 to 15, non-zero unused fields and unlisted values are program faults. -/
def decodeStep (w : DWord) : Except DecodeError Instr :=
  let sig1 := dbits w 60 4 = 10 ∧ w.getLsbD 44
  if ¬ sig1 ∧ dbits w 0 12 ≠ 0 then .error .programFault
  else
    match stepOf (dbits w 60 4).toNat (StepW.ofDWord w) with
    | none => .error .programFault
    | some i => if i.shapeOk then .ok i else .error .programFault

/-! ## The encoder -/

def Guard.pre (p : Pre) : BitVec 5 := b1 p.sp.isSome ++ p.g.toBits

/-- The code of a field; 126 where the form does not read it (R43). -/
def Fld.code : Fld → BitVec 7
  | .none => 126
  | .op o => o.code
  | .imm x => x

/-- The literal word a field adds. -/
def Fld.lit : Fld → List Word
  | .op (.lit w) => [w]
  | _ => []

/-- The words of an instruction whose fields are split (R39, R43, R48, R52). -/
def Gen.words (g : Gen) : List Word :=
  let at? := ((formOf g.page g.op).map Form.at?).join
  let xw := match g.x with
    | none => []
    | some x =>
      match g.c, at? with
      | some c, some k => [x ||| ((c.code.setWidth 32) <<< k)]
      | _, _ => [x]
  let cl := match g.c with
    | some c => Fld.lit (.op c)
    | none => []
  [Guard.pre g.p ++ BitVec.ofNat 6 g.op ++ g.d.code ++ g.a.code ++ g.b.code] ++ xw ++ g.d.lit ++ g.a.lit ++ g.b.lit
    ++ cl ++ g.p.sp.toList

/-- The fields of an instruction of the seven pages. Events and step words have none. -/
def Instr.gen : Instr → Option Gen
  | .iadd p d a b => some ⟨0, 0x00, p, .op d, .op a, .op b, none, none⟩
  | .isub p d a b => some ⟨0, 0x01, p, .op d, .op a, .op b, none, none⟩
  | .imul p d a b => some ⟨0, 0x02, p, .op d, .op a, .op b, none, none⟩
  | .imulhI p d a b => some ⟨0, 0x03, p, .op d, .op a, .op b, none, none⟩
  | .imulhU p d a b => some ⟨0, 0x04, p, .op d, .op a, .op b, none, none⟩
  | .iminI p d a b => some ⟨0, 0x05, p, .op d, .op a, .op b, none, none⟩
  | .iminU p d a b => some ⟨0, 0x06, p, .op d, .op a, .op b, none, none⟩
  | .imaxI p d a b => some ⟨0, 0x07, p, .op d, .op a, .op b, none, none⟩
  | .imaxU p d a b => some ⟨0, 0x08, p, .op d, .op a, .op b, none, none⟩
  | .and p d a b => some ⟨0, 0x09, p, .op d, .op a, .op b, none, none⟩
  | .or p d a b => some ⟨0, 0x0A, p, .op d, .op a, .op b, none, none⟩
  | .xor p d a b => some ⟨0, 0x0B, p, .op d, .op a, .op b, none, none⟩
  | .andn p d a b => some ⟨0, 0x0C, p, .op d, .op a, .op b, none, none⟩
  | .shl p d a b => some ⟨0, 0x0D, p, .op d, .op a, .op b, none, none⟩
  | .shr p d a b => some ⟨0, 0x0E, p, .op d, .op a, .op b, none, none⟩
  | .sar p d a b => some ⟨0, 0x0F, p, .op d, .op a, .op b, none, none⟩
  | .rol p d a b => some ⟨0, 0x10, p, .op d, .op a, .op b, none, none⟩
  | .iadd64 p d a b => some ⟨0, 0x11, p, .op d, .op a, .op b, none, none⟩
  | .isub64 p d a b => some ⟨0, 0x12, p, .op d, .op a, .op b, none, none⟩
  | .imad p x d a b => some ⟨0, 0x13, p, .op d, .op a, .op b, some x.bits, some x.c⟩
  | .imadw p x d a b => some ⟨0, 0x14, p, .op d, .op a, .op b, some x.bits, some x.c⟩
  | .bfeU p d a b => some ⟨0, 0x15, p, .op d, .op a, .op b, none, none⟩
  | .bfeI p d a b => some ⟨0, 0x16, p, .op d, .op a, .op b, none, none⟩
  | .bfi p x d a b => some ⟨0, 0x17, p, .op d, .op a, .op b, some x.bits, some x.c⟩
  | .popc p d a => some ⟨0, 0x18, p, .op d, .op a, .none, none, none⟩
  | .clz p d a => some ⟨0, 0x19, p, .op d, .op a, .none, none, none⟩
  | .brev p d a => some ⟨0, 0x1A, p, .op d, .op a, .none, none, none⟩
  | .prmt p x d a b => some ⟨0, 0x1B, p, .op d, .op a, .op b, some x.bits, some x.c⟩
  | .clmul p d a b => some ⟨0, 0x1C, p, .op d, .op a, .op b, none, none⟩
  | .clmulh p d a b => some ⟨0, 0x1D, p, .op d, .op a, .op b, none, none⟩
  | .fadd p d a b => some ⟨0, 0x1E, p, .op d, .op a, .op b, none, none⟩
  | .fsub p d a b => some ⟨0, 0x1F, p, .op d, .op a, .op b, none, none⟩
  | .fmul p d a b => some ⟨0, 0x20, p, .op d, .op a, .op b, none, none⟩
  | .ffma p x d a b => some ⟨0, 0x21, p, .op d, .op a, .op b, some x.bits, some x.c⟩
  | .fmin p d a b => some ⟨0, 0x22, p, .op d, .op a, .op b, none, none⟩
  | .fmax p d a b => some ⟨0, 0x23, p, .op d, .op a, .op b, none, none⟩
  | .sel p x d a b => some ⟨0, 0x24, p, .op d, .op a, .op b, some x.bits, none⟩
  | .padd p x d a b => some ⟨0, 0x25, p, .op d, .op a, .op b, some x.bits, none⟩
  | .psub p x d a b => some ⟨0, 0x26, p, .op d, .op a, .op b, some x.bits, none⟩
  | .pmul p x d a b => some ⟨0, 0x27, p, .op d, .op a, .op b, some x.bits, none⟩
  | .pfma p x d a b => some ⟨0, 0x28, p, .op d, .op a, .op b, some x.bits, some x.c⟩
  | .pmin p x d a b => some ⟨0, 0x29, p, .op d, .op a, .op b, some x.bits, none⟩
  | .pmax p x d a b => some ⟨0, 0x2A, p, .op d, .op a, .op b, some x.bits, none⟩
  | .dadd p d a b => some ⟨0, 0x2B, p, .op d, .op a, .op b, none, none⟩
  | .dmul p d a b => some ⟨0, 0x2C, p, .op d, .op a, .op b, none, none⟩
  | .dfma p x d a b => some ⟨0, 0x2D, p, .op d, .op a, .op b, some x.bits, some x.c⟩
  | .icmp p x d a b => some ⟨0, 0x2E, p, .imm d, .op a, .op b, some x.bits, none⟩
  | .fcmp p x d a b => some ⟨0, 0x2F, p, .imm d, .op a, .op b, some x.bits, none⟩
  | .plop p x d a b => some ⟨0, 0x30, p, .imm d, .imm a, .imm b, some x.bits, none⟩
  | .mov p d a => some ⟨0, 0x31, p, .op d, .op a, .none, none, none⟩
  | .movi p d imm => some ⟨0, 0x32, p, .op d, .imm (imm.extractLsb' 7 7), .imm (imm.extractLsb' 0 7), none, none⟩
  | .iaddi p d a b => some ⟨0, 0x33, p, .op d, .op a, .imm b, none, none⟩
  | .cvt p x d a => some ⟨0, 0x34, p, .op d, .op a, .none, some x.bits, none⟩
  | .frnd p x d a => some ⟨0, 0x35, p, .op d, .op a, .none, some x.bits, none⟩
  | .fclass p d a => some ⟨0, 0x36, p, .op d, .op a, .none, none, none⟩
  | .fabs p d a => some ⟨0, 0x37, p, .op d, .op a, .none, none, none⟩
  | .lop3 p x d a b => some ⟨0, 0x38, p, .op d, .op a, .op b, some x.bits, some x.c⟩
  | .iabs p d a => some ⟨0, 0x39, p, .op d, .op a, .none, none, none⟩
  | .ldg p x d a b => some ⟨1, 0x00, p, .op d, .op a, .op b, some x.bits, none⟩
  | .stg p x d a b => some ⟨1, 0x01, p, .op d, .op a, .op b, some x.bits, none⟩
  | .lds p x d a b => some ⟨1, 0x02, p, .op d, .op a, .op b, some x.bits, none⟩
  | .sts p x d a b => some ⟨1, 0x03, p, .op d, .op a, .op b, some x.bits, none⟩
  | .ldb p x d a b => some ⟨1, 0x04, p, .op d, .op a, .op b, some x.bits, none⟩
  | .stb p x d a b => some ⟨1, 0x05, p, .op d, .op a, .op b, some x.bits, none⟩
  | .atomg p x d a b => some ⟨1, 0x06, p, .op d, .op a, .op b, some x.bits, none⟩
  | .atoms p x d a b => some ⟨1, 0x07, p, .op d, .op a, .op b, some x.bits, none⟩
  | .atomb p x d a b => some ⟨1, 0x08, p, .op d, .op a, .op b, some x.bits, none⟩
  | .fence p x => some ⟨1, 0x09, p, .none, .none, .none, some x.bits, none⟩
  | .tfence p x => some ⟨1, 0x0A, p, .none, .none, .none, some x.bits, none⟩
  | .pref p x a b => some ⟨1, 0x0B, p, .none, .op a, .op b, some x.bits, none⟩
  | .qpush p x d a => some ⟨1, 0x0C, p, .op d, .imm a, .none, some x.bits, none⟩
  | .qpop p x d a => some ⟨1, 0x0D, p, .op d, .imm a, .none, some x.bits, none⟩
  | .cpy p x d a b => some ⟨2, 0x00, p, .op d, .op a, .op b, some x.bits, some x.bar⟩
  | .tload p x d a b => some ⟨2, 0x01, p, .op d, .op a, .op b, some x.bits, some x.bar⟩
  | .tstore p x d a b => some ⟨2, 0x02, p, .op d, .op a, .op b, some x.bits, some x.bar⟩
  | .pwait p a => some ⟨2, 0x03, p, .none, .op a, .none, none, none⟩
  | .ptest p d a => some ⟨2, 0x04, p, .imm d, .op a, .none, none, none⟩
  | .binit p a b => some ⟨2, 0x05, p, .none, .op a, .op b, none, none⟩
  | .bexp p a b => some ⟨2, 0x06, p, .none, .op a, .op b, none, none⟩
  | .barr p a => some ⟨2, 0x07, p, .none, .op a, .none, none, none⟩
  | .bwait p d a b => some ⟨2, 0x08, p, .op d, .op a, .op b, none, none⟩
  | .btest p d a b => some ⟨2, 0x09, p, .imm d, .op a, .op b, none, none⟩
  | .bankop p x d a b => some ⟨2, 0x0A, p, .op d, .op a, .op b, some x.bits, none⟩
  | .restripe p x d a b => some ⟨2, 0x0B, p, .op d, .op a, .op b, some x.bits, none⟩
  | .geoq p d a => some ⟨2, 0x0C, p, .op d, .op a, .none, none, none⟩
  | .cancel p d a => some ⟨2, 0x0D, p, .op d, .op a, .none, none, none⟩
  | .manch p d a => some ⟨3, 0x00, p, .imm d, .op a, .none, none, none⟩
  | .mldw p x d a => some ⟨3, 0x01, p, .imm d, .op a, .none, some x.bits, none⟩
  | .mswap p d => some ⟨3, 0x02, p, .imm d, .none, .none, none, none⟩
  | .mma p x d a b => some ⟨3, 0x03, p, .imm d, .op a, .op b, some x.bits, none⟩
  | .mzero p d a => some ⟨3, 0x04, p, .imm d, .imm a, .none, none, none⟩
  | .mrd p x d a b => some ⟨3, 0x05, p, .imm d, .op a, .op b, some x.bits, none⟩
  | .mwr p x d a b => some ⟨3, 0x06, p, .imm d, .op a, .op b, some x.bits, none⟩
  | .msts p x d a b => some ⟨3, 0x07, p, .imm d, .op a, .op b, some x.bits, some x.c⟩
  | .rstat p x d a b => some ⟨3, 0x08, p, .imm d, .op a, .op b, some x.bits, some x.c⟩
  | .mscale p x d a b => some ⟨3, 0x09, p, .imm d, .op a, .op b, some x.bits, some x.c⟩
  | .tdef p id a => some ⟨3, 0x0A, p, .imm (id.extractLsb' 0 7), .op a, .imm ((0 : BitVec 6) ++ id.extractLsb' 7 1), none, none⟩
  | .tqry p d id wd => some ⟨3, 0x0B, p, .op d, .imm (id.extractLsb' 0 7), .imm ((0 : BitVec 3) ++ wd ++ id.extractLsb' 7 1), none, none⟩
  | .mopr p => some ⟨3, 0x0C, p, .none, .none, .none, none, none⟩
  | .mwait p a => some ⟨3, 0x0D, p, .none, .imm a, .none, none, none⟩
  | .mcst p x d a b => some ⟨4, 0x00, p, .op d, .op a, .op b, some x.bits, some x.c⟩
  | .rload p x d a b => some ⟨4, 0x01, p, .op d, .op a, .op b, some x.bits, none⟩
  | .coll p h a => some ⟨4, 0x02, p, .imm ((0 : BitVec 6) ++ b1 h), .op a, .none, none, none⟩
  | .scbset p a b => some ⟨4, 0x03, p, .none, .op a, .op b, none, none⟩
  | .scbclr p a b => some ⟨4, 0x04, p, .none, .op a, .op b, none, none⟩
  | .arm p x a b => some ⟨4, 0x05, p, .none, .op a, .op b, some x.bits, none⟩
  | .gang p a b => some ⟨4, 0x06, p, .none, .op a, .op b, none, none⟩
  | .peerq p d a => some ⟨4, 0x07, p, .op d, .op a, .none, none, none⟩
  | .wcflush p => some ⟨4, 0x08, p, .none, .none, .none, none, none⟩
  | .rspawn p x a b => some ⟨4, 0x09, p, .none, .op a, .op b, some x.bits, none⟩
  | .mgrp p a b => some ⟨4, 0x0A, p, .none, .op a, .op b, none, none⟩
  | .bra p imm => some ⟨5, 0x00, p, .imm (imm.extractLsb' 14 7), .imm (imm.extractLsb' 7 7), .imm (imm.extractLsb' 0 7), none, none⟩
  | .brx p a => some ⟨5, 0x01, p, .none, .op a, .none, none, none⟩
  | .call p d imm => some ⟨5, 0x02, p, .op d, .imm (imm.extractLsb' 7 7), .imm (imm.extractLsb' 0 7), none, none⟩
  | .ret p a => some ⟨5, 0x03, p, .none, .op a, .none, none, none⟩
  | .brh p imm a => some ⟨5, 0x04, p, .imm (imm.extractLsb' 7 7), .op a, .imm (imm.extractLsb' 0 7), none, none⟩
  | .waith p a => some ⟨5, 0x05, p, .none, .op a, .none, none, none⟩
  | .reconv p => some ⟨5, 0x06, p, .none, .none, .none, none, none⟩
  | .bar p x a => some ⟨5, 0x07, p, .none, .op a, .none, some x.bits, none⟩
  | .spawn p x a b => some ⟨5, 0x08, p, .none, .op a, .op b, some x.bits, none⟩
  | .exit p => some ⟨5, 0x09, p, .none, .none, .none, none, none⟩
  | .suspend p d a => some ⟨5, 0x0A, p, .op d, .op a, .none, none, none⟩
  | .resume p a => some ⟨5, 0x0B, p, .op .nul, .op a, .imm 0, none, none⟩
  | .resumeS p d a => some ⟨5, 0x0B, p, .op d, .op a, .imm 1, none, none⟩
  | .cdiscard p d a => some ⟨5, 0x0C, p, .op d, .op a, .none, none, none⟩
  | .ccopyMove p a b => some ⟨5, 0x0D, p, .imm 0, .op a, .op b, none, none⟩
  | .ccopyFork p a b => some ⟨5, 0x0D, p, .imm 1, .op a, .op b, none, none⟩
  | .sleep p a => some ⟨5, 0x0E, p, .none, .op a, .none, none, none⟩
  | .waitf p x d a b => some ⟨5, 0x0F, p, .op d, .op a, .op b, some x.bits, none⟩
  | .trap p imm => some ⟨5, 0x10, p, .none, .imm (imm.extractLsb' 7 7), .imm (imm.extractLsb' 0 7), none, none⟩
  | .rft p => some ⟨5, 0x11, p, .none, .none, .none, none, none⟩
  | .getsr p d a => some ⟨5, 0x12, p, .op d, .imm a, .none, none, none⟩
  | .setsr p d a => some ⟨5, 0x13, p, .imm d, .op a, .none, none, none⟩
  | .yieldH p => some ⟨5, 0x14, p, .none, .none, .none, none, none⟩
  | .racq p a => some ⟨5, 0x15, p, .none, .op a, .none, none, none⟩
  | .rrel p => some ⟨5, 0x16, p, .none, .none, .none, none, none⟩
  | .nop p => some ⟨5, 0x17, p, .none, .none, .none, none, none⟩
  | .steal p d a => some ⟨5, 0x18, p, .op d, .op a, .none, none, none⟩
  | .launch p d a => some ⟨5, 0x19, p, .op d, .op a, .none, none, none⟩
  | .waitl p d a => some ⟨5, 0x1A, p, .op d, .op a, .none, none, none⟩
  | .snap p a => some ⟨5, 0x1B, p, .none, .op a, .none, none, none⟩
  | .rcp p d a => some ⟨6, 0x00, p, .op d, .op a, .none, none, none⟩
  | .rsq p d a => some ⟨6, 0x01, p, .op d, .op a, .none, none, none⟩
  | .sqrt p d a => some ⟨6, 0x02, p, .op d, .op a, .none, none, none⟩
  | .exp2 p d a => some ⟨6, 0x03, p, .op d, .op a, .none, none, none⟩
  | .log2 p d a => some ⟨6, 0x04, p, .op d, .op a, .none, none, none⟩
  | .sinpi p d a => some ⟨6, 0x05, p, .op d, .op a, .none, none, none⟩
  | .cospi p d a => some ⟨6, 0x06, p, .op d, .op a, .none, none, none⟩
  | .tanh p d a => some ⟨6, 0x07, p, .op d, .op a, .none, none, none⟩
  | .fdiv p d a b => some ⟨6, 0x08, p, .op d, .op a, .op b, none, none⟩
  | .sigm p d a => some ⟨6, 0x09, p, .op d, .op a, .none, none, none⟩
  | .shfl p x d a b => some ⟨6, 0x0A, p, .op d, .op a, .op b, some x.bits, some x.c⟩
  | .vote p x d => some ⟨6, 0x0B, p, .imm d, .none, .none, some x.bits, none⟩
  | .ballot p d a => some ⟨6, 0x0C, p, .op d, .imm a, .none, none, none⟩
  | .redux p x d a => some ⟨6, 0x0D, p, .op d, .op a, .none, some x.bits, none⟩
  | .scan p x d a => some ⟨6, 0x0E, p, .op d, .op a, .none, some x.bits, none⟩
  | .matchL p d a => some ⟨6, 0x0F, p, .op d, .op a, .imm 0, none, none⟩
  | .matchW64 p d a => some ⟨6, 0x0F, p, .op d, .op a, .imm 1, none, none⟩
  | .gmred p x d a => some ⟨6, 0x10, p, .op d, .op a, .none, some x.bits, none⟩
  | .gmtab p d a => some ⟨6, 0x11, p, .imm d, .op a, .none, none, none⟩
  | .first p d a => some ⟨6, 0x12, p, .op d, .op a, .none, none, none⟩
  | .lanemask p x d => some ⟨6, 0x13, p, .op d, .none, .none, some x.bits, none⟩
  | .send _ => none
  | .recv _ => none
  | .rrs _ => none
  | .rrw _ => none
  | .copyStep _ => none
  | .waitStep _ => none
  | .loopStep _ => none
  | .endl _ => none
  | .peerStep _ => none
  | .signal _ => none
  | .endStep _ => none
  | .instructionSweep => none
  | .pathStarvation => none
  | .groupBoost => none
  | .clauseStart => none
  | .coreRestartEnd => none
  | .registerBlockAvailable => none
  | .flagHeadroomFreed => none
  | .operationLimitFreed => none
  | .ticketSlotFreed => none
  | .enginePlaceFreed => none
  | .batchPortGrant => none
  | .trapDelivery => none
  | .globalLoadReturn => none
  | .globalStoreAccept => none
  | .remoteTimeout => none
  | .heldOperationRelease => none
  | .threadExitComplete => none
  | .waithReturn => none
  | .waitfWake => none
  | .waitfTimeout => none
  | .sleepExpiry => none
  | .promiseExpiry => none
  | .copySector => none
  | .copyComplete => none
  | .pageWalkComplete => none
  | .pageService => none
  | .parkedReplay => none
  | .replInvalidateAck => none
  | .restripeLineMove => none
  | .tfenceWalkerAck => none
  | .plannedDieOffline => none
  | .retainedStateExit => none
  | .bankRequestAdmit => none
  | .bankRequestPerform => none
  | .wcDrain => none
  | .wcEntryAgeExpiry => none
  | .binRecordAccept => none
  | .binTimerExpiry => none
  | .binDeferredLaunch => none
  | .spillRefill => none
  | .spillWaitEnd => none
  | .stealCopyArrival => none
  | .stealAck => none
  | .stealConfirm => none
  | .stealRefusal => none
  | .lendTimeout => none
  | .stealAnswerTimeout => none
  | .thiefCoreReset => none
  | .victimCoreReset => none
  | .hostIntake => none
  | .gridQueueHead => none
  | .admission => none
  | .effectivePriorityAging => none
  | .teamPlacement => none
  | .clusterReservation => none
  | .gridEnd => none
  | .preemption => none
  | .teamSave => none
  | .teamRestore => none
  | .energyWindowEnd => none
  | .checkpoint => none
  | .suspendWrite => none
  | .resumeClaim => none
  | .restoredGroupStart => none
  | .matrixOpStart => none
  | .matrixOperandRelease => none
  | .matrixOpRetire => none
  | .preamble => none
  | .integ => none
  | .sealedBlockClose => none
  | .grant => none
  | .linkctl => none
  | .read => none
  | .write => none
  | .wdata => none
  | .atomic => none
  | .rdata => none
  | .ack => none
  | .nack => none
  | .mcast => none
  | .mcastRound => none
  | .laneRetuneDone => none
  | .mcastReplyTimeout => none
  | .rloadRepliesComplete => none
  | .rloadServerFallback => none
  | .spawnFlit => none
  | .cdata => none
  | .cctl => none
  | .rekeyStart => none
  | .keyInstall => none
  | .genFlip => none
  | .oldKeyErase => none
  | .planeLoss => none
  | .gangPrepare => none
  | .gangPrepared => none
  | .gangRefused => none
  | .gangGo => none
  | .gangGoAck => none
  | .gangAbort => none
  | .gangTear => none
  | .gangPrepareTimeout => none
  | .gangGoWaitTimeout => none
  | .gangAckTimeout => none
  | .collProgramStart => none
  | .programFault => none
  | .chunkTimeout => none
  | .uetRmaWrite => none
  | .cxlExpanderRemoval => none
  | .powerOn => none
  | .bootImage => none
  | .getMeasurements => none
  | .frequencyStep => none
  | .relockDone => none
  | .thermalStep => none
  | .thermalShutdown => none
  | .scrubRead => none
  | .uncorrectableError => none
  | .dieFailure => none
  | .debugHalt => none
  | .debugRelease => none
  | .snapIn => none
  | .snapshotRearm => none
  | .ccopyComplete => none
  | .stealRequest => none
  | .planeOnline => none
  | .contextCreation => none
  | .contextEnd => none

/-- The words of an instruction of the seven pages (R43). Events have no words. -/
def encode (i : Instr) : List Word := (i.gen.map Gen.words).getD []

/-- The page an instruction's clause must have. -/
def Instr.page (i : Instr) : Nat := (i.gen.map Gen.page).getD 7

/-- The 64-bit word of a step (R363). -/
def encodeStep : Instr → Option DWord
  | .endStep x => some (x.toDWord 0) | .send x => some (x.toDWord 1) | .recv x => some (x.toDWord 2)
  | .rrs x => some (x.toDWord 3) | .rrw x => some (x.toDWord 4) | .copyStep x => some (x.toDWord 5)
  | .waitStep x => some (x.toDWord 6) | .loopStep x => some (x.toDWord 7) | .endl x => some (x.toDWord 8)
  | .peerStep x => some (x.toDWord 9) | .signal x => some (x.toDWord 10)
  | _ => none

/-! ## The table's own words -/

/-- The page on which a bare word of the opcode table is read. The page stands in the clause header, not in the word
(R37), so the table's words do not carry it: an opcode is read on the first of the pages ALU, CTL, SFU, ASYNC, MTX,
FAB that gives it a form without an extension word and, failing that, on the ALU page (DESIGN CHOICE, log entry 5). -/
def tablePage (w : Word) : Nat :=
  let plain (pg : Nat) : Bool := match formOf pg (opOf w) with
    | some f => !f.ext
    | none => false
  ([0, 5, 6, 2, 3, 4].find? plain).getD 0

/-- The words of an instruction of the table: its own word, and zeros for all that may follow it. -/
def tableWords (nbits w : Nat) : List Word :=
  BitVec.ofNat 32 w :: (List.replicate 14 (0 : Word)).mapIdx fun i _ =>
    if 32 * (i + 1) < nbits then BitVec.ofNat 32 (w >>> (32 * (i + 1))) else 0

/-- The instruction that the decoder reads from a word of the opcode table. -/
def decodeTableWord (nbits w : Nat) : Option Instr :=
  let ws := tableWords nbits w
  match decodeWords (tablePage (ws.headD 0)) ws with
  | .ok (i, _) => some i
  | .error _ => none

end Sys2Proof
end

