-- ==== Sys2Proof/Config.lean ====
section
/-!
DEFINITION. Sys2Proof/Config.lean: what one implementation fixes. The opaque constants are the free values: the spec
gives the machine a value there and does not say which, so nothing here says which either (DESIGN CHOICE, log entries 6 to 11).
-/

namespace Sys2Proof.Config

/-- Which of the candidates inside its ulp bound an SFU function delivers, a fixed function of the function and the
operand's bits (R216, R217; DESIGN CHOICE, log entry 6). -/
opaque sfuPick : Nat → Word → Nat

/-- The device's estimate of a promise, from the counter of free values (R174; DESIGN CHOICE, log entry 7). -/
opaque promise : Nat → Word

/-- The revised promise of a missed one (R79, R178; DESIGN CHOICE, log entry 7). -/
opaque revised : Nat → Word

/-- Microjoules that the energy unit adds to an account at the end of a window (R287; DESIGN CHOICE, log entry 8). -/
opaque energyUsed : Nat → Nat

/-- Whether a byte of scratchpad or an accumulator element that a new team finds keeps what an earlier team of the
same context left there, or is zero (R222, R278; DESIGN CHOICE, log entry 9). -/
opaque keepOld : Nat → Bool

/-- The normaliser of a state that an input outside the domain enters: the spec gives its `S` (NaN) and its count only
(R214; DESIGN CHOICE, log entry 11). Arguments: the mode and the input. -/
opaque domainE : Nat → Word → Word

/-- Whether the multiplicative table rule with a κ of zero keeps the larger exponent (R215; DESIGN CHOICE, log entry 11). -/
opaque zeroKappaMax : Bool

/-- The fused idle figure of the package, in mJ per ms (R287; DESIGN CHOICE, log entry 10). -/
opaque idleRate : Nat

/-- The fused minimum security version (R411; DESIGN CHOICE, log entry 10). -/
opaque fusedMinVersion : Nat

/-- The fused hashes of the Ed25519 and of the ML-DSA-65 key (R411; DESIGN CHOICE, log entry 10). -/
opaque edKeyHash : Nat
opaque mlKeyHash : Nat

/-- What R411 names and no rule spells out: SHA-512, the hash of a key, the verification of a signature over a digest with a key, and
the place of the security version in an image (DESIGN CHOICE, log entry 74). -/
opaque sha512 : List Byte → Nat
opaque keyHash : List Byte → Nat
opaque edVerifies (key sig : List Byte) (digest : Nat) : Bool
opaque mlVerifies (key sig : List Byte) (digest : Nat) : Bool
opaque imageVersion : List Byte → Nat

/-- Digests of the boot ROM and of the harvest map (R412; DESIGN CHOICE, log entry 10). -/
opaque romDigest : Nat
opaque harvestDigest : Nat

/-- The clock at power-on in MHz: the nominal frequency of R2 (DESIGN CHOICE, log entry 2). -/
def resetMHz : Nat := 1250

/-- RTIME ticks that a remote operation may go unanswered (R70). -/
def remoteTimeout : Nat := 50000

/-- Capacity in bytes of one CXL port's expander: a quarter of the 8 TiB of R2 (DESIGN CHOICE, log entry 2). -/
def cxlCapacity : Nat := 2 ^ 41

/-- Bytes of one HBM stack (R2, R314). -/
def stackBytes : Nat := 2 ^ 36

/-- Bytes of shared bank memory, and of one core's scratchpad (R2). -/
def bankBytes : Nat := 2 ^ 28
def scratchBytes : Nat := 2 ^ 22

/-- Lines of a core's L1, of 256 KiB, and of a V-die's near cache, of 64 MiB (R306). -/
def l1Lines : Nat := 1024
def nearLines : Nat := 262144

/-- Walks in flight at one home (R317). -/
def homeWalks : Nat := 64

/-- The shared pool and the emergency reserve of a core's physical register file, in bytes (R27). -/
def poolBytes : Nat := 496 * 1024
def reserveBytes : Nat := 16 * 1024

end Sys2Proof.Config
end

