-- ==== Sys2Proof/Machine/Data.lean ====
section
/-!
DEFINITION. Sys2Proof/Machine/Data.lean: the containers that State is made of, and the byte helpers. A map is a list of
(key, value) pairs with strictly rising keys; a key that is not listed reads as the caller's default.
-/

namespace Sys2Proof.Machine

/-- A finite map, keys strictly rising. -/
abbrev Map (β : Type) := List (Nat × β)

namespace Map

/-- The value at `k`, if listed. -/
def get? {β : Type} (m : Map β) (k : Nat) : Option β :=
  match m with
  | [] => none
  | (j, v) :: m => if j = k then some v else get? m k

/-- The value at `k`, or `d`. -/
def get {β : Type} (m : Map β) (k : Nat) (d : β) : β := (get? m k).getD d

/-- Writes one key. -/
def put {β : Type} (k : Nat) (v : β) (m : Map β) : Map β :=
  m.filter (fun e => decide (e.1 < k)) ++ (k, v) :: m.filter (fun e => decide (k < e.1))

/-- Removes one key. -/
def del {β : Type} (k : Nat) (m : Map β) : Map β := m.filter (fun e => decide (e.1 ≠ k))

/-- Updates a listed key. -/
def mod {β : Type} (k : Nat) (f : β → β) (m : Map β) : Map β :=
  m.map fun e => if e.1 = k then (e.1, f e.2) else e

/-- Updates every value. -/
def modAll {β : Type} (f : Nat → β → β) (m : Map β) : Map β := m.map fun e => (e.1, f e.1 e.2)

/-- Keys rise strictly. -/
def sorted {β : Type} : Map β → Bool
  | [] => true
  | (a, _) :: rest =>
    match rest with
    | [] => true
    | (b, _) :: _ => decide (a < b) && sorted rest

end Map

/-- Little-endian bytes of `v`, `n` of them. -/
def toBytes : Nat → Nat → List Byte
  | 0, _ => []
  | n + 1, v => BitVec.ofNat 8 v :: toBytes n (v / 256)

/-- The little-endian value of bytes. -/
def ofBytes : List Byte → Nat
  | [] => 0
  | b :: bs => b.toNat + 256 * ofBytes bs

/-- `⌈a / b⌉`. -/
def ceilDiv (a b : Nat) : Nat := (a + b - 1) / b

/-- ⌈log2 n⌉, 0 for 0 and 1. -/
def clog2 (n : Nat) : Nat := if n ≤ 1 then 0 else Nat.log2 (n - 1) + 1

/-- The signed reading of a word difference (R71). -/
def sdiff (a b : Word) : Int := (a - b).toInt

end Sys2Proof.Machine
end

