-- ==== Sys2Proof/Machine/State.lean ====
section
/-!
DEFINITION. Sys2Proof/Machine/State.lean: everything the spec gives the NGX-7400, as plain data. One package; its peers
and its host are outside. Reset is power-on (R402, R411).
-/

namespace Sys2Proof.Machine

/-- The causes of R77. -/
inductive Cause where
  | illegalClause | illegalInstruction | illegalOperand | privileged | misaligned | scratchRange
  | translation | permission | poison | geometry
  | remoteRevoked | remoteTimeout | remoteError | gangTorn
  | promiseMissed | barrierOverrun | anchorMismatch
  | doubleResume | contVersion | contRights | contCopy | contCorrupt
  | fp | gmDomain | tableNonmonotone | pairMismatch | dieLost | contextKilled | userTrap
  deriving DecidableEq, Repr

/-- The classes of R76. -/
inductive TrapClass where
  | precise | horizon | recoverable | fatal
  deriving DecidableEq, Repr

/-- A clause that a thread has started: the header's code offset and word, and the words after it (R38, R39). -/
structure Clause where
  hdr : Nat
  hw : Word
  ws : List Word
  deriving DecidableEq, Repr

/-- Why an instruction does not issue (R25, R27, R69, R174, R320), or waits for the thread's earlier accesses (R91, R99), or a
`SPAWN` for room in the bin and its spill area (R282). -/
inductive Stall where
  | flag (f : Nat) | limit | ticket | block (n : Nat) | page (va : Nat) | stores | order | spill
  deriving DecidableEq, Repr

/-- What a thread waits for at its instruction (R30). `withPath` is a guard-false thread that stays with a path whose
other threads wait (DESIGN CHOICE, log entry 12); `shared` is a thread of a path that executed its `WAITF` once, in the
thread named (R51). -/
inductive Wait where
  | waith (a : Word)
  | waitf (x : WfX) (d : Opnd) (addr : Nat) (b : DWord) (start : Nat)
  | sleep (till : Nat)
  | bar (clu : Bool) (idx : Nat) (ph : Bool)
  | reconv
  | qpush (k : Nat) (w : Word) (h : Bool)
  | qpop (k : Nat) (d : Opnd) (h : Bool)
  | pwait (t : Word) (pr : Word)
  | bwait (addr : Nat) (par : Bool) (d : Opnd)
  | mwait (ids : List Nat)
  | waitl (t : Word) (d : Opnd)
  | rft
  | steal (d : Opnd) (victim : Nat) (start : Nat)
  /-- At a `SUSPEND` with its object, or held at a safe point for the scheduler. -/
  | suspend (obj : Option Nat) (d : Opnd) (live : Word)
  | fence (x : Mx) (upto : Nat)
  | mopr (upto : Nat)
  | stall (r : Stall)
  | withPath (lane : Nat)
  | shared (lane : Nat)
  deriving DecidableEq, Repr

/-- Handler mode (R81, R83, R151): the frame's address, the +504 value the device wrote, the clause that was trapped,
and the sub-group's lanes. -/
structure Hnd where
  frame : Nat
  wrote : Nat
  clause : Option Clause
  mask : BitVec 64
  deriving DecidableEq, Repr

inductive Phase where
  | active | exiting | exited
  deriving DecidableEq, Repr

/-- One thread (R16, R24). -/
structure Thread where
  pc : Nat := 0
  clause : Option Clause := none
  v : Map Word := []
  t : Map Word := []
  opc : Word := 0
  phase : Phase := .active
  wait : Option Wait := none
  parked : Bool := false
  hnd : Option Hnd := none
  teamThread : Word := 0
  cycHi : Option Word := none
  rtimeHi : Option Word := none
  energyHi : Option Word := none
  q : Map (List Word) := []
  /-- The phase bit of the thread's most recent arrival at a barrier; key 0 to 15 team, 16 to 19 cluster (R136). -/
  arr : Map Bool := []
  /-- The widest scope of a release fence in force, if any (R167). -/
  relFence : Option Scope := none
  /-- Names of vector registers that have been released while the thread waits: a result for one of them is discarded (R26). -/
  lost : List Nat := []
  /-- A detached operation's failure to be raised at the start of a restored group: sequence number, cause, and whether a time-stop
  covered the context meanwhile (R296, R407). -/
  detFail : List (Word × Cause × Bool) := []
  deriving DecidableEq, Repr

/-- A group's place in a SHADOW launch (R29, R65). -/
inductive GroupKind where
  | plain | compute (partner : Nat) | shadow (partner : Nat)
  deriving DecidableEq, Repr

/-- Whether the group is to be suspended at its next safe point on the scheduler's behalf (R280, R298). -/
inductive Susp where
  | none | preempt | checkpoint
  deriving DecidableEq, Repr

/-- One group (R16, R20, R24 to R28). -/
structure Group where
  ctx : Nat
  team : Nat
  core : Nat
  slice : Nat
  w : Nat
  kind : GroupKind := .plain
  cbase : Nat
  groupId : Word
  cls : Nat := 1
  prio : Nat := 0
  age : Nat := 0
  s : Map Word := []
  p : Map (BitVec 64) := []
  f : Map Nat := []
  flags : BitVec 6 := 0
  trapen : BitVec 6 := 0
  gmShape : Word := 0x3F800000
  gmMode : BitVec 4 := 0
  pool : Nat := 0
  resv : Nat := 0
  /-- Mapped vector names with the generation of the mapping (R26). -/
  mapped : Map Nat := []
  /-- The register block, 0 to 3, in which each mapped name lies (R26, R27). -/
  inBlock : Map Nat := []
  gen : Nat := 0
  threads : Map Thread := []
  ready : Option Nat := none
  boost : Option Nat := none
  starve : Map Nat := []
  forced : Option Nat := none
  skip : Bool := false
  susp : Susp := .none
  /-- The object this group was restored from, what the device kept of it, and the object's header as the claim read it, until the
  group starts (R296). -/
  from? : Option (Nat × Nat × List Byte) := none
  started : Bool := true
  cycles : Nat := 0
  /-- When a register can be read (R67, R68): by lane, or 64 for the uniform file, the cycle (`CYC`) for each code of the
  operand namespace, and for 128 + k the predicate k. Unlisted: now. -/
  due : Map (Map Nat) := []
  deriving DecidableEq, Repr

/-- A hardware barrier (R136). -/
structure Barrier where
  ph : Bool := false
  e : Nat := 0
  n : Nat := 0
  deriving DecidableEq, Repr

/-- What a round's first signature records (R225): the instruction and the values of its operands. -/
structure Sig where
  ins : Instr
  vals : List Word
  deriving DecidableEq, Repr

/-- An anchor (R225): declared count (0: idle), signatures so far, the record, whether a signature differed, and the
operations that carry the signatures. -/
structure Anchor where
  n : Nat := 0
  c : Nat := 0
  rec? : Option Sig := none
  bad : Bool := false
  sigs : List Nat := []
  deriving DecidableEq, Repr

/-- An accumulator tile (R222): its tag (true: I64) and its elements, row·128 + column; unlisted elements are 0. -/
structure Tile where
  i64 : Bool := false
  e : Map DWord := []
  deriving DecidableEq, Repr

/-- What a plane records with its weights (R234): the format, read planes, scaling, and codes by k·128 + n. -/
structure Plane where
  fmt : Nat
  rpl : Nat
  scl : Bool
  sbase : Nat
  w : Map Nat := []
  sc : Map Nat := []
  deriving DecidableEq, Repr

/-- An operation the matrix engine has accepted (R218, R219): the team, what its signers signed, the tensor entry as
the issue read it (R223), the signatures whose flags it holds, and the bytes it has still to write in scratchpad. -/
structure EngOp where
  team : Nat
  sig : Sig
  ent : List Word := []
  sigs : List Nat := []
  started : Bool := false
  released : Bool := false
  out : List (Nat × List Byte) := []
  /-- The cycle (`CYC`) in which it started, the cycles from there to its operand release and to its retirement, and for a
  load the cycles for which streams that have retired shared the data lane with it (R247). -/
  at_ : Nat := 0
  rel : Nat := 0
  ret : Nat := 0
  shared : Nat := 0
  deriving DecidableEq, Repr

/-- One team (R16 to R19). -/
structure Team where
  ctx : Nat
  grid : Option Nat := none
  core : Nat
  cluster : Nat := 0
  rank : Nat := 0
  idx : Nat := 0
  pos : Nat × Nat × Nat := (0, 0, 0)
  size : Nat × Nat × Nat := (1, 1, 1)
  nthr : Nat
  w : Nat
  scrBase : Nat := 0
  scrLen : Nat := 0
  mtx : Bool := false
  paired : Bool := false
  bounded : Bool := false
  shadow : Bool := false
  cls : Nat := 1
  prio : Nat := 0
  handler : Nat := 0
  cbase : Nat := 0
  age : Nat := 0
  bars : Map Barrier := []
  anchors : Map Anchor := []
  tiles : Map Tile := []
  active : Option Plane := none
  shadowPl : Option Plane := none
  /-- The active and shadow planes' records that the operations issued so far will leave (R237). -/
  nextActive : Option Plane := none
  nextShadow : Option Plane := none
  saving : Bool := false
  deriving DecidableEq, Repr

/-- A cluster (R32): its cores in rank order and its four barriers. -/
structure Cluster where
  cols : Nat := 1
  rows : Nat := 1
  cores : List Nat
  nthr : Nat := 0
  bars : Map Barrier := []
  /-- The allocations of teams that have ended before the cluster's last: rank, core, base, length. -/
  kept : List (Nat × Nat × Nat × Nat) := []
  deriving DecidableEq, Repr

/-- The decoded launch record (R274). -/
structure LRec where
  entry : Nat
  args : Nat
  gx : Nat
  gy : Nat
  gz : Nat
  lfl : BitVec 5
  nthr : Nat
  w : Nat
  cols : Nat
  rows : Nat
  scr : Nat
  prio : Nat
  cls : Nat
  shofs : Nat
  ntofs : Nat
  ebud : Nat
  deadl : Nat
  pred0 : Word
  pred1 : Word
  handler : Nat
  deriving DecidableEq, Repr

inductive GridSt where
  | queued | waiting | admittable | placing | running | prepared | ended (status : Nat)
  deriving DecidableEq, Repr

/-- A grid (R276); `prepared`: a gang's, whose room is reserved until GO (R358). `since`: the tick since which it has been admittable or has waited for a rectangle. -/
structure Grid where
  ctx : Nat
  ticket : Nat
  r : LRec
  st : GridSt := .queued
  since : Nat := 0
  nextIdx : Nat := 0
  left : Nat := 0
  age : Nat := 0
  aged : Nat := 0
  /-- The duty d of R287, in sixteenths of its unit: 16·d. -/
  duty : Nat := 256
  used : Nat := 0
  gang : Option Nat := none
  /-- The gang's devices once it is torn, and the first number that the model gave after that. -/
  torn : List Nat := []
  tornAt : Nat := 0
  deriving DecidableEq, Repr

/-- One node of a node table (R281). -/
structure Node where
  ent : Nat
  nwd : Nat
  nco : Nat
  nst : Bool
  npr : Nat
  nmx : Bool
  ntt : Nat
  ntm : Nat
  nscr : Nat
  deriving DecidableEq, Repr

/-- The installed node table (R281), with its words for the comparison of later grids. -/
structure NodeTable where
  words : List Word
  nodes : List Node
  spill : Nat
  spilln : Nat
  cbase : Nat
  handler : Nat
  deriving DecidableEq, Repr

/-- An armed operation (R370, R379): the scoreboard, the mask, the descriptor's address and words, the core. -/
structure Armed where
  sb : Nat
  mask : DWord
  addr : Nat
  words : List Word
  core : Nat
  gid : Nat
  /-- The team of the thread that executed `ARM`, whose scratchpad a copy's addresses name. -/
  team : Nat
  deriving DecidableEq, Repr

/-- One context (R155, R223, R309, R310, R370). -/
structure Ctx where
  cfg : CtxCfg
  tx : Map (List Word) := []
  gm : Map (List Word) := []
  trapLo : Word := 0
  trapHi : Word := 0
  saveLo : Word := 0
  saveHi : Word := 0
  touched : BitVec 10 := 0
  energy : Nat := 0
  scb : Map DWord := []
  armed : List Armed := []
  node : Option NodeTable := none
  tickets : Nat := 0
  /-- Ended tickets with their status (R144). -/
  ended : Map Nat := []
  killed : Bool := false
  /-- The tick at which the time-stop that covers the context began (R407). -/
  stopAt : Option Nat := none
  deriving DecidableEq, Repr

/-- A record in a bin (R282, R283). -/
inductive LendSt where
  | unlent | lent (thief : Nat) (at_ : Nat)
  deriving DecidableEq, Repr

structure Rec where
  ctx : Nat
  node : Nat
  acc : Nat
  born : Nat
  words : List Word
  lend : LendSt := .unlent
  gen : Nat := 0
  deriving DecidableEq, Repr

/-- A lend in progress as its messages see it (R283): the victim's record, the generation, the thief's half. -/
inductive ThiefSt where
  | none | flying | pending
  deriving DecidableEq, Repr

structure Lend where
  victim : Nat
  thief : Nat
  acc : Nat
  gen : Nat
  r : Rec
  st : ThiefSt := .flying
  ackSent : Bool := false
  confirm : Option Bool := none
  /-- Whether a guide core holds the victim's lend table. -/
  guided : Bool := false
  deriving DecidableEq, Repr

/-- A write-combining entry (R350). -/
structure WcEntry where
  peer : Nat
  line : Nat
  bytes : Map Byte := []
  ops : List Nat := []
  born : Nat := 0
  ctx : Nat := 0
  deriving DecidableEq, Repr

/-- A ticket slot (R174). -/
structure TSlot where
  gen : Nat := 0
  op : Option Nat := none
  deriving DecidableEq, Repr

/-! ## The slot being executed -/

/-- The slot of a sweep (R21): the group, the lanes of the path, the address of the word. `prog` selects the
sequencer's slot instead. -/
structure Slot where
  gid : Nat
  lanes : List Nat
  pc : Nat
  prog : Option Nat := none
  /-- The cycle (`CYC`) in which each executing lane's slot begins, once the sweep has been timed (R21, R68). -/
  begins : Option (Map Nat) := none
  /-- Scratchpad batches for which a port has been had (R172). -/
  paid : Nat := 0
  /-- The execution that earlier lanes of a path have begun, while the later ones waited for a place in the engine (R218). -/
  ex : Option Nat := none
  /-- Whether the instruction does not issue when the sweep begins: its path stalls, and costs nothing (R157). -/
  back : Bool := false
  deriving DecidableEq, Repr

/-- The slots that a slice still has to issue while it waits, for a batch port or for a place in the matrix engine, and the
cycle (`CYC`) since which it waits (R35, R172, R218). -/
structure Held where
  slots : List Slot
  port : Bool
  at_ : Nat
  deriving DecidableEq, Repr

/-- One core (R27, R30, R174, R218, R282, R350). -/
structure Core where
  gated : Bool := false
  restart : Option Nat := none
  pool : Nat := Config.poolBytes
  resv : Nat := Config.reserveBytes
  slots : Map TSlot := []
  eng : Map EngOp := []
  /-- The lines of the L1, each with the tick at which it was filled (R95). -/
  l1 : Map (Nat × List Byte) := []
  wc : Map WcEntry := []
  bin : List Rec := []
  accCtr : Nat := 0
  /-- The time of acceptance of the records in spill areas, by their acceptance numbers (R282, R330). -/
  spillBorn : Map Nat := []
  /-- The cycle (CYC) until which a slice is busy with a sweep (R21, R67). -/
  busy : Map Nat := []
  /-- What each waiting slice holds (R35), and the group that each slice issued last. -/
  held : Map Held := []
  lastIssue : Map Nat := []
  /-- CYC at which each of the four batch ports is free again, and the round-robin place (R172). -/
  ports : List Nat := [0, 0, 0, 0]
  rr : Nat := 0
  lastCtx : Option Nat := none
  oldTiles : Map Tile := []
  /-- Scratchpad ranges that ended teams left behind, newest first: base, length, context (R278). -/
  scrOwner : List (Nat × Nat × Nat) := []
  deriving DecidableEq, Repr

inductive DieSt where
  | online | offline | retained | lost
  deriving DecidableEq, Repr

/-- One die (R399, R405, R407). -/
structure Die where
  st : DieSt := .online
  halted : Bool := false
  errs : Nat := 0
  aluOff : Bool := false
  deriving DecidableEq, Repr

/-- One die pair's clock (R402 to R404): the CYC of the base, the RTIME of the base, the end of a relock, the epochs. -/
structure Pair where
  mhz : Nat := Config.resetMHz
  cyc : Nat := 0
  rt : Nat := 0
  relock : Option Nat := none
  eseq : Nat := 0
  epochs : List (Nat × Nat × Nat) := [(0, 0, 0), (0, 0, 0), (0, 0, 0), (0, 0, 0)]
  deriving DecidableEq, Repr

inductive BootSt where
  | rom | running
  deriving DecidableEq, Repr

structure Boot where
  st : BootSt := .rom
  reason : Nat := 0
  version : Nat := 0
  digest : Nat := 0
  deriving DecidableEq, Repr

structure Snap where
  latched : Bool := false
  tick : Nat := 0
  tag : Word := 0
  deriving DecidableEq, Repr

/-- A cached translation (R317). -/
structure Tlb where
  ctx : Nat
  home : Nat
  base : Nat
  size : Nat
  /-- The physical address of the leaf entry. -/
  ea : Nat
  w0 : DWord
  w1 : DWord
  deriving DecidableEq, Repr

/-- A walk that an instruction's access waits for (R317, R318): the page, the execution and its lowest lane that missed there,
the order of arrival, whether the walk is in flight, and how many walks that arrived after it have started before it. What no operation of
the MEM page waits for is made again when its walk is over: such a walk, if it has left no translation, stays as `over` until then. -/
structure Walk where
  ctx : Nat
  home : Nat
  base : Nat
  size : Nat
  ex : Nat
  lane : Nat
  arr : Nat
  live : Bool := false
  behind : Nat := 0
  again : Bool := false
  over_ : Bool := false
  deriving DecidableEq, Repr

/-- A page that a re-stripe is moving (R321): the part below `pos` is at the new word. -/
structure Moving where
  op : Nat
  ctx : Nat
  home : Nat
  base : Nat
  size : Nat
  oldFrame : Nat
  newFrame : Nat
  old : Word
  new : Word
  pos : Nat
  ea : Nat
  deriving DecidableEq, Repr

/-- What goes over a link or to the host. `rma` and `uetDone` are the replies and completions of Ultra Ethernet (R103, R359). -/
inductive MsgKind where
  | preamble | integ | grant | linkctl | read | write | wdata | atomic | rdata | ack | nack | mcast | cdata | cctl | spawn | gang
  | host | measurements | rma | uetDone
  deriving DecidableEq, Repr

/-- A message to send or sent (R342 to R344, R359, R412): receiver (512: the host), plane, channel, flits; the line index by
which its plane is chosen; the headers of the flits that have left and, counted over the link's life, the last of them. -/
structure Msg where
  dest : Nat
  kind : MsgKind
  plane : Nat := 0
  chan : Nat := 0
  flits : Nat := 1
  line : Nat := 0
  tag : Nat := 0
  ctx : Nat := 0
  sys : Bool := false
  addr : Nat := 0
  arg : Nat := 0
  data : List Byte := []
  hdrs : List (BitVec 128) := []
  last : Nat := 0
  deriving DecidableEq, Repr

/-- A message received in a block that has not been verified yet (R348): its type, the gang control code, and what it brings. -/
structure RxMsg where
  kind : MsgKind
  code : Nat := 0
  x : Sel
  /-- The flits that it stands for, and whether its message ends with them. -/
  n : Nat := 1
  whole : Bool := true
  deriving DecidableEq, Repr

/-- A link to a peer on one plane, both directions (R340, R342, R345, R347 to R349). -/
structure Link where
  /-- Attested and up; failed as a sender; the sender's light off. -/
  up : Bool := false
  bad : Bool := false
  dark : Bool := true
  /-- Flits sent (`SEQ` is this number modulo 2^16), the block counter, flits in the open block, the first of them and the tick at
  which it was sent. -/
  sent : Nat := 0
  ctr : Nat := 0
  blk : Nat := 0
  blkAt : Nat := 0
  blkT : Nat := 0
  /-- The sender's generation, whether its idle bank holds a new key, how far a rekey has come (1 sent, 2 confirmed, 3 installed)
  and until when no second one starts. -/
  genTx : Bool := false
  txIdle : Bool := false
  rekey : Nat := 0
  rekeyTill : Nat := 0
  /-- Messages with flits that wait for credits, and the credits of a channel: one reserved and what the receiver has granted. -/
  txq : List Msg := []
  credits : Map Nat := []
  /-- The `SEQ` of the last retry request and how many came in a row for it. -/
  retrySeq : Nat := 0
  retries : Nat := 0
  /-- As a receiver: failed; failed blocks in a row; the generation; whether a new key has come, whether the other bank holds a
  key, and until when. -/
  rxBad : Bool := false
  fails : Nat := 0
  genRx : Bool := false
  rxNew : Bool := false
  rxIdle : Bool := false
  heldTill : Nat := 0
  /-- The open block: the `SEQ` of its first flit and the one expected next, its messages and flits, its generation, and whether a
  gap or a key not held spoils it. -/
  rxFirst : Nat := 0
  rxSeq : Nat := 0
  rxBlock : List RxMsg := []
  rxFlits : Nat := 0
  rxGen : Bool := false
  rxGap : Bool := false
  /-- For a channel with a message of which flits have come but not the last: how many, and whether none was discarded. -/
  rxPart : Map (Nat × Bool) := []
  /-- The same as it stood when the open block began. -/
  rxKept : Map (Nat × Bool) := []
  /-- Shared credits granted to the peer beyond those that flits gave back, and flits discarded as link errors. -/
  given : Nat := 0
  errs : Nat := 0
  deriving DecidableEq, Repr

/-- What a peer asked for and has not been answered: the sectors of a write come one by one (R343). -/
inductive ServeKind where
  | read (addr n : Nat)
  | atomic (addr : Nat) (aop : BitVec 4) (n : Nat) (v : List Byte)
  | mcast (addr : Nat) (mask : DWord) (line : List Byte)
  | write (addr : Nat) (left : Nat) (fail : Option Cause) (todo : List (Nat × DWord × List Byte))
  | spawn (core node : Nat) (words : List Word)
  /-- A `PREPARE` that the member cannot answer yet (R358). -/
  | prepare (gang : Nat) (words : List Word)
  deriving DecidableEq, Repr

/-- A peer's request that is being served (R308, R343). -/
structure Serve where
  src : Nat
  tag : Nat
  ctx : Nat
  sys : Bool
  kind : ServeKind
  deriving DecidableEq, Repr

inductive MemberSt where
  | prepared | running | torn
  deriving DecidableEq, Repr

/-- A gang member record (R358). -/
structure Member where
  src : Nat
  ctx : Nat
  r : LRec
  st : MemberSt
  since : Nat
  grid : Option Nat := none
  peers : List Nat := []
  deriving DecidableEq, Repr

/-- A collective's descriptor (R362): where the step words start, the rank, the positions of the group, element type,
operator, base addresses, chunk size. -/
structure CollDesc where
  prog : Nat
  rank : Nat
  grp : List Nat
  ety : Nat
  rop : Nat
  b : List Nat
  csz : Nat
  deriving DecidableEq, Repr

/-- Bytes that a step writes to a peer or to bank memory: the address of its first byte, the one that comes next, the bytes left,
whether they are combined with the carry words that stand there (R329), and whether they are a chunk (R377). -/
structure ChunkW where
  base : Nat
  next : Nat
  left : List Byte
  comb : Bool
  chunk : Bool
  deriving DecidableEq, Repr
/-- A collective program (R362 to R367). -/
structure Prog where
  die : Nat
  core : Nat
  ctx : Nat
  sys : Bool
  grid : Option Nat
  /-- The `COLL` operation that settles with it, or the address of the armed descriptor's status word. -/
  op : Option Nat
  status : Option Nat
  d : CollDesc
  words : List DWord := []
  /-- The cause that ended the reading of step words, if one did. -/
  short : Option Cause := none
  /-- Whether the step words have been read; a fired collective's descriptor address until it is read (R379). -/
  read : Bool := false
  unread : Option Nat := none
  started : Bool := false
  ip : Nat := 0
  p : List Nat
  l : List Nat := [0, 0, 0]
  /-- Open loops, innermost first: the counter, its count, the step after its LOOP. -/
  loops : List (Nat × Int × Nat) := []
  /-- Chunks received and not yet consumed, oldest first, with their ranks. -/
  inbox : List (Nat × List Byte) := []
  /-- Slot credits towards each rank. -/
  credits : Map Nat := []
  /-- Chunks sent and not acknowledged, oldest first: the rank and the tick. -/
  unacked : List (Nat × Nat) := []
  /-- What has been read of a chunk, or of the step words, that lies at a peer or in bank memory: its address and the bytes. -/
  rd : Option (Nat × List Byte) := none
  /-- What a step has still to write there (R325, R343). -/
  wr : Option ChunkW := none
  /-- Slot credits given for chunks that receiving steps have not taken yet. -/
  due : Nat := 0
  /-- The cause with which the program ends, until its outcome has been delivered. -/
  failed : Option Cause := none
  deriving DecidableEq, Repr

/-! ## Operations in flight (R69 to R75) -/

/-- Where a register result goes, with the generations of the mapped names at issue (R26). -/
structure Dst where
  o : Opnd
  n : Nat
  gens : List Nat := []
  deriving DecidableEq, Repr

/-- The state of an operation: not yet performed; sent to a peer; performed and not settled; parked; settled. -/
inductive OpSt where
  | waiting | sent (tag : Nat) | performed | parked | ok | failed (c : Cause) | dropped
  deriving DecidableEq, Repr

/-- The escape kinds of R80. -/
inductive EscKind where
  | store | atom | copy | mcst | spawn
  deriving DecidableEq, Repr

structure Esc where
  kind : EscKind
  size : Nat
  addr : Nat
  deriving DecidableEq, Repr

/-- What the five asynchronous instructions share (R174, R182). -/
structure Async where
  slot : Option Nat
  ticket : Word
  promise : Word
  bar : Option Nat := none
  bytes : Bool := false
  par : Bool := false
  count : Nat := 0
  csc : Scope := .core
  /-- The issuing thread's team, whose scratchpad the addresses name. -/
  team : Nat := 0
  /-- Sectors, elements or lines done; bytes gathered and bytes written of the current sector. -/
  pos : Nat := 0
  buf : List Byte := []
  wr : Nat := 0
  wrote : Bool := false
  cancelled : Bool := false
  deriving DecidableEq, Repr

/-- The work of an asynchronous operation. -/
inductive Job where
  | copy (ssp dsp : Space) (src dst n : Nat)
  | tile (store : Bool) (ent : List Word) (row0 col0 spad : Nat) (pad : Bool)
  | bank (x : BkX) (dst s1 s2 : Nat) (scalar : Nat) (m : Nat)
  | restripe (va : Nat) (pages : Nat) (word : Word) (size : Nat) (done : Nat)
  deriving DecidableEq, Repr

/-- A multicast (R352, R353, R375): the group and its positions, the destination, where the source line lies and the
line once it has been read, the positions sent to, their answers, and whether the lanes are tuned for the next round. -/
structure Mcst where
  grp : Nat
  poss : List Nat
  addr : Nat
  local_ : Bool
  src : Nat
  line : List Byte := []
  sent : List Nat := []
  acks : List Nat := []
  nacks : Map Nat := []
  tuned : Bool := true
  /-- The tick of the last round. -/
  at_ : Nat := 0
  deriving DecidableEq, Repr

/-- A pulled reduction (R355, R356, R376): the positions' lines and refusals so far, and the belay die that serves it. -/
structure RLoad where
  poss : List Nat
  addr : Nat
  spad : Nat
  ety : Nat
  rop : Nat
  got : Map (List Byte) := []
  nacks : Map Nat := []
  server : Nat
  /-- Whether it has been handed to the fallback server of another device, or the peer and tag for which this device serves it
  (R356). -/
  moved : Bool := false
  for_ : Option (Nat × Nat) := none
  deriving DecidableEq, Repr

/-- A gang launch as its launcher sees it (R358): the gang, the members, the record, whether GO has been sent, who has
answered, and the tick at which the launcher's clock started. -/
structure Gang where
  gang : Nat := 0
  poss : List Nat
  record : List Word
  going : Bool := false
  heard : List Nat := []
  since : Nat := 0
  deriving DecidableEq, Repr

/-- What an operation does. -/
inductive OpKind where
  | load (sp : Space) (addr : Nat) (n : Nat) (sgn : Bool)
  | store (sp : Space) (addr : Nat) (bytes : List Byte)
  | atom (sp : Space) (addr : Nat) (aop : BitVec 4) (n : Nat) (v : List Byte) (ret : Bool) (mode : BitVec 4) (shape : Word)
  | pref (addr : Nat) (l1 : Bool)
  | tfence (acks : List Nat)
  | async (a : Async) (j : Job)
  | spawn (core node : Nat) (words : List Word)
  /-- `claimed`: the object has been claimed and is to be read again (R147). -/
  | resume (obj : Nat) (s : Bool) (claimed : Bool := false)
  | ccopy (fork : Bool) (src dst : Nat)
  | sign (anchor : Nat) (sig : Sig)
  | mcst (m : Mcst)
  | rload (r : RLoad)
  | coll (d : CollDesc) (chunk : Nat)
  | scb (sb : Nat) (mask : DWord) (set : Bool)
  | arm (a : Armed)
  | gang (g : Gang)
  | peerq (idx : Nat)
  /-- A queue instruction that was dropped behind a failure (R73, R79). -/
  | queue
  | wcflush (writes : List Nat)
  | rspawn (target : Word) (node : Nat) (words : List Word)
  | mgrp (g : Nat) (poss : List Nat)
  /-- A program's request for bytes at a peer or in bank memory: the program, the address, the length, and what a write brings. -/
  | chunk (prog va n : Nat) (w : Option (List Byte)) (comb : Bool)
  /-- A `WAITF` read of a peer's memory or of a bank; it belongs to no thread's horizon. -/
  | poll (sp : Space) (lane va n : Nat)
  deriving DecidableEq, Repr

/-- One operation: of one lane, or of all the lanes of a path that executed it once (R69). -/
structure Op where
  ex : Nat
  core : Nat
  ctx : Nat
  gid : Nat
  lanes : List (Nat × Word)
  ins : Nat
  kind : OpKind
  ord : Ord := .rlx
  scope : Scope := .grp
  held : Bool := false
  st : OpSt := .waiting
  esc : Option Esc := none
  seta : Option Nat := none
  setb : Option Nat := none
  dst : Option Dst := none
  issue : Nat
  stop : Nat := 0
  /-- The scope at which a release fence in force at issue makes it a release (R90, R167). -/
  fence : Option Scope := none
  /-- The status words that receive its outcome instead of a thread: its entries in the object it was detached into, one
  for each lane (R295), or an armed descriptor's (R379). -/
  det : List Nat := []
  /-- A failure that was met while the instruction's descriptor was read (R377). -/
  err : Option Cause := none
  sys : Bool := false
  taken : Bool := false
  /-- Whether a time-stop covered the context when the operation was issued or settled (R407). -/
  ts : Bool := false
  /-- Requests that its bank has admitted before its own, though they reached the bank after it, and for a later request of an engine
  the number at which it reached its bank (R325). -/
  passed : Nat := 0
  came : Nat := 0
  deriving DecidableEq, Repr

/-- What the device keeps of a suspended group: the context and address of its object, the executions that its flags counted
and the flag completions since, the clauses and the operations of its parked threads, and the group that it was restored as
(R296, R320). -/
structure Image where
  src : Nat
  ctx : Nat
  obj : Nat
  exs : List Nat := []
  falls : Map Nat := []
  clauses : Map Clause := []
  parked : Map Op := []
  /-- Entries of the detached table whose operations were issued or settled under a time-stop (R407). -/
  ts : List Nat := []
  restored : Option Nat := none
  deriving DecidableEq, Repr

/-- A saved team (R297, R298): where its record lies, and the device's own image. -/
structure Save where
  tid : Nat
  ctx : Nat
  base : Nat
  len : Nat
  team : Team
  groups : Map Group
  objs : List Nat
  scratch : Map Byte
  clOf : Nat
  cluster : Cluster
  ckpt : Bool := false
  /-- Whether the team has been put back at a core, where its groups have still to start (R296, R297). -/
  placed : Bool := false
  deriving DecidableEq, Repr

/-- A write that waits for the invalidates of a `REPL` page's holder dies (R101): the line, who writes (an operation, or a
peer's request by source and tag), and the holders that have still to answer. -/
structure ReplW where
  line : Nat
  op : Nat
  src : Option Nat
  acks : List Nat
  deriving DecidableEq, Repr

/-- A request in a bank's queue (R325): the operation and, for a stream, the element; for a copy, the next word. -/
abbrev BankReq := Nat × Nat

/-- Why the machine stops with a fault. -/
inductive Fault where
  /-- Raised by UET_RMA_WRITE and CONTEXT_CREATION when an outside agent names memory the package has not got. Safe:
  no program of the device can cause it. -/
  | noSuchMemory (addr : Nat)
  deriving DecidableEq, Repr

/-- Why the machine refuses. -/
inductive Refusal where
  /-- Raised by the dispatcher for an instruction whose meaning is not written. Safe: nothing is claimed of it. -/
  | notModelled (mnemonic : String)
  deriving DecidableEq, Repr

structure State where
  rtime : Nat
  boot : Boot
  deviceIndex : BitVec 9
  massifId : BitVec 9
  dies : Map Die
  pairs : Map Pair
  snap : Snap
  mem : List Host.Cell
  poison : List Nat
  tlb : List Tlb
  walks : List Walk
  moving : List Moving
  /-- Pages whose last service could not read their backing (R320): context, home, base, size. -/
  unread : List (Nat × Nat × Nat × Nat)
  /-- The lines in each V-die's near cache, newest first (R306). -/
  near : Map (List Nat)
  /-- Writes to lines of `REPL` pages that wait at their homes, in the order of arrival (R101). -/
  replQ : Map ReplW
  replBad : Map (List Nat)
  images : Map Image
  /-- For a line of a `PROMO` page, the core that last released to it at core scope, and the operation (R96). -/
  promo : Map (Nat × Nat)
  cxlOut : List Nat
  mgroups : Map (List Nat)
  planesOff : List Nat
  links : Map Link
  outbox : List Msg
  serving : List Serve
  /-- Replies of peers that wait at the clock crossing of a die pair that relocks (R403). -/
  fifo : List RxMsg
  members : Map Member
  progs : Map Prog
  reserved : Map (Nat × List Nat)
  saves : Map Save
  energyEnd : Nat
  /-- FATAL traps delivered to system firmware, newest first: context, team, cause (R76, R77). -/
  fatals : List (Nat × Nat × Cause)
  ops : Map Op
  banks : Map (List BankReq)
  /-- For a bank, the cycle of its die pair at which its ALU is free again (R326). -/
  bankBusy : Map Nat
  lends : Map Lend
  ctxs : Map Ctx
  grids : Map Grid
  clusters : Map Cluster
  teams : Map Team
  groups : Map Group
  cores : Map Core
  freeCtr : Nat
  nextId : Nat
  sel : Sel
  cur : Option Slot
  issue : List Slot
  /-- Executions of which later lanes may still be issued: their flags do not fall before (R9). -/
  opening : List Nat
  agenda : List (Nat × Instr × Sel)
  deriving DecidableEq, Repr

/-- The machine at power-on (R402, R411): `RTIME` 0, every die online, the boot ROM waiting for an image, no context.
Values the spec does not give are those of DESIGN CHOICE, log entries 2 to 4. -/
def State.reset : State where
  rtime := 0
  boot := {}
  deviceIndex := 0
  massifId := 0
  dies := (List.range 10).map fun d => (d, {})
  pairs := (List.range 4).map fun d => (d, {})
  snap := {}
  mem := []
  poison := []
  tlb := []
  walks := []
  moving := []
  unread := []
  near := []
  replQ := []
  replBad := []
  images := []
  promo := []
  cxlOut := []
  mgroups := []
  planesOff := []
  links := []
  outbox := []
  serving := []
  fifo := []
  members := []
  progs := []
  reserved := []
  saves := []
  energyEnd := 1000000
  fatals := []
  ops := []
  banks := []
  bankBusy := []
  lends := []
  ctxs := []
  grids := []
  clusters := []
  teams := []
  groups := []
  cores := []
  freeCtr := 0
  nextId := 1
  sel := {}
  cur := none
  issue := []
  opening := []
  agenda := []

end Sys2Proof.Machine
end

