-- ==== Sys2Proof/Machine/Legal.lean ====
section
/-!
DEFINITION. Sys2Proof/Machine/Legal.lean: which operands an accepted word may name, and how often it executes (R50,
R51, R130, R157, R160, R228, R258, R261, R373). A word that fails here traps with `ILLEGAL_OPERAND` (R66).
-/

namespace Sys2Proof

/-- Uniform codes (R46). -/
def Opnd.uniform : Opnd → Bool
  | .s _ | .k _ | .rtime | .nul | .lit _ | .litNone => true
  | .v _ | .t _ | .lane | .hz | .opc => false

/-- A register code with its class: 0 for `v`, 1 for `s`, 2 for `t`. -/
def Opnd.reg? : Opnd → Option (Nat × Nat)
  | .v n => some (0, n.val)
  | .s n => some (1, n.val)
  | .t n => some (2, n.val)
  | .k _ | .lane | .hz | .opc | .rtime | .nul | .lit _ | .litNone => none

/-- Registers of each class. -/
def classSize (c : Nat) : Nat := if c = 0 then 64 else if c = 1 then 48 else 4

/-- A run of `n` registers from `o`: first code a multiple of `n`, inside its class (R50, R160). -/
def Opnd.runOk (o : Opnd) (n : Nat) : Bool :=
  match o.reg? with
  | some (c, i) => i % n == 0 && i + n ≤ classSize c
  | none => false

/-- A legal destination of `n` registers (R50, R51, R160). -/
def Opnd.dstOk (o : Opnd) (n : Nat) : Bool := o = .nul || o.runOk n

/-- A legal source of `n` registers: one register or a pair may be any readable code. -/
def Opnd.srcOk (o : Opnd) (n : Nat) : Bool :=
  match o with
  | .nul => true
  | .litNone => false
  | .k _ | .lane | .hz | .opc | .rtime | .lit _ => decide (n ≤ 2)
  | .v _ | .s _ | .t _ => o.runOk n

/-- `n` consecutive registers of one class, from any code (R141). -/
def Opnd.consecOk (o : Opnd) (n : Nat) : Bool :=
  match o.reg? with
  | some (c, i) => i + n ≤ classSize c
  | none => false

/-- The register `i` codes above a register operand. -/
def Opnd.plus (o : Opnd) (i : Nat) : Opnd :=
  match o with
  | .v n => if h : n.val + i < 64 then .v ⟨n.val + i, h⟩ else .nul
  | .s n => if h : n.val + i < 48 then .s ⟨n.val + i, h⟩ else .nul
  | .t n => if h : n.val + i < 4 then .t ⟨n.val + i, h⟩ else .nul
  | o => o

/-- The vector names of a destination of `n` registers. -/
def Opnd.vnames (o : Opnd) (n : Nat) : List Nat :=
  match o with
  | .v j => (List.range n).map fun i => j.val + i
  | _ => []

/-- How an instruction executes (R51). -/
inductive ExecMode where
  /-- In every executing thread. -/
  | thread
  /-- In every executing thread, or once per path where the destination is uniform. -/
  | byDst
  /-- Once per path whatever its destination. -/
  | once
  /-- A cross-lane instruction that may write a uniform destination from per-thread sources (R261). -/
  | crossU
  /-- A cross-lane instruction that may not. -/
  | cross
  deriving DecidableEq, Repr

/-- What an instruction's operands must satisfy. -/
structure Need where
  mode : ExecMode := .byDst
  /-- The destination and its registers. -/
  dst : Option (Opnd × Nat) := none
  /-- Sources and their registers. -/
  srcs : List (Opnd × Nat) := []
  /-- Sources that must be uniform whatever the destination. -/
  uni : List Opnd := []
  /-- Any further condition on the fields. -/
  ok : Bool := true
  deriving DecidableEq, Repr

/-- Registers of a value of type `t` (R63). -/
def Ty.regs (t : Ty) : Nat := if t.is64 then 2 else 1

/-- Registers of an access of width code `w` (R160). -/
def widthRegs (w : Nat) : Nat := if w ≤ 2 then 1 else 2 ^ (w - 2)

/-- Elements of one register (R63). -/
def Ty.elems : Ty → Nat
  | .bf16x2 | .f16x2 | .i16x2 => 2
  | .i8x4 | .u8x4 | .nf8x4 | .nf8wx4 => 4
  | .nf4x8 => 8
  | .i32 | .u32 | .f32 | .i64 | .u64 | .f64 => 1

/-- Registers of a conversion's side (R256). -/
def cvtRegs (t other : Ty) : Nat := if t.is64 then 2 else max t.elems other.elems / t.elems

def Need.three (d a b : Opnd) : Need := { dst := some (d, 1), srcs := [(a, 1), (b, 1)] }
def Need.pairs (d a b : Opnd) : Need := { dst := some (d, 2), srcs := [(a, 2), (b, 2)] }
def Need.two (d a : Opnd) : Need := { dst := some (d, 1), srcs := [(a, 1)] }

/-- The run that an atomic's `D` names (R164): two values for CAS. -/
def Mx.atomRegs (x : Mx) : Nat :=
  if x.aop = 12 then 2 * widthRegs x.w.val else widthRegs x.w.val

/-- The registers that a constant 120 may not supply to an NF4 operand (R47) are those of `CVT` from NF4. -/
def CvtX.constOk (x : CvtX) (a : Opnd) : Bool := !(x.sty = .nf4x8 && a = .k 4)

/-- A run of two or more registers of 32-bit elements is a run of registers, or `NUL` (R160, R256). -/
def CvtX.runOk (x : CvtX) (a : Opnd) : Bool :=
  let n := cvtRegs x.sty x.dty
  n ≤ 1 || x.sty.is64 || a = .nul || a.runOk n

/-- Loads. -/
def Need.load (x : Mx) (d a b : Opnd) (addr : Nat) : Need :=
  { dst := some (d, widthRegs x.w.val), srcs := [(a, addr), (b, 1)] }
def Need.store (x : Mx) (d a b : Opnd) (addr : Nat) : Need :=
  { mode := .thread, srcs := [(d, widthRegs x.w.val), (a, addr), (b, 1)] }
/-- Atomics write back where `RET` is set; `.GMEXIT` only writes. The operands of `.CAS` are a run of registers or `NUL` (R160,
R164). -/
def Need.atom (x : Mx) (d a b : Opnd) (addr : Nat) : Need :=
  let n : Need := if x.ret then
    if x.aop = 15 then { dst := some (d, 1), srcs := [(a, addr), (b, 1)] }
    else { dst := some (d, x.atomRegs), srcs := [(d, x.atomRegs), (a, addr), (b, 1)] }
  else { mode := .thread, srcs := [(d, x.atomRegs), (a, addr), (b, 1)] }
  { n with ok := x.aop ≠ 12 || d.dstOk x.atomRegs }
/-- The asynchronous instructions execute per thread, whatever the ticket pair: R157 and R173 except only loads, atomics, `GEOQ`
and `CANCEL` from it (DEDUCED, log entry 67). -/
def Need.async (d : Opnd) (srcs : List (Opnd × Nat)) : Need := { mode := .thread, dst := some (d, 2), srcs := srcs }
/-- Anchored instructions: the anchor is 0 to 7 and every operand uniform (R228). -/
def Need.anchored (d : BitVec 7) (os : List Opnd) : Need :=
  { mode := .thread, srcs := os.map fun o => (o, 1), uni := os, ok := decide (d.toNat < 8) }
def Need.once (dst : Option Opnd) (srcs : List (Opnd × Nat)) : Need :=
  { mode := .once, dst := dst.map fun d => (d, 1), srcs := srcs }

/-- Special registers that a thread holds by itself (R153). -/
def srPerThread (n : Nat) : Bool := n == 0
/-- Special registers a program may write (R153, R155). -/
def srWritable (n : Nat) : Bool := [11, 12, 13, 14, 64, 65, 66, 67].contains n
/-- Special-register numbers that exist (R152, R155). -/
def srExists (n : Nat) : Bool := n ≤ 22 || (64 ≤ n && n ≤ 69)

/-- The operands of each instruction; `w` is the group's width, which sizes mask operands (R258). A per-thread address of `GMTAB` is
illegal (DESIGN CHOICE, log entry 66). -/
def Instr.need (w : Nat) : Instr → Need
  | .iadd _ d a b | .isub _ d a b | .imul _ d a b | .imulhI _ d a b | .imulhU _ d a b | .iminI _ d a b
  | .iminU _ d a b | .imaxI _ d a b | .imaxU _ d a b | .and _ d a b | .or _ d a b | .xor _ d a b | .andn _ d a b
  | .shl _ d a b | .shr _ d a b | .sar _ d a b | .rol _ d a b | .bfeU _ d a b | .bfeI _ d a b | .clmul _ d a b
  | .clmulh _ d a b | .fadd _ d a b | .fsub _ d a b | .fmul _ d a b | .fmin _ d a b | .fmax _ d a b
  | .fdiv _ d a b => .three d a b
  | .iadd64 _ d a b | .isub64 _ d a b | .dadd _ d a b | .dmul _ d a b => .pairs d a b
  | .imad _ x d a b | .bfi _ x d a b | .prmt _ x d a b | .ffma _ x d a b | .pfma _ x d a b =>
    { dst := some (d, 1), srcs := [(a, 1), (b, 1), (x.c, 1)] }
  | .imadw _ x d a b => { dst := some (d, 2), srcs := [(a, 1), (b, 1), (x.c, 2)] }
  | .dfma _ x d a b => { dst := some (d, 2), srcs := [(a, 2), (b, 2), (x.c, 2)] }
  | .popc _ d a | .clz _ d a | .brev _ d a | .iabs _ d a | .mov _ d a | .fclass _ d a | .fabs _ d a | .rcp _ d a
  | .rsq _ d a | .sqrt _ d a | .exp2 _ d a | .log2 _ d a | .sinpi _ d a | .cospi _ d a | .tanh _ d a
  | .sigm _ d a => .two d a
  | .sel _ x d a b => { dst := some (d, x.ty.regs), srcs := [(a, x.ty.regs), (b, x.ty.regs)] }
  | .padd _ _ d a b | .psub _ _ d a b | .pmul _ _ d a b | .pmin _ _ d a b | .pmax _ _ d a b => .three d a b
  | .icmp _ x d a b | .fcmp _ x d a b =>
    { mode := .thread, srcs := [(a, x.ty.regs), (b, x.ty.regs)], ok := decide (d.toNat < 6) }
  | .plop _ _ d a b => { mode := .thread, ok := decide (d.toNat < 12) && decide (a.toNat < 12) && decide (b.toNat < 12) }
  | .movi _ d _ => { dst := some (d, 1) }
  | .iaddi _ d a _ => .two d a
  | .cvt _ x d a =>
    { dst := some (d, cvtRegs x.dty x.sty), srcs := [(a, cvtRegs x.sty x.dty)], ok := x.constOk a && x.runOk a }
  | .frnd _ x d a => { dst := some (d, x.ty.regs), srcs := [(a, x.ty.regs)] }
  | .lop3 _ x d a b => { dst := some (d, 1), srcs := [(a, 1), (b, 1), (x.c, 1)] }
  | .ldg _ x d a b => .load x d a b 2
  | .lds _ x d a b | .ldb _ x d a b => .load x d a b 1
  | .stg _ x d a b => .store x d a b 2
  | .sts _ x d a b | .stb _ x d a b => .store x d a b 1
  | .atomg _ x d a b => .atom x d a b 2
  | .atoms _ x d a b | .atomb _ x d a b => .atom x d a b 1
  | .fence _ _ | .tfence _ _ | .mopr _ | .wcflush _ | .reconv _ | .exit _ | .nop _ | .bra _ _ | .trap _ _ =>
    { mode := .thread }
  | .pref _ _ a b => { mode := .thread, srcs := [(a, 2), (b, 1)] }
  | .qpush _ _ d a => { mode := .thread, srcs := [(d, 1)], ok := decide (a.toNat < 4) }
  | .qpop _ _ d a =>
    { mode := .thread, dst := some (d, 1), ok := decide (a.toNat < 4) && (!d.uniform || d = .nul) }
  | .cpy _ x d a b => .async d [(a, 4), (b, 1), (x.bar, 1)]
  | .tload _ x d a b | .tstore _ x d a b => .async d [(a, 1), (b, 1), (x.bar, 1)]
  | .pwait _ a => { mode := .thread, srcs := [(a, 2)], ok := a.dstOk 2 }
  | .ptest _ d a => { mode := .thread, srcs := [(a, 2)], ok := decide (d.toNat < 6) && a.dstOk 2 }
  | .binit _ a b | .bexp _ a b => { mode := .thread, srcs := [(a, 1), (b, 1)] }
  | .barr _ a => { mode := .thread, srcs := [(a, 1)] }
  | .bwait _ d a b => { mode := .thread, dst := some (d, 1), srcs := [(a, 1), (b, 1)] }
  | .btest _ d a b => { mode := .thread, srcs := [(a, 1), (b, 1)], ok := decide (d.toNat < 6) }
  | .bankop _ x d a b => .async d [(a, 4), (b, if x.sc then x.ty.regs else 1)]
  | .restripe _ _ d a b => .async d [(a, 2), (b, 1)]
  | .geoq _ d a => { dst := some (d, 1), srcs := [(a, 2)] }
  | .cancel _ d a => .two d a
  | .manch _ d a => { mode := .once, srcs := [(a, 1)], uni := [a], ok := decide (d.toNat < 8) }
  | .mldw _ _ d a => .anchored d [a]
  | .mswap _ d => .anchored d []
  | .mma _ _ d a b | .mrd _ _ d a b | .mwr _ _ d a b => .anchored d [a, b]
  | .mzero _ d a => { mode := .thread, ok := decide (d.toNat < 8) && decide (a.toNat < 16) }
  | .msts _ x d a b => .anchored d [a, b, x.c]
  | .rstat _ x d a b => .anchored d [a, b, x.c]
  | .mscale _ x d a b => .anchored d [a, b, x.c]
  | .tdef _ _ a => { mode := .once, ok := (match a with | .s n => n.val % 8 == 0 | _ => false) }
  | .tqry _ d _ _ => { dst := some (d, 1) }
  | .mwait _ a => { mode := .thread, ok := decide (a.toNat ≤ 16) }
  | .mcst _ x d a b => { dst := some (d, 4), srcs := [(a, if x.ssp then 1 else 2), (b, 1), (x.c, 2)] }
  | .rload _ _ d a b => { mode := .thread, srcs := [(d, 1), (a, 2), (b, 1)] }
  | .coll _ _ a => .once none [(a, 2)]
  | .scbset _ a b | .scbclr _ a b => { mode := .thread, srcs := [(a, 1), (b, 2)] }
  | .arm _ _ a b => { mode := .thread, srcs := [(a, 2), (b, 2)] }
  | .gang _ a b => .once none [(a, 2), (b, 1)]
  | .peerq _ d a => .two d a
  | .rspawn _ x a b => { mode := .thread, srcs := [(b, 1)], ok := a.consecOk (x.nw.toNat + 1) }
  | .mgrp _ a b => .once none [(a, 1), (b, 2)]
  | .brx _ a | .ret _ a | .waith _ a | .bar _ _ a | .sleep _ a => { mode := .thread, srcs := [(a, 1)] }
  | .call _ d _ => { dst := some (d, 1) }
  | .brh _ _ a => { mode := .thread, srcs := [(a, 1)] }
  | .spawn _ x a b => { mode := .thread, srcs := [(b, 1)], ok := a.consecOk (x.nw.toNat + 1) }
  | .suspend _ d a => .once (some d) [(a, 2)]
  | .resume _ a => { mode := .thread, srcs := [(a, 2)] }
  | .resumeS _ d a | .cdiscard _ d a => { dst := some (d, 1), srcs := [(a, 2)] }
  | .ccopyMove _ a b | .ccopyFork _ a b => { mode := .thread, srcs := [(a, 2), (b, 2)] }
  | .waitf _ x d a b =>
    let r := if x.w64 then 2 else 1
    { dst := some (d, r), srcs := [(a, if x.spc = .global then 2 else 1), (b, r)] }
  | .rft _ | .yieldH _ | .rrel _ => .once none []
  | .getsr _ d a => { dst := some (d, 1), ok := srExists a.toNat && !(srPerThread a.toNat && (match d with | .s _ => true | _ => false)) }
  | .setsr _ d a => { mode := .once, srcs := [(a, 1)], ok := srExists d.toNat && srWritable d.toNat }
  | .racq _ a | .snap _ a => .once none [(a, 1)]
  | .steal _ d a | .waitl _ d a => .once (some d) [(a, 1)]
  | .launch _ d a => .once (some d) [(a, 2)]
  | .shfl _ x d a b =>
    let r := if x.w64 then 2 else 1
    { mode := .cross, dst := some (d, r), srcs := [(a, r), (b, 1), (x.c, if w = 64 then 2 else 1)], uni := [x.c] }
  | .vote _ _ d => { mode := .thread, ok := decide (d.toNat < 6) }
  | .ballot _ d a => { mode := .crossU, dst := some (d, if w = 64 then 2 else 1), ok := decide (a.toNat < 12) }
  | .redux _ x d a => { mode := .crossU, dst := some (d, x.ty.regs), srcs := [(a, x.ty.regs)] }
  | .scan _ x d a => { mode := .cross, dst := some (d, x.ty.regs), srcs := [(a, x.ty.regs)] }
  | .matchL _ d a => { mode := .cross, dst := some (d, 1), srcs := [(a, 1)] }
  | .matchW64 _ d a => { mode := .cross, dst := some (d, 1), srcs := [(a, 2)] }
  | .gmred _ x d a =>
    { mode := .crossU, dst := some (d, if x.ext then 1 else 4), srcs := [(a, if x.inS then 4 else 1)] }
  | .gmtab _ d a => { mode := .once, srcs := [(a, 1)], ok := decide (d.toNat < 8) }
  | .first _ d a => { mode := .crossU, dst := some (d, 1), srcs := [(a, 1)] }
  | .lanemask _ x d =>
    { mode := if x.mode = 5 then .crossU else .cross, dst := some (d, if w = 64 then 2 else 1) }
  | _ => { mode := .thread }

/-- Whether a destination is uniform (64 to 111). -/
def Need.uniDst (n : Need) : Bool :=
  match n.dst with
  | some (.s _, _) => true
  | _ => false

/-- Whether the instruction executes once per path (R51). -/
def Need.perPath (n : Need) : Bool :=
  match n.mode with
  | .once => true
  | .thread => false
  | .byDst | .crossU | .cross => n.uniDst

/-- The operand checks of R50, R51 and R160. -/
def Need.legal (n : Need) : Bool :=
  n.ok
    && (match n.dst with
        | some (d, k) => d.dstOk k
        | none => true)
    && n.srcs.all (fun e => e.1.srcOk e.2)
    && n.uni.all Opnd.uniform
    && (match n.mode with
        | .once =>
          n.srcs.all (fun e => e.1.uniform)
            && (match n.dst with
                | some (d, _) => d.uniform
                | none => true)
        | .byDst => !n.uniDst || n.srcs.all (fun e => e.1.uniform)
        | .cross => !n.uniDst
        | .crossU | .thread => true)

/-- Whether the operands are legal in a group of width `w`. -/
def Instr.opndOk (w : Nat) (i : Instr) : Bool := (i.need w).legal

/-- Whether some source is the timer (R152). -/
def Instr.readsRtime (w : Nat) (i : Instr) : Bool := (i.need w).srcs.any fun e => e.1 = .rtime

/-- Privileged in user mode (R65). -/
def Instr.privileged : Instr → Bool
  | .snap _ _ | .gang _ _ _ | .mgrp _ _ _ | .tfence _ _ => true
  | .getsr _ _ a => decide (64 ≤ a.toNat)
  | .setsr _ d _ => decide (64 ≤ d.toNat)
  | _ => false

end Sys2Proof
end

