-- ==== Sys2Proof/Machine/Base.lean ====
section
/-!
DEFINITION. Sys2Proof/Machine/Base.lean: the operations that every other file shares: access to the parts of the state,
physical memory, clocks and fault domains, flags and the horizon, registers and register blocks.
-/

namespace Sys2Proof.Machine

/-- What every meaning answers. -/
abbrev Out := Host.Outcome State Fault Refusal

/-! ## Parts of the state -/

def State.group? (s : State) (g : Nat) : Option Group := Map.get? s.groups g
def State.modGroup (s : State) (g : Nat) (f : Group → Group) : State := { s with groups := Map.mod g f s.groups }
def State.team? (s : State) (t : Nat) : Option Team := Map.get? s.teams t
def State.modTeam (s : State) (t : Nat) (f : Team → Team) : State := { s with teams := Map.mod t f s.teams }
def State.ctx? (s : State) (c : Nat) : Option Ctx := Map.get? s.ctxs c
def State.modCtx (s : State) (c : Nat) (f : Ctx → Ctx) : State := { s with ctxs := Map.mod c f s.ctxs }
def State.core (s : State) (c : Nat) : Core := Map.get s.cores c {}
def State.modCore (s : State) (c : Nat) (f : Core → Core) : State := { s with cores := Map.put c (f (s.core c)) s.cores }
def State.op? (s : State) (o : Nat) : Option Op := Map.get? s.ops o
def State.modOp (s : State) (o : Nat) (f : Op → Op) : State := { s with ops := Map.mod o f s.ops }
def State.die (s : State) (d : Nat) : Die := Map.get s.dies d {}
def State.modDie (s : State) (d : Nat) (f : Die → Die) : State := { s with dies := Map.put d (f (s.die d)) s.dies }
def State.pair (s : State) (d : Nat) : Pair := Map.get s.pairs d {}
def State.modPair (s : State) (d : Nat) (f : Pair → Pair) : State := { s with pairs := Map.put d (f (s.pair d)) s.pairs }
def State.grid? (s : State) (g : Nat) : Option Grid := Map.get? s.grids g
def State.modGrid (s : State) (g : Nat) (f : Grid → Grid) : State := { s with grids := Map.mod g f s.grids }
def State.link (s : State) (k : Nat) : Link := Map.get s.links k {}
def State.modLink (s : State) (k : Nat) (f : Link → Link) : State := { s with links := Map.put k (f (s.link k)) s.links }

def Group.thread? (g : Group) (l : Nat) : Option Thread := Map.get? g.threads l
def Group.thread (g : Group) (l : Nat) : Thread := Map.get g.threads l {}
def Group.modThread (g : Group) (l : Nat) (f : Thread → Thread) : Group := { g with threads := Map.mod l f g.threads }
def State.thread (s : State) (g l : Nat) : Thread :=
  match s.group? g with
  | some gr => gr.thread l
  | none => {}
def State.modThread (s : State) (g l : Nat) (f : Thread → Thread) : State := s.modGroup g fun gr => gr.modThread l f

/-- A fresh identifier. -/
def State.fresh (s : State) : Nat × State := (s.nextId, { s with nextId := s.nextId + 1 })

/-- A fresh number for a free value. -/
def State.freeNum (s : State) : Nat × State := (s.freeCtr, { s with freeCtr := s.freeCtr + 1 })

/-! ## Places: dies, cores, links -/

/-- The die pair of a core (R399). -/
def pairOf (core : Nat) : Nat := core / 40

/-- The belay die that serves a core (R355). -/
def servingDie (core : Nat) : Nat := if pairOf core < 2 then 8 else 9

/-- Whether a die can serve accesses: online, or offline in the retained state (R322). -/
def State.dieServes (s : State) (d : Nat) : Bool := (s.die d).st = .online || (s.die d).st = .retained

/-- The belay die that serves a core now: its own, or the other one where that does not serve (R356, R406); none where neither does. -/
def State.servingNow (s : State) (core : Nat) : Option Nat := [servingDie core, 17 - servingDie core].find? s.dieServes

/-- A context's touched-dies bit becomes set (R400); with a halted die a time-stop begins to cover it (R407). -/
def State.touch (s : State) (c d : Nat) : State :=
  s.modCtx c fun x =>
    { x with touched := x.touched ||| (1 <<< d : BitVec 10)
             stopAt := if (s.die d).halted then some (x.stopAt.getD s.rtime) else x.stopAt }

/-- A fabric service for a context runs on the belay die that serves a core now (R400). -/
def State.touchBelay (s : State) (c core : Nat) : State :=
  match s.servingNow core with
  | some d => s.touch c d
  | none => s

/-- Whether a time-stop covers context `c`: a die of its mask is halted (R407). -/
def State.stopped (s : State) (c : Nat) : Bool :=
  match s.ctx? c with
  | some x => (List.range 10).any fun d => x.touched.getLsbD d && (s.die d).halted
  | none => false

/-- `CYC` of a die pair (R402, R403): it runs at the pair's clock and not during a relock. -/
def State.cyc (s : State) (d : Nat) : Nat :=
  let p := s.pair d
  match p.relock with
  | some _ => p.cyc
  | none => p.cyc + (s.rtime - p.rt) * p.mhz / 1000

/-- The tick at which a die pair's `CYC` reaches a value; the end of a relock, if one is under way. -/
def State.tickAt (s : State) (d c : Nat) : Nat :=
  let p := s.pair d
  match p.relock with
  | some e => e
  | none => p.rt + ceilDiv ((c - p.cyc) * 1000) p.mhz

/-- The key of the link to a peer on a plane. -/
def linkKey (peer plane : Nat) : Nat := peer * 8 + plane

def State.planeOn (s : State) (p : Nat) : Bool := !s.planesOff.contains p

/-- Whether a belay die serves: each carries half of the optical engines of every plane and half of the ports (R1, R406). -/
def State.belayServes (s : State) : Bool := s.dieServes 8 || s.dieServes 9

/-- Planes whose link to the peer is up (R382). -/
def State.planesTo (s : State) (peer : Nat) : List Nat :=
  (List.range 8).filter fun p => s.belayServes && s.planeOn p && (s.link (linkKey peer p)).up && !(s.link (linkKey peer p)).bad

/-! ## Physical memory

One flat space: stack `k` of HBM at `k·2^36`, CXL port `p` at `2^40 + p·2^42`, shared bank memory at `2^44`, core `c`'s
scratchpad at `2^45 + c·2^22`. An unlisted byte reads 0 (DESIGN CHOICE, log entry 3). -/

namespace Memory

/-- The canonical form: addresses rise strictly and no listed byte is 0. -/
def wf : List Host.Cell → Bool
  | [] => true
  | (a, b) :: rest =>
    b ≠ 0 &&
      (match rest with
       | [] => true
       | (a', _) :: _ => decide (a < a')) && wf rest

/-- One byte. -/
def read1 (m : List Host.Cell) (a : Nat) : Byte :=
  match m with
  | [] => 0
  | (x, b) :: m => if x = a then b else read1 m a

/-- `n` bytes from `a`. -/
def read (m : List Host.Cell) (a n : Nat) : List Byte := (List.range n).map fun i => read1 m (a + i)

/-- The cells that bytes make from address `a`: the zero bytes are not listed. -/
def cells : Nat → List Byte → List Host.Cell
  | _, [] => []
  | a, b :: bs => if b = 0 then cells (a + 1) bs else (a, b) :: cells (a + 1) bs

/-- Writes bytes from `a`. -/
def write (m : List Host.Cell) (a : Nat) (bs : List Byte) : List Host.Cell :=
  m.filter (fun c => decide (c.1 < a)) ++ cells a bs ++ m.filter (fun c => decide (a + bs.length ≤ c.1))

end Memory

def cxlBase (port : Nat) : Nat := 2 ^ 40 + port * 2 ^ 42
def bankBase : Nat := 2 ^ 44
def scratchPhys (core off : Nat) : Nat := 2 ^ 45 + core * 2 ^ 22 + off

/-- Whether the package has `n` bytes of memory at a physical address (R1, R2). -/
def physExists (a n : Nat) : Bool :=
  a + n ≤ 2 ^ 39 || (2 ^ 40 ≤ a && a < 2 ^ 44 && (a - 2 ^ 40) % 2 ^ 42 + n ≤ Config.cxlCapacity)
    || (bankBase ≤ a && a + n ≤ bankBase + Config.bankBytes)
    || (scratchPhys 0 0 ≤ a && a + n ≤ scratchPhys 160 0)

def State.readPhys (s : State) (a n : Nat) : List Byte := Memory.read s.mem a n
def State.writePhys (s : State) (a : Nat) (bs : List Byte) : State := { s with mem := Memory.write s.mem a bs }

/-- The unit of poison at a physical address (R405): a 256-byte line, a bank word, a 64-byte scratchpad line. -/
def poisonUnit (a : Nat) : Nat := if a < bankBase then 256 else if a < scratchPhys 0 0 then 32 else 64

def State.poisoned (s : State) (a n : Nat) : Bool :=
  s.poison.any fun p => decide (p < a + n) && decide (a < p + poisonUnit p)

/-- A write that covers a whole poisoned unit clears it (R405). -/
def State.clearPoison (s : State) (a n : Nat) : State :=
  { s with poison := s.poison.filter fun p => !(decide (a ≤ p) && decide (p + poisonUnit p ≤ a + n)) }

/-! ## Codes -/

/-- Cause codes (R77). -/
def Cause.code : Cause → Nat
  | .illegalClause => 0x01 | .illegalInstruction => 0x02 | .illegalOperand => 0x03 | .privileged => 0x04
  | .misaligned => 0x05 | .scratchRange => 0x06
  | .translation => 0x10 | .permission => 0x11 | .poison => 0x12 | .geometry => 0x13
  | .remoteRevoked => 0x20 | .remoteTimeout => 0x21 | .remoteError => 0x22 | .gangTorn => 0x23
  | .promiseMissed => 0x30 | .barrierOverrun => 0x31 | .anchorMismatch => 0x32
  | .doubleResume => 0x40 | .contVersion => 0x41 | .contRights => 0x42 | .contCopy => 0x43 | .contCorrupt => 0x44
  | .fp => 0x50 | .gmDomain => 0x51 | .tableNonmonotone => 0x52
  | .pairMismatch => 0x60 | .dieLost => 0x61 | .contextKilled => 0x62 | .userTrap => 0x70

/-- The cause with a code that an operation can settle with. -/
def Cause.ofCode (n : Nat) : Cause :=
  ([Cause.translation, .permission, .poison, .geometry, .remoteRevoked, .remoteTimeout, .remoteError, .gangTorn,
    .anchorMismatch, .doubleResume, .contVersion, .contRights, .contCopy, .contCorrupt, .gmDomain, .illegalOperand,
    .misaligned, .scratchRange].find? fun c => c.code = n).getD .remoteError

/-- Class codes (R76). -/
def TrapClass.code : TrapClass → Nat
  | .precise => 0 | .horizon => 1 | .recoverable => 2 | .fatal => 3

def EscKind.code : EscKind → Nat
  | .store => 0 | .atom => 1 | .copy => 2 | .mcst => 3 | .spawn => 4

/-! ## Scopes and the L1 (R86, R95, R306) -/

/-- Scope 5 acts as scope 3 where promotion does not apply. -/
def Scope.rank : Scope → Nat
  | .grp => 0 | .core => 1 | .clu => 2 | .dev => 3 | .sys => 4 | .devp => 3

/-- The wider of two scopes, where there are any. -/
def Scope.wider (a b : Option Scope) : Option Scope :=
  match a, b with
  | some x, some y => some (if Scope.rank y ≤ Scope.rank x then x else y)
  | none, b => b
  | a, none => a

/-- An acquire at cluster scope or wider empties the core's L1. -/
def State.acquire (s : State) (core : Nat) (sc : Scope) : State :=
  if 2 ≤ Scope.rank sc then s.modCore core fun c => { c with l1 := [] } else s

/-- A line comes into the L1; where that is full the line that was filled first leaves it (DESIGN CHOICE, log entry 63). -/
def Core.l1Put (c : Core) (line at_ : Nat) (bs : List Byte) : Core :=
  let m := Map.put line (at_, bs) c.l1
  if m.length ≤ Config.l1Lines then { c with l1 := m }
  else
    let old := m.foldl (fun (b : Option (Nat × Nat)) e => match b with
      | some (t, k) => if e.2.1 < t then some (e.2.1, e.1) else some (t, k)
      | none => some (e.2.1, e.1)) none
    { c with l1 := match old with
      | some (_, k) => Map.del k m
      | none => m }

/-! ## The horizon (R69 to R73) -/

def OpSt.settled : OpSt → Bool
  | .ok | .failed _ | .dropped => true
  | .waiting | .sent _ | .performed | .parked => false

/-- The thread's number in an operation. -/
def Op.seq? (o : Op) (lane : Nat) : Option Word := Map.get? o.lanes lane

/-- The operations of a thread, oldest first. -/
def State.opsOf (s : State) (gid lane : Nat) : List (Nat × Op) :=
  s.ops.filter fun e => e.2.gid = gid && (e.2.seq? lane).isSome

/-- The thread's unsettled operations, oldest first. -/
def State.unsettled (s : State) (gid lane : Nat) : List (Nat × Op) :=
  (s.opsOf gid lane).filter fun e => !e.2.st.settled

/-- `HZ`: the number of the oldest unsettled operation, or `OPC` (R71). -/
def State.hz (s : State) (gid lane : Nat) : Word :=
  match s.unsettled gid lane with
  | [] => (s.thread gid lane).opc
  | (_, o) :: _ => (o.seq? lane).getD 0

/-- The horizon of a thread has passed number `a` (R71). -/
def State.passed (s : State) (gid lane : Nat) (a : Word) : Bool := decide (0 ≤ sdiff (s.hz gid lane) a)

/-- Every operation of the operation's threads that is older than it has settled (R73). -/
def State.horizonBefore (s : State) (id : Nat) (o : Op) : Bool :=
  o.lanes.all fun l => (s.unsettled o.gid l.1).all fun e => decide (id ≤ e.1)

/-- A failed operation whose trap has not been taken (R74). -/
def Op.pending (o : Op) : Option Cause :=
  match o.st with
  | .failed c => if o.taken then none else some c
  | _ => none

/-- The thread's oldest pending failure. -/
def State.failure? (s : State) (gid lane : Nat) : Option (Nat × Op × Cause) :=
  (s.opsOf gid lane).findSome? fun e =>
    match e.2.pending with
    | some c => some (e.1, e.2, c)
    | none => none

/-- A pending failure is deliverable once every older operation has settled (R74, step 1). -/
def State.deliverable (s : State) (gid lane : Nat) : Bool :=
  match s.failure? gid lane with
  | some (id, _, _) => (s.unsettled gid lane).all fun e => decide (id < e.1)
  | none => !(s.thread gid lane).detFail.isEmpty

/-! ## Completion flags (R9, R25, R73) -/

def Group.flag (g : Group) (f : Nat) : Nat := Map.get g.f f 0
def Group.setFlag (g : Group) (f n : Nat) : Group := { g with f := Map.put f n g.f }

/-- An execution completes for flag `f`: the flag of its group falls, and of every group that was restored from an image that
counted the execution; an image whose group has not started notes the fall (R296). -/
def State.lowerFlag (s : State) (gid ex f : Nat) : State :=
  let low (s : State) (k : Nat) : State := s.modGroup k fun g => if g.started then g.setFlag f (g.flag f - 1) else g
  (s.images.filter fun e => e.2.exs.contains ex).foldl (fun s e =>
    match e.2.restored.bind fun k => (s.group? k).bind fun g => if g.started then some k else none with
    | some k => if k = gid then s else low s k
    | none => { s with
      images := Map.mod e.1 (fun i => { i with falls := Map.put f (Map.get i.falls f 0 + 1) i.falls }) s.images }) (low s gid)

/-- The operation's `SETA` completion: the flag falls when no other lane of the same execution still holds it or is still to be
issued (R9). -/
def State.doneA (s : State) (id : Nat) : State :=
  match s.op? id with
  | none => s
  | some o =>
    match o.seta with
    | none => s
    | some f =>
      let s := s.modOp id fun o => { o with seta := none }
      if s.opening.contains o.ex || s.ops.any fun e => e.2.ex = o.ex && e.2.gid = o.gid && e.2.seta = some f then s
      else s.lowerFlag o.gid o.ex f

/-- The operation's `SETB` completion. -/
def State.doneB (s : State) (id : Nat) : State :=
  match s.op? id with
  | none => s
  | some o =>
    match o.setb with
    | none => s
    | some f =>
      let s := s.modOp id fun o => { o with setb := none }
      if s.opening.contains o.ex || s.ops.any fun e => e.2.ex = o.ex && e.2.gid = o.gid && e.2.setb = some f then s
      else s.lowerFlag o.gid o.ex f

/-- An operation that can be forgotten: settled, its flags fallen, its failure taken, and no older operation of its
threads that could still fail and list it (R79). -/
def State.forgettable (s : State) (id : Nat) (o : Op) : Bool :=
  o.st.settled && o.seta.isNone && o.setb.isNone && o.pending.isNone
    && o.lanes.all fun l =>
      (s.opsOf o.gid l.1).all fun e => decide (id ≤ e.1) || (e.2.st.settled && e.2.pending.isNone)

/-- Forgets what can be forgotten. -/
def State.sweepOps (s : State) : State :=
  { s with ops := s.ops.filter fun e => !s.forgettable e.1 e.2 }

/-- An operation settles (R70); one that failed or was dropped lowers every flag it raised (R73). -/
def State.settle (s : State) (id : Nat) (st : OpSt) : State :=
  match s.op? id with
  | none => s
  | some o =>
    if o.st.settled then s
    else
      let s := s.modOp id fun o => { o with st := st, ts := o.ts || s.stopped o.ctx }
      match st with
      | .failed _ | .dropped => (s.doneA id).doneB id
      | _ => s

/-- Where an instruction's entry names no other point, its flags fall at settlement (R73). -/
def State.settleFlags (s : State) (id : Nat) (st : OpSt) : State := ((s.settle id st).doneA id).doneB id

/-- Records the escape of an operation (R72). -/
def State.escape (s : State) (id : Nat) (e : Esc) : State :=
  s.modOp id fun o => { o with esc := some (o.esc.getD e) }

/-! ## Register blocks (R26, R27) -/

/-- Bytes of one register block. -/
def Group.blockBytes (g : Group) : Nat := 64 * g.w

def Group.blocks (g : Group) : Nat := g.pool + g.resv

/-- Mapped names in a block. -/
def Group.inUse (g : Group) (b : Nat) : Nat := (g.inBlock.filter fun e => e.2 = b).length

/-- Blocks that hold a mapped name; the rest of the group's blocks are empty (R27). -/
def Group.needBlocks (g : Group) : Nat := ((List.range 4).filter fun b => g.inUse b ≠ 0).length

/-- Free slots of the blocks that hold a mapped name. -/
def Group.freeRegs (g : Group) : Nat := 16 * g.needBlocks - g.inBlock.length

/-- Maps a name to a free slot: of a block that holds names where one has one, the lowest first, or else of an empty block
(R27; DESIGN CHOICE, log entry 13). -/
def Group.mapName (g : Group) (n : Nat) : Group :=
  let b := match (List.range 4).find? fun b => g.inUse b ≠ 0 && decide (g.inUse b < 16) with
    | some b => b
    | none => ((List.range 4).find? fun b => g.inUse b = 0).getD 3
  { g with mapped := Map.put n g.gen g.mapped, inBlock := Map.put n b g.inBlock, gen := g.gen + 1 }

/-- The names of a restored group are mapped. -/
def Group.remap (g : Group) (ns : List Nat) : Group :=
  { ns.foldl Group.mapName { g with mapped := [], inBlock := [] } with mapped := ns.map fun n => (n, 0), gen := 1 }

/-- Groups resident on a core. -/
def State.resident (s : State) (core : Nat) : List (Nat × Group) := s.groups.filter fun e => e.2.core = core

/-- The group oldest by launch order on its core (R27). -/
def State.oldestOn (s : State) (core : Nat) : Option Nat :=
  ((s.resident core).foldl (fun (b : Option (Nat × Nat)) e =>
    match b with
    | some (a, _) => if e.2.age < a then some (e.2.age, e.1) else b
    | none => some (e.2.age, e.1)) none).map Prod.snd

/-- Bytes that come back to a core: the reserve refills before the pool (R27). -/
def Core.giveBack (c : Core) (n : Nat) : Core :=
  let r := min n (Config.reserveBytes - c.resv)
  { c with resv := c.resv + r, pool := c.pool + (n - r) }

/-- The cores that a group's blocks are charged to: its own, and for a paired team the next one too (R286). -/
def State.chargedTo (s : State) (g : Group) : List Nat :=
  if (s.team? g.team).any Team.paired then [g.core, g.core + 1] else [g.core]

/-- A group keeps `k` of its blocks and returns the others. -/
def State.shrink (s : State) (gid k : Nat) : State :=
  match s.group? gid with
  | none => s
  | some g =>
    if g.blocks ≤ k then s
    else
      let n := g.blocks - k
      let fromPool := min n g.pool
      let s' := s.modGroup gid fun g => { g with pool := g.pool - fromPool, resv := g.resv - (n - fromPool) }
      (s.chargedTo g).foldl (fun s c => s.modCore c fun c => c.giveBack (n * g.blockBytes)) s'

/-- Reclaims the empty blocks of the other groups of the core (R27). -/
def State.reclaim (s : State) (core gid : Nat) : State :=
  (s.resident core).foldl (fun s e => if e.1 = gid then s else s.shrink e.1 e.2.needBlocks) s

/-- One more block for the group: from the pool, after reclaiming, or for the oldest group from the reserve, at most
four in all; none where the group must wait (R27). -/
def State.drawBlock (s : State) (gid : Nat) : Option State :=
  match s.group? gid with
  | none => none
  | some g =>
    let need := g.blockBytes
    let cs := s.chargedTo g
    let room (s : State) : Bool := cs.all fun c => need ≤ (s.core c).pool
    let take (s : State) : State :=
      (cs.foldl (fun s c => s.modCore c fun c => { c with pool := c.pool - need }) s).modGroup gid fun g =>
        { g with pool := g.pool + 1 }
    if room s then some (take s)
    else
      let s := cs.foldl (fun s c => s.reclaim c gid) s
      if room s then some (take s)
      else if s.oldestOn g.core = some gid && (cs.all fun c => need ≤ (s.core c).resv) && decide (g.blocks < 4) then
        some ((cs.foldl (fun s c => s.modCore c fun c => { c with resv := c.resv - need }) s).modGroup gid fun g =>
          { g with resv := g.resv + 1 })
      else none

/-- Draws blocks until the group holds `k`, with `fuel` bounding the draws. -/
def State.drawTo (s : State) (gid k : Nat) : Nat → Option State
  | 0 => some s
  | fuel + 1 =>
    match s.group? gid with
    | none => none
    | some g => if k ≤ g.blocks then some s else (s.drawBlock gid).bind fun s => s.drawTo gid k fuel

/-- Maps the unmapped names among `ns` (R26); none where a block must be waited for. -/
def State.mapNames (s : State) (gid : Nat) (ns : List Nat) : Option State :=
  match s.group? gid with
  | none => none
  | some g =>
    let new := ns.filter fun n => (Map.get? g.mapped n).isNone
    if new.isEmpty then some s
    else
      (s.drawTo gid (g.needBlocks + ceilDiv (new.length - g.freeRegs) 16) 4).map fun s =>
        s.modGroup gid fun g => new.foldl Group.mapName g

/-- Unmaps names for the whole group (R26, release). -/
def State.unmap (s : State) (gid : Nat) (ns : List Nat) : State :=
  s.modGroup gid fun g =>
    { g with
      mapped := g.mapped.filter fun e => !ns.contains e.1
      inBlock := g.inBlock.filter fun e => !ns.contains e.1
      threads := Map.modAll (fun _ t =>
        { t with
          v := t.v.filter fun e => !ns.contains e.1
          lost := if t.wait.isSome then ns ++ t.lost else t.lost }) g.threads }

/-- The cycle in which lane `l`'s slot begins, while it executes; now otherwise (R21, R68). -/
def State.cycOf (s : State) (gid l : Nat) : Nat :=
  let now := match s.group? gid with
    | some g => s.cyc (pairOf g.core)
    | none => 0
  match s.cur with
  | some sl => if sl.gid = gid then (sl.begins.bind fun b => Map.get? b l).getD now else now
  | none => now

/-- The tick at which lane `l` executes (R49). -/
def State.tickOf (s : State) (gid l : Nat) : Nat :=
  match s.cur, s.group? gid with
  | some _, some g => max s.rtime (s.tickAt (pairOf g.core) (s.cycOf gid l))
  | _, _ => s.rtime

/-! ## Reading operands (R46 to R50, R113) -/

/-- The integer reading of constant code 116 + k, in 32 and 64 bits (R47). -/
def const32 (k : Fin 6) : Word :=
  match k.val with
  | 0 => 0 | 1 => 1 | 2 => 0xFFFFFFFF | 3 => 2 | 4 => 0x80000000 | _ => 4

def const64 (k : Fin 6) : DWord :=
  match k.val with
  | 0 => 0 | 1 => 1 | 2 => 0xFFFFFFFFFFFFFFFF | 3 => 2 | 4 => 0x8000000000000000 | _ => 4

/-- One 32-bit operand as thread `l` of group `gid` reads it. -/
def State.src32 (s : State) (gid l : Nat) (o : Opnd) : Word :=
  match o with
  | .v n => Map.get (s.thread gid l).v n.val 0
  | .s n => match s.group? gid with
    | some g => Map.get g.s n.val 0
    | none => 0
  | .t n => Map.get (s.thread gid l).t n.val 0
  | .k c => const32 c
  | .lane => BitVec.ofNat 32 l
  | .hz => s.hz gid l
  | .opc => (s.thread gid l).opc
  | .rtime => BitVec.ofNat 32 (s.tickOf gid l)
  | .nul => 0
  | .lit w => w
  | .litNone => 0

/-- One 64-bit operand; `sext` says how a literal is extended (R48). -/
def State.src64 (s : State) (gid l : Nat) (o : Opnd) (sext : Bool) : DWord :=
  match o with
  | .v _ | .s _ | .t _ => s.src32 gid l (o.plus 1) ++ s.src32 gid l o
  | .k c => const64 c
  | .lit w => if sext then w.signExtend 64 else w.zeroExtend 64
  | .nul => 0
  | .lane | .hz | .opc | .rtime | .litNone => (s.src32 gid l o).zeroExtend 64

/-- A run of `n` registers, lowest first; `NUL` reads 0 (R160). -/
def State.srcRun (s : State) (gid l : Nat) (o : Opnd) (n : Nat) : List Word :=
  (List.range n).map fun i => s.src32 gid l (o.plus i)

/-- The little-endian bytes of a store's or atomic's data run (R160). -/
def State.srcBytes (s : State) (gid l : Nat) (o : Opnd) (n : Nat) : List Byte :=
  let k := ceilDiv n 4
  let v := if k = 2 then (s.src64 gid l o true).toNat else (s.srcRun gid l o k).foldr (fun w a => w.toNat + 2 ^ 32 * a) 0
  toBytes n v

/-! ## Writing operands -/

/-- Writes one 32-bit register of thread `l`; the name is mapped already (R26). -/
def State.dst32 (s : State) (gid l : Nat) (o : Opnd) (w : Word) : State :=
  match o with
  | .v n => s.modThread gid l fun t => { t with v := Map.put n.val w t.v }
  | .s n => s.modGroup gid fun g => { g with s := Map.put n.val w g.s }
  | .t n => s.modThread gid l fun t => { t with t := Map.put n.val w t.t }
  | .k _ | .lane | .hz | .opc | .rtime | .nul | .lit _ | .litNone => s

/-- Writes a result for which the thread may have waited: one whose name has been released meanwhile is discarded (R26). -/
def State.dstWait (s : State) (gid l : Nat) (o : Opnd) (w : Word) : State :=
  let t := s.thread gid l
  match o with
  | .v n => if t.wait.isSome && t.lost.contains n.val then s else s.dst32 gid l o w
  | _ => s.dst32 gid l o w

def State.dst64 (s : State) (gid l : Nat) (o : Opnd) (w : DWord) : State :=
  (s.dst32 gid l o (w.extractLsb' 0 32)).dst32 gid l (o.plus 1) (w.extractLsb' 32 32)

/-- Writes a run, lowest register first. -/
def State.dstRun (s : State) (gid l : Nat) (o : Opnd) (ws : List Word) : State :=
  ((List.range ws.length).zip ws).foldl (fun s e => s.dst32 gid l (o.plus e.1) e.2) s

/-- The words of `n` bytes, for a register run. -/
def wordsOf (n v : Nat) : List Word := (List.range n).map fun i => BitVec.ofNat 32 (v / 2 ^ (32 * i))

/-! ## Predicates -/

def Group.pred (g : Group) (k l : Nat) : Bool := (Map.get g.p k 0).getLsbD l

def Group.setPred (g : Group) (k l : Nat) (b : Bool) : Group :=
  let m := Map.get g.p k 0
  { g with p := Map.put k (if b then m ||| (1 <<< l : BitVec 64) else m &&& ~~~(1 <<< l : BitVec 64)) g.p }

/-- A pair receives a condition and its complement (R57). -/
def State.setPair (s : State) (gid k l : Nat) (b : Bool) : State :=
  s.modGroup gid fun g => (g.setPred (2 * k) l b).setPred (2 * k + 1) l (!b)

/-- Whether the guard lets thread `l` execute (R44). -/
def Group.guard (g : Group) (gd : Guard) (l : Nat) : Bool :=
  match gd with
  | .pred n => g.pred n.val l
  | .always => true
  | .never => false

/-! ## Where results of issued operations go (R26) -/

/-- The generations of a destination's vector names. -/
def State.dstOf (s : State) (gid : Nat) (o : Opnd) (n : Nat) : Dst :=
  ⟨o, n, match s.group? gid with
    | some g => (o.vnames n).map fun k => Map.get g.mapped k 0
    | none => []⟩

/-- Writes a result that arrives after issue, in every lane of the operation; a name released meanwhile discards its
part (R26). -/
def State.deliver (s : State) (o : Op) (ws : List Word) : State :=
  match o.dst with
  | none => s
  | some d =>
    let names := d.o.vnames d.n
    let put (s : State) (l : Nat) : State :=
      ((List.range ws.length).zip ws).foldl (fun s e =>
        let live := match names[e.1]?, s.group? o.gid with
          | some nm, some g => decide (Map.get? g.mapped nm = d.gens[e.1]?)
          | _, _ => true
        if live = true then s.dst32 o.gid l (d.o.plus e.1) e.2 else s) s
    if d.o.uniform then put s ((o.lanes.map Prod.fst).headD 0) else (o.lanes.map Prod.fst).foldl put s

end Sys2Proof.Machine
end

