-- ==== Sys2Proof/Machine/Flags.lean ====
section
/-!
DEFINITION. Sys2Proof/Machine/Flags.lean: the floating-point flags, how an instruction raises them and which of them
trap (R154, R197, R198).
-/

namespace Sys2Proof.Machine

/-- The field map that `FLAGS` and `TRAPEN` share: NV, DZ, OF, UF, NX, GMDOM from bit 0. -/
abbrev Flags := BitVec 6

def flNV : Flags := 1
def flDZ : Flags := 2
def flOF : Flags := 4
def flUF : Flags := 8
def flNX : Flags := 16
def flGM : Flags := 32

/-- A raise is an OR into the group's `FLAGS`. -/
def State.raise (s : State) (gid : Nat) (fl : Flags) : State := s.modGroup gid fun g => { g with flags := g.flags ||| fl }

/-- The cause that raised flags take where `TRAPEN` enables one of them. -/
def State.fpTrap? (s : State) (gid : Nat) (fl : Flags) : Option Cause :=
  match s.group? gid with
  | none => none
  | some g =>
    if g.trapen &&& fl &&& flGM ≠ 0 then some .gmDomain
    else if g.trapen &&& fl ≠ 0 then some .fp
    else none

end Sys2Proof.Machine
end

