-- ==== Sys2Proof/Machine/Translate.lean ====
section
/-!
DEFINITION. Sys2Proof/Machine/Translate.lean: global addresses, page walks, placement words and where bytes lie (R307 to
R316), and the accesses that agents make through them.
-/

namespace Sys2Proof.Machine

/-! ## Addresses (R307, R308) -/

def vaPeer (va : Nat) : Nat := va / 2 ^ 47 % 512
def vaHome (va : Nat) : Nat := va / 2 ^ 45 % 4
def vaOfs (va : Nat) : Nat := va % 2 ^ 45
def vaF (va : Nat) : Bool := va / 2 ^ 56 % 2 == 1

/-- The layout check: [63:57] zero, and no peer field without `F`. -/
def vaOk (va : Nat) : Bool := va < 2 ^ 57 && (vaF va || vaPeer va == 0)

/-- The peer that serves an address; none for the own device (R308). -/
def State.remote? (s : State) (va : Nat) : Option Nat :=
  if vaF va && vaPeer va != s.deviceIndex.toNat then some (vaPeer va) else none

/-! ## Placement words (R313 to R316) -/

def pwStacks (w : Word) : List Nat := (List.range 8).filter fun i => w.getLsbD i
def pwPorts (w : Word) : List Nat := (List.range 4).filter fun i => w.getLsbD i
def pwUnit (w : Word) : Nat := 256 * 4 ^ (bits w 8 3).toNat
def pwChan (w : Word) : Nat := (bits w 11 5).toNat
def pwBanks (w : Word) : Nat := (bits w 16 2).toNat
def pwRepl (w : Word) : Bool := w.getLsbD 18
def pwCxlt (w : Word) : Bool := w.getLsbD 19
def pwPromo (w : Word) : Bool := w.getLsbD 20
def pwBound (w : Word) : Bool := w.getLsbD 21

/-- The stacks of one V-die in the mask. -/
def pwOnDie (w : Word) (d : Nat) : List Nat := (pwStacks w).filter fun k => k / 2 == d

/-- The holder dies of a `REPL` page, lowest first (R315). -/
def pwHolders (w : Word) : List Nat := (List.range 4).filter fun d => !(pwOnDie w d).isEmpty

/-- The sets of targets over which the page is striped: one, or one for each holder die. Ports are numbered from 8. -/
def pwTargets (w : Word) : List (List Nat) :=
  if pwCxlt w then [(pwPorts w).map (· + 8)]
  else if pwRepl w then (pwHolders w).map (pwOnDie w)
  else [pwStacks w]

/-- Bytes of each target that the page takes. -/
def pwSpan (w : Word) (size k : Nat) : Nat := ceilDiv (size / pwUnit w) k * pwUnit w

/-- The layout checks of R313 on the word alone. -/
def pwShape (w : Word) : Bool :=
  bits w 22 10 = 0 && (bits w 8 3).toNat ≤ 4 && pwChan w ≤ 6 && pwBanks w ≤ 2
    && (if pwCxlt w then bits w 4 4 = 0 && bits w 0 4 ≠ 0 && pwChan w == 0 && pwBanks w == 0 && !pwRepl w && !pwBound w
        else bits w 0 8 ≠ 0)

/-- Whether target `t` is online: a stack whose die serves, or a port whose belay die is online. -/
def State.targetOn (s : State) (t : Nat) : Bool :=
  if t < 8 then s.dieServes (t / 2) else (s.die (8 + (t - 8) / 2)).st = .online

/-- The checks of R313, R314 and R316 for a page of `size` bytes at `frame`. -/
def State.placeOk (s : State) (w : Word) (size frame : Nat) : Bool :=
  pwShape w &&
    (pwTargets w).all fun ts =>
      let k := ts.length
      let cap := if pwCxlt w then Config.cxlCapacity else Config.stackBytes
      k ≤ size / pwUnit w && (frame * 2 ^ 16 * k) % size == 0
        && frame * 2 ^ 16 + pwSpan w size k ≤ cap && ts.all s.targetOn

/-- The targets that serve an access of a reader on die `die`, or a write (R315). -/
def pwServe (w : Word) (die : Nat) (write : Bool) : List Nat :=
  if pwRepl w then
    let hs := pwHolders w
    pwOnDie w (if !write && hs.contains die then die else hs.headD 0)
  else (pwTargets w).headD []

/-- Where byte `o` of a page lies (R314, R316): the physical address. -/
def spot (w : Word) (frame o : Nat) (ts : List Nat) : Nat :=
  let u := pwUnit w
  let k := ts.length
  let i := o / u
  let t := ts.getD (i % k) 0
  let so := frame * 2 ^ 16 + i / k * u + o % u
  if t < 8 then t * Config.stackBytes + so else cxlBase (t - 8) + so

/-- The pseudo-channel and the bank group of a stack offset (R314); no program can see them. -/
def channelOf (w : Word) (frame so : Nat) : Nat :=
  let c := 2 ^ pwChan w
  frame % (64 / c) * c + so / 2 ^ 8 % c

def bankGroupOf (w : Word) (frame so : Nat) : Nat :=
  if pwBanks w = 0 then so / 2 ^ (8 + pwChan w) % 4 else if pwBanks w = 1 then so / 2 ^ 20 % 4 else frame % 4

/-! ## Walks (R310 to R312, R319) -/

/-- How a translation can fail: with a cause, or because the page is not present and can be serviced. -/
inductive XErr where
  | cause (c : Cause) | notPresent
  deriving DecidableEq, Repr

/-- A leaf: the page's base within its home, its size, the entry and its physical address. -/
structure Leaf where
  home : Nat
  base : Nat
  size : Nat
  ea : Nat
  w0 : DWord
  w1 : DWord
  deriving DecidableEq, Repr

/-- The physical address of an offset within the HBM of a V-die: its two stacks, one after the other (DEDUCED, log entry 14). -/
def dieHbm (die ofs : Nat) : Nat := die * 2 ^ 37 + ofs

def State.dword (s : State) (a : Nat) : DWord := BitVec.ofNat 64 (ofBytes (s.readPhys a 8))

def leafFrame (w0 : DWord) : Nat := (dbits w0 16 48).toNat
def leafWord (w1 : DWord) : Word := dbits w1 0 32

/-- The checks of a leaf entry's layout (R311, R313). -/
def State.leafOk (s : State) (size : Nat) (w0 w1 : DWord) : Bool :=
  dbits w0 13 3 = 0 && dbits w1 39 25 = 0 && s.placeOk (leafWord w1) size (leafFrame w0)

/-- The next table that a non-leaf entry names, aligned as its level needs (R312). -/
def nextTable (w0 w1 : DWord) (align : Nat) : Option Nat :=
  let n := w0.toNat / 512 * 512
  if dbits w0 2 7 = 0 ∧ w1 = 0 ∧ n % align = 0 then some n else none

/-- One level of a walk: `levels` remain below this one. Sizes: 1 GiB, 2 MiB, 64 KiB. Tables lie in the home's own HBM (R310); an
address beyond it names none, and the walk ends with `GEOMETRY` (DESIGN CHOICE, log entry 66). -/
def State.walkAt (s : State) (home ofs : Nat) : Nat → Nat → Except XErr Leaf
  | levels, table =>
    let size := if levels = 2 then 2 ^ 30 else if levels = 1 then 2 ^ 21 else 2 ^ 16
    let entries := if levels = 2 then 32768 else if levels = 1 then 512 else 32
    let ea := dieHbm home (table + 16 * (ofs / size % entries))
    let w0 := s.dword ea
    let w1 := s.dword (ea + 8)
    let isLeaf := w0.getLsbD 1
    if 2 ^ 37 ≤ table then .error (.cause .geometry)
    else if !w0.getLsbD 0 then
      if (isLeaf || levels == 0) && w0.getLsbD 7 then .error .notPresent else .error (.cause .translation)
    else if isLeaf then
      if s.leafOk size w0 w1 then .ok ⟨home, ofs / size * size, size, ea, w0, w1⟩ else .error (.cause .geometry)
    else
      match levels with
      | 0 => .error (.cause .geometry)
      | l + 1 =>
        match nextTable w0 w1 (if l = 1 then 8192 else 512) with
        | some t => s.walkAt home ofs l t
        | none => .error (.cause .geometry)

/-- A page walk of a context's home (R310). -/
def State.walk (s : State) (ctx home ofs : Nat) : Except XErr Leaf :=
  match s.ctx? ctx with
  | none => .error (.cause .translation)
  | some c =>
    match c.cfg.roots[home]? with
    | some (some root) => s.walkAt home ofs 2 root
    | _ => .error (.cause .translation)

/-- The leaf entry of a page, present or not: base, size, the entry's physical address and its words; none beyond a table that
lies outside the home's HBM (R310). -/
def State.rawAt (s : State) (home ofs : Nat) : Nat → Nat → Option Leaf
  | levels, table =>
    let size := if levels = 2 then 2 ^ 30 else if levels = 1 then 2 ^ 21 else 2 ^ 16
    let entries := if levels = 2 then 32768 else if levels = 1 then 512 else 32
    let ea := dieHbm home (table + 16 * (ofs / size % entries))
    let w0 := s.dword ea
    let w1 := s.dword (ea + 8)
    if 2 ^ 37 ≤ table then none
    else if w0.getLsbD 1 || levels == 0 then
      if w0.getLsbD 0 || w0.getLsbD 7 then some ⟨home, ofs / size * size, size, ea, w0, w1⟩ else none
    else
      match levels with
      | 0 => none
      | l + 1 =>
        if w0.getLsbD 0 then
          match nextTable w0 w1 (if l = 1 then 8192 else 512) with
          | some t => s.rawAt home ofs l t
          | none => none
        else none

def State.rawLeaf (s : State) (ctx va : Nat) : Option Leaf :=
  match s.ctx? ctx with
  | none => none
  | some c =>
    if !s.dieServes (vaHome va) then none
    else
      match c.cfg.roots[vaHome va]? with
      | some (some root) => s.rawAt (vaHome va) (vaOfs va) 2 root
      | _ => none

/-- Whether the last service of an address's page could not read its backing (R320). -/
def State.unbacked (s : State) (ctx va : Nat) : Bool :=
  s.unread.any fun u => u.1 = ctx && u.2.1 = vaHome va && u.2.2.1 ≤ vaOfs va && vaOfs va < u.2.2.1 + u.2.2.2

/-- What an access needs (R311). -/
structure Perm where
  r : Bool := false
  w : Bool := false
  x : Bool := false
  deriving DecidableEq, Repr

/-! ## Epoch windows (R404) -/

/-- The 128 bytes of a die's epoch window (R404). -/
def Pair.window (p : Pair) : List Byte :=
  toBytes 4 p.eseq ++ toBytes 4 0 ++ (p.epochs.flatMap fun e => toBytes 8 e.1 ++ toBytes 6 e.2.1 ++ toBytes 2 e.2.2)
    ++ toBytes 56 0

/-- The die pair whose epoch window the context has at an address of the own device, and the offset in it (DESIGN CHOICE,
log entry 37). -/
def State.epoch? (s : State) (ctx va : Nat) : Option (Nat × Nat) :=
  if !vaOk va || (s.remote? va).isSome then none
  else
    (s.ctx? ctx).bind fun c =>
      (c.cfg.epochs.find? fun e => e.2 < 4 && e.1 ≤ va % 2 ^ 47 && va % 2 ^ 47 < e.1 + 128).map fun e => (e.2, va % 2 ^ 47 - e.1)

/-- What a read of an epoch window gives: it is read-only, and its die must be there. -/
def State.readEpoch (s : State) (d o n : Nat) (p : Perm) : Except XErr (State × List Byte) :=
  if !s.dieServes d then .error (.cause .translation)
  else if p.w || p.x || 128 < o + n then .error (.cause .permission)
  else .ok (s, (Pair.window (s.pair d)).drop o |>.take n)

/-- The leaf that maps an address: the walker's cached entry, or a walk (R317). A not-present page that could not be
serviced gives `POISON` (R320). A home that is lost or gone gives
`TRANSLATION` (R309). An epoch window has no leaf: what is no read of it meets `PERMISSION` (R404). -/
def State.leafOf (s : State) (ctx va : Nat) : Except XErr Leaf :=
  let home := vaHome va
  let ofs := vaOfs va
  if (s.epoch? ctx va).isSome then .error (.cause .permission)
  else if !s.dieServes home then .error (.cause .translation)
  else
    match s.tlb.find? fun e => e.ctx = ctx && e.home = home && e.base ≤ ofs && ofs < e.base + e.size with
    | some e =>
      if s.placeOk (leafWord e.w1) e.size (leafFrame e.w0) then .ok ⟨home, e.base, e.size, e.ea, e.w0, e.w1⟩
      else .error (.cause .geometry)
    | none =>
      match s.walk ctx home ofs with
      | .error .notPresent => if s.unbacked ctx va then .error (.cause .poison) else .error .notPresent
      | r => r

/-- Whether an address is on a page that can be serviced and is not present. -/
def State.pageAway (s : State) (ctx va : Nat) : Bool :=
  vaOk va && (s.remote? va).isNone && (match s.leafOf ctx va with
    | .error .notPresent => true
    | _ => false)

/-! ## Walks in flight (R317, R318) -/

def Walk.covers (w : Walk) (ctx va : Nat) : Bool :=
  w.ctx = ctx && w.home = vaHome va && decide (w.base ≤ vaOfs va) && decide (vaOfs va < w.base + w.size)

/-- Walks of an execution in flight at a home. -/
def State.walksOf (s : State) (home ex : Nat) : Nat := (s.walks.filter fun w => w.live && w.home = home && w.ex = ex).length

/-- A waiting walk goes before another (R318): one that 64 younger walks have passed, the oldest of them first; then the
instruction with the fewest walks in flight, then the oldest by arrival, and within an instruction the lowest lane that missed. -/
def State.walkBefore (s : State) (a b : Walk) : Bool :=
  let late (w : Walk) : Bool := decide (64 ≤ w.behind)
  let n (w : Walk) : Nat := s.walksOf w.home w.ex
  let first (w : Walk) : Nat := (s.walks.filter fun x => x.ex = w.ex).foldl (fun m x => min m x.arr) w.arr
  if late a != late b then late a
  else if late a then a.arr ≤ b.arr
  else if n a ≠ n b then n a < n b
  else if a.ex ≠ b.ex then first a ≤ first b
  else a.lane < b.lane || (a.lane = b.lane && a.arr ≤ b.arr)

/-- A home starts waiting walks while fewer than 64 are in flight there; `fuel` bounds the starts. -/
def State.startWalks (s : State) (home : Nat) : Nat → State
  | 0 => s
  | fuel + 1 =>
    if Config.homeWalks ≤ (s.walks.filter fun w => w.live && w.home = home).length then s
    else
      let waiting := s.walks.filter fun w => !w.live && !w.over_ && w.home = home
      match waiting.foldl (fun (b : Option Walk) w => match b with
        | some x => if s.walkBefore w x then some w else some x
        | none => some w) none with
      | none => s
      | some w =>
        State.startWalks { s with walks := s.walks.map fun x =>
          if x = w then { x with live := true }
          else if !x.live && x.home = home && decide (x.arr < w.arr) then { x with behind := x.behind + 1 } else x }
          home fuel

/-- The page that a walk for an address is to find: its leaf's, or 64 KiB where the tables have none. -/
def State.missAt (s : State) (ctx va : Nat) : Nat × Nat :=
  match s.walk ctx (vaHome va) (vaOfs va) with
  | .ok f => (f.base, f.size)
  | .error _ => (vaOfs va / 2 ^ 16 * 2 ^ 16, 2 ^ 16)

/-- Whether the walker's cache has an address. -/
def State.cached (s : State) (ctx va : Nat) : Bool :=
  s.tlb.any fun e => e.ctx = ctx && e.home = vaHome va && decide (e.base ≤ vaOfs va) && decide (vaOfs va < e.base + e.size)

/-- Whether an access to an address needs a walk: no walker answers for a peer's address, a bad one, an epoch window or a home
that does not serve. -/
def State.needsWalk (s : State) (ctx va : Nat) : Bool :=
  vaOk va && (s.remote? va).isNone && !s.cached ctx va && (s.epoch? ctx va).isNone && s.dieServes (vaHome va)

/-- An access of an execution misses: it waits for a walk, which it shares with the other lanes of its instruction that miss in
the page, at the place of the lowest of them (R318). -/
def State.miss (s : State) (ctx va ex lane : Nat) (again : Bool := false) : State :=
  if !s.needsWalk ctx va then s
  else if s.walks.any fun w => w.ex = ex && w.covers ctx va then
    { s with walks := s.walks.map fun w => if w.ex = ex && w.covers ctx va then { w with lane := min w.lane lane } else w }
  else
    let (b, n) := s.missAt ctx va
    let w : Walk :=
      { ctx := ctx, home := vaHome va, base := b, size := n, ex := ex, lane := lane, arr := s.nextId, again := again }
    State.startWalks { s with walks := s.walks ++ [w], nextId := s.nextId + 1 } (vaHome va) 1

/-- Whether an access of an execution still waits for a walk. -/
def State.walking (s : State) (ctx va ex : Nat) : Bool := s.walks.any fun w => w.ex = ex && w.covers ctx va && !w.over_

/-- The addresses in a range at which an access may meet another page. -/
def pageStarts (va n : Nat) : List Nat :=
  va :: (List.range (ceilDiv (va % 2 ^ 16 + n) (2 ^ 16) - 1)).map fun i => (va / 2 ^ 16 + i + 1) * 2 ^ 16

/-- An access that its agent makes again until it can be made: true where no walk stands before it. One that misses waits for its
walk; the outcome of a walk that left no translation is met once (R317). -/
def State.walked (s : State) (ctx va n ex lane : Nat) : State × Bool :=
  let vas := (pageStarts va n).filter (s.needsWalk ctx)
  let met (x : Nat) : Bool := s.walks.any fun w => w.ex = ex && w.covers ctx x && w.over_
  match vas.filter fun x => !met x with
  | [] => if vas.isEmpty then (s, true)
      else ({ s with walks := s.walks.filter fun w => !(w.ex = ex && w.over_ && vas.any (w.covers ctx)) }, true)
  | xs => (xs.foldl (fun s x => s.miss ctx x ex lane true) s, false)

def Leaf.allows (f : Leaf) (p : Perm) (sys : Bool) : Bool :=
  (!p.r || f.w0.getLsbD 2) && (!p.w || f.w0.getLsbD 3) && (!p.x || f.w0.getLsbD 4) && (sys || f.w0.getLsbD 5)

/-- The word and frame in force for offset `o` of a page: below the position of a re-stripe in progress, the new ones
(R321). -/
def State.placing (s : State) (f : Leaf) (o : Nat) : Word × Nat :=
  match s.moving.find? fun m => m.ea = f.ea with
  | some m => if o < m.pos then (m.new, m.newFrame) else (m.old, m.oldFrame)
  | none => (leafWord f.w1, leafFrame f.w0)

/-- Where an access of `ctx` goes: the leaf and the physical address. `die` is the requester's die. What the device
reads or writes on its own account it reaches on the own device only (DEDUCED, log entry 17). -/
def State.translate (s : State) (ctx va : Nat) (p : Perm) (sys : Bool) (die : Nat) : Except XErr (Leaf × Nat) :=
  if !vaOk va || (s.remote? va).isSome then .error (.cause .translation)
  else
    match s.leafOf ctx va with
    | .error e => .error e
    | .ok f =>
      if !f.allows p sys then .error (.cause .permission)
      else
        let o := vaOfs va - f.base
        let (w, fr) := s.placing f o
        .ok (f, spot w fr o (pwServe w die p.w))

/-- A home's walker keeps a leaf, and at most 16,384 of them (R317). -/
def State.cache (s : State) (ctx : Nat) (f : Leaf) : State :=
  let new : Tlb := ⟨ctx, f.home, f.base, f.size, f.ea, f.w0, f.w1⟩
  if s.tlb.contains new then s
  else
    let mine := s.tlb.filter fun e => e.home = f.home && !(e.ctx = ctx && e.base = f.base)
    { s with tlb := new :: (mine.take 16383 ++ s.tlb.filter fun e => e.home ≠ f.home) }

/-- The walker sets `AC` at a leaf's first read and `DT` at its first write (R311), and keeps the entry (R317). -/
def State.noteLeaf (s : State) (ctx : Nat) (f : Leaf) (write : Bool) : State :=
  let b : DWord := if write then 0x200 else 0x100
  let w0 := f.w0 ||| b
  let s := if w0 = f.w0 then s else
    let m := s.dword f.ea ||| b
    s.writePhys f.ea (toBytes 8 m.toNat)
  s.cache ctx { f with w0 := w0 }

/-- The die of a physical address, for R400: the stack's V-die, the port's belay die, the bank's V-die. -/
def dieOfPhys (a : Nat) : Nat :=
  if a < 2 ^ 40 then a / Config.stackBytes / 2
  else if a < bankBase then 8 + (a - 2 ^ 40) / 2 ^ 42 / 2
  else (a - bankBase) / 32 % 1024 / 256

/-- A line comes into the near cache of its memory die, or of the translation home for the second tier; not from a `BOUND`
page (R306, R316). The word is the one in force for the line (R321). -/
def State.nearFill (s : State) (w : Word) (home a : Nat) : State :=
  if pwBound w then s
  else
    let d := if pwCxlt w then home else dieOfPhys a
    let old := Map.get s.near d []
    { s with near := Map.put d ((a / 256 :: old.filter (· ≠ a / 256)).take Config.nearLines) s.near }

/-- The port's expander was removed: its pages are poisoned (R360). -/
def State.cxlGone (s : State) (a : Nat) : Bool :=
  2 ^ 40 ≤ a && a < bankBase && s.cxlOut.contains ((a - 2 ^ 40) / 2 ^ 42)

/-! ## Read-duplicated pages (R315, R101) -/

/-- The dies other than `die` that hold a `REPL` page. -/
def otherHolders (w : Word) : List Nat := (pwHolders w).drop 1

/-- Before a holder with an invalid copy reads line `o`, it refills it from the primary, with the primary's poison (R315, R405). -/
def State.refill (s : State) (w : Word) (frame o die : Nat) : State :=
  let line := o / 256 * 256
  let prim := spot w frame line (pwServe w die true)
  if pwRepl w && (Map.get s.replBad (prim / 256) []).contains die then
    let here := spot w frame line (pwOnDie w die)
    let s := (s.writePhys here (s.readPhys prim 256)).clearPoison here 256
    { s with
      poison := if s.poisoned prim 256 then here :: s.poison else s.poison
      replBad := Map.mod (prim / 256) (·.filter (· ≠ die)) s.replBad }
  else s

/-- A write on the primary makes the other holders' copies invalid (R315). -/
def State.invalidate (s : State) (w : Word) (phys : Nat) : State :=
  if pwRepl w && !(otherHolders w).isEmpty then { s with replBad := Map.put (phys / 256) (otherHolders w) s.replBad }
  else s

/-! ## Accesses through translation

`pieces` cuts a range at the boundaries of its 256-byte lines, so each piece lies in one place. -/

def pieces (va : Nat) : Nat → Nat → List (Nat × Nat)
  | 0, _ => []
  | fuel + 1, n =>
    if n = 0 then []
    else
      let k := min n (256 - va % 256)
      (va, k) :: pieces (va + k) fuel (n - k)

/-- Reads one piece. -/
def State.readPiece (s : State) (ctx va n : Nat) (p : Perm) (sys : Bool) (die : Nat) : Except XErr (State × List Byte) :=
  match s.epoch? ctx va with
  | some (d, o) => s.readEpoch d o n p
  | none =>
  match s.translate ctx va p sys die with
  | .error e => .error e
  | .ok (f, a) =>
    let (w, fr) := s.placing f (vaOfs va - f.base)
    let s := (((s.noteLeaf ctx f false).touch ctx f.home).touch ctx (dieOfPhys a)).refill w fr (vaOfs va - f.base) die
    if s.poisoned a n || s.cxlGone a then .error (.cause .poison) else .ok (s.nearFill w f.home a, s.readPhys a n)

/-- Writes one piece; a poisoned line is written and stays poisoned unless it is covered whole (R405). -/
def State.writePiece (s : State) (ctx va : Nat) (bs : List Byte) (sys : Bool) (die : Nat) : Except XErr State :=
  match s.translate ctx va { w := true } sys die with
  | .error e => .error e
  | .ok (f, a) =>
    if s.cxlGone a then .error (.cause .poison)
    else
      let (w, _) := s.placing f (vaOfs va - f.base)
      let s := ((s.noteLeaf ctx f true).touch ctx f.home).touch ctx (dieOfPhys a)
      .ok ((((s.writePhys a bs).clearPoison a bs.length).invalidate w a).nearFill w f.home a)

/-- The dies whose translation unit, and where that lets it pass, whose memory an access to a range meets, whatever becomes of
it (R400). -/
def State.meets (s : State) (ctx va n : Nat) (p : Perm) (sys : Bool) (die : Nat) : State :=
  (pieces va (n + 1) n).foldl (fun s e =>
    if !vaOk e.1 || (s.remote? e.1).isSome || !s.dieServes (vaHome e.1) then s
    else
      let s := s.touch ctx (vaHome e.1)
      match s.translate ctx e.1 p sys die with
      | .ok (_, a) => s.touch ctx (dieOfPhys a)
      | .error _ => s) s

/-- Whether a waiting write is still to be made: of an operation, a program or a group, or of a peer's request. -/
def State.replLive (s : State) (e : ReplW) : Bool :=
  match e.src with
  | none => (s.op? e.op).any (fun o => !o.st.settled) || (Map.get? s.progs e.op).isSome
  | some p => s.serving.any fun v => v.src = p && v.tag = e.op

/-- Whether a write to a range would overtake writes that wait at a `REPL` page's home for their invalidates (R101). -/
def State.lineBusy (s : State) (ctx va n : Nat) : Bool :=
  !s.replQ.isEmpty && (pieces va (n + 1) n).any fun e => vaOk e.1 && (s.remote? e.1).isNone && (match s.leafOf ctx e.1 with
    | .ok f =>
      let (w, fr) := s.placing f (vaOfs e.1 - f.base)
      let line := spot w fr (vaOfs e.1 - f.base) (pwServe w 0 true) / 256
      s.replQ.any fun q => q.2.line = line && s.replLive q.2
    | .error _ => false)

/-- Whether an access of the device's own to an address has to wait: its page can be serviced and is not present, or writes that
came before it wait there. -/
def State.away (s : State) (ctx va : Nat) : Bool := s.pageAway ctx va || s.lineBusy ctx va 1

/-- Reads `n` bytes at a global address of the own device. -/
def State.gread (s : State) (ctx va n : Nat) (p : Perm) (sys : Bool) (die : Nat) : Except XErr (State × List Byte) :=
  (pieces va (n + 1) n).foldl (fun r e =>
    match r with
    | .error x => .error x
    | .ok (s, bs) =>
      match s.readPiece ctx e.1 e.2 p sys die with
      | .error x => .error x
      | .ok (s, b) => .ok (s, bs ++ b)) (.ok (s, []))

/-- Writes bytes at a global address of the own device. -/
def State.gwrite (s : State) (ctx va : Nat) (bs : List Byte) (sys : Bool) (die : Nat) : Except XErr State :=
  (pieces va (bs.length + 1) bs.length).foldl (fun r e =>
    match r with
    | .error x => .error x
    | .ok s => s.writePiece ctx e.1 ((bs.drop (e.1 - va)).take e.2) sys die) (.ok s)

/-- The device writes on its own account. The invalidates of a `REPL` page's holders are answered within the write (DESIGN CHOICE, log
entry 73), but it waits, as for a page that is not present, for the writers that came to the line before it (R101). -/
def State.dwrite (s : State) (ctx va : Nat) (bs : List Byte) (sys : Bool) (die : Nat) : Except XErr State :=
  if s.lineBusy ctx va bs.length then .error .notPresent else s.gwrite ctx va bs sys die

/-- The mode a context's groups run in (R65). -/
def State.sysMode (s : State) (ctx : Nat) : Bool :=
  match s.ctx? ctx with
  | some c => c.cfg.sys
  | none => false

/-- A read for a group of the context, in its own mode. -/
def State.cread (s : State) (ctx core va n : Nat) : Except XErr (State × List Byte) :=
  s.gread ctx va n { r := true } (s.sysMode ctx) (pairOf core)

def State.cwrite (s : State) (ctx core va : Nat) (bs : List Byte) : Except XErr State :=
  s.gwrite ctx va bs (s.sysMode ctx) (pairOf core)

/-! ## Scratchpad (R161, R309) -/

/-- The cores of a team's cluster, in rank order. -/
def State.clusterCores (s : State) (t : Team) : List Nat :=
  match Map.get? s.clusters t.cluster with
  | some c => c.cores
  | none => [t.core]

/-- The allocation that a scratchpad address of team `t` names, as core, base and length: that of the rank's team of the same
cluster, which lasts as long as the cluster does. -/
def State.rankAlloc (s : State) (t : Team) (rank : Nat) : Option (Nat × Nat × Nat) :=
  if rank = 15 || rank = t.rank then some (t.core, t.scrBase, t.scrLen)
  else
    match s.teams.find? fun e => e.2.cluster = t.cluster && e.2.rank = rank with
    | some e => some (e.2.core, e.2.scrBase, e.2.scrLen)
    | none => (Map.get? s.clusters t.cluster).bind fun c => (c.kept.find? fun k => k.1 = rank).map Prod.snd

/-- The physical address of `n` bytes at scratchpad address `a`, if they lie in the target team's allocation (R161). -/
def State.scratch? (s : State) (tid : Nat) (a n : Nat) : Option Nat :=
  match s.team? tid with
  | none => none
  | some t =>
    let ofs := a % 2 ^ 22
    if a / 2 ^ 22 % 64 ≠ 0 then none
    else
      match s.rankAlloc t (a / 2 ^ 28) with
      | some (core, base, len) => if ofs + n ≤ len then some (scratchPhys core (base + ofs)) else none
      | none => none

/-- The same for an address that must be the own core's (R230). -/
def State.ownScratch? (s : State) (tid : Nat) (a n : Nat) : Option Nat :=
  match s.team? tid with
  | some t => if a / 2 ^ 28 = 15 || a / 2 ^ 28 = t.rank then s.scratch? tid a n else none
  | none => none

/-! ## Shared bank memory (R161, R309, R324) -/

/-- The V-dies that hold the words of `n` bytes at a bank address: 8 KiB in a row lie on one die. -/
def bankDies (a n : Nat) : List Nat :=
  (List.range (min 4 ((a + max n 1 - 1) / 8192 + 1 - a / 8192))).map fun i => (a / 8192 + i) % 4

/-- The cause with which an access to `n` bytes at a bank address settles, if it fails. -/
def State.bankFail (s : State) (ctx a n : Nat) : Option Cause :=
  if a / 2 ^ 28 ≠ 0 || 2 ^ 28 < a + n then some .translation
  else if !(bankDies a n).all s.dieServes then some .translation
  else
    match s.ctx? ctx with
    | none => some .permission
    | some c => if c.cfg.windows.any fun w => w.base ≤ a && a + n ≤ w.base + w.len then none else some .permission

def bankPhys (a : Nat) : Nat := bankBase + a

/-! ## Where free room is (R187, R322) -/

/-- The ranges of a page in its targets. -/
def rangesOf (w : Word) (size frame : Nat) : List (Nat × Nat × Nat) :=
  (pwTargets w).flatMap fun ts => ts.map fun t => (t, frame * 2 ^ 16, frame * 2 ^ 16 + pwSpan w size ts.length)

/-- The indexes of the entries that memory lists in a table. -/
def State.tableIdx (s : State) (a entries : Nat) : List Nat :=
  ((s.mem.filter fun c => decide (a ≤ c.1) && decide (c.1 < a + 16 * entries)).map fun c => (c.1 - a) / 16).eraseDups

/-- The leaves below a table, `levels` levels above the last, with the ranges of the tables themselves. -/
def State.leavesAt (s : State) (home : Nat) : Nat → Nat → Nat → List Leaf
  | levels, table, base =>
    let size := if levels = 2 then 2 ^ 30 else if levels = 1 then 2 ^ 21 else 2 ^ 16
    let entries := if levels = 2 then 32768 else if levels = 1 then 512 else 32
    if 2 ^ 37 ≤ table then []
    else (s.tableIdx (dieHbm home table) entries).flatMap fun i =>
      let ea := dieHbm home (table + 16 * i)
      let w0 := s.dword ea
      let w1 := s.dword (ea + 8)
      if !w0.getLsbD 0 then []
      else if w0.getLsbD 1 then [⟨home, base + i * size, size, ea, w0, w1⟩]
      else
        match levels with
        | 0 => []
        | l + 1 => s.leavesAt home l (w0.toNat / 512 * 512) (base + i * size)

/-- Every present leaf of a context's home. -/
def State.leaves (s : State) (ctx home : Nat) : List Leaf :=
  match s.ctx? ctx with
  | none => []
  | some c =>
    match c.cfg.roots[home]? with
    | some (some root) => s.leavesAt home 2 root 0
    | _ => []

/-- The ranges of a walk's tables: the stack, and the bytes that the table takes there. -/
def State.tablesAt (s : State) (home : Nat) : Nat → Nat → List (Nat × Nat × Nat)
  | levels, table =>
    let entries := if levels = 2 then 32768 else if levels = 1 then 512 else 32
    let a := dieHbm home table
    let st := a / Config.stackBytes
    if 2 ^ 37 ≤ table then []
    else (st, a % Config.stackBytes, a % Config.stackBytes + 16 * entries) ::
      (match levels with
      | 0 => []
      | l + 1 =>
        (s.tableIdx a entries).flatMap fun i =>
          let w0 := s.dword (dieHbm home (table + 16 * i))
          if w0.getLsbD 0 && !w0.getLsbD 1 then s.tablesAt home l (w0.toNat / 512 * 512) else [])

/-- The ranges in use: every page and every table of every context. -/
def State.usedRanges (s : State) : List (Nat × Nat × Nat) :=
  (s.ctxs.flatMap fun c => (List.range 4).flatMap fun h =>
    (match c.2.cfg.roots[h]? with
      | some (some root) => s.tablesAt h 2 root
      | _ => []) ++
    (s.leaves c.1 h).flatMap fun f => rangesOf (leafWord f.w1) f.size (leafFrame f.w0)) ++
  s.moving.flatMap fun m => rangesOf m.new m.size m.newFrame

def overlaps (a b : Nat × Nat × Nat) : Bool := a.1 == b.1 && decide (a.2.1 < b.2.2) && decide (b.2.1 < a.2.2)

/-- A frame at which a page finds room under a new word: frame 0, or the first end of a range in use, where nothing
overlaps (DESIGN CHOICE, log entry 15). -/
def State.roomFor (s : State) (w : Word) (size : Nat) : Option Nat :=
  let used := s.usedRanges
  let step := max 1 (size / 2 ^ 16)
  let cands := 0 :: used.map fun r => ceilDiv (ceilDiv r.2.2 (2 ^ 16)) step * step
  cands.find? fun fr => s.placeOk w size fr && (rangesOf w size fr).all fun r => used.all fun u => !overlaps r u

end Sys2Proof.Machine
end

