-- ==== Sys2Proof/Machine/Ops.lean ====
section
/-!
DEFINITION. Sys2Proof/Machine/Ops.lean: the shared operations: ending teams and grids, taking a trap and returning from
one (R74 to R83), the frame in which an instruction of a slot executes (R44, R51, R66), and issuing operations (R69).
-/

namespace Sys2Proof.Machine

/-! ## Snapshots (R408) -/

/-- The snapshot trigger: latches the tick; later triggers are ignored until the latch is re-armed. -/
def State.trigger (s : State) : State :=
  if s.snap.latched then s else { s with snap := { s.snap with latched := true, tick := s.rtime } }

/-! ## Barriers (R136) -/

/-- The number of threads of a team that have not exited. -/
def State.liveThreads (s : State) (tid : Nat) : Nat :=
  (s.groups.filter fun e => e.2.team = tid).foldl (fun n e =>
    n + (e.2.threads.filter fun t => t.2.phase ≠ .exited).length) 0

/-- The number of non-exited threads that count for barrier key `k` of a team: its own, or its cluster's (R136). -/
def State.barPop (s : State) (tid k : Nat) : Nat :=
  if k < 16 then s.liveThreads tid
  else
    match s.team? tid with
    | some t => (s.teams.filter fun e => e.2.cluster = t.cluster).foldl (fun n e => n + s.liveThreads e.1) 0
    | none => 0

/-- The barrier of key `k` (0 to 15 team, 16 to 19 cluster). -/
def State.barrier (s : State) (tid k : Nat) : Barrier :=
  match s.team? tid with
  | none => {}
  | some t =>
    if k < 16 then Map.get t.bars k {}
    else
      match Map.get? s.clusters t.cluster with
      | some c => Map.get c.bars (k - 16) {}
      | none => {}

def State.setBarrier (s : State) (tid k : Nat) (b : Barrier) : State :=
  match s.team? tid with
  | none => s
  | some t =>
    if k < 16 then s.modTeam tid fun t => { t with bars := Map.put k b t.bars }
    else { s with clusters := Map.mod t.cluster (fun c => { c with bars := Map.put (k - 16) b c.bars }) s.clusters }

/-- Teams that share barrier `k` with team `tid`. -/
def State.barTeams (s : State) (tid k : Nat) : List Nat :=
  if k < 16 then [tid]
  else
    match s.team? tid with
    | some t => (s.teams.filter fun e => e.2.cluster = t.cluster).map Prod.fst
    | none => []

/-! ## Where a thread goes next (R39, R41) -/

/-- The header of a clause, as it was checked at its start. -/
def Clause.header (c : Clause) : Header := (Header.read c.hw).getD ⟨1, 0, 0, none, none, false, false, false, false⟩

/-- Words of the instruction area. -/
def Clause.area (c : Clause) : Nat := c.header.n - (if c.header.rel then 2 else 0)

/-- The index of a code offset within the clause's words. -/
def Clause.idx (c : Clause) (pc : Nat) : Nat := (pc - c.hdr) / 4 - 1

/-- The page on which the word at an index is decoded: the tail on the CTL page (R40). -/
def Clause.pageAt (c : Clause) (i : Nat) : Nat :=
  if c.header.tail && i + 1 == c.area then 5 else c.header.page

/-- The length of the instruction at an index. -/
def Clause.lenAt (c : Clause) (i : Nat) : Nat := instrLen (c.pageAt i) ((c.ws.take c.area).drop i)

/-- Decodes the instruction at a code offset of a clause in progress, on the page that the word has there (R39, R40). -/
def Clause.decode (c : Clause) (pc : Nat) : Except DecodeError Instr :=
  let i := c.idx pc
  (decodeWords (c.pageAt i) ((c.ws.take c.area).drop i)).map Prod.fst

/-- The guard of an instruction of the seven pages. -/
def Instr.guardOf (i : Instr) : Guard := (i.gen.map fun g => g.p.g).getD .always

/-- The header after the clause (R36). Where the clause ends at code offset 2^32 the address goes on and does not wrap, as the target of
a branch does (DESIGN CHOICE, log entry 66). -/
def Clause.after (c : Clause) : Nat := c.hdr + 4 * (c.header.n + 1)

/-- The names that the release masks of a clause unmap (R53). -/
def Clause.releases (c : Clause) : List Nat :=
  if c.header.rel then
    let m1 := c.ws.getD c.area 0
    let m2 := c.ws.getD (c.area + 1) 0
    ((List.range 32).filter fun i => m1.getLsbD i) ++ ((List.range 32).filter fun i => m2.getLsbD i).map (· + 32)
  else []

/-- The live word of the safe point that the instruction at an index is, if it is one: the last of its clause, with
`SP` set (R43, R52). -/
def Clause.safeAt (c : Clause) (i : Nat) : Option Word :=
  if i < c.area && i + c.lenAt i == c.area && (c.ws.getD i 0).getLsbD 31 && !(c.header.tail && i + 1 == c.area) then
    c.ws[c.area - 1]?
  else none

/-- A clause ends for some lanes, which go on at `pc`: temporaries are discarded, release masks applied, the yield
hint noted (R41). After a safe point they stay where the scheduler is suspending the group (R280). -/
def State.leave (s : State) (gid : Nat) (lanes : List Nat) (pc : Nat → Nat) : State :=
  let cl := lanes.findSome? fun l => (s.thread gid l).clause
  let hold := (s.group? gid).any fun g => g.susp ≠ .none
  let stop (l : Nat) : Option Wait := match cl with
    | some c => if hold then (c.safeAt (c.idx (s.thread gid l).pc)).map fun w => .suspend none .nul w else none
    | none => none
  let s := lanes.foldl (fun s l =>
    s.modThread gid l fun t => { t with pc := pc l, clause := none, t := [], wait := stop l }) s
  match cl with
  | none => s
  | some c =>
    let s := if c.header.rel then s.unmap gid c.releases else s
    if c.header.y then s.modGroup gid fun g => { g with skip := true } else s

/-- Some lanes of one path go on to the next instruction, or end their clause after its last (R41). -/
def State.advance (s : State) (gid : Nat) (lanes : List Nat) : State :=
  match lanes with
  | [] => s
  | l0 :: _ =>
    let t := s.thread gid l0
    match t.clause with
    | none => s
    | some c =>
      let i := c.idx t.pc
      let j := i + c.lenAt i
      if c.area ≤ j then s.leave gid lanes fun _ => c.after
      else lanes.foldl (fun s l => s.modThread gid l fun t => { t with pc := t.pc + 4 * (j - i), wait := none }) s

/-- A thread's wait ends and it goes on; guard-false threads that stayed with it go on too (DESIGN CHOICE, log entry 12). -/
def State.wake (s : State) (gid l : Nat) : State :=
  match s.group? gid with
  | none => s
  | some g =>
    let with_ := (g.threads.filter fun e => e.2.wait = some (.withPath l) || e.2.wait = some (.shared l)).map Prod.fst
    s.advance gid (l :: with_)

/-- Guard-false threads that stayed with lanes whose wait is over go on (DESIGN CHOICE, log entry 12). -/
def State.freeWith (s : State) (gid : Nat) (lanes : List Nat) : State :=
  match s.group? gid with
  | none => s
  | some g =>
    s.advance gid ((g.threads.filter fun e => lanes.any fun l => e.2.wait = some (.withPath l)).map Prod.fst)

/-- A phase of a barrier completes (R136): the bit flips and every thread that waits for that phase goes on, but for those
that have abandoned their wait (R74). -/
def State.completePhase (s : State) (tid k : Nat) : State :=
  let b := s.barrier tid k
  let s := s.setBarrier tid k { b with ph := !b.ph, n := b.n - b.e }
  let ts := s.barTeams tid k
  let s := (s.groups.filter fun e => ts.contains e.2.team).foldl (fun s e =>
    s.modGroup e.1 fun g => { g with threads := Map.modAll (fun _ t => { t with arr := Map.del k t.arr }) g.threads }) s
  (s.groups.filter fun e => ts.contains e.2.team).foldl (fun s e =>
    let hit := e.2.threads.filter fun t => t.2.wait = some (.bar (decide (16 ≤ k)) (k % 16) b.ph) && !s.deliverable e.1 t.1
    let s := if 16 ≤ k && !hit.isEmpty then s.modCore e.2.core fun c => { c with l1 := [] } else s
    hit.foldl (fun s t => s.wake e.1 t.1) s) s

/-- Whether the current phase of a barrier is complete (R136). -/
def State.phaseDone (s : State) (tid k : Nat) : Bool :=
  let b := s.barrier tid k
  b.n ≠ 0 && (if b.e = 0 then decide (s.barPop tid k ≤ b.n) else decide (b.e ≤ b.n))

/-- An arrival in an incomplete phase is withdrawn (R74, R136). -/
def State.withdraw (s : State) (gid l : Nat) : State :=
  match s.group? gid, (s.thread gid l).wait with
  | some g, some (.bar clu idx ph) =>
    let k := if clu then 16 + idx else idx
    let b := s.barrier g.team k
    if b.ph = ph && Map.get? (s.thread gid l).arr k = some ph then
      (s.setBarrier g.team k { b with n := b.n - 1 }).modThread gid l fun t => { t with arr := Map.del k t.arr }
    else s
  | _, _ => s

/-- Withdraws the arrivals at a barrier of the waiting threads whose failure can be delivered: they have abandoned the wait,
though their trap may still be to come (R74, steps 3 to 5). -/
def State.withdrawAll (s : State) (tid k : Nat) : State :=
  let ts := s.barTeams tid k
  (s.groups.filter fun e => ts.contains e.2.team).foldl (fun s e =>
    (e.2.threads.filter fun t => (match t.2.wait with
      | some (.bar clu idx _) => decide ((if clu then 16 + idx else idx) = k)
      | _ => false) && s.deliverable e.1 t.1).foldl (fun s t => s.withdraw e.1 t.1) s) s

/-- Completes the phase if it is complete; arrivals beyond E carry over. With E = 0 the count itself is E. -/
def State.checkPhase (s : State) (tid k : Nat) : State :=
  let s := s.withdrawAll tid k
  if s.phaseDone tid k then
    let b := s.barrier tid k
    let s := if b.e = 0 then s.setBarrier tid k { b with e := b.n } else s
    s.completePhase tid k
  else s

/-- Count-0 barriers recount at every exit (R136, R145). -/
def State.recount (s : State) (tid : Nat) : State :=
  (List.range 20).foldl (fun s k => if (s.barrier tid k).e = 0 then s.checkPhase tid k else s) s

/-! ## Reconvergence (R134) -/

/-- All threads that are neither exited nor in handler mode wait at a `RECONV`: they go on together. One whose failure can be
delivered has abandoned its wait (R74). -/
def State.checkReconv (s : State) (gid : Nat) : State :=
  match s.group? gid with
  | none => s
  | some g =>
    let live := g.threads.filter fun t => t.2.phase ≠ .exited && t.2.hnd.isNone
    let isR (t : Nat × Thread) : Bool := !s.deliverable gid t.1 && match t.2.wait with
      | some .reconv => true
      | some (.withPath l) => (g.thread l).wait = some .reconv
      | _ => false
    if !live.isEmpty && live.all isR then
      (live.filter fun t => t.2.wait = some .reconv).foldl (fun s t => s.wake gid t.1) s
    else s

/-! ## Ending groups, teams and grids (R145, R276, R282) -/

/-- A group leaves its core: its blocks return (R27). -/
def State.dropGroup (s : State) (gid : Nat) : State :=
  let s := s.shrink gid 0
  { s with groups := Map.del gid s.groups }

/-- A team leaves its core; its allocation lasts as long as its cluster, and what its tiles hold stays in the accumulator
memory for later teams (R222). -/
def State.dropTeam (s : State) (tid : Nat) : State :=
  match s.team? tid with
  | none => s
  | some t =>
    let s := (s.groups.filter fun e => e.2.team = tid).foldl (fun s e => s.dropGroup e.1) s
    let s := if t.mtx then s.modCore t.core fun c => { c with eng := [], oldTiles := t.tiles, lastCtx := some t.ctx } else s
    let s := if t.scrLen = 0 then s else s.modCore t.core fun c =>
      { c with scrOwner := (t.scrBase, t.scrLen, t.ctx) :: c.scrOwner.filter fun r =>
          !(decide (t.scrBase ≤ r.1) && decide (r.1 + r.2.1 ≤ t.scrBase + t.scrLen)) }
    let s := { s with teams := Map.del tid s.teams, saves := s.saves.filter fun e => !(e.2.placed && e.2.tid = tid) }
    if s.teams.any fun e => e.2.cluster = t.cluster then
      { s with clusters := Map.mod t.cluster (fun c => { c with kept := (t.rank, t.core, t.scrBase, t.scrLen) :: c.kept }) s.clusters }
    else { s with clusters := Map.del t.cluster s.clusters }

/-- A waiting `WAITL` on a ticket goes on with a status (R144). -/
def State.wakeWaitl (s : State) (ctx ticket status : Nat) : State :=
  (s.groups.filter fun e => e.2.ctx = ctx).foldl (fun s e =>
    e.2.threads.foldl (fun s t =>
      match t.2.wait with
      | some (.waitl tk d) =>
        if tk.toNat = ticket && !s.deliverable e.1 t.1 then
          ((s.modCore e.2.core fun c => { c with l1 := [] }).dst32 e.1 t.1 d (BitVec.ofNat 32 status)).wake e.1 t.1
        else s
      | _ => s) s) s

/-- What `WAITL` answers for a ticket; none while its grid has not ended (R144). -/
def State.ticketStatus (s : State) (ctx : Nat) (t : Word) : Option Nat :=
  match s.ctx? ctx with
  | none => some 2
  | some c =>
    let m := 2 ^ 31 - 1
    let last := if c.tickets = 0 then 0 else (c.tickets - 1) % m + 1
    let back := (last + m - t.toNat) % m
    if t.getLsbD 31 || t.toNat = 0 || decide (min c.tickets 4096 ≤ back) then some 2 else Map.get? c.ended t.toNat

/-- Whether a predecessor word is met (R275). -/
def State.predMet (s : State) (ctx : Nat) (w : Word) : Bool :=
  if w = 0 then true
  else if w.getLsbD 31 then (Map.get ((s.ctx? ctx).elim [] Ctx.scb) (bits w 16 8).toNat 0).getLsbD (bits w 0 6).toNat
  else (s.ticketStatus ctx w).isSome

/-- Waiting grids whose predecessor words are both met become admittable (R275, R276). -/
def State.retest (s : State) : State :=
  { s with grids := s.grids.map fun e =>
      if e.2.st = .waiting && s.predMet e.2.ctx e.2.r.pred0 && s.predMet e.2.ctx e.2.r.pred1 then
        (e.1, { e.2 with st := .admittable, since := s.rtime })
      else e }

/-- A grid ends with a status (R276): its teams are stopped, its ticket is answered. -/
def State.endGrid (s : State) (gr status : Nat) : State :=
  match s.grid? gr with
  | none => s
  | some g =>
    match g.st with
    | .ended _ => s
    | _ =>
      let s := (s.teams.filter fun e => e.2.grid = some gr).foldl (fun s e => s.dropTeam e.1) s
      let s := s.modGrid gr fun g => { g with st := .ended status, left := 0 }
      let s := { s with
        saves := s.saves.filter fun e => e.2.team.grid ≠ some gr
        reserved := s.reserved.filter fun e => e.2.1 ≠ gr }
      let s := s.modCtx g.ctx fun c => { c with ended := Map.put g.ticket status c.ended }
      (s.wakeWaitl g.ctx g.ticket status).retest

/-- The operations of a team that is restarted from its checkpoint: held ones are dropped, the others go on for nobody (R73,
R298). -/
def State.dropTeamOps (s : State) (tid : Nat) : State :=
  let mine (o : Op) : Bool := (s.group? o.gid).any fun g => g.team = tid
  let freed := s.ops.filter fun e => mine e.2 && e.2.held
  let s' := freed.foldl (fun s e => match e.2.kind with
    | .async a _ => (match a.slot with
      | some k => s.modCore e.2.core fun c => { c with slots := Map.mod k (fun sl => { sl with op := none }) c.slots }
      | none => s)
    | _ => s) s
  { s' with ops := (s.ops.filter fun e => !(mine e.2 && e.2.held)).map fun e =>
      if mine e.2 then (e.1, { e.2 with gid := 0, lanes := [], dst := none, seta := none, setb := none, taken := true }) else e }

/-- A FATAL trap of a group: system firmware is told the cause (R76, R77), the snapshot fires; its grid ends with status 1, or its node team ends (R276, R282,
R408). A paired team ends and is restarted from its checkpoint by firmware (R298). -/
def State.fatal (s : State) (gid : Nat) (cause : Cause) : State :=
  let s := s.trigger
  match s.group? gid with
  | none => s
  | some g =>
    let s := { s with fatals := (g.ctx, g.team, cause) :: s.fatals }
    match s.team? g.team with
    | none => s.dropGroup gid
    | some t =>
      match t.grid with
      | none => s.dropTeam g.team
      | some gr =>
        if cause = .pairMismatch && s.saves.any fun e => e.2.ckpt && e.2.team.grid = some gr && e.2.team.idx = t.idx then
          let s := (s.dropTeamOps g.team).dropTeam g.team
          { s with saves := Map.modAll (fun _ v => if v.ckpt && v.team.grid = some gr && v.team.idx = t.idx
              then { v with team := { v.team with saving := true } } else v) s.saves }
        else (if cause = .pairMismatch then s.dropTeamOps g.team else s).endGrid gr 1

/-! ## Trap frames (R78 to R80) -/

/-- An escape entry (R80). -/
structure EscEntry where
  seq : Word
  kind : Nat
  size : Nat
  lanes : Nat
  addr : Nat
  dist : Nat
  ex : Nat
  deriving DecidableEq, Repr

def EscEntry.bytes (e : EscEntry) : List Byte :=
  toBytes 4 e.seq.toNat ++ toBytes 1 e.kind ++ toBytes 1 e.size ++ toBytes 2 e.lanes ++ toBytes 8 e.addr

/-- The address that an operation is listed with and, where it failed, its fault address: the destination, also where it was the
source that failed (R79, R80; DESIGN CHOICE, log entry 66): of a copy or load into scratchpad the address there, of `MCST` the
group number, of a `SPAWN` the core. -/
def OpKind.addr : OpKind → Nat
  | .load _ a _ _ | .store _ a _ | .atom _ a _ _ _ _ _ _ | .pref a _ => a
  | .async _ j =>
    match j with
    | .copy _ _ _ dst _ => dst
    | .tile st ent _ _ spad _ => if st then (ent.getD 0 0).toNat + 2 ^ 32 * (ent.getD 1 0).toNat else spad
    | .bank _ dst _ _ _ _ => dst
    | .restripe va _ _ _ _ => va
  | .resume a _ _ => a
  | .ccopy _ _ d => d
  | .mcst m => m.grp
  | .rload r => r.addr
  | .coll _ c => c
  | .scb sb _ _ => sb
  | .spawn c _ _ => c
  | .rspawn t _ _ => t.toNat
  | .arm a => a.addr
  | .peerq i => i
  | .mgrp g _ => g
  | .tfence _ | .sign _ _ | .gang _ | .queue | .wcflush _ | .chunk _ _ _ _ _ | .poll _ _ _ _ => 0

/-- The outcome with which an operation is listed for a lane: FAILED with the low byte of its cause, or its escape. -/
def Op.outcome (o : Op) : Option (Nat × Nat × Nat) :=
  match o.st, o.esc with
  | .failed c, _ => some (5, c.code % 256, o.kind.addr)
  | _, some e => some (e.kind.code, e.size, e.addr)
  | _, none => none

/-- Inserts an entry in the order of R80: distance, issue, kind. -/
def insertEntry (e : EscEntry) : List EscEntry → List EscEntry
  | [] => [e]
  | x :: xs =>
    if e.dist < x.dist || (e.dist = x.dist && (e.ex < x.ex || (e.ex = x.ex && e.kind < x.kind))) then e :: x :: xs
    else x :: insertEntry e xs

/-- The entries of a sub-group: `fails` gives each lane and its failing operation. Lanes of one copy execution whose sizes have different
codes make one entry for each code (DESIGN CHOICE, log entry 66). -/
def State.escapes (s : State) (gid : Nat) (fails : List (Nat × Nat × Word)) : List EscEntry :=
  let items := s.ops.flatMap fun e =>
    if e.2.gid = gid then
      match e.2.outcome with
      | none => []
      | some (k, sz, ad) =>
        (e.2.lanes.filter fun l => fails.any fun f => f.1 = l.1 && decide (f.2.1 < e.1)).map fun l => (e.2.ex, k, sz, ad, l)
    else []
  items.foldl (fun es it =>
    let (ex, k, sz, ad, l) := it
    match es.find? fun e => e.ex = ex && e.kind = k && e.size = sz with
    | some _ => es.map fun e => if e.ex = ex && e.kind = k && e.size = sz then { e with lanes := e.lanes + 1 } else e
    | none =>
      let fseq := ((fails.find? fun f => f.1 = l.1).map fun f => f.2.2).getD 0
      insertEntry ⟨l.2, k, sz, 1, ad, (l.2 - fseq).toNat, ex⟩ es) []

/-- Held operations dropped in the sub-group, one for each execution (R79). -/
def State.droppedCount (s : State) (gid : Nat) (fails : List (Nat × Nat × Word)) : Nat :=
  ((s.ops.filter fun e => e.2.gid = gid && e.2.st = .dropped &&
    e.2.lanes.any fun l => fails.any fun f => f.1 = l.1 && decide (f.2.1 < e.1)).map fun e => e.2.ex).eraseDups.length

/-- What a frame holds besides what the device adds (R79). -/
structure Frame where
  cause : Cause
  cls : TrapClass
  flags : Nat := 0
  seq : Word := 0
  ins : Nat
  fault : Nat := 0
  hz : Word
  opc : Word
  entries : List EscEntry := []
  dropped : Nat := 0
  resume : Nat
  deriving DecidableEq, Repr

def maskOf (lanes : List Nat) : BitVec 64 := lanes.foldl (fun m l => m ||| (1 <<< l : BitVec 64)) 0

/-- The 512 bytes of a frame (R79). -/
def Frame.bytes (f : Frame) (lanes : List Nat) (s46 s47 : Word) : List Byte :=
  let n := f.entries.length
  let es := (f.entries.take 28).flatMap EscEntry.bytes
  toBytes 2 f.cause.code ++ toBytes 1 f.cls.code ++ toBytes 1 f.flags ++ toBytes 4 f.seq.toNat ++ toBytes 8 f.ins
    ++ toBytes 8 f.fault ++ toBytes 8 (maskOf lanes).toNat ++ toBytes 4 f.hz.toNat ++ toBytes 4 f.opc.toNat
    ++ toBytes 2 (min n 65535) ++ toBytes 2 (if 28 < n then 1 else 0) ++ toBytes 4 (min f.dropped 65535)
    ++ es ++ List.replicate (448 - es.length) 0 ++ toBytes 4 s46.toNat ++ toBytes 4 s47.toNat ++ toBytes 8 f.resume

/-- The base of a context's trap area (R78, R155): 512-byte aligned, low bits ignored. -/
def Ctx.trapBase (c : Ctx) : Nat := (c.trapHi ++ c.trapLo).toNat / 512 * 512

/-- Takes the next free frame of the trap area (R78): the state after the accesses, and the frame's address, or the access
that failed and its address. The accesses are the device's own, made in system mode. The counter's atomic comes first, so it
is counted also where n is bad or the frame is not free (DEDUCED, log entry 65); where a page is not present nothing is done. -/
def State.takeFrame (s : State) (ctx core : Nat) : State × Except (XErr × Nat) Nat :=
  match s.ctx? ctx with
  | none => (s, .error (.cause .translation, 0))
  | some c =>
    let base := c.trapBase
    let die := pairOf core
    let atomic : Except XErr (State × Nat) :=
      match s.gread ctx base 4 { r := true, w := true } true die with
      | .error e => .error e
      | .ok (s, h) => (s.dwrite ctx base (toBytes 4 (ofBytes h + 1)) true die).map fun s => (s, ofBytes h)
    match atomic with
    | .error e => (s, .error (e, base))
    | .ok (s', ctr) =>
      match s'.gread ctx (base + 4) 4 { r := true } true die with
      | .error e => (s', .error (e, base))
      | .ok (s', b) =>
        let n := ofBytes b
        if n = 0 || 65536 < n || 2 ^ Nat.log2 n ≠ n then (s', .error (.cause .translation, base))
        else
          let fr := base + 512 * (1 + ctr % n)
          match s'.gread ctx fr 2 { r := true } true die with
          | .error .notPresent => (s, .error (.notPresent, fr))
          | .error e => (s', .error (e, fr))
          | .ok (s', b) => if s.lineBusy ctx fr 512 then (s, .error (.notPresent, fr))
            else if ofBytes b = 0 then (s', .ok fr) else (s', .error (.cause .translation, fr))

/-- The frame of a trap of a paired team has flag [1] (R79). -/
def Frame.forTeam (f : Frame) (paired : Bool) : Frame := if paired then { f with flags := f.flags ||| 2 } else f

/-- Lanes whose frame lies on a page that is not present wait for its service, parked, before they execute their instruction again
(R78, R320). -/
def State.awaitFrame (s : State) (gid : Nat) (lanes : List Nat) (va : Nat) : State :=
  lanes.foldl (fun s l => s.modThread gid l fun t => { t with wait := some (.stall (.page va)), parked := true }) s

/-- The lanes of a sub-group enter the handler (R81), which is an acquire at device scope (R99). -/
def State.enterHandler (s : State) (gid : Nat) (g : Group) (handler : Nat) (lanes : List Nat) (fr resume : Nat) : State :=
  let s := s.modGroup gid fun g =>
    { g with s := Map.put 46 (BitVec.ofNat 32 fr) (Map.put 47 (BitVec.ofNat 32 (fr / 2 ^ 32)) g.s) }
  let s := s.modCore g.core fun c => { c with l1 := [] }
  let m := maskOf lanes
  lanes.foldl (fun s l => s.modThread gid l fun t =>
    { t with
      pc := (handler + 2 ^ 64 - g.cbase) % 2 ^ 64
      clause := none, t := [], wait := none, phase := .active
      hnd := some ⟨fr, resume, t.clause, m⟩ }) s

/-- The lanes of one faulting sub-group take a trap (R74 to R83): into a frame and the handler, or FATAL. A frame page
that is not present is serviced first (R78): the lanes of a failed operation stay where they are until their trap can be taken, those
of an instruction wait at it. -/
def State.takeTrap (s : State) (gid : Nat) (lanes : List Nat) (f : Frame) : State :=
  match s.group? gid with
  | none => s
  | some g =>
    match s.team? g.team with
    | none => s.fatal gid f.cause
    | some tm =>
      if f.cls = .fatal || tm.handler = 0 || lanes.any fun l => (g.thread l).hnd.isSome then s.fatal gid f.cause
      else
        match s.takeFrame g.ctx g.core with
        | (s, .error (.notPresent, va)) => if f.cls = .horizon then s else s.awaitFrame gid lanes va
        | (s, .error (.cause _, _)) => s.fatal gid f.cause
        | (s, .ok fr) =>
          match s.gwrite g.ctx fr ((f.forTeam tm.paired).bytes lanes (Map.get g.s 46 0) (Map.get g.s 47 0)) true (pairOf g.core) with
          | .error _ => s.fatal gid f.cause
          | .ok s => s.enterHandler gid g tm.handler lanes fr f.resume

/-- A PRECISE or RECOVERABLE trap at the instruction that the lanes are at (R76): resumed after the word for PRECISE, at
the word for RECOVERABLE. -/
def State.trapAt (s : State) (gid : Nat) (lanes : List Nat) (c : Cause) (cls : TrapClass) (fault : Nat) : State :=
  match lanes, s.group? gid with
  | l0 :: _, some g =>
    let t := g.thread l0
    let len := match t.clause with
      | some cl => cl.lenAt (cl.idx t.pc)
      | none => 0
    let at_ := g.cbase + t.pc
    s.takeTrap gid lanes
      { cause := c, cls := cls, ins := at_, fault := fault, hz := s.hz gid l0, opc := t.opc
        resume := if cls = .recoverable then at_ else at_ + 4 * len }
  | _, _ => s

/-! ## Delivery of pending failures (R74, R75, R84) -/

/-- One operation is dropped: it never takes effect, and a dropped copy frees its ticket slot (R73, R174). -/
def State.dropOne (s : State) (id : Nat) : State :=
  match s.op? id with
  | none => s
  | some o =>
    let s := s.settle id .dropped
    match o.kind with
    | .async a _ =>
      match a.slot with
      | some k => s.modCore o.core fun c => { c with slots := Map.mod k (fun sl => { sl with op := none }) c.slots }
      | none => s
    | _ => s

/-- Held operations younger than a failure are dropped (R73, R74). -/
def State.dropHeld (s : State) (gid lane id : Nat) : State :=
  (s.ops.filter fun e => e.2.gid = gid && e.2.held && !e.2.st.settled && decide (id < e.1)
      && (e.2.seq? lane).isSome).foldl (fun s e => s.dropOne e.1) s

/-- An operation settles failed: what it held up is dropped, its flags fall (R73). -/
def State.fail (s : State) (id : Nat) (c : Cause) : State :=
  match s.op? id with
  | none => s
  | some o =>
    let s := s.settle id (.failed c)
    o.lanes.foldl (fun s l => s.dropHeld o.gid l.1 id) s

/-- Whether a thread stands where a pending failure is delivered: at a clause boundary, in a wait of R74, or
exiting. -/
def Thread.interruptible (t : Thread) : Bool :=
  t.phase ≠ .exited && !t.parked &&
    (t.phase = .exiting ||
      match t.wait with
      | none => t.clause.isNone
      | some w =>
        match w with
        | .stall _ | .fence _ _ | .mopr _ | .steal _ _ _ | .withPath _ | .rft => false
        | _ => true)

/-- The offset at which `RFT` resumes a thread whose failure is delivered (R76, R145). -/
def Thread.resumeAt (t : Thread) : Nat :=
  match t.phase, t.clause with
  | .exiting, some c => c.hdr
  | _, _ => t.pc

/-- Whether the trap of a thread's pending failure can be taken now: deliverable, and nothing unsettled (R74). -/
def State.trapReady (s : State) (gid l : Nat) : Bool :=
  s.deliverable gid l && (s.unsettled gid l).isEmpty && (s.thread gid l).interruptible

/-- The younger detached failures of some lanes, listed as FAILED (R296): failures at one distance from their lanes' own and with
one cause share an entry (DEDUCED, log entry 16). It lists no escapes (R84). -/
def Group.detEntries (g : Group) (lanes : List Nat) : List EscEntry :=
  lanes.foldl (fun es l => match (g.thread l).detFail with
    | [] => es
    | (sq, _) :: rest => rest.foldl (fun es e =>
      let d := (e.1 - sq).toNat
      let k := e.2.1.code % 256
      if es.any fun x => x.dist = d && x.size = k then
        es.map fun x => if x.dist = d && x.size = k then { x with lanes := x.lanes + 1 } else x
      else insertEntry ⟨e.1, 5, k, 1, 0, d, 0⟩ es) es) []

/-- The failure of an operation that was detached, raised at the start of a restored group (R84, R296). -/
def State.deliverDetached (s : State) (gid : Nat) (g : Group) (l : Nat) : State :=
  let t := g.thread l
  match t.detFail with
  | [] => s
  | (sq, c, ts) :: _ =>
    let same := (g.threads.filter fun e =>
      e.2.pc = t.pc && (match e.2.detFail with
        | (_, c', _) :: _ => decide (c' = c)
        | [] => false) && s.trapReady gid e.1 && (s.failure? gid e.1).isNone).map Prod.fst
    let s' := s.takeTrap gid same
      { cause := c, cls := .horizon, flags := if ts then 12 else 8, seq := sq, ins := g.cbase + t.pc, hz := s.hz gid l, opc := t.opc
        entries := g.detEntries same, resume := g.cbase + t.pc }
    same.foldl (fun s l => s.modThread gid l fun t => if t.hnd.isSome then { t with detFail := [] } else t) s'

/-- The faulting sub-group of a lane (R75, DEDUCED, log entry 16): the lanes that stand for delivery of a failure of the same
instruction, with the same cause and the same resume address. -/
def State.subGroup (s : State) (gid : Nat) (g : Group) (l : Nat) : List Nat :=
  match s.failure? gid l with
  | none => []
  | some (_, o, c) =>
    let res := (g.thread l).resumeAt
    (g.threads.filter fun e =>
      s.deliverable gid e.1 && e.2.interruptible && e.2.resumeAt = res &&
        match s.failure? gid e.1 with
        | some (_, o', c') => o'.ins = o.ins && c' = c
        | none => false).map Prod.fst

/-- The trap of a thread's oldest failure, taken with the lanes of its sub-group once nothing of theirs is unsettled; until
then held operations younger than the failure are dropped (R74, R75). -/
def State.deliverFailure (s : State) (gid l : Nat) : State :=
  match s.group? gid with
  | none => s
  | some g =>
    if !(s.deliverable gid l && (g.thread l).interruptible) then s
    else
      match s.failure? gid l with
      | none => if (s.unsettled gid l).isEmpty then s.deliverDetached gid g l else s
      | some (_, o, c) =>
        let lanes := s.subGroup gid g l
        let res := (g.thread l).resumeAt
        let s := lanes.foldl (fun s l => match s.failure? gid l with
          | some (id, _, _) => s.dropHeld gid l id
          | none => s) s
        if !lanes.all fun l => (s.unsettled gid l).isEmpty then s
        else
        let fails := lanes.filterMap fun l => (s.failure? gid l).map fun f => (l, f.1, (f.2.1.seq? l).getD 0)
        let l0 := lanes.headD l
        let f0 := (s.failure? gid l0).getD (0, o, c)
        let t0 := g.thread l0
        let nd := s.droppedCount gid fails
        let fr : Frame :=
          { cause := c, cls := .horizon
            flags := (if nd = 0 then 0 else 1) + (if o.ts then 4 else 0)
            seq := (f0.2.1.seq? l0).getD 0, ins := o.ins, fault := f0.2.1.kind.addr, hz := t0.opc, opc := t0.opc
            entries := s.escapes gid fails, dropped := nd, resume := g.cbase + res }
        let s := lanes.foldl (fun s l => s.withdraw gid l) s
        let s := s.takeTrap gid lanes fr
        match s.group? gid with
        | none => s
        | some g' =>
          if lanes.all fun l => (g'.thread l).hnd.isSome then
            let s := s.freeWith gid lanes
            let strip (o' : Op) : Op :=
              if o'.gid = gid then
                let rest := o'.lanes.filter fun x => !lanes.contains x.1
                { o' with lanes := rest, taken := o'.taken || rest.isEmpty }
              else o'
            let s := { s with ops := Map.modAll (fun _ o' => strip o') s.ops }
            s.sweepOps
          else s

/-! ## Returning from a handler (R83, R151) -/

/-- Whether lanes other than these are still in the handler that a frame was taken for. -/
def Group.inFrame (g : Group) (frame : Nat) (but : List Nat) : Bool :=
  g.threads.any fun e => !but.contains e.1 && match e.2.hnd with
    | some h => decide (h.frame = frame)
    | none => false

/-- Frees a frame once no lane of its sub-group but these is in the handler (R78, R151). -/
def State.freed (s : State) (g : Group) (frame : Nat) (but : List Nat) : Except XErr State :=
  if g.inFrame frame but then .ok s else s.dwrite g.ctx frame (toBytes 2 0) true (pairOf g.core)

/-- `RFT` for the lanes of a path, once the horizon of each has passed its `OPC`. Where the frame's page is not present nothing is
done: the lanes wait for its service (R320) and execute `RFT` again. -/
def State.returnFrom (s : State) (gid : Nat) (lanes : List Nat) : State :=
  match lanes, s.group? gid with
  | l0 :: _, some g =>
    match (g.thread l0).hnd with
    | none => s
    | some h =>
      match s.gread g.ctx (h.frame + 496) 16 { r := true } true (pairOf g.core) with
      | .error .notPresent => s.awaitFrame gid lanes h.frame
      | .error (.cause c) => s.fatal gid c
      | .ok (s', b) =>
        let s46 := ofBytes (b.take 4)
        let s47 := ofBytes ((b.drop 4).take 4)
        let res := ofBytes (b.drop 8)
        if res % 4 ≠ 0 then s'.fatal gid .misaligned
        else
          match s'.freed g h.frame lanes with
          | .error (.cause c) => s'.fatal gid c
          | .error .notPresent => s.awaitFrame gid lanes h.frame
          | .ok s =>
            let s := lanes.foldl (fun s l => s.modThread gid l fun t =>
              let pc := (res + 2 ^ 64 - g.cbase) % 2 ^ 64
              { t with hnd := none, wait := none, t := [], pc := pc
                       clause := if res = h.wrote then h.clause.filter fun c => c.hdr ≠ pc else none }) s
            let s := s.modGroup gid fun g =>
              { g with s := Map.put 46 (BitVec.ofNat 32 s46) (Map.put 47 (BitVec.ofNat 32 s47) g.s) }
            let ends := lanes.filter fun l =>
              match (s.thread gid l).clause with
              | some c => decide (c.area ≤ c.idx (s.thread gid l).pc)
              | none => false
            match ends, (ends.head?.bind fun l => (s.thread gid l).clause) with
            | _ :: _, some c => s.leave gid ends fun _ => c.after
            | _, _ => s
  | _, _ => s

/-- Whether an exiting thread's frame can be freed now: its page is present (R78, R320). -/
def State.frameAway (s : State) (gid l : Nat) : Bool :=
  match s.group? gid with
  | none => false
  | some g => match (g.thread l).hnd with
    | some h => !g.inFrame h.frame [l] && s.away g.ctx h.frame
    | none => false

/-- Frees a frame when a thread exits in a handler and no lane of its sub-group is still there (R78, R145, R151). -/
def State.freeFrame (s : State) (gid l : Nat) : State :=
  match s.group? gid with
  | none => s
  | some g =>
    match (g.thread l).hnd with
    | none => s
    | some h =>
      match (s.modThread gid l fun t => { t with hnd := none }).freed g h.frame [l] with
      | .error e => s.fatal gid (match e with
        | .cause c => c
        | .notPresent => .translation)
      | .ok s => s

/-! ## The slot of an instruction (R21, R44, R51, R66) -/

/-- What an instruction did in one thread. -/
inductive LaneRes where
  | next
  | trap (c : Cause) (addr : Nat)
  | recover (c : Cause) (addr : Nat)
  | jump (pc : Nat)
  | wait (w : Wait)
  | stall (r : Stall)
  /-- The slice waits with this thread's slot for a place in the matrix engine; the execution it belongs to (R218). -/
  | hold (ex : Nat)
  | gone
  deriving DecidableEq, Repr

/-- Whether a thread's `RESTRIPE` names a page without user re-stripe permission, in user mode (R65, R187). -/
def State.restripeDenied (s : State) (g : Group) (l : Nat) (a : Opnd) : Bool :=
  a.srcOk 2 && !s.sysMode g.ctx &&
    let gid := ((s.groups.find? fun e => decide (e.2 = g)).map Prod.fst).getD 0
    let va := (s.src64 gid l a false).toNat
    vaOk va && (s.remote? va).isNone && (match s.rawLeaf g.ctx va with
      | some f => !f.w0.getLsbD 6
      | none => false)

/-- The checks of R65 and R66 that depend on more than the word: in order, `ILLEGAL_INSTRUCTION`, `PRIVILEGED`,
`ILLEGAL_OPERAND`. -/
def State.check (s : State) (i : Instr) (g : Group) (l : Nat) : Option Cause :=
  let t := g.thread l
  let mtx := (s.team? g.team).any Team.mtx
  let illegal : Bool := match i with
    | .rft _ => t.hnd.isNone
    | .suspend p _ _ => p.sp.isNone || t.hnd.isSome || g.kind ≠ .plain
    | .qpush _ _ _ _ => (match g.kind with
      | .shadow _ => false
      | _ => true)
    | .qpop _ _ _ _ => (match g.kind with
      | .compute _ => false
      | _ => true)
    | .shfl _ x _ _ _ => decide (g.w / 2 < 2 ^ x.seg.toNat)
    | i => i.page == 3 && !mtx
  let denied : Bool := match i with
    | .restripe _ _ _ a _ => s.restripeDenied g l a
    | _ => false
  if illegal then some .illegalInstruction
  else if (i.privileged && !s.sysMode g.ctx) || denied then some .privileged
  else if !i.opndOk g.w then some .illegalOperand
  else none

/-- Groups lanes by instruction and cause and takes one trap for each, in the order of their lowest lanes (R75). -/
def State.trapLanes (s : State) (gid : Nat) (cls : TrapClass) : Nat → List (Nat × Cause × Nat) → State
  | 0, _ => s
  | fuel + 1, ls =>
    match ls with
    | [] => s
    | (l, c, a) :: _ =>
      let pc := (s.thread gid l).pc
      let same (e : Nat × Cause × Nat) : Bool := e.2.1 = c && (s.thread gid e.1).pc = pc
      (s.trapAt gid ((ls.filter same).map Prod.fst) c cls a).trapLanes gid cls fuel (ls.filter fun e => !same e)

/-- The cycle in which a slice can begin a slot. -/
def State.sliceNow (s : State) (g : Group) : Nat :=
  max (Map.get (s.core g.core).busy g.slice 0) (s.cyc (pairOf g.core))

/-- A slice waits with a slot and with what it still has to issue (R35). -/
def State.holdSlice (s : State) (port : Bool) (at_ : Nat) (sl : Slot) : State :=
  match s.group? sl.gid with
  | none => s
  | some g =>
    { s.modCore g.core fun c => { c with held := Map.put g.slice ⟨sl :: s.issue, port, at_⟩ c.held } with issue := [] }

def Stall.isPage (x : Stall) : Bool :=
  match x with
  | .page _ => true
  | _ => false

/-- Whether a wait is for a page that is not present: the thread is parked (R320). -/
def Wait.onPage (w : Wait) : Bool :=
  match w with
  | .stall x => x.isPage
  | _ => false

/-- Puts the results of a path's threads into effect: stalls hold the whole path; traps are taken; the others jump, wait
or go on, or the slice waits with them. `off` are the guard-false threads, which go on, or stay while others wait (DESIGN CHOICE, log entry 12). -/
def State.finish (s : State) (gid : Nat) (off : List Nat) (rs : List (Nat × LaneRes)) : State :=
  match rs.findSome? fun r => match r.2 with | .stall x => some x | _ => none with
  | some x =>
    (off ++ rs.map Prod.fst).foldl (fun s l => s.modThread gid l fun t =>
      { t with wait := some (.stall x), parked := t.parked || x.isPage }) s
  | none =>
    let waiters := rs.filterMap fun r => match r.2 with | .wait w => some (r.1, w) | _ => none
    let s := waiters.foldl (fun s w => s.modThread gid w.1 fun t =>
      { t with wait := some w.2, parked := t.parked || w.2.onPage, lost := [] }) s
    let s := match waiters.filter fun w => match w.2 with | .stall _ => false | _ => true with
      | [] => s.advance gid off
      | (l, _) :: _ => off.foldl (fun s o => s.modThread gid o fun t => { t with wait := some (.withPath l) }) s
    let traps := rs.filterMap fun r => match r.2 with | .trap c a => some (r.1, c, a) | _ => none
    let recs := rs.filterMap fun r => match r.2 with | .recover c a => some (r.1, c, a) | _ => none
    let s := s.trapLanes gid .precise (traps.length + 1) traps
    let s := s.trapLanes gid .recoverable (recs.length + 1) recs
    let jumps := rs.filterMap fun r => match r.2 with | .jump pc => some (r.1, pc) | _ => none
    let s := if jumps.isEmpty then s else
      s.leave gid (jumps.map Prod.fst) fun l => ((jumps.find? fun j => j.1 = l).map Prod.snd).getD 0
    let s := s.advance gid (rs.filterMap fun r => match r.2 with | .next => some r.1 | _ => none)
    let kept := rs.filterMap fun r => match r.2 with | .hold ex => some (r.1, ex) | _ => none
    match kept, s.cur, s.group? gid with
    | (_, ex) :: _, some sl, some g =>
      s.holdSlice false (s.cyc (pairOf g.core)) { sl with lanes := kept.map Prod.fst, ex := some ex }
    | _, _, _ => s

/-- Runs `f` for each lane, in lane order. -/
def runLanes (f : State → Nat → State × LaneRes) (s : State) (ls : List Nat) : State × List (Nat × LaneRes) :=
  ls.foldl (fun r l =>
    let (s, x) := f r.1 l
    (s, r.2 ++ [(l, x)])) (s, [])

/-- A read of the timer as an operand latches `RTIME_HI` for the reading threads (R152). -/
def State.latchRtime (s : State) (gid : Nat) (ls : List Nat) : State :=
  ls.foldl (fun s l => s.modThread gid l fun t => { t with rtimeHi := some (BitVec.ofNat 32 (s.tickOf gid l / 2 ^ 32)) }) s

/-- The results of a path's threads in lane order, those that failed a check among them. -/
def insertRes (r : Nat × LaneRes) : List (Nat × LaneRes) → List (Nat × LaneRes)
  | [] => [r]
  | x :: xs => if r.1 < x.1 then r :: x :: xs else x :: insertRes r xs

/-- Executes an instruction in the current slot: the checks, the guard, then `body` over the executing threads with the
group as it stands. The threads that fail a check trap with those that trap in the body, the lowest lane first (R75). -/
def inSlot (i : Instr) (p : Pre) (s : State) (body : State → Slot → Group → List Nat → State × List (Nat × LaneRes)) : Out :=
  match s.cur with
  | none => .next s
  | some c =>
    match s.group? c.gid with
    | none => .next s
    | some g =>
      let bad := c.lanes.filterMap fun l => (s.check i g l).map fun x => (l, LaneRes.trap x 0)
      let ok := c.lanes.filter fun l => (s.check i g l).isNone
      let on := ok.filter fun l => g.guard p.g l
      let off := ok.filter fun l => !g.guard p.g l
      match on with
      | [] => .next (s.finish c.gid off bad)
      | _ :: _ =>
        let s := if i.readsRtime g.w then s.latchRtime c.gid on else s
        let (s, rs) := body s c g on
        .next (s.finish c.gid off (bad.foldl (fun rs r => insertRes r rs) rs))

/-- Executes per thread, or once for the path where R51 says so: `f` then runs for the lowest executing thread and its
result holds for all of them. -/
def perLane (i : Instr) (f : State → Nat → Nat → State × LaneRes) (s : State) (c : Slot) (g : Group) (on : List Nat) :
    State × List (Nat × LaneRes) :=
  if (i.need g.w).perPath then
    match on with
    | [] => (s, [])
    | l :: _ =>
      let (s, r) := f s c.gid l
      (s, on.map fun l => (l, r))
  else runLanes (fun s l => f s c.gid l) s on

/-- Maps the destination's names before the instruction issues; a path that must wait for a block stalls (R26, R27). -/
def withNames (i : Instr) (body : State → Slot → Group → List Nat → State × List (Nat × LaneRes))
    (s : State) (c : Slot) (g : Group) (on : List Nat) : State × List (Nat × LaneRes) :=
  let names := match (i.need g.w).dst with
    | some (d, n) => d.vnames n
    | none => []
  match s.mapNames c.gid names with
  | some s => body s c g on
  | none => (s, on.map fun l => (l, .stall (.block 1)))

/-- An instruction that reads registers and writes `n` registers from `d`, raising the flags that `f` gives; an enabled
flag takes `FP` and writes nothing (R112, R198, R249). -/
def alu (i : Instr) (p : Pre) (d : Opnd) (f : State → Nat → Nat → List Word × Flags) (s : State) : Out :=
  inSlot i p s (withNames i (perLane i fun s gid l =>
    let (ws, fl) := f s gid l
    let s := s.raise gid fl
    match s.fpTrap? gid fl with
    | some c => (s, .trap c 0)
    | none => (s.dstRun gid l d ws, .next)))

/-- Whether earlier loads, stores, atomics or multicasts of the thread have still to be performed, so that a release waits for
them. -/
def State.storesPending (s : State) (gid l : Nat) : Bool :=
  (s.unsettled gid l).any fun e => match e.2.kind with
    | .load _ _ _ _ | .store _ _ _ | .atom _ _ _ _ _ _ _ _ | .mcst _ => true
    | _ => false

/-- Whether an operation acts as an acquire that later operations of its threads wait for. -/
def Op.isAcquire (o : Op) : Bool :=
  (o.ord = .acq || o.ord = .ar) && (match o.kind with
    | .load _ _ _ _ | .atom _ _ _ _ _ _ _ _ | .rload _ => true
    | _ => false)

/-- Whether a scratchpad access of the thread, which is performed at issue, comes too early: an acquire before it has still to
be performed, or a held access to scratchpad (R91). -/
def State.orderPending (s : State) (gid l : Nat) : Bool :=
  (s.unsettled gid l).any fun e => e.2.isAcquire || match e.2.kind with
    | .load .scratch _ _ _ | .store .scratch _ _ | .atom .scratch _ _ _ _ _ _ _ => true
    | _ => false

/-- A path whose threads hold 1,024 unsettled operations issues no further one (R69). -/
def underLimit (body : State → Slot → Group → List Nat → State × List (Nat × LaneRes))
    (s : State) (c : Slot) (g : Group) (on : List Nat) : State × List (Nat × LaneRes) :=
  if on.any fun l => decide (1024 ≤ (s.unsettled c.gid l).length) then (s, on.map fun l => (l, .stall .limit)) else body s c g on

/-- Where an instruction is a release (R91, R99), the path waits until its threads' earlier accesses have been performed. -/
def afterStores (body : State → Slot → Group → List Nat → State × List (Nat × LaneRes))
    (s : State) (c : Slot) (g : Group) (on : List Nat) : State × List (Nat × LaneRes) :=
  if on.any fun l => s.storesPending c.gid l then (s, on.map fun l => (l, .stall .stores)) else body s c g on

/-! ## Issuing operations (R69, R9, R25) -/

/-- The clause header under which a slot's lanes execute. -/
def State.slotHeader (s : State) (c : Slot) : Option Header :=
  (c.lanes.head?.bind fun l => (s.thread c.gid l).clause).map Clause.header

/-- The flags of the clause for an operation that counts on `SETA`, on `SETB`. -/
def State.opFlags (s : State) (c : Slot) (a b : Bool) : Option Nat × Option Nat :=
  match s.slotHeader c with
  | some h => (if a then h.seta else none, if b then h.setb else none)
  | none => (none, none)

/-- The stall that holds back the issue of an operation for the executing threads: a full flag or the limit of 1,024. -/
def State.issueStall (s : State) (c : Slot) (on : List Nat) (a b : Bool) : Option Stall :=
  match s.group? c.gid with
  | none => none
  | some g =>
    let (fa, fb) := s.opFlags c a b
    let full (f : Option Nat) : Option Stall := match f with
      | some k => if 255 ≤ g.flag k + (if fa = fb then 1 else 0) then some (.flag k) else none
      | none => none
    match full fa, full fb with
    | some x, _ => some x
    | none, some x => some x
    | none, none => if on.any fun l => decide (1024 ≤ (s.unsettled c.gid l).length) then some .limit else none

/-- The execution's rise of its flags, once for the group (R9). -/
def State.raiseFlags (s : State) (c : Slot) (a b : Bool) : State :=
  let (fa, fb) := s.opFlags c a b
  let up (s : State) (f : Option Nat) : State := match f with
    | some k => s.modGroup c.gid fun g => g.setFlag k (g.flag k + 1)
    | none => s
  up (up s fa) fb

/-- The last lane of an execution has been issued: a flag that every lane has completed already falls (R9). -/
def State.closeEx (s : State) (gid ex : Nat) (fl : Option Nat × Option Nat) : State :=
  let s := { s with opening := s.opening.erase ex }
  let s := match fl.1 with
    | some f => if s.ops.any fun e => e.2.ex = ex && e.2.gid = gid && e.2.seta = some f then s else s.lowerFlag gid ex f
    | none => s
  match fl.2 with
  | some f => if s.ops.any fun e => e.2.ex = ex && e.2.gid = gid && e.2.setb = some f then s else s.lowerFlag gid ex f
  | none => s

/-- An execution issues its operations: its flags rise once, and fall no earlier than its last lane has been issued (R9). -/
def State.executing (s : State) (c : Slot) (ex : Nat) (a b : Bool) (f : State → State) : State :=
  let t := s.raiseFlags c a b
  (f { t with opening := ex :: t.opening }).closeEx c.gid ex (s.opFlags c a b)

/-- Gives the lanes their sequence numbers: `s := OPC`, `OPC := OPC + 1` (R69). -/
def State.number (s : State) (gid : Nat) (ls : List Nat) : List (Nat × Word) × State :=
  (ls.map fun l => (l, (s.thread gid l).opc),
    ls.foldl (fun s l => s.modThread gid l fun t => { t with opc := t.opc + 1 }) s)

/-- Whether an operation is held (R73): release order, `.H`, a release fence in force, a paired team. -/
def State.mustHold (s : State) (g : Group) (l : Nat) (ord : Ord) (h ordered : Bool) : Bool :=
  ord = .rel || ord = .ar || h || (ordered && (g.thread l).relFence.isSome) || (s.team? g.team).any Team.paired

/-- Adds an operation to those in flight and gives its identifier. -/
def State.addOp (s : State) (o : Op) : Nat × State :=
  let (id, s) := s.fresh
  (id, { s with ops := Map.put id o s.ops })

/-- The time that a context's stopped clocks show: they count no ticks under a time-stop (R407). -/
def State.ctxNow (s : State) (ctx : Nat) : Nat := ((s.ctx? ctx).bind Ctx.stopAt).getD s.rtime

/-- The ticks for which a time-stop has covered an operation (R407). -/
def State.stopTicks (s : State) (o : Op) : Nat :=
  o.stop + (match (s.ctx? o.ctx).bind Ctx.stopAt with
    | some t => s.rtime - max t o.issue
    | none => 0)

end Sys2Proof.Machine
end

