-- ==== Sys2Proof/Machine/Fp.lean ====
section
/-!
DEFINITION. Sys2Proof/Machine/Fp.lean: the number formats and the arithmetic on them (R194 to R209). Codes are natural
numbers; a value is read exactly, computed exactly and rounded once.
-/

namespace Sys2Proof.Machine

/-- What a code stands for: `fin neg m e` is (−1)^neg · m · 2^e. -/
inductive FVal where
  | nan (signalling : Bool)
  | inf (neg : Bool)
  | fin (neg : Bool) (m : Nat) (e : Int)
  deriving DecidableEq, Repr

/-- An IEEE format: the widths of the exponent and of the fraction (R194, R208). -/
structure Fmt where
  eb : Nat
  fb : Nat
  deriving DecidableEq, Repr

namespace Fmt

def f64 : Fmt := ⟨11, 52⟩
def f32 : Fmt := ⟨8, 23⟩
def bf16 : Fmt := ⟨8, 7⟩
def f16 : Fmt := ⟨5, 10⟩
def c40 : Fmt := ⟨10, 29⟩

def bias (f : Fmt) : Nat := 2 ^ (f.eb - 1) - 1
/-- The exponent of the least significant bit of a subnormal. -/
def qmin (f : Fmt) : Int := 1 - (f.bias : Int) - f.fb
def signBit (f : Fmt) : Nat := 2 ^ (f.eb + f.fb)
def infCode (f : Fmt) : Nat := (2 ^ f.eb - 1) * 2 ^ f.fb
def maxCode (f : Fmt) : Nat := f.infCode - 1
def nanCode (f : Fmt) : Nat := f.infCode + 2 ^ (f.fb - 1)
def signed (f : Fmt) (neg : Bool) (c : Nat) : Nat := if neg then f.signBit + c else c

/-- The value of a code. -/
def read (f : Fmt) (c : Nat) : FVal :=
  let neg := f.signBit ≤ c
  let x := c % f.signBit
  let ex := x / 2 ^ f.fb
  let fr := x % 2 ^ f.fb
  if ex = 2 ^ f.eb - 1 then
    if fr = 0 then .inf neg else .nan (decide (fr < 2 ^ (f.fb - 1)))
  else if ex = 0 then .fin neg fr f.qmin
  else .fin neg (2 ^ f.fb + fr) (f.qmin + (ex - 1))

end Fmt

/-! ## Rounding (R196, R197) -/

/-- m · 2^−sh rounded to an integer in a mode, and whether it was inexact. -/
def roundShift (rm : Rm) (neg : Bool) (m sh : Nat) : Nat × Bool :=
  let q := m / 2 ^ sh
  let r := m % 2 ^ sh
  let up : Bool := match rm with
    | .rne => decide (2 ^ sh < 2 * r) || (decide (2 * r = 2 ^ sh) && q % 2 == 1 && r ≠ 0)
    | .rtz => false
    | .rup => !neg && r ≠ 0
    | .rdn => neg && r ≠ 0
  (if up then q + 1 else q, r ≠ 0)

/-- m · 2^e as a multiple of 2^q. -/
def roundAt (rm : Rm) (neg : Bool) (m : Nat) (e q : Int) : Nat × Bool :=
  if q ≤ e then (m * 2 ^ (e - q).toNat, false) else roundShift rm neg m (q - e).toNat

/-- Rounds a non-zero m · 2^e into a format: the code without its sign, and the flags. `sat` gives the largest finite
value on overflow. Tininess is judged after rounding. -/
def Fmt.roundPos (f : Fmt) (rm : Rm) (sat neg : Bool) (m : Nat) (e : Int) : Nat × Flags :=
  let top := e + (Nat.log2 m : Int)
  let q := max (top - f.fb) f.qmin
  let (n, inexact) := roundAt rm neg m e q
  let code := (q - f.qmin).toNat * 2 ^ f.fb + n
  if f.infCode ≤ code then
    let toMax := sat || rm = .rtz || (rm = .rup && neg) || (rm = .rdn && !neg)
    (if toMax then f.maxCode else f.infCode, flOF ||| flNX)
  else
    let emin := f.qmin + f.fb
    let n1 := (roundAt rm neg m e (top - f.fb)).1
    let tiny := top < emin && !(top = emin - 1 && n1 = 2 ^ (f.fb + 1))
    (code, (if inexact then flNX else 0) ||| (if inexact && tiny then flUF else 0))

/-- A value into a format, rounded once; a signalling NaN raises NV. -/
def Fmt.round (f : Fmt) (rm : Rm) (sat : Bool) : FVal → Nat × Flags
  | .nan sig => (f.nanCode, if sig then flNV else 0)
  | .inf neg => (f.signed neg f.infCode, 0)
  | .fin neg m e =>
    if m = 0 then (f.signed neg 0, 0)
    else
      let (c, fl) := f.roundPos rm sat neg m e
      (f.signed neg c, fl)

/-! ## Exact arithmetic on values -/

namespace FVal

def isNan : FVal → Bool
  | .nan _ => true
  | .inf _ | .fin _ _ _ => false

/-- NV for a signalling operand. -/
def sig : FVal → Flags
  | .nan true => flNV
  | .nan false | .inf _ | .fin _ _ _ => 0

def neg? : FVal → Bool
  | .nan _ => false
  | .inf n | .fin n _ _ => n

def isZero : FVal → Bool
  | .fin _ m _ => m == 0
  | .nan _ | .inf _ => false

def negate : FVal → FVal
  | .nan s => .nan s
  | .inf n => .inf !n
  | .fin n m e => .fin (!n) m e

def one : FVal := .fin false 1 0
def ofInt (v : Int) : FVal := .fin (decide (v < 0)) v.natAbs 0

/-- The signed mantissa at a lower exponent. -/
def scaled (n : Bool) (m : Nat) (e q : Int) : Int :=
  let k : Int := (m * 2 ^ (e - q).toNat : Nat)
  if n then -k else k

/-- Exact sum; an exact zero of opposite signs is −0 under RDN only. The flags are those of an invalid operation. -/
def add (rm : Rm) (a b : FVal) : FVal × Flags :=
  match a, b with
  | .nan _, _ | _, .nan _ => (.nan false, a.sig ||| b.sig)
  | .inf x, .inf y => if x = y then (.inf x, 0) else (.nan false, flNV)
  | .inf x, .fin _ _ _ => (.inf x, 0)
  | .fin _ _ _, .inf y => (.inf y, 0)
  | .fin x m e, .fin y n k =>
    let q := min e k
    let v := scaled x m e q + scaled y n k q
    if v = 0 then (.fin (if x = y then x else rm = .rdn) 0 q, 0) else (.fin (decide (v < 0)) v.natAbs q, 0)

/-- Exact product. -/
def mul (a b : FVal) : FVal × Flags :=
  match a, b with
  | .nan _, _ | _, .nan _ => (.nan false, a.sig ||| b.sig)
  | .inf x, .inf y => (.inf (x != y), 0)
  | .inf x, .fin y n _ => if n = 0 then (.nan false, flNV) else (.inf (x != y), 0)
  | .fin x m _, .inf y => if m = 0 then (.nan false, flNV) else (.inf (x != y), 0)
  | .fin x m e, .fin y n k => (.fin (x != y) (m * n) (e + k), 0)

/-- a·b + c exactly (R252). -/
def fma (rm : Rm) (a b c : FVal) : FVal × Flags :=
  let (p, f) := mul a b
  let (r, g) := add rm p c
  (r, f ||| g)

/-- The order of two values that are no NaN. −0 equals +0. -/
def cmp (a b : FVal) : Ordering :=
  match a, b with
  | .nan _, _ | _, .nan _ => .eq
  | .inf x, .inf y => if x = y then .eq else if x then .lt else .gt
  | .inf x, .fin _ _ _ => if x then .lt else .gt
  | .fin _ _ _, .inf y => if y then .gt else .lt
  | .fin x m e, .fin y n k =>
    let q := min e k
    compare (scaled x m e q) (scaled y n k q)

/-- Less than in the order of minimumNumber, where −0 is below +0. -/
def below (a b : FVal) : Bool :=
  match cmp a b with
  | .lt => true
  | .gt => false
  | .eq => a.neg? && !b.neg?

end FVal

/-- A binary operation of a format. -/
def Fmt.add (f : Fmt) (rm : Rm) (a b : Nat) : Nat × Flags :=
  let (v, fl) := FVal.add rm (f.read a) (f.read b)
  let (c, g) := f.round rm false v
  (c, fl ||| g)

def Fmt.neg (f : Fmt) (a : Nat) : Nat := if f.signBit ≤ a then a - f.signBit else a + f.signBit

def Fmt.sub (f : Fmt) (rm : Rm) (a b : Nat) : Nat × Flags := f.add rm a (f.neg b)

def Fmt.mul (f : Fmt) (rm : Rm) (a b : Nat) : Nat × Flags :=
  let (v, fl) := FVal.mul (f.read a) (f.read b)
  let (c, g) := f.round rm false v
  (c, fl ||| g)

def Fmt.fma (f : Fmt) (rm : Rm) (a b c : Nat) : Nat × Flags :=
  let (v, fl) := FVal.fma rm (f.read a) (f.read b) (f.read c)
  let (r, g) := f.round rm false v
  (r, fl ||| g)

/-- minimumNumber (`up` false) and maximumNumber (R195): the code of the operand chosen. -/
def Fmt.minmax (f : Fmt) (up : Bool) (a b : Nat) : Nat × Flags :=
  let x := f.read a
  let y := f.read b
  let fl := x.sig ||| y.sig
  match x.isNan, y.isNan with
  | true, true => (f.nanCode, fl)
  | true, false => (b, fl)
  | false, true => (a, fl)
  | false, false => (if FVal.below x y then (if up then b else a) else (if up then a else b), fl)

/-- `SAT` on a float type (R250): clamped to [+0, 1], a NaN becomes +0. -/
def Fmt.clamp01 (f : Fmt) (c : Nat) : Nat :=
  match f.read c with
  | .nan _ => 0
  | v =>
    if FVal.cmp v FVal.one = .gt then (f.round .rne false FVal.one).1
    else if v.neg? || v.isZero then 0 else c

/-- Condition codes on floats (R57, R254). -/
def Fmt.cond (f : Fmt) (cc : CC) (a b : Nat) : Bool × Flags :=
  let x := f.read a
  let y := f.read b
  let un := x.isNan || y.isNan
  let o := FVal.cmp x y
  let r : Bool := match cc with
    | .eq => !un && o = .eq
    | .ne => un || o ≠ .eq
    | .lt => !un && o = .lt
    | .le => !un && o ≠ .gt
    | .gt => !un && o = .gt
    | .ge => !un && o ≠ .lt
    | .ord => !un
    | .unord => un
  (r, x.sig ||| y.sig)

/-- Rounds to an integral value in the own format (R255). -/
def Fmt.integral (f : Fmt) (rm : Rm) (a : Nat) : Nat × Flags :=
  match f.read a with
  | .nan s => (f.nanCode, if s then flNV else 0)
  | .inf _ => (a, 0)
  | .fin n m e =>
    if 0 ≤ e then (a, 0) else (f.round .rne false (.fin n (roundAt rm n m e 0).1 0) |>.1, 0)

/-- The ten classes of R255. -/
def Fmt.classify (f : Fmt) (a : Nat) : Nat :=
  match f.read a with
  | .nan true => 2 ^ 8
  | .nan false => 2 ^ 9
  | .inf n => if n then 2 ^ 0 else 2 ^ 7
  | .fin n m _ =>
    if m = 0 then (if n then 2 ^ 3 else 2 ^ 4)
    else if m < 2 ^ f.fb then (if n then 2 ^ 2 else 2 ^ 5)
    else (if n then 2 ^ 1 else 2 ^ 6)

/-! ## Quotients and roots -/

/-- a / b as a mantissa with a sticky bit below at least 128 quotient bits. -/
def divSticky (a b : Nat) (e : Int) : Nat × Int :=
  let sh := 128 + Nat.log2 b
  let n := a * 2 ^ sh
  (2 * (n / b) + (if n % b = 0 then 0 else 1), e - sh - 1)

/-- Integer square root by `fuel` halvings of a bracket. -/
def isqrtGo : Nat → Nat → Nat → Nat → Nat
  | 0, _, lo, _ => lo
  | fuel + 1, n, lo, hi =>
    let mid := (lo + hi + 1) / 2
    if mid * mid ≤ n then isqrtGo fuel n mid hi else isqrtGo fuel n lo (mid - 1)

def isqrt (n : Nat) : Nat := isqrtGo (Nat.log2 n + 2) n 0 (2 ^ (Nat.log2 n / 2 + 1))

/-- The quotient, correctly rounded (R216, R259). -/
def Fmt.div (f : Fmt) (rm : Rm) (a b : Nat) : Nat × Flags :=
  match f.read a, f.read b with
  | .nan s, y => (f.nanCode, (FVal.nan s).sig ||| y.sig)
  | x, .nan s => (f.nanCode, x.sig ||| (FVal.nan s).sig)
  | .inf _, .inf _ => (f.nanCode, flNV)
  | .inf x, .fin y _ _ => (f.signed (x != y) f.infCode, 0)
  | .fin x _ _, .inf y => (f.signed (x != y) 0, 0)
  | .fin x m e, .fin y n k =>
    if n = 0 then
      if m = 0 then (f.nanCode, flNV) else (f.signed (x != y) f.infCode, flDZ)
    else if m = 0 then (f.signed (x != y) 0, 0)
    else
      let (q, ex) := divSticky m n (e - k)
      f.round rm false (.fin (x != y) q ex)

/-- The square root, correctly rounded RNE. -/
def Fmt.sqrt (f : Fmt) (a : Nat) : Nat × Flags :=
  match f.read a with
  | .nan s => (f.nanCode, if s then flNV else 0)
  | .inf n => if n then (f.nanCode, flNV) else (a, 0)
  | .fin n m e =>
    if m = 0 then (a, 0)
    else if n then (f.nanCode, flNV)
    else
      let sh : Nat := 256 + (if (e + 256) % 2 = 0 then 0 else 1)
      let v := m * 2 ^ sh
      let r := isqrt v
      f.round .rne false (.fin false (2 * r + (if r * r = v then 0 else 1)) ((e - (sh : Nat)) / 2 - 1))

/-! ## Narrow formats (R199 to R203) -/

/-- A narrow format: exponent and fraction widths, bias. -/
structure NFmt where
  eb : Nat
  mb : Nat
  bias : Nat
  deriving DecidableEq, Repr

namespace NFmt

def nf8 : NFmt := ⟨4, 3, 7⟩
def nf8w : NFmt := ⟨5, 2, 15⟩
def nf6 : NFmt := ⟨3, 2, 3⟩
def nf4 : NFmt := ⟨2, 1, 1⟩

def signBit (f : NFmt) : Nat := 2 ^ (f.eb + f.mb)
def largest (f : NFmt) : Nat := f.signBit - 1

/-- The exponent of the least significant fraction bit in a code's own binade. -/
def ulpExp (f : NFmt) (c : Nat) : Int := ((c / 2 ^ f.mb : Nat) : Int) - f.bias - f.mb

/-- The value of a code: zero and NaN are the two exceptions. -/
def read (f : NFmt) (c : Nat) : FVal :=
  let x := c % f.signBit
  if x = 0 then (if c = 0 then .fin false 0 0 else .nan false)
  else .fin (decide (f.signBit ≤ c)) (2 ^ f.mb + x % 2 ^ f.mb) (f.ulpExp x)

/-- The largest code whose magnitude is at most m·2^e, which is below the largest. -/
def floorCode (f : NFmt) (m : Nat) (e : Int) : Nat :=
  if FVal.cmp (.fin false m e) (f.read 1) = .lt then 0
  else
    let top := e + (Nat.log2 m : Int)
    let n := (roundAt .rtz false m e (top - f.mb)).1
    (top + f.bias).toNat * 2 ^ f.mb + (n - 2 ^ f.mb)

/-- `RoundNF` (R202). -/
def round (f : NFmt) : FVal → Nat × Flags
  | .nan s => (f.signBit, if s then flNV else 0)
  | .inf n => ((if n then f.signBit else 0) + f.largest, flOF ||| flNX)
  | .fin n m e =>
    if m = 0 then (0, 0)
    else
      let a : FVal := .fin false m e
      let sgn (c : Nat) : Nat := if c ≠ 0 && n then c + f.signBit else c
      match FVal.cmp a (f.read f.largest) with
      | .gt => (sgn f.largest, flOF ||| flNX)
      | .eq => (sgn f.largest, 0)
      | .lt =>
        let c := f.floorCode m e
        if FVal.cmp a (f.read c) = .eq then (sgn c, 0)
        else
          let mid := (FVal.add .rne (f.read c) (f.read (c + 1))).1
          let r := match FVal.cmp (.fin false (2 * m) e) mid with
            | .lt => c
            | .gt => c + 1
            | .eq => if c % 2 = 0 then c else c + 1
          (sgn r, if r = 0 then flUF ||| flNX else flNX)

end NFmt

/-! ## Conversions to and from integers (R203) -/

/-- A value rounded to an integer and clamped: NV alone where it does not fit, NX where it was not integral. -/
def FVal.toInt (rm : Rm) (lo hi : Int) : FVal → Int × Flags
  | .nan _ => (0, flNV)
  | .inf n => (if n then lo else hi, flNV)
  | .fin n m e =>
    let (k, inexact) := roundAt rm n m e 0
    let v : Int := if n then -(k : Int) else k
    if v < lo then (lo, flNV) else if hi < v then (hi, flNV) else (v, if inexact then flNX else 0)

/-- ⌊log2⌋ of a positive finite value. -/
def FVal.ilog2 : FVal → Int
  | .fin _ m e => e + (Nat.log2 m : Int)
  | .nan _ | .inf _ => 0

/-- A value times 2^k. -/
def FVal.scale (k : Int) : FVal → FVal
  | .fin n m e => .fin n m (e + k)
  | .nan s => .nan s
  | .inf n => .inf n

def clampInt (lo hi v : Int) : Int := max lo (min hi v)

/-- v mod 2^n. -/
def wrap (n : Nat) (v : Int) : Nat := (v % ((2 ^ n : Nat) : Int)).toNat

/-- The signed reading of an n-bit number. -/
def sext (n v : Nat) : Int := let x : Nat := v % 2 ^ n; if x < 2 ^ (n - 1) then (x : Int) else (x : Int) - ((2 ^ n : Nat) : Int)

end Sys2Proof.Machine
end

