-- ==== Sys2Proof/Machine/Sfu.lean ====
section
/-!
DEFINITION. Sys2Proof/Machine/Sfu.lean: the special functions (R216, R217, R259). Where the spec gives a bound and no
value, the candidates are the F32 values inside the bound and `Config.sfuPick` chooses one (DESIGN CHOICE, log entry 6). The true value
is found in fixed point with 384 fraction bits.
-/

namespace Sys2Proof.Machine

namespace Sfu

/-- Fraction bits of the fixed point. -/
def P : Nat := 384
def unit : Nat := 2 ^ P
/-- ln 2 and π in fixed point. -/
def ln2 : Nat := 0xb17217f7d1cf79abc9e3b39803f2f6af40f343267298b62d8a0d175b8baafa2be7b876206debac98559552fb4afa1b10
def pi : Nat := 0x3243f6a8885a308d313198a2e03707344a4093822299f31d0082efa98ec4e6c89452821e638d01377be5466cf34e90c6c

/-- A non-negative m · 2^e in fixed point. -/
def fix (m : Nat) (e : Int) : Nat := if 0 ≤ e + P then m * 2 ^ (e + P).toNat else m / 2 ^ (-(e + P)).toNat

/-- Σ t^k / k!. -/
def expSum : Nat → Nat → Nat → Nat → Nat
  | 0, _, _, _ => 0
  | fuel + 1, t, k, term => term + expSum fuel t (k + 1) (term * t / unit / (k + 1))

/-- e^t for 0 ≤ t ≤ 1. -/
def exp1 (t : Nat) : Nat := expSum 100 t 0 unit

/-- Squares `n` times. -/
def squares : Nat → Nat → Nat
  | 0, x => x
  | n + 1, x => squares n (x * x / unit)

/-- e^t for 0 ≤ t < 128. -/
def exp (t : Nat) : Nat := squares 7 (exp1 (t / 128))

/-- Σ (−1)^k θ^(2k+1) / (2k+1)! from a term. -/
def sinSum : Nat → Nat → Nat → Int → Int
  | 0, _, _, _ => 0
  | fuel + 1, sq, k, term =>
    term + sinSum fuel sq (k + 2) (-(term * (sq : Int) / (unit : Int) / (((k + 1) * (k + 2) : Nat) : Int)))

/-- sin(π·r) for a fixed-point r in [0, 1/2]. -/
def sinHalf (r : Nat) : Nat :=
  let th := r * pi / unit
  (sinSum 50 (th * th / unit) 1 (th : Int)).toNat

/-- Σ z^(2k+1) / (2k+1). -/
def atanhSum : Nat → Nat → Nat → Nat → Nat
  | 0, _, _, _ => 0
  | fuel + 1, sq, k, pw => pw / k + atanhSum fuel sq (k + 2) (pw * sq / unit)

/-- log2 of a fixed-point y in [1, 2). -/
def log2Unit (y : Nat) : Nat :=
  let z := (y - unit) * unit / (y + unit)
  2 * atanhSum 125 (z * z / unit) 1 z * unit / ln2

/-- Whether a code lies within `k` ulps of m · 2^e (R216). An ulp is that of the binade in which the true value lies (DESIGN CHOICE,
log entry 6); the code of infinity stands for 2^128. -/
def within (k m : Nat) (e : Int) (c : Nat) : Bool :=
  let q : Int := if m = 0 then -149 else max (-149) (e + (Nat.log2 m : Int) - 23)
  let close (mc : Nat) (ec : Int) : Bool :=
    let lo := min ec (min e q)
    let a := mc * 2 ^ (ec - lo).toNat
    let b := m * 2 ^ (e - lo).toNat
    decide (max a b - min a b ≤ k * 2 ^ (q - lo).toNat)
  match Fmt.f32.read c with
  | .fin _ mc ec => close mc ec
  | .inf _ => close 1 128
  | .nan _ => false

/-- The value that an inexact result takes: `fn` numbers the function; the true magnitude is m · 2^e (m large); the
bound is 1 ulp, or 2 where `wide`. UF follows the true value, as R259 has it for `EXP2` (DESIGN CHOICE for the others, log entry
6). -/
def pick (fn : Nat) (x : Word) (wide neg : Bool) (m : Nat) (e : Int) : Nat × Flags :=
  let f := Fmt.f32
  if m ≠ 0 && decide (128 ≤ e + (Nat.log2 m : Int)) then (f.signed neg f.infCode, flOF ||| flNX)
  else
    let rd := if m = 0 then 0 else (f.roundPos .rtz false false m e).1
    let k := if wide then 2 else 1
    let cs := ((List.range (3 * k + 2)).map fun i => rd - 2 * k + i).filter (within k m e)
    let c := cs.getD (Config.sfuPick fn x % cs.length) rd
    (f.signed neg c, flNX ||| (if rd < 2 ^ 23 then flUF else 0) ||| (if f.infCode ≤ c then flOF else 0))

/-- The value one unit below 1 as the lower neighbour of a result that lies just below 1. -/
def pickBelowOne (fn : Nat) (x : Word) (neg : Bool) : Nat × Flags := pick fn x true neg (2 ^ 30 - 1) (-30)

def nan (fl : Flags) : Nat × Flags := (Fmt.f32.nanCode, fl)

/-- Whether m is a power of two. -/
def pow2 (m : Nat) : Bool := m = 2 ^ Nat.log2 m

/-- The integral part of a non-negative m · 2^e and whether a fraction is left. -/
def whole (m : Nat) (e : Int) : Nat × Bool := roundAt .rtz false m e 0

def rcp (x : Word) : Nat × Flags :=
  match Fmt.f32.read x.toNat with
  | .nan s => nan (if s then flNV else 0)
  | .inf n => (Fmt.f32.signed n 0, 0)
  | .fin n m e =>
    if m = 0 then (Fmt.f32.signed n Fmt.f32.infCode, flDZ)
    else if pow2 m then Fmt.f32.div .rne 0x3F800000 x.toNat
    else
      let (q, k) := divSticky 1 m (-e)
      pick 0 x false n q k

def rsq (x : Word) : Nat × Flags :=
  match Fmt.f32.read x.toNat with
  | .nan s => nan (if s then flNV else 0)
  | .inf n => if n then nan flNV else (0, 0)
  | .fin n m e =>
    if m = 0 then (Fmt.f32.signed n Fmt.f32.infCode, flDZ)
    else if n then nan flNV
    else
      let top := e + (Nat.log2 m : Int)
      if pow2 m && decide (top % 2 = 0) then Fmt.f32.round .rne false (.fin false 1 (-(top / 2)))
      else
        let sh : Nat := 512 + (if e % 2 = 0 then 0 else 1)
        pick 1 x false false (isqrt (2 ^ sh / m)) ((-e - (sh : Nat)) / 2)

/-- `EXP2` (R216). +∞ gives +∞ and raises no flag; the table of R216 lists no such input (DESIGN CHOICE, log entry 66). -/
def exp2 (x : Word) : Nat × Flags :=
  match Fmt.f32.read x.toNat with
  | .nan s => nan (if s then flNV else 0)
  | .inf n => if n then (0, 0) else (Fmt.f32.infCode, 0)
  | .fin n m e =>
    let (k, frac) := whole m e
    if !frac then
      let ex : Int := if n then -(k : Int) else k
      Fmt.f32.round .rne false (.fin false 1 (clampInt (-400) 400 ex))
    else
      let a := fix m e % unit
      let f := if n then unit - a else a
      let ex : Int := if n then -(k : Int) - 1 else k
      pick 2 x false false (exp1 (f * ln2 / unit)) (clampInt (-400) 400 ex - P)

def log2 (x : Word) : Nat × Flags :=
  match Fmt.f32.read x.toNat with
  | .nan s => nan (if s then flNV else 0)
  | .inf n => if n then nan flNV else (Fmt.f32.infCode, 0)
  | .fin n m e =>
    if m = 0 then (Fmt.f32.signed true Fmt.f32.infCode, flDZ)
    else if n then nan flNV
    else
      let top := e + (Nat.log2 m : Int)
      if pow2 m then Fmt.f32.round .rne false (FVal.ofInt top)
      else
        let v : Int := top * (unit : Int) + (log2Unit (fix m (e - top)) : Int)
        pick 3 x false (decide (v < 0)) v.natAbs (-(P : Int))

/-- x mod 2 in fixed point, for a non-negative x. -/
def mod2 (m : Nat) (e : Int) : Nat := if 1 ≤ e then 0 else fix m e % (2 * unit)

/-- sin(π·r) for r in [0, 2): the sign and the magnitude; the exact values at multiples of 1/2 as integers. -/
def sinTurn (r : Nat) : Bool × Nat :=
  let h := if unit ≤ r then r - unit else r
  (decide (unit ≤ r), sinHalf (if 2 * h ≤ unit then h else unit - h))

def sinpi (x : Word) : Nat × Flags :=
  match Fmt.f32.read x.toNat with
  | .nan s => nan (if s then flNV else 0)
  | .inf _ => nan flNV
  | .fin n m e =>
    let r := mod2 m e
    if r = 0 then (Fmt.f32.signed n 0, 0)
    else if r = unit then (Fmt.f32.signed (!n) 0, 0)
    else if r * 2 = unit then (Fmt.f32.signed n 0x3F800000, 0)
    else if r * 2 = 3 * unit then (Fmt.f32.signed (!n) 0x3F800000, 0)
    else
      let (g, v) := sinTurn r
      pick 4 x true (n != g) v (-(P : Int))

def cospi (x : Word) : Nat × Flags :=
  match Fmt.f32.read x.toNat with
  | .nan s => nan (if s then flNV else 0)
  | .inf _ => nan flNV
  | .fin _ m e =>
    let r := mod2 m e
    if r = 0 then (0x3F800000, 0)
    else if r = unit then (Fmt.f32.signed true 0x3F800000, 0)
    else if r * 2 = unit || r * 2 = 3 * unit then (0, 0)
    else
      let (g, v) := sinTurn ((r + unit / 2) % (2 * unit))
      pick 5 x true g v (-(P : Int))

def tanh (x : Word) : Nat × Flags :=
  match Fmt.f32.read x.toNat with
  | .nan s => nan (if s then flNV else 0)
  | .inf n => (Fmt.f32.signed n 0x3F800000, 0)
  | .fin n m e =>
    if m = 0 then (x.toNat, 0)
    else
      let top := e + (Nat.log2 m : Int)
      if 4 ≤ top then pickBelowOne 6 x n
      else if top < -13 then pick 6 x true n (m * 2 ^ 40 - 1) (e - 40)
      else
        let q := exp (fix m (e + 1))
        pick 6 x true n ((q - unit) * unit / (q + unit)) (-(P : Int))

def sigm (x : Word) : Nat × Flags :=
  match Fmt.f32.read x.toNat with
  | .nan s => nan (if s then flNV else 0)
  | .inf n => if n then (0, 0) else (0x3F800000, 0)
  | .fin n m e =>
    if m = 0 then (0x3F000000, 0)
    else
      let top := e + (Nat.log2 m : Int)
      if n && decide (7 ≤ top) then pick 7 x true false 0 0
      else if !n && decide (5 ≤ top) then pickBelowOne 7 x false
      else
        let q := exp (fix m e)
        pick 7 x true false ((if n then unit else q) * unit / (q + unit)) (-(P : Int))

def sqrt (x : Word) : Nat × Flags := Fmt.f32.sqrt x.toNat
def fdiv (a b : Word) : Nat × Flags := Fmt.f32.div .rne a.toNat b.toNat

end Sfu

end Sys2Proof.Machine
end

