-- ==== Sys2Proof/Machine/Operands.lean ====
section
/-!
DEFINITION. Sys2Proof/Machine/Operands.lean: how the type of an instruction reads its operands: constants, literals and
packed elements (R47 to R49, R63, R113, R249).
-/

namespace Sys2Proof

open Sys2Proof.Machine

/-- The format of a float type. -/
inductive TyFmt where
  | ieee (f : Fmt) | narrow (f : NFmt) | int (bits : Nat) (signed : Bool)
  deriving DecidableEq, Repr

def Ty.fmt : Ty → TyFmt
  | .i32 => .int 32 true | .u32 => .int 32 false
  | .f32 => .ieee .f32 | .bf16x2 => .ieee .bf16 | .f16x2 => .ieee .f16 | .f64 => .ieee .f64
  | .i16x2 => .int 16 true | .i8x4 => .int 8 true | .u8x4 => .int 8 false
  | .i64 => .int 64 true | .u64 => .int 64 false
  | .nf8x4 => .narrow .nf8 | .nf8wx4 => .narrow .nf8w | .nf4x8 => .narrow .nf4

/-- Bits of one element. -/
def Ty.ebits (t : Ty) : Nat := if t.is64 then 64 else 32 / t.elems

/-- The value of constant code 116 + k as an element of a float type: 0, 1, −1, 2, 1/2, 4. -/
def constVal (k : Fin 6) : FVal :=
  match k.val with
  | 0 => .fin false 0 0 | 1 => .fin false 1 0 | 2 => .fin true 1 0 | 3 => .fin false 1 1 | 4 => .fin false 1 (-1)
  | _ => .fin false 1 2

/-- The element that a constant code supplies (R47). -/
def Ty.constElem (t : Ty) (k : Fin 6) : Nat :=
  match t.fmt with
  | .ieee f => (f.round .rne false (constVal k)).1
  | .narrow f => (f.round (constVal k)).1
  | .int n _ => if k.val = 4 then 2 ^ (n - 1) else (const64 k).toNat % 2 ^ n

/-- A number as a signed or unsigned integer of a type. -/
def Ty.toInt (t : Ty) (v : Nat) : Int :=
  match t.fmt with
  | .int n true => sext n v
  | _ => v

/-- The range of an integer type. -/
def Ty.lo (t : Ty) : Int :=
  match t.fmt with
  | .int n true => -((2 ^ (n - 1) : Nat) : Int)
  | _ => 0
def Ty.hi (t : Ty) : Int :=
  match t.fmt with
  | .int n true => ((2 ^ (n - 1) : Nat) : Int) - 1
  | .int n false => ((2 ^ n : Nat) : Int) - 1
  | _ => 0

end Sys2Proof

namespace Sys2Proof.Machine

/-- Packs elements of `b` bits, element 0 lowest. -/
def pack (b : Nat) (es : List Nat) : Nat := es.foldr (fun e a => e % 2 ^ b + 2 ^ b * a) 0

/-- Element `i` of a value of `b`-bit elements. -/
def elemAt (b i v : Nat) : Nat := v / 2 ^ (b * i) % 2 ^ b

/-- Widens an F32 code exactly, keeping a NaN's kind (R48). -/
def widenF32 (w : Word) : Nat :=
  match Fmt.f32.read w.toNat with
  | .nan _ =>
    Fmt.f64.signed (w.getLsbD 31) (Fmt.f64.infCode + w.toNat % 2 ^ 23 * 2 ^ 29)
  | v => (Fmt.f64.round .rne false v).1

/-- One register of a 32-bit or packed type. -/
def State.srcT (s : State) (gid l : Nat) (t : Ty) (o : Opnd) : Nat :=
  match o with
  | .k c => pack t.ebits (List.replicate t.elems (t.constElem c))
  | o => (s.src32 gid l o).toNat

/-- A pair of a 64-bit type. -/
def State.srcT64 (s : State) (gid l : Nat) (t : Ty) (o : Opnd) : Nat :=
  match o, t with
  | .k c, _ => t.constElem c
  | .lit w, .f64 => widenF32 w
  | o, .u64 => (s.src64 gid l o false).toNat
  | o, _ => (s.src64 gid l o true).toNat

/-- One operand of a scalar type of 32 or 64 bits. -/
def State.srcAny (s : State) (gid l : Nat) (t : Ty) (o : Opnd) : Nat :=
  if t.is64 then s.srcT64 gid l t o else s.srcT gid l t o

/-- An F32 operand. -/
def State.srcF (s : State) (gid l : Nat) (o : Opnd) : Nat := s.srcT gid l .f32 o

/-- The registers of a result: one, or a pair. -/
def regsOf (t : Ty) (v : Nat) : List Word := wordsOf t.regs v

end Sys2Proof.Machine
end

