-- ==== Sys2Proof/Machine/Alu.lean ====
section
/-!
DEFINITION. Sys2Proof/Machine/Alu.lean: the integer, bit, predicate and move instructions of page 0 (R112 to R129).
-/

namespace Sys2Proof.Machine

/-! ## The values (R115 to R128) -/

def mulhI (a b : Word) : Word := BitVec.ofInt 32 (a.toInt * b.toInt / 2 ^ 32)
def mulhU (a b : Word) : Word := BitVec.ofNat 32 (a.toNat * b.toNat / 2 ^ 32)
def minI (a b : Word) : Word := if a.toInt ≤ b.toInt then a else b
def maxI (a b : Word) : Word := if a.toInt ≤ b.toInt then b else a
def minU (a b : Word) : Word := if a.toNat ≤ b.toNat then a else b
def maxU (a b : Word) : Word := if a.toNat ≤ b.toNat then b else a

def shl32 (a n : Word) : Word := if 32 ≤ n.toNat then 0 else a <<< n.toNat
def shr32 (a n : Word) : Word := if 32 ≤ n.toNat then 0 else a >>> n.toNat
def sar32 (a n : Word) : Word := a.sshiftRight (min n.toNat 31)
def rol32 (a n : Word) : Word := a.rotateLeft (n.toNat % 32)

/-- The carry-less product in 64 bits. -/
def clmul64 (a b : Word) : DWord :=
  (List.range 32).foldl (fun p i => if b.getLsbD i then p ^^^ (a.zeroExtend 64 <<< i) else p) 0

/-- a·b + c with the modifiers of ALU3, exact and then clamped or wrapped to `n` bits (R118, R119). -/
def mad (sgn : Bool) (n : Nat) (x : Alu3) (a b c : Int) : Nat :=
  let v := (if x.na then -a else a) * (if x.nb then -b else b) + (if x.nc then -c else c)
  let lo : Int := if sgn then -((2 ^ (n - 1) : Nat) : Int) else 0
  let hi : Int := if sgn then ((2 ^ (n - 1) : Nat) : Int) - 1 else ((2 ^ n : Nat) : Int) - 1
  wrap n (if x.sat then clampInt lo hi v else v)

/-- The position and length of a field control word, each at most 32 (R120). -/
def fieldPos (b : Word) : Nat := min (bits b 0 8).toNat 32
def fieldLen (b : Word) : Nat := min (bits b 8 8).toNat 32

def bfe (sgn : Bool) (a b : Word) : Word :=
  let x : DWord := if sgn then a.signExtend 64 else a.zeroExtend 64
  let len := fieldLen b
  let f := (x >>> fieldPos b).toNat % 2 ^ len
  if len = 0 then 0 else if sgn then BitVec.ofInt 32 (sext len f) else BitVec.ofNat 32 f

def bfi (a b c : Word) : Word :=
  let pos := fieldPos b
  let mask := BitVec.ofNat 32 ((2 ^ fieldLen b - 1) * 2 ^ pos)
  (c &&& ~~~mask) ||| (BitVec.ofNat 32 (a.toNat * 2 ^ pos) &&& mask)

/-- A word from its bits. -/
def ofBits (f : Nat → Bool) : Word :=
  BitVec.ofNat 32 ((List.range 32).foldl (fun a i => if f i then a + 2 ^ i else a) 0)

def popc32 (a : Word) : Word := BitVec.ofNat 32 (((List.range 32).filter fun i => a.getLsbD i).length)
def clz32 (a : Word) : Word := if a = 0 then 32 else BitVec.ofNat 32 (31 - Nat.log2 a.toNat)
def brev32 (a : Word) : Word := ofBits fun i => a.getLsbD (31 - i)
def iabs32 (a : Word) : Word := if a.getLsbD 31 then -a else a

def prmt32 (a b c : Word) : Word :=
  BitVec.ofNat 32 (pack 8 ((List.range 4).map fun i =>
    let byte := elemAt 8 (bits c (4 * i) 3).toNat (b ++ a : DWord).toNat
    if c.getLsbD (4 * i + 3) then (if 128 ≤ byte then 255 else 0) else byte))

def lop3 (tt : BitVec 8) (a b c : Word) : Word :=
  ofBits fun j => tt.getLsbD ((a.getLsbD j).toNat + 2 * (b.getLsbD j).toNat + 4 * (c.getLsbD j).toNat)

/-- The conditions of `ICMP`. -/
def icond (cc : CC) (a b : Int) : Bool :=
  match cc with
  | .eq => decide (a = b)
  | .ne => decide (a ≠ b)
  | .lt => decide (a < b)
  | .le => decide (a ≤ b)
  | .gt => decide (b < a)
  | .ge => decide (b ≤ a)
  | .ord => true
  | .unord => false

/-! ## The frames -/

/-- A two-source instruction on words. -/
def alu2 (i : Instr) (p : Pre) (d a b : Opnd) (f : Word → Word → Word) (s : State) : Out :=
  alu i p d (fun s g l => ([f (s.src32 g l a) (s.src32 g l b)], 0)) s

/-- A one-source instruction on words. -/
def alu1 (i : Instr) (p : Pre) (d a : Opnd) (f : Word → Word) (s : State) : Out :=
  alu i p d (fun s g l => ([f (s.src32 g l a)], 0)) s

/-- A three-source instruction on words. -/
def alu3 (i : Instr) (p : Pre) (d a b c : Opnd) (f : Word → Word → Word → Word) (s : State) : Out :=
  alu i p d (fun s g l => ([f (s.src32 g l a) (s.src32 g l b) (s.src32 g l c)], 0)) s

/-- A compare: the pair and the flags. -/
def compareOp (i : Instr) (p : Pre) (k : BitVec 7) (f : State → Nat → Nat → Bool × Flags) (s : State) : Out :=
  inSlot i p s (perLane i fun s gid l =>
    let (c, fl) := f s gid l
    let s := s.raise gid fl
    match s.fpTrap? gid fl with
    | some e => (s, .trap e 0)
    | none => (s.setPair gid k.toNat l c, .next))

/-! ## The instructions -/

def execIadd (p : Pre) (d a b : Opnd) (s : State) : Out := alu2 (.iadd p d a b) p d a b (· + ·) s
def execIsub (p : Pre) (d a b : Opnd) (s : State) : Out := alu2 (.isub p d a b) p d a b (· - ·) s
def execImul (p : Pre) (d a b : Opnd) (s : State) : Out := alu2 (.imul p d a b) p d a b (· * ·) s
def execImulhI (p : Pre) (d a b : Opnd) (s : State) : Out := alu2 (.imulhI p d a b) p d a b mulhI s
def execImulhU (p : Pre) (d a b : Opnd) (s : State) : Out := alu2 (.imulhU p d a b) p d a b mulhU s
def execIminI (p : Pre) (d a b : Opnd) (s : State) : Out := alu2 (.iminI p d a b) p d a b minI s
def execIminU (p : Pre) (d a b : Opnd) (s : State) : Out := alu2 (.iminU p d a b) p d a b minU s
def execImaxI (p : Pre) (d a b : Opnd) (s : State) : Out := alu2 (.imaxI p d a b) p d a b maxI s
def execImaxU (p : Pre) (d a b : Opnd) (s : State) : Out := alu2 (.imaxU p d a b) p d a b maxU s
def execAnd (p : Pre) (d a b : Opnd) (s : State) : Out := alu2 (.and p d a b) p d a b (· &&& ·) s
def execOr (p : Pre) (d a b : Opnd) (s : State) : Out := alu2 (.or p d a b) p d a b (· ||| ·) s
def execXor (p : Pre) (d a b : Opnd) (s : State) : Out := alu2 (.xor p d a b) p d a b (· ^^^ ·) s
def execAndn (p : Pre) (d a b : Opnd) (s : State) : Out := alu2 (.andn p d a b) p d a b (fun x y => x &&& ~~~y) s
def execShl (p : Pre) (d a b : Opnd) (s : State) : Out := alu2 (.shl p d a b) p d a b shl32 s
def execShr (p : Pre) (d a b : Opnd) (s : State) : Out := alu2 (.shr p d a b) p d a b shr32 s
def execSar (p : Pre) (d a b : Opnd) (s : State) : Out := alu2 (.sar p d a b) p d a b sar32 s
def execRol (p : Pre) (d a b : Opnd) (s : State) : Out := alu2 (.rol p d a b) p d a b rol32 s
def execClmul (p : Pre) (d a b : Opnd) (s : State) : Out :=
  alu2 (.clmul p d a b) p d a b (fun x y => (clmul64 x y).extractLsb' 0 32) s
def execClmulh (p : Pre) (d a b : Opnd) (s : State) : Out :=
  alu2 (.clmulh p d a b) p d a b (fun x y => (clmul64 x y).extractLsb' 32 32) s

def execIadd64 (p : Pre) (d a b : Opnd) (s : State) : Out :=
  alu (.iadd64 p d a b) p d (fun s g l => (wordsOf 2 (s.src64 g l a true + s.src64 g l b true).toNat, 0)) s
def execIsub64 (p : Pre) (d a b : Opnd) (s : State) : Out :=
  alu (.isub64 p d a b) p d (fun s g l => (wordsOf 2 (s.src64 g l a true - s.src64 g l b true).toNat, 0)) s

def execImad (p : Pre) (x : Alu3) (d a b : Opnd) (s : State) : Out :=
  alu (.imad p x d a b) p d (fun s g l =>
    let v (o : Opnd) : Int := x.ty.toInt (s.src32 g l o).toNat
    ([BitVec.ofNat 32 (mad (x.ty = .i32) 32 x (v a) (v b) (v x.c))], 0)) s
def execImadw (p : Pre) (x : Alu3) (d a b : Opnd) (s : State) : Out :=
  alu (.imadw p x d a b) p d (fun s g l =>
    let sgn : Bool := x.ty = .i32
    let v (o : Opnd) : Int := x.ty.toInt (s.src32 g l o).toNat
    let c := s.src64 g l x.c sgn
    (wordsOf 2 (mad sgn 64 x (v a) (v b) (if sgn then c.toInt else c.toNat)), 0)) s

def execBfeU (p : Pre) (d a b : Opnd) (s : State) : Out := alu2 (.bfeU p d a b) p d a b (bfe false) s
def execBfeI (p : Pre) (d a b : Opnd) (s : State) : Out := alu2 (.bfeI p d a b) p d a b (bfe true) s
def execBfi (p : Pre) (x : Alu3) (d a b : Opnd) (s : State) : Out := alu3 (.bfi p x d a b) p d a b x.c bfi s
def execPopc (p : Pre) (d a : Opnd) (s : State) : Out := alu1 (.popc p d a) p d a popc32 s
def execClz (p : Pre) (d a : Opnd) (s : State) : Out := alu1 (.clz p d a) p d a clz32 s
def execBrev (p : Pre) (d a : Opnd) (s : State) : Out := alu1 (.brev p d a) p d a brev32 s
def execIabs (p : Pre) (d a : Opnd) (s : State) : Out := alu1 (.iabs p d a) p d a iabs32 s
def execPrmt (p : Pre) (x : Alu3) (d a b : Opnd) (s : State) : Out := alu3 (.prmt p x d a b) p d a b x.c prmt32 s
def execLop3 (p : Pre) (x : Lop3X) (d a b : Opnd) (s : State) : Out := alu3 (.lop3 p x d a b) p d a b x.c (lop3 x.tt) s

def execMov (p : Pre) (d a : Opnd) (s : State) : Out := alu1 (.mov p d a) p d a id s
def execMovi (p : Pre) (d : Opnd) (imm : BitVec 14) (s : State) : Out :=
  alu (.movi p d imm) p d (fun _ _ _ => ([imm.signExtend 32], 0)) s
def execIaddi (p : Pre) (d a : Opnd) (b : BitVec 7) (s : State) : Out :=
  alu1 (.iaddi p d a b) p d a (· + b.signExtend 32) s

def execSel (p : Pre) (x : SelX) (d a b : Opnd) (s : State) : Out :=
  alu (.sel p x d a b) p d (fun s gid l =>
    let on := match s.group? gid with
      | some g => g.pred x.ps.val l
      | none => false
    let o := if on then a else b
    (if x.ty.is64 then wordsOf 2 (s.src64 gid l o true).toNat else [s.src32 gid l o], 0)) s

def execIcmp (p : Pre) (x : CmpX) (d : BitVec 7) (a b : Opnd) (s : State) : Out :=
  compareOp (.icmp p x d a b) p d (fun s g l =>
    let v (o : Opnd) : Int := x.ty.toInt (s.srcAny g l x.ty o)
    (icond x.cc (v a) (v b), 0)) s

def execPlop (p : Pre) (x : PlopX) (d a b : BitVec 7) (s : State) : Out :=
  inSlot (.plop p x d a b) p s (perLane (.plop p x d a b) fun s gid l =>
    (s.modGroup gid fun g =>
      g.setPred d.toNat l (x.tt.getLsbD ((g.pred a.toNat l).toNat + 2 * (g.pred b.toNat l).toNat)), .next))

end Sys2Proof.Machine
end

