-- ==== Sys2Proof/Machine/FloatOps.lean ====
section
/-!
DEFINITION. Sys2Proof/Machine/FloatOps.lean: the floating-point and packed instructions of page 0 and the special
functions of page 6 (R249 to R259).
-/

namespace Sys2Proof.Machine

/-! ## Elements -/

/-- The result of a float operation with `SAT` (R250). -/
def satF (f : Fmt) (sat : Bool) (r : Nat × Flags) : Nat × Flags := (if sat then f.clamp01 r.1 else r.1, r.2)

/-- An operand's sign flipped (R250). -/
def negIf (f : Fmt) (b : Bool) (c : Nat) : Nat := if b then f.neg c else c

/-- a·b + c of a format with the modifiers of ALU3. -/
def fmaX (f : Fmt) (x : Alu3) (a b c : Nat) : Nat × Flags :=
  satF f x.sat (f.fma x.rm (negIf f x.na a) (negIf f x.nb b) (negIf f x.nc c))

/-- The five packed operations of two sources. -/
inductive POp where
  | add | sub | mul | min | max
  deriving DecidableEq, Repr

/-- One element (R253). -/
def packElem (o : POp) (x : Alu2) (a b : Nat) : Nat × Flags :=
  match x.ty.fmt with
  | .ieee f =>
    let a := negIf f x.na a
    let b := negIf f x.nb b
    match o with
    | .add => satF f x.sat (f.add x.rm a b)
    | .sub => satF f x.sat (f.sub x.rm a b)
    | .mul => satF f x.sat (f.mul x.rm a b)
    | .min => satF f x.sat (f.minmax false a b)
    | .max => satF f x.sat (f.minmax true a b)
  | .narrow _ => (0, 0)
  | .int n _ =>
    let a := x.ty.toInt a
    let b := x.ty.toInt b
    let a := if x.na then -a else a
    let b := if x.nb then -b else b
    let v := match o with
      | .add => a + b
      | .sub => a - b
      | .mul => a * b
      | .min => min a b
      | .max => max a b
    (wrap n (if x.sat then clampInt x.ty.lo x.ty.hi v else v), 0)

/-- One element of `PFMA`. -/
def packFma (x : Alu3) (a b c : Nat) : Nat × Flags :=
  match x.ty.fmt with
  | .ieee f => fmaX f x a b c
  | .narrow _ => (0, 0)
  | .int n _ =>
    let v (m : Bool) (y : Nat) : Int := if m then -x.ty.toInt y else x.ty.toInt y
    let r := v x.na a * v x.nb b + v x.nc c
    (wrap n (if x.sat then clampInt x.ty.lo x.ty.hi r else r), 0)

/-- Applies an element function over a register; flags are united. -/
def overElems (t : Ty) (f : Nat → Nat × Flags) : Nat × Flags :=
  let rs := (List.range t.elems).map f
  (pack t.ebits (rs.map Prod.fst), rs.foldl (fun a r => a ||| r.2) 0)

/-! ## Frames -/

/-- A two-source F32 instruction. -/
def fop2 (i : Instr) (p : Pre) (d a b : Opnd) (f : Nat → Nat → Nat × Flags) (s : State) : Out :=
  alu i p d (fun s g l =>
    let (c, fl) := f (s.srcF g l a) (s.srcF g l b)
    ([BitVec.ofNat 32 c], fl)) s

/-- A one-source F32 instruction on its word. -/
def fop1 (i : Instr) (p : Pre) (d a : Opnd) (f : Word → Nat × Flags) (s : State) : Out :=
  alu i p d (fun s g l =>
    let (c, fl) := f (BitVec.ofNat 32 (s.srcF g l a))
    ([BitVec.ofNat 32 c], fl)) s

/-- A two-source F64 instruction. -/
def dop2 (i : Instr) (p : Pre) (d a b : Opnd) (f : Nat → Nat → Nat × Flags) (s : State) : Out :=
  alu i p d (fun s g l =>
    let (c, fl) := f (s.srcT64 g l .f64 a) (s.srcT64 g l .f64 b)
    (wordsOf 2 c, fl)) s

/-- A two-source packed instruction. -/
def pop2 (i : Instr) (p : Pre) (o : POp) (x : Alu2) (d a b : Opnd) (s : State) : Out :=
  alu i p d (fun s g l =>
    let va := s.srcT g l x.ty a
    let vb := s.srcT g l x.ty b
    let (c, fl) := overElems x.ty fun k => packElem o x (elemAt x.ty.ebits k va) (elemAt x.ty.ebits k vb)
    ([BitVec.ofNat 32 c], fl)) s

/-! ## Instructions of page 0 -/

def execFadd (p : Pre) (d a b : Opnd) (s : State) : Out := fop2 (.fadd p d a b) p d a b (Fmt.f32.add .rne) s
def execFsub (p : Pre) (d a b : Opnd) (s : State) : Out := fop2 (.fsub p d a b) p d a b (Fmt.f32.sub .rne) s
def execFmul (p : Pre) (d a b : Opnd) (s : State) : Out := fop2 (.fmul p d a b) p d a b (Fmt.f32.mul .rne) s
def execFmin (p : Pre) (d a b : Opnd) (s : State) : Out := fop2 (.fmin p d a b) p d a b (Fmt.f32.minmax false) s
def execFmax (p : Pre) (d a b : Opnd) (s : State) : Out := fop2 (.fmax p d a b) p d a b (Fmt.f32.minmax true) s
def execFfma (p : Pre) (x : Alu3) (d a b : Opnd) (s : State) : Out :=
  alu (.ffma p x d a b) p d (fun s g l =>
    let (c, fl) := fmaX .f32 x (s.srcF g l a) (s.srcF g l b) (s.srcF g l x.c)
    ([BitVec.ofNat 32 c], fl)) s

def execPadd (p : Pre) (x : Alu2) (d a b : Opnd) (s : State) : Out := pop2 (.padd p x d a b) p .add x d a b s
def execPsub (p : Pre) (x : Alu2) (d a b : Opnd) (s : State) : Out := pop2 (.psub p x d a b) p .sub x d a b s
def execPmul (p : Pre) (x : Alu2) (d a b : Opnd) (s : State) : Out := pop2 (.pmul p x d a b) p .mul x d a b s
def execPmin (p : Pre) (x : Alu2) (d a b : Opnd) (s : State) : Out := pop2 (.pmin p x d a b) p .min x d a b s
def execPmax (p : Pre) (x : Alu2) (d a b : Opnd) (s : State) : Out := pop2 (.pmax p x d a b) p .max x d a b s
def execPfma (p : Pre) (x : Alu3) (d a b : Opnd) (s : State) : Out :=
  alu (.pfma p x d a b) p d (fun s g l =>
    let va := s.srcT g l x.ty a
    let vb := s.srcT g l x.ty b
    let vc := s.srcT g l x.ty x.c
    let e (k v : Nat) := elemAt x.ty.ebits k v
    let (c, fl) := overElems x.ty fun k => packFma x (e k va) (e k vb) (e k vc)
    ([BitVec.ofNat 32 c], fl)) s

def execDadd (p : Pre) (d a b : Opnd) (s : State) : Out := dop2 (.dadd p d a b) p d a b (Fmt.f64.add .rne) s
def execDmul (p : Pre) (d a b : Opnd) (s : State) : Out := dop2 (.dmul p d a b) p d a b (Fmt.f64.mul .rne) s
def execDfma (p : Pre) (x : Alu3) (d a b : Opnd) (s : State) : Out :=
  alu (.dfma p x d a b) p d (fun s g l =>
    let v (o : Opnd) := s.srcT64 g l .f64 o
    let (c, fl) := fmaX .f64 x (v a) (v b) (v x.c)
    (wordsOf 2 c, fl)) s

/-- The IEEE format of a scalar float type. -/
def scalarFmt (t : Ty) : Fmt := if t = .f64 then .f64 else .f32

def execFcmp (p : Pre) (x : CmpX) (d : BitVec 7) (a b : Opnd) (s : State) : Out :=
  compareOp (.fcmp p x d a b) p d (fun s g l =>
    (scalarFmt x.ty).cond x.cc (s.srcAny g l x.ty a) (s.srcAny g l x.ty b)) s

def execFrnd (p : Pre) (x : Alu2) (d a : Opnd) (s : State) : Out :=
  alu (.frnd p x d a) p d (fun s g l =>
    let (c, fl) := (scalarFmt x.ty).integral x.rm (s.srcAny g l x.ty a)
    (regsOf x.ty c, fl)) s

def execFclass (p : Pre) (d a : Opnd) (s : State) : Out :=
  fop1 (.fclass p d a) p d a (fun w => (Fmt.f32.classify w.toNat, 0)) s

def execFabs (p : Pre) (d a : Opnd) (s : State) : Out :=
  fop1 (.fabs p d a) p d a (fun w => (w.toNat % 2 ^ 31, 0)) s

/-! ## Conversions (R203, R256, R257) -/

/-- One element from one type to another. From a narrow format the value is exact, or overflows to ±∞ in every rounding mode. -/
def cvtElem (x : CvtX) (c : Nat) : Nat × Flags :=
  match x.sty.fmt, x.dty.fmt with
  | .int _ _, .int n _ =>
    let v := x.sty.toInt c
    (wrap n (if x.sat then clampInt x.dty.lo x.dty.hi v else v), 0)
  | .int _ _, .ieee f => f.round x.rm x.sat (FVal.ofInt (x.sty.toInt c))
  | .int _ _, .narrow f => f.round (FVal.ofInt (x.sty.toInt c))
  | .ieee g, .int n _ =>
    let (v, fl) := (g.read c).toInt x.rm x.dty.lo x.dty.hi
    (wrap n v, fl)
  | .ieee g, .ieee f => f.round x.rm x.sat (g.read c)
  | .ieee g, .narrow f => f.round (g.read c)
  | .narrow g, .int n _ =>
    let (v, fl) := (g.read c).toInt x.rm x.dty.lo x.dty.hi
    (wrap n v, fl)
  | .narrow g, .ieee f => f.round .rne x.sat (g.read c)
  | .narrow g, .narrow f => f.round (g.read c)

/-- The elements of a run that a type reads from its registers. -/
def State.srcElems (s : State) (gid l : Nat) (t other : Ty) (a : Opnd) : List Nat :=
  if t.is64 then [s.srcT64 gid l t a]
  else
    (List.range (cvtRegs t other)).flatMap fun r =>
      let v := match a with
        | .k _ => s.srcT gid l t a
        | a => s.srcT gid l t (a.plus r)
      (List.range t.elems).map fun i => elemAt t.ebits i v

/-- The registers that elements make. -/
def elemRegs (t : Ty) (es : List Nat) : List Word :=
  if t.is64 then wordsOf 2 (es.headD 0) else wordsOf (es.length / t.elems) (pack t.ebits es)

def execCvt (p : Pre) (x : CvtX) (d a : Opnd) (s : State) : Out :=
  alu (.cvt p x d a) p d (fun s g l =>
    let rs := (s.srcElems g l x.sty x.dty a).map (cvtElem x)
    (elemRegs x.dty (rs.map Prod.fst), rs.foldl (fun f r => f ||| r.2) 0)) s

/-! ## Special functions -/

def execRcp (p : Pre) (d a : Opnd) (s : State) : Out := fop1 (.rcp p d a) p d a Sfu.rcp s
def execRsq (p : Pre) (d a : Opnd) (s : State) : Out := fop1 (.rsq p d a) p d a Sfu.rsq s
def execSqrt (p : Pre) (d a : Opnd) (s : State) : Out := fop1 (.sqrt p d a) p d a Sfu.sqrt s
def execExp2 (p : Pre) (d a : Opnd) (s : State) : Out := fop1 (.exp2 p d a) p d a Sfu.exp2 s
def execLog2 (p : Pre) (d a : Opnd) (s : State) : Out := fop1 (.log2 p d a) p d a Sfu.log2 s
def execSinpi (p : Pre) (d a : Opnd) (s : State) : Out := fop1 (.sinpi p d a) p d a Sfu.sinpi s
def execCospi (p : Pre) (d a : Opnd) (s : State) : Out := fop1 (.cospi p d a) p d a Sfu.cospi s
def execTanh (p : Pre) (d a : Opnd) (s : State) : Out := fop1 (.tanh p d a) p d a Sfu.tanh s
def execSigm (p : Pre) (d a : Opnd) (s : State) : Out := fop1 (.sigm p d a) p d a Sfu.sigm s
def execFdiv (p : Pre) (d a b : Opnd) (s : State) : Out := fop2 (.fdiv p d a b) p d a b (Fmt.f32.div .rne) s

end Sys2Proof.Machine
end

