-- ==== Sys2Proof/Machine/Gm.lean ====
section
/-!
DEFINITION. Sys2Proof/Machine/Gm.lean: transformed means (R210 to R215): terms, merges and exits of partial totals.
-/

namespace Sys2Proof.Machine

/-- A partial total (S, E, n) (R211). -/
structure GmState where
  s : Nat := 0
  e : Word := 0
  n : Word := 0
  deriving DecidableEq, Repr

/-- What selects the family: `GM_MODE`, `GM_SHAPE` and the image of the slot that a table mode names. -/
structure GmEnv where
  mode : Nat
  shape : Nat
  image : List Word := []
  deriving DecidableEq, Repr

namespace Gm

def F : Fmt := .f32
def nanC : Nat := F.nanCode
def isNan (c : Nat) : Bool := (F.read c).isNan
def fadd (a b : Nat) : Nat := (F.add .rne a b).1
def fsub (a b : Nat) : Nat := (F.sub .rne a b).1
def fmul (a b : Nat) : Nat := (F.mul .rne a b).1
def fdiv (a b : Nat) : Nat := (F.div .rne a b).1
def exp2 (a : Nat) : Nat := (Sfu.exp2 (BitVec.ofNat 32 a)).1
def log2 (a : Nat) : Nat := (Sfu.log2 (BitVec.ofNat 32 a)).1
def roundV (v : FVal) : Nat := (F.round .rne false v).1
def ofNat (n : Nat) : Nat := roundV (FVal.ofInt n)
def lt (a b : Nat) : Bool := decide (FVal.cmp (F.read a) (F.read b) = .lt) && !isNan a && !isNan b
def isInf (a : Nat) : Bool := match F.read a with | .inf _ => true | _ => false

/-! ## Table images (R215) -/

def word (v : GmEnv) (i : Nat) : Nat := (v.image.getD i 0).toNat
def rule (v : GmEnv) : Nat := word v 0 % 4
def lo (v : GmEnv) : Nat := word v 1
def hi (v : GmEnv) : Nat := word v 2
def kappa (v : GmEnv) : Nat := word v 3
def entry (v : GmEnv) : List Nat := (List.range 65).map fun i => word v (4 + i)
def exitT (v : GmEnv) : List Nat := (List.range 65).map fun i => word v (69 + i)

/-- All rising or all falling. -/
def monotone (t : List Nat) : Bool :=
  (t.zip (t.drop 1)).all (fun e => lt e.1 e.2) || (t.zip (t.drop 1)).all fun e => lt e.2 e.1

/-- The checks of `GMTAB`. -/
def imageOk (v : GmEnv) : Bool :=
  word v 0 / 4 == 0 && rule v ≤ 2 && lt (lo v) (hi v) && monotone (entry v) && monotone (exitT v)
    && ((List.range 133).map fun i => word v (i + 1)).all fun c => !isNan c && !isInf c

/-- Reads a table at v, with the flags of the last rounding. -/
def lerp (t : List Nat) (a b v : Nat) : Nat × Flags :=
  let q := fmul (fsub v a) (fdiv (ofNat 64) (fsub b a))
  let fl := match F.read q with
    | .fin false m e => (Sfu.whole m e).1
    | _ => 0
  let i := min fl 63
  let phi := fsub q (ofNat i)
  F.add .rne (t.getD i 0) (fmul phi (fsub (t.getD (i + 1) 0) (t.getD i 0)))

/-! ## Domain (R214, R266) -/

/-- A mode of 12 to 15, or a power shape that is zero, infinite or NaN. -/
def bad (v : GmEnv) : Bool :=
  12 ≤ v.mode || (v.mode == 0 && (isNan v.shape || isInf v.shape || (F.read v.shape).isZero))

/-- Whether the power p is negative. -/
def negP (v : GmEnv) : Bool := (F.read v.shape).neg?

/-- ⌊log2⌋ of an input's size, and −149 for zero, as R211 has it; a multiplicative table takes it so for every input that its
range covers (DEDUCED, log entry 68). -/
def expOf (x : Nat) : Int :=
  match F.read x with
  | .fin _ m e => if m = 0 then -149 else (FVal.fin false m e).ilog2
  | _ => 0

/-- The normalised argument of an input in a table mode, if the input has one: x itself, x − M with M = x, x·2^−E. -/
def tableArg (v : GmEnv) (x : Nat) : Option Nat :=
  if isNan x || isInf x then none
  else if rule v = 1 then some 0
  else if rule v = 2 then
    match F.read x with
    | .fin neg m e => some (if m = 0 then 0 else roundV (.fin neg m (e - expOf x)))
    | _ => none
  else some (if (F.read x).isZero then 0 else x)

/-- Whether an input lies in the domain. -/
def inDomain (v : GmEnv) (x : Nat) : Bool :=
  if bad v || isNan x || isInf x then false
  else if v.mode ≤ 3 then
    match F.read x with
    | .fin neg m _ => if m = 0 then !((v.mode == 0 && negP v) || v.mode == 1) else !neg
    | _ => false
  else
    match tableArg v x with
    | some y => !lt y (lo v) && !lt (hi v) y
    | none => false

/-- `Pow` (R211). -/
def pow (y p : Nat) : Nat :=
  if p = 0x3F800000 then y
  else if p = 0x40000000 then fmul y y
  else if p = 0xBF800000 then fdiv 0x3F800000 y
  else exp2 (fmul p (log2 y))

def int32 (v : Int) : Word := BitVec.ofInt 32 v

/-- Whether E holds 0 whatever the input is: modes 1 to 3, and a table without a rule (R210, R212, R215). -/
def noE (v : GmEnv) : Bool := (1 ≤ v.mode && v.mode ≤ 3) || (4 ≤ v.mode && v.mode ≤ 11 && rule v == 0)

/-- `Term` (R211, R215). −0 counts as +0 (R214). -/
def term (v : GmEnv) (x : Nat) : GmState :=
  if !inDomain v x then ⟨nanC, if noE v then 0 else Config.domainE v.mode (BitVec.ofNat 32 x), 1⟩
  else
    let val := F.read x
    if v.mode = 0 then
      match val with
      | .fin _ m e =>
        if m = 0 then ⟨0, int32 (-149), 1⟩
        else ⟨pow (roundV (.fin false m (e - val.ilog2))) v.shape, int32 val.ilog2, 1⟩
      | _ => ⟨nanC, 0, 1⟩
    else if v.mode = 1 then ⟨log2 x, 0, 1⟩
    else if v.mode ≤ 3 then ⟨if val.isZero then 0 else x, 0, 1⟩
    else
      let s := (lerp (entry v) (lo v) (hi v) ((tableArg v x).getD 0)).1
      if rule v = 1 then ⟨s, if val.isZero then 0 else BitVec.ofNat 32 x, 1⟩
      else if rule v = 2 then ⟨s, int32 (expOf x), 1⟩
      else ⟨s, 0, 1⟩

/-- The side of a merge rescaled by 2 to a product. -/
def rescale (s : Nat) (ex : FVal × Flags) : Nat := fmul s (exp2 (roundV ex.1))

/-- A merge of signed normalisers: the kept one is the larger or the smaller; `k` is the multiplier of the difference. -/
def mergeInt (big : Bool) (k : Nat) (a b : GmState) : GmState × Flags :=
  let ea := a.e.toInt
  let eb := b.e.toInt
  let e := if big then max ea eb else min ea eb
  let side (x : GmState) : Nat :=
    if x.e.toInt = e then x.s else rescale x.s (FVal.mul (F.read k) (FVal.ofInt (x.e.toInt - e)))
  let (s, fl) := F.add .rne (side a) (side b)
  (⟨s, int32 e, a.n + b.n⟩, fl)

/-- `Merge` (R212, R215), with the flags of the sum. -/
def merge (v : GmEnv) (a b : GmState) : GmState × Flags :=
  if a.n = 0 then (b, 0)
  else if b.n = 0 then (a, 0)
  else if v.mode = 0 then mergeInt (!negP v) v.shape a b
  else if v.mode = 1 then
    let (s, fl) := F.add .rne a.s b.s
    (⟨s, 0, a.n + b.n⟩, fl)
  else if v.mode ≤ 3 then
    let s := if isNan a.s || isNan b.s then nanC else (F.minmax (v.mode == 2) a.s b.s).1
    (⟨s, 0, a.n + b.n⟩, 0)
  else if rule v = 1 then
    let ma := a.e.toNat
    let mb := b.e.toNat
    let m := if lt ma mb then mb else ma
    let side (x : GmState) : Nat :=
      if x.e.toNat = m then x.s
      else rescale x.s (FVal.mul (F.read (kappa v)) (FVal.add .rne (F.read x.e.toNat) (F.read (F.neg m))).1)
    let (s, fl) := F.add .rne (side a) (side b)
    (⟨s, BitVec.ofNat 32 m, a.n + b.n⟩, fl)
  else if rule v = 2 then
    let k := F.read (kappa v)
    mergeInt (if k.isZero then Config.zeroKappaMax else !k.neg?) (kappa v) a b
  else
    let (s, fl) := F.add .rne a.s b.s
    (⟨s, 0, a.n + b.n⟩, fl)

/-- The flags that an exit's last rounding raises: OF and UF, and NX with them (R266). -/
def lastFlags (fl : Flags) : Flags := if fl &&& (flOF ||| flUF) = 0 then 0 else fl &&& (flOF ||| flUF ||| flNX)

/-- A value times 2^E, rounded. -/
def scaleBy (g : Nat) (e : Word) : Nat × Flags := F.round .rne false ((F.read g).scale (clampInt (-2000) 2000 e.toInt))

/-- `Exit` (R213, R215), with the flags of its last rounding. -/
def exit (v : GmEnv) (a : GmState) : Nat × Flags :=
  if a.n = 0 || isNan a.s then (nanC, 0)
  else
    let m := fdiv a.s (ofNat a.n.toNat)
    if v.mode = 0 then
      let p := v.shape
      let g := if p = 0x3F800000 then m
        else if p = 0x40000000 then (Sfu.sqrt (BitVec.ofNat 32 m)).1
        else if p = 0xBF800000 then fdiv 0x3F800000 m
        else exp2 (fdiv (log2 m) p)
      let (c, fl) := scaleBy g a.e
      (c, lastFlags fl)
    else if v.mode = 1 then
      let (c, fl) := Sfu.exp2 (BitVec.ofNat 32 m)
      (c, lastFlags fl)
    else if v.mode ≤ 3 then (a.s, 0)
    else if 12 ≤ v.mode then (nanC, 0)
    else
      let f0 := (entry v).getD 0 0
      let f1 := (entry v).getD 64 0
      let (mn, mx) := if lt f0 f1 then (f0, f1) else (f1, f0)
      let arg := if lt m mn then mn else if lt mx m then mx else m
      let (c, fl) := lerp (exitT v) f0 f1 arg
      if rule v = 1 then
        let (c, fl) := F.add .rne c a.e.toNat
        (c, lastFlags fl)
      else if rule v = 2 then
        let (c, fl) := scaleBy c a.e
        (c, lastFlags fl)
      else (c, lastFlags fl)

end Gm

/-- The image that a table mode of a context uses; a slot never loaded holds zeros (DESIGN CHOICE, log entry 2). -/
def State.gmImage (s : State) (ctx mode : Nat) : List Word :=
  if 4 ≤ mode && mode ≤ 11 then
    match s.ctx? ctx with
    | some c => Map.get c.gm (mode - 4) []
    | none => []
  else []

def State.gmEnv (s : State) (ctx : Nat) (mode : BitVec 4) (shape : Word) : GmEnv :=
  ⟨mode.toNat, shape.toNat, s.gmImage ctx mode.toNat⟩

end Sys2Proof.Machine
end

