-- ==== Sys2Proof/Machine/Net.lean ====
section
/-!
DEFINITION. Sys2Proof/Machine/Net.lean: sending on the fabric (R338 to R351): the plane and channel of a message, its
sequence numbers and sealed blocks, the write-combining buffer, and what a remote operation sends.
-/

namespace Sys2Proof.Machine

/-! ## Planes, ports and channels (R338 to R344) -/

/-- The transmit port and wavelength that reach a peer (R339). -/
def portTo (peer : Nat) : Nat := peer / 64
def lambdaTo (own peer : Nat) : Nat := (peer % 64 + 64 - own % 64) % 64

/-- The plane of a message by its line index, in which the peer's number does not count: the online planes in ascending order, and from one whose link to the peer
is failed or down the next (R341, R348). -/
def State.planeFor (s : State) (peer idx : Nat) : Option Nat :=
  let on := (List.range 8).filter s.planeOn
  let k := idx % 2 ^ 39 % max 1 on.length
  (on.drop k ++ on.take k).find? fun p => (s.planesTo peer).contains p

def chanOf (k : MsgKind) (idx tag grp : Nat) : Nat :=
  match k with
  | .read | .write | .wdata | .atomic | .spawn => idx % 16
  | .rdata => 16 + idx % 16
  | .ack | .nack => 32 + tag % 8
  | .mcast => 40 + grp % 8
  | .cdata => 48 + grp % 8
  | .cctl | .gang => 56 + grp % 6
  | .grant => 62
  | .preamble | .integ | .linkctl | .host | .measurements | .rma | .uetDone => 63

/-! ## Flits (R342, R343) -/

/-- The `TYPE` of a flit. What goes to the host is no flit. -/
def MsgKind.type (k : MsgKind) : Nat :=
  match k with
  | .preamble => 0 | .integ => 1 | .grant => 2 | .linkctl => 3 | .read => 4 | .write => 5 | .wdata => 6 | .atomic => 7
  | .rdata => 8 | .ack => 9 | .nack => 10 | .mcast => 11 | .cdata => 12 | .cctl => 13 | .spawn => 14 | .gang => 15
  | .host | .measurements | .rma | .uetDone => 16

/-- Whether a type may travel on a channel (R344). -/
def MsgKind.onChan (k : MsgKind) (ch : Nat) : Bool :=
  match k with
  | .read | .write | .wdata | .atomic | .spawn => decide (ch < 16)
  | .rdata => decide (16 ≤ ch) && decide (ch < 32)
  | .ack | .nack => decide (32 ≤ ch) && decide (ch < 40)
  | .mcast => decide (40 ≤ ch) && decide (ch < 48)
  | .cdata => decide (48 ≤ ch) && decide (ch < 56)
  | .cctl | .gang => decide (56 ≤ ch) && decide (ch < 62)
  | .grant => ch = 62
  | .preamble | .integ | .linkctl => ch = 63
  | .host | .measurements | .rma | .uetDone => false

/-- The sectors of a mask that hold a byte. -/
def sectorsOf (m : Nat) : List Nat := (List.range 4).filter fun k => m / 2 ^ (64 * k) % 2 ^ 64 ≠ 0
def maskSectors (m : Nat) : Nat := (sectorsOf m).length

/-- The type of a message's flit `k`: a WRITE is followed by its WDATA. -/
def Msg.typeAt (m : Msg) (k : Nat) : Nat := if m.kind = .write && k ≠ 0 then MsgKind.wdata.type else m.kind.type

/-- The `ARG` of a message's flit `k`. -/
def Msg.argAt (m : Msg) (k : Nat) : Nat :=
  match m.kind with
  | .write => if k = 0 then m.addr else m.arg / 2 ^ (64 * (sectorsOf m.arg).getD (k - 1) 0) % 2 ^ 64
  | .mcast => if k = 1 then 2 ^ 64 - 1 else m.addr
  | .read | .atomic | .spawn => m.addr
  | .rdata => m.addr / 256 * 256
  | .ack | .nack => m.tag
  | .preamble => 0
  | .integ | .grant | .linkctl | .wdata | .cdata | .cctl | .gang | .host | .measurements | .rma | .uetDone => m.arg

/-- The header of a message's flit `k` (R342). -/
def Msg.header (m : Msg) (own : Nat) (gen : Bool) (seq k : Nat) : BitVec 128 :=
  BitVec.ofNat 128 (gen.toNat + 2 * m.chan + 2 ^ 7 * m.typeAt k + (if k + 1 = m.flits then 2 ^ 12 else 0) + 2 ^ 16 * (seq % 2 ^ 16)
    + 2 ^ 32 * (m.tag % 2 ^ 16) + 2 ^ 48 * own + 2 ^ 57 * (m.ctx % 64) + 2 ^ 64 * (m.argAt k % 2 ^ 64))

/-- A field of a header. -/
def hdrAt (h : BitVec 128) (lo n : Nat) : Nat := (h.extractLsb' lo n).toNat

/-! ## Links as senders (R340, R342, R345, R347) -/

/-- The two ends of a link in one direction, and its plane. -/
structure Wire where
  own : Nat
  peer : Nat
  plane : Nat
  massif : Nat
  deriving DecidableEq, Repr

/-- The link id, and the IV of a block: the id followed by the block counter (R347). -/
def Wire.id (w : Wire) : BitVec 32 := BitVec.ofNat 32 (w.own % 512 + 2 ^ 9 * (w.peer % 512) + 2 ^ 18 * (w.plane % 8) + 2 ^ 21 * (w.massif % 512))
def Wire.iv (w : Wire) (ctr : Nat) : BitVec 96 := w.id ++ BitVec.ofNat 64 ctr

/-- A flit that belongs to no sealed block: PREAMBLE, or INTEG with the IV under which its tag is made. -/
def Wire.bare (w : Wire) (k : MsgKind) (gen : Bool) (arg iv : Nat) : Msg :=
  let m : Msg := { dest := w.peer, kind := k, plane := w.plane, chan := 63, arg := arg, addr := iv }
  { m with hdrs := [m.header w.own gen 0 0] }

/-- The open block is sealed: its INTEG flit follows and the counter goes on (R347). The receiver frees flits of channels 62 and 63 as
it reads their block, so that their reserved credit is back (DESIGN CHOICE, log entry 32). -/
def Link.seal (w : Wire) (l : Link) : Link × List Msg :=
  if l.blk = 0 then (l, [])
  else ({ l with blk := 0, ctr := l.ctr + 1, credits := l.credits.filter fun e => decide (e.1 < 62) }, [w.bare .integ l.genTx (l.blkAt % 65536) (w.iv l.ctr).toNat])

/-- The credits of a channel: the reserved one at first (R345). -/
def Link.credit (l : Link) (ch : Nat) : Nat := Map.get l.credits ch 1

/-- The message whose flit leaves next: the first of its channel with a credit; a link whose counter would reach 2^48 sends link
control only (R347). -/
def Link.nextMsg (l : Link) : Option Msg :=
  l.txq.find? fun m => l.txq.find? (fun x => x.chan = m.chan) = some m && decide (0 < l.credit m.chan)
    && (m.chan = 63 || decide (l.ctr < 2 ^ 48))

/-- One flit leaves: with a PREAMBLE before it after darkness, and an INTEG behind it where it fills its block. A message has been
sent with its last flit. -/
def Link.flit (w : Wire) (now : Nat) (l : Link) (m : Msg) : Link × List Msg :=
  let k := m.hdrs.length
  let m' := { m with hdrs := m.hdrs ++ [m.header w.own l.genTx l.sent k], last := l.sent }
  let out := k + 1 = m.flits
  let l' : Link :=
    { l with
      dark := false, sent := l.sent + 1, blk := l.blk + 1, blkAt := if l.blk = 0 then l.sent else l.blkAt
      blkT := if l.blk = 0 then now else l.blkT
      credits := Map.put m.chan (l.credit m.chan - 1) l.credits
      txq := if out then l.txq.erase m else l.txq.map fun x => if x = m then m' else x }
  let (l', sealed) := if l'.blk = 16 then l'.seal w else (l', [])
  (l', (if l.dark then [w.bare .preamble l.genTx 0 0] else []) ++ (if out then [m'] else []) ++ sealed)

/-- Flits leave while one can; with nothing more to send and no block open the light goes off (DESIGN CHOICE, log entry 32). -/
def Link.pump (w : Wire) (now : Nat) : Nat → Link → Link × List Msg
  | 0, l => (l, [])
  | fuel + 1, l =>
    match l.nextMsg with
    | none => (if l.blk = 0 then { l with dark := true } else l, [])
    | some m =>
      let (l, out) := l.flit w now m
      let (l, rest) := Link.pump w now fuel l
      (l, out ++ rest)

/-- Flits that wait on a link. -/
def Link.waiting (l : Link) : Nat := l.txq.foldl (fun n m => n + (m.flits - m.hdrs.length)) 0

def State.wire (s : State) (peer plane : Nat) : Wire := ⟨s.deviceIndex.toNat, peer, plane, s.massifId.toNat⟩

/-- A link sends what it can. -/
def State.pump (s : State) (peer plane : Nat) : State :=
  let l := s.link (linkKey peer plane)
  let (l', out) := Link.pump (s.wire peer plane) s.rtime (l.waiting + 1) l
  { s.modLink (linkKey peer plane) fun _ => l' with outbox := s.outbox ++ out }

/-- A message joins the queue of a link. -/
def State.enqueue (s : State) (peer plane : Nat) (m : Msg) : State :=
  (s.modLink (linkKey peer plane) fun l => { l with txq := l.txq ++ [{ m with dest := peer, plane := plane }] }).pump peer plane

/-- A plane whose link has sent a part of a message with this line: what follows it to the line goes there, so that it keeps its place
when planes have come or gone meanwhile (R341). -/
def State.stuckOn (s : State) (peer idx : Nat) : Option Nat :=
  (s.planesTo peer).find? fun p => (s.link (linkKey peer p)).txq.any fun m => m.line = idx && !m.hdrs.isEmpty

/-- Sends a message to a peer; none where no plane has a link up (R339). -/
def State.send (s : State) (peer idx grp : Nat) (m : Msg) : Option State :=
  (match s.stuckOn peer idx with
    | some p => some p
    | none => s.planeFor peer idx).map fun p => s.enqueue peer p { m with chan := chanOf m.kind idx m.tag grp, line := idx }

/-- Link control to a peer: a code of the model, and an argument. A device without a belay die sends nothing (R1). -/
def State.sendCtl (s : State) (peer plane code arg : Nat) : State :=
  if !s.belayServes then s else s.enqueue peer plane { dest := peer, kind := .linkctl, chan := 63, arg := code, addr := arg }

/-! ## Links as receivers (R342, R345, R347 to R349) -/

/-- Ticks for which a receiver holds both key banks (R349): twice the in-flight window. -/
def holdTicks : Nat := 3280

/-- What an event brings, with the fields that the flit's header gives. `MCAST`'s mask is the next flit's `ARG`, which the event
brings. -/
def selOfFlit (x : Sel) (k : MsgKind) (code : Nat) (h : BitVec 128) : Sel :=
  let src := hdrAt h 48 9
  let m := { x.msg with tag := hdrAt h 32 16, ctx := hdrAt h 57 6 }
  let arg := hdrAt h 64 64
  match k with
  | .read | .write | .atomic | .mcast | .spawn => { x with a := src, msg := { m with addr := arg } }
  | .wdata => { x with a := src, msg := { m with mask := BitVec.ofNat 64 arg } }
  | .rdata => { x with a := src, msg := m }
  | .ack | .nack => { x with a := src, b := m.tag }
  | .cdata | .cctl => { x with b := src, msg := m }
  | .gang => if code = 0 then { x with a := src, b := arg, c := m.ctx } else { x with a := arg, b := src }
  | .grant => { x with a := src, c := arg % 64, d := arg / 64 % 1024 }
  | .linkctl | .integ => { x with a := src, b := x.plane }
  | .preamble | .host | .measurements | .rma | .uetDone => x

/-- Flits of a message that arrives: its payload in units of 64 bytes. -/
def flitsIn (x : Sel) (k : MsgKind) : Nat :=
  match k with
  | .rdata | .mcast | .cdata | .cctl | .gang => max 1 (ceilDiv (max x.msg.data.length (4 * x.words.length)) 64)
  | _ => 1

/-- Links of the receive port that a peer's light comes in on (R338). -/
def State.portLinks (s : State) (peer plane : Nat) : Map Link :=
  s.links.filter fun e => e.1 % 8 = plane && decide (e.1 / 8 / 64 = peer / 64)

/-- Whether a port has a place for `n` flits of a channel: its reserved one, and the 448 shared (R345). A message's flits before the
last sixteen have left with earlier blocks. -/
def State.portRoom (s : State) (peer plane ch n : Nat) : Bool :=
  let ms := (s.portLinks peer plane).flatMap fun e => e.2.rxBlock
  let chans := ms.filterMap fun m => m.x.hdr.map fun h => hdrAt h 1 6
  let held := ms.foldl (fun n m => n + min 16 m.n) 0
  decide (held + min 16 n ≤ 448 + (ch :: chans).eraseDups.length)

/-- Whether flits of a type bring a message of several of them: one without `LAST` is then a part of one. -/
def MsgKind.long (k : MsgKind) : Bool := k = .rdata || k = .mcast || k = .cdata || k = .cctl || k = .gang

/-- A flit arrives as a part of the open block of its link. The last flit of a message stands for those of it that have not come by
themselves (R342, R347, R348; DESIGN CHOICE, log entry 27). A flit with a type that its channel does not allow, with a reserved bit
set, without a place in the pool, or on a link that is down or failed is discarded as a link error, and its message is never completed
(R342); a `SEQ` gap or a key bank that is not held spoils the block. The first flit of a new generation starts the hold of the old
bank (R349). -/
def State.takeFlit (s : State) (k : MsgKind) (code : Nat) (h : BitVec 128) : State :=
  let peer := hdrAt h 48 9
  let key := linkKey peer s.sel.plane
  let l := s.link key
  let x := selOfFlit s.sel k code h
  let ch := hdrAt h 1 6
  let last := h.getLsbD 12 || !k.long
  let seen := if k.long then Map.get l.rxPart ch (0, true) else (0, true)
  let n := if last then max 1 (flitsIn x k - seen.1) else 1
  let gen := h.getLsbD 0
  let gap := hdrAt h 16 16 ≠ (l.rxSeq + n - 1) % 65536
  let spoilt := gap || !(gen == l.genRx || l.rxIdle) || (l.rxFlits ≠ 0 && gen != l.rxGen)
  if !s.belayServes then s
  else if !l.up || l.rxBad then s.modLink key fun l => { l with errs := l.errs + 1 }
  else
    let fine := hdrAt h 7 5 = k.type && k.onChan ch && hdrAt h 13 3 = 0 && !h.getLsbD 63 && s.portRoom peer s.sel.plane ch n
    let whole := last && fine && seen.2
    s.modLink key fun l =>
      { l with
        rxSeq := (hdrAt h 16 16 + 1) % 65536, rxFlits := l.rxFlits + n, rxGen := gen, rxGap := l.rxGap || spoilt
        rxBlock := if fine then l.rxBlock ++ [⟨k, code, x, n, whole⟩] else l.rxBlock
        rxPart := if last then Map.del ch l.rxPart else Map.put ch (seen.1 + 1, seen.2 && fine) l.rxPart
        heldTill := if gen != l.genRx && l.rxIdle && l.heldTill = 0 then s.rtime + holdTicks else l.heldTill
        errs := if fine then l.errs else l.errs + 1 }

/-- What an event that a link brings does: its flit arrives. Without a header there is none. -/
def State.flitIn (s : State) (k : MsgKind) (code : Nat := 0) : State :=
  match s.sel.hdr with
  | some h => s.takeFlit k code h
  | none => s

/-- The tag of an operation's messages. -/
def tagOf (id : Nat) : Nat := id % 65536

/-! ## Failures at sending -/

/-- The grid that a group belongs to. -/
def State.gridOf (s : State) (gid : Nat) : Option Nat := (s.group? gid).bind fun g => (s.team? g.team).bind Team.grid

/-- Whether a grid was torn from a gang with the peer before the number `id` was given: what was in flight then settles normally
(R358). -/
def Grid.tornFrom (g : Grid) (peer id : Nat) : Bool := g.torn.contains peer && decide (g.tornAt ≤ id)

def State.tornFrom (s : State) (gid peer id : Nat) : Bool :=
  match (s.gridOf gid).bind s.grid? with
  | some g => g.tornFrom peer id
  | none => false

/-- Sends an operation's message, or settles it failed at once. -/
def State.sendOr (s : State) (id : Nat) (o : Op) (peer idx grp : Nat) (m : Msg) : State :=
  if s.tornFrom o.gid peer id then s.fail id .gangTorn
  else
    match s.send peer idx grp { m with tag := tagOf id, ctx := o.ctx, sys := o.sys } with
    | none => s.fail id .remoteError
    | some s => (s.touchBelay o.ctx o.core).modOp id fun o => { o with st := .sent (tagOf id) }

/-! ## The write-combining buffer (R350, R351) -/

/-- The byte mask of an entry. -/
def WcEntry.mask (e : WcEntry) : Nat := e.bytes.foldl (fun m b => m + 2 ^ b.1) 0

/-- Drains one entry: a WRITE with WDATA flits for the sectors that hold bytes; the stores in it share its tag. -/
def State.drain (s : State) (core key : Nat) : State :=
  match Map.get? (s.core core).wc key with
  | none => s
  | some e =>
    let s := s.modCore core fun c => { c with wc := Map.del key c.wc }
    match e.ops with
    | [] => s
    | lead :: _ =>
      let torn := e.ops.filter fun i => match s.op? i with
        | some o => s.tornFrom o.gid e.peer i
        | none => false
      let live := e.ops.filter fun i => !torn.contains i
      let s := s.touchBelay e.ctx core
      let s := torn.foldl (fun s i => s.fail i .gangTorn) s
      let sys := match s.op? lead with
        | some o => o.sys
        | none => false
      let m : Msg :=
        { dest := e.peer, kind := .write, flits := 1 + maskSectors e.mask, tag := tagOf lead, ctx := e.ctx, sys := sys
          addr := e.line * 256, arg := e.mask, data := (List.range 256).map fun i => Map.get e.bytes i 0 }
      if live.isEmpty then s
      else
        match s.send e.peer e.line 0 m with
        | none => live.foldl (fun s i => s.fail i .remoteError) s
        | some s => live.foldl (fun s i => s.modOp i fun o => { o with st := .sent (tagOf lead) }) s

/-- Drains the entries of a core that satisfy a test. -/
def State.drainIf (s : State) (core : Nat) (t : WcEntry → Bool) : State :=
  ((s.core core).wc.filter fun e => t e.2).foldl (fun s e => s.drain core e.1) s

/-- Drains the entries that hold a store of a thread (R351). -/
def State.drainThread (s : State) (gid l : Nat) : State :=
  match s.group? gid with
  | none => s
  | some g => s.drainIf g.core fun e => e.ops.any fun i => match s.op? i with
    | some o => o.gid = gid && (o.seq? l).isSome
    | none => false

/-- Drains the entry of a line, before a remote access to it. -/
def State.drainLine (s : State) (core va : Nat) : State :=
  s.drainIf core fun e => e.peer = vaPeer va && e.line = va / 256

/-- A plain store to a peer collects in the buffer. -/
def State.collect (s : State) (id : Nat) (o : Op) (va : Nat) (bs : List Byte) : State :=
  let mine (e : Nat × WcEntry) : Bool := e.2.peer = vaPeer va && e.2.line = va / 256 && e.2.ctx = o.ctx
  let s := match (s.core o.core).wc.find? mine with
    | some _ => s
    | none =>
      let wc := (s.core o.core).wc
      let old := wc.foldl (fun (b : Option (Nat × Nat)) (e : Nat × WcEntry) => match b with
        | some (t, _) => if e.2.born < t then some (e.2.born, e.1) else b
        | none => some (e.2.born, e.1)) none
      let s := if 64 ≤ wc.length then (match old with
        | some (_, k) => s.drain o.core k
        | none => s) else s
      let used := (s.core o.core).wc.map Prod.fst
      let key := ((List.range 64).find? fun k => !used.contains k).getD 0
      s.modCore o.core fun c =>
        { c with wc := Map.put key { peer := vaPeer va, line := va / 256, born := s.rtime, ctx := o.ctx } c.wc }
  match (s.core o.core).wc.find? mine with
  | none => s
  | some (key, _) =>
    let ofs := va % 256
    let put (e : WcEntry) : WcEntry :=
      { e with
        bytes := ((List.range bs.length).zip bs).foldl (fun m (b : Nat × Byte) => Map.put (ofs + b.1) b.2 m) e.bytes
        ops := e.ops ++ [id] }
    let s := s.modCore o.core fun c => { c with wc := Map.mod key put c.wc }
    match Map.get? (s.core o.core).wc key with
    | some e => if e.bytes.length = 256 then s.drain o.core key else s
    | none => s

/-! ## What a remote operation sends -/

/-- Masked bytes of a WRITE at an address. -/
def writeMsg (va : Nat) (bs : List Byte) : Msg :=
  let ofs := va % 256
  let m := (2 ^ bs.length - 1) * 2 ^ ofs
  { dest := 0, kind := .write, flits := 1 + maskSectors m, addr := va / 256 * 256, arg := m
    data := List.replicate ofs 0 ++ bs ++ List.replicate (256 - ofs - bs.length) 0 }

/-- A READ of `n` bytes. -/
def readMsg (va n : Nat) : Msg := { dest := 0, kind := .read, addr := va, arg := n }

/-- Sends a remote load, store or atomic (R343, R350, R351). -/
def State.sendMem (s : State) (id : Nat) : State :=
  match s.op? id with
  | none => s
  | some o =>
    match o.kind with
    | .load _ va n _ =>
      let s := s.drainLine o.core va
      s.sendOr id o (vaPeer va) (va / 256) 0 (readMsg va n)
    | .pref va _ =>
      let s := s.drainLine o.core va
      s.sendOr id o (vaPeer va) (va / 256) 0 (readMsg (va / 256 * 256) 256)
    | .store _ va bs =>
      if o.ord = .rel || o.ord = .ar then
        let s := s.drainLine o.core va
        s.sendOr id o (vaPeer va) (va / 256) 0 (writeMsg va bs)
      else s.collect id o va bs
    | .atom _ va aop n v _ _ _ =>
      let s := s.drainLine o.core va
      s.sendOr id o (vaPeer va) (va / 256) 0
        { dest := 0, kind := .atomic, addr := va, arg := aop.toNat + 16 * n, data := v }
    | _ => s

/-! ## Issuing (R69, R73) -/

/-- An address of the own device without the `F` bit and the index by which it may be named too (R308). -/
def State.plainVa (s : State) (va : Nat) : Nat := if vaOk va && (s.remote? va).isNone then va % 2 ^ 47 else va

/-- What a load, a store or an atomic accesses: the space, the address and the bytes. -/
def Op.access? (o : Op) : Option (Space × Nat × Nat) :=
  match o.kind with
  | .load sp a n _ => some (sp, a, n)
  | .store sp a bs => some (sp, a, bs.length)
  | .atom sp a aop n _ _ _ _ => some (sp, a, if 14 ≤ aop.toNat then 32 else n)
  | _ => none

/-- Whether two accesses meet: in one line of global memory, or in a byte. -/
def State.meet (s : State) (x y : Space × Nat × Nat) : Bool :=
  x.1 = y.1 && (if x.1 = .global then s.plainVa x.2.1 / 256 = s.plainVa y.2.1 / 256
    else decide (x.2.1 < y.2.1 + y.2.2) && decide (y.2.1 < x.2.1 + x.2.2))

/-- Whether a lower lane of the same execution is still held with an access that meets an operation's: they take effect in lane order
(R162). -/
def State.laneHeld (s : State) (id : Nat) (o : Op) : Bool :=
  s.ops.any fun e => decide (e.1 < id) && e.2.ex = o.ex && e.2.gid = o.gid && e.2.held && !e.2.st.settled
    && (match e.2.access?, o.access? with
      | some x, some y => s.meet x y
      | _, _ => false)

/-- A new operation is dropped behind a failure, waits while it is held (which drains its threads' stores, R351), or
starts (R73). Every operation of a paired team waits for the pair comparator too (R70, R286). -/
def State.beginOp (start : State → Nat → State) (s : State) (id : Nat) : State :=
  match s.op? id with
  | none => s
  | some o =>
    if o.held then
      if o.lanes.any fun l => (s.failure? o.gid l.1).isSome then s.dropOne id
      else if s.horizonBefore id o && !s.laneHeld id o && !((s.group? o.gid).bind fun g => s.team? g.team).any Team.paired then start (s.modOp id fun o => { o with held := false }) id
      else o.lanes.foldl (fun s l => s.drainThread o.gid l.1) s
    else start s id

/-- What an instruction issues for one lane, or for its path. -/
structure Req where
  kind : OpKind
  ord : Ord := .rlx
  scope : Scope := .grp
  h : Bool := false
  /-- Whether a release fence in force holds it. -/
  ordered : Bool := true
  dst : Option (Opnd × Nat) := none
  /-- A failure with which it settles once it may take effect. -/
  err : Option Cause := none
  deriving DecidableEq, Repr

/-- Issues one operation for the lanes given. -/
def State.issueOp (start : State → Nat → State) (s : State) (c : Slot) (g : Group) (ex : Nat) (a b : Bool) (ls : List Nat)
    (r : Req) : State :=
  let held := ls.any fun l => s.mustHold g l r.ord r.h r.ordered
  let dst := r.dst.map fun d => s.dstOf c.gid d.1 d.2
  let (nums, s) := s.number c.gid ls
  let (fa, fb) := s.opFlags c a b
  let o : Op :=
    { ex := ex, core := g.core, ctx := g.ctx, gid := c.gid, lanes := nums, ins := g.cbase + c.pc, kind := r.kind
      ord := r.ord, scope := r.scope, held := held, seta := fa, setb := fb, dst := dst, issue := s.rtime
      sys := s.sysMode g.ctx, ts := s.stopped g.ctx, err := r.err
      fence := if r.ordered then ls.foldl (fun a l => Scope.wider a (g.thread l).relFence) none else none }
  let (id, s) := s.addOp o
  s.beginOp start id

/-- What the checks of a fallible instruction came to in one lane. -/
abbrev Issue := Except LaneRes Req

/-- The lane's result once its request is issued, or what stopped it. -/
def Issue.res (i : Issue) : LaneRes :=
  match i with
  | .ok _ => .next
  | .error r => r

/-- A fallible instruction: the stalls of R25 and R69, the PRECISE checks of every lane, then the numbers, the flags
and the operations in lane order. A path's one operation takes a number in every executing thread. `f` may read
memory. -/
def issueS (i : Instr) (p : Pre) (start : State → Nat → State) (a b : Bool) (f : State → Nat → Nat → State × Issue)
    (s : State) : Out :=
  inSlot i p s (withNames i fun s c g on =>
    match s.issueStall c on a b with
    | some st => (s, on.map fun l => (l, .stall st))
    | none =>
      let (ex, s) := s.fresh
      let once := (i.need g.w).perPath
      let (s, tried) := (if once then on.take 1 else on).foldl (fun (r : State × List (Nat × Issue)) l =>
        let (s, x) := f r.1 c.gid l
        (s, r.2 ++ [(l, x)])) (s, [])
      let good := tried.filterMap fun e => match e.2 with
        | .ok r => some (e.1, r)
        | .error _ => none
      let s := if good.isEmpty then s else s.executing c ex a b fun s =>
        good.foldl (fun s e => s.issueOp start c g ex a b (if once then on else [e.1]) e.2) s
      let res (l : Nat) : LaneRes := match tried.find? fun e => once || e.1 = l with
        | some e => Issue.res e.2
        | none => .next
      (s, on.map fun l => (l, res l)))

/-- A fallible instruction whose checks only look at the state. -/
def issue (i : Instr) (p : Pre) (start : State → Nat → State) (a b : Bool) (f : State → Nat → Nat → Issue) (s : State) :
    Out :=
  issueS i p start a b (fun s gid l => (s, f s gid l)) s

end Sys2Proof.Machine
end

