-- ==== Sys2Proof/Machine/Mem.lean ====
section
/-!
DEFINITION. Sys2Proof/Machine/Mem.lean: the MEM page (R157 to R170): effective addresses, what a load, a store and an
atomic do when they are performed, where they wait until then, fences and queue windows.
-/

namespace Sys2Proof.Machine

/-! ## Effective addresses (R161) -/

def State.eaGlobal (s : State) (gid l : Nat) (a b : Opnd) (ofs : BitVec 17) : Nat :=
  (s.src64 gid l a false + (s.src32 gid l b).signExtend 64 + ofs.signExtend 64).toNat

def State.eaLocal (s : State) (gid l : Nat) (a b : Opnd) (ofs : BitVec 17) : Nat :=
  (s.src32 gid l a + s.src32 gid l b + ofs.signExtend 32).toNat

def State.ea (s : State) (sp : Space) (gid l : Nat) (a b : Opnd) (ofs : BitVec 17) : Nat :=
  if sp = .global then s.eaGlobal gid l a b ofs else s.eaLocal gid l a b ofs

def State.teamOf (s : State) (gid : Nat) : Nat := ((s.group? gid).map Group.team).getD 0

/-- The PRECISE checks of an address: alignment, then the scratchpad range. -/
def State.eaBad (s : State) (sp : Space) (gid ea n al : Nat) : Option Cause :=
  if ea % al ≠ 0 then some .misaligned
  else if sp = .scratch && (s.scratch? (s.teamOf gid) ea n).isNone then some .scratchRange
  else none

/-! ## Bytes of the three spaces -/

def XErr.toCause : XErr → Cause
  | .cause c => c
  | .notPresent => .translation

/-- A bank's queue. -/
def State.queue (s : State) (b : Nat) : List BankReq := Map.get s.banks b []

/-- Whether a bank's ALU may take its next request: it is free, and its die pair's clock runs (R326, R403). -/
def State.bankFree (s : State) (b : Nat) : Bool :=
  (s.pair (b / 256)).relock.isNone && decide (Map.get s.bankBusy b 0 ≤ s.cyc (b / 256))

/-- The bank's ALU is busy for `n` more cycles. -/
def State.occupy (s : State) (b n : Nat) : State :=
  { s with bankBusy := Map.put b (max (s.cyc (b / 256)) (Map.get s.bankBusy b 0) + n) s.bankBusy }

/-- The banks of the words of `n` bytes at a bank address. -/
def banksOf (a n : Nat) : List Nat :=
  (List.range (min 1024 ((a + max n 1 - 1) / 32 + 1 - a / 32))).map fun i => (a / 32 + i) % 1024

/-- Each word of `n` bytes of bank memory takes its ALU for a cycle; and whether the banks' clocks run (R326, R403). -/
def State.occupyAll (s : State) (a n : Nat) : State := (banksOf a n).foldl (fun s b => s.occupy b 1) s
def State.banksClocked (s : State) (a n : Nat) : Bool := (banksOf a n).all fun b => (s.pair (b / 256)).relock.isNone

/-- An access that a bank's window lets pass touches its dies, whatever becomes of it (R324, R400). -/
def State.bankTouch (s : State) (ctx a n : Nat) : State :=
  if (s.bankFail ctx a n).isSome then s else (bankDies a n).foldl (State.touch · ctx) s

/-- Reads `n` bytes for an operation of a group. -/
def State.spaceRead (s : State) (sp : Space) (gid ctx core a n : Nat) (p : Perm) : Except XErr (State × List Byte) :=
  match sp with
  | .global => s.gread ctx a n p (s.sysMode ctx) (pairOf core)
  | .scratch =>
    match s.scratch? (s.teamOf gid) a n with
    | some ph => if s.poisoned ph n then .error (.cause .poison) else .ok (s, s.readPhys ph n)
    | none => .error (.cause .scratchRange)
  | .bank =>
    match s.bankFail ctx a n with
    | some c => .error (.cause c)
    | none =>
      let s := s.bankTouch ctx a n
      if s.poisoned (bankPhys a) n then .error (.cause .poison) else .ok (s, s.readPhys (bankPhys a) n)

/-- Writes bytes for an operation of a group. -/
def State.spaceWrite (s : State) (sp : Space) (gid ctx core a : Nat) (bs : List Byte) : Except XErr State :=
  match sp with
  | .global => s.gwrite ctx a bs (s.sysMode ctx) (pairOf core)
  | .scratch =>
    match s.scratch? (s.teamOf gid) a bs.length with
    | some ph => .ok ((s.writePhys ph bs).clearPoison ph bs.length)
    | none => .error (.cause .scratchRange)
  | .bank =>
    match s.bankFail ctx a bs.length with
    | some c => .error (.cause c)
    | none =>
      let s := s.bankTouch ctx a bs.length
      .ok ((s.writePhys (bankPhys a) bs).clearPoison (bankPhys a) bs.length)

/-! ## Scopes, the L1 and promotion (R86, R95, R96) -/

def acquires (o : Ord) : Bool := o = .acq || o = .ar
def releases (o : Ord) : Bool := o = .rel || o = .ar

/-- The physical place and placement word of a present global address. -/
def State.placeOf (s : State) (ctx va : Nat) (die : Nat) (write : Bool) : Option (Word × Nat) :=
  match s.leafOf ctx va with
  | .error _ => none
  | .ok f =>
    let (w, fr) := s.placing f (vaOfs va - f.base)
    some (w, spot w fr (vaOfs va - f.base) (pwServe w die write))

/-- The scope at which an operation releases: its own, or that of a release fence before it, whichever is wider (R90). -/
def Op.releaseScope (o : Op) : Option Scope := Scope.wider (if releases o.ord then some o.scope else none) o.fence

/-- A release by a core to a line of a `PROMO` page is recorded at core scope, with the operation, and forgotten at device scope or
wider (R96). -/
def State.promoAt (s : State) (core id ctx va : Nat) (sc : Scope) : State :=
  match s.placeOf ctx va (pairOf core) true with
  | some (w, ph) =>
    if !pwPromo w then s
    else if sc = .core then { s with promo := Map.put (ph / 256) (core, id) s.promo }
    else if 3 ≤ Scope.rank sc then { s with promo := Map.del (ph / 256) s.promo }
    else s
  | none => s

def State.notePromo (s : State) (id : Nat) (o : Op) (va : Nat) : State :=
  match o.releaseScope with
  | some sc => s.promoAt o.core id o.ctx va sc
  | none => s

/-- A release that covers a range of global memory: a copy's at its completion, or the device's own (R96, R99). -/
def State.promoOver (s : State) (core id ctx va n : Nat) (sc : Scope) : State :=
  (((pageStarts va n).filter fun p => !(s.remote? p).isSome && (s.placeOf ctx p (pairOf core) true).any fun x => pwPromo x.1).flatMap
    fun p => pieces p 257 (min (2 ^ 16 - p % 2 ^ 16) (va + n - p))).foldl (fun s e => s.promoAt core id ctx e.1 sc) s

/-- Whether an acquire at scope 5 has still to wait for the core that last released to its line at core scope: for the stores
and atomics that it performed, and the copies that it started, before the release (R96). -/
def State.forcing (s : State) (o : Op) (va : Nat) : Bool :=
  acquires o.ord && o.scope = .devp && match s.placeOf o.ctx va (pairOf o.core) true with
    | some (w, ph) => pwPromo w && match Map.get? s.promo (ph / 256) with
      | some (core, id) => s.ops.any fun e => decide (e.1 < id) && e.2.core = core && !e.2.st.settled && !e.2.held
          && e.2.st ≠ .parked && (match e.2.kind with
            | .store _ _ _ | .atom _ _ _ _ _ _ _ _ => true
            | .async a _ => a.pos = 0 && a.buf.isEmpty
            | _ => false)
      | none => false
    | none => false

/-- The key of an address's line in a core's L1: its place, or for a peer's line (R169) a number beyond every place. -/
def State.l1Key (s : State) (core ctx va : Nat) : Option Nat :=
  if vaOk va && (s.remote? va).isSome then some (2 ^ 64 * (ctx + 1) + va / 256)
  else (s.placeOf ctx va (pairOf core) false).map fun p => p.2 / 256

/-- A store by a core updates its own L1's copy of the line (R163). -/
def State.l1Store (s : State) (core ctx va : Nat) (bs : List Byte) : State :=
  match s.l1Key core ctx va with
  | none => s
  | some k =>
    match Map.get? (s.core core).l1 k with
    | none => s
    | some (at_, line) =>
      let o := va % 256
      s.modCore core fun c => { c with l1 := Map.put k (at_, line.take o ++ bs ++ line.drop (o + bs.length)) c.l1 }

/-- The line of an address leaves a core's L1, so that no later load finds an older value there (R91). -/
def State.l1Drop (s : State) (core ctx va : Nat) : State :=
  match s.l1Key core ctx va with
  | some k => s.modCore core fun c => { c with l1 := Map.del k c.l1 }
  | none => s

/-- The lines of a range leave a core's L1. -/
def State.l1DropAll (s : State) (core ctx va n : Nat) : State :=
  (pieces va (n + 1) n).foldl (fun s e => s.l1Drop core ctx e.1) s

/-- Whether the clocks run that an access to an address needs at its home and at the die whose memory holds it: what is in flight to a
pair that relocks waits (R403). -/
def State.homeClocked (s : State) (ctx va : Nat) : Bool :=
  let on (d : Nat) : Bool := decide (4 ≤ d) || (s.pair d).relock.isNone
  on (vaHome va) && (s.placeOf ctx va (vaHome va) false).all fun p => on (dieOfPhys p.2)

/-- Whether an access that its agent makes again until it can be made may be made now: the clocks run that it needs (R403), and no
walk stands before it (R317). -/
def State.gateAt (s : State) (ctx va n ex lane : Nat) : State × Bool :=
  if vaOk va && (s.remote? va).isNone && !s.homeClocked ctx va then (s, false) else s.walked ctx va n ex lane

/-- Fills the L1 with the line of an address; a holder of a `REPL` page whose copy is invalid refills that first (R315). -/
def State.l1Fill (s : State) (core ctx va : Nat) : State :=
  match s.leafOf ctx va with
  | .error _ => s
  | .ok f =>
    let die := pairOf core
    let o := vaOfs va - f.base
    let (w, fr) := s.placing f o
    let s := s.refill w fr o die
    let base := spot w fr (o / 256 * 256) (pwServe w die false)
    if s.poisoned base 256 then s
    else s.modCore core fun c => c.l1Put (base / 256) s.rtime (s.readPhys base 256)

/-- What the L1 holds of `n` bytes at an address, in a line filled less than 4,096 ticks ago: an older one could miss a
write that R95 makes visible. -/
def State.l1Read (s : State) (core ctx va n : Nat) : Option (List Byte) :=
  match (s.l1Key core ctx va).bind fun k => Map.get? (s.core core).l1 k with
  | some (at_, line) => if s.rtime < at_ + 4096 then some ((line.drop (va % 256)).take n) else none
  | none => none

/-! ## Atomics (R164 to R166, R328) -/

/-- The new value of a location: `n` bytes, old value m, operand v, compare value c. -/
def atomNew (aop n m v c : Nat) : Nat :=
  let b := 8 * n
  match aop with
  | 0 => (m + v) % 2 ^ b
  | 1 => (Fmt.f32.add .rne m v).1
  | 2 => if sext b m ≤ sext b v then m else v
  | 3 => min m v
  | 4 => if sext b m ≤ sext b v then v else m
  | 5 => max m v
  | 6 => (Fmt.f32.minmax false m v).1
  | 7 => (Fmt.f32.minmax true m v).1
  | 8 => m &&& v
  | 9 => m ||| v
  | 10 => m ^^^ v
  | 11 => v
  | 12 => if m = c then v else m
  | 13 => if v ≤ m then 0 else m + 1
  | _ => m

/-- A cell of a bank (R327). -/
structure Cell where
  st : GmState
  shp : Word
  mode : Nat
  deriving DecidableEq, Repr

def Cell.read (bs : List Byte) : Cell :=
  let w (i : Nat) : Word := BitVec.ofNat 32 (ofBytes ((bs.drop (4 * i)).take 4))
  ⟨⟨(w 0).toNat, w 1, w 2⟩, w 3, (w 4).toNat % 16⟩

def Cell.bytes (c : Cell) : List Byte :=
  toBytes 4 c.st.s ++ toBytes 4 c.st.e.toNat ++ toBytes 4 c.st.n.toNat ++ toBytes 4 c.shp.toNat ++ toBytes 4 c.mode
    ++ toBytes 12 0

/-- `GmAdd` (R328): the cell left, and whether it fails. -/
def gmAdd (v : GmEnv) (cell : Cell) (a : GmState) (shp : Word) : Cell × Bool :=
  let bad := Gm.bad v || Gm.isNan a.s
  if !bad && a.n = 0 then (cell, false)
  else if cell.st.n = 0 then
    if bad then (⟨{ a with s := Gm.nanC }, shp, v.mode⟩, true) else (⟨a, shp, v.mode⟩, false)
  else if bad || v.mode ≠ cell.mode || shp ≠ cell.shp || Gm.isNan cell.st.s
      || decide (2 ^ 32 ≤ cell.st.n.toNat + a.n.toNat) then
    ({ cell with st := { cell.st with s := Gm.nanC } }, true)
  else ({ cell with st := (Gm.merge v cell.st a).1 }, false)

/-- Reads, changes and writes a location; answers the state, the old value (or exit value), and a failure that still
writes. -/
def State.atomicAt (s : State) (o : Op) (sp : Space) (a aop n : Nat) (v : List Byte) (mode : BitVec 4) (shape : Word) :
    Except XErr (State × Nat × Option Cause) :=
  let size := if 14 ≤ aop then 32 else n
  let perm : Perm := { r := true, w := true }
  match s.spaceRead sp o.gid o.ctx o.core a size perm with
  | .error e => .error e
  | .ok (s, old) =>
    if aop = 14 then
      let w (i : Nat) : Word := BitVec.ofNat 32 (ofBytes ((v.drop (4 * i)).take 4))
      let shp := if mode = 0 then shape else 0
      let env := s.gmEnv o.ctx mode shape
      let (cell, bad) := gmAdd env (Cell.read old) ⟨(w 0).toNat, w 1, w 2⟩ shp
      let none_ := !Gm.bad env && !Gm.isNan (w 0).toNat && w 2 = 0
      match s.spaceWrite sp o.gid o.ctx o.core a (if none_ then old else cell.bytes) with
      | .error e => .error e
      | .ok s => .ok (s, 0, if bad then some .gmDomain else none)
    else if aop = 15 then
      let cell := Cell.read old
      let env := s.gmEnv o.ctx (BitVec.ofNat 4 cell.mode) cell.shp
      .ok (s, (Gm.exit env cell.st).1, none)
    else
      let m := ofBytes old
      let new := atomNew aop n m (ofBytes (v.take n)) (ofBytes (v.drop n))
      match s.spaceWrite sp o.gid o.ctx o.core a (toBytes n new) with
      | .error e => .error e
      | .ok s => .ok (s, m, none)

/-! ## Performing (R162, R163, R70, R72) -/

/-- Whether an access meets a page that is not present. -/
def State.absent (s : State) (ctx va : Nat) (p : Perm) (die : Nat) : Bool :=
  match s.translate ctx va p (s.sysMode ctx) die with
  | .error .notPresent => true
  | _ => false

/-- The lanes of an operation park on a page that is not present (R320). -/
def State.park (s : State) (id : Nat) (o : Op) : State :=
  let s := s.modOp id fun o => { o with st := .parked }
  o.lanes.foldl (fun s l => s.modThread o.gid l.1 fun t => { t with parked := true }) s

/-- The register words of a loaded value. -/
def loadWords (n : Nat) (sgn : Bool) (bs : List Byte) : List Word :=
  let v := ofBytes bs
  if n < 4 then [if sgn then BitVec.ofInt 32 (Machine.sext (8 * n) v) else BitVec.ofNat 32 v] else wordsOf (n / 4) v

/-- A load's value arrives. -/
def State.loaded (s : State) (id : Nat) (o : Op) (n : Nat) (sgn : Bool) (bs : List Byte) : State :=
  ((((s.deliver o (loadWords n sgn bs)).settle id .ok).doneA id).acquire o.core
    (if acquires o.ord then o.scope else .grp))

/-- A write at an address by an operation or a peer's request: true where it may be made now. A write to a line of a `REPL` page
first waits for the invalidates of the holder dies, and writers to one line are served in the order of their arrival
(R101). -/
def State.replGate (s : State) (op : Nat) (src : Option Nat) (ctx va : Nat) : State × Bool :=
  match s.placeOf ctx va 0 true with
  | none => (s, true)
  | some (w, ph) =>
    let hs := if pwRepl w then (otherHolders w).filter s.dieServes else []
    if hs.isEmpty then (s, true)
    else
      let line := ph / 256
      match s.replQ.find? fun e => e.2.op = op && e.2.src = src && e.2.line = line with
      | none => ({ s with replQ := Map.put s.nextId ⟨line, op, src, hs⟩ s.replQ, nextId := s.nextId + 1 }, false)
      | some (k, e) =>
        if e.acks.isEmpty && !s.replQ.any fun x => decide (x.1 < k) && x.2.line = line && s.replLive x.2 then
          ({ s with replQ := Map.del k s.replQ }, true)
        else (s, false)

/-- The same for a write of several lines at once: it is made when all of them may be. -/
def State.replGates (s : State) (op : Nat) (src : Option Nat) (ctx : Nat) (vas : List Nat) : State × Bool :=
  let (s', ok) := vas.foldl (fun (r : State × Bool) va =>
    let (t, b) := r.1.replGate op src ctx va
    if b then ({ t with replQ := r.1.replQ }, r.2) else (t, false)) (s, true)
  if ok then ({ s' with replQ := s'.replQ.filter fun e => !(e.2.op = op && e.2.src = src) }, true) else (s', false)

/-- A global store enters memory and settles. -/
def State.storeDone (s : State) (id : Nat) (o : Op) (va : Nat) (bs : List Byte) : State :=
  match s.spaceWrite .global o.gid o.ctx o.core va bs with
  | .error .notPresent => s.park id o
  | .error (.cause c) => s.fail id c
  | .ok s =>
    let s := s.l1Store o.core o.ctx va bs
    let s := s.notePromo id o va
    ((s.escape id ⟨.store, Nat.log2 bs.length, va⟩).settle id .ok).doneB id

/-- Whether an access may read a global address, so that the L1 may serve it (R161, R311). -/
def State.mayRead (s : State) (o : Op) (va : Nat) : Bool :=
  match s.translate o.ctx va { r := true } (s.sysMode o.ctx) (pairOf o.core) with
  | .ok _ => true
  | .error _ => false

/-- A store or an atomic that has reached its home is performed (R163 to R166). An accepted write is visible to every reader at
once, whatever its scope (DESIGN CHOICE, log entry 23). -/
def State.writeMem (s : State) (id : Nat) (o : Op) : State :=
  match o.kind with
  | .store sp a bs =>
    if sp = .global then s.storeDone id o a bs
    else
      match s.spaceWrite sp o.gid o.ctx o.core a bs with
      | .error e => s.fail id e.toCause
      | .ok s => ((s.escape id ⟨.store, Nat.log2 bs.length, a⟩).settle id .ok).doneB id
  | .atom sp a aop n v ret mode shape =>
    match s.atomicAt o sp a aop.toNat n v mode shape with
    | .error .notPresent => s.park id o
    | .error (.cause c) => s.fail id c
    | .ok (s, m, bad) =>
      let s := s.acquire o.core (if acquires o.ord then o.scope else .grp)
      let s := if sp = .global then (s.notePromo id o a).l1Store o.core o.ctx a (s.readPhys
        (((s.placeOf o.ctx a (pairOf o.core) true).map Prod.snd).getD 0) n) else s
      let s := s.escape id ⟨.atom, Nat.log2 (if aop = 14 then 16 else n), a⟩
      match bad with
      | some c => s.fail id c
      | none =>
        let s := if ret then s.deliver o (loadWords n false (toBytes n m)) else s
        let s := s.settle id .ok
        if ret then s.doneA id else s.doneB id
  | _ => s

/-- The address that an operation of the MEM page accesses in global memory, with what it needs. -/
def Op.global? (o : Op) : Option (Nat × Perm) :=
  match o.kind with
  | .load .global a _ _ | .pref a _ => some (a, { r := true })
  | .store .global a _ => some (a, { w := true })
  | .atom .global a _ _ _ _ _ _ => some (a, { r := true, w := true })
  | _ => none

/-- Performs a load, a store, an atomic or a prefetch on the own device; `l1`: whether the L1 serves a relaxed load. -/
def State.performMem (s : State) (l1 : Bool) (id : Nat) : State :=
  match s.op? id with
  | none => s
  | some o =>
    let s := match o.global? with
      | some (a, p) => s.meets o.ctx a 1 p (s.sysMode o.ctx) (pairOf o.core)
      | none => s
    let s := match o.access? with
      | some (.bank, a, n) => s.bankTouch o.ctx a n
      | _ => s
    match o.kind with
    | .load sp a n sgn =>
      let hit := if l1 && sp = .global && !acquires o.ord && Scope.rank o.scope ≤ 1 && s.mayRead o a then
        s.l1Read o.core o.ctx a n else none
      match hit with
      | some bs => s.loaded id o n sgn bs
      | none =>
        match s.spaceRead sp o.gid o.ctx o.core a n { r := true } with
        | .error .notPresent => s.park id o
        | .error (.cause c) => s.fail id c
        | .ok (s, bs) =>
          let s := if sp = .global then s.l1Fill o.core o.ctx a else s
          s.loaded id o n sgn bs
    | .store .global a _ | .atom .global a _ _ _ _ _ _ =>
      match s.translate o.ctx a (match o.kind with
        | .store _ _ _ => { w := true }
        | _ => { r := true, w := true }) (s.sysMode o.ctx) (pairOf o.core) with
      | .error _ => s.writeMem id o
      | .ok _ =>
        match s.replGate id none o.ctx a with
        | (s, true) => s.writeMem id o
        | (s, false) => s
    | .store _ _ _ | .atom _ _ _ _ _ _ _ _ => s.writeMem id o
    | .pref a toL1 =>
      match s.translate o.ctx a { r := true } (s.sysMode o.ctx) (pairOf o.core) with
      | .error .notPresent => s.settleFlags id .ok
      | .error (.cause c) => if s.unbacked o.ctx a || (s.epoch? o.ctx a).isSome then s.settleFlags id .ok else s.fail id c
      | .ok (f, ph) =>
        let (w, _) := s.placing f (vaOfs a - f.base)
        if !toL1 && pwBound w then s.settleFlags id .ok
        else if s.poisoned (ph / 256 * 256) 256 || s.cxlGone ph then s.fail id .poison
        else
          let s := s.noteLeaf o.ctx f false
          (if toL1 then s.l1Fill o.core o.ctx a else s.nearFill w f.home ph).settleFlags id .ok
    | _ => s

/-- The global line of an operation: also the one that a multicast has still to read, and the own one of a pulled reduction. -/
def State.lineOf (s : State) (o : Op) : Option Nat :=
  match o.kind with
  | .mcst m => if m.local_ || !m.line.isEmpty then none else some (s.plainVa m.src / 256)
  | .rload r => if r.poss.contains s.deviceIndex.toNat && r.for_.isNone then some (r.addr / 256) else none
  | _ => o.global?.map fun a => s.plainVa a.1 / 256

/-- Whether an older acquire of an operation's threads has still to be performed (R91). -/
def State.afterAcquire (s : State) (id : Nat) (o : Op) : Bool :=
  s.ops.any fun e => decide (e.1 < id) && e.2.isAcquire && !e.2.st.settled && e.2.gid = o.gid
    && e.2.lanes.any fun l => (o.seq? l.1).isSome

/-- What stands before an operation: an older operation of its core on its line, or an older acquire of its threads
(R91, R162). A parked one stands before those of its own threads only (R320, R323). -/
def State.behind (s : State) (id : Nat) (o : Op) : Bool :=
  s.ops.any fun e => decide (e.1 < id) && !e.2.st.settled &&
    let own := e.2.gid = o.gid && e.2.lanes.any fun l => (o.seq? l.1).isSome
    (own || e.2.st ≠ .parked) &&
      ((e.2.core = o.core && e.2.ctx = o.ctx && (s.lineOf o).isSome && decide (s.lineOf e.2 = s.lineOf o)) || (own && e.2.isAcquire))

/-- Whether a waiting operation may be performed. -/
def State.mayPerform (s : State) (id : Nat) (o : Op) : Bool :=
  o.st = .waiting && !o.held && !s.behind id o && !(s.lineOf o).any fun l => s.forcing o (l * 256)

/-- A remote access leaves its core: a relaxed load that finds its line in the L1 is served there. -/
def State.startFar (s : State) (id : Nat) (o : Op) : State :=
  match o.kind with
  | .load _ a n sgn =>
    match if !acquires o.ord && Scope.rank o.scope ≤ 1 then s.l1Read o.core o.ctx a n else none with
    | some bs => s.loaded id o n sgn bs
    | none => s.sendMem id
  | _ => s.sendMem id

/-- A memory operation that is not held any longer starts: scratchpad accesses are performed, remote ones sent, after the acquires
before them (R91), or served by the L1 (R169); those whose page the walker's cache has not got wait for a walk, and lanes whose page is
not present park, with the PC after the instruction (R70, R317, R320, R350). -/
def State.startMem (s : State) (id : Nat) : State :=
  match s.op? id with
  | none => s
  | some o =>
    let global (a : Nat) (p : Perm) (parks : Bool) : State :=
      if !vaOk a then s.fail id .translation
      else if (s.remote? a).isSome then if s.afterAcquire id o then s else s.startFar id o
      else
        let s := s.miss o.ctx a o.ex ((o.lanes.map Prod.fst).headD 0)
        if parks && s.absent o.ctx a p (pairOf o.core) then s.park id o else s
    match o.kind with
    | .load sp a _ _ =>
      if sp = .scratch then s.performMem false id else if sp = .global then global a { r := true } true else s
    | .store sp a _ =>
      if sp = .scratch then s.performMem false id else if sp = .global then global a { w := true } true else s
    | .atom sp a _ _ _ _ _ _ =>
      if sp = .scratch then s.performMem false id
      else if sp = .global then global a { r := true, w := true } true else s
    | .pref a _ => global a { r := true } false
    | _ => s

/-- Whether a scratchpad instruction comes too early in some thread of its path: it is performed at issue, so it waits for what
stands before it in program order, unless it is held (R91, R73). -/
def State.tooEarly (s : State) (sp : Space) (gid : Nat) (x : Mx) (ordered : Bool) : Bool :=
  sp = .scratch && match s.cur, s.group? gid with
    | some c, some g => c.lanes.any fun l => !s.mustHold g l x.ord x.h ordered && s.orderPending gid l
    | _, _ => false

/-! ## Loads, stores and atomics (R158 to R166) -/

/-- The bytes of width code w. -/
def Mx.bytes (x : Mx) : Nat := 2 ^ x.w.val

def loadReq (sp : Space) (x : Mx) (d a b : Opnd) (s : State) (gid l : Nat) : Issue :=
  let n := Mx.bytes x
  let ea := s.ea sp gid l a b x.ofs
  match s.eaBad sp gid ea n n with
  | some c => .error (.trap c ea)
  | none =>
  if s.tooEarly sp gid x false then .error (.stall .order)
  else .ok { kind := .load sp ea n x.sgn, ord := x.ord, scope := x.scope, h := x.h, ordered := false
             dst := some (d, widthRegs x.w.val) }

def storeReq (sp : Space) (x : Mx) (d a b : Opnd) (s : State) (gid l : Nat) : Issue :=
  let n := Mx.bytes x
  let ea := s.ea sp gid l a b x.ofs
  match s.eaBad sp gid ea n n with
  | some c => .error (.trap c ea)
  | none =>
  if s.tooEarly sp gid x true then .error (.stall .order)
  else .ok { kind := .store sp ea (s.srcBytes gid l d n), ord := x.ord, scope := x.scope, h := x.h }

def atomReq (sp : Space) (x : Mx) (d a b : Opnd) (s : State) (gid l : Nat) : Issue :=
  let n := Mx.bytes x
  let gm := 14 ≤ x.aop.toNat
  let ea := s.ea sp gid l a b x.ofs
  match s.eaBad sp gid ea n (if gm then 32 else n) with
  | some c => .error (.trap c ea)
  | none =>
  if s.tooEarly sp gid x true then .error (.stall .order) else
    let v := s.srcBytes gid l d (if x.aop = 12 then 2 * n else n)
    let (mode, shape) := match s.group? gid with
      | some g => (g.gmMode, g.gmShape)
      | none => (0, 0)
    .ok { kind := .atom sp ea x.aop n v x.ret mode shape, ord := x.ord, scope := x.scope, h := x.h
          dst := if x.ret then some (d, widthRegs x.w.val) else none }

def execLdg (p : Pre) (x : Mx) (d a b : Opnd) (s : State) : Out :=
  issue (.ldg p x d a b) p State.startMem true false (loadReq .global x d a b) s
def execLds (p : Pre) (x : Mx) (d a b : Opnd) (s : State) : Out :=
  issue (.lds p x d a b) p State.startMem true false (loadReq .scratch x d a b) s
def execLdb (p : Pre) (x : Mx) (d a b : Opnd) (s : State) : Out :=
  issue (.ldb p x d a b) p State.startMem true false (loadReq .bank x d a b) s
def execStg (p : Pre) (x : Mx) (d a b : Opnd) (s : State) : Out :=
  issue (.stg p x d a b) p State.startMem false true (storeReq .global x d a b) s
def execSts (p : Pre) (x : Mx) (d a b : Opnd) (s : State) : Out :=
  issue (.sts p x d a b) p State.startMem false true (storeReq .scratch x d a b) s
def execStb (p : Pre) (x : Mx) (d a b : Opnd) (s : State) : Out :=
  issue (.stb p x d a b) p State.startMem false true (storeReq .bank x d a b) s
def execAtomg (p : Pre) (x : Mx) (d a b : Opnd) (s : State) : Out :=
  issue (.atomg p x d a b) p State.startMem x.ret (!x.ret) (atomReq .global x d a b) s
def execAtoms (p : Pre) (x : Mx) (d a b : Opnd) (s : State) : Out :=
  issue (.atoms p x d a b) p State.startMem x.ret (!x.ret) (atomReq .scratch x d a b) s
def execAtomb (p : Pre) (x : Mx) (d a b : Opnd) (s : State) : Out :=
  issue (.atomb p x d a b) p State.startMem x.ret (!x.ret) (atomReq .bank x d a b) s

/-- A prefetch is aligned to nothing: its line is that of its address (R169). -/
def execPref (p : Pre) (x : Mx) (a b : Opnd) (s : State) : Out :=
  issue (.pref p x a b) p State.startMem false true (fun s gid l =>
    .ok { kind := .pref (s.eaGlobal gid l a b x.ofs) (x.w.val == 0), ordered := false }) s

/-! ## Fences (R167, R168) -/

/-- Whether an operation keeps a fence waiting: every atomic before an acquire fence acts as an acquire (R90, R167). -/
def Op.keepsFence (o : Op) (sc : Bool) : Bool :=
  match o.kind with
  | .load _ _ _ _ => true
  | .atom _ _ _ _ _ _ _ _ => true
  | .store _ _ _ => sc
  | _ => false

/-- The order of a fence: code 0 is `.SC`, which below device scope acts as `.AR`. -/
def fenceSc (x : Mx) : Bool := x.ord = .rlx && decide (3 ≤ Scope.rank x.scope)

/-- Whether the acquire side of a fence, or an `.SC`, is still waiting: `upto` is the thread's `OPC` at the fence. -/
def State.fencePending (s : State) (gid l : Nat) (x : Mx) (upto : Nat) : Bool :=
  x.ord ≠ .rel && (s.unsettled gid l).any fun e =>
    e.2.keepsFence (fenceSc x) && decide (sdiff ((e.2.seq? l).getD 0) (BitVec.ofNat 32 upto) < 0)

/-- What a fence does once its waits are over. -/
def State.fenceEnd (s : State) (gid : Nat) (x : Mx) : State :=
  match s.group? gid with
  | some g => if x.ord = .rel then s else s.acquire g.core x.scope
  | none => s

def execFence (p : Pre) (x : Mx) (s : State) : Out :=
  inSlot (.fence p x) p s (perLane (.fence p x) fun s gid l =>
    let s := if x.ord = .acq then s else
      let s := s.modThread gid l fun t => { t with relFence := Scope.wider t.relFence (some x.scope) }
      if x.scope = .sys then s.drainThread gid l else s
    let upto := (s.thread gid l).opc.toNat
    if s.fencePending gid l x upto then (s, .wait (.fence x upto)) else (s.fenceEnd gid x, .next))

/-- The walkers that a `TFENCE` reaches: the four homes, and at system scope every peer with a link up, numbered from
16. -/
def State.walkers (s : State) (sc : Scope) : List Nat :=
  List.range 4 ++ (if sc = .sys then ((List.range 512).filter fun p => !(s.planesTo p).isEmpty).map (· + 16) else [])

def execTfence (p : Pre) (x : Mx) (s : State) : Out :=
  issue (.tfence p x) p State.startMem false true (fun s _ _ => .ok { kind := .tfence (s.walkers x.scope), ordered := false }) s

/-! ## Queue windows (R29, R170) -/

/-- The partner of a group in a SHADOW launch. -/
def Group.partner (g : Group) : Option Nat :=
  match g.kind with
  | .plain => none
  | .compute q | .shadow q => some q

/-- Whether the partner thread has exited. -/
def State.partnerGone (s : State) (g : Group) (l : Nat) : Bool :=
  match g.partner.bind s.group? with
  | some q => (q.thread l).phase = .exited
  | none => true

/-- Entries of window k of a compute group's lane. -/
def State.window (s : State) (gid l k : Nat) : List Word := Map.get (s.thread gid l).q k []
def State.setWindow (s : State) (gid l k : Nat) (q : List Word) : State :=
  s.modThread gid l fun t => { t with q := Map.put k q t.q }

/-- Whether a queue instruction is held: `.H`, or a paired team (R73, R170). It then waits for older operations first, and that of a
paired team for the pair comparator, which may find a mismatch meanwhile (R70, R286). -/
def State.queueHolds (s : State) (g : Group) (h : Bool) : Bool := h || (s.team? g.team).any Team.paired

def State.queueHeld (s : State) (g : Group) (gid l : Nat) (h : Bool) : Bool :=
  s.queueHolds g h && !(s.unsettled gid l).isEmpty || ((s.team? g.team).any Team.paired && (g.thread l).wait.isNone)

/-- A held queue instruction behind a failure is dropped: it takes its number and settles without effect (R73). -/
def State.queueDropped (s : State) (g : Group) (gid l : Nat) (h : Bool) : Bool := s.queueHolds g h && (s.failure? gid l).isSome

/-- Each queue instruction takes a number and settles at once. -/
def State.countOne (s : State) (gid l : Nat) : State := s.modThread gid l fun t => { t with opc := t.opc + 1 }

/-- A dropped queue instruction takes its number and is counted among the dropped operations of its failure; the lanes of one
execution count once (R73, R79). -/
def State.countDropped (s : State) (gid l : Nat) : State :=
  match s.group? gid with
  | none => s
  | some g =>
    let t := g.thread l
    let at_ := g.cbase + t.pc
    let same := (s.ops.find? fun e => e.2.gid = gid && e.2.ins = at_ && e.2.kind = .queue && (e.2.seq? l).isNone).map fun e => e.2.ex
    let (n, s) := s.fresh
    let o : Op :=
      { ex := same.getD n, core := g.core, ctx := g.ctx, gid := gid, lanes := [(l, t.opc)], ins := at_, kind := .queue, held := true
        st := .dropped, issue := s.rtime }
    (s.addOp o).2.countOne gid l

/-- A push by a lane of a shadow group; none where it must wait. -/
def State.push (s : State) (gid l k : Nat) (w : Word) (h : Bool) : Option State :=
  match s.group? gid with
  | none => none
  | some g =>
    if s.queueHeld g gid l h then none
    else if s.queueDropped g gid l h then some (s.countDropped gid l)
    else if s.partnerGone g l then some (s.countOne gid l)
    else
      let q := g.partner.getD 0
      let ws := s.window q l k
      if 8 ≤ ws.length then none else some ((s.setWindow q l k (ws ++ [w])).countOne gid l)

/-- A pop by a lane of a compute group; none where it must wait. One that is dropped leaves its destination unchanged, which holds
`old`. -/
def State.pop (s : State) (gid l k : Nat) (h : Bool) (old : Word) : Option (State × Word) :=
  match s.group? gid with
  | none => none
  | some g =>
    if s.queueHeld g gid l h then none
    else if s.queueDropped g gid l h then some (s.countDropped gid l, old)
    else
      match s.window gid l k with
      | w :: ws => some ((s.setWindow gid l k ws).countOne gid l, w)
      | [] => if s.partnerGone g l then some (s.countOne gid l, 0) else none

def execQpush (p : Pre) (x : Mx) (d : Opnd) (a : BitVec 7) (s : State) : Out :=
  inSlot (.qpush p x d a) p s (underLimit <| perLane (.qpush p x d a) fun s gid l =>
    let w := s.src32 gid l d
    match s.push gid l a.toNat w x.h with
    | some s => (s, .next)
    | none => (if x.h then s.drainThread gid l else s, .wait (.qpush a.toNat w x.h)))

def execQpop (p : Pre) (x : Mx) (d : Opnd) (a : BitVec 7) (s : State) : Out :=
  inSlot (.qpop p x d a) p s (withNames (.qpop p x d a) (underLimit <| perLane (.qpop p x d a) fun s gid l =>
    match s.pop gid l a.toNat x.h (s.src32 gid l d) with
    | some (s, w) => (s.dst32 gid l d w, .next)
    | none => (if x.h then s.drainThread gid l else s, .wait (.qpop a.toNat d x.h))))

end Sys2Proof.Machine
end

