-- ==== Sys2Proof/Machine/Tensor.lean ====
section
/-!
DEFINITION. Sys2Proof/Machine/Tensor.lean: tensor identifier entries and how tensors and tile images are laid out (R177,
R200, R204, R205, R223, R224).
-/

namespace Sys2Proof.Machine

/-- A tensor identifier entry that passed its checks (R223). -/
structure Tx where
  base : Nat
  fmt : Nat
  spl : Nat
  rpl : Nat
  sbase : Nat
  scl : Bool
  trn : Bool
  rows : Nat
  cols : Nat
  stride : Int
  scale : Nat
  tr : Nat
  tc : Nat
  deriving DecidableEq, Repr

/-- The map of R223; none where a field is illegal. -/
def Tx.read (ws : List Word) : Option Tx :=
  let w (i : Nat) : Word := ws.getD i 0
  let fmt := (bits (w 2) 0 4).toNat
  let spl := (bits (w 2) 4 4).toNat
  let rpl := (bits (w 2) 8 4).toNat
  let scl := (w 2).getLsbD 20
  let hi (x : Word) := (bits x 16 16).toNat
  let lo (x : Word) := (bits x 0 16).toNat
  let planes : Bool := if fmt = 7 then 2 ≤ spl && spl ≤ 8 && 2 ≤ rpl && rpl ≤ spl else spl == 0 && rpl == 0
  if fmt ≤ 10 && planes && bits (w 2) 22 10 = 0 && (!scl || (3 ≤ fmt && fmt ≤ 6))
      && lo (w 3) ≠ 0 && hi (w 3) ≠ 0 && lo (w 7) ≠ 0 && hi (w 7) ≠ 0 then
    some ⟨(w 1 ++ w 0 : DWord).toNat, fmt, spl, rpl, (bits (w 2) 12 8).toNat, scl, (w 2).getLsbD 21,
      lo (w 3), hi (w 3), (w 4).toInt, (w 6 ++ w 5 : DWord).toNat, lo (w 7), hi (w 7)⟩
  else none

/-- The entry of a context. -/
def State.txWords (s : State) (ctx i : Nat) : List Word :=
  match s.ctx? ctx with
  | some c => Map.get c.tx i (List.replicate 8 0)
  | none => List.replicate 8 0

def State.tx? (s : State) (ctx i : Nat) : Option Tx := Tx.read (s.txWords ctx i)

/-- Bytes of an element of a byte-sized format; 0 for NF6, NF4 and BPI. -/
def fmtBytes (fmt : Nat) : Nat :=
  match fmt with
  | 10 => 8 | 0 | 9 => 4 | 1 | 2 => 2 | 3 | 4 | 8 => 1 | 11 => 8 | _ => 0

/-- Bytes of `n` elements in a row. -/
def rowBytes (fmt spl n : Nat) : Nat :=
  match fmt with
  | 5 => 3 * ceilDiv n 4
  | 6 => ceilDiv n 2
  | 7 => 16 * spl * ceilDiv n 128
  | f => fmtBytes f * n

/-- Rounded up to 16. -/
def pad16 (n : Nat) : Nat := ceilDiv n 16 * 16

def Tx.pitch (t : Tx) : Nat := pad16 (rowBytes t.fmt t.spl t.tc)

/-- Scale bytes of a tile (R177, R224). -/
def Tx.scales (t : Tx) : Nat :=
  if !t.scl then 0 else if t.trn then t.tr * ceilDiv t.tc 128 else ceilDiv t.tr 128 * t.tc

/-- Bytes of a tile image. -/
def Tx.image (t : Tx) : Nat := t.tr * t.pitch + pad16 t.scales

/-- Where bit `e` of element j of a row lies: the byte and the bit within it (R200, R204). For BPI, bit e is that of
plane e of the block. -/
def elemBit (fmt spl j e : Nat) : Nat × Nat :=
  match fmt with
  | 5 => (3 * (j / 4) + (6 * (j % 4) + e) / 8, (6 * (j % 4) + e) % 8)
  | 6 => (j / 2, 4 * (j % 2) + e)
  | 7 => (16 * spl * (j / 128) + 16 * e + j % 128 / 8, j % 8)
  | f => (j * fmtBytes f + e / 8, e % 8)

/-- The element and its bit that lie at bit b of byte x of a row. -/
def bitElem (fmt spl x b : Nat) : Nat × Nat :=
  match fmt with
  | 5 => (4 * (x / 3) + (8 * (x % 3) + b) / 6, (8 * (x % 3) + b) % 6)
  | 6 => (2 * x + b / 4, b % 4)
  | 7 => (128 * (x / (16 * spl)) + 8 * (x % 16) + b, x % (16 * spl) / 16)
  | f => (x / fmtBytes f, 8 * (x % fmtBytes f) + b)

/-- Bits of an element. -/
def elemBits (fmt spl : Nat) : Nat :=
  match fmt with
  | 5 => 6 | 6 => 4 | 7 => spl | f => 8 * fmtBytes f

/-- 64-bit wrap of an address. -/
def addrAt (base : Nat) (ofs : Int) : Nat := (((base : Int) + ofs) % ((2 ^ 64 : Nat) : Int)).toNat

/-- Where a bit of the image comes from or goes to: the address of the byte and the bit. -/
def Tx.source (t : Tx) (row0 col0 y b : Nat) : Option (Nat × Nat) :=
  if y < t.tr * t.pitch then
    let i := y / t.pitch
    let (j, e) := bitElem t.fmt t.spl (y % t.pitch) b
    if j < t.tc && row0 + i < t.rows && col0 + j < t.cols then
      let (o, k) := elemBit t.fmt t.spl (col0 + j) e
      some (addrAt t.base (((row0 + i : Nat) : Int) * t.stride + (o : Int)), k)
    else none
  else
    let k := y - t.tr * t.pitch
    if k < t.scales then
      if t.trn then
        let nb := ceilDiv t.tc 128
        let i := k / nb
        let j := col0 + 128 * (k % nb)
        if row0 + i < t.rows && j < t.cols then
          some (addrAt t.scale (((row0 + i) * ceilDiv t.cols 128 + j / 128 : Nat) : Int), b)
        else none
      else
        let i := row0 + 128 * (k / t.tc)
        let j := col0 + k % t.tc
        if i < t.rows && j < t.cols then some (addrAt t.scale ((i / 128 * t.cols + j : Nat) : Int), b) else none
    else none

/-- Whether a bit of the image belongs to an element or a scale byte at all, inside the tensor or not. -/
def Tx.holds (t : Tx) (y b : Nat) : Bool :=
  if y < t.tr * t.pitch then
    y % t.pitch < rowBytes t.fmt t.spl t.tc && (bitElem t.fmt t.spl (y % t.pitch) b).1 < t.tc
  else y - t.tr * t.pitch < t.scales

/-- The image bits of a sector with their sources. -/
def Tx.sector (t : Tx) (row0 col0 k : Nat) : List (Nat × Nat × Option (Nat × Nat)) :=
  ((List.range (min 64 (t.image - 64 * k))).flatMap fun y => (List.range 8).map fun b =>
    (64 * k + y, b, t.source row0 col0 (64 * k + y) b)).filter fun e => t.holds e.1 e.2.1

/-- The memory bytes that a sector touches, in ascending image order. -/
def Tx.touched (t : Tx) (row0 col0 k : Nat) : List Nat :=
  ((t.sector row0 col0 k).filterMap fun e => e.2.2.map Prod.fst).eraseDups

/-! ## Element codes of a row of bytes -/

/-- The code of element j of a row; a BPI code is its signed value read with all its planes, as a byte. -/
def codeAt (fmt spl : Nat) (row : List Byte) (j : Nat) : Nat :=
  let bit (e : Nat) : Nat :=
    let (o, k) := elemBit fmt spl j e
    if (row.getD o 0).getLsbD k then 1 else 0
  if fmt = 7 then (List.range spl).foldl (fun v p => v + bit p * 2 ^ (7 - p)) 0
  else (List.range (elemBits fmt spl)).foldl (fun v e => v + bit e * 2 ^ e) 0

/-- The `k` codes at the head of a row. -/
def codesOf (fmt spl : Nat) (row : List Byte) (n : Nat) : List Nat := (List.range n).map (codeAt fmt spl row)

/-- Packs codes into the bytes of a row. -/
def packRow (fmt : Nat) (codes : List Nat) : List Byte :=
  match fmt with
  | 5 => toBytes (rowBytes 5 0 codes.length) (pack 6 codes)
  | 6 => toBytes (rowBytes 6 0 codes.length) (pack 4 codes)
  | f => codes.flatMap (toBytes (fmtBytes f))

/-- The value of a code of a float format (R194, R199) or of I8, I32. -/
def fmtValue (fmt c : Nat) : FVal :=
  match fmt with
  | 0 => Fmt.f32.read c
  | 1 => Fmt.bf16.read c
  | 2 => Fmt.f16.read c
  | 3 => NFmt.nf8.read c
  | 4 => NFmt.nf8w.read c
  | 5 => NFmt.nf6.read c
  | 6 => NFmt.nf4.read c
  | 8 => FVal.ofInt (Machine.sext 8 c)
  | 9 => FVal.ofInt (Machine.sext 32 c)
  | _ => Fmt.f64.read c

/-- The value of a BPI weight code read with k planes (R204). -/
def bpiValue (k c : Nat) : Int :=
  let q := Machine.sext 8 c
  if k < 8 then q / ((2 ^ (8 - k) : Nat) : Int) * ((2 ^ (8 - k) : Nat) : Int) + ((2 ^ (7 - k) : Nat) : Int) else q

end Sys2Proof.Machine
end

