-- ==== Sys2Proof/Machine/Async.lean ====
section
/-!
DEFINITION. Sys2Proof/Machine/Async.lean: the ASYNC page (R173 to R189): tickets and promises, copies and tile moves by
64-byte sectors, byte-counting barriers, bank streams, re-striping and the placement query.
-/

namespace Sys2Proof.Machine

/-! ## Byte-counting barriers (R180 to R183) -/

/-- A byte-counting barrier as its 16 bytes give it. -/
structure BBar where
  pend : Nat
  init : Nat
  st : Nat
  bal0 : Word
  bal1 : Word
  deriving DecidableEq, Repr

def BBar.read (bs : List Byte) : BBar :=
  let n (o k : Nat) : Nat := ofBytes ((bs.drop o).take k)
  ⟨n 0 2, n 2 2, n 4 4 % 8, BitVec.ofNat 32 (n 8 4), BitVec.ofNat 32 (n 12 4)⟩

def BBar.bytes (b : BBar) : List Byte :=
  toBytes 2 b.pend ++ toBytes 2 b.init ++ toBytes 4 b.st ++ toBytes 4 b.bal0.toNat ++ toBytes 4 b.bal1.toNat

def BBar.phase (b : BBar) : Nat := b.st % 2
def BBar.overrun (b : BBar) : Bool := b.st / 2 % 2 == 1
def BBar.setErr (b : BBar) : BBar := { b with st := b.st ||| 4 }
def BBar.bal (b : BBar) (p : Nat) : Word := if p = 0 then b.bal0 else b.bal1
def BBar.setBal (b : BBar) (p : Nat) (w : Word) : BBar := if p = 0 then { b with bal0 := w } else { b with bal1 := w }

/-- `Check`: a phase with nothing pending and no positive balance completes (R182). -/
def BBar.check (b : BBar) : BBar :=
  let p := b.phase
  if b.pend = 0 ∧ (b.bal p).toInt ≤ 0 then
    let b := if (b.bal p).toInt < 0 then { b with st := b.st ||| 2 } else b
    let b := b.setBal p 0
    { b with st := b.st / 2 * 2 + (1 - p), pend := b.init }
  else b

/-- One arrival, as by `BARR` (R181). -/
def BBar.arrive (b : BBar) : BBar := if b.pend = 0 then b.setErr else { b with pend := b.pend - 1 }.check

def BBar.expect (b : BBar) (n : Word) : BBar := (b.setBal b.phase (b.bal b.phase + n)).check

/-- The credit of a counted operation (R182). -/
def BBar.credit (b : BBar) (bytes : Bool) (q : Nat) (c : Nat) (err : Bool) : BBar :=
  let b := if bytes then b.setBal q (b.bal q - BitVec.ofNat 32 c)
    else if b.pend = 0 then b.setErr else { b with pend := b.pend - 1 }
  (if err then b.setErr else b).check

/-- The barrier at a scratchpad address of a team. -/
def State.bbar? (s : State) (tid a : Nat) : Option (Nat × BBar) :=
  (s.scratch? tid a 16).map fun ph => (ph, BBar.read (s.readPhys ph 16))

/-- Threads that wait in `BWAIT` for the barrier at a physical address to leave a parity go on when it has (R183). An
overrun is a PRECISE trap there. -/
def State.wakeBwait (s : State) (ph : Nat) : State :=
  let b := BBar.read (s.readPhys ph 16)
  s.groups.foldl (fun s e =>
    let hit := e.2.threads.filterMap fun t => match t.2.wait with
      | some (.bwait a par d) =>
        if s.scratch? e.2.team a 16 = some ph && decide (b.phase ≠ par.toNat) && !s.deliverable e.1 t.1 then
          some (t.1, a, d) else none
      | _ => none
    if b.overrun then
      (s.trapLanes e.1 .precise (hit.length + 1) (hit.map fun h => (h.1, .barrierOverrun, h.2.1))).freeWith e.1
        (hit.map Prod.fst)
    else hit.foldl (fun s h =>
      ((s.acquire e.2.core .clu).dstWait e.1 h.1 h.2.2 (BitVec.ofNat 32 b.st)).wake e.1 h.1) s) s

/-- Updates the barrier at a physical address and lets its waiters go on. -/
def State.updBar (s : State) (ph : Nat) (f : BBar → BBar) : State :=
  (s.writePhys ph (f (BBar.read (s.readPhys ph 16))).bytes).wakeBwait ph

/-- The checks of a barrier address (R181). -/
def State.barBad (s : State) (gid a : Nat) : Option Cause := s.eaBad .scratch gid a 16 16

/-- One update of a barrier by each executing thread. -/
def barUpdate (i : Instr) (a : Opnd) (bad : Word → Bool) (v : Opnd) (f : Word → BBar → BBar) :
    State → Slot → Group → List Nat → State × List (Nat × LaneRes) :=
  perLane i fun s gid l =>
    let ad := (s.src32 gid l a).toNat
    let w := s.src32 gid l v
    match s.barBad gid ad with
    | some c => (s, .trap c ad)
    | none =>
      if bad w then (s, .trap .illegalOperand 0)
      else
        match s.scratch? (s.teamOf gid) ad 16 with
        | some ph => (s.updBar ph (f w), .next)
        | none => (s, .trap .scratchRange ad)

def execBinit (p : Pre) (a b : Opnd) (s : State) : Out :=
  inSlot (.binit p a b) p s (barUpdate (.binit p a b) a (fun w => w.toNat = 0 || decide (65535 < w.toNat)) b
    (fun w _ => ⟨w.toNat, w.toNat, 0, 0, 0⟩))
def execBexp (p : Pre) (a b : Opnd) (s : State) : Out :=
  inSlot (.bexp p a b) p s (barUpdate (.bexp p a b) a (fun _ => false) b (fun w x => x.expect w))
def execBarr (p : Pre) (a : Opnd) (s : State) : Out :=
  inSlot (.barr p a) p s (afterStores (barUpdate (.barr p a) a (fun _ => false) .nul (fun _ x => x.arrive)))

def execBwait (p : Pre) (d a b : Opnd) (s : State) : Out :=
  inSlot (.bwait p d a b) p s (withNames (.bwait p d a b) (perLane (.bwait p d a b) fun s gid l =>
    let ad := (s.src32 gid l a).toNat
    let par := (s.src32 gid l b).getLsbD 0
    match s.barBad gid ad, s.bbar? (s.teamOf gid) ad with
    | some c, _ => (s, .trap c ad)
    | none, none => (s, .trap .scratchRange ad)
    | none, some (_, x) =>
      if x.phase = par.toNat then (s, .wait (.bwait ad par d))
      else if x.overrun then (s, .trap .barrierOverrun ad)
      else ((s.acquire ((s.group? gid).elim 0 Group.core) .clu).dst32 gid l d (BitVec.ofNat 32 x.st), .next)))

def execBtest (p : Pre) (d : BitVec 7) (a b : Opnd) (s : State) : Out :=
  inSlot (.btest p d a b) p s (perLane (.btest p d a b) fun s gid l =>
    let ad := (s.src32 gid l a).toNat
    let par := (s.src32 gid l b).getLsbD 0
    match s.barBad gid ad, s.bbar? (s.teamOf gid) ad with
    | some c, _ => (s, .trap c ad)
    | none, none => (s, .trap .scratchRange ad)
    | none, some (_, x) =>
      let done := decide (x.phase ≠ par.toNat)
      if done && x.overrun then (s, .trap .barrierOverrun ad)
      else
        let s := if done then s.acquire ((s.group? gid).elim 0 Group.core) .clu else s
        (s.setPair gid d.toNat l done, .next))

/-! ## Tickets (R174, R178, R179) -/

/-- Free slots of a core, lowest first. -/
def State.freeSlots (s : State) (core : Nat) : List Nat :=
  (List.range 256).filter fun k => ((Map.get (s.core core).slots k {}).op).isNone

/-- The slot and the operation that a ticket names; none where it is stale. -/
def State.ticketOp (s : State) (core : Nat) (t : Word) : Option Nat :=
  if t.toNat / 2 ^ 24 ≠ 0 then none
  else
    let sl := Map.get (s.core core).slots (t.toNat % 256) {}
    if sl.gen = t.toNat / 256 then sl.op else none

def ticketOf (k gen : Nat) : Word := BitVec.ofNat 32 (k + 256 * gen)

/-- Frees the slot of an asynchronous operation: its ticket is stale from then on. -/
def State.freeSlot (s : State) (core : Nat) (a : Async) : State :=
  match a.slot with
  | some k => s.modCore core fun c => { c with slots := Map.mod k (fun sl => { sl with op := none }) c.slots }
  | none => s

/-! ## Settlement of what an engine runs, detached or not (R295) -/

/-- Writes an outcome into status words: the status in the low half, the cause in the high one (R288, R379). An object
that the scheduler wrote lies in the save area, where the device writes in system mode. -/
def State.putStatus (s : State) (ctx core : Nat) (st : OpSt) (addrs : List Nat) : Except XErr State :=
  let (n, c) := match st with
    | .failed c => (2, c.code)
    | _ => (1, 0)
  let sys (a : Nat) : Bool :=
    s.sysMode ctx || s.saves.any fun e => e.2.ctx = ctx && e.2.base ≤ a && a < e.2.base + e.2.len
  addrs.foldl (fun r a => match r with
    | .ok s => s.dwrite ctx a (toBytes 2 n ++ toBytes 2 c) (sys a) (pairOf core)
    | e => e) (.ok s)

/-- The images of suspended groups note which of their entries were issued or settled under a time-stop, for the frames of their failures
(R79, R407). -/
def State.noteStopped (s : State) (id : Nat) : State :=
  match s.op? id with
  | none => s
  | some o =>
    if !o.ts then s
    else
      let mine (i : Image) : List Nat :=
        (o.det.filter fun a => decide (i.obj + 0x44 ≤ a) && decide (a < i.obj + 0xC4)).map fun a => (a - i.obj - 0x44) / 8
      { s with images := Map.modAll (fun _ i => if i.ctx = o.ctx then { i with ts := mine i ++ i.ts } else i) s.images }

/-- Settles an operation of an engine; detached ones that its failure drops write status 1, as cancelled ones do (DESIGN CHOICE,
log entry 66). One whose outcome goes to status words writes them; where their page is not
present the settlement waits, and where the write fails the status is lost. -/
def State.conclude (s : State) (id : Nat) (st : OpSt) : State :=
  match s.op? id with
  | none => s
  | some o =>
    let s' := match st with
      | .failed c => s.fail id c
      | st => s.settle id st
    if o.det.isEmpty then s'
    else
      let s' := s'.modOp id fun o => { o with taken := true }
      let cut := s'.ops.filter fun e => e.2.st = .dropped && !e.2.det.isEmpty && (s.op? e.1).any fun x => !x.st.settled
      let s' := cut.foldl (fun s e => match s.putStatus e.2.ctx e.2.core .dropped e.2.det with
        | .ok s => s
        | .error _ => s) s'
      match s'.putStatus o.ctx o.core st o.det with
      | .ok s'' => s''.noteStopped id
      | .error (.cause _) => s'
      | .error .notPresent => s

/-- Bytes that an operation counts at its barrier: the byte count, or the image size (R177, R182). -/
def Job.count : Job → Nat
  | .copy _ _ _ _ n => n
  | .tile _ ent _ _ _ _ => ((Tx.read ent).map Tx.image).getD 0
  | .bank _ _ _ _ _ _ | .restripe _ _ _ _ _ => 0

/-- Whether an operation's scratchpad belongs to a team that is saved and not restored yet; it then waits (R297, log
entry 18). -/
def State.teamAway (s : State) (a : Async) (j : Job) : Bool :=
  let uses := a.bar.isSome || (match j with
    | .copy ssp dsp _ _ _ => ssp = .scratch || dsp = .scratch
    | .tile _ _ _ _ _ _ => true
    | .bank _ _ _ _ _ _ | .restripe _ _ _ _ _ => false)
  uses && (s.team? a.team).isNone && s.saves.any fun e => e.2.tid = a.team

/-- The ranges of global memory that a copy or a tile store writes. -/
def Job.written (j : Job) : List (Nat × Nat) :=
  match j with
  | .copy _ .global _ dst n => [(dst, n)]
  | .tile true ent r c _ _ => match Tx.read ent with
    | some t => ((List.range (ceilDiv t.image 64)).flatMap fun k => t.touched r c k).map fun x => (x, 1)
    | none => []
  | _ => []

/-- An asynchronous operation completes: completion release, barrier credit, settlement, slot and flags (R175, R182). -/
def State.asyncEnd (s : State) (id : Nat) (st : OpSt) : State :=
  match s.op? id with
  | none => s
  | some o =>
    match o.kind with
    | .async a j =>
      let s' := s.conclude id st
      match s'.op? id with
      | none => s
      | some o' =>
        if !o'.st.settled || s.teamAway a j then s
        else
          let err := a.cancelled || (match st with
            | .failed _ => true
            | _ => false)
          let s' := match a.bar with
            | some b =>
              match s'.scratch? a.team b 16 with
              | some ph => s'.updBar ph fun x => x.credit a.bytes a.par.toNat j.count err
              | none => s'
            | none => s'
          -- The completion release covers what the copy has written (R96, R99).
          let s' := match st with
            | .ok => j.written.foldl (fun (s : State) (r : Nat × Nat) => s.promoOver o.core id o.ctx r.1 r.2 a.csc) s'
            | _ => s'
          ((s'.freeSlot o.core a).doneB id).doneA id
    | _ => s

/-! ## Reading and writing for an engine -/

/-- Reads bytes of a space for an asynchronous operation, own device only. -/
def State.aRead (s : State) (o : Op) (a : Async) (sp : Space) (ad n : Nat) : Except XErr (State × List Byte) :=
  match sp with
  | .scratch =>
    match s.scratch? a.team ad n with
    | some ph => if s.poisoned ph n then .error (.cause .poison) else .ok (s, s.readPhys ph n)
    | none => .error (.cause .scratchRange)
  | .global => if vaOk ad then s.gread o.ctx ad n { r := true } o.sys (pairOf o.core) else .error (.cause .translation)
  | .bank => s.spaceRead .bank o.gid o.ctx o.core ad n {}

def State.aWrite (s : State) (o : Op) (a : Async) (sp : Space) (ad : Nat) (bs : List Byte) : Except XErr State :=
  match sp with
  | .scratch =>
    match s.scratch? a.team ad bs.length with
    | some ph => .ok ((s.writePhys ph bs).clearPoison ph bs.length)
    | none => .error (.cause .scratchRange)
  | .global => if vaOk ad then s.gwrite o.ctx ad bs o.sys (pairOf o.core) else .error (.cause .translation)
  | .bank => s.spaceWrite .bank o.gid o.ctx o.core ad bs

def modAsync (f : Async → Async) (o : Op) : Op :=
  match o.kind with
  | .async a j => { o with kind := .async (f a) j }
  | _ => o

/-- Rising addresses cut into runs that stay in one block of `w` bytes. -/
def runsIn (w : Nat) : List Nat → List (Nat × Nat)
  | [] => []
  | x :: xs =>
    match runsIn w xs with
    | [] => [(x, 1)]
    | (y, n) :: rest => if x + 1 = y ∧ x / w = y / w then (x, n + 1) :: rest else (x, 1) :: (y, n) :: rest

/-- The runs of one access each: a bank word, or what stays in 64 bytes (R324). -/
def runsOf (sp : Space) : List Nat → List (Nat × Nat) := runsIn (if sp = .bank then 32 else 64)

/-- Whether an address of a space lies with a peer. -/
def State.farAway (s : State) (sp : Space) (a : Nat) : Bool := sp = .global && vaOk a && (s.remote? a).isSome

/-- What a gathering of bytes came to. -/
inductive Got where
  | all (s : State) (bs : List Byte)
  | sent (s : State)
  | bad (s : State) (e : XErr) (bs : List Byte)

/-- Sends an asynchronous operation's message, or ends it failed at once, with its slot freed, its barrier credited and its outcome
written (R174, R182, R295). -/
def State.sendAsync (s : State) (id : Nat) (o : Op) (peer idx : Nat) (m : Msg) : State :=
  if s.tornFrom o.gid peer id then s.asyncEnd id (.failed .gangTorn)
  else
    match s.send peer idx 0 { m with tag := tagOf id, ctx := o.ctx, sys := o.sys } with
    | none => s.asyncEnd id (.failed .remoteError)
    | some s => (s.touchBelay o.ctx o.core).modOp id fun o => { o with st := .sent (tagOf id) }

/-- Whether an engine's access to global memory may be made now: its walk is over and the clocks run that it needs (R317, R403). -/
def State.engineGate (s : State) (o : Op) (sp : Space) (va n : Nat) : State × Bool :=
  if sp ≠ .global then (s, true)
  else if !s.homeClocked o.ctx va then (s, false)
  else
    match s.walked o.ctx va n o.ex ((o.lanes.map Prod.fst).headD 0) with
    | (s, false) => (s, false)
    | (s, true) => (s.meets o.ctx va n {} o.sys (pairOf o.core), true)

/-- Gathers runs of bytes; bytes of a peer are asked for, one READ at a time. `word`: whether a bank performs this access now; it
performs one word (R325). -/
def State.gather (s : State) (id : Nat) (o : Op) (a : Async) (sp : Space) (word : Bool) (bs : List Byte) :
    List (Nat × Nat) → Got
  | [] => .all s bs
  | (x, n) :: rest =>
    if s.farAway sp x then
      let s := (s.modOp id (modAsync fun a => { a with buf := bs })).drainLine o.core x
      .sent (s.sendAsync id o (vaPeer x) (x / 256) (readMsg x n))
    else if sp = .bank && !word then .sent s
    else
      match s.engineGate o sp x n with
      | (s, false) => .sent (s.modOp id (modAsync fun a => { a with buf := bs }))
      | (s, true) =>
      let s := if sp = .bank then s.bankTouch o.ctx x n else s
      match s.aRead o a sp x n with
      | .error e => .bad s e bs
      | .ok (s, b) =>
        if sp = .bank then .sent (s.modOp id (modAsync fun a => { a with buf := bs ++ b }))
        else s.gather id o a sp word (bs ++ b) rest

/-- Writes runs of bytes; the first run of a peer's bytes is sent and the rest waits for its acknowledgement, and a bank word for its
bank. A tile store keeps what it wrote before a failure; a copy sector is written whole or not at all (R88, R177). -/
def State.scatter (s : State) (id : Nat) (o : Op) (a : Async) (sp : Space) (word : Bool) (wr : Nat) (bs : List Byte) :
    List (Nat × Nat) → State × Option (Option XErr)
  | [] => (s, none)
  | (x, n) :: rest =>
    let now := bs.take n
    if s.farAway sp x then
      let s := (s.modOp id (modAsync fun a => { a with wr := wr, wrote := true })).drainLine o.core x
      (s.sendAsync id o (vaPeer x) (x / 256) (writeMsg x now), some none)
    else if sp = .bank && !word then (s.modOp id (modAsync fun a => { a with wr := wr }), some none)
    else
      match s.aWrite o a sp x now with
      | .error e => (s.modOp id (modAsync fun a => { a with wr := wr }), some (some e))
      | .ok s =>
        let s := s.modOp id (modAsync fun a => { a with wrote := true })
        s.scatter id o a sp false (wr + n) (bs.drop n) rest

/-- Whether everything that a sector is about to write on this device may be written now: the walks are over, the clocks run, and the
lines on `REPL` pages have had the acknowledgements of their holders, all of them together (R88, R101, R317, R403). -/
def State.mayScatter (s : State) (id : Nat) (o : Op) (sp : Space) (runs : List (Nat × Nat)) : State × Bool :=
  if sp ≠ .global then (s, true)
  else
    let here := runs.filter fun r => !s.farAway sp r.1
    let (s, ok) := here.foldl (fun (q : State × Bool) r =>
      let (s, b) := q.1.engineGate o sp r.1 r.2
      (s, q.2 && b)) (s, true)
    if ok then s.replGates id none o.ctx ((here.map fun r => r.1 / 256 * 256).eraseDups) else (s, false)

/-! ## Sectors (R175, R177) -/

/-- Sectors of a copy or a tile image. -/
def Job.sectors (j : Job) : Nat := ceilDiv j.count 64

/-- The tensor entry of a tile move. -/
def Job.tx (j : Job) : Tx :=
  match j with
  | .tile _ ent _ _ _ _ => (Tx.read ent).getD ⟨0, 0, 0, 0, 0, false, false, 1, 1, 0, 0, 1, 1⟩
  | _ => ⟨0, 0, 0, 0, 0, false, false, 1, 1, 0, 0, 1, 1⟩

/-- Bits of an image sector that lie at an address inside the tensor: image byte, bit, address, bit there. -/
def Tx.inside (t : Tx) (row0 col0 k : Nat) : List (Nat × Nat × Nat × Nat) :=
  (t.sector row0 col0 k).filterMap fun e => e.2.2.map fun m => (e.1, e.2.1, m.1, m.2)

/-- The bytes that a sector gathers: the copy's source, or the memory bytes that a tile load reads, or those that a
tile store writes in part only. -/
def sectorNeed (a : Async) (j : Job) : Space × List Nat :=
  match j with
  | .copy ssp _ src _ n => (ssp, (List.range (min 64 (n - 64 * a.pos))).map fun i => src + 64 * a.pos + i)
  | .tile st _ r c _ _ =>
    let ins := j.tx.inside r c a.pos
    let bytes := (ins.map fun e => e.2.2.1).eraseDups
    (.global, if st then bytes.filter fun x => decide ((ins.filter fun e => e.2.2.1 = x).length < 8) else bytes)
  | .bank _ _ _ _ _ _ | .restripe _ _ _ _ _ => (.global, [])

/-- Sets bits of a byte. -/
def setBits (b : Byte) (vs : List (Nat × Bool)) : Byte :=
  vs.foldl (fun b v => if v.2 then b ||| (1 <<< v.1 : BitVec 8) else b &&& ~~~(1 <<< v.1 : BitVec 8)) b

/-- The bytes that a sector writes, in order: `got` gives the gathered bytes, `img` the scratchpad image. -/
def sectorPut (a : Async) (j : Job) (need : List Nat) (got : List Byte) (img : Nat → Byte) : Space × List (Nat × Byte) :=
  match j with
  | .copy _ dsp _ dst _ => (dsp, (List.range got.length).map fun i => (dst + 64 * a.pos + i, got.getD i 0))
  | .tile false _ r c spad pad =>
    let sec := j.tx.sector r c a.pos
    let at_ (x k : Nat) : Bool := (got.getD (need.idxOf x) 0).getLsbD k
    let ys := ((sec.filter fun e => pad || e.2.2.isSome).map Prod.fst).eraseDups
    (.scratch, ys.map fun y => (spad + y, setBits (img y) ((sec.filter fun e => e.1 = y).filterMap fun e =>
      match e.2.2 with
      | some m => some (e.2.1, at_ m.1 m.2)
      | none => if pad then some (e.2.1, false) else none)))
  | .tile true _ r c _ _ =>
    let ins := j.tx.inside r c a.pos
    let xs := (ins.map fun e => e.2.2.1).eraseDups
    (.global, xs.map fun x => (x, setBits (got.getD (need.idxOf x) 0) ((ins.filter fun e => e.2.2.1 = x).map fun e =>
      (e.2.2.2, (img e.1).getLsbD e.2.1))))
  | .bank _ _ _ _ _ _ | .restripe _ _ _ _ _ => (.global, [])

/-- ⌈log2⌉ of the byte count, the size code of an escaped copy (R80). -/
def Job.esc (j : Job) : Esc :=
  let dst := match j with
    | .copy _ _ _ dst _ => dst
    | .tile st _ _ _ spad _ => if st then j.tx.base else spad
    | .bank _ dst _ _ _ _ => dst
    | .restripe va _ _ _ _ => va
  let n := match j with
    | .bank x _ _ _ _ m => m * 4 * x.ty.regs
    | j => j.count
  ⟨.copy, clog2 n, dst⟩

/-- Whether an engine's operation is under way, or may be taken on: the engines of a halted die take no new work (R407). -/
def Op.takenOn (o : Op) (s : State) : Bool :=
  match o.kind with
  | .async a _ => decide (0 < a.pos) || decide (0 < a.wr) || !a.buf.isEmpty || a.wrote || !(s.die (pairOf o.core)).halted
  | _ => true

/-- Whether the copies of a thread may read: its earlier stores and atomics have been performed or sent (R99), and its earlier
acquires have been performed (R90), and its earlier loads, which read nothing that follows the release (R91, R99). -/
def State.copyReady (s : State) (id : Nat) (o : Op) : Bool :=
  o.takenOn s && !s.ops.any fun e => decide (e.1 < id) && e.2.gid = o.gid
    && ((match e.2.kind with
      | .store _ _ _ | .atom _ _ _ _ _ _ _ _ => e.2.st = .waiting || e.2.st = .parked
      | .load _ _ _ _ => !e.2.st.settled
      | _ => false) || (e.2.isAcquire && !e.2.st.settled))
    && e.2.lanes.any fun l => (o.seq? l.1).isSome

/-- The address of the bank word that a copy reads or writes next, if that is its next access (R325). -/
def Job.bankWord (j : Job) (a : Async) : Option Nat :=
  match j with
  | .copy ssp dsp src dst n =>
    if j.sectors ≤ a.pos then none
    else if a.buf.length < min 64 (n - 64 * a.pos) then
      if ssp = .bank then some (src + 64 * a.pos + a.buf.length) else none
    else if dsp = .bank then some (dst + 64 * a.pos + a.wr) else none
  | _ => none

/-- Whether a job is a tile store. -/
def Job.stores (j : Job) : Bool :=
  match j with
  | .tile st _ _ _ _ _ => st
  | _ => false

def Job.spad (j : Job) : Nat :=
  match j with
  | .tile _ _ _ _ spad _ => spad
  | _ => 0

/-- A byte of a tile's image in scratchpad. -/
def Job.image (j : Job) (s : State) (a : Async) (y : Nat) : Byte :=
  match s.scratch? a.team (j.spad + y) 1 with
  | some ph => Memory.read1 s.mem ph
  | none => 0

/-- Whether the image bytes of the sector at hand are poisoned (R405). -/
def Job.imagePoisoned (j : Job) (s : State) (a : Async) : Bool :=
  (List.range (min 64 (j.count - 64 * a.pos))).any fun i => match s.scratch? a.team (j.spad + 64 * a.pos + i) 1 with
    | some ph => s.poisoned ph 1
    | none => false

/-- The next sector of a copy or tile move, or as much of it as can be done before a peer must answer or a bank's queue comes to
it (R175, R177); `word`: whether a bank performs its next word. -/
def State.sector (s : State) (word : Bool) (id : Nat) : State :=
  match s.op? id with
  | none => s
  | some o =>
    match o.kind with
    | .async a j =>
      if o.st ≠ .waiting || o.held || o.err.isSome || a.cancelled || !s.copyReady id o || s.teamAway a j || decide (j.sectors ≤ a.pos) then s
      else
        let (rsp, need) := sectorNeed a j
        let left := need.drop a.buf.length
        match s.gather id o a rsp word a.buf (runsOf rsp left) with
        | .sent s' => s'
        | .bad _ .notPresent _ => s
        | .bad s1 (.cause c) got =>
          -- A tile store has written the elements before the one whose byte could not be read (R177).
          let todo := if j.stores then ((sectorPut a j need got (j.image s1 a)).2.drop a.wr).takeWhile fun e =>
            some e.1 ≠ need[got.length]? else []
          (match s1.mayScatter id o .global (runsOf .global (todo.map Prod.fst)) with
            | (s1, false) => s1
            | (s1, true) =>
              match s1.scatter id o a .global false a.wr (todo.map Prod.snd) (runsOf .global (todo.map Prod.fst)) with
              | (s2, some none) => s2.modOp id (modAsync fun a => { a with buf := got })
              | (s2, _) => (if todo.isEmpty then s2 else s2.escape id j.esc).asyncEnd id (.failed c))
        | .all s1 got =>
          if j.stores && j.imagePoisoned s1 a then s1.asyncEnd id (.failed .poison)
          else
          let (wsp, put) := sectorPut a j need got (j.image s1 a)
          let todo := put.drop a.wr
          let s1 := s1.modOp id (modAsync fun a => { a with buf := got })
          let s1 := if decide (a.pos + 1 = j.sectors) then s1.doneB id else s1
          match s1.mayScatter id o wsp (runsOf wsp (todo.map Prod.fst)) with
          | (s1, false) => s1
          | (s1, true) =>
          match s1.scatter id o a wsp word a.wr (todo.map Prod.snd) (runsOf wsp (todo.map Prod.fst)) with
          | (s2, none) =>
            let s2 := if put.isEmpty then s2 else s2.escape id j.esc
            s2.modOp id (modAsync fun a => { a with pos := a.pos + 1, buf := [], wr := 0 })
          | (s2, some none) => if wsp = .bank && word then s2.escape id j.esc else s2
          | (s2, some (some e)) =>
            let whole := match j with
              | .copy _ _ _ _ _ => true
              | _ => false
            let s3 := if whole then s1.modOp id (modAsync fun a => { a with buf := [] })
              else if decide (a.wr < (match (s2.op? id).map Op.kind with
                | some (.async a' _) => a'.wr
                | _ => 0)) then s2.escape id j.esc else s2
            match e with
            | .notPresent => s3
            | .cause c => s3.asyncEnd id (.failed c)
    | _ => s

/-- A peer's data for a gathering operation. -/
def State.gathered (s : State) (id : Nat) (bs : List Byte) : State :=
  s.modOp id fun o => { modAsync (fun a => { a with buf := a.buf ++ bs }) o with st := .waiting }

/-- A peer's acknowledgement of a written run: the copy has escaped (R72). -/
def State.scattered (s : State) (id : Nat) : State :=
  match s.op? id with
  | none => s
  | some o =>
    match o.kind with
    | .async a j =>
      let put := (sectorPut a j (sectorNeed a j).2 a.buf fun _ => 0).2
      let n := ((runsOf .global ((put.drop a.wr).map Prod.fst)).headD (0, 0)).2
      let done := decide (put.length ≤ a.wr + n)
      let s := s.modOp id fun o =>
        { modAsync (fun a => { a with wrote := true, wr := if done then 0 else a.wr + n, buf := if done then [] else a.buf
                                      pos := if done then a.pos + 1 else a.pos }) o with st := .waiting }
      s.escape id j.esc
    | _ => s

/-! ## Bank streams (R186) -/

/-- The bank of element i of a stream. -/
def Job.bankOf (j : Job) (i : Nat) : Nat :=
  match j with
  | .bank x dst _ _ _ _ => (dst + i * 4 * x.ty.regs) / 32 % 1024
  | _ => 0

/-- The value of one element. -/
def bankElem (x : BkX) (a b d : Nat) : Nat :=
  let x2 : Alu2 := ⟨x.ty, x.rm, x.sat, false, false⟩
  let each (f : Nat → Nat → Nat → Nat × Flags) : Nat :=
    (overElems x.ty fun k => f (elemAt x.ty.ebits k a) (elemAt x.ty.ebits k b) (elemAt x.ty.ebits k d)).1
  match x.opk.val with
  | 0 => each fun a b _ => packElem .add x2 a b
  | 1 => each fun a b _ => packElem .sub x2 a b
  | 2 => each fun a b _ => packElem .mul x2 a b
  | 3 => each fun a b _ => packElem .min x2 a b
  | 4 => each fun a b _ => packElem .max x2 a b
  | 5 => each fun a b c => packFma ⟨.nul, x.ty, x.rm, x.sat, false, false, false⟩ a b c
  | _ => a

/-- Performs element i of a stream at its bank. -/
def State.bankStep (s : State) (id i : Nat) : State :=
  match s.op? id with
  | none => s
  | some o =>
    match o.kind with
    | .async a (.bank x dst s1 s2 sc m) =>
      let n := 4 * x.ty.regs
      let rd (s : State) (p : Nat) : Except XErr (State × List Byte) := s.spaceRead .bank o.gid o.ctx o.core (p + i * n) n {}
      let zero (s : State) : Except XErr (State × List Byte) := .ok (s, toBytes n 0)
      let s := s.bankTouch o.ctx (s1 + i * n) n
      let s := if x.sc || x.opk = 6 then s else s.bankTouch o.ctx (s2 + i * n) n
      let s := if x.opk = 5 then s.bankTouch o.ctx (dst + i * n) n else s
      let r := do
        let (s, a) ← rd s s1
        let (s, b) ← if x.sc || x.opk = 6 then zero s else rd s s2
        let (s, d) ← if x.opk = 5 then rd s dst else zero s
        s.spaceWrite .bank o.gid o.ctx o.core (dst + i * n)
          (toBytes n (bankElem x (ofBytes a) (if x.sc then sc else ofBytes b) (ofBytes d)))
      match r with
      | .error e => s.asyncEnd id (.failed e.toCause)
      | .ok s =>
        let s := (s.modOp id (modAsync fun a => { a with wrote := true, wr := a.wr + 1 })).escape id
          (Job.bank x dst s1 s2 sc m).esc
        if a.wr + 1 = m then s.doneB id else s
    | _ => s

/-! ## Re-striping (R187, R321) -/

/-- Everything that names the line at an old physical address follows it: poison, which an expander's removal gave it too, and
promotion; near and L1 copies of the line, at each of its old places, are dropped. -/
def State.lineMoved (s : State) (old : Nat) (copies new : List Nat) : State :=
  let bad := s.poisoned old 256 || s.cxlGone old
  let s := { s with
    poison := s.poison.filter (· ≠ old) ++ (if bad then new else [])
    near := Map.modAll (fun _ l => l.filter fun n => !copies.contains (256 * n)) s.near
    replBad := Map.del (old / 256) s.replBad
    cores := Map.modAll (fun _ c => { c with l1 := c.l1.filter fun e => !copies.contains (256 * e.1) }) s.cores }
  match Map.get? s.promo (old / 256) with
  | some c => { s with promo := (new.take 1).foldl (fun m n => Map.put (n / 256) c m) (Map.del (old / 256) s.promo) }
  | none => s

/-- Moves the line at offset `o` of a page from its old place to every copy of its new one (R321). -/
def State.moveLine (s : State) (m : Moving) (o : Nat) : State :=
  let old := spot m.old m.oldFrame o (pwServe m.old 0 true)
  let new := (pwTargets m.new).map fun ts => spot m.new m.newFrame o ts
  let bs := s.readPhys old 256
  let copies := (pwTargets m.old).map fun ts => spot m.old m.oldFrame o ts
  let s := ((copies ++ new).map dieOfPhys).foldl (fun s d => s.touch m.ctx d) s
  (new.foldl (fun s n => s.writePhys n bs) s).lineMoved (old / 256 * 256) (copies.map fun c => c / 256 * 256) new

/-- The page takes its new word: the entry and the walkers' cached translations. -/
def State.pageMoved (s : State) (m : Moving) : State :=
  let w0 := s.dword m.ea
  let w1 := s.dword (m.ea + 8)
  let n0 : DWord := BitVec.ofNat 64 (w0.toNat % 2 ^ 16 + 2 ^ 16 * m.newFrame)
  let n1 : DWord := BitVec.ofNat 64 (w1.toNat / 2 ^ 32 * 2 ^ 32 + m.new.toNat)
  let s := (s.writePhys m.ea (toBytes 8 n0.toNat)).writePhys (m.ea + 8) (toBytes 8 n1.toNat)
  { s with
    tlb := s.tlb.map fun e => if e.ea = m.ea then { e with w0 := n0, w1 := n1 } else e
    moving := s.moving.filter fun x => x.ea ≠ m.ea }

/-- A re-stripe that is cancelled in a page takes back the lines it has moved (DESIGN CHOICE, log entry 15). -/
def State.undoMove (s : State) (m : Moving) : State :=
  let back : Moving := { m with old := m.new, oldFrame := m.newFrame, new := m.old, newFrame := m.oldFrame }
  let s := if m.new = m.old then s else (List.range (m.pos / 256)).foldl (fun s k => s.moveLine back (256 * k)) s
  { s with moving := s.moving.filter fun x => x.ea ≠ m.ea }

/-- The start of a page's move, or the cause that ends the re-stripe. -/
def State.startMove (s : State) (id : Nat) (ctx va : Nat) (w : Word) (size : Nat) (user : Bool) : Except XErr Moving :=
  match s.leafOf ctx va with
  | .error e => .error e
  | .ok f =>
    if user && !f.w0.getLsbD 6 then .error (.cause .permission)
    else if size ≠ 0 && f.size ≠ size then .error (.cause .geometry)
    else
      let m : Moving := ⟨id, ctx, f.home, f.base, f.size, leafFrame f.w0, leafFrame f.w0, leafWord f.w1, w, 0, f.ea⟩
      if w = leafWord f.w1 then .ok m
      else
        match s.roomFor w f.size with
        | some fr => .ok { m with newFrame := fr }
        | none => .error (.cause .geometry)

/-- One line of a re-stripe, with the start of its page before the first and the new word after the last. -/
def State.restripeLine (s : State) (id : Nat) : State :=
  match s.op? id with
  | none => s
  | some o =>
    match o.kind with
    | .async a (.restripe va pages w size done) =>
      if o.st ≠ .waiting || o.held || a.cancelled || decide (pages ≤ done) then s
      else
        let at_ := va + done * size
        if !vaOk at_ then s.asyncEnd id (.failed .translation)
        else if (s.remote? at_).isSome then s.asyncEnd id (.failed .remoteError)
        else
          match s.engineGate o .global at_ 1 with
          | (s, false) => s
          | (s, true) =>
          let go (s : State) (m : Moving) : State :=
            let s := if m.pos + 256 = m.size && decide (done + 1 = pages) then s.doneB id else s
            let s := if m.new = m.old then s else s.moveLine m m.pos
            let m' := { m with pos := m.pos + 256 }
            let s := { s with moving := m' :: s.moving.filter fun x => x.ea ≠ m.ea }
            let s := s.modOp id (modAsync fun a => { a with wrote := true, pos := a.pos + 1 })
            if m'.pos < m.size then s
            else
              (s.pageMoved m').modOp id fun o =>
                match o.kind with
                | .async a _ =>
                  let base := if done = 0 then va / m.size * m.size else va
                  { o with kind := .async a (.restripe base pages w m.size (done + 1)) }
                | _ => o
          match s.moving.find? fun m => m.op = id with
          | some m => go s m
          | none =>
            match s.startMove id o.ctx at_ w size (!o.sys) with
            | .error .notPresent => s
            | .error (.cause c) => s.asyncEnd id (.failed c)
            | .ok m => if s.moving.any fun x => x.ea = m.ea then s else go s m
    | _ => s

/-- `GEOQ`: the placement word of a page of the own device (R188). -/
def State.geoq (s : State) (ctx va : Nat) : Word :=
  if !vaOk va || (s.remote? va).isSome then 0xFFFFFFFF
  else
    match s.leafOf ctx va with
    | .ok f => (s.placing f (vaOfs va - f.base)).1
    | .error _ =>
      match s.rawLeaf ctx va with
      | some f => leafWord f.w1
      | none => 0xFFFFFFFF

def execGeoq (p : Pre) (d a : Opnd) (s : State) : Out :=
  alu (.geoq p d a) p d (fun s gid l =>
    ([s.geoq ((s.group? gid).elim 0 Group.ctx) (s.src64 gid l a false).toNat], 0)) s

/-! ## Issue -/

/-- Whether a global address of the own device lies on a `BOUND` page. -/
def State.onBound (s : State) (ctx va : Nat) : Bool :=
  vaOk va && (s.remote? va).isNone &&
    match s.leafOf ctx va with
    | .ok f => pwBound (leafWord f.w1)
    | .error _ => false

/-- Whether the bytes of a range all lie on `BOUND` pages. -/
def State.allBound (s : State) (ctx va n : Nat) : Bool :=
  (List.range (ceilDiv (va % 2 ^ 16 + n) (2 ^ 16))).all fun i => s.onBound ctx (va / 2 ^ 16 * 2 ^ 16 + i * 2 ^ 16)

/-- The bytes for each tick that a core's reserved copy rate allows, 16 to 256; where none was granted, the lowest (R285; DESIGN
CHOICE, log entry 37). -/
def State.copyRate (s : State) (ctx core : Nat) : Nat :=
  max 16 (min 256 (((s.ctx? ctx).bind fun c => Map.get? c.cfg.rates core).getD 16))

/-- The promise of an asynchronous operation (R174, R285). -/
def State.promiseOf (s : State) (gid : Nat) (j : Job) : Word × State :=
  let est := (Config.promise s.freeNum.1, s.freeNum.2)
  match s.group? gid with
  | none => est
  | some g =>
    let bounded := (s.team? g.team).any Team.bounded
    let local_ (_ : Unit) : Bool := match j with
      | .copy .global .scratch src _ n => s.allBound g.ctx src n
      | .copy .scratch .global _ dst n => s.allBound g.ctx dst n
      | .tile _ _ r c _ _ => (List.range j.sectors).all fun k => (j.tx.touched r c k).all (s.onBound g.ctx)
      | _ => false
    if bounded && local_ () then
      (BitVec.ofNat 32 (s.rtime + 400 + ceilDiv j.count (s.copyRate g.ctx g.core)), s)
    else est

/-- Whether there is nothing to do: it completes at once. -/
def Job.empty (j : Job) : Bool :=
  match j with
  | .copy _ _ _ _ n => n = 0
  | .bank _ _ _ _ _ m => m = 0
  | _ => false

/-- An asynchronous operation that is not held any longer starts; an empty one completes at once. -/
def State.startAsync (s : State) (id : Nat) : State :=
  match s.op? id with
  | some o =>
    match o.kind with
    | .async _ j => if j.empty then s.asyncEnd id .ok else s
    | _ => s
  | none => s

/-- What an asynchronous instruction asks for in one lane. -/
structure AReq where
  job : Job
  bar : Option Nat
  bytes : Bool
  par : Bool
  csc : Scope
  h : Bool

/-- Issues one lane's asynchronous operation: a slot, the ticket pair, the number and the flags (R174). -/
def State.issueAsync (s : State) (c : Slot) (g : Group) (ex l : Nat) (d : Opnd) (r : AReq) : State :=
  let k := (s.freeSlots g.core).headD 0
  let old := Map.get (s.core g.core).slots k {}
  let gen := (old.gen + 1) % 2 ^ 16
  let (pr, s) := s.promiseOf c.gid r.job
  let phase := match r.bar.bind (s.bbar? g.team) with
    | some (_, x) => x.phase
    | none => 0
  let t := ticketOf k gen
  let a : Async :=
    { slot := some k, ticket := t, promise := pr, bar := r.bar, bytes := r.bytes
      par := (if r.par then 1 - phase else phase) == 1, count := r.job.count
      csc := if r.csc = .grp then .core else r.csc, team := g.team }
  let s := s.modCore g.core fun co => { co with slots := Map.put k ⟨gen, some s.nextId⟩ co.slots }
  let s := s.issueOp State.startAsync c g ex true true [l] { kind := .async a r.job, h := r.h, ordered := false }
  s.dstRun c.gid l d [t, pr]

/-- An asynchronous instruction. -/
def asyncIssue (i : Instr) (p : Pre) (d : Opnd) (f : State → Nat → Nat → Except LaneRes AReq)
    (s : State) : Out :=
  inSlot i p s (withNames i fun s c g on =>
    let tried := on.map fun l => (l, f s c.gid l)
    let good := tried.filterMap fun e => match e.2 with
      | .ok r => some (e.1, r)
      | .error _ => none
    let stall := match s.issueStall c on true true with
      | some st => some st
      | none => if (s.freeSlots g.core).length < good.length then some .ticket else none
    match stall with
    | some st => (s, on.map fun l => (l, .stall st))
    | none =>
      let rs := tried.map fun e => (e.1, match e.2 with
        | .ok _ => LaneRes.next
        | .error r => r)
      if good.isEmpty then (s, rs)
      else
        let (ex, s) := s.fresh
        (s.executing c ex true true fun s => good.foldl (fun s e => s.issueAsync c g ex e.1 d e.2) s, rs))

/-- The barrier operand: its address, if it is not `NUL`. -/
def State.barOpnd (s : State) (gid l : Nat) (b : Opnd) : Option Nat :=
  if b = .nul then none else some (s.src32 gid l b).toNat

/-- The checks of a copy whose scratchpad addresses name memory that `out` finds outside (R175). Where several fail, `MISALIGNED`
comes before `SCRATCH_RANGE`, and that before `ILLEGAL_OPERAND` (DESIGN CHOICE, log entry 66). -/
def cpyBad (x : Cx) (dst src n : Nat) (bar : Option Nat) (out : Nat → Nat → Bool) : Option (Cause × Nat) :=
  let far (sp : Space) (q : Nat) : Bool := sp = .scratch && out q n
  if dst % 16 ≠ 0 then some (.misaligned, dst)
  else if src % 16 ≠ 0 then some (.misaligned, src)
  else if n % 16 ≠ 0 then some (.misaligned, 0)
  else if bar.any fun q => q % 16 ≠ 0 then some (.misaligned, bar.getD 0)
  else if far x.dsp dst then some (.scratchRange, dst)
  else if far x.ssp src then some (.scratchRange, src)
  else if bar.any fun q => out q 16 then some (.scratchRange, bar.getD 0)
  else if 2 ^ 30 < n then some (.illegalOperand, 0)
  else none

def execCpy (p : Pre) (x : Cx) (d a b : Opnd) (s : State) : Out :=
  asyncIssue (.cpy p x d a b) p d (fun s gid l =>
    let ad (sp : Space) (k : Nat) : Nat :=
      if sp = .global then (s.src64 gid l (a.plus k) false).toNat else (s.src32 gid l (a.plus k)).toNat
    let dst := ad x.dsp 0
    let src := ad x.ssp 2
    let n := (s.src32 gid l b).toNat
    let bar := s.barOpnd gid l x.bar
    match cpyBad x dst src n bar fun q k => (s.scratch? (s.teamOf gid) q k).isNone with
    | some (c, q) => .error (.trap c q)
    | none => .ok ⟨.copy x.ssp x.dsp src dst n, bar, x.bytes, x.par, x.csc, x.h⟩) s

/-- The checks and the work of `TLOAD` and `TSTORE` (R177). -/
def tileReq (store : Bool) (x : TxX) (a b : Opnd) (s : State) (gid l : Nat) : Except LaneRes AReq :=
  let ent := s.txWords ((s.group? gid).elim 0 Group.ctx) x.txi.toNat
  let o := s.src32 gid l a
  let row0 := (bits o 0 16).toNat
  let col0 := (bits o 16 16).toNat
  let spad := (s.src32 gid l b).toNat
  let bar := s.barOpnd gid l x.bar
  match Tx.read ent with
  | none => .error (.trap .illegalOperand 0)
  | some t =>
    let unit := if t.fmt = 5 then 4 else if t.fmt = 6 then 2 else if t.fmt = 7 then 128 else 1
    if t.tc % unit ≠ 0 then .error (.trap .illegalOperand 0)
    else if t.scl && (if t.trn then col0 else row0) % 128 ≠ 0 then .error (.trap .illegalOperand 0)
    else if spad % 16 ≠ 0 then .error (.trap .misaligned spad)
    else if bar.any fun q => q % 16 ≠ 0 then .error (.trap .misaligned (bar.getD 0))
    else if (s.scratch? (s.teamOf gid) spad t.image).isNone then .error (.trap .scratchRange spad)
    else if bar.any fun q => (s.scratch? (s.teamOf gid) q 16).isNone then .error (.trap .scratchRange (bar.getD 0))
    else .ok ⟨.tile store ent row0 col0 spad x.pad, bar, x.bytes, x.par, x.csc, x.h⟩

def execTload (p : Pre) (x : TxX) (d a b : Opnd) (s : State) : Out :=
  asyncIssue (.tload p x d a b) p d (tileReq false x a b) s
def execTstore (p : Pre) (x : TxX) (d a b : Opnd) (s : State) : Out :=
  asyncIssue (.tstore p x d a b) p d (tileReq true x a b) s

def execBankop (p : Pre) (x : BkX) (d a b : Opnd) (s : State) : Out :=
  asyncIssue (.bankop p x d a b) p d (fun s gid l =>
    let r (k : Nat) : Nat := (s.src32 gid l (a.plus k)).toNat
    let n := 4 * x.ty.regs
    let bad := [r 0, r 1, r 2].find? fun q => q % n ≠ 0
    match bad with
    | some q => .error (.trap .misaligned q)
    | none =>
      if 2 ^ 24 < r 3 then .error (.trap .illegalOperand 0)
      else .ok ⟨.bank x (r 0) (r 1) (r 2) (if x.sc then s.srcAny gid l x.ty b else 0) (r 3), none, false, false, x.csc, x.h⟩) s

def execRestripe (p : Pre) (x : RsX) (d a b : Opnd) (s : State) : Out :=
  asyncIssue (.restripe p x d a b) p d (fun s gid l =>
    let va := (s.src64 gid l a false).toNat
    if va % 2 ^ 16 ≠ 0 then .error (.trap .misaligned va)
    else .ok ⟨.restripe va (x.npg.toNat + 1) (s.src32 gid l b) 0 0, none, false, false, x.csc, x.h⟩) s

/-! ## Waiting for tickets -/

/-- The acquire of a returning `PWAIT` or `PTEST`: at the completion scope, device for a stale ticket (R178). -/
def State.ticketAcquire (s : State) (gid : Nat) : State := s.acquire ((s.group? gid).elim 0 Group.core) .dev

/-- Ticks that count against a promise: those of a time-stop that covers the context do not (R178). -/
def State.promiseDue (s : State) (core : Nat) (t pr : Word) : Bool :=
  let stop := match (s.ticketOp core t).bind s.op? with
    | some o => s.stopTicks o
    | none => 0
  decide (0 ≤ sdiff (BitVec.ofNat 32 s.rtime) (pr + BitVec.ofNat 32 stop))

/-- What a `PWAIT` meets: done, missed with the revised promise, or still waiting. -/
def State.pwaitNow (s : State) (gid : Nat) (t pr : Word) : State × LaneRes :=
  let core := (s.group? gid).elim 0 Group.core
  if (s.ticketOp core t).isNone then (s.ticketAcquire gid, .next)
  else if s.promiseDue core t pr then
    let (n, s) := s.freeNum
    (s, .recover .promiseMissed (Config.revised n).toNat)
  else (s, .wait (.pwait t pr))

def execPwait (p : Pre) (a : Opnd) (s : State) : Out :=
  inSlot (.pwait p a) p s (perLane (.pwait p a) fun s gid l =>
    s.pwaitNow gid (s.src32 gid l a) (s.src32 gid l (a.plus 1)))

def execPtest (p : Pre) (d : BitVec 7) (a : Opnd) (s : State) : Out :=
  inSlot (.ptest p d a) p s (perLane (.ptest p d a) fun s gid l =>
    let c := (s.ticketOp ((s.group? gid).elim 0 Group.core) (s.src32 gid l a)).isNone
    let s := if c then s.ticketAcquire gid else s
    (s.setPair gid d.toNat l c, .next))

/-- `CANCEL` (R179): the operation stops; what it wrote stays. -/
def execCancel (p : Pre) (d a : Opnd) (s : State) : Out :=
  inSlot (.cancel p d a) p s (withNames (.cancel p d a) (perLane (.cancel p d a) fun s gid l =>
    let core := (s.group? gid).elim 0 Group.core
    match s.ticketOp core (s.src32 gid l a) with
    | none => (s.dst32 gid l d 2, .next)
    | some id =>
      let wrote := match (s.op? id).map Op.kind with
        | some (.async x _) => x.wrote
        | _ => false
      let s := s.modOp id (modAsync fun a => { a with cancelled := true })
      (s.dst32 gid l d (if wrote then 1 else 0), .next)))

end Sys2Proof.Machine
end

