-- ==== Sys2Proof/Machine/Ctl.lean ====
section
/-!
DEFINITION. Sys2Proof/Machine/Ctl.lean: page 5 without launches and continuations (R130 to R139, R145, R151 to R156):
branches, horizon tests, reconvergence, barriers, waits on time and memory, exit, traps, special registers and hints.
-/

namespace Sys2Proof.Machine

/-! ## Branches, calls and returns (R132) -/

/-- A code offset some words from another, modulo 2^32. -/
def codeTarget (pc : Nat) (words : Int) : Nat := (((pc : Int) + 4 * words) % ((2 ^ 32 : Nat) : Int)).toNat

/-- A branch to a target, or `MISALIGNED` (R42). -/
def jumpTo (t : Nat) : LaneRes := if t % 4 = 0 then .jump t else .trap .misaligned t

def execBra (p : Pre) (imm : BitVec 21) (s : State) : Out :=
  inSlot (.bra p imm) p s (fun s c _ on => (s, on.map fun l => (l, jumpTo (codeTarget c.pc imm.toInt))))

def execBrx (p : Pre) (a : Opnd) (s : State) : Out :=
  inSlot (.brx p a) p s (perLane (.brx p a) fun s gid l => (s, jumpTo (s.src32 gid l a).toNat))

def execRet (p : Pre) (a : Opnd) (s : State) : Out :=
  inSlot (.ret p a) p s (perLane (.ret p a) fun s gid l => (s, jumpTo (s.src32 gid l a).toNat))

def execCall (p : Pre) (d : Opnd) (imm : BitVec 14) (s : State) : Out :=
  inSlot (.call p d imm) p s (withNames (.call p d imm) fun s c g on =>
    perLane (.call p d imm) (fun s gid l =>
      let link := ((s.thread gid l).clause.map Clause.after).getD 0
      (s.dst32 gid l d (BitVec.ofNat 32 link), .jump (codeTarget c.pc imm.toInt))) s c g on)

/-! ## The horizon (R133) -/

/-- A sequence number not yet given out reads as `OPC`. -/
def State.clampSeq (s : State) (gid l : Nat) (a : Word) : Word :=
  let opc := (s.thread gid l).opc
  if 0 < sdiff a opc then opc else a

def execBrh (p : Pre) (imm : BitVec 14) (a : Opnd) (s : State) : Out :=
  inSlot (.brh p imm a) p s (fun s c g on => perLane (.brh p imm a) (fun s gid l =>
    (s, if s.passed gid l (s.clampSeq gid l (s.src32 gid l a)) then .jump (codeTarget c.pc imm.toInt) else .next)) s c g on)

def execWaith (p : Pre) (a : Opnd) (s : State) : Out :=
  inSlot (.waith p a) p s (perLane (.waith p a) fun s gid l =>
    let n := s.clampSeq gid l (s.src32 gid l a)
    if s.passed gid l n then (s, .next) else (s.drainThread gid l, .wait (.waith n)))

/-! ## Reconvergence and barriers (R134 to R136) -/

/-- Follows a meaning with an operation on the state it leaves. -/
def andThen (r : Out) (f : State → State) : Out :=
  match r with
  | .next s => .next (f s)
  | r => r

def execReconv (p : Pre) (s : State) : Out :=
  andThen (inSlot (.reconv p) p s (fun s _ _ on => (s, on.map fun l => (l, .wait .reconv)))) fun t =>
    match s.cur with
    | some c => t.checkReconv c.gid
    | none => t

/-- Threads that a barrier's count may not exceed: the team's, or the cluster's. -/
def State.barLimit (s : State) (tid k : Nat) : Nat :=
  match s.team? tid with
  | none => 0
  | some t => if k < 16 then t.nthr else (Map.get? s.clusters t.cluster).elim 0 Cluster.nthr

/-- One thread's arrival: the state, and whether the phase completed. -/
def State.arrive (s : State) (gid l tid k : Nat) (a : Word) : State × Bool :=
  let b := s.barrier tid k
  let b' : Barrier := { b with e := if b.n = 0 then a.toNat else b.e, n := b.n + 1 }
  let s := (s.setBarrier tid k b').modThread gid l fun t => { t with arr := Map.put k b.ph t.arr }
  let s := s.checkPhase tid k
  (s, decide ((s.barrier tid k).ph ≠ b.ph))

def execBar (p : Pre) (x : BarX) (a : Opnd) (s : State) : Out :=
  inSlot (.bar p x a) p s (fun s c g on =>
    let tid := g.team
    let k := if x.clu then 16 + x.idx.toNat else x.idx.toNat
    let here (s : State) : LaneRes := .wait (.bar x.clu x.idx.toNat (s.barrier tid k).ph)
    if x.mode = .wait then (s, on.map fun l => (l, here s))
    else if on.any (fun l => s.storesPending c.gid l) then (s, on.map fun l => (l, .stall .stores))
    else
      let step (r : State × List Nat × List (Nat × LaneRes)) (l : Nat) : State × List Nat × List (Nat × LaneRes) :=
        let (s, pend, rs) := r
        let v := s.src32 c.gid l a
        if s.barLimit tid k < v.toNat then (s, pend, rs ++ [(l, .trap .illegalOperand 0)])
        else
          let (s, done) := s.arrive c.gid l tid k v
          if x.mode = .arrive then (s, [], rs ++ [(l, .next)])
          else if done then (s, [], rs ++ (pend ++ [l]).map fun l => (l, .next))
          else (s, pend ++ [l], rs)
      let (s, pend, rs) := on.foldl step (s, [], [])
      let s := if x.mode = .sync && rs.any (fun r => r.2 = .next) then s.acquire g.core (if x.clu then .clu else .grp) else s
      (s, rs ++ pend.map fun l => (l, here s)))

/-! ## Sleeping and waiting on memory (R137 to R139) -/

/-- The time of a context's stopped clocks at a lane's slot (R49, R137, R139). -/
def State.slotNow (s : State) (gid l : Nat) : Nat :=
  s.ctxNow ((s.group? gid).elim 0 Group.ctx) + (s.tickOf gid l - s.rtime)

def execSleep (p : Pre) (a : Opnd) (s : State) : Out :=
  inSlot (.sleep p a) p s (perLane (.sleep p a) fun s gid l =>
    let n := (s.src32 gid l a).toNat
    (s, if n = 0 then .next else .wait (.sleep (s.slotNow gid l + n))))

/-- The condition of a `WAITF`. -/
def wfCond (cc : BitVec 3) (w64 : Bool) (x b : DWord) : Bool :=
  let sx (v : DWord) : Int := if w64 then v.toInt else (v.extractLsb' 0 32).toInt
  match cc.toNat with
  | 0 => x = b
  | 1 => x ≠ b
  | 2 => sx x < sx b
  | 3 => sx b ≤ sx x
  | 4 => x.toNat < b.toNat
  | 5 => b.toNat ≤ x.toNat
  | 6 => x &&& b ≠ 0
  | _ => x &&& b = 0

/-- A `WAITF` is over: the predicate pair. -/
def State.wfPair (s : State) (gid l : Nat) (x : WfX) (ok : Bool) : State :=
  match x.pr with
  | some k => s.setPair gid k.val l ok
  | none => s

/-- The limit of a `WAITF` has passed. -/
def State.wfLate (s : State) (gid : Nat) (x : WfX) (start : Nat) : Bool :=
  x.tmo ≠ 0 && decide (start + 2 ^ (x.tmo.toNat + 9) ≤ s.ctxNow ((s.group? gid).elim 0 Group.ctx))

/-- What a value read by a `WAITF` makes of it: over, or still waiting. -/
def State.wfGot (s : State) (gid l : Nat) (x : WfX) (d : Opnd) (addr : Nat) (b : DWord) (start : Nat) (bs : List Byte) :
    State × LaneRes :=
  let v : DWord := BitVec.ofNat 64 (ofBytes bs)
  let done (ok : Bool) : State × LaneRes :=
    let s := if x.acq then s.acquire ((s.group? gid).elim 0 Group.core) x.scope else s
    let s := s.dstWait gid l d (v.extractLsb' 0 32)
    let s := if x.w64 then s.dstWait gid l (d.plus 1) (v.extractLsb' 32 32) else s
    (s.wfPair gid l x ok, .next)
  if wfCond x.cc x.w64 v b then done true
  else if s.wfLate gid x start then done false
  else (s, .wait (.waitf x d addr b start))

/-- Whether a `WAITF` read of a lane is on its way to a peer. -/
def State.polling (s : State) (gid l : Nat) : Bool :=
  s.ops.any fun e => e.2.gid = gid && !e.2.st.settled && (match e.2.kind with
    | .poll _ k _ _ => decide (k = l)
    | _ => false)

/-- Asks a peer for the word that a `WAITF` waits on, or a bank, whose queue the request enters (R325). -/
def State.sendPoll (s : State) (gid l : Nat) (sp : Space) (addr n : Nat) : State :=
  match s.group? gid with
  | none => s
  | some g =>
    let o : Op :=
      { ex := 0, core := g.core, ctx := g.ctx, gid := gid, lanes := [], ins := 0, kind := .poll sp l addr n, issue := s.rtime
        sys := s.sysMode g.ctx }
    let (id, s) := s.addOp o
    if sp = .bank then s else (s.drainLine g.core addr).sendOr id o (vaPeer addr) (addr / 256) 0 (readMsg addr n)

/-- Whether an earlier access of the thread to the same bytes, or an earlier acquire of it, has still to be performed, so that
a read after it in program order must wait (R91). -/
def State.ownBefore (s : State) (gid l : Nat) (sp : Space) (addr n : Nat) : Bool :=
  (s.unsettled gid l).any fun e => e.2.isAcquire || ((e.2.st = .waiting || e.2.st = .parked || e.2.st = .performed) &&
    (match e.2.kind with
      | .load q a k _ => q = sp && decide (a < addr + n) && decide (addr < a + k)
      | .store q a bs => q = sp && decide (a < addr + n) && decide (addr < a + bs.length)
      | .atom q a _ k _ _ _ _ => q = sp && decide (a < addr + n) && decide (addr < a + k)
      | _ => false))

/-- One read of a `WAITF` (R139). A page that is not present parks the thread; one that the walker's cache has not got is walked
first (R317). The line that is read leaves the L1, so that no later load there returns an older value (R91). -/
def State.wfStep (s : State) (gid l : Nat) (x : WfX) (d : Opnd) (addr : Nat) (b : DWord) (start : Nat) : State × LaneRes :=
  match s.group? gid with
  | none => (s, .gone)
  | some g =>
    let n := if x.w64 then 8 else 4
    let far := x.spc = .bank || (x.spc = .global && vaOk addr && (s.remote? addr).isSome)
    if s.ownBefore gid l x.spc addr n then (s, .wait (.waitf x d addr b start))
    else if far then (if s.polling gid l then s else s.sendPoll gid l x.spc addr n, .wait (.waitf x d addr b start))
    else
      match if x.spc = .global then s.walked g.ctx addr n gid l else (s, true) with
      | (s, false) => (s, .wait (.waitf x d addr b start))
      | (s, true) =>
      let s := if x.spc = .global then (s.meets g.ctx addr n { r := true } (s.sysMode g.ctx) (pairOf g.core)).l1Drop g.core g.ctx addr
        else s
      match s.spaceRead x.spc gid g.ctx g.core addr n { r := true } with
      | .ok (s, bs) => s.wfGot gid l x d addr b start bs
      | .error .notPresent =>
        (s.modThread gid l fun t => { t with parked := true }, .wait (.waitf x d addr b start))
      | .error (.cause _) => (s.wfPair gid l x false, .next)

/-- What a thread's `WAITF` comes to when it executes. -/
def State.wfFirst (s : State) (x : WfX) (d a b : Opnd) (gid l : Nat) : State × LaneRes :=
  let addr := (if x.spc = .global then s.src64 gid l a false + x.ofs.signExtend 64
    else ((s.src32 gid l a + x.ofs.signExtend 32).zeroExtend 64 : DWord)).toNat
  let v : DWord := if x.w64 then s.src64 gid l b true else (s.src32 gid l b).zeroExtend 64
  let n := if x.w64 then 8 else 4
  match s.eaBad x.spc gid addr n n with
  | some bad => (s, .trap bad addr)
  | none => s.wfStep gid l x d addr v (s.slotNow gid l)

/-- The other threads of a path that executed its `WAITF` once receive the same predicates (R51, R139). -/
def State.wfShare (s : State) (gid l : Nat) (x : WfX) (ls : List Nat) : State :=
  match x.pr, s.group? gid with
  | some k, some g => ls.foldl (fun s j => s.setPair gid k.val j (g.pred (2 * k.val) l)) s
  | _, _ => s

/-- Executes in every executing thread, or once for the path where the destination is uniform: the path's other threads then
wait with its lowest one (R51). -/
def execWaitf (p : Pre) (x : WfX) (d a b : Opnd) (s : State) : Out :=
  let i := Instr.waitf p x d a b
  inSlot i p s (withNames i fun s c g on =>
    if (i.need g.w).perPath then
      match on with
      | [] => (s, [])
      | l :: rest =>
        match s.wfFirst x d a b c.gid l with
        | (s, .next) => (s.wfShare c.gid l x rest, on.map fun j => (j, .next))
        | (s, .wait w) => (s, (l, .wait w) :: rest.map fun j => (j, .wait (.shared l)))
        | (s, r) => (s, on.map fun j => (j, r))
    else runLanes (fun s l => s.wfFirst x d a b c.gid l) s on)

/-- A `WAITF` is over for its thread and those that wait with it. -/
def State.wfOver (s : State) (gid l : Nat) (x : WfX) : State :=
  let with_ := match s.group? gid with
    | some g => (g.threads.filter fun e => e.2.wait = some (.shared l)).map Prod.fst
    | none => []
  (s.wfShare gid l x with_).wake gid l

/-- A read of a peer or of a bank for a `WAITF` is over (R139): with the value, or with a failure, which ends the wait unsatisfied. -/
def State.polled (s : State) (id : Nat) (o : Op) (l : Nat) (bs : Option (List Byte)) : State :=
  let s := s.settle id .ok
  match (s.thread o.gid l).wait with
  | some (.waitf x d addr b start) =>
    if s.deliverable o.gid l then s
    else
      let s := if x.spc = .global then s.l1Drop o.core o.ctx addr else s
      match bs with
      | none => (s.wfPair o.gid l x false).wfOver o.gid l x
      | some bs =>
        match s.wfGot o.gid l x d addr b start bs with
        | (s, .next) => s.wfOver o.gid l x
        | (s, _) => s
  | _ => s

/-- A bank performs the read of a `WAITF` (R139, R325). -/
def State.bankPoll (s : State) (id : Nat) (o : Op) (l a n : Nat) : State :=
  let s := s.bankTouch o.ctx a n
  match s.spaceRead .bank o.gid o.ctx o.core a n { r := true } with
  | .ok (s, bs) => s.polled id o l (some bs)
  | .error _ => s.polled id o l none

/-- Re-reads for a thread that waits in `WAITF`. -/
def State.wfAgain (s : State) (gid l : Nat) : State :=
  match (s.thread gid l).wait with
  | some (.waitf x d addr b start) =>
    if s.deliverable gid l then s
    else
      match s.wfStep gid l x d addr b start with
      | (s, .next) => s.wfOver gid l x
      | (s, _) => s
  | _ => s

/-! ## Exit (R145) -/

/-- A team whose last group has gone ends. -/
def State.endTeam (s : State) (tid : Nat) : State :=
  match s.team? tid with
  | none => s
  | some t =>
    let s := s.dropTeam tid
    match t.grid with
    | some gr => s.modGrid gr fun g => { g with left := g.left - 1 }
    | none => s

/-- A group leaves for good: with it may go its team. -/
def State.retireGroup (s : State) (gid : Nat) : State :=
  match s.group? gid with
  | none => s
  | some g =>
    let s := s.dropGroup gid
    let s := { s with ops := s.ops.filter fun e => !(e.2.gid = gid && e.2.st.settled) }
    if s.groups.any fun e => e.2.team = g.team then s.recount g.team
    else
      let cl := (s.team? g.team).map Team.cluster
      let s := s.endTeam g.team
      match s.teams.find? fun e => some e.2.cluster = cl with
      | some e => s.recount e.1
      | none => s

/-- An exiting thread with nothing unsettled and no failure to deliver has exited; one in a handler waits for the service of its
frame's page (R78, R320). -/
def State.exitDone (s : State) (gid l : Nat) : State :=
  match s.group? gid with
  | none => s
  | some g =>
    let t := g.thread l
    if t.phase ≠ .exiting || !(s.unsettled gid l).isEmpty || s.deliverable gid l || s.frameAway gid l then s
    else
      let s := (s.freeFrame gid l).modThread gid l fun t => { t with phase := .exited, clause := none, wait := none }
      match s.group? gid with
      | none => s
      | some g =>
        if g.threads.all fun e => e.2.phase = .exited then s.retireGroup gid
        else (s.recount g.team).checkReconv gid

def execExit (p : Pre) (s : State) : Out :=
  inSlot (.exit p) p s (fun s c _ on =>
    let cl := on.head?.bind fun l => (s.thread c.gid l).clause
    let rel := (cl.map Clause.releases).getD []
    let s := if rel.isEmpty then s else s.unmap c.gid rel
    let s := if cl.any fun x => x.header.y then s.modGroup c.gid fun g => { g with skip := true } else s
    let s := on.foldl (fun s l => (s.drainThread c.gid l).modThread c.gid l fun t => { t with phase := .exiting, t := [] }) s
    (on.foldl (fun s l => s.exitDone c.gid l) s, on.map fun l => (l, .gone)))

/-! ## Traps and return (R83, R151) -/

def execTrap (p : Pre) (imm : BitVec 14) (s : State) : Out :=
  inSlot (.trap p imm) p s (fun s _ _ on => (s, on.map fun l => (l, .trap .userTrap imm.toNat)))

/-- The lanes return, frame by frame. -/
def State.returnAll (s : State) (gid : Nat) (lanes : List Nat) : State :=
  let fr (s : State) (l : Nat) : Option Nat := (s.thread gid l).hnd.map Hnd.frame
  ((lanes.map (fr s)).eraseDups).foldl (fun s' f => s'.returnFrom gid (lanes.filter fun l => fr s l = f)) s

/-- `RFT` waits until its threads' horizons have passed; a failed operation counts as settled (R71), and its trap is taken at the
next clause boundary (R74). -/
def execRft (p : Pre) (s : State) : Out :=
  inSlot (.rft p) p s (fun s c _ on =>
    if on.all fun l => (s.unsettled c.gid l).isEmpty then (s.returnAll c.gid on, on.map fun l => (l, .gone))
    else (s, on.map fun l => (l, .wait .rft)))

/-! ## Special registers (R152 to R155) -/

def loHi (v : Nat) : Word × Word := (BitVec.ofNat 32 v, BitVec.ofNat 32 (v / 2 ^ 32))

/-- The value of a special register in thread l, and the state with any high half latched. -/
def State.getSr (s : State) (gid l n : Nat) : Word × State :=
  match s.group? gid with
  | none => (0, s)
  | some g =>
    let t := g.thread l
    let tm := s.team? g.team
    let cx := s.ctx? g.ctx
    let xyz (i : Nat) : Nat × Nat × Nat → Nat := fun v => if i = 0 then v.1 else if i = 1 then v.2.1 else v.2.2
    let w (v : Nat) : Word := BitVec.ofNat 32 v
    let cyc := loHi (s.cycOf gid l)
    let en := loHi ((cx.elim 0 Ctx.energy) % 2 ^ 64)
    let latch (f : Thread → Thread) : State := s.modThread gid l f
    match n with
    | 0 => (t.teamThread, s)
    | 1 | 2 | 3 => (w (tm.elim 0 fun x => xyz (n - 1) x.pos), s)
    | 4 | 5 | 6 => (w (tm.elim 1 fun x => xyz (n - 4) x.size), s)
    | 7 => (w (tm.elim 0 Team.rank), s)
    | 8 => (w g.core, s)
    | 9 => (g.groupId, s)
    | 10 => (w g.w, s)
    | 11 => (g.flags.zeroExtend 32, s)
    | 12 => (g.trapen.zeroExtend 32, s)
    | 13 => (g.gmShape, s)
    | 14 => (g.gmMode.zeroExtend 32, s)
    | 15 => (cyc.1, latch fun t => { t with cycHi := some cyc.2 })
    | 16 => (t.cycHi.getD cyc.2, s)
    | 17 => (t.rtimeHi.getD (loHi (s.tickOf gid l)).2, s)
    | 18 => (en.1, latch fun t => { t with energyHi := some en.2 })
    | 19 => (t.energyHi.getD en.2, s)
    | 20 => (s.deviceIndex.zeroExtend 32, s)
    | 21 => (s.massifId.zeroExtend 32, s)
    | 22 => (w g.ctx, s)
    | 64 => (cx.elim 0 Ctx.trapLo, s)
    | 65 => (cx.elim 0 Ctx.trapHi, s)
    | 66 => (cx.elim 0 Ctx.saveLo, s)
    | 67 => (cx.elim 0 Ctx.saveHi, s)
    | 68 => (cx.elim 0 fun c => c.touched.zeroExtend 32, s)
    | 69 => (s.snap.tag, s)
    | _ => (0, s)

/-- Every executing thread reads the register; a uniform destination receives what the path's lowest executing thread reads, the
half latched for that thread included, and the read latches for all of them (R51, R152; DESIGN CHOICE, log entry 66). -/
def execGetsr (p : Pre) (d : Opnd) (a : BitVec 7) (s : State) : Out :=
  let i := Instr.getsr p d a
  inSlot i p s (withNames i fun s c g on => runLanes (fun s l =>
    let (v, s) := s.getSr c.gid l a.toNat
    (if (i.need g.w).perPath && on.head? ≠ some l then s else s.dst32 c.gid l d v, .next)) s on)

/-- Writes a special register (R153, R155). -/
def State.setSr (s : State) (gid n : Nat) (v : Word) : State :=
  let cx (f : Ctx → Ctx) : State := s.modCtx ((s.group? gid).elim 0 Group.ctx) f
  match n with
  | 11 => s.modGroup gid fun g => { g with flags := v.extractLsb' 0 6 }
  | 12 => s.modGroup gid fun g => { g with trapen := v.extractLsb' 0 6 }
  | 13 => s.modGroup gid fun g => { g with gmShape := v }
  | 14 => s.modGroup gid fun g => { g with gmMode := v.extractLsb' 0 4 }
  | 64 => cx fun c => { c with trapLo := v }
  | 65 => cx fun c => { c with trapHi := v }
  | 66 => cx fun c => { c with saveLo := v }
  | 67 => cx fun c => { c with saveHi := v }
  | _ => s

def execSetsr (p : Pre) (d : BitVec 7) (a : Opnd) (s : State) : Out :=
  inSlot (.setsr p d a) p s (perLane (.setsr p d a) fun s gid l => (s.setSr gid d.toNat (s.src32 gid l a), .next))

/-! ## Hints, register blocks, snapshots (R156) -/

def execYieldH (p : Pre) (s : State) : Out :=
  inSlot (.yieldH p) p s (perLane (.yieldH p) fun s gid _ => (s.modGroup gid fun g => { g with skip := true }, .next))

def execRacq (p : Pre) (a : Opnd) (s : State) : Out :=
  inSlot (.racq p a) p s (perLane (.racq p a) fun s gid l =>
    let n := min (s.src32 gid l a).toNat 4
    match s.drawTo gid n 4 with
    | some s => (s, .next)
    | none => (s, .stall (.block n)))

def execRrel (p : Pre) (s : State) : Out :=
  inSlot (.rrel p) p s (perLane (.rrel p) fun s gid _ =>
    (s.shrink gid ((s.group? gid).elim 0 Group.needBlocks), .next))

def execNop (p : Pre) (s : State) : Out :=
  inSlot (.nop p) p s (fun s _ _ on => (s, on.map fun l => (l, .next)))

def execSnap (p : Pre) (a : Opnd) (s : State) : Out :=
  inSlot (.snap p a) p s (perLane (.snap p a) fun s gid l =>
    let tag := s.src32 gid l a
    let s := s.trigger
    ({ s with snap := { s.snap with tag := tag } }, .next))

end Sys2Proof.Machine
end

