-- ==== Sys2Proof/Machine/Sched.lean ====
section
/-!
DEFINITION. Sys2Proof/Machine/Sched.lean: from launch record to running team (R274 to R280, R285 to R287): records,
queues, admission, placement, reservations, the energy account.
-/

namespace Sys2Proof.Machine

/-! ## Launch records (R274) -/

def bytesOfWords (ws : List Word) : List Byte := ws.flatMap fun w => toBytes 4 w.toNat

/-- Whether a predecessor word is well formed (R275). -/
def predOk (w : Word) : Bool := !w.getLsbD 31 || (bits w 24 7 = 0 && bits w 6 10 = 0)

/-- Decodes a record; none where it is refused on its own account. -/
def LRec.read (bs : List Byte) : Option LRec :=
  let n (o k : Nat) : Nat := ofBytes ((bs.drop o).take k)
  let lfl := n 22 2
  let shape := n 26 2
  let pcl := n 30 2
  let c := max 1 (shape / 4 % 16)
  let r := max 1 (shape / 64 % 16)
  let cls := pcl / 8 % 4
  let bounded := lfl / 4 % 2 = 1
  let shadow := lfl / 8 % 2 = 1
  let entry := n 0 8
  let handler := n 56 8
  let w32 (v : Nat) : Word := BitVec.ofNat 32 v
  let ok := entry % 4 = 0 && n 16 2 ≠ 0 && n 18 2 ≠ 0 && n 20 2 ≠ 0 && lfl < 32
    && n 24 2 ≠ 0 && n 24 2 ≤ 4096 && shape % 4 ≠ 3 && c ≤ 8 && r ≤ 5 && c * r ≤ 12 && shape < 1024
    && n 28 2 ≤ 1024 && pcl < 32 && cls ≠ 3 && (!shadow || n 32 4 % 4 = 0) && n 36 4 % 64 = 0
    && predOk (w32 (n 48 4)) && predOk (w32 (n 52 4))
    && (handler = 0 || (handler % 4 = 0 && entry ≤ handler && handler < entry + 2 ^ 32))
    && (cls == 2) == bounded && !(shadow && shape % 4 == 2) && !(lfl / 2 % 2 == 1 && c * r ≠ 1)
  if ok then
    some ⟨entry, n 8 8, n 16 2, n 18 2, n 20 2, BitVec.ofNat 5 lfl, n 24 2, 16 * 2 ^ (shape % 4), c, r, n 28 2 * 4096, pcl % 8,
      cls, n 32 4, n 36 4, n 40 4, n 44 4, w32 (n 48 4), w32 (n 52 4), handler⟩
  else none

def LRec.coop (r : LRec) : Bool := r.lfl.getLsbD 0
def LRec.paired (r : LRec) : Bool := r.lfl.getLsbD 1
def LRec.bounded (r : LRec) : Bool := r.lfl.getLsbD 2
def LRec.shadow (r : LRec) : Bool := r.lfl.getLsbD 3
def LRec.mtx (r : LRec) : Bool := r.lfl.getLsbD 4
def LRec.teams (r : LRec) : Nat := r.gx * r.gy * r.gz
def LRec.clusterSize (r : LRec) : Nat := r.cols * r.rows
def LRec.groups (r : LRec) : Nat := ceilDiv r.nthr r.w

/-! ## Node tables (R281) -/

/-- One node entry; none where it is refused. -/
def Node.read (w : Nat) (bs : List Byte) : Option Node :=
  let n (o k : Nat) : Nat := ofBytes ((bs.drop o).take k)
  let f := n 4 4
  let nco := f / 16 % 128
  if n 0 4 % 4 = 0 && nco ≠ 0 && nco ≤ w && f / 2 ^ 16 = w && n 8 4 ≠ 0 && n 8 4 ≤ 1000000 && n 12 2 ≤ 1024 && n 14 2 = 0 then
    some ⟨n 0 4, f % 16 + 1, nco, f / 2 ^ 11 % 2 == 1, f / 2 ^ 12 % 8, f / 2 ^ 15 % 2 == 1, f / 2 ^ 16, n 8 4, n 12 2 * 4096⟩
  else none

/-- A node table from its words; none where it is refused. -/
def NodeTable.read (cfg : CtxCfg) (r : LRec) (hdr ents : List Byte) : Option NodeTable :=
  let n (o k : Nat) : Nat := ofBytes ((hdr.drop o).take k)
  let nn := n 0 2
  let spill := n 4 4
  let sn := n 8 4
  let inside := sn = 0 || cfg.windows.any fun w => w.base ≤ spill && spill + 72 * sn ≤ w.base + w.len
  let nodes := (List.range nn).map fun i => Node.read r.w ((ents.drop (16 * i)).take 16)
  if nn ≠ 0 && nn ≤ 1024 && n 2 2 = 0 && spill % 64 = 0 && sn ≤ 2 ^ 21 && n 12 4 = 0 && inside && nodes.all Option.isSome then
    some ⟨wordsOf (4 + 4 * nn) (ofBytes (hdr ++ ents)), nodes.filterMap id, spill, sn, r.entry, r.handler⟩
  else none

/-- Reads the node table that a record names: none if it names none; an error code (R143), or a page to wait for. -/
def State.readTable (s : State) (ctx die : Nat) (r : LRec) : Except (Nat ⊕ Nat) (State × Option NodeTable) :=
  if r.ntofs = 0 then .ok (s, none)
  else
    let sys := s.sysMode ctx
    let a := (r.entry + r.ntofs) % 2 ^ 64
    let err (e : XErr) : Nat ⊕ Nat := match e with
      | .cause _ => .inl 1
      | .notPresent => .inr a
    match s.gread ctx a 16 { r := true } sys die with
    | .error e => .error (err e)
    | .ok (s, h) =>
      let nn := ofBytes (h.take 2)
      match if nn ≤ 1024 then s.gread ctx (a + 16) (16 * nn) { r := true } sys die else .ok (s, []) with
      | .error e => .error (err e)
      | .ok (s, es) =>
        match s.ctx? ctx with
        | none => .error (.inl 2)
        | some c =>
          match NodeTable.read c.cfg r h es, c.node with
          | none, _ => .error (.inl 2)
          | some t, none => .ok (s, some t)
          | some t, some old => if t.words = old.words && t.cbase = old.cbase then .ok (s, none) else .error (.inl 2)

/-! ## Room on a core (R20, R277, R278) -/

/-- Groups that a core is charged with; a restored group without a slice still waits in the core's queue (R147). -/
def State.groupsOn (s : State) (core : Nat) : List Group :=
  (s.groups.filter fun e => decide (e.2.slice < 64) && (s.chargedTo e.2).contains core).map Prod.snd

def State.teamsOn (s : State) (core : Nat) : List Team :=
  (s.teams.filter fun e => e.2.core = core || (e.2.paired && e.2.core + 1 == core)).map Prod.snd

/-- Resident threads of a core: the width of each resident group. -/
def State.residentThreads (s : State) (core : Nat) : Nat := (s.groupsOn core).foldl (fun n g => n + g.w) 0

/-- What a team asks of a core. -/
structure Demand where
  groups : Nat
  w : Nat
  shadow : Bool
  scr : Nat
  mtx : Bool
  paired : Bool

def LRec.demand (r : LRec) : Demand := ⟨r.groups, r.w, r.shadow, r.scr, r.mtx, r.paired⟩

/-- Groups and threads on each slice of the cores. -/
def State.sliceLoad (s : State) (cores : List Nat) (k : Nat) : Nat × Nat :=
  cores.foldl (fun m c =>
    let gs := (s.groupsOn c).filter fun g => g.slice = k
    (max m.1 gs.length, max m.2 (gs.foldl (fun n g => n + g.w) 0))) (0, 0)

/-- Slices for `n` groups: each goes to the slice with the fewest groups that has room, the lowest number first. -/
def assignSlices (unit w : Nat) : Nat → List (Nat × Nat) → Option (List Nat)
  | 0, _ => some []
  | n + 1, load =>
    let fits := ((List.range 64).zip load).filter fun e => e.2.1 + unit ≤ 4 && e.2.2 + unit * w ≤ 64
    match fits.foldl (fun (b : Option (Nat × Nat)) e => match b with
      | some (_, m) => if e.2.1 < m then some (e.1, e.2.1) else b
      | none => some (e.1, e.2.1)) none with
    | none => none
    | some (k, _) =>
      let load' := ((List.range 64).zip load).map fun e => if e.1 = k then (e.2.1 + unit, e.2.2 + unit * w) else e.2
      (assignSlices unit w n load').map (k :: ·)

/-- The lowest place for `len` bytes of scratchpad. -/
def State.scrPlace (s : State) (cores : List Nat) (len : Nat) : Option Nat :=
  let used := ((cores.flatMap s.teamsOn).map fun t => (t.scrBase, t.scrBase + t.scrLen))
    ++ s.clusters.flatMap fun e => (e.2.kept.filter fun k => cores.contains k.2.1).map fun k => (k.2.2.1, k.2.2.1 + k.2.2.2)
  let cands := (0 :: used.map Prod.snd).filter fun b =>
    b + len ≤ Config.scratchBytes && used.all fun u => len = 0 || decide (b + len ≤ u.1) || decide (u.2 ≤ b)
  match cands with
  | [] => none
  | c :: cs => some (cs.foldl min c)

/-- Whether a core can hold a team now: the slices of its groups and its scratchpad's place. -/
def State.roomOn (s : State) (core : Nat) (d : Demand) : Option (List Nat × Nat) :=
  let cores := if d.paired then [core, core + 1] else [core]
  let unit := if d.shadow then 2 else 1
  let blocks := cores.all fun c => d.groups * unit * 64 * d.w ≤ ((s.reclaim c 0).core c).pool
  let mtx := !d.mtx || cores.all fun c => !(s.teamsOn c).any Team.mtx
  if (d.paired && core % 2 = 1) || !blocks || !mtx then none
  else
    match assignSlices unit d.w d.groups ((List.range 64).map (s.sliceLoad cores)), s.scrPlace cores d.scr with
    | some sl, some b => some (sl, b)
    | _, _ => none

/-- Cores that some context's bounded set holds (R285). -/
def State.boundedCores (s : State) : List Nat := s.ctxs.flatMap fun c => c.2.cfg.bounded

/-- The cores allowed to work of a context and class (R278, R285): none that is reserved for another grid, nor, for another class, one
of a bounded set or with a resident bounded team. -/
def State.allowedCores (s : State) (ctx cls : Nat) (mtx paired : Bool) (gr : Nat) : List Nat :=
  match s.ctx? ctx with
  | none => []
  | some c =>
    let base := if cls = 2 then c.cfg.bounded
      else c.cfg.cores.filter fun k => !s.boundedCores.contains k && !(s.teamsOn k).any Team.bounded
    let resv := s.reserved.flatMap fun e => if e.2.1 = gr then [] else e.2.2
    let up (k : Nat) : Bool := k < 160 && (s.die (pairOf k)).st = .online
      && (!mtx || (s.die (4 + pairOf k)).st = .online) && !resv.contains k
    if c.killed then [] else base.filter fun k => up k && (!paired || (base.contains (k + 1) && up (k + 1)))

/-- The best core for one team: the fewest resident threads, then the lowest number. -/
def State.pickCore (s : State) (cores : List Nat) (d : Demand) : Option (Nat × List Nat × Nat) :=
  let fits := cores.filterMap fun c => (s.roomOn c d).map fun p => (s.residentThreads c, c, p)
  (fits.foldl (fun (b : Option (Nat × Nat × List Nat × Nat)) e => match b with
    | some x => if e.1 < x.1 || (e.1 = x.1 && e.2.1 < x.2.1) then some e else b
    | none => some e) none).map Prod.snd

/-- Rectangles of the logical mesh in the order of first fit (R278). -/
def rectangles (c r : Nat) : List (List Nat) :=
  (List.range 4).flatMap fun d => (List.range (6 - r)).flatMap fun k => (List.range (9 - c)).map fun j =>
    (List.range (c * r)).map fun i => 40 * d + 8 * (k + i / c) + j + i % c

/-- The first rectangle with room for `n` teams at its lowest ranks. -/
def State.pickRect (s : State) (cores : List Nat) (c r n : Nat) (d : Demand) : Option (List Nat × List (List Nat × Nat)) :=
  (rectangles c r).findSome? fun rc =>
    let ps := (rc.take n).map fun k => if cores.contains k then s.roomOn k d else none
    if ps.all Option.isSome then some (rc, ps.filterMap id) else none

/-! ## Placing a team (R17, R18, R24, R29, R222, R278) -/

/-- What a new allocation holds: bytes that a team of the same context left may stay, all others are zero (R278). -/
def State.freshScratch (s : State) (core base len ctx : Nat) : State :=
  let lo := scratchPhys core base
  let s := { s with poison := s.poison.filter fun p => !(decide (lo ≤ p) && decide (p < lo + len)) }
  let owner (a : Nat) : Option Nat :=
    ((s.core core).scrOwner.find? fun r => decide (scratchPhys core r.1 ≤ a) && decide (a < scratchPhys core r.1 + r.2.1)).map
      fun r => r.2.2
  (s.mem.filter fun c => decide (lo ≤ c.1) && decide (c.1 < lo + len)).foldl (fun s c =>
    let (n, s) := s.freeNum
    if owner c.1 = some ctx && Config.keepOld n then s else s.writePhys c.1 [0]) s

/-- The accumulator tiles of a new team: elements that the same context left may stay, all others are zero (R222). -/
def State.freshTiles (s : State) (core ctx : Nat) : State × Map Tile :=
  if (s.core core).lastCtx = some ctx then
    (s.core core).oldTiles.foldl (fun r t =>
      let (s, ts) := r
      let (s, e) := t.2.e.foldl (fun (r : State × Map DWord) e =>
        let (n, s) := r.1.freeNum
        (s, if Config.keepOld n then r.2 ++ [e] else r.2)) (s, [])
      (s, ts ++ [(t.1, { t.2 with e := e })])) (s, [])
  else (s, [])

/-- What a new group starts with. -/
structure GroupInit where
  ctx : Nat
  team : Nat
  core : Nat
  slice : Nat
  w : Nat
  cbase : Nat
  pc : Nat
  idx : Nat
  cls : Nat
  prio : Nat
  kind : GroupKind
  live : Nat → Bool
  uni : Map Word
  vec : Nat → List Word
  tthread : Nat → Word
  names : List Nat

/-- Puts a group on its slice with its first register block. -/
def State.addGroup (s : State) (gid : Nat) (i : GroupInit) : State :=
  let thread (l : Nat) : Thread :=
    { pc := i.pc, phase := if i.live l then .active else .exited, teamThread := i.tthread l
      v := if i.live l then ((List.range (i.vec l).length).zip (i.vec l)) else [] }
  let g : Group :=
    { ctx := i.ctx, team := i.team, core := i.core, slice := i.slice, w := i.w, kind := i.kind, cbase := i.cbase
      groupId := BitVec.ofNat 32 i.idx, cls := i.cls, prio := i.prio, age := s.nextId, s := i.uni
      threads := (List.range i.w).map fun l => (l, thread l) }
  let s := { s with groups := Map.put gid g s.groups, nextId := s.nextId + 1 }
  match s.mapNames gid i.names with
  | some s => s
  | none => s.modGroup gid fun g => g.remap i.names

/-- Threads that a team counts in all. -/
def Team.addTo (s : State) (tid : Nat) (t : Team) : State :=
  let s := { s with teams := Map.put tid t s.teams }
  let s := s.touch t.ctx (pairOf t.core)
  if t.mtx then s.touch t.ctx (4 + pairOf t.core) else s

/-- Places one team of a grid at a core and rank of a cluster. The launch acquires what its grid's predecessors released (R99, R275). -/
def State.placeTeam (s : State) (gr : Nat) (g : Grid) (idx core cl rank : Nat) (p : List Nat × Nat) : State :=
  let r := g.r
  let (tid, s) := s.fresh
  let s := s.freshScratch core p.2 r.scr g.ctx
  let s := if r.paired then s.freshScratch (core + 1) p.2 r.scr g.ctx else s
  let (s, tiles) := if r.mtx then s.freshTiles core g.ctx else (s, [])
  let t : Team :=
    { ctx := g.ctx, grid := some gr, core := core, cluster := cl, rank := rank, idx := idx
      pos := (idx % r.gx, idx / r.gx % r.gy, idx / (r.gx * r.gy)), size := (r.gx, r.gy, r.gz), nthr := r.nthr, w := r.w
      scrBase := p.2, scrLen := r.scr, mtx := r.mtx, paired := r.paired, bounded := r.bounded, shadow := r.shadow
      cls := r.cls, prio := r.prio, handler := r.handler, cbase := r.entry, age := s.nextId, tiles := tiles }
  let s := (Team.addTo s tid t).acquire core .dev
  let w (n : Nat) : Word := BitVec.ofNat 32 n
  let uni : Map Word :=
    [(0, w r.args), (1, w (r.args / 2 ^ 32)), (2, w idx), (3, w r.teams), (4, w r.nthr)]
  ((List.range p.1.length).zip p.1).foldl (fun s e =>
    let (gid, s) := s.fresh
    let (sid, s) := s.fresh
    let init (kind : GroupKind) (pc : Nat) : GroupInit :=
      { ctx := g.ctx, team := tid, core := core, slice := e.2, w := r.w, cbase := r.entry, pc := pc, idx := e.1, cls := r.cls
        prio := r.prio, kind := kind, live := fun l => decide (e.1 * r.w + l < r.nthr), uni := uni
        vec := fun l => [w (e.1 * r.w + l)], tthread := fun l => w (e.1 * r.w + l), names := [0] }
    if r.shadow then
      (s.addGroup gid (init (.compute sid) 0)).addGroup sid (init (.shadow gid) r.shofs)
    else s.addGroup gid (init .plain 0)) s

/-- Records a new cluster. -/
def State.addCluster (s : State) (cols rows : Nat) (cores : List Nat) (nthr : Nat) : Nat × State :=
  let (cl, s) := s.fresh
  (cl, { s with clusters := Map.put cl { cols := cols, rows := rows, cores := cores, nthr := nthr } s.clusters })

/-- Places the next team, or the next cluster, of a grid; none where there is no room. The grid's reservations end with it (R278,
R279). -/
def State.placeNext (s : State) (gr : Nat) : Option State :=
  match s.grid? gr with
  | none => none
  | some g =>
    let r := g.r
    let cores := s.allowedCores g.ctx r.cls r.mtx r.paired gr
    let k := min r.clusterSize (r.teams - g.nextIdx)
    let done (s : State) : State :=
      { s with reserved := s.reserved.filter fun e => e.2.1 ≠ gr }.modGrid gr fun g => { g with
        nextIdx := g.nextIdx + k, left := g.left + k, since := s.rtime
        st := if g.nextIdx + k = r.teams then .running else .placing }
    if r.clusterSize = 1 then
      (s.pickCore cores r.demand).map fun (c, p) =>
        let (cl, s) := s.addCluster 1 1 [c] r.nthr
        done (s.placeTeam gr g g.nextIdx c cl 0 p)
    else
      (s.pickRect cores r.cols r.rows k r.demand).map fun (rc, ps) =>
        let (cl, s) := s.addCluster r.cols r.rows rc (k * r.nthr)
        let s := ((List.range k).zip ps).foldl (fun s e => s.placeTeam gr g (g.nextIdx + e.1) (rc.getD e.1 0) cl e.1 e.2) s
        done s

/-- Places every team of a grid, with `fuel` for their number. -/
def State.placeAll (s : State) (gr : Nat) : Nat → Option State
  | 0 => none
  | fuel + 1 =>
    match s.placeNext gr with
    | none => none
    | some s =>
      match (s.grid? gr).map Grid.st with
      | some .running => some s
      | _ => s.placeAll gr fuel

/-- The state with the cores empty, for the test of R279. -/
def State.emptied (s : State) : State :=
  { s with
    groups := [], teams := [], clusters := [], reserved := []
    cores := Map.modAll (fun _ c => { c with pool := Config.poolBytes, resv := Config.reserveBytes }) s.cores }

/-! ## Places for saved teams (R280, R297) -/

/-- The groups of a saved team that share a slice: a compute group and its shadow group go by the compute group (R29). -/
def pairKey (e : Nat × Group) : Nat :=
  match e.2.kind with
  | .shadow p => p
  | .compute _ | .plain => e.1

/-- One key for each slice that a saved team asks for. -/
def Save.keys (v : Save) : List Nat := (v.groups.map pairKey).eraseDups

/-- What a saved team asks of a core. -/
def Save.demand (v : Save) : Demand :=
  ⟨v.keys.length, v.team.w, v.team.shadow, v.team.scrLen, v.team.mtx, v.team.paired⟩

/-- The saved teams that are restored together: those of one cluster; a checkpointed team alone. -/
def State.savedWith (s : State) (key : Nat) (v : Save) : Map Save :=
  if v.ckpt then [(key, v)] else s.saves.filter fun e => e.2.clOf = v.clOf && !e.2.ckpt && !e.2.placed

/-- Where the saved teams `vs` of one cluster can be restored under R278: the cores of the cluster, and each team's core
and place there. -/
def State.restorePlace (s : State) (v : Save) (vs : Map Save) : Option (List Nat × List (Nat × List Nat × Nat)) :=
  let cores := s.allowedCores v.ctx v.team.cls v.team.mtx v.team.paired (v.team.grid.getD 0)
  let place (rc : List Nat) : Option (List (Nat × List Nat × Nat)) :=
    let ps := vs.map fun e =>
      let c := rc.getD e.2.team.rank 0
      if cores.contains c then (s.roomOn c e.2.demand).map fun p => (c, p) else none
    if ps.all Option.isSome then some (ps.filterMap id) else none
  if v.cluster.cores.length ≤ 1 then (s.pickCore cores v.demand).map fun (c, p) => ([c], [(c, p)])
  else (rectangles v.cluster.cols v.cluster.rows).findSome? fun rc => (place rc).map fun ps => (rc, ps)

/-- The effective priority (R277). -/
def Grid.effPrio (g : Grid) : Nat := if g.r.cls = 2 then g.r.prio else min 7 (g.r.prio + g.aged)

/-- The effective priority of a team: its grid's, or a node team's own. -/
def State.teamPrio (s : State) (t : Team) : Nat := (t.grid.bind s.grid?).elim t.prio Grid.effPrio

/-- Whether a saved team stands ahead of the unplaced teams of a grid: by class, then effective priority, and at equal ones
always (R277, R280). -/
def State.ahead (s : State) (v : Save) (cls prio : Nat) : Bool :=
  decide (cls < v.team.cls) || (v.team.cls = cls && decide (prio ≤ s.teamPrio v.team))

/-- Whether a saved team is to be restored before a grid's teams are placed, where there is room for it (R280). -/
def State.savedFirst (s : State) (cls prio : Nat) : Bool :=
  s.saves.any fun e => !e.2.ckpt && !e.2.placed && s.ahead e.2 cls prio && (s.restorePlace e.2 (s.savedWith e.1 e.2)).isSome

/-! ## Queues (R143, R275) -/

/-- What a record came to: the state with its grid, or an error code of R143, or a page to wait for. Where several codes apply, the
record's own refusal comes first, then that of its node table, the right to its class or priority, its shape, and a full queue
(DESIGN CHOICE, log entry 66). -/
def State.queueRecord (s : State) (ctx die : Nat) (bs : List Byte) (gang : Option Nat) :
    Except (Nat ⊕ Nat) (State × Nat × Word) :=
  match s.ctx? ctx, LRec.read bs with
  | some c, some r =>
    match s.readTable ctx die r with
    | .error e => .error e
    | .ok (s, nt) =>
      let right := decide (r.prio ≤ c.cfg.maxPrio) && (if r.cls = 2 then c.cfg.boundRight else c.cfg.classes.contains r.cls)
      let full := decide (256 ≤ (s.grids.filter fun e => e.2.ctx = ctx && e.2.r.prio = r.prio &&
        (e.2.st = .queued || e.2.st = .waiting || e.2.st = .admittable)).length)
      let (gr, s1) := s.fresh
      let ticket := c.tickets % (2 ^ 31 - 1) + 1
      let s1 := { s1 with grids := Map.put gr { ctx := ctx, ticket := ticket, r := r, gang := gang, age := gr } s1.grids }
      if !right then .error (.inl 4)
      else if r.coop && (s1.emptied.placeAll gr r.teams).isNone then .error (.inl 2)
      else if full then .error (.inl 3)
      else
        let s1 := s1.modCtx ctx fun c =>
          { c with
            tickets := c.tickets + 1
            node := match nt with
              | some t => some t
              | none => c.node
            ended := (Map.del ticket c.ended).filter fun e => decide ((ticket + (2 ^ 31 - 1) - e.1) % (2 ^ 31 - 1) < 4096) }
        .ok (s1, gr, BitVec.ofNat 32 ticket)
  | _, _ => .error (.inl 2)

/-- The error words of `LAUNCH`. -/
def launchCode (k : Nat) : Word := BitVec.ofNat 32 (2 ^ 31 + k)

def execLaunch (p : Pre) (d a : Opnd) (s : State) : Out :=
  inSlot (.launch p d a) p s (fun s c g on =>
    afterStores (perLane (.launch p d a) (fun s gid l =>
      let va := (s.src64 gid l a false).toNat
      if va % 64 ≠ 0 then (s, .trap .misaligned va)
      else
        match s.cread g.ctx g.core va 64 with
        | .error (.cause _) => (s.dst32 gid l d (launchCode 1), .next)
        | .error .notPresent => (s, .stall (.page va))
        | .ok (s, bs) =>
          match s.queueRecord g.ctx (pairOf g.core) bs none with
          | .error (.inl k) => (s.dst32 gid l d (launchCode k), .next)
          | .error (.inr pg) => (s, .stall (.page pg))
          | .ok (s, _, t) => (s.dst32 gid l d t, .next))) s c g on)

def execWaitl (p : Pre) (d a : Opnd) (s : State) : Out :=
  inSlot (.waitl p d a) p s (perLane (.waitl p d a) fun s gid l =>
    let t := s.src32 gid l a
    let g := s.group? gid
    match s.ticketStatus (g.elim 0 Group.ctx) t with
    | some n => ((s.acquire (g.elim 0 Group.core) .dev).dst32 gid l d (BitVec.ofNat 32 n), .next)
    | none => (s, .wait (.waitl t d)))

/-- HOST_INTAKE: a launch record of context `a`, from record address `b`; the reply is written back into host memory at address `c`
(R359, DESIGN CHOICE, log entry 37). A packet that asks for RUDI (`flag`) is dropped. -/
def execHostIntake (s : State) : Out :=
  let x := s.sel
  let reply (s : State) (w : Word) : State :=
    { s with outbox := s.outbox ++ [{ dest := 512, kind := .rma, ctx := x.a, addr := x.c, data := toBytes 4 w.toNat }] }
  if s.boot.st ≠ .running || !s.belayServes || x.flag then .next s
  else if x.b % 64 ≠ 0 then .next (reply s (launchCode 2))
  else
    match s.queueRecord x.a 0 (bytesOfWords x.words) none with
    | .error (.inl k) => .next (reply s (launchCode k))
    | .error (.inr _) => .next s
    | .ok (s, _, t) => .next (reply s t)

/-- The oldest queued grid of a queue. -/
def State.queueHead (s : State) (ctx prio : Nat) : Option Nat :=
  (s.grids.find? fun e => e.2.ctx = ctx && e.2.r.prio = prio && e.2.st = .queued).map Prod.fst

def execGridQueueHead (s : State) : Out :=
  match s.queueHead s.sel.a s.sel.b with
  | some gr => .next (s.modGrid gr fun g => { g with st := .waiting }).retest
  | none => .next s

/-! ## Admission (R277, R279, R287) -/

/-- Whether grid `a` is considered before grid `b`. -/
def State.before (s : State) (a b : Nat × Grid) : Bool :=
  let now := BitVec.ofNat 32 s.rtime
  let dl (g : Grid) : Int := sdiff (BitVec.ofNat 32 g.r.deadl) now
  if a.2.r.cls ≠ b.2.r.cls then decide (b.2.r.cls < a.2.r.cls)
  else if a.2.r.cls = 2 && dl a.2 ≠ dl b.2 then dl a.2 < dl b.2
  else if a.2.r.cls ≠ 2 && a.2.effPrio ≠ b.2.effPrio then decide (b.2.effPrio < a.2.effPrio)
  else decide (a.1 < b.1)

/-- The declared energy rate fits (R287). -/
def State.energyFits (s : State) (g : Grid) : Bool :=
  g.r.ebud = 0 ||
    (s.grids.foldl (fun n e => match e.2.st with
      | .placing | .running | .prepared => n + e.2.r.ebud
      | .queued | .waiting | .admittable | .ended _ => n) 0) + Config.idleRate + g.r.ebud ≤ 2800

/-- Admits a grid, with its first team or, for COOP, all of them placed; none where it does not fit. -/
def State.admitGrid (s : State) (gr : Nat) : Option State :=
  match s.grid? gr with
  | none => none
  | some g =>
    if g.st ≠ .admittable || !s.energyFits g then none
    else
      let s := s.modGrid gr fun g => { g with st := .placing }
      if g.r.coop then (if s.savedFirst g.r.cls g.effPrio then none else s.placeAll gr g.r.teams)
      else (s.placeNext gr).map fun _ => s

def execEffectivePriorityAging (s : State) : Out :=
  match s.grid? s.sel.a with
  | some g =>
    if g.st = .admittable && g.r.cls ≠ 2 && decide (g.since + 1000000 * (g.aged + 1) ≤ s.rtime) then
      .next (s.modGrid s.sel.a fun g => { g with aged := g.aged + 1 })
    else .next s
  | none => .next s

def execTeamPlacement (s : State) : Out :=
  match s.grid? s.sel.a with
  | some g =>
    if g.st = .placing && !s.savedFirst g.r.cls g.effPrio then .next ((s.placeNext s.sel.a).getD s) else .next s
  | none => .next s

/-- Rectangles of a die pair that could hold a cluster if their cores were empty. -/
def State.couldHold (s : State) (gr : Nat) (g : Grid) : List (List Nat) :=
  let r := g.r
  let k := min r.clusterSize (r.teams - g.nextIdx)
  let e := s.emptied
  let ok := e.allowedCores g.ctx r.cls r.mtx r.paired gr
  (rectangles r.cols r.rows).filter fun rc =>
    (rc.take k).all fun c => ok.contains c && (e.roomOn c r.demand).isSome && !(s.reserved.any fun v => v.1 = pairOf c)

/-- Whether the grid finds room for its next cluster now, or, if it is COOP, for all it lacks. -/
def State.findsRoom (s : State) (gr : Nat) (g : Grid) : Bool :=
  if g.r.coop then (s.placeAll gr g.r.teams).isSome else (s.placeNext gr).isSome

/-- CLUSTER_RESERVATION (R278, R279): of a paired grid, both cores of a team. -/
def execClusterReservation (s : State) : Out :=
  let gr := s.sel.a
  let waits (g : Grid) : Bool := (g.st = .admittable || g.st = .placing) && (g.r.clusterSize ≠ 1 || g.r.coop)
  match s.grid? gr with
  | none => .next s
  | some g =>
    let older := s.grids.any fun e => e.1 ≠ gr && waits e.2 && decide (e.2.since < g.since) &&
      !s.reserved.any fun v => v.2.1 = e.1
    let mine := (s.reserved.filter fun v => v.2.1 = gr).length
    let lacks := ceilDiv (g.r.teams - g.nextIdx) g.r.clusterSize
    if !waits g || s.findsRoom gr g || older || decide (s.rtime < g.since + 100000) || decide ((if g.r.coop then lacks else 1) ≤ mine) then .next s
    else
      let load (rc : List Nat) : Nat := rc.foldl (fun n c => n + s.residentThreads c) 0
      match s.couldHold gr g with
      | [] => .next s
      | rc :: rest =>
        let best := rest.foldl (fun b x => if load x < load b then x else b) rc
        let both := if g.r.paired then best.flatMap fun c => [c, c + 1] else best
        .next { s with reserved := Map.put (pairOf (best.headD 0)) (gr, both) s.reserved }

def execGridEnd (s : State) : Out :=
  match s.grid? s.sel.a with
  | some g => if g.st = .running && g.left = 0 then .next (s.endGrid s.sel.a 0) else .next s
  | none => .next s

/-! ## Energy (R287) -/

/-- ENERGY_WINDOW_END: accounts grow and duties are set. -/
def execEnergyWindowEnd (s : State) : Out :=
  if s.rtime < s.energyEnd then .next s
  else
    let s := s.ctxs.foldl (fun s c =>
      let (n, s) := s.freeNum
      s.modCtx c.1 fun c => { c with energy := (c.energy + Config.energyUsed n) % 2 ^ 64 }) s
    let s := s.grids.foldl (fun s e =>
      if e.2.st = .running || e.2.st = .placing then
        let (n, s) := s.freeNum
        let used := Config.energyUsed n
        s.modGrid e.1 fun g =>
          if g.r.cls = 2 || g.r.ebud = 0 then { g with used := used }
          else if 1000 * g.r.ebud < used then
            { g with used := used, duty := max 16 (g.duty * (1000 * g.r.ebud) / used) }
          else { g with used := used, duty := min 256 (g.duty + 16) }
      else s) s
    .next { s with energyEnd := s.energyEnd + 1000000 }

end Sys2Proof.Machine
end

