-- ==== Sys2Proof/Machine/Bins.lean ====
section
/-!
DEFINITION. Sys2Proof/Machine/Bins.lean: cairn bins (R10, R140 to R142, R271, R281 to R284, R330): records, spill areas,
node teams, and the lending of records; and admission (R277), which node teams go ahead of.
-/

namespace Sys2Proof.Machine

/-! ## Node tables and spill areas (R281, R330) -/

/-- The declared node of a context. -/
def State.node? (s : State) (ctx node : Nat) : Option Node :=
  (s.ctx? ctx).bind fun c => c.node.bind fun t => t.nodes[node]?

/-- The installed node table of a context. -/
def State.table? (s : State) (ctx : Nat) : Option NodeTable := (s.ctx? ctx).bind Ctx.node

/-- The header of a spill slot. -/
structure Spilled where
  slot : Nat
  acc : Nat
  node : Nat
  core : Nat
  wds : Nat
  deriving DecidableEq, Repr

def spillHdr (t : NodeTable) (i : Nat) : Nat := t.spill + 64 * t.spilln + 8 * i

/-- The acceptance number that 32 bits of it stand for on a core. -/
def Core.fullAcc (c : Core) (acc : Nat) : Nat := c.accCtr - (c.accCtr + 2 ^ 32 - acc % 2 ^ 32) % 2 ^ 32

/-- The header that a spill slot holds. -/
def State.spillHeader (s : State) (t : NodeTable) (i : Nat) : Nat × Spilled :=
  let h := ofBytes (s.readPhys (bankPhys (spillHdr t i)) 8)
  let core := h / 2 ^ 42 % 256
  (h / 2 ^ 54 % 4, ⟨i, (s.core core).fullAcc (h % 2 ^ 32), h / 2 ^ 32 % 1024, core, h / 2 ^ 50 % 16 + 1⟩)

/-- Slots whose header memory lists. -/
def State.spillSlots (s : State) (t : NodeTable) : List Nat :=
  let lo := bankPhys (spillHdr t 0)
  ((s.mem.filter fun c => decide (lo ≤ c.1) && decide (c.1 < lo + 8 * t.spilln)).map fun c => (c.1 - lo) / 8).eraseDups

/-- The records held in a context's spill area. -/
def State.spilled (s : State) (ctx : Nat) : List Spilled :=
  match s.table? ctx with
  | none => []
  | some t => (s.spillSlots t).filterMap fun i =>
    let (st, h) := s.spillHeader t i
    if st = 1 then some h else none

/-- The lowest free slot of a spill area. -/
def State.freeSpill (s : State) (t : NodeTable) : Option Nat :=
  let used := (s.spillSlots t).filter fun i => let st := (s.spillHeader t i).1; st = 1 || st = 2
  (List.range (min t.spilln (used.length + 1))).find? fun i => !used.contains i

/-- Whether the clocks run of the banks in which a spill slot and its header lie (R403). -/
def State.spillClocked (s : State) (t : NodeTable) (i : Nat) : Bool :=
  s.banksClocked (t.spill + 64 * i) 64 && s.banksClocked (spillHdr t i) 8

/-- Writes a record into a spill slot: the header is claimed, then come the data words, then the header again (R326, R330). -/
def State.spill (s : State) (core ctx node acc : Nat) (words : List Word) : Option State :=
  match s.table? ctx with
  | none => none
  | some t =>
    match s.freeSpill t with
    | none => none
    | some i =>
      if !s.spillClocked t i then none
      else
      let s := ((s.occupyAll (spillHdr t i) 8).occupyAll (t.spill + 64 * i) (4 * words.length)).occupyAll (spillHdr t i) 8
      let hdr := acc % 2 ^ 32 + node * 2 ^ 32 + core * 2 ^ 42 + (words.length - 1) * 2 ^ 50 + 2 ^ 54
      match s.spaceWrite .bank 0 ctx core (t.spill + 64 * i) (bytesOfWords words) with
      | .error _ => none
      | .ok s =>
        match s.spaceWrite .bank 0 ctx core (spillHdr t i) (toBytes 8 hdr) with
        | .error _ => none
        | .ok s => some s

/-- Reads a spilled record's words and frees its slot. -/
def State.unspill (s : State) (ctx : Nat) (h : Spilled) : Option (State × List Word) :=
  match s.table? ctx with
  | none => none
  | some t =>
    if !s.spillClocked t h.slot then none
    else
    let s := (s.occupyAll (t.spill + 64 * h.slot) (4 * h.wds)).occupyAll (spillHdr t h.slot) 8
    match s.spaceRead .bank 0 ctx h.core (t.spill + 64 * h.slot) (4 * h.wds) {} with
    | .error _ => none
    | .ok (s, bs) =>
      match s.spaceWrite .bank 0 ctx h.core (spillHdr t h.slot) (toBytes 8 0) with
      | .error _ => none
      | .ok s => some (s, wordsOf h.wds (ofBytes bs))

/-! ## Records and acceptance (R282) -/

/-- Copies that a core holds pending on loan. -/
def State.pendingAt (s : State) (core : Nat) : List Lend :=
  (s.lends.filter fun e => e.2.thief = core && e.2.st = .pending).map Prod.snd

/-- Whether the bin has a record slot, and a node slot for the node. -/
def State.binRoom (s : State) (core ctx node : Nat) : Bool :=
  let all := (s.core core).bin ++ (s.pendingAt core).map Lend.r
  let nodes := (all.map fun r => (r.ctx, r.node)).eraseDups
  decide (all.length < 4096) && (nodes.contains (ctx, node) || decide (nodes.length < 64))

/-- The records of a node that count toward a launch on a core, by acceptance: acceptance number, time, and the spill
slot of those that are spilled. -/
def State.counted (s : State) (core ctx node : Nat) : List (Nat × Nat × Option Spilled) :=
  let inBin := ((s.core core).bin.filter fun r => r.ctx = ctx && r.node = node && r.lend = .unlent).map fun r =>
    (r.acc, r.born, none)
  let out := ((s.spilled ctx).filter fun h => h.core = core && h.node = node).map fun h =>
    (h.acc, Map.get (s.core core).spillBorn h.acc 0, some h)
  let put (xs : List (Nat × Nat × Option Spilled)) (x : Nat × Nat × Option Spilled) :=
    xs.filter (fun y => decide (y.1 < x.1)) ++ x :: xs.filter (fun y => decide (x.1 < y.1))
  (inBin ++ out).foldl put []

/-- Whether the node's oldest record has waited for its timer (R10). -/
def State.timerDone (s : State) (core ctx node : Nat) (n : Node) : Bool :=
  match s.counted core ctx node with
  | [] => false
  | (_, born, _) :: _ => decide (born + n.ntm ≤ s.ctxNow ctx)

/-- Takes one counted record out of the bin or the spill area. -/
def State.takeRec (s : State) (core ctx : Nat) (x : Nat × Nat × Option Spilled) : State × Option (List Word) :=
  match x.2.2 with
  | none =>
    let r := (s.core core).bin.find? fun r => r.acc = x.1
    (s.modCore core fun c => { c with bin := c.bin.filter fun r => decide (r.acc ≠ x.1) }, r.map Rec.words)
  | some h =>
    match s.unspill ctx h with
    | some (s, ws) => (s.modCore core fun c => { c with spillBorn := Map.del x.1 c.spillBorn }, some ws)
    | none => (s, none)

/-- Launches a node team of one group with the given records, where the core has room (R282, R271). -/
def State.launchNode (s : State) (core ctx : Nat) (n : Node) (t : NodeTable)
    (xs : List (Nat × Nat × Option Spilled)) : State :=
  let d : Demand := ⟨1, n.ntt, false, n.nscr, n.nmx, false⟩
  if !(s.allowedCores ctx 1 n.nmx false 0).contains core then s
  else
    match s.roomOn core d with
    | none => s
    | some (slices, base) =>
      let (s, recs) := xs.foldl (fun (r : State × List (List Word)) x =>
        let (s, w) := r.1.takeRec core ctx x
        (s, match w with
          | some ws => r.2 ++ [ws]
          | none => r.2)) (s, [])
      let (cl, s) := s.addCluster 1 1 [core] n.ntt
      let (tid, s) := s.fresh
      let s := s.freshScratch core base n.nscr ctx
      let (s, tiles) := if n.nmx then s.freshTiles core ctx else (s, [])
      let s := Team.addTo s tid
        { ctx := ctx, core := core, cluster := cl, nthr := n.ntt, w := n.ntt, scrBase := base, scrLen := n.nscr, mtx := n.nmx
          prio := n.npr, cls := 1, handler := t.handler, cbase := t.cbase, age := s.nextId, tiles := tiles }
      let (gid, s) := s.fresh
      let s := s.addGroup gid
        { ctx := ctx, team := tid, core := core, slice := slices.headD 0, w := n.ntt, cbase := t.cbase, pc := n.ent, idx := 0
          cls := 1, prio := n.npr, kind := .plain, live := fun l => decide (l < recs.length), uni := []
          vec := fun l => recs.getD l [], tthread := fun l => BitVec.ofNat 32 l, names := List.range n.nwd }
      s.acquire core .dev

/-- Launches the group that a node's records call for, if they do: the coalescing count, or the timer (R10, R282). -/
def State.binLaunch (s : State) (core ctx node : Nat) : State :=
  match s.node? ctx node, s.table? ctx with
  | some n, some t =>
    let xs := s.counted core ctx node
    if (s.die (pairOf core)).halted || s.dieServes (pairOf core) = false then s
    else if (xs.take n.nco).any fun x => x.2.2.any fun h => !s.spillClocked t h.slot then s
    else if decide (n.nco ≤ xs.length) || s.timerDone core ctx node n then s.launchNode core ctx n t (xs.take n.nco)
    else s
  | _, _ => s

/-- Accepts a record into a bin or its spill area, and launches; none where both are full. -/
def State.binAccept (s : State) (core ctx node : Nat) (words : List Word) : Option State :=
  let acc := (s.core core).accCtr
  let born := s.ctxNow ctx
  let s1 := s.modCore core fun c => { c with accCtr := c.accCtr + 1 }
  let s2 := if s.binRoom core ctx node then
      some (s1.modCore core fun c => { c with bin := c.bin ++ [⟨ctx, node, acc, born, words, .unlent, 0⟩] })
    else
      (s1.spill core ctx node acc words).map fun s => s.modCore core fun c => { c with spillBorn := Map.put acc born c.spillBorn }
  s2.map fun s => s.binLaunch core ctx node

/-! ## SPAWN (R140, R141) -/

/-- The check of a `SPAWN` or an `RSPAWN` against the node table. -/
def State.nodeBad (s : State) (ctx node nw : Nat) : Bool :=
  match s.node? ctx node with
  | some n => n.nwd ≠ nw
  | none => true

/-- A record for another core's bin sets out. -/
def State.startSpawn (s : State) (id : Nat) : State :=
  match s.op? id with
  | none => s
  | some o =>
    match o.kind with
    | .spawn core _ _ =>
      let ok := match s.ctx? o.ctx with
        | some c => decide (core < 160) && c.cfg.cores.contains core
        | none => false
      if ok then s else s.fail id .remoteError
    | _ => s

def execSpawn (p : Pre) (x : SpX) (a b : Opnd) (s : State) : Out :=
  let n := x.nw.toNat + 1
  if x.rem then
    issue (.spawn p x a b) p State.startSpawn false true (fun s gid l =>
      if s.nodeBad ((s.group? gid).elim 0 Group.ctx) x.node.toNat n then .error (.trap .illegalOperand 0)
      else .ok { kind := .spawn (s.src32 gid l b).toNat x.node.toNat (s.srcRun gid l a n), scope := .dev }) s
  else
    inSlot (.spawn p x a b) p s (afterStores fun s c g on => runLanes (fun s l =>
      if s.nodeBad g.ctx x.node.toNat n then (s, .trap .illegalOperand 0)
      else
        match s.binAccept g.core g.ctx x.node.toNat (s.srcRun c.gid l a n) with
        | some s => (s, .next)
        | none => (s, .wait (.stall .spill))) s on)

/-- A record's acceptance at its target, once what its thread stored before has been performed (R99). The escape's address is the
target core's number (R80; DESIGN CHOICE, log entry 66). -/
def State.acceptSpawn (s : State) (id : Nat) : State :=
  match s.op? id with
  | none => s
  | some o =>
    match o.kind with
    | .spawn core node words =>
      if o.st ≠ .waiting || o.held || !s.copyReady id o then s
      else
        match s.binAccept core o.ctx node words with
        | none => s
        | some s => (s.escape id ⟨.spawn, words.length, core⟩).settleFlags id .ok
    | _ => s

/-! ## Timers, deferred launches, refilling (R10, R282) -/

def execBinTimerExpiry (s : State) : Out :=
  let x := s.sel
  match s.node? x.b x.c with
  | some n => if s.timerDone x.a x.b x.c n then .next (s.binLaunch x.a x.b x.c) else .next s
  | none => .next s

def execBinDeferredLaunch (s : State) : Out := .next (s.binLaunch s.sel.a s.sel.b s.sel.c)

/-- The oldest spilled record of a core that its bin has room for. -/
def State.refillable (s : State) (core ctx : Nat) : Option Spilled :=
  (((s.spilled ctx).filter fun h => h.core = core && s.binRoom core ctx h.node).foldl (fun (b : Option Spilled) h =>
    match b with
    | some x => if h.acc < x.acc then some h else b
    | none => some h) none)

def execSpillRefill (s : State) : Out :=
  let core := s.sel.a
  let ctx := s.sel.b
  match s.refillable core ctx with
  | none => .next s
  | some h =>
    match s.unspill ctx h with
    | none => .next s
    | some (s, ws) => .next (s.modCore core fun c =>
      { c with bin := c.bin ++ [⟨ctx, h.node, h.acc, Map.get c.spillBorn h.acc 0, ws, .unlent, 0⟩]
               spillBorn := Map.del h.acc c.spillBorn })

/-! ## Stealing (R142, R283) -/

/-- Unlent records of stealable nodes of a context on a core. -/
def State.stealable (s : State) (core ctx : Nat) : List Rec :=
  (s.core core).bin.filter fun r => r.ctx = ctx && r.lend = .unlent && (s.node? ctx r.node).any Node.nst

/-- The core of the caller's die pair with the most unlent records in stealable nodes, the lowest number first. -/
def State.pickVictim (s : State) (core ctx : Nat) : Nat :=
  ((List.range 40).foldl (fun (b : Nat × Nat) i =>
    let c := 40 * pairOf core + i
    let n := (s.stealable c ctx).length
    if b.2 < n then (c, n) else b) (core, 0)).1

def execSteal (p : Pre) (d a : Opnd) (s : State) : Out :=
  inSlot (.steal p d a) p s (perLane (.steal p d a) fun s gid l =>
    let v := s.src32 gid l a
    match s.group? gid with
    | none => (s, .next)
    | some g =>
      let victim := if v = 0xFFFFFFFF then s.pickVictim g.core g.ctx else v.toNat
      if victim = g.core || 160 ≤ victim then (s.dst32 gid l d 0, .next) else (s, .wait (.steal d victim s.rtime)))

/-- The path of a group that waits for a steal's answer. -/
def Group.stealing (g : Group) : Option (List Nat × Opnd × Nat × Nat) :=
  match g.threads.findSome? fun t => match t.2.wait with
    | some (.steal d v at_) => some (t.2.pc, d, v, at_)
    | _ => none with
  | some (pc, d, v, at_) =>
    some ((g.threads.filter fun t => t.2.pc = pc && t.2.wait = some (.steal d v at_)).map Prod.fst, d, v, at_)
  | none => none

/-- A steal is answered: `D` is written and the path goes on. -/
def State.stealAnswer (s : State) (gid : Nat) (lanes : List Nat) (d : Opnd) (w : Word) : State :=
  lanes.foldl (fun s l => s.wake gid l) (s.dst32 gid (lanes.headD 0) d w)

/-- One record is lent: its generation rises and its copy sets out. -/
def State.lendRec (s : State) (victim thief : Nat) (r : Rec) : State :=
  let r' := { r with gen := r.gen + 1, lend := .lent thief (s.ctxNow r.ctx) }
  let (id, s) := s.fresh
  let s := s.modCore victim fun c => { c with bin := c.bin.map fun x => if x.acc = r.acc then r' else x }
  { s with lends := Map.put id { victim := victim, thief := thief, acc := r.acc, gen := r.gen + 1, r := r } s.lends }

/-- STEAL_REQUEST: the victim lends up to one coalescing count of its oldest unlent records of one node. -/
def execStealRequest (s : State) : Out :=
  let gid := s.sel.a
  match s.group? gid with
  | none => .next s
  | some g =>
    match g.stealing with
    | none => .next s
    | some (lanes, d, victim, _) =>
      match s.stealable victim g.ctx with
      | [] => .next (s.stealAnswer gid lanes d 0)
      | r :: rs =>
        let old := rs.foldl (fun b x => if x.acc < b.acc then x else b) r
        let n := (s.node? g.ctx old.node).elim 0 Node.nco
        let mine := (s.counted victim g.ctx old.node).filterMap fun x =>
          (s.core victim).bin.find? fun r => r.acc = x.1 && x.2.2.isNone
        let recs := mine.take n
        let s := recs.foldl (fun s r => s.lendRec victim g.core r) s
        .next (s.stealAnswer gid lanes d (BitVec.ofNat 32 (old.node * 2 ^ 16 + recs.length)))

def execStealAnswerTimeout (s : State) : Out :=
  match (s.group? s.sel.a).bind Group.stealing with
  | some (lanes, d, _, at_) => if at_ + 2000 ≤ s.rtime then .next (s.stealAnswer s.sel.a lanes d 0) else .next s
  | none => .next s

def State.modLend (s : State) (k : Nat) (f : Lend → Lend) : State := { s with lends := Map.mod k f s.lends }

/-- A copy arrives at the thief: Pending, and acknowledged at once. Without a slot it is not accepted. -/
def execStealCopyArrival (s : State) : Out :=
  match Map.get? s.lends s.sel.a with
  | none => .next s
  | some l =>
    if l.st ≠ .flying then .next s
    else if s.binRoom l.thief l.r.ctx l.r.node then
      .next (s.modLend s.sel.a fun l => { l with st := .pending, ackSent := true })
    else .next (s.modLend s.sel.a fun l => { l with st := .none })

/-- Whether the victim still has the record lent with the lend's generation. -/
def State.lentNow (s : State) (l : Lend) : Bool :=
  (s.core l.victim).bin.any fun r => r.acc = l.acc && r.gen = l.gen && (match r.lend with
    | .lent _ _ => true
    | .unlent => false)

/-- The victim, or the guide core that took its lend table, receives an acknowledgement: Removed and confirmed, or
refused. -/
def execStealAck (s : State) : Out :=
  match Map.get? s.lends s.sel.a with
  | none => .next s
  | some l =>
    if !l.ackSent || l.confirm.isSome then .next s
    else if l.guided then .next (s.modLend s.sel.a fun l => { l with confirm := some true })
    else if s.lentNow l then
      let s' := s.modCore l.victim fun c => { c with bin := c.bin.filter fun r => decide (r.acc ≠ l.acc) }
      .next (s'.modLend s.sel.a fun l => { l with confirm := some true })
    else .next (s.modLend s.sel.a fun l => { l with confirm := some false })

/-- The thief receives the confirmation: Held, from now on. -/
def execStealConfirm (s : State) : Out :=
  match Map.get? s.lends s.sel.a with
  | none => .next s
  | some l =>
    if l.confirm ≠ some true then .next s
    else
      let s := { s with lends := Map.del s.sel.a s.lends }
      if l.st ≠ .pending then .next s
      else
        let acc := (s.core l.thief).accCtr
        let born := s.ctxNow l.r.ctx
        let s := s.modCore l.thief fun c =>
          { c with accCtr := c.accCtr + 1, bin := c.bin ++ [⟨l.r.ctx, l.r.node, acc, born, l.r.words, .unlent, 0⟩] }
        .next (s.binLaunch l.thief l.r.ctx l.r.node)

/-- The thief receives a refusal: the copy is discarded. -/
def execStealRefusal (s : State) : Out :=
  match Map.get? s.lends s.sel.a with
  | some l => if l.confirm = some false then .next { s with lends := Map.del s.sel.a s.lends } else .next s
  | none => .next s

/-- A lend without acknowledgement for 20,000 ticks: the record is re-armed. -/
def execLendTimeout (s : State) : Out :=
  match Map.get? s.lends s.sel.a with
  | none => .next s
  | some l =>
    match (s.core l.victim).bin.find? fun r => r.acc = l.acc && r.gen = l.gen with
    | none => .next s
    | some r =>
      match r.lend with
      | .unlent => .next s
      | .lent _ at_ =>
        if s.ctxNow r.ctx < at_ + 20000 then .next s
        else
          let s := s.modCore l.victim fun c =>
            { c with bin := c.bin.map fun x => if x.acc = l.acc then { x with gen := x.gen + 1, lend := .unlent } else x }
          let s := if l.st = .none && !l.ackSent then { s with lends := Map.del s.sel.a s.lends } else s
          .next (s.binLaunch l.victim r.ctx r.node)

/-- A thief's core is reset: its pending copies are lost, and copies on their way to it are not accepted. -/
def execThiefCoreReset (s : State) : Out :=
  .next { s with lends := Map.modAll (fun _ l => if l.thief = s.sel.a then { l with st := .none } else l) s.lends }

/-- A victim's core is reset: a guide core takes the lend table, and unlent records move to the spill area as far as it
has room. -/
def execVictimCoreReset (s : State) : Out :=
  let core := s.sel.a
  let s := { s with lends := Map.modAll (fun _ l => if l.victim = core && s.lentNow l then { l with guided := true } else l) s.lends }
  let s := s.modCore core fun c => { c with bin := c.bin.filter fun r => r.lend = .unlent }
  .next ((s.core core).bin.foldl (fun s r =>
    match s.spill core r.ctx r.node r.acc r.words with
    | some s => s.modCore core fun c =>
      { c with bin := c.bin.filter fun x => decide (x.acc ≠ r.acc), spillBorn := Map.put r.acc r.born c.spillBorn }
    | none => s) s)

/-! ## Admission behind node teams (R277, R282) -/

/-- Whether a node team of a priority could be launched now on one of the cores. -/
def State.nodeFirst (s : State) (prio : Nat) (cores : List Nat) : Bool :=
  s.cores.any fun c => cores.contains c.1 &&
    (((c.2.bin.map fun r => (r.ctx, r.node)) ++
      s.ctxs.flatMap fun x => ((s.spilled x.1).filter fun h => h.core = c.1).map fun h => (x.1, h.node)).eraseDups.any fun k =>
        (s.node? k.1 k.2).any fun n => n.npr = prio &&
          (decide (n.nco ≤ (s.counted c.1 k.1 k.2).length) || s.timerDone c.1 k.1 k.2 n) &&
            (s.allowedCores k.1 1 n.nmx false 0).contains c.1 &&
            (s.roomOn c.1 ⟨1, n.ntt, false, n.nscr, n.nmx, false⟩).isSome)

/-- ADMISSION: the grid is admitted if it can be and no grid before it can, nor, for a normal one, a node team of equal
priority on its cores. -/
def execAdmission (s : State) : Out :=
  match s.grid? s.sel.a, s.admitGrid s.sel.a with
  | some g, some s' =>
    if s.grids.any fun e => e.1 ≠ s.sel.a && s.before e (s.sel.a, g) && (s.admitGrid e.1).isSome then .next s
    else if g.r.cls = 1 && s.nodeFirst g.effPrio (s.allowedCores g.ctx 1 g.r.mtx g.r.paired s.sel.a) then .next s
    else .next s'
  | _, _ => .next s

end Sys2Proof.Machine
end

