-- ==== Sys2Proof/Machine/Cont.lean ====
section
/-!
DEFINITION. Sys2Proof/Machine/Cont.lean: continuation objects (R146 to R150, R288 to R299): what a suspension writes, what
a claim checks and restores, copies, team saves, pre-emption and checkpoints.
-/

namespace Sys2Proof.Machine

/-! ## Layout (R288 to R290) -/

/-- A little-endian field of a block of bytes. -/
def fld (bs : List Byte) (o n : Nat) : Nat := ofBytes ((bs.drop o).take n)

/-- One byte of CRC-32C, reflected. -/
def crcByte (c : Word) (b : Byte) : Word :=
  (List.range 8).foldl (fun (c : Word) _ => if c.getLsbD 0 then (c >>> 1) ^^^ 0x82F63B78 else c >>> 1) (c ^^^ b.zeroExtend 32)

def crc32c (bs : List Byte) : Word := ~~~(bs.foldl crcByte 0xFFFFFFFF)

/-- Header bytes that the CRC takes as zero: the state, and the status and cause halves. -/
def crcSkips (i : Nat) : Bool := (8 ≤ i && i < 12) || (0x40 ≤ i && i < 0xC0 && 4 ≤ i % 8)

/-- The CRC of an object's header and body (R290). -/
def objCrc (obj : List Byte) : Nat :=
  (crc32c (((List.range 0x1F8).zip obj).map (fun e => if crcSkips e.1 then 0 else e.2) ++ obj.drop 0x200)).toNat

def liveV (live : Word) : List Nat := (List.range 16).filter fun i => live.getLsbD i
def liveS (live : Word) : List Nat := (List.range 12).filter fun i => live.getLsbD (16 + i)
def liveQ (live : Word) (shadow : Bool) : List Nat :=
  if shadow then (List.range 4).filter fun i => live.getLsbD (28 + i) else []

/-- Bytes of one lane's block (R289). -/
def laneSize (live : Word) (shadow : Bool) : Nat := 16 + 16 * (liveV live).length + 48 * (liveQ live shadow).length

def bodySize (w : Nat) (live : Word) (shadow : Bool) : Nat := 16 * (liveS live).length + w * laneSize live shadow

def wCode (w : Nat) : Nat := if w = 16 then 0 else if w = 32 then 1 else 2

def contMagic : Nat := 0x434F4E54
def stReady : Nat := 1
def stClaimed : Nat := 2
def stConsumed : Nat := 3
def stDiscarded : Nat := 4
def stFaulted : Nat := 5

/-- An entry of the detached table: the lane, the operation and its number there. -/
structure DetEntry where
  lane : Nat
  id : Nat
  seq : Word
  ticket : Word
  deriving DecidableEq, Repr

def DetEntry.bytes (e : DetEntry) : List Byte := toBytes 4 (e.ticket.toNat % 2 ^ 24 + e.lane * 2 ^ 24) ++ toBytes 4 0

def isCompute (k : GroupKind) : Bool :=
  match k with
  | .compute _ => true
  | .plain | .shadow _ => false

/-- The PC saved for a thread: after the `SUSPEND`'s clause; where it stands, for one held at a safe point or parked; the
clause's header, for a handler's thread inside a clause (DEDUCED, log entry 19). -/
def Thread.savedPc (t : Thread) : Nat :=
  match t.wait, t.clause with
  | some (.suspend (some _) _ _), some c => c.after
  | some (.withPath _), some c => c.after
  | _, some c => if t.hnd.isSome then c.hdr else t.pc
  | _, none => t.pc

/-- One lane's block (R289). -/
def State.laneBytes (s : State) (gid : Nat) (g : Group) (live : Word) (l : Nat) : List Byte :=
  let t := g.thread l
  let sh := isCompute g.kind
  let out := t.phase = .exited
  let st := if out then 1 else if t.parked then 2 else 0
  let w32 (n : Nat) : List Byte := toBytes 4 n
  let vs := (liveV live).flatMap fun i => (List.range 4).flatMap fun k =>
    w32 (if out then 0 else (Map.get t.v (4 * i + k) 0).toNat)
  let qs := (liveQ live sh).flatMap fun i =>
    let q := if out then [] else Map.get t.q i []
    w32 q.length ++ toBytes 12 0 ++ (List.range 8).flatMap fun k => w32 (q.getD k 0).toNat
  w32 t.savedPc ++ w32 t.opc.toNat ++ w32 (s.hz gid l).toNat ++ w32 st ++ vs ++ qs

/-- The bytes of a suspended group's object, with state 0 (R288, R289, R291). `keep` is what memory held of `OFL` [1:0], and
`grant` of the grant id; the registers in `zero` are saved as 0. -/
def State.objBytes (s : State) (gid : Nat) (g : Group) (live : Word) (obj keep grant : Nat) (zero : List Nat)
    (dets : List DetEntry) : List Byte :=
  let tm := s.team? g.team
  let sh := isCompute g.kind
  let b (x : Bool) (k : Nat) : Nat := if x then 2 ^ k else 0
  let ofl := keep % 4 + b (g.cls == 2) 2 + b (tm.any Team.paired) 3 + wCode g.w * 16 + b (!dets.isEmpty) 6 + b sh 7
    + b (tm.any Team.mtx) 8
  let pad (n : Nat) (bs : List Byte) : List Byte := bs ++ List.replicate (n - bs.length) 0
  let uni := (liveS live).flatMap fun i => (List.range 4).flatMap fun k =>
    toBytes 4 (if zero.contains (4 * i + k) then 0 else (Map.get g.s (4 * i + k) 0).toNat)
  let body := uni ++ (List.range g.w).flatMap fun l => s.laneBytes gid g live l
  let hdr := toBytes 4 contMagic ++ toBytes 2 0x0100 ++ toBytes 2 0 ++ toBytes 4 0 ++ toBytes 4 ofl ++ toBytes 8 obj
    ++ toBytes 8 (g.ctx + grant % 2 ^ 16 * 2 ^ 16 + g.w * 2 ^ 32) ++ toBytes 4 live.toNat ++ toBytes 4 dets.length
    ++ toBytes 4 body.length ++ toBytes 4 0 ++ toBytes 8 g.cbase ++ toBytes 8 s.rtime
    ++ pad 128 (dets.flatMap DetEntry.bytes)
    ++ ((List.range 12).flatMap fun k => toBytes 8 ((Map.get g.p k 0).toNat % 2 ^ g.w))
    ++ ((List.range 12).flatMap fun k => toBytes 1 (min 255 (g.flag k))) ++ toBytes 4 0
    ++ toBytes 4 g.flags.toNat ++ toBytes 4 g.trapen.toNat ++ toBytes 4 g.gmMode.toNat ++ toBytes 4 g.gmShape.toNat
    ++ pad 64 (dets.flatMap fun e => toBytes 4 e.seq.toNat) ++ toBytes 0x78 0
  hdr ++ toBytes 4 (objCrc (hdr ++ toBytes 8 0 ++ body)) ++ toBytes 4 0 ++ body

/-! ## Suspension (R146, R291, R295) -/

/-- Operations that a suspension detaches. -/
def Op.detaches (o : Op) : Bool :=
  match o.kind with
  | .async _ _ | .coll _ _ | .mcst _ => true
  | _ => false

/-- Operations that a suspension leaves standing. -/
def Op.stands (o : Op) : Bool :=
  match o.kind with
  | .sign _ _ => true
  | _ => false

def Op.ticketOf (o : Op) : Word :=
  match o.kind with
  | .async a _ => a.ticket
  | _ => 0

/-- What a suspension of the group would detach, in the order of the table: one entry for each operation, at the lowest lane of
one that its path executed once (R51, R295). -/
def State.detEntries (s : State) (gid : Nat) (g : Group) : List DetEntry :=
  g.threads.flatMap fun t => ((s.unsettled gid t.1).filter fun e => e.2.detaches && e.2.lanes.all fun l => t.1 ≤ l.1).map fun e =>
    ⟨t.1, e.1, (e.2.seq? t.1).getD 0, e.2.ticketOf⟩

/-- Whether a thread waits at a `SUSPEND` (`user`), or is held at a safe point, itself or with its path. -/
def Group.atSuspend (g : Group) (user : Bool) (t : Thread) : Bool :=
  let here (w : Option Wait) : Bool := match w with
    | some (.suspend o _ _) => o.isSome == user
    | _ => false
  here t.wait || (match t.wait with
    | some (.withPath l) => here (g.thread l).wait
    | _ => false)

/-- Steps 1 and 2 of R146 are over: every thread has arrived, no failure is pending, and nothing is unsettled that is
not detached, left standing or parked (R320); at a checkpoint nothing at all is unsettled (R298). On the scheduler's behalf no thread may be in
a handler either (R84). -/
def State.suspReady (s : State) (gid : Nat) (g : Group) (user : Bool) : Bool :=
  let alive := g.threads.filter fun t => t.2.phase ≠ .exited
  let count := alive.filter fun t => !t.2.parked && t.2.hnd.isNone
  g.started && !count.isEmpty && count.all (fun t => g.atSuspend user t.2)
    && (user || alive.all fun t => t.2.hnd.isNone)
    && alive.all (fun t => (s.failure? gid t.1).isNone && t.2.detFail.isEmpty
      && (s.unsettled gid t.1).all fun e =>
        g.susp ≠ .checkpoint && (e.2.stands || e.2.detaches || decide (e.2.st = .parked)))
    && decide ((s.detEntries gid g).length ≤ 16)

/-- Writes bytes line by line; the lines before one that fails stay written (DEDUCED, log entry 50). -/
def State.writeSome (s : State) (ctx va : Nat) (bs : List Byte) (sys : Bool) (die : Nat) : State × Option XErr :=
  (pieces va (bs.length + 1) bs.length).foldl (fun (r : State × Option XErr) e =>
    match r with
    | (s, some x) => (s, some x)
    | (s, none) =>
      match s.writePiece ctx e.1 ((bs.drop (e.1 - va)).take e.2) sys die with
      | .ok s => (s, none)
      | .error x => (s, some x)) (s, none)

/-- Writes an object, its state last (R146, R292): the state in which the writes leave the machine, and what stopped them. The bytes
before the one that failed stay written (DEDUCED, log entry 50). -/
def State.writeObj (s : State) (ctx core obj : Nat) (bytes : List Byte) (sys : Bool) (state : Nat) : State × Option XErr :=
  let die := pairOf core
  match s.writeSome ctx obj (bytes.take 8) sys die with
  | (s, some e) => (s, some e)
  | (s, none) =>
    match s.writeSome ctx (obj + 12) (bytes.drop 12) sys die with
    | (s, some e) => (s, some e)
    | (s, none) => s.writeSome ctx (obj + 8) (toBytes 4 state) sys die

/-- The clauses that the parked threads of a group stand in. -/
def Group.parkedClauses (g : Group) : Map Clause :=
  g.threads.filterMap fun t => if t.2.parked then t.2.clause.map fun c => (t.1, c) else none

/-- Executions that the flags of a group count: of its own operations, and of the image it was restored from (R288, R296). -/
def State.countedExs (s : State) (gid : Nat) : List Nat :=
  (((s.ops.filter fun e => e.2.gid = gid && e.2.st ≠ .parked && (e.2.seta.isSome || e.2.setb.isSome)).map fun e => e.2.ex)
    ++ (s.images.filter fun e => e.2.restored = some gid).flatMap fun e => e.2.exs).eraseDups

/-- Detaches the operations of the entries, and notes what the device keeps of the group: the executions that its flags count,
and the clauses and operations of its parked threads, which leave with it. -/
def State.detach (s : State) (gid : Nat) (g : Group) (obj : Nat) (dets : List DetEntry) : State :=
  let idx (id : Nat) : List Nat := ((List.range dets.length).zip dets).filterMap fun e => if e.2.id = id then some e.1 else none
  let s := dets.foldl (fun s e => s.modOp e.id fun o => { o with det := (idx e.id).map fun i => obj + 0x44 + 8 * i }) s
  let away (e : Nat × Op) : Bool := e.2.gid = gid && e.2.st = .parked
  let (k, s) := s.fresh
  let old := s.images.filter fun e => !(e.2.ctx = g.ctx && e.2.obj = obj && e.2.restored.isNone) && e.2.restored ≠ some gid
  let im : Image :=
    { src := gid, ctx := g.ctx, obj := obj, exs := s.countedExs gid, clauses := g.parkedClauses
      parked := s.ops.filter away }
  { s with images := Map.put k im old, ops := s.ops.filter fun e => !away e }

/-- Uniform registers that the waiting `SUSPEND`s name as `D`. -/
def Group.suspDs (g : Group) : List Nat :=
  g.threads.filterMap fun t => match t.2.wait with
    | some (.suspend (some _) (.s n) _) => some n.val
    | _ => none

/-- The path with the lowest lane decides: the object and the live word. -/
def Group.suspLeader (g : Group) : Option (Nat × Word) :=
  g.threads.findSome? fun t => match t.2.wait with
    | some (.suspend (some o) _ live) => if t.2.phase ≠ .exited && !t.2.parked then some (o, live) else none
    | _ => none

/-- The group goes on after a failed write, with the cause in `D` (R146). -/
def State.suspFails (s : State) (gid : Nat) (g : Group) (obj : Nat) (c : Cause) : State :=
  let s := match s.cwrite g.ctx g.core (obj + 8) (toBytes 4 stFaulted) with
    | .ok s => s
    | .error _ => s
  let lanes := (g.threads.filter fun t => match t.2.wait with
    | some (.suspend (some _) _ _) => true
    | _ => false)
  let s := lanes.foldl (fun s t => match t.2.wait with
    | some (.suspend _ d _) => s.dst32 gid t.1 d (BitVec.ofNat 32 c.code)
    | _ => s) s
  lanes.foldl (fun s t => s.wake gid t.1) s

def execSuspend (p : Pre) (d a : Opnd) (s : State) : Out :=
  inSlot (.suspend p d a) p s (perLane (.suspend p d a) fun s gid l =>
    let obj := (s.src64 gid l a false).toNat
    if obj % 256 ≠ 0 then (s, .trap .misaligned obj)
    else
      let s := match s.group? gid with
        | some g => g.threads.foldl (fun s t => s.drainThread gid t.1) s
        | none => s
      (s, .wait (.suspend (some obj) d (p.sp.getD 0))))

/-- SUSPEND_WRITE: steps 2 to 5 of R146. -/
def execSuspendWrite (s : State) : Out :=
  let gid := s.sel.a
  match s.group? gid with
  | none => .next s
  | some g =>
    match g.suspLeader with
    | none => .next s
    | some (obj, live) =>
      if !s.suspReady gid g true then .next s
      else
        match s.cread g.ctx g.core (obj + 0xC) 16 with
        | .error .notPresent => .next s
        | .error (.cause c) => .next (s.suspFails gid g obj c)
        | .ok (s1, old) =>
          let dets := s.detEntries gid g
          let bytes := s.objBytes gid g live obj (fld old 0 4) (fld old 14 2) g.suspDs dets
          if s.lineBusy g.ctx obj bytes.length then .next s
          else
            match s1.writeObj g.ctx g.core obj bytes (s.sysMode g.ctx) stReady with
            | (_, some .notPresent) => .next s
            | (s2, some (.cause c)) => .next (s2.suspFails gid g obj c)
            | (s2, none) => .next ((s2.detach gid g obj dets).retireGroup gid)

/-! ## Checks and claims (R147, R292, R293) -/

/-- The rights check of R293 for a claimer of a context and team; the scheduler restores SHADOW groups too (R297). -/
def State.contRights (s : State) (ctx : Nat) (tm : Option Team) (sched : Bool) (h : List Byte) : Bool :=
  let ofl := fld h 0xC 4
  let owner := fld h 0x18 2
  let grant := fld h 0x1A 2
  let granted := match s.ctx? ctx with
    | some c => c.cfg.grants.contains (grant, owner)
    | none => false
  (owner = ctx || (ofl / 2 % 2 = 1 && grant ≠ 0 && granted))
    && ((ofl / 8 % 2 == 1) == tm.any Team.paired) && ofl / 16 % 4 = wCode (tm.elim 0 Team.w)
    && (ofl / 256 % 2 = 0 || tm.any Team.mtx) && (sched || ofl / 128 % 2 = 0)

/-- Reads a whole object and checks that its bytes hold together: magic, layout, CRC. The layout comes before the version, as the size of
what the CRC covers rests on it (DESIGN CHOICE, log entry 66). -/
def State.readObj (s : State) (ctx core obj : Nat) (sys : Bool) : Except XErr (State × List Byte) :=
  let die := pairOf core
  match s.gread ctx obj 512 { r := true } sys die with
  | .error e => .error e
  | .ok (s, h) =>
    let ofl := fld h 0xC 4
    let w := 16 * 2 ^ (ofl / 16 % 4)
    let live : Word := BitVec.ofNat 32 (fld h 0x20 4)
    let size := bodySize w live (ofl / 128 % 2 == 1)
    if fld h 0 4 ≠ contMagic || ofl / 16 % 4 = 3 || fld h 0x1C 2 ≠ w || 16 < fld h 0x24 4 || fld h 0x28 4 ≠ size then
      .error (.cause .contCorrupt)
    else
      match s.gread ctx (obj + 0x200) size { r := true } sys die with
      | .error e => .error e
      | .ok (s, b) => if fld h 0x1F8 4 = objCrc (h ++ b) then .ok (s, h ++ b) else .error (.cause .contCorrupt)

/-- The checks of R147 before the claim: by a claimer of a context and team at a core, or by the scheduler. -/
def State.checkFor (s : State) (ctx core : Nat) (tm : Option Team) (sched : Bool) (obj : Nat) : Except XErr (State × List Byte) :=
  match s.readObj ctx core obj (sched || s.sysMode ctx) with
  | .error e => .error e
  | .ok (s, h) =>
    if fld h 5 1 ≠ 1 then .error (.cause .contVersion)
    else if fld h 0x10 8 ≠ obj then .error (.cause .contCopy)
    else if !s.contRights ctx tm sched h then .error (.cause .contRights)
    else .ok (s, h)

/-- The checks of R147 for a claim by a group. -/
def State.checkObj (s : State) (g : Group) (obj : Nat) : Except XErr (State × List Byte) :=
  s.checkFor g.ctx g.core (s.team? g.team) false obj

/-- Compare and swap on an object's state word: the old value. -/
def State.casState (s : State) (ctx core obj old new : Nat) (sys : Bool) : Except XErr (State × Nat) :=
  let die := pairOf core
  match s.gread ctx (obj + 8) 4 { r := true, w := true } sys die with
  | .error e => .error e
  | .ok (s, b) =>
    if ofBytes b = old then
      match s.gwrite ctx (obj + 8) (toBytes 4 new) sys die with
      | .error e => .error e
      | .ok s => .ok (s, old)
    else .ok (s, ofBytes b)

/-- Whether an entry of a readable object's table still reads pending. -/
def detPending (h : List Byte) : Bool := (List.range (min 16 (fld h 0x24 4))).any fun i => fld h (0x44 + 8 * i) 2 = 0

/-! ## The restored group (R296) -/

/-- A group as an object gives it; what no object holds comes from `base`. -/
def restoredGroup (base : Group) (h : List Byte) (clauses : Map Clause) : Group :=
  let ofl := fld h 0xC 4
  let w := 16 * 2 ^ (ofl / 16 % 4)
  let live : Word := BitVec.ofNat 32 (fld h 0x20 4)
  let sh := ofl / 128 % 2 == 1
  let word (o : Nat) : Word := BitVec.ofNat 32 (fld h o 4)
  let us := liveS live
  let vs := liveV live
  let lanes0 := 0x200 + 16 * us.length
  let uni : Map Word := ((List.range us.length).zip us).flatMap fun e =>
    (List.range 4).map fun k => (4 * e.2 + k, word (0x200 + 16 * e.1 + 4 * k))
  let thread (l : Nat) : Thread :=
    let o := lanes0 + l * laneSize live sh
    let st := fld h (o + 12) 4
    let v : Map Word := ((List.range vs.length).zip vs).flatMap fun e =>
      (List.range 4).map fun k => (4 * e.2 + k, word (o + 16 + 16 * e.1 + 4 * k))
    let qs := liveQ live sh
    let q : Map (List Word) := ((List.range qs.length).zip qs).map fun e =>
      let a := o + 16 + 16 * vs.length + 48 * e.1
      (e.2, (List.range (min 8 (fld h a 4))).map fun k => word (a + 16 + 4 * k))
    { base.thread l with
      pc := fld h o 4, opc := word (o + 4), v := if st = 1 then [] else v, t := [], q := q, wait := none, hnd := none
      phase := if st = 1 then .exited else .active
      parked := decide (st = 2), clause := if st = 2 then Map.get? clauses l else none
      teamThread := 0xFFFFFFFF }
  let names := vs.flatMap fun i => (List.range 4).map fun k => 4 * i + k
  { base with
    w := w, cbase := fld h 0x30 8, groupId := 0xFFFFFFFF, s := uni
    p := (List.range 12).map fun k => (k, BitVec.ofNat 64 (fld h (0xC0 + 8 * k) 8 % 2 ^ w))
    f := (List.range 12).map fun k => (k, fld h (0x120 + k) 1)
    flags := BitVec.ofNat 6 (fld h 0x130 4), trapen := BitVec.ofNat 6 (fld h 0x134 4)
    gmMode := BitVec.ofNat 4 (fld h 0x138 4), gmShape := word 0x13C
    threads := (List.range w).map fun l => (l, thread l), susp := .none, started := false, ready := none, skip := false
    }.remap names

/-- What the device kept of the group whose object has this self address. -/
def State.imageOf (s : State) (h : List Byte) : Option (Nat × Image) :=
  s.images.find? fun e => e.2.ctx = fld h 0x18 2 && e.2.obj = fld h 0x10 8 && e.2.restored.isNone

/-- Queues a restored group: under its own number for the scheduler, a fresh one for a claimer. -/
def State.queueGroup (s : State) (gid : Nat) (base : Group) (h : List Byte) (obj : Nat) : State :=
  let im := s.imageOf h
  let g := restoredGroup base h (im.elim base.parkedClauses fun e => e.2.clauses)
  let k := im.elim 0 Prod.fst
  { s with
    groups := Map.put gid { g with from? := some (obj, k, h.take 512), pool := 0, resv := 0 } s.groups
    images := Map.mod k (fun i => { i with restored := some gid }) s.images }

/-- Whether the restored groups of R297's scheduler wait together: a group with a slice is one of them. -/
def Group.bySched (g : Group) : Bool := g.slice < 64

/-- An object's bytes with some of them replaced. -/
def patch (bs : List Byte) (o : Nat) (new : List Byte) : List Byte := bs.take o ++ new ++ bs.drop (o + new.length)

/-- The header of a restored group's object as the claim read it, with the outcomes that memory has by now of the entries that were
pending then; none while one is still pending or cannot be read (R295, R296). -/
def State.detDone (s : State) (g : Group) : Option (List Byte) :=
  match g.from? with
  | none => none
  | some (obj, _, h) =>
    if !detPending h then some h
    else
      match s.gread g.ctx (obj + 0x40) 128 { r := true } (s.sysMode g.ctx || g.bySched) (pairOf g.core) with
      | .error _ => none
      | .ok (_, t) =>
        let now := (List.range (min 16 (fld h 0x24 4))).foldl (fun h i =>
          if fld h (0x44 + 8 * i) 2 = 0 then patch h (0x44 + 8 * i) ((t.drop (4 + 8 * i)).take 4) else h) h
        if detPending now then none else some now

/-- Failures that a lane of a restored group starts with: its failed entries, and signatures that failed meanwhile; each with whether a
time-stop covered the operation, which `ts` says of the entries. -/
def State.startFails (s : State) (src : Nat) (h : List Byte) (ts : List Nat) (l : Nat) : List (Word × Cause × Bool) :=
  let n := fld h 0x24 4
  let ent := (List.range n).filterMap fun i =>
    if fld h (0x44 + 8 * i) 2 = 2 && fld h (0x43 + 8 * i) 1 % 64 = l then
      some ((BitVec.ofNat 32 (fld h (0x140 + 4 * i) 4) : Word), Cause.ofCode (fld h (0x46 + 8 * i) 2), ts.contains i) else none
  let sg := (s.opsOf src l).filterMap fun e => match e.2.pending with
    | some c => if e.2.stands then some ((e.2.seq? l).getD 0, c, e.2.ts) else none
    | none => none
  ent ++ sg

/-- Groups of a team in group order. -/
def State.groupsOf (s : State) (tid : Nat) : Map Group := s.groups.filter fun e => e.2.team = tid

/-- Parked operations that an image kept come back with the restored group; its threads replay them (R296, R320). With the standing
signatures they keep their numbers, so that the order of issue stays; in a fork's second group they take new ones. -/
def State.reparked (s : State) (gid : Nat) (g : Group) (own : Bool) (os : Map Op) : State :=
  os.foldl (fun s e =>
    let o := { e.2 with gid := gid, core := g.core, ctx := g.ctx, sys := s.sysMode g.ctx }
    if own && (s.op? e.1).isNone then { s with ops := Map.put e.1 o s.ops } else (s.addOp o).2) s

/-- A team's record is freed once all of its groups have started (R297). -/
def State.freeSave (s : State) (tid : Nat) : State :=
  if (s.groupsOf tid).all fun e => e.2.started then
    { s with saves := s.saves.filter fun e => !(e.2.placed && e.2.tid = tid) }
  else s

/-- The start of a restored group: an acquire of every entry's status, flags, failures, parked operations, and the standing
signatures, which the first group restored from an image of their group carries on (R225, R296). -/
def State.startRestored (s : State) (gid : Nat) (g : Group) (h : List Byte) (k : Nat) : State :=
  let im := Map.get? s.images k
  let falls := im.elim [] Image.falls
  let src := im.elim gid Image.src
  let alone := src = gid || (src ≠ 0 && (s.group? src).isNone)
  let ts := im.elim [] Image.ts
  let fails (l : Nat) : List (Word × Cause × Bool) := if alone then s.startFails src h ts l else s.startFails 0 h ts l
  let s := s.modGroup gid fun g =>
    { g with
      started := true, from? := none, age := s.nextId
      f := (List.range 12).map fun k => (k, g.flag k - Map.get falls k 0)
      threads := g.threads.map fun t => (t.1, { t.2 with detFail := fails t.1 }) }
  let s := { s with nextId := s.nextId + 1 }
  let s := if alone then
      { s with
        ops := Map.modAll (fun _ o =>
          if o.gid = src && o.det.isEmpty then { o with gid := gid, taken := o.taken || (o.stands && o.st.settled) } else o) s.ops
        images := (Map.del k s.images).map fun e => if e.2.src = src then (e.1, { e.2 with src := 0 }) else e }
    else s
  let s := (s.reparked gid g alone (im.elim [] Image.parked)).freeSave g.team
  let s := s.acquire g.core .dev
  if g.threads.all fun t => t.2.phase = .exited then s.retireGroup gid else s

/-- RESTORED_GROUP_START: a slot, threads and blocks are free and no entry reads pending (R147, R280, R296). -/
def execRestoredGroupStart (s : State) : Out :=
  let gid := s.sel.a
  match s.group? gid with
  | none => .next s
  | some g =>
    if g.started then .next s
    else
      let mates := s.groups.all fun e => e.2.team ≠ g.team || e.2.started || !e.2.bySched || (s.detDone e.2).isSome
      let cores := s.chargedTo g
      let slice := if g.bySched then some g.slice
        else (assignSlices 1 g.w 1 ((List.range 64).map (s.sliceLoad cores))).map fun x => x.headD 0
      match s.detDone g, slice with
      | some h, some k =>
        if g.bySched && !mates then .next s
        else
          let s1 := s.modGroup gid fun g => { g with slice := k }
          match s1.drawTo gid (max 1 g.needBlocks) 4 with
          | none => .next s
          | some s2 => .next (s2.startRestored gid g h (g.from?.elim 0 fun x => x.2.1))
      | _, _ => .next s

/-! ## RESUME (R147) -/

/-- A `RESUME` is over: the plain form settles with its cause, `.S` delivers it. -/
def State.resumeEnd (s : State) (id : Nat) (o : Op) (sf : Bool) (c : Option Cause) : State :=
  if sf then
    ((s.deliver o [BitVec.ofNat 32 (c.elim 0 Cause.code)]).settleFlags id .ok)
  else
    match c with
    | some c => s.fail id c
    | none => s.settleFlags id .ok

/-- A claim's first half: the checks and the compare and swap, an acquire at device scope (R147, R292). -/
def State.claimFirst (s : State) (id : Nat) (o : Op) (g : Group) (obj : Nat) (sf : Bool) : State :=
  if s.lineBusy o.ctx (obj + 8) 4 then s
  else match s.checkObj g obj with
  | .error .notPresent => s.park id o
  | .error (.cause c) => s.resumeEnd id o sf (some c)
  | .ok (s1, _) =>
    match s1.casState o.ctx o.core obj stReady stClaimed (s.sysMode o.ctx) with
    | .error .notPresent => s.park id o
    | .error (.cause c) => s1.resumeEnd id o sf (some c)
    | .ok (s2, st) =>
      if st = stReady then (s2.acquire o.core .dev).modOp id fun o => { o with kind := .resume obj sf true }
      else s2.resumeEnd id o sf (some .doubleResume)

/-- A claim whose second read failed: the object becomes FAULTED (R292). -/
def State.faultObj (s : State) (ctx core obj : Nat) (sys : Bool) : State :=
  match s.casState ctx core obj stClaimed stFaulted sys with
  | .ok (s, _) => s
  | .error _ => s

/-- A claim's second half: the object is read again, and its group restored (R147). -/
def State.claimSecond (s : State) (id : Nat) (o : Op) (g : Group) (obj : Nat) (sf : Bool) : State :=
  if s.lineBusy o.ctx (obj + 8) 4 then s
  else match s.readObj o.ctx o.core obj (s.sysMode o.ctx) with
  | .error .notPresent => s.park id o
  | .error (.cause c) => (s.faultObj o.ctx o.core obj (s.sysMode o.ctx)).resumeEnd id o sf (some c)
  | .ok (s, h) =>
    let (gid, s) := s.fresh
    let base : Group :=
      { ctx := g.ctx, team := g.team, core := g.core, slice := 64, w := g.w, cbase := 0, groupId := 0, cls := g.cls
        prio := g.prio, age := s.nextId }
    (s.queueGroup gid base h obj).resumeEnd id o sf none

/-- The next half of a claim. -/
def State.claim (s : State) (id : Nat) : State :=
  match s.op? id with
  | none => s
  | some o =>
    match o.kind, s.group? o.gid with
    | .resume obj sf claimed, some g => if claimed then s.claimSecond id o g obj sf else s.claimFirst id o g obj sf
    | _, _ => s

def resumeReq (a : Opnd) (d : Option Opnd) (s : State) (gid l : Nat) : Issue :=
  let obj := (s.src64 gid l a false).toNat
  if obj % 256 ≠ 0 then .error (.trap .misaligned obj)
  else .ok { kind := .resume obj d.isSome false, scope := .dev, dst := d.map fun d => (d, 1) }

def execResume (p : Pre) (a : Opnd) (s : State) : Out :=
  issue (.resume p a) p State.startMem false true (resumeReq a none) s

def execResumeS (p : Pre) (d a : Opnd) (s : State) : Out :=
  issue (.resumeS p d a) p State.startMem true false (resumeReq a (some d)) s

/-- Whether a waiting operation of this file may act: not held, and its thread's earlier stores are performed. -/
def State.contReady (s : State) (id : Nat) : Bool :=
  match s.op? id with
  | some o => (o.st = .waiting) && !o.held && s.copyReady id o
  | none => false

def execResumeClaim (s : State) : Out := if s.contReady s.sel.a then .next (s.claim s.sel.a) else .next s

/-! ## CDISCARD (R148) -/

def execCdiscard (p : Pre) (d a : Opnd) (s : State) : Out :=
  inSlot (.cdiscard p d a) p s (withNames (.cdiscard p d a) (afterStores <| perLane (.cdiscard p d a) fun s gid l =>
    let obj := (s.src64 gid l a false).toNat
    match s.group? gid with
    | none => (s, .next)
    | some g =>
      if obj % 256 ≠ 0 then (s, .trap .misaligned obj)
      else if s.lineBusy g.ctx (obj + 8) 4 then (s, .wait (.stall .order))
      else
        match s.casState g.ctx g.core obj stReady stDiscarded (s.sysMode g.ctx) with
        | .error .notPresent => (s, .wait (.stall (.page (obj + 8))))
        | .error (.cause c) => (s.dst32 gid l d (BitVec.ofNat 32 (2 ^ 31 + c.code)), .next)
        | .ok (s, old) => (s.dst32 gid l d (BitVec.ofNat 32 old), .next)))

/-! ## CCOPY (R149, R294) -/

/-- The reserved fields of a header and its unused entries: offset and length (R288). -/
def reservedFields (ndet : Nat) : List (Nat × Nat) :=
  [(0x1E, 2), (0x2C, 4), (0x40 + 8 * ndet, 8 * (16 - ndet)), (0x12C, 4), (0x140 + 4 * ndet, 4 * (16 - ndet)), (0x180, 0x78),
    (0x1FC, 4)]

/-- The bytes of a copy: its own address, generation, the time at which its state is written, zero in every reserved field, and
the CRC (R288, R290, R291). -/
def copyBytes (h : List Byte) (dst : Nat) (fork : Bool) (now : Nat) : List Byte :=
  let z := (reservedFields (min 16 (fld h 0x24 4))).foldl (fun h f => patch h f.1 (List.replicate f.2 0)) h
  let h := patch (patch (patch z 0x10 (toBytes 8 dst)) 6 (toBytes 2 (fld h 6 2 + if fork then 1 else 0))) 0x38 (toBytes 8 now)
  patch h 0x1F8 (toBytes 4 (objCrc h))

/-- Whether an entry of a copy's source still reads pending: the copy waits for it before it checks anything (R149). -/
def State.sourceWaits (s : State) (o : Op) (src : Nat) : Bool :=
  match s.gread o.ctx src 512 { r := true } (s.sysMode o.ctx) (pairOf o.core) with
  | .ok (_, h) => fld h 0 4 = contMagic && detPending h
  | .error _ => false

/-- What the device kept of a group follows its object, or is kept for the fork too. -/
def State.copyImage (s : State) (h : List Byte) (dst : Nat) (fork : Bool) : State :=
  match s.imageOf h with
  | none => s
  | some (k, im) =>
    if fork then
      let (n, s) := s.fresh
      { s with images := Map.put n { im with obj := dst } s.images }
    else { s with images := Map.put k { im with obj := dst } s.images }

/-- CCOPY_COMPLETE: waits for the source's tickets, checks, claims for a move, writes the destination. Objects that overlap, or a
fork of one that is not FORKABLE, fail with `CONT_COPY` also where the source is not READY (DESIGN CHOICE, log entry 66). -/
def State.ccopyDone (s : State) (id : Nat) : State :=
  match s.op? id with
  | none => s
  | some o =>
    match o.kind, s.group? o.gid with
    | .ccopy fork src dst, some g =>
      let sys := s.sysMode o.ctx
      let faulted (s : State) : State := match s.gwrite o.ctx (dst + 8) (toBytes 4 stFaulted) sys (pairOf o.core) with
        | .ok s => s
        | .error _ => s
      if s.sourceWaits o src || s.lineBusy o.ctx (src + 8) 4 then s
      else
      match s.checkObj g src with
      | .error .notPresent => s.park id o
      | .error (.cause c) => s.fail id c
      | .ok (s1, h) =>
        if (fork && fld h 0xC 4 % 2 = 0) || (src < dst + h.length && dst < src + h.length) then s1.fail id .contCopy
        else if s.lineBusy o.ctx dst h.length then s
        else
          match if fork then .ok (s1, fld h 8 4) else s1.casState o.ctx o.core src stReady stConsumed sys with
          | .error .notPresent => s.park id o
          | .error (.cause c) => s1.fail id c
          | .ok (s2, st) =>
            if st ≠ stReady then s2.fail id .doubleResume
            else
              match s2.writeObj o.ctx o.core dst (copyBytes h dst fork s.rtime) sys stReady with
              | (_, some .notPresent) => s.park id o
              | (s3, some (.cause c)) =>
                let s4 := if fork then s3 else
                  match s3.gwrite o.ctx (src + 8) (toBytes 4 stReady) sys (pairOf o.core) with
                  | .ok s => s
                  | .error _ => s3
                (faulted s4).fail id c
              | (s3, none) => (s3.copyImage h dst fork).settleFlags id .ok
    | _, _ => s

def ccopyReq (fork : Bool) (a b : Opnd) (s : State) (gid l : Nat) : Issue :=
  let src := (s.src64 gid l a false).toNat
  let dst := (s.src64 gid l b false).toNat
  if src % 256 ≠ 0 then .error (.trap .misaligned src)
  else if dst % 256 ≠ 0 then .error (.trap .misaligned dst)
  else .ok { kind := .ccopy fork src dst, scope := .dev }

def execCcopyMove (p : Pre) (a b : Opnd) (s : State) : Out :=
  issue (.ccopyMove p a b) p State.startMem false true (ccopyReq false a b) s

def execCcopyFork (p : Pre) (a b : Opnd) (s : State) : Out :=
  issue (.ccopyFork p a b) p State.startMem false true (ccopyReq true a b) s

def execCcopyComplete (s : State) : Out := if s.contReady s.sel.a then .next (s.ccopyDone s.sel.a) else .next s

/-! ## Team records (R297) -/

/-- The parts of an image beside the scratchpad (DESIGN CHOICE, log entry 20). -/
def Tile.image (t : Tile) : List Byte :=
  toBytes 1 (if t.i64 then 1 else 0) ++ (List.range 16384).flatMap fun i => toBytes 8 (Map.get t.e i 0).toNat

def planeImage (p : Option Plane) : List Byte :=
  match p with
  | none => List.replicate (49152 + 64) 0
  | some p =>
    ((List.range 16384).flatMap fun i => toBytes 3 (Map.get p.w i 0))
      ++ toBytes 16 (1 + 2 * p.fmt) ++ toBytes 16 p.rpl ++ toBytes 16 (if p.scl then 1 else 0) ++ toBytes 16 p.sbase

def Anchor.image (a : Anchor) : List Byte :=
  toBytes 16 a.n ++ toBytes 16 a.c ++ toBytes 16 (if a.bad then 1 else 0) ++ toBytes 16 a.sigs.length

def Barrier.image (b : Barrier) : List Byte := toBytes 4 (if b.ph then 1 else 0) ++ toBytes 4 b.e ++ toBytes 8 b.n

/-- The image of a team: its scratchpad, and with matrix state the tiles, planes, anchors and barriers. -/
def Team.image (t : Team) (scratch : Map Byte) : List Byte :=
  ((List.range t.scrLen).map fun i => Map.get scratch i 0) ++
    (if t.mtx then
      ((List.range 16).flatMap fun k => Tile.image (Map.get t.tiles k {})) ++ planeImage t.active ++ planeImage t.shadowPl
        ++ ((List.range 8).flatMap fun k => Anchor.image (Map.get t.anchors k {}))
        ++ ((List.range 16).flatMap fun k => Barrier.image (Map.get t.bars k {}))
    else [])

def Team.imageLen (t : Team) : Nat := t.scrLen + (if t.mtx then 16 * 131073 + 2 * (49152 + 64) + 8 * 64 + 16 * 16 else 0)

/-- What memory lists of a team's scratchpad, by offset. -/
def State.scratchCells (s : State) (t : Team) : Map Byte :=
  let lo := scratchPhys t.core t.scrBase
  (s.mem.filter fun c => decide (lo ≤ c.1) && decide (c.1 < lo + t.scrLen)).map fun c => (c.1 - lo, c.2)

def up256 (n : Nat) : Nat := ceilDiv n 256 * 256

/-- The save area of a context: its base and size. -/
def State.saveArea (s : State) (ctx core : Nat) : Except XErr (Nat × Nat) :=
  match s.ctx? ctx with
  | none => .error (.cause .translation)
  | some c =>
    let base := (c.saveHi ++ c.saveLo).toNat
    match s.gread ctx base 8 { r := true } true (pairOf core) with
    | .error e => .error e
    | .ok (_, b) => .ok (base, ofBytes b)

/-- The lowest free place for a record in a context's save area (R297). -/
def State.savePlace (s : State) (ctx base size len : Nat) : Option Nat :=
  let used := (s.saves.filter fun e => e.2.ctx = ctx).map fun e => (e.2.base, up256 (e.2.base + e.2.len - base) + base)
  let lo := up256 (base + 0x100)
  let cands := (lo :: used.map fun u => up256 u.2).filter fun b =>
    lo ≤ b && b + len ≤ base + size && used.all fun u => decide (b + len ≤ u.1) || decide (u.2 ≤ b)
  match cands with
  | [] => none
  | c :: cs => some (cs.foldl min c)

/-- Teams that are saved and restored together: a team's whole cluster. -/
def State.mates (s : State) (t : Team) : Map Team := s.teams.filter fun e => e.2.cluster = t.cluster

/-- The live word of a group held at a safe point; where its paths differ, all that any of them names (DEDUCED, log entry 19). -/
def Group.heldLive (g : Group) : Word :=
  g.threads.foldl (fun (w : Word) t => match t.2.wait with
    | some (.suspend none _ live) => w ||| live
    | _ => w) 0

/-- The bytes of a team's record at an address, with the addresses of its objects. -/
def State.recordOf (s : State) (tid : Nat) (t : Team) (base : Nat) : List Byte × List Nat × Nat :=
  let gs := s.groupsOf tid
  let (objs, bytes) := gs.foldl (fun (r : List Nat × List Byte) e =>
    let at_ := base + 0x100 + r.2.length
    let o := s.objBytes e.1 e.2 e.2.heldLive at_ 0 0 [] (s.detEntries e.1 e.2)
    let o := patch o 8 (toBytes 4 stReady)
    (r.1 ++ [at_], r.2 ++ o ++ List.replicate (up256 o.length - o.length) 0)) ([], [])
  let img := t.image (s.scratchCells t)
  let ticket := (t.grid.bind s.grid?).elim 0 Grid.ticket
  let hdr := toBytes 4 0x5445414D ++ toBytes 2 gs.length ++ toBytes 2 (if t.mtx then 1 else 0)
    ++ toBytes 4 (0x100 + bytes.length) ++ toBytes 4 img.length ++ toBytes 4 ticket ++ toBytes 4 t.idx ++ toBytes 1 t.rank
  (hdr ++ List.replicate (0x100 - hdr.length) 0 ++ bytes ++ img, objs, 0x100 + bytes.length)

/-- The most that a team's record can take. -/
def State.recordMax (s : State) (tid : Nat) (t : Team) : Nat :=
  0x100 + t.imageLen + (s.groupsOf tid).foldl (fun n e => n + up256 (0x200 + bodySize e.2.w 0xFFFFFFFF (isCompute e.2.kind))) 0

/-- Writes one team's record; the state with its `Save` (R297). -/
def State.saveTeam (s : State) (tid : Nat) (t : Team) (ckpt : Bool) : Except XErr State :=
  match s.saveArea t.ctx t.core with
  | .error e => .error e
  | .ok (area, size) =>
    let (probe, _, _) := s.recordOf tid t area
    match s.savePlace t.ctx area size probe.length with
    | none => .error (.cause .translation)
    | some base =>
      let (bytes, objs, _) := s.recordOf tid t base
      match s.dwrite t.ctx base bytes true (pairOf t.core) with
      | .error e => .error e
      | .ok s1 =>
        let gs := s.groupsOf tid
        let (k, s1) := s1.fresh
        let sv : Save :=
          { tid := tid, ctx := t.ctx, base := base, len := bytes.length, team := { t with saving := false }, groups := gs
            objs := objs, scratch := s.scratchCells t, clOf := t.cluster
            cluster := (Map.get? s.clusters t.cluster).getD { cores := [t.core] }, ckpt := ckpt }
        let s2 := { s1 with saves := Map.put k sv s1.saves }
        .ok ((gs.zip objs).foldl (fun s' e => s'.detach e.1.1 e.1.2 e.2 (s.detEntries e.1.1 e.1.2)) s2)

/-- The groups of some teams are let go on from their safe points. -/
def State.unhold (s : State) (tids : List Nat) : State :=
  { s with groups := s.groups.map fun e =>
      if tids.contains e.2.team then
        (e.1, { e.2 with
          susp := .none
          threads := e.2.threads.map fun t => match t.2.wait with
            | some (.suspend none _ _) => (t.1, { t.2 with wait := none })
            | _ => t })
      else e }

/-- Whether every group of a team is held at its safe point and ready to be saved (R280, R297). -/
def State.teamReady (s : State) (tid : Nat) (t : Team) (why : Susp) : Bool :=
  (s.groupsOf tid).all (fun e => e.2.susp = why && s.suspReady e.1 e.2 false)
    && (s.core t.core).eng.all fun e => e.2.team ≠ tid

/-! ## Pre-emption (R280) -/

/-- Whether a team may be the victim of a grid. -/
def State.victimOk (s : State) (g : Grid) (cores : List Nat) (tid : Nat) (t : Team) : Bool :=
  let coop := (t.grid.bind s.grid?).any fun x => x.r.coop
  cores.contains t.core && t.cls ≤ 1 && (t.cls < g.r.cls || (t.cls = g.r.cls && s.teamPrio t < g.effPrio))
    && !coop && !t.bounded && !t.paired && (s.groupsOf tid).all fun e => e.2.susp = .none

/-- The victim: the lowest effective priority, and among those the youngest launch. -/
def State.pickTeam (s : State) (g : Grid) (cores : List Nat) : Option (Nat × Team) :=
  (s.teams.filter fun e => s.victimOk g cores e.1 e.2).foldl (fun (b : Option (Nat × Team)) e =>
    match b with
    | none => some e
    | some x =>
      let p := s.teamPrio x.2
      let q := s.teamPrio e.2
      if q < p || (q = p && x.2.age < e.2.age) then some e else b) none

/-- PREEMPTION: an admittable grid of class 1 or 2 that finds no room chooses a victim; its whole cluster is to be
suspended at its next safe points, if the save area has room. With `flag`, the pre-emption of team `a` stops. -/
def execPreemption (s : State) : Out :=
  if s.sel.flag then
    match s.team? s.sel.a with
    | some t => .next (s.unhold ((s.mates t).map Prod.fst))
    | none => .next s
  else
    match s.grid? s.sel.a with
    | none => .next s
    | some g =>
      if g.st ≠ .admittable || g.r.cls = 0 || !s.energyFits g || (s.admitGrid s.sel.a).isSome then .next s
      else
        match s.pickTeam g (s.allowedCores g.ctx g.r.cls g.r.mtx g.r.paired s.sel.a) with
        | none => .next s
        | some (_, t) =>
          let ms := s.mates t
          let need := ms.foldl (fun n e => n + up256 (s.recordMax e.1 e.2)) 0
          match s.saveArea t.ctx t.core with
          | .error _ => .next s
          | .ok (base, size) =>
            if (s.savePlace t.ctx base size need).isNone then .next s
            else
              let hold (e : Nat × Group) : Nat × Group :=
                if ms.any fun m => m.1 = e.2.team then (e.1, { e.2 with susp := .preempt }) else e
              .next { s with groups := s.groups.map hold }

/-- TEAM_SAVE: every group of the cluster is at its safe point; records are written and the teams leave their cores. A
write that fails stops the pre-emption. -/
def execTeamSave (s : State) : Out :=
  match s.team? s.sel.a with
  | none => .next s
  | some t =>
    let ms := s.mates t
    if !ms.all (fun e => s.teamReady e.1 e.2 .preempt) || ms.any (fun e => (s.groupsOf e.1).isEmpty) then .next s
    else
      let all : Except XErr State := ms.foldl (fun r e => match r with
        | .ok s => s.saveTeam e.1 e.2 false
        | e => e) (.ok s)
      match all with
      | .error .notPresent => .next s
      | .error (.cause _) => .next (s.unhold (ms.map Prod.fst))
      | .ok s1 => .next (ms.foldl (fun s e => s.dropTeam e.1) s1)

/-! ## Restoring teams (R280, R297, R298) -/

/-- The scheduler's claim of one object of a saved team (R292, R297): the checks, the compare and swap, the second read. What a
claim that fails has written stays. A checkpoint's object is kept for another restart and not claimed (R298). -/
def State.schedClaim (s : State) (v : Save) (core obj : Nat) : State × Except XErr (List Byte) :=
  match s.checkFor v.ctx core (some v.team) true obj with
  | .error e => (s, .error e)
  | .ok (s1, h) =>
    if v.ckpt then (s1, .ok h)
    else
      match s1.casState v.ctx core obj stReady stClaimed true with
      | .error e => (s1, .error e)
      | .ok (s2, st) =>
        if st ≠ stReady then (s2, .error (.cause .doubleResume))
        else
          match s2.readObj v.ctx core obj true with
          | .error e => (s2.faultObj v.ctx core obj true, .error e)
          | .ok (s3, h) => (s3, .ok h)

def State.schedClaims (s : State) (v : Save) (core : Nat) : List Nat → State × Except XErr (List (List Byte))
  | [] => (s, .ok [])
  | obj :: rest =>
    match s.schedClaim v core obj with
    | (s, .error e) => (s, .error e)
    | (s, .ok h) =>
      match s.schedClaims v core rest with
      | (s, .error e) => (s, .error e)
      | (s, .ok hs) => (s, .ok (h :: hs))

/-- A restored team's image has to be as the device wrote it (R297); then its objects are claimed. -/
def State.claimRecord (s : State) (v : Save) (core : Nat) : State × Except XErr (List (List Byte)) :=
  let die := pairOf core
  let img := v.team.image v.scratch
  match s.gread v.ctx v.base 16 { r := true } true die with
  | .error e => (s, .error e)
  | .ok (s, h) =>
    match s.gread v.ctx (v.base + v.len - img.length) img.length { r := true } true die with
    | .error e => (s, .error e)
    | .ok (s, b) =>
      if fld h 0 4 ≠ 0x5445414D || b ≠ img then (s, .error (.cause .contCorrupt)) else s.schedClaims v core v.objs

/-- The records of the saved teams `vs`, each at its core `cs`. -/
def State.claimRecords (s : State) : List Save → List Nat → State × Except XErr (List (List (List Byte)))
  | v :: vs, c :: cs =>
    match s.claimRecord v c with
    | (s, .error e) => (s, .error e)
    | (s, .ok h) =>
      match s.claimRecords vs cs with
      | (s, .error e) => (s, .error e)
      | (s, .ok hs) => (s, .ok (h :: hs))
  | _, _ => (s, .ok [])

/-- Puts one saved team back at a core (R296, R297). -/
def State.putBack (s : State) (v : Save) (hs : List (List Byte)) (core cl : Nat) (p : List Nat × Nat) : State :=
  let t := { v.team with core := core, cluster := cl, scrBase := p.2, saving := false }
  let s := Team.addTo s v.tid t
  let s := if t.scrLen = 0 then s else
    s.writePhys (scratchPhys core p.2) ((List.range t.scrLen).map fun i => Map.get v.scratch i 0)
  (v.groups.zip (v.objs.zip hs)).foldl (fun s e =>
    let (ge, oh) := e
    let slice := p.1.getD (v.keys.idxOf (pairKey ge)) 0
    let base := { ge.2 with core := core, slice := slice, age := s.nextId, susp := .none, mapped := [], inBlock := [], pool := 0, resv := 0 }
    let s := { s with nextId := s.nextId + 1 }
    s.queueGroup ge.1 base oh.2 oh.1) s

/-- A team whose record cannot be restored ends FATAL, with the cause told to system firmware (R76, R297). -/
def State.recordLost (s : State) (key : Nat) (v : Save) (c : Cause) : State :=
  let s := { s.trigger with fatals := (v.ctx, v.tid, c) :: s.fatals }
  match v.team.grid with
  | some gr => s.endGrid gr 1
  | none => { s with saves := Map.del key s.saves }

/-- Whether a grid stands ahead of a saved team and finds room: the saved team waits for it (R277, R280). -/
def State.gridFirst (s : State) (v : Save) : Bool :=
  s.grids.any fun e => !s.ahead v e.2.r.cls e.2.effPrio &&
    ((e.2.st = .placing && (s.placeNext e.1).isSome) || (s.admitGrid e.1).isSome)

/-- TEAM_RESTORE: the saved teams of one cluster are placed under R278, claimed and restored together. Their records last until
their groups have started (R297). -/
def execTeamRestore (s : State) : Out :=
  match Map.get? s.saves s.sel.a with
  | none => .next s
  | some v =>
    if (if v.ckpt then !v.team.saving else v.placed) || s.gridFirst v || v.objs.any fun a => s.lineBusy v.ctx (a + 8) 4 then .next s
    else
      let vs := s.savedWith s.sel.a v
      match s.restorePlace v vs with
      | none => .next s
      | some (rc, ps) =>
        match s.claimRecords (vs.map Prod.snd) (ps.map Prod.fst) with
        | (_, .error .notPresent) => .next s
        | (s1, .error (.cause c)) => .next (s1.recordLost s.sel.a v c)
        | (s1, .ok hs) =>
          let (cl, s2) := s1.addCluster v.cluster.cols v.cluster.rows rc v.cluster.nthr
          let s2 := { s2 with clusters := Map.mod cl (fun c => { c with bars := v.cluster.bars }) s2.clusters }
          let s3 := (vs.zip (hs.zip ps)).foldl (fun s e => s.putBack e.1.2 e.2.1 e.2.2.1 cl e.2.2.2) s2
          let mark (k : Nat) (x : Save) : Save :=
            if x.ckpt then (if k = s.sel.a then { x with team := { x.team with saving := false } } else x)
            else if vs.any fun y => y.1 = k then { x with placed := true } else x
          .next { s3 with saves := Map.modAll mark s3.saves }

/-! ## Checkpoints (R298) -/

/-- A checkpointed team goes on from what was saved. -/
def State.resumeTeam (s : State) (v : Save) : State :=
  (v.groups.zip v.objs).foldl (fun s e =>
    match s.readObj v.ctx v.team.core e.2 true with
    | .error _ => s
    | .ok (s, h) =>
      let s := s.modGroup e.1.1 fun g => { restoredGroup g h g.parkedClauses with started := true }
      { s with images := s.images.filter fun i => decide (i.2.obj ≠ e.2) || decide (i.2.ctx ≠ v.ctx) }) s

/-- CHECKPOINT: a paired team is held at its next safe points; once it is there, its record is written, the older record
is freed and the team goes on. -/
def execCheckpoint (s : State) : Out :=
  match s.team? s.sel.a with
  | none => .next s
  | some t =>
    let gs := s.groupsOf s.sel.a
    if !t.paired || gs.isEmpty then .next s
    else if gs.all (fun e => decide (e.2.susp = .none)) then
      let hold (e : Nat × Group) : Nat × Group :=
        if e.2.team = s.sel.a then (e.1, { e.2 with susp := .checkpoint }) else e
      .next { s with groups := s.groups.map hold }
    else if !s.teamReady s.sel.a t .checkpoint then .next s
    else
      match s.saveTeam s.sel.a t true with
      | .error .notPresent => .next s
      | .error (.cause _) => .next (s.unhold [s.sel.a])
      | .ok s1 =>
        let older (e : Nat × Save) : Bool := e.2.ckpt && e.2.tid = s.sel.a && (Map.get? s.saves e.1).isSome
        let s2 := { s1 with saves := s1.saves.filter fun e => !older e }
        match s2.saves.find? fun e => e.2.ckpt && e.2.tid = s.sel.a with
        | some (_, v) => .next (s2.resumeTeam v)
        | none => .next s2

end Sys2Proof.Machine
end

