-- ==== Sys2Proof/Machine/Reduce.lean ====
section
/-!
DEFINITION. Sys2Proof/Machine/Reduce.lean: the arithmetic of reductions that cross engines (R209, R366): elements in
carry form, their combination, and the canonical tree of R355. Element types by the codes of R362.
-/

namespace Sys2Proof.Machine

/-- Bytes of one element. -/
def etyBytes (ety : Nat) : Nat :=
  match ety with
  | 0 | 8 => 4
  | 1 | 2 => 2
  | 3 | 4 => 1
  | _ => 8

def etyOk (ety : Nat) : Bool := ety ≤ 4 || ety = 8 || ety = 10

/-- An element in carry form: C40, F64 or I64 in a 64-bit word (R366). Every conversion is exact. -/
def toCarry (ety c : Nat) : Nat :=
  if ety = 8 then wrap 64 (sext 32 c) else if ety = 10 then c else (Fmt.c40.round .rne false (fmtValue ety c)).1

/-- The one conversion back to the element type, to nearest (R202, R203); I32 wraps. -/
def fromCarry (ety c : Nat) : Nat :=
  match ety with
  | 0 => (Fmt.f32.round .rne false (Fmt.c40.read (c % 2 ^ 40))).1
  | 1 => (Fmt.bf16.round .rne false (Fmt.c40.read (c % 2 ^ 40))).1
  | 2 => (Fmt.f16.round .rne false (Fmt.c40.read (c % 2 ^ 40))).1
  | 3 => (NFmt.nf8.round (Fmt.c40.read (c % 2 ^ 40))).1
  | 4 => (NFmt.nf8w.round (Fmt.c40.read (c % 2 ^ 40))).1
  | 8 => c % 2 ^ 32
  | _ => c

/-- Combine of two elements in carry form: 0 ADD, 1 MIN, 2 MAX. MIN and MAX treat NaN and the zeros as R195 has FMIN and FMAX do
(DESIGN CHOICE, log entry 66). -/
def pullCombine (ety rop a b : Nat) : Nat :=
  if ety = 8 then
    if rop = 0 then (a + b) % 2 ^ 64
    else if (rop = 1) == decide (sext 64 a ≤ sext 64 b) then a else b
  else
    let f : Fmt := if ety = 10 then .f64 else .c40
    let m := 2 ^ (1 + f.eb + f.fb)
    if rop = 0 then (f.add .rne (a % m) (b % m)).1 else (f.minmax (rop = 2) (a % m) (b % m)).1

/-- The elements of `n` bytes each. -/
def elemsOf (n : Nat) (bs : List Byte) : List Nat :=
  (List.range (bs.length / n)).map fun i => ofBytes ((bs.drop (n * i)).take n)

/-- A line or chunk of an element type in carry form. -/
def lineToCarry (ety : Nat) (bs : List Byte) : List Nat := (elemsOf (etyBytes ety) bs).map (toCarry ety)

def lineFromCarry (ety : Nat) (cs : List Nat) : List Byte := cs.flatMap fun c => toBytes (etyBytes ety) (fromCarry ety c)

/-- A chunk in carry form as it travels. -/
def carryBytes (cs : List Nat) : List Byte := cs.flatMap (toBytes 8)

/-- Elementwise combination; the first argument is the earlier one. -/
def combineAll (ety rop : Nat) (a b : List Nat) : List Nat := (a.zip b).map fun e => pullCombine ety rop e.1 e.2

/-- One level of the canonical tree: neighbours are combined, a last one without a neighbour passes through. -/
def pullLevel (ety rop : Nat) : List (List Nat) → List (List Nat)
  | a :: b :: rest => combineAll ety rop a b :: pullLevel ety rop rest
  | xs => xs

/-- The root of the canonical tree (R355), in at most `fuel` levels. -/
def pullRoot (ety rop : Nat) : Nat → List (List Nat) → List Nat
  | 0, xs => xs.headD []
  | fuel + 1, xs => if xs.length ≤ 1 then xs.headD [] else pullRoot ety rop fuel (pullLevel ety rop xs)

end Sys2Proof.Machine
end

