-- ==== Sys2Proof/Machine/Fabric.lean ====
section
/-!
DEFINITION. Sys2Proof/Machine/Fabric.lean: page 4 without collectives (R350 to R359, R372 to R384): multicast, pulled
reductions, gangs, peer queries, write-combining drains, remote spawns and multicast groups.
-/

namespace Sys2Proof.Machine

/-! ## Shared by the page -/

/-- The service of an operation by the belay die touches that die for the context (R372, R400). -/
def byBelay (f : State → Nat → State) (s : State) (id : Nat) : State :=
  match s.op? id with
  | some o => f (s.touchBelay o.ctx o.core) id
  | none => s

/-- The address by which a position is asked for a line of its own. -/
def rva (peer addr : Nat) : Nat := addr % 2 ^ 47 + 2 ^ 47 * peer + 2 ^ 56

/-- The positions of a defined group (R352, R381). -/
def State.groupOf? (s : State) (g : Nat) : Option (List Nat) :=
  match Map.get? s.mgroups g with
  | some (p :: ps) => some (p :: ps)
  | _ => none

/-- What reading a descriptor at issue came to: the bytes, a wait, or a failure that settles the operation (R377). -/
inductive DescRead where
  | bytes (bs : List Byte)
  | wait (r : LaneRes)
  | fail (c : Cause)

/-- Whether a thread of the path that executes now has accesses before it that a release waits for: an instruction that executes once
for its path is a release of all of them (R51, R91, R99). -/
def State.pathStores (s : State) (gid l : Nat) : Bool :=
  match s.cur with
  | some c => c.lanes.any (s.storesPending gid ·)
  | none => s.storesPending gid l

/-- Reads a descriptor at issue, after what the path's threads have stored before and once its walk is over (R317). -/
def State.readDesc (s : State) (gid l va n : Nat) : State × DescRead :=
  match s.group? gid with
  | none => (s, .fail .translation)
  | some g =>
    if s.pathStores gid l then (s, .wait (.wait (.stall .stores)))
    else
      match s.gateAt g.ctx va n (2 ^ 65 + 64 * gid + l) l with
      | (s, false) => (s, .wait (.wait (.stall .order)))
      | (s, true) =>
        match (s.meets g.ctx va n { r := true } (s.sysMode g.ctx) (pairOf g.core)).cread g.ctx g.core va n with
        | .ok (s, bs) => (s, .bytes bs)
        | .error .notPresent => (s, .wait (.wait (.stall (.page va))))
        | .error (.cause c) => (s, .fail c)

/-- Whether an operation's own access to a line may be made now: no older acquire or access to the line stands before it (R91), no
relock (R403) and no walk (R317). -/
def State.ownGate (s : State) (id : Nat) (o : Op) (va : Nat) : State × Bool :=
  if (s.pair (pairOf o.core)).relock.isSome || s.behind id o then (s, false)
  else
    match s.gateAt o.ctx va 256 o.ex ((o.lanes.map Prod.fst).headD 0) with
    | (s, true) => (s.meets o.ctx va 256 { r := true } o.sys (pairOf o.core), true)
    | r => r

/-- The context of a group. -/
def State.ctxOf (s : State) (gid : Nat) : Nat := (s.group? gid).elim 0 Group.ctx

/-! ## Multicast (R352 to R354, R375) -/

def modMcst (f : Mcst → Mcst) (o : Op) : Op :=
  match o.kind with
  | .mcst m => { o with kind := .mcst (f m) }
  | _ => o

/-- The aggregate: the ACK count, 0, and the bitmap of refusals (R353, R375). -/
def Mcst.aggregate (m : Mcst) : List Word :=
  let map := m.nacks.foldl (fun n e => n + 2 ^ e.1) 0
  [BitVec.ofNat 32 m.acks.length, 0, BitVec.ofNat 32 map, BitVec.ofNat 32 (map / 2 ^ 32)]

/-- Once every position has answered, the aggregate is delivered and the operation settles (R353). -/
def State.mcstDone (s : State) (id : Nat) : State :=
  match s.op? id with
  | none => s
  | some o =>
    match o.kind with
    | .mcst m =>
      if o.st.settled || m.acks.length + m.nacks.length < m.poss.length then s
      else
        let s := if o.det.isEmpty then s.deliver o m.aggregate else s
        match m.nacks with
        | [] => (s.conclude id .ok).doneA id
        | (_, c) :: _ => s.conclude id (.failed (Cause.ofCode c))
    | _ => s

/-- A position accepts the line (R72). -/
def State.mcstAck (s : State) (id peer : Nat) : State :=
  match s.op? id with
  | none => s
  | some o =>
    match o.kind with
    | .mcst m =>
      let i := m.poss.idxOf peer
      if !m.sent.contains i || m.acks.contains i || (Map.get? m.nacks i).isSome then s
      else
        ((s.modOp id (modMcst fun m => { m with acks := i :: m.acks })).escape id ⟨.mcst, 8, m.grp⟩).mcstDone id
    | _ => s

/-- A position refuses the line, or counts as one that did. -/
def State.mcstNack (s : State) (id peer : Nat) (c : Cause) : State :=
  match s.op? id with
  | none => s
  | some o =>
    match o.kind with
    | .mcst m =>
      let i := m.poss.idxOf peer
      if !m.sent.contains i || m.acks.contains i || (Map.get? m.nacks i).isSome then s
      else (s.modOp id (modMcst fun m => { m with nacks := Map.put i c.code m.nacks })).mcstDone id
    | _ => s

/-- The cause with which a failure at a peer reaches the requester (R308). -/
def Cause.remote (c : Cause) : Cause := if c = .translation || c = .permission then .remoteRevoked else .remoteError

/-- The own device's position writes the line at once, or once its page is there (R308, R320, R352); the core's L1 holds it no longer
(R91), and with `REL` the write is a release at system scope. A failure reaches the operation as one of a member does (DEDUCED, log
entry 47). -/
def State.mcstOwn (s : State) (id : Nat) (o : Op) (m : Mcst) : State :=
  let own := s.deviceIndex.toNat
  match s.ownGate id o m.addr with
  | (s, false) => s
  | (s, true) =>
    match s.replGate id none o.ctx m.addr with
    | (s, false) => s
    | (s, true) =>
      match s.gwrite o.ctx m.addr m.line o.sys (pairOf o.core) with
      | .ok s =>
        let s := s.l1Drop o.core o.ctx m.addr
        (if releases o.ord then s.promoAt o.core id o.ctx m.addr .sys else s).mcstAck id own
      | .error .notPresent => s
      | .error (.cause c) => s.mcstNack id own c.remote

/-- Sends the line to one position (R308, R352). -/
def State.mcstSend (s : State) (id : Nat) (o : Op) (m : Mcst) (i : Nat) : State :=
  let peer := m.poss.getD i 0
  let s := s.modOp id (modMcst fun m => { m with sent := i :: m.sent })
  if peer = s.deviceIndex.toNat then s.mcstOwn id o m
  else if s.tornFrom o.gid peer id then s.mcstNack id peer .gangTorn
  else
    match s.send peer (m.addr / 256) m.grp { dest := 0, kind := .mcast, flits := 4, tag := tagOf id, ctx := o.ctx, sys := o.sys
                                             addr := m.addr, arg := 2 ^ 256 - 1, data := m.line } with
    | some s => s
    | none => s.mcstNack id peer .remoteError

/-- The lanes of a transmit port that can send at once: six, of which each belay die carries half (R352, R406; the half of a port
DESIGN CHOICE, log entry 66). -/
def State.lanesOf (s : State) : Nat := if s.dieServes 8 && s.dieServes 9 then 6 else 3

/-- The positions of the next round: as many on each port as it has lanes, in ascending order; the own device's takes none (R308,
R352). -/
def Mcst.round (m : Mcst) (own lanes : Nat) : List Nat :=
  let left := (List.range m.poss.length).filter fun i => !m.sent.contains i
  let far (j : Nat) : Bool := m.poss.getD j 0 ≠ own
  left.filter fun i => !far i ||
    decide ((left.filter fun j => far j && j < i && portTo (m.poss.getD j 0) = portTo (m.poss.getD i 0)).length < lanes)

/-- Reads the source line where it has not been read: from a peer by a READ (R308, R375); what fails concludes the operation. -/
def State.mcstFetch (s : State) (id : Nat) : State :=
  match s.op? id with
  | none => s
  | some o =>
    match o.kind with
    | .mcst m =>
      let put (s : State) (bs : List Byte) : State := s.modOp id (modMcst fun m => { m with line := bs })
      if !m.line.isEmpty || o.st ≠ .waiting then s
      else if m.local_ then
        match s.spaceRead .scratch o.gid o.ctx o.core m.src 256 {} with
        | .ok (s, bs) => put s bs
        | .error x => s.conclude id (.failed x.toCause)
      else if vaOk m.src && (s.remote? m.src).isSome then
        if s.tornFrom o.gid (vaPeer m.src) id then s.conclude id (.failed .gangTorn)
        else if s.afterAcquire id o then s
        else
          match (s.drainLine o.core m.src).send (vaPeer m.src) (m.src / 256) 0
              { readMsg m.src 256 with tag := tagOf id, ctx := o.ctx, sys := o.sys } with
          | none => s.conclude id (.failed .remoteError)
          | some s => (s.touchBelay o.ctx o.core).modOp id fun o => { o with st := .sent (tagOf id) }
      else
        match s.ownGate id o m.src with
        | (s, false) => s
        | (s, true) =>
          match s.gread o.ctx m.src 256 { r := true } o.sys (pairOf o.core) with
          | .ok (s, bs) => put s bs
          | .error .notPresent => s
          | .error (.cause c) => s.conclude id (.failed c)
    | _ => s

/-- The multicasts that have been issued read their sources. -/
def State.mcstFetches (s : State) : State := s.ops.foldl (fun s e => s.mcstFetch e.1) s

/-- A peer's line for the source of a multicast. -/
def State.mcstLine (s : State) (id : Nat) (bs : List Byte) : State :=
  s.modOp id fun o => { modMcst (fun m => { m with line := bs }) o with st := .waiting }

def mcstReq (x : McX) (d a b : Opnd) (s : State) (gid l : Nat) : Issue :=
  let src := if x.ssp then (s.src32 gid l a).toNat else (s.src64 gid l a false).toNat
  let dst := (s.src64 gid l x.c false).toNat
  let grp := (s.src32 gid l b).toNat
  let ctx := s.ctxOf gid
  if src % 256 ≠ 0 then .error (.trap .misaligned src)
  else if dst % 256 ≠ 0 then .error (.trap .misaligned dst)
  else if dst / 2 ^ 47 % 2 ^ 10 ≠ 0 then .error (.trap .illegalOperand dst)
  else
    match s.groupOf? grp with
    | none => .error (.trap .illegalOperand 0)
    | some ps =>
      if x.ssp && (s.scratch? (s.teamOf gid) src 256).isNone then .error (.trap .scratchRange src)
      else if s.pathStores gid l then .error (.wait (.stall .stores))
      else if !x.ssp && s.absent ctx src { r := true } (pairOf ((s.group? gid).elim 0 Group.core)) then
        .error (.wait (.stall (.page src)))
      else
        .ok { kind := .mcst { grp := grp, poss := ps, addr := dst, local_ := x.ssp, src := src }
              ord := if x.rel then .rel else .rlx, scope := .sys, dst := some (d, 4) }

def execMcst (p : Pre) (x : McX) (d a b : Opnd) (s : State) : Out :=
  andThen (issue (.mcst p x d a b) p (byBelay fun s _ => s) true false (mcstReq x d a b) s) State.mcstFetches

/-- Whether the own position of a multicast has been sent its line and has neither taken nor refused it. -/
def State.mcstOwes (s : State) (m : Mcst) : Bool :=
  let i := m.poss.idxOf s.deviceIndex.toNat
  m.sent.contains i && !m.acks.contains i && (Map.get? m.nacks i).isNone

/-- MCAST_ROUND: the next round of a multicast whose lanes are tuned; before the first, the source line where it waits for its walk;
after the last, the own position's write where it waits for its page, and a settlement that still waits. -/
def execMcastRound (s : State) : Out :=
  let id := s.sel.a
  match s.op? id with
  | none => .next s
  | some o =>
    match o.kind with
    | .mcst m =>
      if m.line.isEmpty && o.st = .waiting then .next (s.mcstFetch id)
      else if o.held || o.st.settled || m.line.length ≠ 256 || !m.tuned then .next s
      else
        match m.round s.deviceIndex.toNat s.lanesOf with
        | [] => .next ((if s.mcstOwes m then s.mcstOwn id o m else s).mcstDone id)
        | is =>
          let s := s.modOp id fun o => { modMcst (fun m => { m with tuned := false, at_ := s.rtime }) o with st := .sent (tagOf id) }
          .next (is.foldl (fun s i => match s.op? id with
            | some o => if o.st.settled then s else (match o.kind with
              | .mcst m => s.mcstSend id o m i
              | _ => s)
            | none => s) s)
    | _ => .next s

/-- LANE_RETUNE_DONE: 30 ns after a round the lanes are tuned to the next positions (R340, R352). -/
def execLaneRetuneDone (s : State) : Out :=
  .next (s.modOp s.sel.a (modMcst fun m => if m.at_ + 30 ≤ s.rtime then { m with tuned := true } else m))

/-- Whether an operation has gone unanswered for the remote timeout (R70). -/
def State.unanswered (s : State) (o : Op) : Bool := decide (o.issue + s.stopTicks o + Config.remoteTimeout ≤ s.rtime)

/-- MCAST_REPLY_TIMEOUT: a position without a reply counts as refused (R353). -/
def execMcastReplyTimeout (s : State) : Out :=
  match s.op? s.sel.a with
  | none => .next s
  | some o =>
    match o.kind with
    | .mcst m =>
      if s.unanswered o && m.sent.contains s.sel.b then .next (s.mcstNack s.sel.a (m.poss.getD s.sel.b 512) .remoteTimeout)
      else .next s
    | _ => .next s

/-! ## The reduce aperture (R355 to R357, R376) -/

def modRload (f : RLoad → RLoad) (o : Op) : Op :=
  match o.kind with
  | .rload r => { o with kind := .rload (f r) }
  | _ => o

/-- A position's line, or its refusal, comes in; a second answer is none. -/
def State.rloadGot (s : State) (id peer : Nat) (bs : List Byte) : State :=
  s.modOp id (modRload fun r =>
    let i := r.poss.idxOf peer
    if (Map.get? r.got i).isSome || (Map.get? r.nacks i).isSome || r.poss.length ≤ i then r
    else { r with got := Map.put i bs r.got })

def State.rloadNack (s : State) (id peer : Nat) (c : Cause) : State :=
  s.modOp id (modRload fun r =>
    let i := r.poss.idxOf peer
    if (Map.get? r.got i).isSome || (Map.get? r.nacks i).isSome || r.poss.length ≤ i then r
    else { r with nacks := Map.put i c.code r.nacks })

/-- The own device's line, after what the threads have stored to it; a page that is not present is waited for. -/
def State.rloadOwn (s : State) (id : Nat) (o : Op) (r : RLoad) : State :=
  let own := s.deviceIndex.toNat
  if !r.poss.contains own then s
  else
    match s.ownGate id o r.addr with
    | (s, false) => s
    | (s, true) =>
      match s.gread o.ctx r.addr 256 { r := true } o.sys (pairOf o.core) with
      | .ok (s, bs) => s.rloadGot id own bs
      | .error .notPresent => s
      | .error (.cause c) => s.rloadNack id own c.remote

/-- Asks every position for its line, under a tag of this attempt (R361), once the acquires before it have been performed (R91). -/
def State.startRload (s : State) (id : Nat) : State :=
  match s.op? id with
  | none => s
  | some o =>
    match o.kind with
    | .rload r =>
      if s.afterAcquire id o then s
      else
        let (n, s) := s.fresh
        let s := s.modOp id fun o => { o with st := .sent (tagOf n) }
        let s := r.poss.foldl (fun s p =>
          if p = s.deviceIndex.toNat then s
          else if s.tornFrom o.gid p id then s.rloadNack id p .gangTorn
          else
            let va := rva p r.addr
            let s := s.drainLine o.core va
            match s.send p (r.addr / 256) 0 { readMsg va 256 with tag := tagOf n, ctx := o.ctx, sys := o.sys } with
            | some s => s
            | none => s.rloadNack id p .remoteError) s
        s.rloadOwn id o r
    | _ => s

/-- A pulled reduction ends: its line is written and the flags fall, or its outcome goes to the peer for which this device served
it (R355, R356). -/
def State.rloadEnd (s : State) (id : Nat) (o : Op) (r : RLoad) (x : Except Cause (List Byte)) : State :=
  match r.for_ with
  | some (peer, tag) =>
    let m : Msg := match x with
      | .ok bs => { dest := 0, kind := .rdata, flits := 4, tag := tag, ctx := o.ctx, addr := r.addr, data := bs }
      | .error c => { dest := 0, kind := .nack, tag := tag, ctx := o.ctx, addr := r.addr, arg := tag, data := toBytes 2 c.code }
    ((s.send peer (r.addr / 256) 0 m).getD s).settle id .ok
  | none =>
    match x with
    | .error c => s.fail id c
    | .ok bs =>
      match s.spaceWrite .scratch o.gid o.ctx o.core r.spad bs with
      | .error e => s.fail id e.toCause
      | .ok s => (s.settleFlags id .ok).acquire o.core (if acquires o.ord then .sys else .grp)

def rloadReq (x : RlX) (d a b : Opnd) (s : State) (gid l : Nat) : Issue :=
  let ad := (s.src64 gid l a false).toNat
  let sp := (s.src32 gid l d).toNat
  if ad % 256 ≠ 0 then .error (.trap .misaligned ad)
  else if ad / 2 ^ 47 % 2 ^ 10 ≠ 0 then .error (.trap .illegalOperand ad)
  else if sp % 16 ≠ 0 then .error (.trap .misaligned sp)
  else if (s.scratch? (s.teamOf gid) sp 256).isNone then .error (.trap .scratchRange sp)
  else
    match s.groupOf? (s.src32 gid l b).toNat with
    | none => .error (.trap .illegalOperand 0)
    | some ps =>
      .ok { kind := .rload { poss := ps, addr := ad, spad := sp, ety := x.ety.toNat, rop := x.rop.val
                             server := (s.servingNow ((s.group? gid).elim 0 Group.core)).getD (servingDie ((s.group? gid).elim 0 Group.core)) }
            ord := if x.acq then .acq else .rlx, scope := .sys, ordered := false }

def execRload (p : Pre) (x : RlX) (d a b : Opnd) (s : State) : Out :=
  issue (.rload p x d a b) p (byBelay State.startRload) true false (rloadReq x d a b) s

/-- Whether a belay die's reduction ALUs work. -/
def State.reduces (s : State) (d : Nat) : Bool := s.dieServes d && !(s.die d).aluOff

/-- RLOAD_REPLIES_COMPLETE: with every reply in, the lowest refusal fails the operation; else the tree's root is converted
once and written. -/
def execRloadRepliesComplete (s : State) : Out :=
  let id := s.sel.a
  match s.op? id with
  | none => .next s
  | some o =>
    match o.kind with
    | .rload r0 =>
      if o.st.settled || o.held || r0.moved || !s.reduces r0.server then .next s
      else if o.st = .waiting then .next (byBelay State.startRload s id)
      else
        let i := r0.poss.idxOf s.deviceIndex.toNat
        let s := if (Map.get? r0.got i).isSome || (Map.get? r0.nacks i).isSome then s else s.rloadOwn id o r0
        match (s.op? id).map Op.kind with
        | some (.rload r) =>
          if r.got.length + r.nacks.length < r.poss.length then .next s
          else
            match r.nacks with
            | (_, c) :: _ => .next (s.rloadEnd id o r (.error (Cause.ofCode c)))
            | [] =>
              let root := pullRoot r.ety r.rop 7 (r.got.map fun e => lineToCarry r.ety e.2)
              .next (s.rloadEnd id o r (.ok (lineFromCarry r.ety root)))
        | _ => .next s
    | _ => .next s

/-- The request for a pulled reduction that a peer's belay die is to serve: collective control with the positions, the element type,
the operator and the die (R356; the form DESIGN CHOICE, log entry 52). -/
def RLoad.request (r : RLoad) (tag ctx : Nat) (sys : Bool) : Msg :=
  { dest := 0, kind := .cctl, tag := tag, ctx := ctx, sys := sys, addr := 3, arg := r.addr
    data := bytesOfWords ([r.ety, r.rop, r.server].map (BitVec.ofNat 32) ++ r.poss.map (BitVec.ofNat 32)) }

/-- A reduction goes to the same-index belay die of position 0's device (R356). -/
def State.rloadMove (s : State) (id : Nat) (o : Op) (r : RLoad) : State :=
  let (n, s) := s.fresh
  let r := { r with got := [], nacks := [], moved := true }
  let s := s.modOp id fun o => { o with kind := .rload r, st := .sent (tagOf n) }
  let peer := r.poss.headD 0
  if s.tornFrom o.gid peer id then s.rloadEnd id o r (.error .gangTorn)
  else (s.send peer 0 0 (r.request (tagOf n) o.ctx o.sys)).getD (s.rloadEnd id o r (.error .remoteError))

/-- A peer asks this device to serve its reduction: an operation of no thread, which answers the peer (R356). -/
def State.reduceIn (s : State) : State :=
  let x := s.sel
  let w (i : Nat) : Nat := (x.words.getD i 0).toNat
  let r : RLoad :=
    { poss := (x.words.drop 3).map BitVec.toNat, addr := x.msg.addr, spad := 0, ety := w 0, rop := w 1, server := w 2
      for_ := some (x.b, x.msg.tag) }
  let (ex, s) := s.fresh
  let (id, s) := s.addOp
    { ex := ex, core := if r.server = 8 then 0 else 80, ctx := x.msg.ctx, gid := 0, lanes := [], ins := 0, kind := .rload r
      scope := .sys, issue := s.rtime, sys := x.msg.sys }
  byBelay State.startRload s id

/-- RLOAD_SERVER_FALLBACK: the serving reduction ALUs go offline (`flag`), or their die is gone; the reduction starts again with fresh
READs at the fallback server: this device's other belay die where its own die is gone or position 0 is here, else the same-index belay
die of position 0's device (R356, R361, R406). -/
def execRloadServerFallback (s : State) : Out :=
  let id := s.sel.a
  match s.op? id with
  | none => .next s
  | some o =>
    match o.kind with
    | .rload r =>
      let own := decide (r.poss.headD 0 = s.deviceIndex.toNat) || !s.dieServes r.server
      if o.st.settled || o.held || o.st = .waiting || r.moved || (!s.sel.flag && s.reduces r.server)
          || (own && !s.reduces (17 - r.server)) then .next s
      else
        let s := if s.sel.flag then s.modDie r.server fun d => { d with aluOff := true } else s
        if !own then .next (s.rloadMove id o r)
        else
          let s := s.modOp id (modRload fun r => { r with got := [], nacks := [], server := 17 - r.server })
          .next (byBelay State.startRload s id)
    | _ => .next s

/-! ## Peer queries, groups, drains (R381 to R383) -/

/-- The answer of `PEERQ` (R382). -/
def State.peerStatus (s : State) (idx : Nat) : Word :=
  if 512 ≤ idx then 0
  else
    let own := decide (idx = s.deviceIndex.toNat)
    let ps := if own then (List.range 8).filter s.planeOn else s.planesTo idx
    let mask := ps.foldl (fun n p => n + 2 ^ p) 0
    BitVec.ofNat 32 ((if ps.isEmpty then 0 else 1) + 2 * mask + if own then 512 else 0)

def State.startPeerq (s : State) (id : Nat) : State :=
  match s.op? id with
  | none => s
  | some o =>
    match o.kind with
    | .peerq idx => (s.deliver o [s.peerStatus idx]).settleFlags id .ok
    | _ => s

def execPeerq (p : Pre) (d a : Opnd) (s : State) : Out :=
  issue (.peerq p d a) p (byBelay State.startPeerq) true false (fun s gid l =>
    .ok { kind := .peerq (s.src32 gid l a).toNat, ordered := false, dst := some (d, 1) }) s

/-- The positions that a group descriptor gives (R381); none where its content is bad. -/
def groupDesc (bs : List Byte) : Option (List Nat) :=
  let cnt := fld bs 0 8
  let ps := (List.range cnt).map fun i => fld bs (8 + 2 * i) 2
  if cnt ≤ 64 && ps.all (fun p => decide (p < 512)) && ps.eraseDups.length = ps.length then some ps else none

def State.startMgrp (s : State) (id : Nat) : State :=
  match s.op? id with
  | none => s
  | some o =>
    match o.kind, o.err with
    | .mgrp _ _, some c => s.fail id c
    | .mgrp g ps, none => { s with mgroups := Map.put g ps s.mgroups }.settleFlags id .ok
    | _, _ => s

def execMgrp (p : Pre) (a b : Opnd) (s : State) : Out :=
  issueS (.mgrp p a b) p (byBelay State.startMgrp) false true (fun s gid l =>
    let g := (s.src32 gid l a).toNat
    let va := (s.src64 gid l b false).toNat
    if 4096 ≤ g then (s, .error (.trap .illegalOperand 0))
    else if va % 8 ≠ 0 then (s, .error (.trap .misaligned va))
    else
      match s.readDesc gid l va 8 with
      | (s, .wait r) => (s, .error r)
      | (s, .fail c) => (s, .ok { kind := .mgrp g [], h := true, err := some c })
      | (s, .bytes h) =>
        if 64 < fld h 0 8 then (s, .error (.trap .illegalOperand 0))
        else
          match s.readDesc gid l (va + 8) (2 * fld h 0 8) with
          | (s, .wait r) => (s, .error r)
          | (s, .fail c) => (s, .ok { kind := .mgrp g [], h := true, err := some c })
          | (s, .bytes t) =>
            match groupDesc (h ++ t) with
            | none => (s, .error (.trap .illegalOperand 0))
            | some ps => (s, .ok { kind := .mgrp g ps, h := true })) s

/-- `WCFLUSH`es whose drained writes have all been answered settle (R383). -/
def State.flushes (s : State) : State :=
  s.ops.foldl (fun s e =>
    match e.2.kind with
    | .wcflush ws =>
      if !e.2.st.settled && !e.2.held && e.2.st ≠ .waiting && ws.all (fun i => ((s.op? i).map fun o => o.st.settled).getD true) then
        s.settleFlags e.1 .ok
      else s
    | _ => s) s

/-- Drains the entries that hold bytes of the thread, and waits for their answers. -/
def State.startWcflush (s : State) (id : Nat) : State :=
  match s.op? id with
  | none => s
  | some o =>
    let mine (e : WcEntry) : Bool := e.ops.any fun i => match s.op? i with
      | some w => w.gid = o.gid && o.lanes.any fun l => (w.seq? l.1).isSome
      | none => false
    let es := (s.core o.core).wc.filter fun e => mine e.2
    let ws := es.flatMap fun e => e.2.ops
    let s := es.foldl (fun s e => s.drain o.core e.1) s
    (s.modOp id fun o => { o with kind := .wcflush ws, st := .performed }).flushes

def execWcflush (p : Pre) (s : State) : Out :=
  issue (.wcflush p) p (byBelay State.startWcflush) false true (fun _ _ _ => .ok { kind := .wcflush [], ordered := false }) s

/-- Whether an entry has to drain: it is full, or a thread waits for a store in it to settle (R351). -/
def State.wcDue (s : State) (e : WcEntry) : Bool :=
  e.bytes.length = 256 || e.ops.any fun i => match s.op? i with
    | some o => o.lanes.any fun l =>
      let t := s.thread o.gid l.1
      t.phase = .exiting || (match t.wait with
        | some (.waith _) | some (.stall .stores) | some (.suspend _ _ _) | some .rft | some (.qpush _ _ true) | some (.qpop _ _ true) => true
        | _ => false) || ((s.unsettled o.gid l.1).any fun x => x.2.held) || t.relFence = some .sys
    | none => false

def execWcDrain (s : State) : Out :=
  match Map.get? (s.core s.sel.a).wc s.sel.b with
  | some e => if s.wcDue e then .next (s.drain s.sel.a s.sel.b).flushes else .next s
  | none => .next s

def execWcEntryAgeExpiry (s : State) : Out :=
  match Map.get? (s.core s.sel.a).wc s.sel.b with
  | some e => if e.born + 1024 ≤ s.rtime then .next (s.drain s.sel.a s.sel.b).flushes else .next s
  | none => .next s

/-! ## Remote spawns (R384) -/

/-- A record with an impossible target fails; one for a peer drains what its thread stored there (R351). -/
def State.startRspawn (s : State) (id : Nat) : State :=
  match s.op? id with
  | none => s
  | some o =>
    match o.kind with
    | .rspawn t _ _ =>
      let core := (bits t 9 8).toNat
      if bits t 17 15 ≠ 0 || 160 ≤ core then s.fail id .remoteError
      else o.lanes.foldl (fun s l => s.drainThread o.gid l.1) s
    | _ => s

def execRspawn (p : Pre) (x : RpX) (a b : Opnd) (s : State) : Out :=
  let n := x.nw.toNat + 1
  issue (.rspawn p x a b) p (byBelay State.startRspawn) false true (fun s gid l =>
    if s.nodeBad (s.ctxOf gid) x.node.toNat n then .error (.trap .illegalOperand 0)
    else .ok { kind := .rspawn (s.src32 gid l b) x.node.toNat (s.srcRun gid l a n), scope := .sys }) s

/-- Whether what the threads of an operation stored before has been performed wherever it goes: its release at system
scope. -/
def State.releasedSys (s : State) (id : Nat) (o : Op) : Bool :=
  !s.ops.any fun e => decide (e.1 < id) && e.2.gid = o.gid && !e.2.st.settled
    && (match e.2.kind with
      | .store _ _ _ | .atom _ _ _ _ _ _ _ _ => true
      | _ => false)
    && e.2.lanes.any fun l => (o.seq? l.1).isSome

/-- An `RSPAWN` whose release is over: its record sets out, or enters the own device's bin. -/
def State.rspawnGo (s : State) (id : Nat) : State :=
  match s.op? id with
  | none => s
  | some o =>
    match o.kind with
    | .rspawn t node words =>
      let peer := (bits t 0 9).toNat
      let core := (bits t 9 8).toNat
      if o.st ≠ .waiting || o.held || !s.releasedSys id o then s
      else if peer = s.deviceIndex.toNat then
        if !((s.ctx? o.ctx).any fun c => c.cfg.cores.contains core) then s.fail id .remoteError
        else
          match s.binAccept core o.ctx node words with
          | none => s
          | some s => (s.escape id ⟨.spawn, words.length, core⟩).settleFlags id .ok
      else
        s.sendOr id o peer core 0 { dest := 0, kind := .spawn, flits := 1, addr := core + 256 * node, data := bytesOfWords words }
    | _ => s

/-- BIN_RECORD_ACCEPT: a record reaches its bin on this device, or sets out for a peer's. -/
def execBinRecordAccept (s : State) : Out :=
  match (s.op? s.sel.a).map Op.kind with
  | some (.rspawn _ _ _) => .next (s.rspawnGo s.sel.a)
  | _ => .next (s.acceptSpawn s.sel.a)

/-! ## Gangs (R358, R380) -/

def modGang (f : Gang → Gang) (o : Op) : Op :=
  match o.kind with
  | .gang g => { o with kind := .gang (f g) }
  | _ => o

/-- The gang id of a launcher's operation: its own index and the operation (DESIGN CHOICE, log entry 28). -/
def gangId (own id : Nat) : Nat := own * 2 ^ 32 + id % 2 ^ 32

/-- Gang control codes in the order of R358: PREPARE, PREPARED, REFUSED, GO, acknowledged, ABORT, TEAR. -/
def gangMsg (gang code ctx : Nat) (data : List Byte) : Msg :=
  { dest := 0, kind := .gang, arg := gang, addr := code, ctx := ctx, data := data }

/-- Sends gang control to every position but the own; answers whether all could be sent. -/
def State.gangSend (s : State) (poss : List Nat) (gang code ctx : Nat) (data : List Byte) : State × Bool :=
  poss.foldl (fun r p =>
    if p = r.1.deviceIndex.toNat then r
    else
      match r.1.send p 0 gang (gangMsg gang code ctx data) with
      | some s => (s, r.2)
      | none => (r.1, false)) (s, true)

/-- A member's reservation is released: what was placed goes, and the grid never was (R358). -/
def State.gangRelease (s : State) (gang : Nat) : State :=
  match Map.get? s.members gang with
  | none => s
  | some m =>
    if m.st ≠ .prepared then s
    else
      let s := { s with members := Map.del gang s.members }
      match m.grid with
      | none => s
      | some gr =>
        let s := (s.teams.filter fun e => e.2.grid = some gr).foldl (fun s e => s.dropTeam e.1) s
        let t := (s.grid? gr).elim 0 Grid.ticket
        let s := s.modCtx m.ctx fun c => { c with ended := Map.put t 2 c.ended }
        { s with grids := Map.del gr s.grids }

/-- Whether a member grid's groups may start (R358). -/
def State.startGangGrid (s : State) (gr : Nat) (on : Bool) : State :=
  let mine (e : Nat × Group) : Bool := (s.team? e.2.team).any fun t => t.grid = some gr
  let set (e : Nat × Group) : Nat × Group := if mine e then (e.1, { e.2 with started := on }) else e
  { s with groups := s.groups.map set }

/-- A member reserves the room of its grid and installs the node table that it names (R277, R281, R358): a refusal code of R143, a page to wait for, or the state. -/
def State.gangReserve (s : State) (gang src ctx : Nat) (words : List Word) : Except (Nat ⊕ Nat) State :=
  match s.queueRecord ctx 0 (bytesOfWords (words.take 16)) (some gang) with
  | .error e => .error e
  | .ok (s1, gr, _) =>
    match s1.grid? gr with
    | none => .error (.inl 2)
    | some g =>
      if !(s1.predMet ctx g.r.pred0 && s1.predMet ctx g.r.pred1) then .error (.inr 0)
      else if !s1.energyFits g then .error (.inl 3)
      else
        let s2 := s1.modGrid gr fun g => { g with st := .placing, since := s.rtime }
        match if g.r.coop then s2.placeAll gr g.r.teams else s2.placeNext gr with
        | none => .error (.inl 3)
        | some s3 =>
          let s3 := (s3.modGrid gr fun g => { g with st := .prepared }).startGangGrid gr false
          let m : Member :=
            { src := src, ctx := ctx, r := g.r, st := .prepared, since := s.ctxNow ctx, grid := some gr
              peers := (words.drop 16).map BitVec.toNat }
          .ok { s3 with members := Map.put gang m s3.members }

/-- The launcher's operation of an own gang. -/
def State.gangOp (s : State) (gang : Nat) : Option (Nat × Op × Gang) :=
  s.ops.findSome? fun e => match e.2.kind with
    | .gang g => if g.gang = gang && !e.2.st.settled && e.2.st ≠ .waiting then some (e.1, e.2, g) else none
    | _ => none

/-- The launcher gives up before GO: ABORT to all, and the operation fails. -/
def State.gangAbortAll (s : State) (id : Nat) (o : Op) (g : Gang) : State :=
  (((s.gangSend g.poss g.gang 5 o.ctx []).1).gangRelease g.gang).fail id .remoteError

/-- A member has answered PREPARED: with the last of them GO is sent to all. -/
def State.gangHeard (s : State) (id : Nat) (peer : Nat) : State :=
  match s.op? id with
  | none => s
  | some o =>
    match o.kind with
    | .gang g =>
      if o.st.settled || o.st = .waiting || g.going || !g.poss.contains peer || g.heard.contains peer then s
      else
        let heard := peer :: g.heard
        if heard.length < g.poss.length then s.modOp id (modGang fun g => { g with heard := heard })
        else
          let s := s.modOp id (modGang fun g => { g with heard := [], going := true, since := s.ctxNow o.ctx })
          (s.gangSend g.poss g.gang 3 o.ctx []).1
    | _ => s

/-- A member has acknowledged GO: with the last of them the operation settles. -/
def State.gangAcked (s : State) (id : Nat) (peer : Nat) : State :=
  match s.op? id with
  | none => s
  | some o =>
    match o.kind with
    | .gang g =>
      if o.st.settled || !g.going || !g.poss.contains peer || g.heard.contains peer then s
      else
        let heard := peer :: g.heard
        let s := s.modOp id (modGang fun g => { g with heard := heard })
        if heard.length < g.poss.length then s else s.settleFlags id .ok
    | _ => s

/-- The launcher sends PREPARE to all members; one that cannot be reached ends the launch at once (R339). -/
def State.startGang (s : State) (id : Nat) : State :=
  match s.op? id with
  | none => s
  | some o =>
    match o.kind, o.err with
    | .gang _, some c => s.fail id c
    | .gang g, none =>
      if g.poss.any (s.tornFrom o.gid · id) then s.fail id .gangTorn
      else
        let g := { g with gang := gangId s.deviceIndex.toNat id, since := s.ctxNow o.ctx }
        let s := s.modOp id fun o => { o with kind := .gang g, st := .sent (tagOf id) }
        match s.gangSend g.poss g.gang 0 o.ctx (bytesOfWords (g.record ++ g.poss.map (BitVec.ofNat 32))) with
        | (s, true) => s
        | (s, false) => s.gangAbortAll id o g
    | _, _ => s

def execGang (p : Pre) (a b : Opnd) (s : State) : Out :=
  issueS (.gang p a b) p (byBelay State.startGang) false true (fun s gid l =>
    let va := (s.src64 gid l a false).toNat
    if va % 64 ≠ 0 then (s, .error (.trap .misaligned va))
    else
      match s.groupOf? (s.src32 gid l b).toNat with
      | none => (s, .error (.trap .illegalOperand 0))
      | some ps =>
        match s.readDesc gid l va 64 with
        | (s, .wait r) => (s, .error r)
        | (s, .fail c) => (s, .ok { kind := .gang { poss := ps, record := [] }, h := true, err := some c })
        | (s, .bytes bs) => (s, .ok { kind := .gang { poss := ps, record := wordsOf 16 (ofBytes bs) }, h := true })) s

/-- Whether a request is a kept `PREPARE` of a gang. -/
def ServeKind.asksFor (k : ServeKind) (gang : Nat) : Bool :=
  match k with
  | .prepare g _ => g = gang
  | _ => false

/-- A kept `PREPARE` of a gang is kept no longer. -/
def State.unkeep (s : State) (gang : Nat) : State × Option Serve :=
  ({ s with serving := s.serving.filter fun x => !x.kind.asksFor gang }, s.serving.find? fun x => x.kind.asksFor gang)

/-- A member reserves the room and answers; a `PREPARE` that waits for a page, or for a predecessor, is kept until it can be answered,
or until ABORT or TEAR. -/
def State.memberPrepare (s : State) (src gang ctx : Nat) (words : List Word) : State :=
  let (s, mine) := s.unkeep gang
  if (Map.get? s.members gang).isSome then s
  else
    match s.gangReserve gang src ctx words with
    | .error (.inr _) => { s with serving := s.serving ++ [mine.getD ⟨src, 0, ctx, false, .prepare gang words⟩] }
    | .error (.inl k) => (s.send src 0 gang (gangMsg gang 2 ctx (toBytes 4 (2 ^ 31 + k)))).getD s
    | .ok s' => (s'.send src 0 gang (gangMsg gang 1 ctx [])).getD s'

/-- The own device as a member of a gang that it launches: no flit passes (R308). -/
def State.ownPrepare (s : State) (gang : Nat) : State :=
  let own := s.deviceIndex.toNat
  match s.gangOp gang with
  | none => s
  | some (id, o, g) =>
    if (Map.get? s.members gang).isSome || g.going || !g.poss.contains own then s
    else
      match s.gangReserve gang own o.ctx (g.record ++ g.poss.map (BitVec.ofNat 32)) with
      | .error (.inr _) => s
      | .error (.inl _) => s.gangAbortAll id o g
      | .ok s => s.gangHeard id own

/-- GANG_PREPARE: its flit arrives; or the own launcher's reaches the own member of gang `b`; or one that was kept is tried again. -/
def execGangPrepare (s : State) : Out :=
  .next (if s.sel.hdr.isSome then s.flitIn .gang 0
    else if s.sel.a = s.deviceIndex.toNat then s.ownPrepare s.sel.b
    else match s.serving.find? fun x => x.kind.asksFor s.sel.b with
      | some x => (match x.kind with
        | .prepare g ws => s.memberPrepare x.src g x.ctx ws
        | _ => s)
      | none => s)

def execGangPrepared (s : State) : Out := .next (s.flitIn .gang 1)

/-- A member has refused. -/
def State.gangRefusal (s : State) (id peer : Nat) : State :=
  match s.op? id with
  | none => s
  | some o =>
    match o.kind with
    | .gang g =>
      if o.st.settled || o.st = .waiting || g.going || !g.poss.contains peer then s else s.gangAbortAll id o g
    | _ => s

def execGangRefused (s : State) : Out := .next (s.flitIn .gang 2)

/-- GO: a prepared member places and starts its grid, and acknowledges. -/
def State.memberGo (s : State) (gang : Nat) : State :=
  let own := s.deviceIndex.toNat
  match Map.get? s.members gang with
  | none => s
  | some m =>
    let mine := s.gangOp gang
    if m.st ≠ .prepared || (m.src = own && !(mine.any fun x => x.2.2.going)) then s
    else
      let s := { s with members := Map.put gang { m with st := .running } s.members }
      let gr := m.grid.getD 0
      let s := (s.startGangGrid gr true).modGrid gr fun g =>
        { g with st := if g.nextIdx = g.r.teams then .running else .placing }
      match mine with
      | some (id, _, _) => if m.src = own then s.gangAcked id own
        else (s.send m.src 0 gang (gangMsg gang 4 m.ctx [])).getD s
      | none => (s.send m.src 0 gang (gangMsg gang 4 m.ctx [])).getD s

/-- GANG_GO: its flit arrives; or the own launcher's reaches the own member of gang `a`. -/
def execGangGo (s : State) : Out :=
  .next (if s.sel.hdr.isSome then s.flitIn .gang 3
    else if (Map.get? s.members s.sel.a).any fun m => m.src = s.deviceIndex.toNat then s.memberGo s.sel.a else s)

def execGangGoAck (s : State) : Out := .next (s.flitIn .gang 4)

def execGangAbort (s : State) : Out := .next (s.flitIn .gang 5)

/-- A running member's grid is torn from its gang; a prepared one goes back to Idle. -/
def State.gangTorn (s : State) (gang : Nat) : State :=
  match Map.get? s.members gang with
  | none => s
  | some m =>
    match m.st with
    | .prepared => s.gangRelease gang
    | .torn => s
    | .running =>
      let s := { s with members := Map.put gang { m with st := .torn } s.members }
      s.modGrid (m.grid.getD 0) fun g => { g with torn := m.peers, tornAt := s.nextId }

def execGangTear (s : State) : Out := .next (s.flitIn .gang 6)

/-- What a verified gang flit does, by its code. -/
def State.gangMsgIn (s : State) (code : Nat) : State :=
  let x := s.sel
  let own (f : Nat → State) : State := (s.gangOp x.a).elim s fun e => f e.1
  if code = 0 then s.memberPrepare x.a x.b x.c x.words
  else if code = 1 then own fun id => s.gangHeard id x.b
  else if code = 2 then own fun id => s.gangRefusal id x.b
  else if code = 3 then s.memberGo x.a
  else if code = 4 then own fun id => s.gangAcked id x.b
  else if code = 5 then ((s.unkeep x.a).1).gangRelease x.a
  else ((s.unkeep x.a).1).gangTorn x.a

def execGangPrepareTimeout (s : State) : Out :=
  match s.op? s.sel.a with
  | none => .next s
  | some o =>
    match o.kind with
    | .gang g =>
      if o.st.settled || o.st = .waiting || g.going || s.ctxNow o.ctx < g.since + 20000 then .next s
      else .next (s.gangAbortAll s.sel.a o g)
    | _ => .next s

def execGangGoWaitTimeout (s : State) : Out :=
  match Map.get? s.members s.sel.a with
  | some m => if m.since + 40000 ≤ s.ctxNow m.ctx then .next (s.gangRelease s.sel.a) else .next s
  | none => .next s

def execGangAckTimeout (s : State) : Out :=
  match s.op? s.sel.a with
  | none => .next s
  | some o =>
    match o.kind with
    | .gang g =>
      if o.st.settled || !g.going || s.ctxNow o.ctx < g.since + 20000 then .next s
      else .next ((((s.gangSend g.poss g.gang 6 o.ctx []).1).gangTorn g.gang).fail s.sel.a .gangTorn)
    | _ => .next s

end Sys2Proof.Machine
end

