-- ==== Sys2Proof/Machine/Coll.lean ====
section
/-!
DEFINITION. Sys2Proof/Machine/Coll.lean: tile scoreboards, armed operations, and collective programs with their step words
(R362 to R371, R377 to R379).
-/

namespace Sys2Proof.Machine

/-! ## Descriptors and step words (R362, R363) -/

/-- A descriptor's content, or the check that it fails (R362). -/
def CollDesc.read (group : Nat → Option (List Nat)) (bs : List Byte) : Except Cause CollDesc :=
  let prog := fld bs 0 8
  let w := fld bs 8 8
  let rank := w % 2 ^ 16
  let nr := w / 2 ^ 16 % 2 ^ 16
  let ety := w / 2 ^ 44 % 16
  let rop := w / 2 ^ 48 % 4
  let csz := fld bs 48 4
  if prog % 8 ≠ 0 then .error .misaligned
  else
    match group (w / 2 ^ 32 % 4096) with
    | none => .error .illegalOperand
    | some ps =>
      if nr ≠ ps.length || 64 < nr || nr ≤ rank || !etyOk ety || rop = 3 || w / 2 ^ 50 ≠ 0 || csz % 256 ≠ 0 || csz = 0
          || 2 ^ 20 < csz || fld bs 52 12 ≠ 0 then .error .illegalOperand
      else .ok ⟨prog, rank, ps, ety, rop, (List.range 4).map fun i => fld bs (16 + 8 * i) 8, csz⟩

def CollDesc.n (d : CollDesc) : Nat := d.grp.length

/-- Elements of a chunk. -/
def CollDesc.elems (d : CollDesc) : Nat := d.csz / etyBytes d.ety

/-- Whether a word lets the program receive chunks in carry form. -/
def wordCarries (w : DWord) : Bool :=
  match decodeStep w with
  | .ok (.rrs _) | .ok (.rrw _) => true
  | .ok (.recv x) => x.cf
  | _ => false

/-- Bytes of one chunk slot: the largest form that the program can receive (R365). -/
def CollDesc.slot (d : CollDesc) (ws : List DWord) : Nat := if ws.any wordCarries then 8 * d.elems else d.csz

def chunkBuffer : Nat := 8 * 2 ^ 20

/-- Reads step words up to the first END outside every loop, at most `fuel` of them; where one cannot be read, what ended
the reading. `depth` counts the loops that are open in the text. -/
def State.readWords (s : State) (ctx core : Nat) (sys : Bool) : Nat → Nat → Int → State × List DWord × Option XErr
  | 0, _, _ => (s, [], none)
  | fuel + 1, va, depth =>
    match s.gread ctx va 8 { r := true } sys (pairOf core) with
    | .error e => (s, [], some e)
    | .ok (s, bs) =>
      let w : DWord := BitVec.ofNat 64 (ofBytes bs)
      let op := dbits w 60 4
      if op = 0 && depth ≤ 0 then (s, [w], none)
      else
        let (s, ws, e) := s.readWords ctx core sys fuel (va + 8) (if op = 7 then depth + 1 else if op = 8 then depth - 1 else depth)
        (s, w :: ws, e)

/-! ## Firing and scoreboards (R370, R378, R379) -/

/-- The fields of an armed descriptor's words. -/
def Armed.w (a : Armed) (i : Nat) : Word := a.words.getD i 0
def Armed.dw (a : Armed) (i : Nat) : Nat := (a.w i).toNat + 2 ^ 32 * (a.w (i + 1)).toNat
def Armed.barrier (a : Armed) : Option Nat := if a.w 8 = 0xFFFFFFFF then none else some (a.w 8).toNat
def Armed.cx (a : Armed) : Option Cx := Cx.read (a.w 7) (if a.barrier.isSome then .k 0 else .nul)

/-- The content checks that `ARM` makes (R379): none where an armed descriptor may be installed. -/
def Armed.ok (a : Armed) : Bool :=
  let k := (a.w 0).toNat
  k ≤ 1 && (List.range 7).all (fun i => a.w (9 + i) = 0) && (k = 1 || (bits (a.w 7) 21 7 = 0 && a.cx.any Cx.ok))

/-- Whether a range lies outside a team's scratchpad, also of a saved team's (DESIGN CHOICE, log entry 18). -/
def State.outside (s : State) (tid a n : Nat) : Bool :=
  (s.scratch? tid a n).isNone && !((s.team? tid).isNone && s.saves.any fun e =>
    e.2.tid = tid && a / 2 ^ 22 % 64 = 0 && a % 2 ^ 22 + n ≤ e.2.team.scrLen)

/-- An armed copy starts as a `CPY` with its CX word, without ticket and promise; its outcome goes to the status word. -/
def State.fireCopy (s : State) (ctx : Nat) (a : Armed) (x : Cx) : State :=
  let ad (sp : Space) (v : Nat) : Nat := if sp = .global then v else v % 2 ^ 32
  let dst := ad x.dsp (a.dw 2)
  let src := ad x.ssp (a.dw 4)
  let n := (a.w 6).toNat
  let bad := cpyBad x dst src n a.barrier (s.outside a.team)
  let phase := match a.barrier.bind (s.bbar? a.team) with
    | some (_, b) => b.phase
    | none => 0
  let j : Job := .copy x.ssp x.dsp src dst n
  let y : Async :=
    { slot := none, ticket := 0, promise := 0, bar := if bad.isSome then none else a.barrier, bytes := x.bytes
      par := (if x.par then 1 - phase else phase) == 1, count := n, csc := if x.csc = .grp then .core else x.csc
      team := a.team }
  let (ex, s) := s.fresh
  let o : Op :=
    { ex := ex, core := a.core, ctx := ctx, gid := a.gid, lanes := [], ins := 0, kind := .async y j, issue := s.rtime
      sys := s.sysMode ctx, ts := s.stopped ctx, det := [a.addr + 4], err := bad.map Prod.fst }
  let (id, s) := s.addOp o
  match bad with
  | some (c, _) => s.asyncEnd id (.failed c)
  | none => s.startAsync id

/-- A program that no descriptor has filled in yet. -/
def noDesc : CollDesc := ⟨0, 0, [], 0, 0, [], 256⟩

/-- The belay die whose sequencer runs a core's programs: the one that serves the core now, or else its own (R355, R406). -/
def State.progDie (s : State) (core : Nat) : Nat := (s.servingNow core).getD (servingDie core)

/-- An armed collective starts as a `COLL` would; its descriptor is read by the sequencer. -/
def State.fireColl (s : State) (ctx : Nat) (a : Armed) : State :=
  let (k, s) := s.fresh
  let p : Prog :=
    { die := s.progDie a.core, core := a.core, ctx := ctx, sys := s.sysMode ctx, grid := s.gridOf a.gid, op := none
      status := some (a.addr + 4), d := noDesc, unread := some (a.dw 2), p := [] }
  { s with progs := Map.put k p s.progs }

def State.fire (s : State) (ctx : Nat) (a : Armed) : State :=
  if a.w 0 = 0 then
    match a.cx with
    | some x => s.fireCopy ctx a x
    | none => s
  else s.fireColl ctx a

/-- Whether every bit under the mask is 1. -/
def Ctx.armedNow (c : Ctx) (a : Armed) : Bool := Map.get c.scb a.sb 0 &&& a.mask = a.mask

/-- Armed operations of a context whose bits are all 1 fire, once each (R370). -/
def State.fireReady (s : State) (ctx : Nat) : State :=
  match s.ctx? ctx with
  | none => s
  | some c =>
    let s := s.modCtx ctx fun c => { c with armed := c.armed.filter fun a => !c.armedNow a }
    (c.armed.filter c.armedNow).foldl (fun s a => s.fire ctx a) s

/-- Installs one `ARM` (R379): the status word reads armed from then on. -/
def State.installArm (s : State) (id : Nat) : State :=
  match s.op? id with
  | none => s
  | some o =>
    match o.kind, s.ctx? o.ctx with
    | .arm a, some c =>
      if o.st.settled || o.held || 1024 ≤ c.armed.length then s
      else
        match s.dwrite o.ctx (a.addr + 4) (toBytes 4 0) o.sys (pairOf o.core) with
        | .error .notPresent => s
        | .error (.cause x) => s.fail id x
        | .ok s =>
          let s := s.modCtx o.ctx fun c => { c with armed := c.armed ++ [a] }
          (s.settleFlags id .ok).fireReady o.ctx
    | _, _ => s

/-- `ARM`s that wait for an entry are installed, oldest first. -/
def State.installArms (s : State) (ctx : Nat) : State :=
  (s.ops.filter fun e => e.2.ctx = ctx && (match e.2.kind with
    | .arm _ => e.2.err.isNone
    | _ => false)).foldl (fun s e => s.installArm e.1) s

/-- One update of a scoreboard: armed operations and trigger predecessors are tested again (R370, R378). -/
def State.scbUpdate (s : State) (ctx sb : Nat) (f : DWord → DWord) : State :=
  let s := s.modCtx ctx fun c => { c with scb := Map.put sb (f (Map.get c.scb sb 0)) c.scb }
  ((s.fireReady ctx).installArms ctx).retest

/-- Whether an older update of the same scoreboard by one of its threads stands before an update (R91, R370). -/
def State.scbBehind (s : State) (id : Nat) (o : Op) (sb : Nat) : Bool :=
  s.ops.any fun e => decide (e.1 < id) && e.2.gid = o.gid && !e.2.st.settled
    && (match e.2.kind with
      | .scb n _ _ => n = sb
      | _ => false)
    && e.2.lanes.any fun l => (o.seq? l.1).isSome

/-- A `SCBSET` or `SCBCLR` is performed, in the program order of its threads. -/
def State.startScb (s : State) (id : Nat) : State :=
  match s.op? id with
  | none => s
  | some o =>
    match o.kind with
    | .scb sb m set =>
      if s.scbBehind id o sb then s else
      let s := if set then s else s.escape id ⟨.atom, 3, sb⟩
      (s.settleFlags id .ok).scbUpdate o.ctx sb fun v => if set then v ||| m else v &&& ~~~m
    | _ => s

def scbReq (set : Bool) (a b : Opnd) (s : State) (gid l : Nat) : Issue :=
  let sb := (s.src32 gid l a).toNat
  if 255 < sb then .error (.trap .illegalOperand 0)
  else .ok { kind := .scb sb (s.src64 gid l b true) set, scope := .dev, h := set }

def execScbset (p : Pre) (a b : Opnd) (s : State) : Out :=
  issue (.scbset p a b) p (byBelay State.startScb) false true (scbReq true a b) s

def execScbclr (p : Pre) (a b : Opnd) (s : State) : Out :=
  issue (.scbclr p a b) p (byBelay State.startScb) false true (scbReq false a b) s

def State.startArm (s : State) (id : Nat) : State :=
  match (s.op? id).bind Op.err with
  | some c => s.fail id c
  | none => s.installArm id

def execArm (p : Pre) (x : AmX) (a b : Opnd) (s : State) : Out :=
  issueS (.arm p x a b) p (byBelay State.startArm) false true (fun s gid l =>
    let va := (s.src64 gid l a false).toNat
    if va % 64 ≠ 0 then (s, .error (.trap .misaligned va))
    else
      let mk (ws : List Word) : Armed :=
        { sb := x.sb.toNat, mask := s.src64 gid l b true, addr := va, words := ws, core := (s.group? gid).elim 0 Group.core
          gid := gid, team := s.teamOf gid }
      match s.readDesc gid l va 64 with
      | (s, .wait r) => (s, .error r)
      | (s, .fail c) => (s, .ok { kind := .arm (mk []), h := true, err := some c })
      | (s, .bytes bs) =>
        let r := mk (wordsOf 16 (ofBytes bs))
        if r.ok then (s, .ok { kind := .arm r, h := true }) else (s, .error (.trap .illegalOperand 0))) s

/-! ## COLL and the start of a program (R365, R377) -/

/-- A `COLL` that is not held any longer queues its program. -/
def State.startColl (s : State) (id : Nat) : State :=
  match s.op? id with
  | none => s
  | some o =>
    match o.kind, o.err with
    | .coll _ _, some c => s.conclude id (.failed c)
    | .coll d _, none =>
      let (k, s) := s.fresh
      let p : Prog :=
        { die := s.progDie o.core, core := o.core, ctx := o.ctx, sys := o.sys, grid := s.gridOf o.gid, op := some id
          status := none, d := d, p := List.replicate 4 d.rank }
      { s with progs := Map.put k p s.progs }
    | _, _ => s

/-- Whether the four slots of a program exceed the chunk buffer; with a page to wait for (R365, R377). Only a chunk whose
carry form is larger than it can exceed it. -/
def State.slotsBad (s : State) (ctx core : Nat) (sys : Bool) (d : CollDesc) : Bool × Option Nat :=
  if 4 * (8 * d.elems) ≤ chunkBuffer then (false, none)
  else
    match s.readWords ctx core sys 4096 d.prog 0 with
    | (_, ws, some .notPresent) => (false, some (d.prog + 8 * ws.length))
    | (_, ws, _) => (decide (chunkBuffer < 4 * d.slot ws), none)

def execColl (p : Pre) (h : Bool) (a : Opnd) (s : State) : Out :=
  issueS (.coll p h a) p (byBelay State.startColl) false true (fun s gid l =>
    let va := (s.src64 gid l a false).toNat
    let core := (s.group? gid).elim 0 Group.core
    let ctx := s.ctxOf gid
    let req (d : CollDesc) (e : Option Cause) : Req :=
      { kind := .coll d 0, scope := .dev, h := h, ordered := false, err := e }
    if va % 64 ≠ 0 then (s, .error (.trap .misaligned va))
    else
      match s.readDesc gid l va 64 with
      | (s, .wait r) => (s, .error r)
      | (s, .fail c) => (s, .ok (req noDesc (some c)))
      | (s, .bytes bs) =>
        match CollDesc.read s.groupOf? bs with
        | .error c => (s, .error (.trap c va))
        | .ok d =>
          match (if 4 * (8 * d.elems) ≤ chunkBuffer then (s, true) else s.gateAt ctx d.prog 32768 (2 ^ 65 + 64 * gid + l) l) with
          | (s, false) => (s, .error (.wait (.stall .order)))
          | (s, true) =>
            match s.slotsBad ctx core (s.sysMode ctx) d with
            | (_, some pg) => (s, .error (.wait (.stall (.page pg))))
            | (true, none) => (s, .error (.trap .illegalOperand va))
            | (false, none) => (s, .ok (req d none))) s

def State.prog? (s : State) (k : Nat) : Option Prog := Map.get? s.progs k
def State.modProg (s : State) (k : Nat) (f : Prog → Prog) : State := { s with progs := Map.mod k f s.progs }

/-- The outcome of a program reaches its operation or its status word; the program is gone once it has. The settlement of a `COLL` is
an acquire of what the program has written (R368). -/
def State.progEnd (s : State) (k : Nat) (p : Prog) (st : OpSt) : State :=
  let gone (s : State) : State := { s with progs := Map.del k s.progs }
  match p.op, p.status with
  | some id, _ =>
    let s' := s.conclude id st
    if ((s'.op? id).map fun o => o.st.settled).getD true then gone ((s'.doneB id).acquire p.core .sys) else s
  | none, some a =>
    match s.putStatus p.ctx p.core st [a] with
    | .ok s => gone s
    | .error (.cause _) => gone s
    | .error .notPresent => s
  | none, none => gone s

/-- Sends collective control to a rank's device (R344): 0 credit, 1 acknowledgement, 2 ABORT. -/
def State.collCtl (s : State) (k : Nat) (p : Prog) (rank code : Nat) : State :=
  let m : Msg := { dest := 0, kind := .cctl, ctx := p.ctx, sys := p.sys, addr := code, arg := k }
  (s.send (p.d.grp.getD rank 0) 0 k m).getD s

/-- A program fails: ABORT goes to every other rank, and its outcome is delivered, at once or when its page is there
(R367). -/
def State.progFail (s : State) (k : Nat) (c : Cause) (tell : Bool) : State :=
  match s.prog? k with
  | none => s
  | some p =>
    if p.failed.isSome then s
    else
      let s := if tell then
          (List.range p.d.n).foldl (fun s r => if r = p.d.rank then s else s.collCtl k p r 2) s
        else s
      (s.modProg k fun p => { p with failed := some c }).progEnd k p (.failed c)

/-! ## Control flow of a program (R364) -/

/-- The step after the ENDL that matches a LOOP before index `i`. -/
def matchEndl (ws : List DWord) : Nat → Nat → Nat → Option Nat
  | 0, _, _ => none
  | fuel + 1, i, depth =>
    match ws[i]? with
    | none => none
    | some w =>
      let op := dbits w 60 4
      if op = 8 then (if depth = 0 then some (i + 1) else matchEndl ws fuel (i + 1) (depth - 1))
      else matchEndl ws fuel (i + 1) (if op = 7 then depth + 1 else depth)

/-- LOOP: none where it is a program fault. -/
def Prog.loop (p : Prog) (w : StepW) : Option Prog :=
  let count : Int := (if w.md then (p.d.n : Int) else 0) + w.k.toInt
  if count ≤ 0 then (matchEndl p.words 4097 (p.ip + 1) 0).map fun i => { p with ip := i }
  else if 3 ≤ p.loops.length then none
  else some { p with loops := (w.ij.toNat, count, p.ip + 1) :: p.loops, ip := p.ip + 1 }

/-- ENDL: none where it is a program fault. -/
def Prog.endl (p : Prog) : Option Prog :=
  match p.loops with
  | [] => none
  | (j, count, back) :: rest =>
    let v := p.l.getD j 0 + 1
    if (v : Int) < count then some { p with l := p.l.set j v, ip := back }
    else some { p with l := p.l.set j 0, loops := rest, ip := p.ip + 1 }

/-- PEER: none where it is a program fault. -/
def Prog.peer (p : Prog) (w : StepW) : Option Prog :=
  let r : Int := p.d.rank
  let n : Int := p.d.n
  let v : Nat := match w.ia.toNat with
    | 0 => ((r + w.k.toInt) % n).toNat
    | 1 => ((r - w.k.toInt) % n).toNat
    | _ => p.d.rank ^^^ w.k.toNat
  if p.d.n ≤ v then none else some { p with p := p.p.set w.pa.toNat v, ip := p.ip + 1 }

/-- The rank that a peer register holds. -/
def Prog.rank (p : Prog) (i : BitVec 2) : Nat := p.p.getD i.toNat 0

/-- The ranks that the next receiving steps name, at most `k` of them: what credits are given for (DESIGN CHOICE, log entry 29). -/
def Prog.receives : Nat → Nat → Prog → List Nat
  | 0, _, _ => []
  | fuel + 1, k, p =>
    if k = 0 then []
    else
      let next (q : Option Prog) : List Nat := match q with
        | some q => Prog.receives fuel k q
        | none => []
      let past : Option Prog := some { p with ip := p.ip + 1 }
      match (p.words[p.ip]?).map decodeStep with
      | some (.ok i) =>
        match i with
        | .recv w | .rrs w | .rrw w => p.rank w.pa :: Prog.receives fuel (k - 1) { p with ip := p.ip + 1 }
        | .loopStep w => next (p.loop w)
        | .endl _ => next p.endl
        | .peerStep w => next (p.peer w)
        | .endStep _ => []
        | _ => next past
      | _ => []

/-- Steps that a look ahead follows. A receive that lies behind more of them gets its credit when the program has come nearer. -/
def lookAhead : Nat := 2 ^ 16

/-- Gives a slot credit to a rank. -/
def State.giveCredit (s : State) (k rank : Nat) : State :=
  match s.prog? k with
  | none => s
  | some p =>
    if rank = p.d.rank then s.modProg k fun p => { p with credits := Map.put rank (Map.get p.credits rank 0 + 1) p.credits }
    else s.collCtl k p rank 0

/-- Credits go out for the next four receiving steps that have none yet (R365). -/
def State.giveCredits (s : State) (k : Nat) : State :=
  match s.prog? k with
  | none => s
  | some p =>
    let rs := Prog.receives lookAhead 4 p
    (rs.drop p.due).foldl (fun s r => s.giveCredit k r) (s.modProg k fun p => { p with due := max p.due rs.length })

/-! ## Chunks at a peer or in bank memory (R307, R325, R343) -/

/-- A base names shared bank memory where its high word is all ones. -/
def bankAddr? (va : Nat) : Option Nat := if va / 2 ^ 32 = 2 ^ 32 - 1 then some (va % 2 ^ 32) else none

/-- Whether a program reaches bytes by requests of its own: at a peer line by line, in bank memory word by word. -/
def State.apart (s : State) (va : Nat) : Bool := (bankAddr? va).isSome || (vaOk va && (s.remote? va).isSome)

/-- The bytes of the next request of a range: in one bank word or one line; those that are combined are whole carry words. -/
def unitOf (va left : Nat) (comb : Bool) : Nat :=
  match bankAddr? va with
  | some a => min left (if comb then max 8 ((32 - a % 32) / 8 * 8) else 32 - a % 32)
  | none => min left (256 - va % 256)

/-- Whether an operation is a request of a program. -/
def Op.ofProg (o : Op) (k : Nat) : Bool :=
  match o.kind with
  | .chunk j _ _ _ _ => j = k
  | _ => false

/-- The step words that have been read are all that there are, up to the first END outside every loop, with what ended their reading. -/
def Prog.readEnd (p : Prog) (c : Option Cause) (ws : List DWord) : Prog :=
  { p with words := ws, short := c, read := true, rd := none }

/-- The double words of bytes. -/
def dwordsOf (bs : List Byte) : List DWord := (elemsOf 8 bs).map (BitVec.ofNat 64)

/-- The number of step words up to the first END outside every loop. -/
def endAt (ws : List DWord) : Nat → Int → Option Nat
  | i, depth =>
    match ws with
    | [] => none
    | w :: ws =>
      let op := dbits w 60 4
      if op = 0 && depth ≤ 0 then some (i + 1)
      else endAt ws (i + 1) (if op = 7 then depth + 1 else if op = 8 then depth - 1 else depth)

/-- A request of a program failed: the program does, or the reading of its step words has ended (R367). -/
def State.chunkFail (s : State) (id k : Nat) (c : Cause) : State :=
  let s := s.settle id .ok
  match s.prog? k with
  | none => s
  | some p => if p.read then s.progFail k c true
    else s.modProg k fun p => p.readEnd (some c) (dwordsOf ((p.rd.map Prod.snd).getD []))

/-- A request of a program has been answered: with the bytes read, or once they are written. The first chunk write of a provisional
program escapes as COPY (R377). -/
def State.chunkDone (s : State) (id k n : Nat) (got : Option (List Byte)) : State :=
  let s := s.settle id .ok
  match s.prog? k, got with
  | none, _ => s
  | some _, some bs => s.modProg k fun p => { p with rd := p.rd.map fun r => (r.1, r.2 ++ bs) }
  | some p, none =>
    let s := match p.op, p.wr with
      | some o, some w => if w.chunk then s.escape o ⟨.copy, clog2 p.d.csz, w.base⟩ else s
      | _, _ => s
    s.modProg k fun p => { p with wr := p.wr.bind fun w =>
      if w.left.length ≤ n then none else some { w with next := w.next + n, left := w.left.drop n } }

/-- A program asks for the next bytes: by a READ or WRITE to a peer, or a request to a bank. -/
def State.ask (s : State) (k : Nat) (p : Prog) (va n : Nat) (w : Option (List Byte)) (comb : Bool) : State :=
  let (ex, s) := s.fresh
  let (id, s) := s.addOp
    { ex := ex, core := p.core, ctx := p.ctx, gid := 0, lanes := [], ins := 0, kind := .chunk k va n w comb, scope := .dev
      issue := s.rtime, sys := p.sys }
  if (bankAddr? va).isSome then s
  else
    let torn := (p.grid.bind s.grid?).any fun g => g.tornFrom (vaPeer va) (p.op.getD k)
    let m := match w with
      | none => readMsg va n
      | some bs => writeMsg va bs
    if torn then s.chunkFail id k .gangTorn
    else
      match s.send (vaPeer va) (va / 256) 0 { m with tag := tagOf id, ctx := p.ctx, sys := p.sys } with
      | none => s.chunkFail id k .remoteError
      | some s => s.modOp id fun o => { o with st := .sent (tagOf id) }

/-- The next request for a range of `n` bytes that is being read. -/
def State.askNext (s : State) (k : Nat) (p : Prog) (va n : Nat) : State :=
  let got := match p.rd with
    | some (a, bs) => if a = va then bs else []
    | none => []
  let s := s.modProg k fun p => { p with rd := some (va, got) }
  s.ask k p (va + got.length) (unitOf (va + got.length) (n - got.length) false) none false

/-- What a program has read of a range, once it is all there. -/
def Prog.have (p : Prog) (va n : Nat) : Option (List Byte) :=
  p.rd.bind fun r => if r.1 = va && n ≤ r.2.length then some (r.2.take n) else none

/-- A bank performs a request of a program; bytes that are combined are rounded once there (R329). -/
def State.chunkAtBank (s : State) (id : Nat) (o : Op) : State :=
  match o.kind with
  | .chunk k va n w comb =>
    let a := va % 2 ^ 32
    let s := s.bankTouch o.ctx a n
    let put (s : State) (bs : List Byte) : State :=
      match s.spaceWrite .bank 0 o.ctx o.core a bs with
      | .ok s => s.chunkDone id k n none
      | .error e => s.chunkFail id k e.toCause
    let old := s.spaceRead .bank 0 o.ctx o.core a n {}
    match w, old with
    | none, .ok (s, bs) => s.chunkDone id k n (some bs)
    | none, .error e => s.chunkFail id k e.toCause
    | some bs, r =>
      if !comb then put s bs
      else
        match r with
        | .ok (s, was) =>
          let d := (s.prog? k).elim noDesc Prog.d
          put s (carryBytes (combineAll d.ety d.rop (elemsOf 8 was) (elemsOf 8 bs)))
        | .error e => s.chunkFail id k e.toCause
  | _ => s

/-- Whether a program's step may be executed: no request of its own is under way, what an earlier step wrote has been written, and
the bytes that it reads are there, or their walk is over (R317). One request at a time goes out for what is missing. -/
def State.chunkReady (s : State) (k : Nat) (p : Prog) (src : Option (Nat × Nat)) : State × Bool :=
  if s.ops.any fun e => !e.2.st.settled && e.2.ofProg k then (s, false)
  else
    match p.wr, src with
    | some w, _ =>
      let n := unitOf w.next w.left.length w.comb
      (s.ask k p w.next n (some (w.left.take n)) w.comb, false)
    | none, none => (s, true)
    | none, some (va, n) =>
      if s.apart va then (if (p.have va n).isSome then (s, true) else (s.askNext k p va n, false))
      else
        match s.gateAt p.ctx va n k 0 with
        | (s, true) => (s.meets p.ctx va n { r := true } p.sys (pairOf p.core), true)
        | r => r

/-- Whether a program's sequencer takes on work: its belay die serves and is not halted (R406, R407). -/
def State.sequences (s : State) (p : Prog) : Bool := s.dieServes p.die && !(s.die p.die).halted

/-- COLL_PROGRAM_START: the descriptor of a fired collective and the step words are read; the program starts once a place
and chunk space are free (R362, R365, R377). -/
def execCollProgramStart (s : State) : Out :=
  let k := s.sel.a
  match s.prog? k with
  | none => .next s
  | some p =>
    let ready := match p.op with
      | some id => (s.op? id).any fun o => !o.held && s.copyReady id o
      | none => true
    if p.started || p.failed.isSome || !ready || !s.sequences p then .next s
    else
      match p.unread with
      | some va =>
        if va % 64 ≠ 0 then .next (s.progFail k .misaligned false)
        else
          match s.gateAt p.ctx va 64 k 0 with
          | (s, false) => .next s
          | (s, true) =>
            match s.gread p.ctx va 64 { r := true } p.sys (pairOf p.core) with
            | .error .notPresent => .next s
            | .error (.cause c) => .next (s.progFail k c false)
            | .ok (s, bs) =>
              match CollDesc.read s.groupOf? bs with
              | .error c => .next (s.progFail k c false)
              | .ok d => .next (s.modProg k fun p => { p with d := d, p := List.replicate 4 d.rank, unread := none })
      | none =>
        if !p.read then
          if s.apart p.d.prog then
            let ws := dwordsOf ((p.rd.map Prod.snd).getD [])
            match (endAt ws 0 0), decide (4096 ≤ ws.length) with
            | some n, _ => .next (s.modProg k fun p => p.readEnd none (ws.take n))
            | none, true => .next (s.modProg k fun p => p.readEnd none (ws.take 4096))
            | none, false =>
              .next (if s.ops.any fun e => !e.2.st.settled && e.2.ofProg k then s else s.askNext k p p.d.prog 32768)
          else
            match s.gateAt p.ctx p.d.prog 32768 k 0 with
            | (s, false) => .next s
            | (s, true) =>
              match s.readWords p.ctx p.core p.sys 4096 p.d.prog 0 with
              | (_, _, some .notPresent) => .next s
              | (s, ws, e) => .next (s.modProg k fun p => p.readEnd (e.map XErr.toCause) ws)
        else if chunkBuffer < 4 * p.d.slot p.words then .next (s.progFail k .illegalOperand false)
        else
          let run := (s.progs.filter fun e => e.2.started && e.2.die = p.die).map Prod.snd
          let used := run.foldl (fun n q => n + 4 * q.d.slot q.words) 0
          if 16 ≤ run.length || chunkBuffer < used + 4 * p.d.slot p.words then .next s
          else
            .next (((s.touch p.ctx p.die).modProg k fun p => { p with started := true }).giveCredits k)

/-! ## Steps (R364 to R366) -/

/-- The index of a step. -/
def Prog.index (p : Prog) (w : StepW) : Nat :=
  let coef (b : BitVec 2) : Int := if b = 1 then 1 else if b = 3 then -1 else 0
  ((coef w.ia * p.d.rank + coef w.ib * p.l.getD w.ij.toNat 0 + w.k.toInt) % (p.d.n : Int)).toNat

/-- The address of a step's chunk at a base register. -/
def Prog.chunk (p : Prog) (w : StepW) (b : BitVec 2) : Nat :=
  (p.d.b.getD b.toNat 0 + p.d.csz * p.index w) % 2 ^ 64

/-- What a step reads: bytes of the own device's memory, or those that the program's requests have brought. -/
def State.collRead (s : State) (p : Prog) (va n : Nat) : Except XErr (State × List Byte) :=
  if s.apart va then
    match p.have va n with
    | some bs => .ok (s, bs)
    | none => .error .notPresent
  else s.gread p.ctx va n { r := true } p.sys (pairOf p.core)

/-- What a step writes: into the own device's memory, or by the program's requests before its next step. -/
def State.collWrite (s : State) (k : Nat) (p : Prog) (va : Nat) (bs : List Byte) (comb chunk : Bool) : Except XErr State :=
  if s.apart va then .ok (s.modProg k fun p => { p with wr := some ⟨va, va, bs, comb, chunk⟩ })
  else s.gwrite p.ctx va bs p.sys (pairOf p.core)

/-! ## Carry words (R209, R329) -/

/-- Whether a base register names carry words: it lies in shared bank memory, and a reducing step of the program writes there
(DEDUCED, log entry 71). -/
def Prog.carryWords (p : Prog) (b : BitVec 2) : Bool :=
  (bankAddr? (p.d.b.getD b.toNat 0)).isSome && p.words.any fun w => match decodeStep w with
    | .ok (.rrw x) => x.bd = b
    | _ => false

/-- Reads a chunk in carry form; elements of the element type are converted exactly. -/
def State.readCarry (s : State) (p : Prog) (b : BitVec 2) (va : Nat) : Except XErr (State × List Nat) :=
  if p.carryWords b then (s.collRead p va (8 * p.d.elems)).map fun r => (r.1, elemsOf 8 r.2)
  else (s.collRead p va p.d.csz).map fun r => (r.1, lineToCarry p.d.ety r.2)

/-- The bytes of a chunk in the form of a base register: carry words there, else converted once to the element type. -/
def Prog.chunkBytes (p : Prog) (b : BitVec 2) (es : List Nat) : List Byte :=
  if p.carryWords b then carryBytes es else lineFromCarry p.d.ety es

/-- Whether a step may write the bytes at an address now: the walk is over and the clocks run (R317, R403), and lines of `REPL` pages
wait for their holders first (R101). -/
def State.collGate (s : State) (k : Nat) (p : Prog) (va n : Nat) : State × Bool :=
  if s.apart va || n = 0 then (s, true)
  else
    match s.gateAt p.ctx va n k 0 with
    | (s, false) => (s, false)
    | (s, true) => (s.meets p.ctx va n { w := true } p.sys (pairOf p.core)).replGates k none p.ctx
        ((List.range ((va + n - 1) / 256 + 1 - va / 256)).map fun i => 256 * (va / 256 + i))

/-- What a step came to: it waits, fails with a cause, or the program goes on as it stands in the state. -/
inductive StepRes where
  | wait | fail (c : Cause) | on (s : State)

/-- An access of a step: a page that is not present is waited for. -/
def ofAccess {α : Type} (r : Except XErr α) (f : α → StepRes) : StepRes :=
  match r with
  | .ok x => f x
  | .error .notPresent => .wait
  | .error (.cause c) => .fail c

/-- The program goes on to the next step. -/
def State.nextStep (s : State) (k : Nat) : State := s.modProg k fun p => { p with ip := p.ip + 1, rd := none }

/-- Sends a chunk to a rank against a credit (R341, R344, R358, R365); to the own rank through the own buffer. -/
def State.sendChunk (s : State) (k : Nat) (p : Prog) (rank va : Nat) (bs : List Byte) : StepRes :=
  let peer := p.d.grp.getD rank 0
  let torn := match p.grid.bind s.grid? with
    | some g => g.tornFrom peer (p.op.getD k)
    | none => false
  if torn then .fail .gangTorn
  else
    let s := s.modProg k fun p => { p with credits := Map.put rank (Map.get p.credits rank 0 - 1) p.credits }
    if rank = p.d.rank then .on (s.modProg k fun p => { p with inbox := p.inbox ++ [(rank, bs)] })
    else
      let m : Msg := { dest := 0, kind := .cdata, flits := ceilDiv bs.length 64, ctx := p.ctx, sys := p.sys, addr := va
                       arg := k, data := bs }
      match s.send peer (va / 256) p.ip m with
      | none => .fail .remoteError
      | some s => .on (s.modProg k fun p => { p with unacked := p.unacked ++ [(rank, s.ctxNow p.ctx)] })

/-- Takes the oldest chunk of a rank; its slot becomes free for a later receiving step. -/
def State.takeChunk (s : State) (k : Nat) (p : Prog) (rank : Nat) : Option (State × List Byte) :=
  (p.inbox.find? fun c => c.1 = rank).map fun c =>
    (s.modProg k fun p => { p with inbox := p.inbox.erase c, due := p.due - 1 }, c.2)

/-- The elements of a chunk that came in carry form; what the sender did not send reads 0. -/
def CollDesc.carried (d : CollDesc) (bs : List Byte) : List Nat :=
  (List.range d.elems).map fun i => ofBytes ((bs.drop (8 * i)).take 8)

/-- A step that writes `n` bytes at an address goes on once it may. -/
def State.gated (s : State) (k : Nat) (p : Prog) (va n : Nat) (f : State → StepRes) : StepRes :=
  match s.collGate k p va n with
  | (s, true) => f s
  | (s, false) => .on s

/-- Writes a destination chunk: the first of a provisional program escapes as COPY (R377). -/
def State.putChunk (s : State) (k : Nat) (p : Prog) (va : Nat) (bs : List Byte) (comb : Bool := false) : StepRes :=
  ofAccess (s.collWrite k p va bs comb true) fun s =>
    let s := match p.op with
      | some id => if s.apart va then s else s.escape id ⟨.copy, clog2 p.d.csz, va⟩
      | none => s
    .on (s.nextStep k)

/-- Every earlier step has completed: all that was sent is acknowledged. -/
def Prog.complete (p : Prog) : Bool := p.unacked.isEmpty

def sendDo (w : StepW) (s : State) (k : Nat) (p : Prog) : StepRes :=
  let rank := p.rank w.pa
  if Map.get p.credits rank 0 = 0 then .wait
  else
    let va := p.chunk w w.bs
    let out := if w.cf || p.carryWords w.bs then
        (s.readCarry p w.bs va).map fun r => (r.1, if w.cf then carryBytes r.2 else lineFromCarry p.d.ety r.2)
      else s.collRead p va p.d.csz
    ofAccess out fun (s, bs) =>
      match s.sendChunk k p rank va bs with
      | .on s => .on (s.nextStep k)
      | r => r

def recvDo (w : StepW) (s : State) (k : Nat) (p : Prog) : StepRes :=
  if (s.takeChunk k p (p.rank w.pa)).isNone then .wait
  else s.gated k p (p.chunk w w.bd) p.d.csz fun s =>
  match s.takeChunk k p (p.rank w.pa) with
  | none => .wait
  | some (s, bs) =>
    let raw := (List.range p.d.csz).map fun i => bs.getD i 0
    s.putChunk k p (p.chunk w w.bd)
      (if w.cf then p.chunkBytes w.bd (p.d.carried bs)
       else if p.carryWords w.bd then carryBytes (lineToCarry p.d.ety raw) else raw)

/-- The source chunk of a step: its address and its bytes. -/
def Prog.source (p : Prog) (w : StepW) : Nat × Nat :=
  (p.chunk w w.bs, if p.carryWords w.bs then 8 * p.d.elems else p.d.csz)

/-- Whether a reducing step adds to the carry words of its own source chunk: they then count once, where they stand (R329). -/
def Prog.inPlace (p : Prog) (w : StepW) : Bool := p.carryWords w.bd && p.chunk w w.bs = p.chunk w w.bd

/-- Combines the next chunk with the source chunk: e := Combine(in, local). -/
def State.reduceChunk (s : State) (k : Nat) (p : Prog) (w : StepW) (f : State → List Nat → StepRes) : StepRes :=
  match s.takeChunk k p (p.rank w.pa) with
  | none => .wait
  | some (s, bs) =>
    ofAccess (s.readCarry p w.bs (p.chunk w w.bs)) fun (s, mine) =>
      f s (combineAll p.d.ety p.d.rop (p.d.carried bs) mine)

def rrsDo (w : StepW) (s : State) (k : Nat) (p : Prog) : StepRes :=
  if Map.get p.credits (p.rank w.pb) 0 = 0 then .wait
  else
    s.reduceChunk k p w fun s e =>
      match s.sendChunk k p (p.rank w.pb) (p.chunk w w.bs) (carryBytes e) with
      | .on s => .on (s.nextStep k)
      | r => r

def rrwDo (w : StepW) (s : State) (k : Nat) (p : Prog) : StepRes :=
  if (s.takeChunk k p (p.rank w.pa)).isNone then .wait
  else s.gated k p (p.chunk w w.bd) p.d.csz fun s =>
    if p.inPlace w then
      match s.takeChunk k p (p.rank w.pa) with
      | none => .wait
      | some (s, bs) => s.putChunk k p (p.chunk w w.bd) (carryBytes (p.d.carried bs)) true
    else s.reduceChunk k p w fun s e => s.putChunk k p (p.chunk w w.bd) (p.chunkBytes w.bd e) (p.carryWords w.bd)

def copyDo (w : StepW) (s : State) (k : Nat) (p : Prog) : StepRes :=
  s.gated k p (p.chunk w w.bd) p.d.csz fun s =>
    if p.carryWords w.bs || p.carryWords w.bd then
      ofAccess (s.readCarry p w.bs (p.chunk w w.bs)) fun (s, es) => s.putChunk k p (p.chunk w w.bd) (p.chunkBytes w.bd es)
    else ofAccess (s.collRead p (p.chunk w w.bs) p.d.csz) fun (s, bs) => s.putChunk k p (p.chunk w w.bd) bs

/-- The bits `FB` to `FB` + `NB` of a scoreboard. -/
def stepMask (w : StepW) : DWord := BitVec.ofNat 64 ((2 ^ (w.nb.toNat + 1) - 1) * 2 ^ w.fb.toNat)

def waitDo (w : StepW) (s : State) (k : Nat) (p : Prog) : StepRes :=
  let m := stepMask w
  let v := Map.get ((s.ctx? p.ctx).elim [] Ctx.scb) w.sb.toNat 0
  if (if w.md then p.complete else v &&& m = m) then .on (s.nextStep k) else .wait

def signalDo (w : StepW) (s : State) (k : Nat) (p : Prog) : StepRes :=
  if !p.complete then .wait
  else if w.md then
    let va := (((p.d.b.getD w.bd.toNat 0 : Nat) : Int) + 4 * w.k.toInt) % ((2 ^ 64 : Nat) : Int)
    s.gated k p va.toNat 4 fun s =>
      ofAccess (s.collWrite k p va.toNat (toBytes 4 w.value.toNat) false false) fun s => .on (s.nextStep k)
  else .on ((s.nextStep k).scbUpdate p.ctx w.sb.toNat fun v => v ||| stepMask w)

/-- A change of the program's own registers, or a program fault. -/
def ownStep (s : State) (k : Nat) (q : Option Prog) : StepRes :=
  match q with
  | some q => .on (s.modProg k fun _ => q)
  | none => .fail .remoteError

def endDo (s : State) (k : Nat) (p : Prog) : StepRes :=
  if p.complete then .on (s.progEnd k p .ok) else .wait

/-- Executes a step of the program that the slot names, once the bytes of its source are there; the credits that its place in the
program then calls for go out. -/
def inStep (src : Prog → Option (Nat × Nat)) (f : State → Nat → Prog → StepRes) (s : State) : Out :=
  match s.cur.bind Slot.prog with
  | none => .next s
  | some k =>
    match s.prog? k with
    | none => .next s
    | some p =>
      if !p.started || p.failed.isSome || !s.sequences p then .next s
      else
        match s.chunkReady k p (src p) with
        | (s, false) => .next s
        | (s, true) =>
          match f s k p with
          | .wait => .next s
          | .fail c => .next (s.progFail k c true)
          | .on s => .next (s.giveCredits k)

/-- A step without a source chunk. -/
def noSource (_ : Prog) : Option (Nat × Nat) := none

def execSend (w : StepW) (s : State) : Out := inStep (fun p => some (p.source w)) (sendDo w) s
def execRecv (w : StepW) (s : State) : Out := inStep noSource (recvDo w) s
def execRrs (w : StepW) (s : State) : Out := inStep (fun p => some (p.source w)) (rrsDo w) s
def execRrw (w : StepW) (s : State) : Out := inStep (fun p => if p.inPlace w then none else some (p.source w)) (rrwDo w) s
def execCopyStep (w : StepW) (s : State) : Out := inStep (fun p => some (p.source w)) (copyDo w) s
def execWaitStep (w : StepW) (s : State) : Out := inStep noSource (waitDo w) s
def execLoopStep (w : StepW) (s : State) : Out := inStep noSource (fun s k p => ownStep s k (p.loop w)) s
def execEndl (_ : StepW) (s : State) : Out := inStep noSource (fun s k p => ownStep s k p.endl) s
def execPeerStep (w : StepW) (s : State) : Out := inStep noSource (fun s k p => ownStep s k (p.peer w)) s
def execSignal (w : StepW) (s : State) : Out := inStep noSource (signalDo w) s
def execEndStep (_ : StepW) (s : State) : Out := inStep noSource endDo s

/-! ## Events of a program (R365, R367) -/

/-- PROGRAM_FAULT: the program stands at no step word that decodes, or an outcome still has to be delivered. -/
def execProgramFault (s : State) : Out :=
  let k := s.sel.a
  match s.prog? k with
  | none => .next s
  | some p =>
    match p.failed with
    | some c => .next (s.progEnd k p (.failed c))
    | none =>
      if !p.started then .next s
      else
        match (p.words[p.ip]?).map decodeStep with
        | none => .next (s.progFail k (p.short.getD .remoteError) true)
        | some (.error _) => .next (s.progFail k .remoteError true)
        | some (.ok _) => .next s

/-- CHUNK_TIMEOUT: a chunk that was sent has gone unacknowledged (R365). -/
def execChunkTimeout (s : State) : Out :=
  match s.prog? s.sel.a with
  | none => .next s
  | some p =>
    match p.unacked with
    | (_, at_) :: _ =>
      if at_ + Config.remoteTimeout ≤ s.ctxNow p.ctx then .next (s.progFail s.sel.a .remoteTimeout true) else .next s
    | [] => .next s

/-- The rank of a device in a program's group. -/
def Prog.rankOf (p : Prog) (peer : Nat) : Option Nat := if p.d.grp.contains peer then some (p.d.grp.idxOf peer) else none

/-- A verified chunk occupies a slot and is acknowledged. -/
def State.chunkIn (s : State) : State :=
  let k := s.sel.a
  match s.prog? k with
  | none => s
  | some p =>
    match p.rankOf s.sel.b with
    | none => s
    | some r =>
      if !p.started || p.failed.isSome || 4 ≤ p.inbox.length then s
      else (s.modProg k fun p => { p with inbox := p.inbox ++ [(r, s.sel.msg.data)] }).collCtl k p r 1

/-- CDATA: a chunk arrives on its link. -/
def execCdata (s : State) : Out := .next (s.flitIn .cdata)

/-- Verified collective control: a slot credit, an acknowledgement, ABORT, or a refusal with its cause; or a peer's request for a pulled
reduction (R356). -/
def State.collCtlIn (s : State) : State :=
  let k := s.sel.a
  if s.sel.coll = .reduce then s.reduceIn else
  match s.prog? k with
  | none => s
  | some p =>
    match p.rankOf s.sel.b with
    | none => s
    | some r =>
      match s.sel.coll with
      | .credit => (s.modProg k fun p => { p with credits := Map.put r (Map.get p.credits r 0 + 1) p.credits })
      | .ack => (s.modProg k fun p => match p.unacked.find? fun u => u.1 = r with
        | some u => { p with unacked := p.unacked.erase u }
        | none => p)
      | .abort => s.progFail k .remoteError false
      | .nack c => s.progFail k (Cause.ofCode c) true
      | .reduce => s

/-- CCTL: collective control arrives on its link. -/
def execCctl (s : State) : Out := .next (s.flitIn .cctl)

end Sys2Proof.Machine
end

