-- ==== Sys2Proof/Machine/Link.lean ====
section
/-!
DEFINITION. Sys2Proof/Machine/Link.lean: what arrives from peers and the host (R103, R308, R339 to R349, R359 to R361):
requests to serve, replies to own requests, sealed blocks, keys, planes.
-/

namespace Sys2Proof.Machine

/-! ## Serving requests (R308, R309, R343, R346) -/

/-- The home's V-die, on whose behalf a peer's access is made. -/
def homeDie (va : Nat) : Nat := vaHome va

/-- The cause that a peer's request is refused with (R308, R309). -/
def State.refusal (s : State) (va : Nat) (c : Cause) : Cause :=
  if !s.dieServes (vaHome va) then .remoteError else c.remote

/-- The own device's reading of an address that a peer names: what names another device is no address here. -/
def State.servedVa (s : State) (va : Nat) : Nat :=
  if vaF va && vaPeer va ≠ s.deviceIndex.toNat then 2 ^ 63 else va

/-- A reply to a peer. -/
def State.reply (s : State) (x : Serve) (kind : MsgKind) (va : Nat) (data : List Byte) : State :=
  (s.send x.src (va / 256) 0 { dest := 0, kind := kind, flits := max 1 (ceilDiv data.length 64), tag := x.tag, ctx := x.ctx
                               addr := va, arg := x.tag, data := data }).getD s

def State.replyNack (s : State) (x : Serve) (va : Nat) (c : Cause) : State :=
  s.reply x .nack va (toBytes 2 (s.refusal va c).code)

/-- The bytes of a sector that a mask names. -/
def sectorMask (mask : DWord) : List Nat := (List.range 64).filter fun i => mask.getLsbD i

/-- The bytes of a multicast line that its mask names: bit i governs byte i of each of the four payloads (DESIGN CHOICE, log
entry 27). -/
def lineMask (mask : DWord) : List Nat := (List.range 256).filter fun i => mask.getLsbD (i % 64)

/-- Writes the bytes named, by their offsets, of a sector or line. -/
def State.maskedWrite (s : State) (x : Serve) (va : Nat) (bytes : List Nat) (data : List Byte) : Except XErr State :=
  let runs := runsIn 64 bytes
  runs.foldl (fun r e => match r with
    | .ok s => s.gwrite x.ctx (va + e.1) ((List.range e.2).map fun i => data.getD (e.1 + i) 0) x.sys (homeDie va)
    | e => e) (.ok s)

/-- The line that four whole sectors make up: its address and bytes. -/
def wholeLine (todo : List (Nat × DWord × List Byte)) : Option (Nat × List Byte) :=
  let base := (todo.head?.elim 0 Prod.fst) / 256 * 256
  let part (k : Nat) : Option (List Byte) :=
    (todo.find? fun e => e.1 = base + 64 * k && e.2.1 = BitVec.allOnes 64 && e.2.2.length = 64).map fun e => e.2.2
  match part 0, part 1, part 2, part 3 with
  | some a, some b, some c, some d => some (base, a ++ b ++ c ++ d)
  | _, _, _, _ => none

/-- Writes sectors of a peer's write until one has to wait for its page. -/
def State.writeSectors (s : State) (x : Serve) (fail : Option Cause) :
    List (Nat × DWord × List Byte) → State × Option Cause × List (Nat × DWord × List Byte)
  | [] => (s, fail, [])
  | (va, m, d) :: rest =>
    match s.maskedWrite x (s.servedVa va) (sectorMask m) d with
    | .ok s => s.writeSectors x fail rest
    | .error (.cause c) => s.writeSectors x (some (fail.getD c)) rest
    | .error .notPresent => (s, fail, (va, m, d) :: rest)

/-- Whether a peer's access to an address may be made now: its walk is over (R317, under the number that stands for the sender and the
tag), and the clocks run that it needs (R403). -/
def State.serveGate (s : State) (x : Serve) (va n : Nat) : State × Bool :=
  s.gateAt x.ctx (s.servedVa va) n (2 ^ 64 + x.src * 65536 + x.tag) 0

/-- What a peer's request accesses in memory. -/
def ServeKind.at? (k : ServeKind) : Option (Nat × Nat) :=
  match k with
  | .read va n | .atomic va _ n _ => some (va, n)
  | .mcast va _ _ => some (va, 256)
  | .write va left _ _ => if left = 0 then some (va / 256 * 256, 256) else none
  | .spawn _ _ _ | .prepare _ _ => none

/-- Does as much of a peer's request as can be done, once it may access memory: with what is left of it, where it has to wait for a page
(R320) or for more of its sectors. -/
def State.serveNow (s : State) (x : Serve) : State × Option Serve :=
  match x.kind with
  | .read va n =>
    match s.gread x.ctx (s.servedVa va) n { r := true } x.sys (homeDie va) with
    | .ok (s, bs) => (s.reply x .rdata va bs, none)
    | .error (.cause c) => (s.replyNack x va c, none)
    | .error .notPresent => (s, some x)
  | .atomic va aop n v =>
    match s.gread x.ctx (s.servedVa va) n { r := true, w := true } x.sys (homeDie va) with
    | .error (.cause c) => (s.replyNack x va c, none)
    | .error .notPresent => (s, some x)
    | .ok (_, old) =>
      match s.replGate x.tag (some x.src) x.ctx (s.servedVa va) with
      | (s, false) => (s, some x)
      | (s, true) =>
        let m := ofBytes old
        let new := atomNew aop.toNat n m (ofBytes (v.take n)) (ofBytes (v.drop n))
        match s.gwrite x.ctx (s.servedVa va) (toBytes n new) x.sys (homeDie va) with
        | .error (.cause c) => (s.replyNack x va c, none)
        | .error .notPresent => (s, some x)
        | .ok s => (s.reply x .rdata va old, none)
  | .spawn core node words =>
    match s.binAccept core x.ctx node words with
    | some s => (s.reply x .ack 0 [], none)
    | none => (s, some x)
  | .prepare _ _ => (s, some x)
  | .mcast va mask line =>
    match s.replGate x.tag (some x.src) x.ctx (s.servedVa va) with
    | (s, false) => (s, some x)
    | (s, true) =>
      match s.maskedWrite x (s.servedVa va) (lineMask mask) line with
      | .ok s => (s.reply x .ack va [], none)
      | .error (.cause c) => (s.replyNack x va c, none)
      | .error .notPresent => (s, some x)
  | .write va left fail todo =>
    if left ≠ 0 then (s, some x)
    else
      let ended (s : State) (f : Option Cause) : State × Option Serve :=
        match f with
        | some c => (s.replyNack x va c, none)
        | none => (s.reply x .ack va [], none)
      match s.replGate x.tag (some x.src) x.ctx (s.servedVa (va / 256 * 256)) with
      | (s, false) => (s, some x)
      | (s, true) =>
        match wholeLine todo with
        | some (a, bs) =>
          match s.gwrite x.ctx (s.servedVa a) bs x.sys (homeDie va) with
          | .ok s => ended s none
          | .error (.cause c) => ended s (some c)
          | .error .notPresent => (s, some x)
        | none =>
          match s.writeSectors x fail todo with
          | (s, f, []) => ended s f
          | (s, f, rest) => (s, some { x with kind := .write va 0 f rest })

/-- A peer's request is served as far as it can be now. -/
def State.serveTry (s : State) (x : Serve) : State × Option Serve :=
  match x.kind.at? with
  | none => s.serveNow x
  | some (va, n) =>
    match s.serveGate x va n with
    | (s, true) => (s.meets x.ctx (s.servedVa va) n { r := true } x.sys (homeDie va)).serveNow x
    | (s, false) => (s, some x)

/-- A new request is served, or kept until it can be. -/
def State.serve (s : State) (x : Serve) : State :=
  match s.serveTry x with
  | (s, none) => s
  | (s, some y) => { s with serving := s.serving ++ [y] }

/-- Requests that waited are tried again, after a page has been serviced. -/
def State.serveAgain (s : State) : State :=
  s.serving.foldl (fun s x => s.serve x) { s with serving := [] }

/-- A spawn that waited on a full spill area: the operation `a`, the threads of group `a`, or the records of peers (R282, R346). -/
def execSpillWaitEnd (s : State) : Out :=
  if s.sel.flag then
    match s.group? s.sel.a with
    | none => .next s
    | some g =>
      let hit := (g.threads.filter fun t => t.2.wait = some (.stall .spill)).map Prod.fst
      .next (hit.foldl (fun s l => s.modThread s.sel.a l fun t => { t with wait := none }) s)
  else if s.sel.b = 1 then .next s.serveAgain
  else .next (s.acceptSpawn s.sel.a)

def State.serveOf (s : State) (k : ServeKind) : Serve := ⟨s.sel.a, s.sel.msg.tag, s.sel.msg.ctx, s.sel.msg.sys, k⟩

/-- A sector of the write in progress with this sender and tag; the one with `LAST` has the write performed, and four whole sectors as
one write of a line (R405). -/
def State.sectorIn (s : State) : State :=
  let m := s.sel.msg
  let hit (x : Serve) : Bool := x.src = s.sel.a && x.tag = m.tag && (match x.kind with
    | .write _ left _ _ => decide (left ≠ 0)
    | _ => false)
  match s.serving.find? hit with
  | none => s
  | some x =>
    match x.kind with
    | .write va left f todo =>
      let s := { s with serving := s.serving.erase x }
      s.serve { x with kind := .write va (if s.sel.hdr.any fun h => h.getLsbD 12 then 0 else left) f (todo ++ [(m.addr / 64 * 64, m.mask, m.data)]) }
    | _ => s

/-- A peer's record for a bin of this device; `addr` holds the core and the node (DESIGN CHOICE, log entry 27). Where bin and
spill area are full the record waits. -/
def State.spawnIn (s : State) : State :=
  let m := s.sel.msg
  let core := m.addr % 256
  let node := m.addr / 256 % 1024
  let words := wordsOf (m.data.length / 4) (ofBytes m.data)
  let x := s.serveOf (.spawn core node words)
  let ok := !s.nodeBad m.ctx node words.length && (s.ctx? m.ctx).any fun c => c.cfg.cores.contains core
  if !ok then s.reply x .nack 0 (toBytes 2 Cause.remoteError.code) else s.serve x

/-! ## Replies (R70, R72, R343, R350) -/

/-- Whether the operation waits for an answer of this peer. -/
def Op.asks (o : Op) (peer : Nat) : Bool :=
  match o.kind with
  | .load _ a _ _ | .store _ a _ | .atom _ a _ _ _ _ _ _ | .pref a _ | .poll _ _ a _ => vaPeer a = peer
  | .async _ _ => true
  | .rspawn t _ _ => (bits t 0 9).toNat = peer
  | .mcst m => m.poss.contains peer || (m.line.isEmpty && vaPeer m.src = peer)
  | .rload r => if r.moved then r.poss.headD 0 = peer else r.poss.contains peer
  | .chunk _ va _ _ _ => vaPeer va = peer
  | _ => false

/-- The operations that a tag of a peer answers. -/
def State.asking (s : State) (peer tag : Nat) : List (Nat × Op) :=
  s.ops.filter fun e => e.2.st = .sent tag && e.2.asks peer

/-- An atomic at a peer has been performed: its old value, if the reply brings it. -/
def State.atomDone (s : State) (id : Nat) (o : Op) (a n : Nat) (ret : Bool) (bs : List Byte) : State :=
  let s := ((s.escape id ⟨.atom, Nat.log2 n, a⟩).acquire o.core (if acquires o.ord then o.scope else .grp)).l1Drop o.core o.ctx a
  let s := if ret then s.deliver o (loadWords n false bs) else s
  let s := s.settle id .ok
  if ret then s.doneA id else s.doneB id

/-- A peer's data for an operation. -/
def State.dataFor (s : State) (id : Nat) (o : Op) (peer : Nat) (bs : List Byte) : State :=
  match o.kind with
  | .load _ _ n sgn => s.loaded id o n sgn bs
  | .pref a l1 =>
    let s := match (if l1 then s.l1Key o.core o.ctx a else none) with
      | some k => s.modCore o.core fun c => c.l1Put k s.rtime bs
      | none => s
    s.settleFlags id .ok
  | .atom _ a _ n _ ret _ _ => s.atomDone id o a n ret bs
  | .async _ _ => s.gathered id bs
  | .mcst m => if m.line.isEmpty then s.mcstLine id bs else s
  | .rload r => if r.moved then s.rloadEnd id o r (.ok bs) else s.rloadGot id peer bs
  | .chunk k _ n none _ => s.chunkDone id k n (some bs)
  | .poll _ l _ _ => s.polled id o l (some bs)
  | _ => s

/-- A peer's acknowledgement of an operation. -/
def State.ackFor (s : State) (id : Nat) (o : Op) (peer : Nat) : State :=
  match o.kind with
  | .store _ a bs => ((s.escape id ⟨.store, Nat.log2 bs.length, a⟩).settle id .ok).doneB id
  | .atom _ a _ n _ ret _ _ => if ret then s else s.atomDone id o a n ret []
  | .async _ _ => s.scattered id
  | .mcst m => if m.line.isEmpty then s else s.mcstAck id peer
  | .rspawn t _ ws => (s.escape id ⟨.spawn, ws.length, (bits t 9 8).toNat⟩).settleFlags id .ok
  | .chunk k _ n (some _) _ => s.chunkDone id k n none
  | _ => s

/-- A refusal, or no answer. -/
def State.nackFor (s : State) (id : Nat) (o : Op) (peer : Nat) (c : Cause) : State :=
  match o.kind with
  | .load _ _ _ _ | .store _ _ _ | .atom _ _ _ _ _ _ _ _ | .pref _ _ | .rspawn _ _ _ => s.fail id c
  | .async _ _ => s.asyncEnd id (.failed c)
  | .mcst m => if m.line.isEmpty then s.conclude id (.failed c) else s.mcstNack id peer c
  | .rload r => if r.moved then s.rloadEnd id o r (.error c) else s.rloadNack id peer c
  | .chunk k _ _ _ _ => s.chunkFail id k c
  | .poll _ l _ _ => s.polled id o l none
  | _ => s

/-- Data for the operations of a tag. -/
def State.dataIn (s : State) : State :=
  let x := s.sel
  ((s.asking x.a x.msg.tag).foldl (fun s e => s.dataFor e.1 e.2 x.a x.msg.data) s).flushes

/-- The operations of a tag settle; stores merged into one entry settle together (R350). -/
def State.ackIn (s : State) : State :=
  let x := s.sel
  ((s.asking x.a x.b).foldl (fun s e => s.ackFor e.1 e.2 x.a) s).flushes

/-- The operations of a tag fail with the cause. -/
def State.nackIn (s : State) : State :=
  let x := s.sel
  ((s.asking x.a x.b).foldl (fun s e => s.nackFor e.1 e.2 x.a (Cause.ofCode x.c)) s).flushes

/-- Whether an operation that has not been sent yet is one for a peer. -/
def State.forPeer (s : State) (o : Op) : Bool :=
  match o.kind with
  | .async a j =>
    !a.wrote && a.buf.isEmpty && (match j with
      | .copy ssp dsp src dst _ => s.farAway ssp src || s.farAway dsp dst
      | .tile _ _ _ _ _ _ => s.farAway .global j.tx.base
      | .bank _ _ _ _ _ _ | .restripe _ _ _ _ _ => false)
  | .rspawn _ _ _ | .rload _ => true
  | .mcst m => m.sent.isEmpty
  | _ => (o.global?).any fun a => vaOk a.1 && (s.remote? a.1).isSome

/-- REMOTE_TIMEOUT: an operation has gone unanswered for 50,000 ticks after its issue, those under a time-stop left out, also one that
has been held or has waited all the time and never takes effect (R70); a `TFENCE` waits as long for the walkers of peers (R168). -/
def execRemoteTimeout (s : State) : Out :=
  let id := s.sel.a
  match s.op? id with
  | none => .next s
  | some o =>
    match o.st with
    | .sent _ =>
      if !s.unanswered o then .next s
      else
        match o.kind with
        | .rload r => .next (s.rloadEnd id o r (.error .remoteTimeout))
        | .mcst m => if m.line.isEmpty then .next (s.conclude id (.failed .remoteTimeout)) else .next s
        | _ => .next (s.nackFor id o 0 .remoteTimeout).flushes
    | .waiting =>
      match o.kind with
      | .tfence acks => if !o.held && acks.any (fun w => decide (16 ≤ w)) && s.unanswered o then .next (s.fail id .remoteTimeout) else .next s
      | .mcst _ => .next (if s.forPeer o && s.unanswered o then s.conclude id (.failed .remoteTimeout) else s)
      | .async _ _ => .next (if s.forPeer o && s.unanswered o then s.asyncEnd id (.failed .remoteTimeout) else s)
      | _ => .next (if s.forPeer o && s.unanswered o then s.fail id .remoteTimeout else s)
    | _ => .next s

/-! ## Links: planes, blocks, retries (R339 to R348) -/

/-- Messages that go over to another plane: not link control, which belongs to its link. -/
def Msg.moves (m : Msg) : Bool :=
  match m.kind with
  | .preamble | .integ | .grant | .linkctl | .host | .measurements | .rma | .uetDone => false
  | _ => true

/-- Sends messages again on the plane that their lines have now, each on the channel that it had and in their order; one that no
plane reaches is lost (R341, R344, R348). -/
def State.resend (s : State) (ms : List Msg) : State :=
  (ms.filter Msg.moves).foldl (fun s m => match s.planeFor m.dest m.line with
    | some p => s.enqueue m.dest p { m with hdrs := [] }
    | none => s) s

/-- What waits on a link is taken off it. -/
def State.unqueue (s : State) (key : Nat) : State := s.modLink key fun l => { l with txq := [], blk := 0 }

def State.modLinkOf (s : State) (f : Link → Link) : State := s.modLink (linkKey s.sel.a s.sel.b) f

/-- PREAMBLE: a detector that was dark has woken; the flit is discarded (R340, R343). -/
def execPreamble (s : State) : Out := .next s

/-- The flits of a message at or after a `SEQ`, sent again under the sender's present key bank; none where it has none (R348, R349). -/
def Msg.flitsFrom (m : Msg) (l : Link) (seq : Nat) : Option Msg :=
  let back := (l.sent + 65536 - seq) % 65536
  let hs := m.hdrs.filter fun h => decide ((l.sent + 65536 - hdrAt h 16 16) % 65536 ≤ back) && hdrAt h 16 16 ≠ l.sent % 65536
  let gen (h : BitVec 128) : BitVec 128 := h / 2#128 * 2#128 + (if l.genTx then 1 else 0)
  if hs.isEmpty || m.last + back < l.sent then none else some { m with hdrs := hs.map gen }

/-- What a link has sent at or after a `SEQ` of the last 2^15 flits, once each: of whole messages and of one that waits for
credits. -/
def State.sentFrom (s : State) (peer plane seq : Nat) : List Msg :=
  let l := s.link (linkKey peer plane)
  (((s.outbox.filter fun m => m.dest = peer && m.plane = plane && m.kind ≠ .preamble && m.kind ≠ .integ) ++ l.txq).filterMap
    fun m => m.flitsFrom l seq).eraseDups

/-- The INTEG flits of a retransmission of `n` flits from a `SEQ`: fresh counters from `ctr` on. -/
def Wire.seals (w : Wire) (gen : Bool) (seq ctr n : Nat) : List Msg :=
  (List.range (ceilDiv n 16)).map fun i => w.bare .integ gen ((seq + 16 * i) % 65536) (w.iv (ctr + i)).toNat

/-- A retry request (R348): the blocks from a `SEQ` on are sent again under fresh counters, behind a PREAMBLE; after four in a row
for one block the link has failed and its traffic moves to the next plane. -/
def State.retry (s : State) (peer plane seq : Nat) : State :=
  let key := linkKey peer plane
  let l := s.link key
  let ms := s.sentFrom peer plane seq
  let k := if l.retries ≠ 0 && l.retrySeq = seq then l.retries + 1 else 1
  if 4 ≤ k then
    ((s.modLink key fun l => { l with bad := true, retries := 0 }).unqueue key).resend
      ((ms.filter fun m => !l.txq.any fun q => q.tag = m.tag && q.kind = m.kind && q.line = m.line) ++ l.txq)
  else
    let n := ms.foldl (fun n m => n + m.hdrs.length) 0
    let w := s.wire peer plane
    { s.modLink key fun l => { l with ctr := l.ctr + ceilDiv n 16, blk := 0, dark := true, retries := k, retrySeq := seq } with
      outbox := s.outbox ++ w.bare .preamble l.genTx 0 0 :: ms ++ w.seals l.genTx seq l.ctr n }

/-- Shared credits that the receive port of a link could still grant (R345). -/
def State.grantRoom (s : State) (peer plane : Nat) : Nat :=
  448 - (s.portLinks peer plane).foldl (fun n e => n + e.2.given) 0

/-- The receiver has freed flits of a message: their credits go back to the sender, and one more shared one where the pool has
room (R345; DESIGN CHOICE, log entry 32). -/
def State.giveBack (s : State) (peer plane : Nat) (m : RxMsg) : State :=
  let ch := m.x.hdr.elim 63 fun h => hdrAt h 1 6
  if 62 ≤ ch then s
  else
    let more := min 1 (s.grantRoom peer plane)
    (s.modLink (linkKey peer plane) fun l => { l with given := l.given + more }).enqueue peer plane
      { dest := peer, kind := .grant, chan := 62, arg := ch + 64 * (m.n + more) }

/-- LINKCTL (R343, R348, R349, R408, R412): attestation brings the link up; a retry request; a trigger fires the snapshot; keys, which only attested devices exchange. -/
def State.linkctlIn (s : State) : State :=
  let x := s.sel
  match x.link with
  | .attested => if s.boot.st = .running then (s.modLinkOf fun l => { l with up := true, bad := false, rxBad := false, fails := 0 }) else s
  | .retry seq => s.retry x.a x.b seq
  | .trigger => s.trigger
  | .newKey => s.modLinkOf fun l => if l.up then { l with rxNew := true } else l
  | .keyInstalled => s.modLinkOf fun l => if l.up && l.rekey = 1 then { l with rekey := 2 } else l

/-- Whether an answer is for an operation of a core whose die pair relocks: it waits at the clock crossing (R403). -/
def State.crossing (s : State) (m : RxMsg) : Bool :=
  let tag := match m.kind with
    | .rdata => some m.x.msg.tag
    | .ack | .nack => some m.x.b
    | _ => none
  tag.any fun t => (s.asking m.x.a t).any fun e => (s.pair (pairOf e.2.core)).relock.isSome

/-- What a verified message does at the device. -/
def State.receive (s : State) (m : RxMsg) : State :=
  let s := { s with sel := m.x }
  let x := m.x
  if s.crossing m then { s with fifo := s.fifo ++ [m] }
  else match m.kind with
  | .read => s.serve (s.serveOf (.read x.msg.addr x.msg.n))
  | .write => s.serve (s.serveOf (.write x.msg.addr (if x.hdr.any fun h => h.getLsbD 12 then 0 else 1) none []))
  | .wdata => s.sectorIn
  | .atomic => s.serve (s.serveOf (.atomic x.msg.addr x.msg.aop (2 ^ x.msg.w) x.msg.data))
  | .mcast => s.serve (s.serveOf (.mcast (x.msg.addr / 256 * 256) x.msg.mask x.msg.data))
  | .spawn => s.spawnIn
  | .rdata => s.dataIn
  | .ack => s.ackIn
  | .nack => s.nackIn
  | .cdata => s.chunkIn
  | .cctl => s.collCtlIn
  | .gang => s.gangMsgIn m.code
  | .grant =>
    (s.modLink (linkKey x.a x.plane) fun l => { l with credits := Map.put x.c (l.credit x.c + x.d) l.credits }).pump x.a x.plane
  | .linkctl => s.linkctlIn
  | .preamble | .integ | .host | .measurements | .rma | .uetDone => s

/-- A READ, WRITE, WDATA, ATOMIC, MCAST or SPAWN of a peer arrives: it is served once its block has been verified. -/
def execRead (s : State) : Out := .next (s.flitIn .read)
def execWrite (s : State) : Out := .next (s.flitIn .write)
def execWdata (s : State) : Out := .next (s.flitIn .wdata)
def execAtomic (s : State) : Out := .next (s.flitIn .atomic)
def execMcast (s : State) : Out := .next (s.flitIn .mcast)
def execSpawnFlit (s : State) : Out := .next (s.flitIn .spawn)

/-- RDATA, ACK or NACK arrives. -/
def execRdata (s : State) : Out := .next (s.flitIn .rdata)
def execAck (s : State) : Out := .next (s.flitIn .ack)
def execNack (s : State) : Out := .next (s.flitIn .nack)

/-- GRANT arrives (R345). -/
def execGrant (s : State) : Out := .next (s.flitIn .grant)

/-- LINKCTL arrives. On a link that has not been attested it is no part of a sealed block and acts at once (DESIGN CHOICE, log
entry 27: there is no key yet). -/
def execLinkctl (s : State) : Out :=
  match s.sel.hdr with
  | none => .next s
  | some h =>
    if !s.belayServes then .next s
    else if (s.link (linkKey (hdrAt h 48 9) s.sel.plane)).up then .next (s.takeFlit .linkctl 0 h)
    else .next { ({ s with sel := selOfFlit s.sel .linkctl 0 h } : State).linkctlIn with sel := s.sel }

/-- INTEG: a sealed block ends, with a tag that matches (`flag`) or not. A block that verifies, with a key the receiver holds and
without a gap, is released: its flits are freed and its messages act, in their order. Another block is discarded and asked for again from its first `SEQ`; after four in a row the link has
failed (R347 to R349). -/
def execInteg (s : State) : Out :=
  match s.sel.hdr with
  | none => .next s
  | some h =>
    let peer := hdrAt h 48 9
    let plane := s.sel.plane
    let key := linkKey peer plane
    let l := s.link key
    let gen := if l.rxFlits = 0 then h.getLsbD 0 else l.rxGen
    let ok := s.sel.flag && !l.rxGap && (gen == l.genRx || l.rxIdle)
    if !s.belayServes then .next s
    else if !l.up || l.rxBad then .next (s.modLink key fun l => { l with errs := l.errs + 1 })
    else if ok then
      let first := gen != l.genRx
      let s' := s.modLink key fun l =>
        { l with
          fails := 0, rxFirst := l.rxSeq, rxBlock := [], rxFlits := 0, rxKept := l.rxPart
          genRx := if first && l.rxIdle then gen else l.genRx }
      let s' := l.rxBlock.foldl (fun s m =>
        let s := s.giveBack peer plane m
        if m.whole then s.receive m else s) s'
      .next { s' with sel := s.sel }
    else
      let s' := s.modLink key fun l =>
        { l with fails := l.fails + 1, rxBad := decide (4 ≤ l.fails + 1), rxSeq := l.rxFirst, rxBlock := [], rxFlits := 0, rxGap := false
                 rxPart := l.rxKept }
      .next (s'.sendCtl peer plane 1 l.rxFirst)

/-- SEALED_BLOCK_CLOSE: a block of fewer than sixteen flits is closed 64 ns after its first one; what has waited for a credit that the
close brings back leaves, or the light goes off (R340, R347). -/
def execSealedBlockClose (s : State) : Out :=
  let l := s.link (linkKey s.sel.a s.sel.b)
  let (l', out) := l.seal (s.wire s.sel.a s.sel.b)
  .next (if l.blk = 0 || decide (s.rtime < l.blkT + 64) then s
    else ({ s.modLinkOf fun _ => { l' with dark := true } with outbox := s.outbox ++ out } : State).pump s.sel.a s.sel.b)

/-- REKEY_START: the sender sends a new key, not before the receiver has erased the old one (R349). -/
def execRekeyStart (s : State) : Out :=
  let l := s.link (linkKey s.sel.a s.sel.b)
  if l.up && l.rekey = 0 && l.rekeyTill ≤ s.rtime then
    .next ((s.modLinkOf fun l => { l with rekey := 1 }).sendCtl s.sel.a s.sel.b 2 0)
  else .next s

/-- KEY_INSTALL: the receiver installs a new key in its idle bank and confirms; the sender installs its own after that. -/
def execKeyInstall (s : State) : Out :=
  let l := s.link (linkKey s.sel.a s.sel.b)
  if l.rxNew && !l.rxIdle then
    .next ((s.modLinkOf fun l => { l with rxNew := false, rxIdle := true }).sendCtl s.sel.a s.sel.b 3 0)
  else if l.rekey = 2 then .next (s.modLinkOf fun l => { l with rekey := 3, txIdle := true })
  else .next s

/-- GEN_FLIP: at a block boundary the sender goes over to the new bank, whose counter starts at 0, and erases the old
one (R347, R349). The receiver's hold ends 350 ns and twice the window later. -/
def execGenFlip (s : State) : Out :=
  let l := s.link (linkKey s.sel.a s.sel.b)
  if l.rekey = 3 && l.blk = 0 then
    .next ((s.modLinkOf fun l =>
      { l with genTx := !l.genTx, ctr := 0, txIdle := false, rekey := 0, rekeyTill := s.rtime + 350 + holdTicks }).pump s.sel.a
        s.sel.b)
  else .next s

/-- OLD_KEY_ERASE: the hold is over and the receiver erases the old bank. -/
def execOldKeyErase (s : State) : Out :=
  let l := s.link (linkKey s.sel.a s.sel.b)
  if l.rxIdle && l.heldTill ≠ 0 && l.heldTill ≤ s.rtime then
    .next (s.modLinkOf fun l => { l with rxIdle := false, heldTill := 0 })
  else .next s

/-- Messages that have not begun to leave choose their plane anew when planes come or go (R341). -/
def State.rechoose (s : State) (change : State → State) : State :=
  let idle (m : Msg) : Bool := m.moves && m.hdrs.isEmpty
  let ms := s.links.flatMap fun e => e.2.txq.filter idle
  let s := { s with links := Map.modAll (fun _ l => { l with txq := l.txq.filter fun m => !idle m }) s.links }
  (change s).resend ms

/-- Whether a message has a flit in its link's open block. -/
def State.inOpenBlock (s : State) (m : Msg) : Bool :=
  let l := s.link (linkKey m.dest m.plane)
  l.blk ≠ 0 && !m.hdrs.isEmpty && decide (l.sent ≤ m.last + l.blk)

/-- PLANE_LOSS: what the plane had not delivered is sent again on the others, before what still waited. What was in an open block had
not been delivered; which of the other messages in the outbox had not, only the outside knows, and the event brings their places there
(R341, R361). -/
def execPlaneLoss (s : State) : Out :=
  let p := s.sel.a
  if 8 ≤ p || s.planesOff.contains p then .next s
  else
    let named := s.sel.words.map BitVec.toNat
    let lost := ((List.range s.outbox.length).zip s.outbox).filter fun e =>
      e.2.plane = p && !e.2.hdrs.isEmpty && (named.contains e.1 || s.inOpenBlock e.2)
    let mine := s.links.filter fun e => e.1 % 8 = p
    .next (s.rechoose fun t =>
      let t := mine.foldl (fun t e => t.unqueue e.1) { t with planesOff := p :: t.planesOff }
      t.resend (lost.map Prod.snd ++ mine.flatMap fun e => e.2.txq.filter fun m => !m.hdrs.isEmpty))

def execPlaneOnline (s : State) : Out := .next (s.rechoose fun t => { t with planesOff := t.planesOff.filter (· ≠ s.sel.a) })

/-! ## The host's RMA and the second tier (R103, R359, R360) -/

/-- The belay die of an Ultra Ethernet port, 0 to 7, if it serves (R1, R359, R406). -/
def State.uetDie (s : State) (port : Nat) : Option Nat :=
  if port < 8 && s.dieServes (8 + port / 4) then some (8 + port / 4) else none

/-- UET_RMA_WRITE: a packet on port `c` for a physical address inside a window that system software has opened: a write of its
bytes, after which the completion is issued (R103), or, with `flag`, a read of `d` bytes. A packet that asks for RUDI (`sys`) is
dropped (R359). -/
def execUetRmaWrite (s : State) : Out :=
  let x := s.sel
  let n := if x.flag then x.d else x.msg.data.length
  let open_ := (s.ctx? x.a).any fun c => c.cfg.rma.any fun w => w.base ≤ x.b && x.b + n ≤ w.base + w.len
  match s.uetDie x.c with
  | none => .next s
  | some d =>
    if !open_ || x.msg.sys then .next s
    else if !physExists x.b n then .fault (.noSuchMemory x.b)
    else
      let t := (s.touch x.a d).touch x.a (dieOfPhys x.b)
      let t := if x.flag then t else (t.writePhys x.b x.msg.data).clearPoison x.b n
      let m : Msg :=
        { dest := 512, kind := if x.flag then .rma else .uetDone, ctx := x.a, addr := x.b, arg := n
          data := if x.flag then s.readPhys x.b n else [] }
      .next { t with outbox := t.outbox ++ [m] }

/-- CXL_EXPANDER_REMOVAL: every access to the port's pages fails from now on, also to lines of them that caches held (R360). -/
def execCxlExpanderRemoval (s : State) : Out :=
  let p := s.sel.a
  let gone (n : Nat) : Bool := decide (cxlBase p ≤ 256 * n) && decide (256 * n < cxlBase (p + 1))
  if p < 4 && !s.cxlOut.contains p then
    .next { s with
      cxlOut := p :: s.cxlOut
      near := Map.modAll (fun _ l => l.filter fun n => !gone n) s.near
      cores := Map.modAll (fun _ c => { c with l1 := c.l1.filter fun e => !gone e.1 }) s.cores }
  else .next s

end Sys2Proof.Machine
end

