-- ==== Sys2Proof/Machine/Matrix.lean ====
section
/-!
DEFINITION. Sys2Proof/Machine/Matrix.lean: the matrix engine and the MTX page (R218 to R248): anchors and signatures,
planes, tiles, and what each anchored operation does when the engine performs it.
-/

namespace Sys2Proof.Machine

/-! ## Formats (R220, R236, R240) -/

/-- k rounded up to 2, 4 or 8. -/
def roundK (k : Nat) : Nat := if k ≤ 2 then 2 else if k ≤ 4 then 4 else 8

/-- The pass depth K of a weight format; 0 for a format that is none (R220). -/
def passK (fmt rpl : Nat) : Nat :=
  match fmt with
  | 1 | 2 => 128
  | 3 | 4 => 256
  | 5 | 6 => 512
  | 7 => 2048 / roundK rpl
  | _ => 0

/-- The pairings of weights and activations (R236). -/
def pairs (w a : Nat) : Bool :=
  match w with
  | 1 => a == 1 | 2 => a == 2 | 3 | 4 => a == 3 || a == 4 | 5 => a == 5 | 6 => a == 6 | 7 => a == 8 | _ => false

/-- The C operand of a signature, if the instruction has one. -/
def Sig.c (g : Sig) : Nat := (g.vals.getD 2 0).toNat
def Sig.a (g : Sig) : Nat := (g.vals.getD 0 0).toNat
def Sig.b (g : Sig) : Word := g.vals.getD 1 0

/-- The tile an anchored operation acts on (R219). -/
def Sig.tile (g : Sig) : Option Nat :=
  match g.ins with
  | .mma _ x _ _ _ => some x.tile.toNat
  | .mzero _ _ a => some a.toNat
  | .mrd _ x _ _ _ | .mwr _ x _ _ _ => some x.tile.toNat
  | .msts _ x _ _ _ => some x.tile.toNat
  | .rstat _ x _ _ _ => some x.tile.toNat
  | .mscale _ x _ _ _ => some x.tile.toNat
  | _ => none

def Sig.isMldw (g : Sig) : Bool := match g.ins with | .mldw _ _ _ _ => true | _ => false
def Sig.isMma (g : Sig) : Bool := match g.ins with | .mma _ _ _ _ _ => true | _ => false
/-- An operation that exchanges the planes. -/
def Sig.swaps (g : Sig) : Bool :=
  match g.ins with
  | .mswap _ _ => true
  | .mldw _ x _ _ => x.swp
  | _ => false
/-- An operation that takes data from a tile and leaves it. -/
def Sig.takes (g : Sig) : Bool :=
  match g.ins with
  | .mrd _ _ _ _ _ | .msts _ _ _ _ _ | .rstat _ _ _ _ _ => true
  | _ => false

/-- The tensor identifier an operation uses. -/
def Sig.txi (g : Sig) : Option Nat :=
  match g.ins with
  | .mldw _ x _ _ => some x.txi.toNat
  | .mma _ x _ _ _ => some x.txa.toNat
  | _ => none

/-- First row and count of an operation on rows, with the bits that must be zero (R228, R230). -/
def Sig.rows (g : Sig) : Option (Nat × Nat × Bool) :=
  let n := (bits g.b 0 8).toNat
  let f := (bits g.b 8 7).toNat
  match g.ins with
  | .mma _ x _ _ _ => some (x.row.toNat, n, bits g.b 8 24 = 0)
  | .mrd _ x _ _ _ | .mwr _ x _ _ _ => some (x.row.toNat, n, bits g.b 8 24 = 0)
  | .msts _ _ _ _ _ | .rstat _ _ _ _ _ | .mscale _ _ _ _ _ => some (f, n, bits g.b 15 17 = 0)
  | _ => none

/-- Row pitch of the image of `MRD` and `MWR`, of `MSTS`. -/
def ewPitch (x : EwX) : Nat := pad16 (8 * (x.ncm.toNat + 1))
def stsPitch (x : MstsX) : Nat := pad16 (rowBytes x.dty.toNat 0 128)

/-- Scratchpad ranges that an operation touches: address and bytes (R230). -/
def Sig.ranges (g : Sig) (ent : List Word) : List (Nat × Nat) :=
  let n := (bits g.b 0 8).toNat
  match g.ins with
  | .mldw _ _ _ _ =>
    match Tx.read ent with
    | some t => [(g.a, t.image)]
    | none => []
  | .mma _ _ _ _ _ =>
    match Tx.read ent with
    | some t => (g.a, n * t.pitch) :: (if t.scl then [(g.a + t.tr * t.pitch, n * ceilDiv t.tc 128)] else [])
    | none => []
  | .mrd _ x _ _ _ | .mwr _ x _ _ _ => [(g.a, n * ewPitch x)]
  | .msts _ x _ _ _ => (g.a, n * stsPitch x) :: (if x.c = .nul then [] else [(g.c, 512)])
  | .rstat _ x _ _ _ => [(g.a, (if x.mode = 3 then 8 else 4) * n)]
  | .mscale _ x _ a _ => (if a = .nul then [] else [(g.a, 4 * n)]) ++ (if x.c = .nul then [] else [(g.c, 512)])
  | _ => []

/-- Addresses that must be multiples of 16. -/
def Sig.aligned (g : Sig) : List Nat :=
  match g.ins with
  | .mldw _ _ _ _ | .mma _ _ _ _ _ | .mrd _ _ _ _ _ | .mwr _ _ _ _ _ | .rstat _ _ _ _ _ => [g.a]
  | .msts _ x _ _ _ => g.a :: (if x.c = .nul then [] else [g.c])
  | .mscale _ x _ a _ => (if a = .nul then [] else [g.a]) ++ (if x.c = .nul then [] else [g.c])
  | _ => []

/-! ## Checks (R230) -/

/-- The row and column checks. -/
def Sig.rowsBad (g : Sig) : Bool :=
  let rows := match g.rows with
    | some (f, n, zero) => n = 0 || 128 < n || !zero || 128 < f + n
    | none => false
  let cols := match g.ins with
    | .mrd _ x _ _ _ | .mwr _ x _ _ _ => 128 < x.col.toNat + x.ncm.toNat + 1
    | _ => false
  rows || cols

/-- The tensor-entry and plane checks, against the planes that the operations issued so far will leave. -/
def Sig.entryBad (g : Sig) (ent : List Word) (act : Option Plane) : Bool :=
  match g.ins with
  | .mldw _ _ _ _ =>
    match Tx.read ent with
    | none => true
    | some t =>
      let k := passK t.fmt t.rpl
      k = 0 || (if t.trn then 128 < t.tr || k < t.tc else k < t.tr || 128 < t.tc)
  | .mma _ _ _ _ _ =>
    match Tx.read ent, act with
    | some t, some w => !pairs w.fmt t.fmt || passK w.fmt w.rpl < t.tc || t.tr < (bits g.b 0 8).toNat
    | _, _ => true
  | _ => false

/-- The words of the entry that a signature names. -/
def State.sigEnt (s : State) (ctx : Nat) (g : Sig) : List Word :=
  match g.txi with
  | some i => s.txWords ctx i
  | none => []

/-- The checks of one signature: `ILLEGAL_OPERAND`, `MISALIGNED`, `SCRATCH_RANGE`. -/
def State.sigBad (s : State) (tid : Nat) (g : Sig) : Option (Cause × Nat) :=
  match s.team? tid with
  | none => some (.illegalOperand, 0)
  | some t =>
    let ent := s.sigEnt t.ctx g
    if g.rowsBad || g.entryBad ent t.nextActive then some (.illegalOperand, 0)
    else
      match g.aligned.find? fun a => a % 16 ≠ 0 with
      | some a => some (.misaligned, a)
      | none =>
        match (g.ranges ent).find? fun r => (s.ownScratch? tid r.1 r.2).isNone with
        | some r => some (.scratchRange, r.1)
        | none => none

/-! ## Signing (R225) -/

/-- The record that an `MLDW` will leave in a plane. -/
def planeOf (ent : List Word) : Option Plane :=
  (Tx.read ent).map fun t => { fmt := t.fmt, rpl := t.rpl, scl := t.scl, sbase := t.sbase }

/-- The round's operation issues: the engine accepts it, every signature settles, and where it reads no scratchpad byte
its operands are released (R231); a failing check fails every signature instead (R230). -/
def State.engIssue (s : State) (tid core : Nat) (g : Sig) (sigs : List Nat) : State :=
  match s.team? tid with
  | none => s
  | some t =>
    let ent := s.sigEnt t.ctx g
    if g.entryBad ent t.nextActive then sigs.foldl (fun s i => s.fail i .anchorMismatch) s
    else
      let (k, s) := s.fresh
      let s := s.modCore core fun c => { c with eng := Map.put k { team := tid, sig := g, ent := ent, sigs := sigs } c.eng }
      let s := s.modTeam tid fun t =>
        let t := if g.isMldw then { t with nextShadow := planeOf ent } else t
        if g.swaps then { t with nextActive := t.nextShadow, nextShadow := t.nextActive } else t
      let s := sigs.foldl (fun s i => s.settle i .ok) s
      let reads : Bool := match g.ins with
        | .mldw _ _ _ _ | .mma _ _ _ _ _ | .mwr _ _ _ _ _ => true
        | .msts _ x _ _ _ => decide (x.c ≠ .nul)
        | .mscale _ _ _ _ _ => true
        | _ => false
      if reads then s else sigs.foldl (fun s i => s.doneB i) s

/-- Whether the next signature of an anchor would issue an operation that the engine has no place for (R218). -/
def State.engFull (s : State) (tid an : Nat) : Bool :=
  match s.team? tid with
  | none => false
  | some t =>
    let a := Map.get t.anchors an {}
    a.n ≠ 0 && decide (a.n ≤ a.c + 1) && !a.bad && decide (32 ≤ (s.core t.core).eng.length)

/-- A signature that is not held any longer reaches its anchor. -/
def State.sign (s : State) (id : Nat) : State :=
  match s.op? id with
  | none => s
  | some o =>
    match o.kind with
    | .sign an g =>
      let tid := s.teamOf o.gid
      match s.team? tid with
      | none => s.fail id .anchorMismatch
      | some t =>
        if s.engFull tid an then s.modOp id fun o => { o with held := true }
        else
          let a := Map.get t.anchors an {}
          if a.n = 0 then s.fail id .anchorMismatch
          else
            let s := s.modOp id fun o => { o with st := .performed }
            let rec_ := if a.c = 0 then g else a.rec?.getD g
            let bad := (a.c ≠ 0 && a.bad) || decide (rec_ ≠ g)
            let sigs := a.sigs ++ [id]
            let put (x : Anchor) (s : State) : State := s.modTeam tid fun t => { t with anchors := Map.put an x t.anchors }
            if a.c + 1 < a.n then put { a with c := a.c + 1, rec? := some rec_, bad := bad, sigs := sigs } s
            else
              let s := put { n := a.n } s
              if bad then sigs.foldl (fun s i => s.fail i .anchorMismatch) s else s.engIssue tid t.core rec_ sigs
    | _ => s

/-- An anchored instruction: each executing thread signs, in lane order. `mk` gives the record from the values of A and B
(R225). Where the engine has no place for an operation, the slice waits with the signature and those of the later lanes
(R35, R218); the flags rise once for all of them, and fall no earlier than the last has signed (R9). -/
def anchored (i : Instr) (p : Pre) (an : BitVec 7) (a b c : Opnd) (mk : Opnd → Opnd → Instr) (s : State) : Out :=
  inSlot i p s fun s sl g on =>
    match if sl.ex.isSome then none else s.issueStall sl on true true with
    | some st => (s, on.map fun l => (l, .stall st))
    | none =>
      let (ex, s) := match sl.ex with
        | some ex => (ex, s)
        | none =>
          let (ex, s) := s.fresh
          (ex, { s.raiseFlags sl true true with opening := ex :: s.opening })
      let step (r : State × Bool × List (Nat × LaneRes)) (l : Nat) : State × Bool × List (Nat × LaneRes) :=
        let (s, full, rs) := r
        let v (o : Opnd) : Word := s.src32 sl.gid l o
        let sig : Sig := ⟨mk (.lit (v a)) (.lit (v b)), [v a, v b, v c]⟩
        if full then (s, true, rs ++ [(l, .hold ex)])
        else
          match s.sigBad g.team sig with
          | some (c, ad) => (s, false, rs ++ [(l, .trap c ad)])
          | none =>
            if s.engFull g.team an.toNat then (s, true, rs ++ [(l, .hold ex)])
            else
              (s.issueOp State.sign sl g ex true true [l] { kind := .sign an.toNat sig, ordered := false }, false,
                rs ++ [(l, .next)])
      let (s, full, rs) := on.foldl step (s, false, [])
      (if full then s else s.closeEx sl.gid ex (s.opFlags sl true true), rs)

def execMldw (p : Pre) (x : LwX) (d : BitVec 7) (a : Opnd) (s : State) : Out :=
  anchored (.mldw p x d a) p d a .nul .nul (fun a _ => .mldw {} x d a) s
def execMswap (p : Pre) (d : BitVec 7) (s : State) : Out :=
  anchored (.mswap p d) p d .nul .nul .nul (fun _ _ => .mswap {} d) s
def execMma (p : Pre) (x : MmaX) (d : BitVec 7) (a b : Opnd) (s : State) : Out :=
  anchored (.mma p x d a b) p d a b .nul (fun a b => .mma {} x d a b) s
def execMzero (p : Pre) (d a : BitVec 7) (s : State) : Out :=
  anchored (.mzero p d a) p d .nul .nul .nul (fun _ _ => .mzero {} d a) s
def execMrd (p : Pre) (x : EwX) (d : BitVec 7) (a b : Opnd) (s : State) : Out :=
  anchored (.mrd p x d a b) p d a b .nul (fun a b => .mrd {} x d a b) s
def execMwr (p : Pre) (x : EwX) (d : BitVec 7) (a b : Opnd) (s : State) : Out :=
  anchored (.mwr p x d a b) p d a b .nul (fun a b => .mwr {} x d a b) s
def execMsts (p : Pre) (x : MstsX) (d : BitVec 7) (a b : Opnd) (s : State) : Out :=
  anchored (.msts p x d a b) p d a b x.c (fun a b => .msts {} x d a b) s
def execRstat (p : Pre) (x : StX) (d : BitVec 7) (a b : Opnd) (s : State) : Out :=
  anchored (.rstat p x d a b) p d a b x.c (fun a b => .rstat {} x d a b) s
/-- With `NUL` for A the factors are 1 and no address is read, and the record then differs from that of a register that holds 0 (DESIGN
CHOICE, log entry 66). -/
def execMscale (p : Pre) (x : MsX) (d : BitVec 7) (a b : Opnd) (s : State) : Out :=
  anchored (.mscale p x d a b) p d a b x.c (fun r b => .mscale {} x d (if a = .nul then .nul else r) b) s

/-! ## Instructions that act at once (R232, R233, R244, R245) -/

def execManch (p : Pre) (d : BitVec 7) (a : Opnd) (s : State) : Out :=
  inSlot (.manch p d a) p s (perLane (.manch p d a) fun s gid l =>
    let n := (s.src32 gid l a).toNat
    let tid := s.teamOf gid
    match s.team? tid with
    | none => (s, .trap .illegalOperand 0)
    | some t =>
      if n = 0 || t.nthr < n then (s, .trap .illegalOperand 0)
      else
        let old := (Map.get t.anchors d.toNat {}).sigs
        let s := s.modTeam tid fun t => { t with anchors := Map.put d.toNat { n := n } t.anchors }
        (old.foldl (fun s i => s.fail i .anchorMismatch) s, .next))

/-- Every core sees the entry as soon as it is written (DESIGN CHOICE, log entry 66). -/
def execTdef (p : Pre) (id : BitVec 8) (a : Opnd) (s : State) : Out :=
  inSlot (.tdef p id a) p s (perLane (.tdef p id a) fun s gid l =>
    let ws := s.srcRun gid l a 8
    match Tx.read ws with
    | none => (s, .trap .illegalOperand 0)
    | some _ =>
      (s.modCtx ((s.group? gid).elim 0 Group.ctx) fun c => { c with tx := Map.put id.toNat ws c.tx }, .next))

def execTqry (p : Pre) (d : Opnd) (id : BitVec 8) (wd : BitVec 3) (s : State) : Out :=
  alu (.tqry p d id wd) p d (fun s gid _ =>
    ([(s.txWords ((s.group? gid).elim 0 Group.ctx) id.toNat).getD wd.toNat 0], 0)) s

/-- Whether an earlier scratchpad access of the thread has still to be performed, or an acquire, whose edge the `MOPR` hands on
(R90, R99). -/
def State.moprPending (s : State) (gid l upto : Nat) : Bool :=
  (s.unsettled gid l).any fun e => (e.2.isAcquire || match e.2.kind with
    | .load .scratch _ _ _ | .store .scratch _ _ | .atom .scratch _ _ _ _ _ _ _ => true
    | _ => false) && decide (sdiff ((e.2.seq? l).getD 0) (BitVec.ofNat 32 upto) < 0)

def execMopr (p : Pre) (s : State) : Out :=
  inSlot (.mopr p) p s (perLane (.mopr p) fun s gid l =>
    let upto := (s.thread gid l).opc.toNat
    (s, if s.moprPending gid l upto then .wait (.mopr upto) else .next))

def execMwait (p : Pre) (a : BitVec 7) (s : State) : Out :=
  inSlot (.mwait p a) p s (perLane (.mwait p a) fun s gid _ =>
    let core := (s.group? gid).elim 0 Group.core
    let ids := ((s.core core).eng.filter fun e => e.2.team = s.teamOf gid &&
      (a.toNat = 16 || e.2.sig.tile = some a.toNat)).map Prod.fst
    if ids.isEmpty then (s.acquire core .core, .next) else (s, .wait (.mwait ids)))

/-! ## Tiles -/

def Tile.at (t : Tile) (r c : Nat) : DWord := Map.get t.e (r * 128 + c) 0

/-- An element by the tag, exact (R222). -/
def Tile.val (t : Tile) (r c : Nat) : FVal :=
  if t.i64 then FVal.ofInt (t.at r c).toInt else Fmt.f64.read (t.at r c).toNat

def Tile.set (t : Tile) (r c : Nat) (v : DWord) : Tile :=
  { t with e := if v = 0 then Map.del (r * 128 + c) t.e else Map.put (r * 128 + c) v t.e }

/-- Sets `n` columns from `c` of the rows `r` to `r + m − 1`. -/
def Tile.fill (t : Tile) (r m c n : Nat) (f : Nat → Nat → DWord) : Tile :=
  (List.range m).foldl (fun t i => (List.range n).foldl (fun t j => t.set (r + i) (c + j) (f i j)) t) t

def State.tile (s : State) (tid k : Nat) : Tile :=
  match s.team? tid with
  | some t => Map.get t.tiles k {}
  | none => {}

def State.setTile (s : State) (tid k : Nat) (x : Tile) : State :=
  s.modTeam tid fun t => { t with tiles := Map.put k x t.tiles }

/-- Scratchpad bytes of the team that an engine reads. -/
def State.engRead (s : State) (tid a n : Nat) : List Byte :=
  match s.ownScratch? tid a n with
  | some ph => s.readPhys ph n
  | none => []

/-- The F32 at index i of a vector in scratchpad. -/
def f32At (bs : List Byte) (i : Nat) : FVal := Fmt.f32.read (ofBytes ((bs.drop (4 * i)).take 4))

def roundF64 (rm : Rm) (v : FVal) : Nat := (Fmt.f64.round rm false v).1
def roundF32 (v : FVal) : Nat := (Fmt.f32.round .rne false v).1

/-! ## Loading a plane (R221, R234) -/

/-- A plane from a weight image. -/
def loadPlane (t : Tx) (img : List Byte) : Plane :=
  let row (i : Nat) : List Byte := (img.drop (i * t.pitch)).take t.pitch
  let nk := if t.trn then t.tc else t.tr
  let scs := img.drop (t.tr * t.pitch)
  let nb := if t.trn then ceilDiv t.tc 128 else ceilDiv t.tr 128
  let nn := if t.trn then t.tr else t.tc
  let sc := if t.scl then (List.range nb).flatMap fun kb => (List.range nn).map fun n =>
      (kb * 128 + n, (scs.getD (if t.trn then n * nb + kb else kb * t.tc + n) 0).toNat) else []
  { fmt := t.fmt, rpl := t.rpl, scl := t.scl, sbase := t.sbase
    w := (List.range nk).flatMap fun k => (List.range nn).map fun n =>
      (k * 128 + n, if t.trn then codeAt t.fmt t.spl (row n) k else codeAt t.fmt t.spl (row k) n)
    sc := sc }

def Plane.code? (w : Plane) (k n : Nat) : Option Nat := Map.get? w.w (k * 128 + n)

/-! ## A pass (R205, R206, R237) -/

/-- A block scale's exponent; none for a NaN block. -/
def scaleExp (scl : Bool) (base : Nat) (e : Nat) : Option Int :=
  if !scl then some 0 else if e = 255 then none else some ((e : Int) - base)

/-- A scaled product of two elements. -/
def scaledMul (a w : FVal) (sa sw : Option Int) : FVal :=
  match sa, sw with
  | some x, some y => ((a.mul w).1).scale (x + y)
  | _, _ => .nan false

/-- An exact sum; an exact zero is +0. -/
def exactSum (vs : List FVal) : FVal :=
  match vs.foldl (fun (s : FVal) (v : FVal) => (s.add .rne v).1) (FVal.fin false 0 0) with
  | .fin _ 0 e => .fin false 0 e
  | v => v

/-- One output element of a float pairing. -/
def passF (k : Nat) (acc : Nat) (prod : Nat → FVal) : Nat :=
  (List.range (k / 8)).foldl (fun acc g =>
    roundF64 .rne ((Fmt.f64.read acc).add .rne (exactSum ((List.range 8).map fun j => prod (8 * g + j)))).1) acc

/-- One output element of BPI weights and I8 activations. -/
def passI (k : Nat) (acc : Nat) (prod : Nat → Int) : Nat :=
  wrap 64 ((List.range k).foldl (fun (v : Int) j => v + prod j) (acc : Int))

/-- A pass of rows past a plane into a tile. -/
def runMma (x : MmaX) (t : Tx) (c : Nat) (w : Plane) (img scs : List Byte) (tile : Tile) : Tile :=
  let k := passK w.fmt w.rpl
  let int := w.fmt = 7
  let row (i : Nat) : List Byte := (img.drop (i * t.pitch)).take t.pitch
  let nb := ceilDiv t.tc 128
  let sa (i j : Nat) : Option Int :=
    if t.tc ≤ j then some 0 else scaleExp t.scl t.sbase (scs.getD (i * nb + j / 128) 0).toNat
  let sw (j n : Nat) : Option Int :=
    match Map.get? w.sc (j / 128 * 128 + n), w.code? j n with
    | some e, some _ => scaleExp w.scl w.sbase e
    | _, _ => some 0
  let wt (j n : Nat) : FVal := (w.code? j n).elim (.fin false 0 0) (fmtValue w.fmt)
  let act (i j : Nat) : Nat := if j < t.tc then codeAt t.fmt t.spl (row i) j else 0
  let out (i n : Nat) : DWord :=
    let old := if x.ovw then 0 else (tile.at (x.row.toNat + i) n).toNat
    BitVec.ofNat 64 (if int then
        passI k old fun j => if j < t.tc then (w.code? j n).elim 0 (bpiValue w.rpl) * Machine.sext 8 (act i j) else 0
      else passF k old fun j =>
        scaledMul (if j < t.tc then fmtValue t.fmt (act i j) else .fin false 0 0) (wt j n)
          (sa i j) (sw j n))
  { tile.fill x.row.toNat c 0 128 out with i64 := int }

/-! ## Storing and row statistics (R227, R240) -/

/-- `Convert` of `MSTS`. -/
def stsConvert (x : MstsX) (i64 : Bool) (raw : DWord) (v : FVal) : Nat :=
  let toInt (n : Nat) : Nat :=
    let lo : Int := -((2 ^ (n - 1) : Nat) : Int)
    let hi : Int := ((2 ^ (n - 1) : Nat) : Int) - 1
    if i64 && x.c = .nul then wrap n (if x.sat then clampInt lo hi raw.toInt else raw.toInt)
    else wrap n (v.toInt x.rm lo hi).1
  match x.dty.toNat with
  | 0 => (Fmt.f32.round x.rm x.sat v).1
  | 1 => (Fmt.bf16.round x.rm x.sat v).1
  | 2 => (Fmt.f16.round x.rm x.sat v).1
  | 3 => (NFmt.nf8.round v).1
  | 4 => (NFmt.nf8w.round v).1
  | 5 => (NFmt.nf6.round v).1
  | 6 => (NFmt.nf4.round v).1
  | 8 => toInt 8
  | 9 => toInt 32
  | 10 => (Fmt.f64.round x.rm x.sat v).1
  | _ => toInt 64

/-- A row of an `MSTS`, padded to its pitch: the padding keeps its bytes, so only the row's own bytes are given. -/
def stsRow (x : MstsX) (t : Tile) (r : Nat) (cf : Option (List Byte)) : List Byte :=
  packRow x.dty.toNat ((List.range 128).map fun j =>
    let v := match cf with
      | some bs => ((t.val r j).mul (f32At bs j)).1
      | none => t.val r j
    stsConvert x t.i64 (t.at r j) v)

/-- The maximum of a row: NaN where an element is NaN, −0 below +0. -/
def rowMax (xs : List FVal) : FVal :=
  if xs.any FVal.isNan then .nan false
  else xs.foldl (fun m v => if m.below v then v else m) (xs.headD (.fin false 0 0))

def sumF64 (vs : List FVal) : Nat :=
  vs.foldl (fun s v => roundF64 .rne ((Fmt.f64.read s).add .rne v).1) 0

/-- The F32 results of a row (R227). -/
def rowStat (mode : Nat) (c : FVal) (t : Tile) (r : Nat) : List Nat :=
  let xs := (List.range 128).map fun j => Fmt.f64.read (roundF64 .rne (t.val r j))
  let m := rowMax xs
  match mode with
  | 0 => [roundF32 m]
  | 1 => [roundF32 (Fmt.f64.read (sumF64 xs))]
  | 2 => [roundF32 (Fmt.f64.read (sumF64 (xs.map fun v => Fmt.f64.read (roundF64 .rne (v.mul v).1))))]
  | _ =>
    let term (v : FVal) : FVal :=
      let d := Fmt.f64.read (roundF64 .rne (v.add .rne m.negate).1)
      Fmt.f32.read (Gm.exp2 (roundF32 (d.mul c).1))
    [roundF32 m, roundF32 (Fmt.f64.read (sumF64 (xs.map term)))]

/-! ## The engine's steps (R219, R226, R247) -/

/-- Whether an operation may start, by what stands before it: a load has finished loading when its operands are released, and a stream
has finished streaming then. An `MLDW` also waits for an earlier exchange, so that the planes follow the order of issue
(DESIGN CHOICE, log entry 66). -/
def EngOp.ready (e : EngOp) (older : List EngOp) : Bool :=
  let t := e.sig.tile
  older.all fun o =>
    let same := t.isSome && decide (o.sig.tile = t)
    if e.sig.isMldw then !(o.sig.isMldw && !o.released) && !o.sig.swaps
    else
      match e.sig.ins with
      | .mswap _ _ => !(o.sig.isMma && !o.released) && !(o.sig.isMldw && !o.released) && !o.sig.swaps
      | .mma _ _ _ _ _ =>
        !(o.sig.isMma && !o.released) && !o.sig.swaps && (!same || o.sig.isMma || (o.sig.takes && o.released))
      | _ => !same

def State.engOlder (s : State) (core k : Nat) : List EngOp :=
  ((s.core core).eng.filter fun e => decide (e.1 < k)).map Prod.snd

def State.eng? (s : State) (core k : Nat) : Option EngOp := Map.get? (s.core core).eng k

def State.modEng (s : State) (core k : Nat) (f : EngOp → EngOp) : State :=
  s.modCore core fun c => { c with eng := Map.mod k f c.eng }

/-- The engine takes on work: its core's M-die is online and not halted (R406, R407). -/
def State.engineOn (s : State) (core : Nat) : Bool :=
  (s.die (4 + pairOf core)).st = .online && !(s.die (4 + pairOf core)).halted

/-- Cycles from an operation's start to its operand release and to its retirement (R220, R247). -/
def State.engTimes (s : State) (e : EngOp) : Nat × Nat :=
  let g := e.sig
  let n := (bits g.b 0 8).toNat
  match g.ins with
  | .mldw _ _ _ _ =>
    let l := match Tx.read e.ent with
      | some t => if t.fmt = 5 then 96 else if t.fmt = 7 then 64 * t.rpl / roundK t.rpl else 64
      | none => 64
    (l, l + 16)
  | .mswap _ _ => (0, 1)
  | .mma _ _ _ _ _ =>
    let row := match (s.team? e.team).bind Team.active with
      | some w => if w.fmt = 5 then 2 else if w.fmt = 7 then 8 / roundK w.rpl else 1
      | none => 1
    let sc := match Tx.read e.ent with
      | some t => if t.scl then n * ceilDiv t.tc 128 else 0
      | none => 0
    (n * row + ceilDiv sc 256, n * row + 32)
  | .mrd _ x _ _ _ => (0, n * ceilDiv (8 * (x.ncm.toNat + 1)) 256 + 16)
  | .mwr _ x _ _ _ => (n * ceilDiv (8 * (x.ncm.toNat + 1)) 256, n * ceilDiv (8 * (x.ncm.toNat + 1)) 256 + 16)
  | .msts _ x _ _ _ => (if x.c = .nul then 0 else 2, n * ceilDiv (stsPitch x) 256 + 16)
  | .rstat _ x _ _ _ => (0, (if x.mode = 3 then 8 * n else 2 * n) + 16)
  | .mscale _ _ _ _ _ => (ceilDiv (4 * n) 256 + 2, n + 32)
  | _ => (0, 24)

/-- The cycles of a stream that fall into `[a, c)`. -/
def EngOp.overlap (m : EngOp) (a c : Nat) : Nat := min c (m.at_ + m.rel) - max a m.at_

/-- Cycles that a load loses up to cycle `c` because streams share the data lane with it (R218, R247). -/
def State.engLost (s : State) (core : Nat) (e : EngOp) (c : Nat) : Nat :=
  if !e.sig.isMldw then 0
  else ceilDiv ((s.core core).eng.foldl (fun v m =>
    if m.2.sig.isMma && m.2.started then v + m.2.overlap e.at_ c else v) e.shared) 2

/-- The cycle of an operation's operand release, and that of its retirement: a load lasts longer for what it loses. -/
def State.engDue (s : State) (core : Nat) (e : EngOp) : Nat × Nat :=
  let lost := (List.range 12).foldl (fun v _ => s.engLost core e (e.at_ + e.rel + v)) 0
  (e.at_ + e.rel + lost, e.at_ + max e.rel e.ret + lost)

def State.engStart (s : State) (core k : Nat) : State :=
  match s.eng? core k with
  | some e =>
    if !e.started && e.ready (s.engOlder core k) && s.engineOn core then
      let (a, b) := s.engTimes e
      s.modEng core k fun e => { e with started := true, at_ := s.cyc (pairOf core), rel := a, ret := b }
    else s
  | none => s

/-- The last scratchpad byte is read: planes and tiles take their new contents, results are formed, and the operands
are released. -/
def State.engRelease (s : State) (core k : Nat) : State :=
  match s.eng? core k with
  | none => s
  | some e =>
    if !e.started || e.released || s.cyc (pairOf core) < (s.engDue core e).1 then s
    else
      let g := e.sig
      let tid := e.team
      let n := (bits g.b 0 8).toNat
      let f := (bits g.b 8 7).toNat
      let rd (s : State) (a m : Nat) : List Byte := s.engRead tid a m
      let (s, out) : State × List (Nat × List Byte) := match g.ins with
        | .mldw _ _ _ _ =>
          match Tx.read e.ent with
          | some t => (s.modTeam tid fun x => { x with shadowPl := some (loadPlane t (rd s g.a t.image)) }, [])
          | none => (s, [])
        | .mma _ x _ _ _ =>
          match Tx.read e.ent, (s.team? tid).bind Team.active with
          | some t, some w =>
            (s.setTile tid x.tile.toNat (runMma x t n w (rd s g.a (n * t.pitch))
              (rd s (g.a + t.tr * t.pitch) (if t.scl then n * ceilDiv t.tc 128 else 0)) (s.tile tid x.tile.toNat)), [])
          | _, _ => (s, [])
        | .mzero _ _ a => (s.setTile tid a.toNat {}, [])
        | .mrd _ x _ _ _ =>
          let t := s.tile tid x.tile.toNat
          (s, (List.range n).map fun i => (g.a + i * ewPitch x, (List.range (x.ncm.toNat + 1)).flatMap fun j =>
            toBytes 8 (t.at (x.row.toNat + i) (x.col.toNat + j)).toNat))
        | .mwr _ x _ _ _ =>
          let img := rd s g.a (n * ewPitch x)
          let t := (s.tile tid x.tile.toNat).fill x.row.toNat n x.col.toNat (x.ncm.toNat + 1) fun i j =>
            BitVec.ofNat 64 (ofBytes ((img.drop (i * ewPitch x + 8 * j)).take 8))
          (s.setTile tid x.tile.toNat { t with i64 := decide (x.ety = 8) }, [])
        | .msts _ x _ _ _ =>
          let t := s.tile tid x.tile.toNat
          let cf := if x.c = .nul then none else some (rd s g.c 512)
          (s, (List.range n).map fun i => (g.a + i * stsPitch x, stsRow x t (f + i) cf))
        | .rstat _ x _ _ _ =>
          let t := s.tile tid x.tile.toNat
          let w := if x.mode = 3 then 8 else 4
          (s, (List.range n).map fun i => (g.a + w * i,
            (rowStat x.mode.toNat (Fmt.f32.read g.c) t (f + i)).flatMap (toBytes 4)))
        | .mscale _ x _ a _ =>
          let t := s.tile tid x.tile.toNat
          let rf := if a = .nul then none else some (rd s g.a (4 * n))
          let cf := if x.c = .nul then none else some (rd s g.c 512)
          let fac (v : Option (List Byte)) (i : Nat) : FVal := match v with
            | some bs => f32At bs i
            | none => FVal.one
          let t' := t.fill f n 0 128 fun i j =>
            BitVec.ofNat 64 (roundF64 x.rm ((((t.val (f + i) j).mul (fac rf i)).1).mul (fac cf j)).1)
          (s.setTile tid x.tile.toNat { t' with i64 := false }, [])
        | _ => (s, [])
      let s := s.modEng core k fun e => { e with released := true, out := out }
      e.sigs.foldl (fun s i => s.doneB i) s

/-- The operation retires: results stand in scratchpad, planes are exchanged, the `SETA` flags fall. -/
def State.engRetire (s : State) (core k : Nat) : State :=
  match s.eng? core k with
  | none => s
  | some e =>
    let swapWaits := e.sig.swaps && (s.engOlder core k).any fun o => o.sig.isMma && !o.released
    if !e.released || swapWaits || s.cyc (pairOf core) < (s.engDue core e).2 then s
    else
      let s := e.out.foldl (fun s w => match s.ownScratch? e.team w.1 w.2.length with
        | some ph => (s.writePhys ph w.2).clearPoison ph w.2.length
        | none => s) s
      let s := if e.sig.swaps then s.modTeam e.team fun t => { t with active := t.shadowPl, shadowPl := t.active } else s
      let past (o : EngOp) : EngOp :=
        if e.sig.isMma && o.sig.isMldw && o.started then { o with shared := o.shared + e.overlap o.at_ (e.at_ + e.rel) } else o
      let s := s.modCore core fun c => { c with eng := Map.modAll (fun _ o => past o) (Map.del k c.eng) }
      (e.sigs.foldl (fun s i => s.doneA i) s).sweepOps

def execMatrixOpStart (s : State) : Out := .next (s.engStart s.sel.a s.sel.b)
def execMatrixOperandRelease (s : State) : Out := .next (s.engRelease s.sel.a s.sel.b)
def execMatrixOpRetire (s : State) : Out := .next (s.engRetire s.sel.a s.sel.b)

end Sys2Proof.Machine
end

