-- ==== Sys2Proof/Machine/MemEvents.lean ====
section
/-!
DEFINITION. Sys2Proof/Machine/MemEvents.lean: what the memory side does after issue: accesses performed, held operations
released, copies, walks and page service, invalidates, bank queues, and dies taken offline as planned (R70, R73, R101,
R102, R168, R175, R317 to R325, R331).
-/

namespace Sys2Proof.Machine

/-! ## Global accesses of the own device (R70) -/

/-- Whether no relock holds what is in flight to or from a core (R403). -/
def State.clocked (s : State) (core : Nat) : Bool := (s.pair (pairOf core)).relock.isNone

/-- Whether an operation may be performed now at its home on this device: no walk stands before it (R317), and no relock (R403). -/
def State.homeReady (s : State) (id : Nat) (o : Op) : Bool :=
  s.mayPerform id o && s.clocked o.core && (o.global?).any fun a =>
    vaOk a.1 && (s.remote? a.1).isNone && !s.walking o.ctx a.1 o.ex && s.homeClocked o.ctx a.1

/-- Whether a remote access that had to wait for acquires may leave now (R91). -/
def State.farReady (s : State) (id : Nat) (o : Op) : Bool :=
  o.st = .waiting && !o.held && s.clocked o.core && !s.afterAcquire id o && (o.global?).any fun a =>
    vaOk a.1 && (s.remote? a.1).isSome

def Op.isLoad (o : Op) : Bool :=
  match o.kind with
  | .load _ _ _ _ | .pref _ _ => true
  | _ => false

/-- GLOBAL_LOAD_RETURN: a load's data, or a prefetched line, returns. -/
def execGlobalLoadReturn (s : State) : Out :=
  match s.op? s.sel.a with
  | some o => .next (if !o.isLoad then s else if s.homeReady s.sel.a o then s.performMem s.sel.flag s.sel.a
      else if s.farReady s.sel.a o then s.startFar s.sel.a o else s)
  | none => .next s

/-- GLOBAL_STORE_ACCEPT: the home accepts a store or an atomic. -/
def execGlobalStoreAccept (s : State) : Out :=
  match s.op? s.sel.a with
  | some o => .next (if o.isLoad then s else if s.homeReady s.sel.a o then s.performMem false s.sel.a
      else if s.farReady s.sel.a o then s.startFar s.sel.a o else s)
  | none => .next s

/-- A write whose invalidates have all been answered is performed, if no earlier writer of its line still waits (R101): a store or
an atomic at once, a copy's sector with its next event, a peer's request when it is served. -/
def State.replGo (s : State) (e : ReplW) : State :=
  match e.src with
  | some _ => s.serveAgain
  | none =>
    match s.op? e.op with
    | some o => if o.st = .waiting && (o.global?).isSome then s.performMem false e.op else s
    | none => s

/-- A holder die has made its copy invalid; at the last one the write is performed, and after it those of its line that had to
wait for it (R101). -/
def State.ackRepl (s : State) (k die : Nat) : State :=
  match Map.get? s.replQ k with
  | none => s
  | some e =>
    if !e.acks.contains die then s
    else
      let s := { s with replQ := Map.mod k (fun e => { e with acks := e.acks.filter (· ≠ die) }) s.replQ }
      (s.replQ.filter fun x => x.2.line = e.line && decide (k ≤ x.1)).foldl (fun s x =>
        if (Map.get? s.replQ x.1).any fun y => y.acks.isEmpty then s.replGo x.2 else s) s

/-- REPL_INVALIDATE_ACK. -/
def execReplInvalidateAck (s : State) : Out := .next (s.ackRepl s.sel.a s.sel.b)

/-! ## Held operations (R73) -/

/-- An operation that is not held any longer takes effect, each kind in its way. -/
def State.startOp (s : State) (id : Nat) : State :=
  match s.op? id with
  | none => s
  | some o =>
    match o.kind with
    | .load _ _ _ _ | .store _ _ _ | .atom _ _ _ _ _ _ _ _ | .pref _ _ => s.startMem id
    | .tfence _ | .resume _ _ _ | .ccopy _ _ _ | .queue | .chunk _ _ _ _ _ | .poll _ _ _ _ => s
    | .async _ _ => s.startAsync id
    | .spawn _ _ _ => s.startSpawn id
    | .sign _ _ => s.sign id
    | .mcst _ => byBelay (fun s _ => s) s id
    | .rload _ => byBelay State.startRload s id
    | .coll _ _ => byBelay State.startColl s id
    | .scb _ _ _ => byBelay State.startScb s id
    | .arm _ => byBelay State.startArm s id
    | .gang _ => byBelay State.startGang s id
    | .peerq _ => byBelay State.startPeerq s id
    | .wcflush _ => byBelay State.startWcflush s id
    | .rspawn _ _ _ => byBelay State.startRspawn s id
    | .mgrp _ _ => byBelay State.startMgrp s id

/-- Whether an update of a scoreboard that is not held waits for an older one (R370). -/
def Op.inTurn (o : Op) : Bool :=
  match o.kind with
  | .scb _ _ _ => o.st = .waiting
  | _ => false

/-- Whether lane `l` of a group waits at a queue instruction of a paired team, for the comparator (R286). -/
def State.comparing (s : State) (gid l : Nat) : Bool :=
  ((s.group? gid).bind fun g => s.team? g.team).any Team.paired && (match (s.thread gid l).wait with
    | some (.qpush _ _ _) | some (.qpop _ _ _) => true
    | _ => false)

/-- HELD_OPERATION_RELEASE: everything older in its threads has settled, and no lower lane of its execution is held with an access
that meets its own (R73, R162). A mismatch that the pair comparator finds is FATAL (R286), also one of the queue instruction at which
lane `c` of group `b` waits. An update of a scoreboard that had to wait for an older one is performed in its turn. -/
def execHeldOperationRelease (s : State) : Out :=
  let id := s.sel.a
  match s.op? id with
  | none => .next (if s.sel.flag && s.comparing s.sel.b s.sel.c then s.fatal s.sel.b .pairMismatch else s)
  | some o =>
    if !o.held && o.inTurn then .next (s.startOp id)
    else if !o.held || o.st.settled || !s.horizonBefore id o || s.laneHeld id o then .next s
    else if s.sel.flag && ((s.group? o.gid).bind fun g => s.team? g.team).any Team.paired then
      .next (s.fatal o.gid .pairMismatch)
    else .next ((s.modOp id fun o => { o with held := false }).startOp id)

/-! ## Fences on translations (R102, R168) -/

/-- Whether every earlier store of the operation's threads has been accepted. -/
def State.storesAccepted (s : State) (id : Nat) (o : Op) : Bool :=
  !s.ops.any fun e => decide (e.1 < id) && e.2.gid = o.gid && !e.2.st.settled
    && (match e.2.kind with
      | .store _ _ _ => true
      | _ => false)
    && e.2.lanes.any fun l => (o.seq? l.1).isSome

/-- TFENCE_WALKER_ACK: a walker has discarded the context's translations; the last one settles the fence. -/
def execTfenceWalkerAck (s : State) : Out :=
  let id := s.sel.a
  let w := s.sel.b
  match s.op? id with
  | none => .next s
  | some o =>
    match o.kind with
    | .tfence acks =>
      if o.held || o.st ≠ .waiting || !acks.contains w || !s.storesAccepted id o then .next s
      else
        let left := acks.filter (· ≠ w)
        let s := { s with tlb := s.tlb.filter fun e => !(e.ctx = o.ctx && e.home = w) }
        let s := s.modOp id fun o => { o with kind := .tfence left }
        .next (if left.isEmpty then s.settleFlags id .ok else s)
    | _ => .next s

/-! ## Copies (R175, R321) -/

def execCopySector (s : State) : Out :=
  match s.op? s.sel.a with
  | some o => if s.clocked o.core then .next (s.sector false s.sel.a) else .next s
  | none => .next s

def execRestripeLineMove (s : State) : Out := .next (s.restripeLine s.sel.a)

/-- Whether all of an asynchronous operation's work is done. -/
def Async.whole (a : Async) (j : Job) : Bool :=
  match j with
  | .copy _ _ _ _ _ | .tile _ _ _ _ _ _ => decide (j.sectors ≤ a.pos)
  | .bank _ _ _ _ _ m => decide (m ≤ a.wr)
  | .restripe _ pages _ _ done => decide (pages ≤ done)

/-- COPY_COMPLETE: the work is done, or was cancelled, or never began because its descriptor was bad. -/
def execCopyComplete (s : State) : Out :=
  let id := s.sel.a
  match s.op? id with
  | none => .next s
  | some o =>
    match o.kind, o.err with
    | .async _ _, some c => .next (s.asyncEnd id (.failed c))
    | .async a j, none =>
      if o.st ≠ .waiting || o.held || !(a.cancelled || a.whole j) then .next s
      else
        let s := match s.moving.find? fun m => m.op = id with
          | some m => s.undoMove m
          | none => s
        .next (s.asyncEnd id .ok)
    | _, _ => .next s

/-! ## Walks and not-present pages (R317 to R320) -/

/-- Waiting accesses of a context to a page park when a walk finds it not present. -/
def State.parkOn (s : State) (ctx home : Nat) (f : Leaf) : State :=
  s.ops.foldl (fun s e =>
    match e.2.global? with
    | some (a, p) =>
      let here := e.2.ctx = ctx && e.2.st = .waiting && !e.2.held && vaHome a = home && f.base ≤ vaOfs a
        && decide (vaOfs a < f.base + f.size) && !s.walking ctx a e.2.ex
      let pref := match e.2.kind with
        | .pref _ _ => true
        | _ => false
      if here && !pref && s.absent ctx a p (pairOf e.2.core) then s.park e.1 e.2 else s
    | none => s) s

/-- A walk is over: one that left no translation stays until the access that its agent makes again has met the outcome. -/
def State.walkOver (s : State) (w : Walk) (found : Bool) : State :=
  let walks := if w.again && !found then s.walks.map fun x => if x = w then { x with live := false, over_ := true } else x
    else s.walks.filter (· ≠ w)
  State.startWalks { s with walks := walks } w.home 1

/-- PAGE_WALK_COMPLETE: a walk in flight ends, while the home's clock runs (R403); its place goes to a waiting one. A translation is
kept, or the accesses that missed park; a fault is met by each access. -/
def execPageWalkComplete (s : State) : Out :=
  let ctx := s.sel.a
  let va := s.sel.b
  if !vaOk va || (s.remote? va).isSome then .next s
  else
    match s.walks.find? fun w => w.live && w.covers ctx va with
    | none => .next s
    | some w =>
      let home := vaHome va
      if (s.pair home).relock.isSome then .next s
      else if !s.dieServes home then .next (s.walkOver w true)
      else
        match s.walk ctx home (vaOfs va) with
        | .ok f => .next ((s.walkOver w true).cache ctx f)
        | .error .notPresent =>
          let s := s.walkOver w false
          match s.rawLeaf ctx va with
          | some f => .next (s.parkOn ctx home f)
          | none => .next s
        | .error (.cause _) => .next (s.walkOver w false)

/-- The physical range that a page has in one of its targets. -/
def physRange (r : Nat × Nat × Nat) : Nat × Nat :=
  let b := if r.1 < 8 then r.1 * Config.stackBytes else cxlBase (r.1 - 8)
  (b + r.2.1, b + r.2.2)

/-- The bytes of some physical ranges become 0, without poison and without copies in caches. -/
def State.wipe (s : State) (rs : List (Nat × Nat)) : State :=
  let hit (a : Nat) : Bool := rs.any fun r => decide (r.1 ≤ a) && decide (a < r.2)
  { s with
    mem := s.mem.filter fun c => !hit c.1
    poison := s.poison.filter fun a => !hit a
    near := Map.modAll (fun _ l => l.filter fun n => !hit (256 * n)) s.near
    replBad := s.replBad.filter fun e => !hit (256 * e.1)
    promo := s.promo.filter fun e => !hit (256 * e.1)
    cores := Map.modAll (fun _ c => { c with l1 := c.l1.filter fun e => !hit (256 * e.1) }) s.cores }

/-- Fills a page on every target set that holds it whole. -/
def State.fill (s : State) (w : Word) (frame : Nat) (bs : List Byte) : State :=
  (pwTargets w).foldl (fun s ts =>
    (List.range (ceilDiv bs.length 256)).foldl (fun s k =>
      s.writePhys (spot w frame (256 * k) ts) ((bs.drop (256 * k)).take 256)) s) s

def State.setLeafBits (s : State) (ea : Nat) (f : DWord → DWord) : State :=
  s.writePhys ea (toBytes 8 (f (s.dword ea)).toNat)

/-- PAGE_SERVICE: a guide core, of a belay die that serves (R1), fills a backed page that is not present and writes `P`; or its backing cannot be read; or
the backing has been removed (R320). -/
def execPageService (s : State) : Out :=
  let ctx := s.sel.a
  let va := s.sel.b
  if !vaOk va || (s.remote? va).isSome || !s.belayServes then .next s
  else
    match s.rawLeaf ctx va with
    | none => .next s
    | some f =>
      if f.w0.getLsbD 0 || s.moving.any (fun m => m.ea = f.ea) then .next s
      else
        let s := { s with unread := s.unread.filter fun u => !(u.1 = ctx && u.2.1 = f.home && u.2.2.1 = f.base) }
        let s := match s.sel.svc with
          | .unreadable => { s with unread := (ctx, f.home, f.base, f.size) :: s.unread }
          | .removed => s.setLeafBits f.ea fun w => w &&& ~~~0x80
          | .served =>
            let w := leafWord f.w1
            let fr := leafFrame f.w0
            let s := if s.leafOk f.size f.w0 f.w1 then
                (s.wipe ((rangesOf w f.size fr).map physRange)).fill w fr (s.sel.msg.data.take f.size)
              else s
            { s.setLeafBits f.ea (fun w => w ||| 1) with tlb := s.tlb.filter fun e => e.ea ≠ f.ea }
        let s := s.serveAgain
        .next (s.ctxs.foldl (fun s c => s.installArms c.1) s)

/-! ## Parked lanes (R320) -/

/-- The parked access of one operation is made again. -/
def State.replayOne (s : State) (id : Nat) : State :=
  match s.op? id with
  | none => s
  | some o =>
    if o.st ≠ .parked then s
    else
      let s := s.modOp id fun o => { o with st := .waiting }
      match o.kind with
      | .resume _ _ _ => s.claim id
      | .ccopy _ _ _ => s.ccopyDone id
      | _ => s.performMem false id

/-- Lanes of a group that no parked operation keeps become ready; one parked in `WAITF` reads again. -/
def State.unpark (s : State) (gid : Nat) : State :=
  match s.group? gid with
  | none => s
  | some g =>
    let keeps (l : Nat) : Bool := (s.opsOf gid l).any (fun e => e.2.st = .parked) ||
      (match (g.thread l).wait with
        | some (.stall (.page va)) => s.pageAway g.ctx va
        | _ => false)
    (g.threads.filter fun t => t.2.parked && !keeps t.1).foldl (fun s t =>
      (s.modThread gid t.1 fun t => { t with parked := false }).wfAgain gid t.1) s

/-- What a parked access comes after: the lanes of its instruction that did not park, what the other path of its sweep and its
line had in flight, whatever stands before any access of its threads (R91, R320, R323), and the release that a promoted acquire
waits for (R96). -/
def State.replayBehind (s : State) (id : Nat) (o : Op) : Bool :=
  s.behind id o || ((s.lineOf o).any fun l => s.forcing o (l * 256)) || s.ops.any fun e => e.2.gid = o.gid && !e.2.st.settled && e.2.st ≠ .parked &&
    (e.2.ex = o.ex || (!e.2.held && decide (e.2.issue ≤ o.issue) && (s.lineOf o).isSome && decide (s.lineOf e.2 = s.lineOf o)))

/-- Whether parked accesses of global memory can be made again: their pages are present, the clocks run that they need, and their walks
are over (R317, R320, R403). -/
def State.replayGate (s : State) (mine : Map Op) : State × Bool :=
  let vas := mine.filterMap fun e => e.2.global?.map fun a => (e.2, a.1)
  if vas.any fun e => s.pageAway e.1.ctx e.2 then (s, false)
  else vas.foldl (fun r e =>
    let (s, ok) := r.1.gateAt e.1.ctx e.2 1 e.1.ex ((e.1.lanes.map Prod.fst).headD 0)
    (s, r.2 && ok)) (s, true)

/-- PARKED_REPLAY: the group's parked executions whose pages have all been serviced replay, each as a whole and the oldest
first. -/
def State.replay (s : State) (gid : Nat) : State :=
  let exs := ((s.ops.filter fun e => e.2.gid = gid && e.2.st = .parked).map fun e => e.2.ex).eraseDups
  let s := exs.foldl (fun s ex =>
    let mine := s.ops.filter fun e => e.2.gid = gid && e.2.ex = ex && e.2.st = .parked
    if mine.any fun e => s.replayBehind e.1 e.2 then s
    else
      match s.replayGate mine with
      | (s, false) => s
      | (s, true) =>
        let s' := (mine.map Prod.fst).foldl State.replayOne s
        if mine.any fun e => (s'.op? e.1).any fun o => o.st = .parked then s else s') s
  s.unpark gid

def execParkedReplay (s : State) : Out := .next (s.replay s.sel.a)

/-! ## Bank queues (R325) -/

/-- The bank that an operation's next request goes to. -/
def Op.bank? (o : Op) : Option Nat :=
  match o.kind with
  | .load .bank a _ _ | .store .bank a _ | .atom .bank a _ _ _ _ _ _ | .poll .bank _ a _ => some (a / 32 % 1024)
  | .chunk _ va _ _ _ => (bankAddr? va).map fun a => a / 32 % 1024
  | .async a j =>
    if a.cancelled then none
    else
      match j with
      | .bank _ _ _ _ _ m => if a.pos < m then some (j.bankOf a.pos) else none
      | _ => (j.bankWord a).map fun x => x / 32 % 1024
  | _ => none

/-- Whether an engine makes the operation's requests, and not its core. -/
def Op.ofEngine (o : Op) : Bool :=
  match o.kind with
  | .async _ _ | .chunk _ _ _ _ _ => true
  | _ => false

/-- A stream has several requests in queues at once. -/
def Op.streams (o : Op) : Bool :=
  match o.kind with
  | .async _ (.bank _ _ _ _ _ _) => true
  | _ => false

/-- Cycles of the bank's ALU that a request of the operation takes (R326). -/
def Op.aluCycles (o : Op) : Nat :=
  match o.kind with
  | .atom _ _ aop _ _ _ _ _ => if aop = 14 then 4 else if aop = 15 then 8 else 1
  | .chunk _ _ n _ comb => if comb then 2 * ceilDiv n 8 else 1
  | _ => 1

/-- Whether an access is in the queue of its bank already. -/
def State.queued (s : State) (b id : Nat) : Bool := (s.queue b).any fun q => q.1 = id

/-- Whether a request has reached a bank whose queue may admit it: the requests for the bank that its core issued before it have
entered. Those of other threads that are still held have not left their core; those of its own threads come first (R91). -/
def State.atBank (s : State) (id : Nat) (o : Op) (b : Nat) : Bool :=
  o.bank? = some b && o.st = .waiting && !o.held && s.clocked o.core && (o.streams || !s.queued b id) &&
    match o.kind with
    | .async a j => s.copyReady id o && !s.teamAway a j
    | .chunk _ _ _ _ _ => true
    | _ => !s.behind id o && !s.ops.any fun e => decide (e.1 < id) && e.2.core = o.core && e.2.st = .waiting && !e.2.ofEngine
        && e.2.bank? = some b && !s.queued b e.1
        && (!e.2.held || e.2.ex = o.ex || (e.2.gid = o.gid && e.2.lanes.any fun l => (o.seq? l.1).isSome))

/-- The order in which requests reached their banks: an operation's first one with its number, a later one of an engine with the number
that was next when it came. -/
def Op.arrived (o : Op) (id : Nat) : Nat := max id o.came

/-- The next request of an engine reaches its bank. -/
def State.reaches (s : State) (id : Nat) : State :=
  let (n, s) := s.fresh
  s.modOp id fun o => { o with came := n, passed := 0 }

/-- Whether a request may enter its bank's queue: there is a place, and none that reached the bank before it has been passed by 32
requests. Which of the others goes first, the round over the links of the bank's die, the model leaves to the event (DESIGN
CHOICE, log entry 69). -/
def State.admits (s : State) (id : Nat) (o : Op) (b : Nat) : Bool :=
  s.atBank id o b && decide ((s.queue b).length < 32) &&
    !s.ops.any fun e => decide (e.2.arrived e.1 < o.arrived id) && decide (32 ≤ e.2.passed) && s.atBank e.1 e.2 b

/-- BANK_REQUEST_ADMIT: a request enters its bank's queue. -/
def execBankRequestAdmit (s : State) : Out :=
  let id := s.sel.a
  match s.op? id with
  | none => .next s
  | some o =>
    match o.bank? with
    | none => .next s
    | some b =>
      if !s.admits id o b then .next s
      else
        let pos := match o.kind with
          | .async a _ => a.pos
          | _ => 0
        let pass (e : Nat × Op) : Nat × Op :=
          if decide (e.2.arrived e.1 < o.arrived id) && s.atBank e.1 e.2 b then (e.1, { e.2 with passed := e.2.passed + 1 }) else e
        let s := { s with
          ops := s.ops.map pass
          banks := Map.put b (s.queue b ++ [(id, pos)]) s.banks }
        let s := s.modOp id fun o => { o with passed := 0 }
        .next (if o.streams then (s.modOp id (modAsync fun a => { a with pos := a.pos + 1 })).reaches id else s)

/-- BANK_REQUEST_PERFORM: the bank's ALU, once it is free, performs the request at the head of its queue (R325, R326). -/
def execBankRequestPerform (s : State) : Out :=
  let b := s.sel.a
  match s.queue b with
  | [] => .next s
  | (id, i) :: rest =>
    if !s.bankFree b then .next s
    else
      let s := { s with banks := if rest.isEmpty then Map.del b s.banks else Map.put b rest s.banks }
      match s.op? id with
      | none => .next s
      | some o =>
        if o.st ≠ .waiting then .next s
        else
          let s := s.occupy b o.aluCycles
          match o.kind with
          | .async a (.bank _ _ _ _ _ _) => .next (if a.cancelled then s else s.bankStep id i)
          | .async _ _ => .next ((s.sector true id).reaches id)
          | .chunk _ _ _ _ _ => .next (s.chunkAtBank id o)
          | .poll _ l a n => .next (s.bankPoll id o l a n)
          | _ => .next (s.performMem false id)

/-! ## Dies taken offline as planned (R322, R323, R331) -/

/-- A page as the guide core that evacuates it sees it: a leaf of a context's home. -/
abbrev PageAt := Nat × Leaf

/-- The pages with a line on one of a V-die's stacks, but for those that a re-stripe is moving (R321). -/
def State.pagesOn (s : State) (die : Nat) : List PageAt :=
  s.ctxs.flatMap fun c => (List.range 4).flatMap fun h =>
    ((s.leaves c.1 h).filter fun f =>
      s.leafOk f.size f.w0 f.w1 && !pwCxlt (leafWord f.w1) && !(pwOnDie (leafWord f.w1) die).isEmpty
        && !s.moving.any fun m => m.ea = f.ea).map fun f => (c.1, f)

/-- The page has other leaves: entries with its frame, size and word. -/
def Leaf.same (f g : Leaf) : Bool := leafFrame f.w0 = leafFrame g.w0 && f.size = g.size && leafWord f.w1 = leafWord g.w1

/-- Moves a page to a new word and frame for every leaf that names it. -/
def State.relocate (s : State) (ps : List PageAt) (f : Leaf) (w : Word) (fr : Nat) : State :=
  let mv (p : PageAt) : Moving :=
    ⟨0, p.1, p.2.home, p.2.base, p.2.size, leafFrame p.2.w0, fr, leafWord p.2.w1, w, p.2.size, p.2.ea⟩
  let s := (List.range (f.size / 256)).foldl (fun s k => s.moveLine (mv (0, f)) (256 * k)) s
  (ps.filter fun p => p.2.same f).foldl (fun s p => s.pageMoved (mv p)) s

/-- A `REPL` page drops a holder: its other copies are made good, and the next holder becomes the primary if the die held
it (R322, R323). -/
def State.dropHolder (s : State) (ps : List PageAt) (f : Leaf) (w : Word) : State :=
  let old := leafWord f.w1
  let fr := leafFrame f.w0
  let step (s : State) (k : Nat) : State :=
    let o := 256 * k
    let prim := spot old fr o (pwServe old 0 true)
    let next := spot w fr o (pwServe w 0 true)
    let s := (Map.get s.replBad (prim / 256) []).foldl (fun s d => s.refill old fr o d) s
    let s := { s with replBad := Map.del (prim / 256) s.replBad }
    if prim = next then s
    else
      match Map.get? s.promo (prim / 256) with
      | some c => { s with promo := Map.put (next / 256) c (Map.del (prim / 256) s.promo) }
      | none => s
  let s := (List.range (f.size / 256)).foldl step s
  (ps.filter fun p => p.2.same f).foldl (fun s p =>
    s.pageMoved ⟨0, p.1, p.2.home, p.2.base, p.2.size, fr, fr, old, w, p.2.size, p.2.ea⟩) s

/-- Bytes in use on a V-die's stacks. -/
def State.usedOn (s : State) (die : Nat) : Nat :=
  (s.usedRanges.eraseDups.filter fun r => r.1 / 2 = die && decide (r.1 < 8)).foldl (fun n r => n + (r.2.2 - r.2.1)) 0

/-- The word with other stacks. -/
def withStacks (w : Word) (ts : List Nat) : Word := ts.foldl (fun w t => w ||| (1 <<< t : Word)) (w &&& 0xFFFFFF00)

/-- The words that an evacuation tries for a page of a V-die that leaves, in order: the surviving stacks, then as many
stacks on the online die with the most free space (R322). -/
def State.firstWords (s : State) (w : Word) (die : Nat) : List Word :=
  let rest := (pwStacks w).filter fun k => k / 2 ≠ die
  let n := (pwStacks w).length
  let on := (List.range 4).filter fun d => d ≠ die && (s.die d).st = .online
  let best := on.foldl (fun (b : Option Nat) d => match b with
    | some x => if s.usedOn d < s.usedOn x then some d else b
    | none => some d) none
  (if rest.isEmpty then [] else [withStacks w rest]) ++
    match best with
    | none => []
    | some d => if n = 1 then [withStacks w [2 * d], withStacks w [2 * d + 1]]
      else if n = 2 then [withStacks w [2 * d, 2 * d + 1]] else []

/-- The second tier's words for a page: all online ports, or one of them. -/
def State.tierWords (s : State) (w : Word) : List Word :=
  let ports := (List.range 4).filter fun p => s.targetOn (8 + p) && !s.cxlOut.contains p
  let mk (ps : List Nat) : Word := withStacks ((w &&& 0x00100700) ||| 0x00080000) ps
  (if ports.isEmpty then [] else [mk ports]) ++ ports.map fun p => mk [p]

/-- Moves a page to the first word that it finds room under. -/
def State.tryWords (s : State) (ps : List PageAt) (f : Leaf) (ws : List Word) : Option State :=
  ws.findSome? fun w => (s.roomFor w f.size).map fun fr => s.relocate ps f w fr

/-- A page that leaves for the second tier before another one: higher `EVP`, then the lower address. -/
def PageAt.before (a b : PageAt) : Bool :=
  let e (p : PageAt) : Nat := (dbits p.2.w0 10 3).toNat
  let k (p : PageAt) : Nat := p.2.home * 2 ^ 45 + p.2.base
  decide (e b < e a) || (e a = e b && decide (k a ≤ k b))

def insertPage (p : PageAt) : List PageAt → List PageAt
  | [] => [p]
  | q :: qs => if PageAt.before p q then p :: q :: qs else q :: insertPage p qs

/-- Moves every page off a V-die's stacks, as far as there is room (R322). -/
def State.evacuate (s : State) (die : Nat) : State :=
  let ps := s.pagesOn die
  let once := ps.foldl (fun (r : List PageAt) p => if r.any fun q => q.2.same p.2 then r else r ++ [p]) []
  let (s, left) := once.foldl (fun (r : State × List PageAt) p =>
    let w := leafWord p.2.w1
    let rest := (pwStacks w).filter fun k => k / 2 ≠ die
    if pwRepl w && !rest.isEmpty then (r.1.dropHolder ps p.2 (withStacks w rest), r.2)
    else
      match r.1.tryWords ps p.2 (r.1.firstWords w die) with
      | some s => (s, r.2)
      | none => (r.1, insertPage p r.2)) (s, [])
  left.foldl (fun s p => (s.tryWords ps p.2 (s.tierWords (leafWord p.2.w1))).getD s) s

/-- Writes that wait for an invalidate of a die that leaves wait for it no longer. -/
def State.dropAcks (s : State) (die : Nat) : State := s.replQ.foldl (fun s e => s.ackRepl e.1 die) s

/-- Whether a bank window covers a block of a V-die's banks: 4 KiB hold a word of 128 banks in a row. -/
def windowOnDie (w : Window) (die : Nat) : Bool :=
  (List.range (min 8 (ceilDiv w.len 4096))).any fun i => (w.base / 4096 + i) % 8 / 2 = die

/-- What keeps a V-die in the retained state: a page on its stacks, a mapping homed on it, a granted bank window (R322,
R331). -/
def State.holdsDie (s : State) (die : Nat) : Bool :=
  s.moving.any (fun m => !(pwOnDie m.old die).isEmpty || !(pwOnDie m.new die).isEmpty) || !(s.pagesOn die).isEmpty ||
    s.ctxs.any fun c =>
      (match c.2.cfg.roots[die]? with
        | some (some root) => !(s.tableIdx (dieHbm die root) 32768).isEmpty
        | _ => false) || c.2.cfg.windows.any fun w => windowOnDie w die

/-- Programs of a belay die that leaves go on at the other one, which it touches for their contexts, if that one serves (R400, R406). -/
def State.moveProgs (s : State) (die : Nat) : State :=
  if !s.dieServes (17 - die) then s
  else
    let s := s.progs.foldl (fun s e => if e.2.die = die && e.2.started then s.touch e.2.ctx (17 - die) else s) s
    { s with progs := Map.modAll (fun _ p => if p.die = die then { p with die := 17 - die } else p) s.progs }

/-- PLANNED_DIE_OFFLINE: a V-die's pages are moved away first; M-dies and belay dies hold none (R322). In the retained state the
guide core goes on with pages that found no room, or that a re-stripe was moving. What is resident on cores that are offline
stays there and does not issue (DESIGN CHOICE, log entry 70). -/
def execPlannedDieOffline (s : State) : Out :=
  let d := s.sel.a
  if 10 ≤ d || !((s.die d).st = .online || (d < 4 && (s.die d).st = .retained)) then .next s
  else if d < 4 then
    let s := (s.evacuate d).dropAcks d
    .next (s.modDie d fun x => { x with st := if s.holdsDie d then .retained else .offline })
  else
    let s := s.modDie d fun x => { x with st := .offline }
    .next (if 8 ≤ d then s.moveProgs d else s)

/-- RETAINED_STATE_EXIT: nothing is stranded on the die and nothing homed on it. -/
def execRetainedStateExit (s : State) : Out :=
  let d := s.sel.a
  if (s.die d).st = .retained && !s.holdsDie d then .next (s.modDie d fun x => { x with st := .offline }) else .next s

end Sys2Proof.Machine
end

