-- ==== Sys2Proof/Machine/Sweep.lean ====
section
/-!
DEFINITION. Sys2Proof/Machine/Sweep.lean: how slices issue (R20 to R23, R30, R31, R34, R38 to R42, R67, R171, R172): waits
that end, clauses that start, the sweep, its cost, and the events by which stalled paths go on.
-/

namespace Sys2Proof.Machine

/-! ## Waits that end (R30, R133, R134, R151, R167, R170, R178, R224) -/

/-- The threads of a path that stand in one stall at an instruction. -/
def Group.stalledWith (g : Group) (pc : Nat) (r : Stall) : List Nat :=
  (g.threads.filter fun t => t.2.wait = some (.stall r) && t.2.pc = pc).map Prod.fst

/-- A stalled thread issues its instruction again. -/
def State.reissue (s : State) (gid l : Nat) : State := s.modThread gid l fun t => { t with wait := none, parked := false }

/-- A value that a waiting `QPOP` receives can be read 6 cycles later (R8, R170). -/
def State.lateResult (s : State) (gid l : Nat) (d : Opnd) : State :=
  s.modGroup gid fun g => { g with
    due := Map.put l (Map.put d.code.toNat (s.cyc (pairOf g.core) + 6) (Map.get g.due l [])) g.due }

/-- All lanes of a group that wait in `RFT` at one address return once their horizons have passed (R151). -/
def State.wakeRft (s : State) (gid : Nat) (g : Group) (pc : Nat) : State :=
  let ls := (g.threads.filter fun t => t.2.wait = some .rft && t.2.pc = pc).map Prod.fst
  if !ls.isEmpty && ls.all fun l => (s.unsettled gid l).isEmpty then
    let s := s.returnAll gid ls
    s.freeWith gid ls
  else s

/-- A waiting thread goes on if what it waits for has come about. A thread whose failure can be delivered stays for its
trap (R74). -/
def State.wakeOne (s : State) (gid l : Nat) : State :=
  match s.group? gid with
  | none => s
  | some g =>
    let t := g.thread l
    match t.wait with
    | none => s
    | some w =>
      if s.deliverable gid l && t.interruptible then s
      else
        match w with
        | .waith a => if s.passed gid l a then s.wake gid l else s
        | .fence x upto => if s.fencePending gid l x upto then s else (s.fenceEnd gid x).wake gid l
        | .mopr upto => if s.moprPending gid l upto then s else s.wake gid l
        | .mwait ids =>
          if (s.core g.core).eng.any fun e => ids.contains e.1 then s else (s.acquire g.core .core).wake gid l
        | .pwait tk _ => if (s.ticketOp g.core tk).isNone then (s.ticketAcquire gid).wake gid l else s
        | .waitl tk d =>
          match s.ticketStatus g.ctx tk with
          | some n => ((s.acquire g.core .dev).dst32 gid l d (BitVec.ofNat 32 n)).wake gid l
          | none => s
        | .qpush k v h =>
          match s.push gid l k v h with
          | some s => s.wake gid l
          | none => s
        | .qpop k d h =>
          match s.pop gid l k h (s.src32 gid l d) with
          | some (s, v) => ((s.dstWait gid l d v).lateResult gid l d).wake gid l
          | none => s
        | .rft => s.wakeRft gid g t.pc
        | .shared k =>
          let o := g.thread k
          if o.pc = t.pc && o.phase = .active && o.wait.isSome then s else s.reissue gid l
        | .withPath k =>
          let o := g.thread k
          if o.pc = t.pc && o.phase = .active && o.wait.isSome then s else s.advance gid [l]
        | .stall .stores =>
          let ls := g.stalledWith t.pc .stores
          if ls.any fun l => s.storesPending gid l then s else ls.foldl (fun s l => s.reissue gid l) s
        | .stall .order =>
          let ls := g.stalledWith t.pc .order
          if ls.any fun l => s.orderPending gid l then s else ls.foldl (fun s l => s.reissue gid l) s
        | .stall (.page va) => if s.away g.ctx va then s else s.reissue gid l
        | .stall _ | .waitf _ _ _ _ _ | .sleep _ | .bar _ _ _ | .reconv | .bwait _ _ _ | .steal _ _ _ | .suspend _ _ _ => s

/-- The waits of a group that end. -/
def State.wakeWaits (s : State) (gid : Nat) : State :=
  match s.group? gid with
  | none => s
  | some g => ((g.threads.map Prod.fst).foldl (fun s l => s.wakeOne gid l) s).checkReconv gid

/-! ## Paths (R20, R22) -/

/-- A path: an address, the clause in progress there, and the threads that can run. -/
abbrev Path := Nat × Option Clause × List Nat

def Thread.canRun (t : Thread) : Bool := t.phase = .active && !t.parked && t.wait.isNone

def addToPath (t : Thread) (l : Nat) : List Path → List Path
  | [] => [(t.pc, t.clause, [l])]
  | (pc, c, ls) :: ps =>
    if pc = t.pc ∧ c = t.clause then (pc, c, ls ++ [l]) :: ps else (pc, c, ls) :: addToPath t l ps

/-- The paths of a group. A thread whose failure can be delivered starts no further clause (R74). -/
def State.paths (s : State) (gid : Nat) (g : Group) : List Path :=
  (g.threads.filter fun t => t.2.canRun && (t.2.clause.isSome || !s.deliverable gid t.1)).foldl
    (fun ps t => addToPath t.2 t.1 ps) []

/-! ## Reaching and starting a clause (R38 to R42) -/

/-- Fetches words from an address on, or answers where the first failing one lies. -/
def State.fetch (s : State) (ctx die : Nat) (sys : Bool) : Nat → Nat → Except (XErr × Nat) (State × List Word)
  | 0, _ => .ok (s, [])
  | n + 1, va =>
    match s.gread ctx va 4 { x := true } sys die with
    | .error e => .error (e, va)
    | .ok (s, b) =>
      match s.fetch ctx die sys n (va + 4) with
      | .error e => .error e
      | .ok (s, ws) => .ok (s, BitVec.ofNat 32 (ofBytes b) :: ws)

/-- What the fetch of a clause came to: the clause, a malformed one, or a failing word. -/
def State.fetchClause (s : State) (g : Group) (pc : Nat) : Except (XErr × Nat) (State × Option Clause) :=
  let at_ := (g.cbase + pc) % 2 ^ 64
  let sys := s.sysMode g.ctx
  match s.fetch g.ctx (pairOf g.core) sys 1 at_ with
  | .error e => .error e
  | .ok (s, hs) =>
    let hw := hs.headD 0
    match Header.read hw with
    | none => .ok (s, none)
    | some h =>
      match s.fetch g.ctx (pairOf g.core) sys h.n (at_ + 4) with
      | .error e => .error e
      | .ok (s, ws) => .ok (s, if (checkClause hw ws).isSome then some ⟨pc, hw, ws⟩ else none)

/-- Lanes take a PRECISE trap at a clause header, at which they resume. -/
def State.trapHeader (s : State) (gid : Nat) (g : Group) (pc : Nat) (lanes : List Nat) (c : Cause) (fault : Nat) : State :=
  let l0 := lanes.headD 0
  let at_ := (g.cbase + pc) % 2 ^ 64
  s.takeTrap gid lanes
    { cause := c, cls := .precise, ins := at_, fault := fault, hz := s.hz gid l0, opc := (g.thread l0).opc, resume := at_ }

/-- The words of the clause at an offset, its header among them; 1 where the header cannot be read. -/
def State.clauseWords (s : State) (g : Group) (pc : Nat) : Nat :=
  match s.fetch g.ctx (pairOf g.core) (s.sysMode g.ctx) 1 ((g.cbase + pc) % 2 ^ 64) with
  | .ok (_, hs) => ((Header.read (hs.headD 0)).elim 0 Header.n) + 1
  | .error _ => 1

/-- A code fetch that misses in the walker's cache waits for its walk, for the group and its lowest lane (R317, R318). -/
def State.codeWalked (s : State) (gid : Nat) (g : Group) (pc lane : Nat) : State × Bool :=
  let va := (g.cbase + pc) % 2 ^ 64
  match s.walked g.ctx va 4 gid lane with
  | (s, false) => (s, false)
  | (s, true) => if s.needsWalk g.ctx va then (s, true) else s.walked g.ctx va (4 * s.clauseWords g pc) gid lane

/-- A path reaches a header (R38, steps 1 and 2): deliverable failures trap, the clause is fetched and checked. Lanes whose
code page is not present park. -/
def State.reach (s : State) (gid : Nat) (p : Path) : State :=
  match s.group? gid, p with
  | some g, (pc, none, ls) =>
    match s.codeWalked gid g pc (ls.headD 0) with
    | (s, false) => s
    | (s, true) =>
    match s.fetchClause g pc with
    | .ok (s, some _) => s
    | .ok (s, none) => s.trapHeader gid g pc ls .illegalClause 0
    | .error (.cause c, va) => s.trapHeader gid g pc ls c va
    | .error (.notPresent, va) =>
      ls.foldl (fun s l => s.modThread gid l fun t => { t with parked := true, wait := some (.stall (.page va)) }) s
  | _, _ => s

/-- Whether the code of a clause can be read without a walk. -/
def State.codeCached (s : State) (g : Group) (pc : Nat) : Bool :=
  (pageStarts ((g.cbase + pc) % 2 ^ 64) (4 * s.clauseWords g pc)).all fun va => !s.needsWalk g.ctx va

/-- The condition of step 3: the flags named are zero, and with `HW` every thread's horizon has passed its `OPC`. -/
def State.mayStart (s : State) (gid : Nat) (g : Group) (c : Clause) (ls : List Nat) : Bool :=
  ((List.range 12).all fun f => !c.header.wait.getLsbD f || g.flag f == 0)
    && (!c.header.hw || ls.all fun l => (s.unsettled gid l).isEmpty)

/-- The clause that a path at a header can start now. -/
def State.startable (s : State) (gid : Nat) (g : Group) (p : Path) : Option Clause :=
  match p with
  | (pc, none, ls) =>
    if !s.codeCached g pc then none
    else
      match s.fetchClause g pc with
      | .ok (_, some c) => if s.mayStart gid g c ls then some c else none
      | _ => none
  | (_, some _, _) => none

/-- Whether a path is ready: in a clause, or before one that may start. -/
def State.pathReady (s : State) (gid : Nat) (g : Group) (p : Path) : Bool :=
  p.2.1.isSome || (s.startable gid g p).isSome

/-- A path at a header starts its clause if it may; while `HW` holds it back its stores drain (R351). -/
def State.startPath (s : State) (gid : Nat) (p : Path) : State :=
  match s.group? gid with
  | none => s
  | some g =>
    match s.startable gid g p with
    | some c => p.2.2.foldl (fun s l => s.modThread gid l fun t => { t with pc := p.1 + 4, clause := some c, t := [] }) s
    | none =>
      match p, s.fetchClause g p.1 with
      | (_, none, ls), .ok (_, some c) => if c.header.hw then ls.foldl (fun s l => s.drainThread gid l) s else s
      | _, _ => s

/-- Traps of failures that can be delivered, lane by lane (R74). -/
def State.deliverAll (s : State) (gid : Nat) : State :=
  match s.group? gid with
  | none => s
  | some g => (g.threads.map Prod.fst).foldl (fun s l => if s.deliverable gid l then s.deliverFailure gid l else s) s

/-- Everything that stands before an issue of a group: waits that end, traps, clauses reached. -/
def State.settleIn (s : State) (gid : Nat) : State :=
  let s := (s.wakeWaits gid).deliverAll gid
  match s.group? gid with
  | none => s
  | some g => (s.paths gid g).foldl (fun s p => s.reach gid p) s

/-- CLAUSE_START: the path of a thread at a header. -/
def execClauseStart (s : State) : Out :=
  let gid := s.sel.a
  let s := (s.wakeWaits gid).deliverAll gid
  match s.group? gid with
  | none => .next s
  | some g =>
    if !g.started then .next s
    else
      match (s.paths gid g).find? fun p => p.2.1.isNone && p.2.2.contains s.sel.b with
      | some p => .next ((s.reach gid p).startPath gid p)
      | none => .next s

/-! ## Which group issues (R20, R21, R30, R31, R34) -/

/-- Whether a core's slices may issue at all: its die is online and not halted, its clock runs (R403, R406, R407). -/
def State.coreOn (s : State) (core : Nat) : Bool :=
  let d := s.die (pairOf core)
  d.st = .online && !d.halted && s.clocked core

/-- Groups on a slice, in launch order. -/
def State.onSlice (s : State) (core k : Nat) : List (Nat × Group) :=
  s.groups.filter fun e => e.2.core = core && e.2.slice = k && e.2.started

/-- The duty of R287 lets a grid's groups issue in the first 64·d cycles of every 1,024. -/
def State.onDuty (s : State) (g : Group) : Bool :=
  match ((s.team? g.team).bind Team.grid).bind s.grid? with
  | some gr => decide (s.cyc (pairOf g.core) % 1024 < 4 * gr.duty)
  | none => true

/-- The ready paths of a group. -/
def State.readyPaths (s : State) (gid : Nat) : List Path :=
  match s.group? gid with
  | none => []
  | some g => (s.paths gid g).filter fun p => s.pathReady gid g p

/-- A thread's state is one of those in which R30 calls its group blocked. Before an `HW` clause the horizons of its whole path
count (R38). -/
def State.threadBlocked (s : State) (gid : Nat) (g : Group) (l : Nat) (t : Thread) : Bool :=
  t.phase = .exited || t.phase = .exiting || t.parked || (s.deliverable gid l && t.interruptible) ||
    match t.wait with
    | some w =>
      (match w with
      | .qpush _ _ _ | .qpop _ _ _ | .sleep _ | .bar _ _ _ | .reconv | .waitf _ _ _ _ _ | .waith _ | .waitl _ _ | .pwait _ _
      | .bwait _ _ _ | .mwait _ | .rft | .withPath _ | .shared _ => true
      | .stall _ | .steal _ _ _ | .suspend _ _ _ | .fence _ _ | .mopr _ => false)
    | none =>
      match t.clause, s.fetchClause g t.pc with
      | none, .ok (_, some c) => c.header.hw &&
        g.threads.any fun e => e.2.pc = t.pc && e.2.clause.isNone && e.2.canRun && !(s.unsettled gid e.1).isEmpty
      | _, _ => false

def State.groupBlocked (s : State) (gid : Nat) (g : Group) : Bool :=
  g.threads.all fun t => s.threadBlocked gid g t.1 t.2

/-- Whether every resident group of a core is blocked. A core without a group is not gated, so that a first group pays no restart
(DESIGN CHOICE, log entry 66: R30 speaks of resident groups only). -/
def State.coreBlocked (s : State) (core : Nat) : Bool :=
  let gs := (s.resident core).filter fun e => e.2.started
  !gs.isEmpty && gs.all fun e => s.groupBlocked e.1 e.2

/-- A core gates its clock when all its groups are blocked; the end of a blocked state starts a restart of 40 cycles. -/
def State.gate (s : State) (core : Nat) : State :=
  let c := s.core core
  let b := s.coreBlocked core
  if b && !c.gated then s.modCore core fun c => { c with gated := true, restart := none }
  else if !b && c.gated && c.restart.isNone then
    s.modCore core fun c => { c with restart := some (s.cyc (pairOf core) + 40) }
  else s

/-- CORE_RESTART_END. -/
def execCoreRestartEnd (s : State) : Out :=
  let c := s.sel.a
  match (s.core c).restart with
  | some e => if e ≤ s.cyc (pairOf c) then .next (s.modCore c fun x => { x with gated := false, restart := none }) else .next s
  | none => .next s

/-- Group `a` is picked before group `b`: the boost, the class, the priority, the age (R34). Of two boosted in one cycle the one
that stands first in the list of groups goes first (DESIGN CHOICE, log entry 66). -/
def pickBefore (a b : Group) : Bool :=
  match a.boost, b.boost with
  | some x, some y => decide (x ≤ y)
  | some _, none => true
  | none, some _ => false
  | none, none =>
    decide (b.cls < a.cls) || (a.cls = b.cls && (decide (b.prio < a.prio) || (a.prio = b.prio && decide (a.age ≤ b.age))))

def firstPick : List (Nat × Group) → Option (Nat × Group)
  | [] => none
  | g :: gs =>
    match firstPick gs with
    | some h => if pickBefore g.2 h.2 then some g else some h
    | none => some g

/-- Notes since when each group of a slice has been ready without issuing: the group that the slice issued last, since its sweep
has ended at the earliest. -/
def State.noteReady (s : State) (core k : Nat) : State :=
  let now := s.cyc (pairOf core)
  (s.onSlice core k).foldl (fun s e =>
    let r := !(s.readyPaths e.1).isEmpty
    let from_ := if Map.get? (s.core core).lastIssue k = some e.1 then max now (Map.get (s.core core).busy k 0) else now
    s.modGroup e.1 fun g => { g with ready := if r then some (g.ready.getD from_) else none }) s

/-- GROUP_BOOST: ready for 256 core cycles without issuing. -/
def execGroupBoost (s : State) : Out :=
  match s.group? s.sel.a with
  | none => .next s
  | some g =>
    match g.ready, g.boost with
    | some r, none =>
      let now := s.cyc (pairOf g.core)
      .next (if r + 256 ≤ now then s.modGroup s.sel.a fun g => { g with boost := some now } else s)
    | _, _ => .next s

/-- A more populous path comes first, and of two as populous the one at the lower address. -/
def pathBefore (a b : Path) : Bool :=
  decide (b.2.2.length < a.2.2.length) || (a.2.2.length = b.2.2.length && decide (a.1 ≤ b.1))

def insertPath (p : Path) : List Path → List Path
  | [] => [p]
  | q :: qs => if pathBefore p q then p :: q :: qs else q :: insertPath p qs

/-- The path that 16 sweeps of its group have passed over, if there is one that is ready; of several the one with the lowest lane
(DESIGN CHOICE, log entry 66). -/
def Group.starved (g : Group) (ps : List Path) : Option Nat :=
  (ps.find? fun p => decide (16 ≤ Map.get g.starve p.1 0)).map (·.1)

/-- The sweeps that have passed over each path of a group, ready or not, after one that issues `ps` (R21). -/
def Group.passedOver (g : Group) (ps : List Path) : Map Nat :=
  let pcs := ((g.threads.filter fun t => t.2.phase = .active).map fun t => t.2.pc).eraseDups
  (pcs.filter fun pc => !ps.any fun p => p.1 = pc).foldl (fun m pc => Map.put pc (Map.get g.starve pc 0 + 1) m) []

/-- PATH_STARVATION: the starved path replaces the less populous one at the next sweep. -/
def execPathStarvation (s : State) : Out :=
  let gid := s.sel.a
  match s.group? gid with
  | none => .next s
  | some g =>
    match g.starved (s.readyPaths gid) with
    | some pc => .next (s.modGroup gid fun g => { g with forced := some pc })
    | none => .next s

/-- The one or two paths that a sweep issues (R21). -/
def choosePaths (g : Group) (ps : List Path) : List Path :=
  let two := (ps.foldr insertPath []).take 2
  match (match g.forced with
    | some pc => some pc
    | none => g.starved ps).bind fun pc => ps.find? fun p => p.1 = pc with
  | some f => if two.contains f then two else two.take 1 ++ [f]
  | none => two

/-- The lanes of a path that its next instruction executes; all of them where it decodes to nothing. -/
def State.executing? (s : State) (gid : Nat) (lanes : List Nat) : List Nat :=
  match lanes.head?.map fun l => (s.thread gid l, s.group? gid) with
  | some (t, some g) =>
    match t.clause.bind fun c => (c.decode t.pc).toOption with
    | some i => lanes.filter fun l => g.guard (Instr.guardOf i) l
    | _ => lanes
  | _ => lanes

/-- The slots of a sweep: the path with the lowest executing lane performs first (R23, R162). -/
def State.slotsOf (s : State) (gid : Nat) (ps : List Path) : List Slot :=
  let one (p : Path) : Slot := { gid := gid, lanes := p.2.2, pc := if p.2.1.isSome then p.1 else p.1 + 4 }
  let low (p : Path) : Nat := (s.executing? gid p.2.2).headD 64
  match ps with
  | [a, b] => if low b < low a then [one b, one a] else [one a, one b]
  | ps => ps.map one

/-- A sweep of a slice, after its groups' waits and traps have been seen to. -/
def State.sweepGroup (s : State) (core k gid : Nat) : State :=
  match s.group? gid with
  | none => s
  | some g =>
    let ready := s.readyPaths gid
    let ps := choosePaths g ready
    let starve := g.passedOver ps
    let s := ps.foldl (fun s p => if p.2.1.isSome then s else s.startPath gid p) s
    let s := s.modGroup gid fun g => { g with ready := none, boost := none, starve := starve, forced := none }
    let s := (s.onSlice core k).foldl (fun s e => s.modGroup e.1 fun g => { g with skip := false }) s
    let s := s.modCore core fun c => { c with lastIssue := Map.put k gid c.lastIssue }
    { s with issue := s.slotsOf gid ps }

/-- Whether a slice can sweep: its core runs, its last sweep is over and it holds no slot of that (R35). -/
def State.sliceFree (s : State) (core k : Nat) : Bool :=
  s.coreOn core && !(s.core core).gated && decide (Map.get (s.core core).busy k 0 ≤ s.cyc (pairOf core)) && s.issue.isEmpty
    && (Map.get? (s.core core).held k).isNone

/-- INSTRUCTION_SWEEP: one slice picks a group and its paths (R21, R34). -/
def execInstructionSweep (s : State) : Out :=
  let core := s.sel.a
  let k := s.sel.b
  if !s.coreOn core then .next s
  else
    let s := (s.onSlice core k).foldl (fun s e => s.settleIn e.1) s
    let s := (s.gate core).noteReady core k
    if !s.sliceFree core k then .next s
    else
      let ready := (s.onSlice core k).filter fun e => e.2.ready.isSome && s.onDuty e.2
      let keen := ready.filter fun e => !e.2.skip || e.2.boost.isSome
      match firstPick (if keen.isEmpty then ready else keen) with
      | some (gid, _) => .next (s.sweepGroup core k gid)
      | none => .next s

/-! ## The instruction of a slot (R21, R38 to R40) -/

/-- The lanes of a slot that still stand at its instruction, inside one clause. -/
def State.slotLanes (s : State) (sl : Slot) : List Nat :=
  match s.group? sl.gid with
  | none => []
  | some g =>
    let c := sl.lanes.findSome? fun l => if (g.thread l).pc = sl.pc then (g.thread l).clause else none
    sl.lanes.filter fun l =>
      let t := g.thread l
      t.canRun && t.pc = sl.pc && t.clause.isSome && t.clause = c

/-- The instruction at which the lanes of a slot stand. -/
def State.slotDecode (s : State) (sl : Slot) : Option Instr :=
  (sl.lanes.head?.bind fun l => (s.thread sl.gid l).clause).bind fun c => (c.decode sl.pc).toOption

/-! ## What a slot costs (R67, R171, R172) -/

/-- Issue cycles of one thread, or of the path where the instruction executes once for it (R67, R267). -/
def threadCost (i : Instr) : Nat :=
  match i with
  | .fdiv _ _ _ _ => 8
  | .dadd _ _ _ _ | .dmul _ _ _ _ | .dfma _ _ _ _ _ => 4
  | .fcmp _ x _ _ _ => if x.ty = .f64 then 4 else 1
  | .frnd _ x _ _ => if x.ty = .f64 then 4 else 1
  | .cvt _ x _ _ => if x.dty = .f64 || x.sty = .f64 then 4 else 1
  | .rcp _ _ _ | .rsq _ _ _ | .sqrt _ _ _ | .exp2 _ _ _ | .log2 _ _ _ | .sinpi _ _ _ | .cospi _ _ _ | .tanh _ _ _
  | .sigm _ _ _ => 2
  | .gmtab _ _ _ => 40
  | _ => 1

/-- Cycles that a cross-lane instruction costs its path besides: log2 W. -/
def pathCost (w : Nat) (i : Instr) : Nat :=
  match i with
  | .vote _ _ _ | .ballot _ _ _ | .redux _ _ _ _ | .scan _ _ _ _ | .matchL _ _ _ | .matchW64 _ _ _ | .first _ _ _
  | .lanemask _ _ _ | .gmred _ _ _ _ => Nat.log2 w
  | _ => 0

/-- Bank words of an access on a core of the cluster: the core's rank, the bank [8:4] and the word [21:4]. -/
def bankWords (r a n : Nat) : List (Nat × Nat × Nat) :=
  (List.range (max 1 (n / 16))).map fun i => (r, (a + 16 * i) / 16 % 32, (a + 16 * i) % 2 ^ 22 / 16)

/-- The cost of one batch (R171): the most distinct words in any bank; each lane of an atomic counts by itself. -/
def batchCost (atom : Bool) (n : Nat) (as : List (Nat × Nat)) : Nat :=
  let ws := as.flatMap fun a => bankWords a.1 a.2 n
  let ws := if atom then ws else ws.eraseDups
  ws.foldl (fun m w => max m (ws.filter fun x => x.1 = w.1 && x.2.1 = w.2.1).length) 0

/-- The costs of the batches of sixteen threads. -/
def batches (atom : Bool) (n : Nat) : Nat → List (Nat × Nat) → List Nat
  | 0, _ => []
  | fuel + 1, as => if as.isEmpty then [] else batchCost atom n (as.take 16) :: batches atom n fuel (as.drop 16)

/-- The scratchpad accesses of an instruction's executing threads, each with the rank of its core: their bytes, whether each counts by
itself, and where they are; one where it executes once for its path, none of a thread whose address is refused. An update of a
byte-counting barrier counts as an atomic does (DESIGN CHOICE, log entry 66). -/
def State.scratchAt (s : State) (gid : Nat) (i : Instr) (on : List Nat) : Option (Nat × Bool × List (Nat × Nat)) :=
  let own := ((s.team? (s.teamOf gid)).map Team.rank).getD 0
  let w := ((s.group? gid).map Group.w).getD 16
  let ls := if (i.need w).perPath then on.take 1 else on
  let at_ (n : Nat) (ea : Nat → Nat) : List (Nat × Nat) :=
    (ls.filter fun l => (s.eaBad .scratch gid (ea l) n n).isNone).map fun l =>
      (if ea l / 2 ^ 28 = 15 then own else ea l / 2 ^ 28, ea l)
  let mem (x : Mx) (a b : Opnd) : List (Nat × Nat) := at_ (Mx.bytes x) fun l => s.eaLocal gid l a b x.ofs
  let bar (a : Opnd) : List (Nat × Nat) := at_ 16 fun l => (s.src32 gid l a).toNat
  match i with
  | .lds _ x _ a b | .sts _ x _ a b => some (Mx.bytes x, false, mem x a b)
  | .atoms _ x _ a b => some (Mx.bytes x, true, mem x a b)
  | .binit _ a _ | .btest _ _ a _ | .bwait _ _ a _ => some (16, false, bar a)
  | .bexp _ a _ | .barr _ a => some (16, true, bar a)
  | _ => none

/-- The costs of the scratchpad batches that an instruction's executing threads need (R171). -/
def State.scratchCosts (s : State) (gid : Nat) (i : Instr) (on : List Nat) : List Nat :=
  match s.scratchAt gid i on with
  | some (n, atom, as) => batches atom n 5 as
  | none => []

/-- The hop cost of R33, which bounds it by 8 cycles for each hop: 8 for each hop to the farthest core that the instruction
reaches (DESIGN CHOICE, log entry 66). -/
def State.hopCost (s : State) (gid : Nat) (i : Instr) (on : List Nat) : Nat :=
  match s.scratchAt gid i on, s.team? (s.teamOf gid) with
  | some (_, _, as), some t =>
    let c := max 1 ((Map.get? s.clusters t.cluster).elim 1 Cluster.cols)
    let far (a b : Nat) : Nat := max a b - min a b
    8 * as.foldl (fun m a => max m (far (a.1 % c) (t.rank % c) + far (a.1 / c) (t.rank / c))) 0
  | _, _ => 0

/-- Executing threads of a slot. -/
def Slot.on (s : State) (c : Slot) (i : Instr) (g : Guard) : List Nat :=
  match s.group? c.gid with
  | none => []
  | some gr => c.lanes.filter fun l => (s.check i gr l).isNone && gr.guard g l

/-- The codes that a run of registers has in `Group.due`: code + i where it is a register. -/
def Opnd.codes (o : Opnd) (n : Nat) : List Nat :=
  ((List.range n).map fun i => (o.plus i).code.toNat).filter fun c => decide (c < 116)

/-- What an instruction reads that may still be on its way (R68): registers, temporaries, predicates (128 + k). -/
def Instr.readCodes (w : Nat) (i : Instr) : List Nat :=
  let pred (n : Nat) : List Nat := [128 + n]
  ((i.need w).srcs.flatMap fun e => Opnd.codes e.1 e.2)
    ++ (match i with
      | .spawn _ x a _ | .rspawn _ x a _ => Opnd.codes a (x.nw.toNat + 1)
      | .tdef _ _ a => Opnd.codes a 8
      | .plop _ _ _ a b => pred a.toNat ++ pred b.toNat
      | .sel _ x _ _ _ => pred x.ps.val
      | .vote _ x _ => pred x.ps.val
      | .ballot _ _ a => pred a.toNat
      | _ => [])
    ++ (match Instr.guardOf i with
      | .pred n => pred n.val
      | .always | .never => [])

/-- The codes of the two predicates of a pair. -/
def pairCodes (k : Nat) : List Nat := [128 + 2 * k, 128 + (2 * k + 1)]

/-- What an instruction writes with a latency, and the latency (R67). Results of MEM, ASYNC and MTX instructions come
through completion flags, but for `QPOP`'s (R170) and ticket pairs (R174). -/
def Instr.writeCodes (w : Nat) (i : Instr) : List Nat × Nat :=
  let regs := (i.need w).dst.elim [] fun e => Opnd.codes e.1 e.2
  match i with
  | .icmp _ _ d _ _ | .fcmp _ _ d _ _ | .vote _ _ d => (pairCodes d.toNat, 6)
  | .plop _ _ d _ _ => ([128 + d.toNat], 6)
  | .shfl _ x _ _ _ => (regs ++ (match x.pr with
    | some k => pairCodes k.val
    | none => []), 6)
  | .qpop _ _ d _ => (Opnd.codes d 1, 6)
  | .fdiv _ _ _ _ | .rcp _ _ _ | .rsq _ _ _ | .sqrt _ _ _ | .exp2 _ _ _ | .log2 _ _ _ | .sinpi _ _ _ | .cospi _ _ _
  | .tanh _ _ _ | .sigm _ _ _ => (regs, 12)
  | .cpy _ _ _ _ _ | .tload _ _ _ _ _ | .tstore _ _ _ _ _ | .bankop _ _ _ _ _ | .restripe _ _ _ _ _ => (regs, 6)
  | _ => if i.page = 0 || i.page = 5 || i.page = 6 then (regs, 6) else ([], 0)

/-- A slot of a sweep as its timing sees it: what it executes, its executing lanes, what it reads, and when the slots of
its lanes begin. -/
structure Timed where
  i : Instr
  on : List Nat
  reads : List Nat
  once : Bool
  begins : Map Nat := []
  deriving DecidableEq, Repr

/-- When a lane can read what an instruction reads. -/
def Group.readyAt (g : Group) (l : Nat) (codes : List Nat) : Nat :=
  codes.foldl (fun m c => max m (Map.get (Map.get g.due (if 64 ≤ c && decide (c < 112) then 64 else l) []) c 0)) 0

/-- The slots of one lane: each begins after the slots before it and when its registers can be read (R68). An instruction
executed once per path has its slot at the path's lowest lane, when what its threads read can be read. -/
def timeLane (g : Group) (l : Nat) : Nat → List Timed → Nat × List Timed
  | c, [] => (c, [])
  | c, t :: ts =>
    if t.on.contains l then
      match t.once, t.begins with
      | true, (_, b) :: _ =>
        let (c, ts) := timeLane g l c ts
        (c, { t with begins := Map.put l b t.begins } :: ts)
      | _, _ =>
        let b := (if t.once then t.on else [l]).foldl (fun b k => max b (g.readyAt k t.reads)) c
        let (c, ts) := timeLane g l (b + threadCost t.i) ts
        (c, { t with begins := Map.put l b t.begins } :: ts)
    else
      let (c, ts) := timeLane g l c ts
      (c, t :: ts)

/-- A sweep visits the threads of both paths in lane order (R21). -/
def timeLanes (g : Group) (ls : List Nat) (c : Nat) (ts : List Timed) : Nat × List Timed :=
  ls.foldl (fun r l => timeLane g l r.1 r.2) (c, ts)

/-- Notes when the results of a slot can be read: after the lane's slot, or after the path's last slot where the instruction
is a cross-lane one or writes a uniform register (R67). -/
def Group.noteDue (g : Group) (t : Timed) : Group :=
  let (codes, lat) := Instr.writeCodes g.w t.i
  let last := t.begins.foldl (fun m e => max m e.2) 0
  let cross := decide (pathCost g.w t.i ≠ 0)
  let put (d : Map (Map Nat)) (k c v : Nat) : Map (Map Nat) := Map.put k (Map.put c v (Map.get d k [])) d
  let due := t.begins.foldl (fun d e => codes.foldl (fun d c =>
    let uni := decide (64 ≤ c) && decide (c < 112)
    put d (if uni then 64 else e.1) c ((if cross || uni then last else e.2) + threadCost t.i + lat)) d) g.due
  { g with due := due }

/-- The ports that a group's batches may take: one of the four is kept for bounded teams (R172, R285). -/
def State.portsFor (s : State) (g : Group) : List Nat :=
  let bounded := (s.team? g.team).any Team.bounded
  if bounded || !s.teams.any fun t => t.2.core = g.core && t.2.bounded then List.range 4 else List.range 3

/-- A port that is free now. -/
def State.freePort (s : State) (g : Group) : Option Nat :=
  (s.portsFor g).find? fun p => decide ((s.core g.core).ports.getD p 0 ≤ s.cyc (pairOf g.core))

/-- Slices of a core that wait for a port now. -/
def State.portWaits (s : State) (core : Nat) : List Nat :=
  ((s.core core).held.filter fun h => h.2.port && decide (h.2.at_ ≤ s.cyc (pairOf core))).map Prod.fst

/-- The port that a group's next batch takes: a free one, none while another slice waits already; a bounded team's batch never
waits, since one port is kept for it (R172). -/
def State.portNow (s : State) (g : Group) : Option Nat :=
  if (s.team? g.team).any Team.bounded then some ((s.freePort g).getD 3)
  else if (s.portWaits g.core).any fun k => k ≠ g.slice then none
  else s.freePort g

/-- A batch takes a port for its cost, which is added to the slice's sweep. A bounded team's port is kept for it. -/
def State.usePort (s : State) (g : Group) (p cost : Nat) : State :=
  s.modCore g.core fun x =>
    { x with
      ports := x.ports.set p (max (x.ports.getD p 0) (s.cyc (pairOf g.core)) + cost)
      busy := Map.put g.slice (Map.get x.busy g.slice 0 + cost) x.busy }

/-- The slots that a slice still had to issue begin `d` cycles later. -/
def Slot.later (d : Nat) (sl : Slot) : Slot := { sl with begins := sl.begins.map fun b => Map.modAll (fun _ c => c + d) b }

/-- The sweep of a slice that holds slots has become longer by the wait so far, and what it holds begins later (R35). -/
def State.waited (s : State) (core k : Nat) (h : Held) : State × Held :=
  let d := s.cyc (pairOf core) - h.at_
  (s.modCore core fun c => { c with busy := Map.put k (Map.get c.busy k 0 + d) c.busy },
    { h with slots := h.slots.map (Slot.later d), at_ := max h.at_ (s.cyc (pairOf core)) })

/-- A slice that held slots goes on with them. -/
def State.releaseSlice (s : State) (core k : Nat) (h : Held) : State :=
  let (s, h) := s.waited core k h
  let slots := h.slots
  let s := s.modCore core fun c => { c with held := Map.del k c.held }
  let s := slots.foldl (fun s sl => match s.slotDecode sl, sl.begins with
    | some i, some b => s.modGroup sl.gid fun g => g.noteDue { i := i, on := [], reads := [], once := false, begins := b }
    | _, _ => s) s
  { s with issue := slots }

/-- The group whose batch a slice holds. -/
def State.heldGroup (s : State) (h : Held) : Option Group := h.slots.head?.bind fun sl => s.group? sl.gid

/-- A port for the batch that a slice holds: a bounded team's does not wait, since one port is kept for it (R172, R285). -/
def State.heldPort (s : State) (h : Held) : Option Nat :=
  match s.heldGroup h with
  | none => some 0
  | some g => if (s.team? g.team).any Team.bounded then some ((s.freePort g).getD 3) else s.freePort g

/-- Whether a bounded team's batch waits. -/
def State.heldBounded (s : State) (h : Held) : Bool := (s.heldGroup h).any fun g => (s.team? g.team).any Team.bounded

/-- BATCH_PORT_GRANT: a port goes to a bounded team's batch, or else to that of the next waiting slice in round-robin order that
one of its ports is free for; after its last batch the slice goes on (R172). -/
def execBatchPortGrant (s : State) : Out :=
  let core := s.sel.a
  let rr := (s.core core).rr
  let ws := (((List.range 64).map fun i => (rr + i) % 64).filter fun k => (s.portWaits core).contains k).filterMap fun k =>
    (Map.get? (s.core core).held k).map fun h => (k, h)
  if !s.coreOn core || !s.issue.isEmpty then .next s
  else
    match ((ws.filter fun w => s.heldBounded w.2) ++ ws).find? fun w => (s.heldPort w.2).isSome with
    | none => .next s
    | some (k, h) =>
      let (t, h) := s.waited core k h
      match h.slots, t.heldGroup h with
      | sl :: rest, some g =>
        let lanes := t.slotLanes sl
        let costs := match t.slotDecode { sl with lanes := lanes } with
          | some i => t.scratchCosts sl.gid i (Slot.on t { sl with lanes := lanes } i (Instr.guardOf i))
          | none => []
        match costs[sl.paid]? with
        | none => .next (t.releaseSlice core k h)
        | some cost =>
          let t := (t.usePort g ((t.heldPort h).getD 0) cost).modCore core fun c => { c with rr := (k + 1) % 64 }
          let h := { h with slots := { sl with paid := sl.paid + 1 } :: rest }
          if sl.paid + 1 < costs.length then
            .next (t.modCore core fun c => { c with held := Map.put k { h with at_ := t.cyc (pairOf core) + cost } c.held })
          else .next (t.releaseSlice core k h)
      | _, _ => .next (t.releaseSlice core k h)

/-! ## Stalls that end (R25, R27, R69, R174, R218) -/

/-- Threads of a group with a stall that satisfies a test issue again. -/
def State.unstall (s : State) (gid : Nat) (t : Group → Nat → Stall → Bool) : State :=
  match s.group? gid with
  | none => s
  | some g =>
    (g.threads.filter fun e => match e.2.wait with
      | some (.stall r) => t g e.1 r
      | _ => false).foldl (fun s e => s.reissue gid e.1) s

def State.unstallOn (s : State) (core : Nat) (t : Nat → Group → Nat → Stall → Bool) : State :=
  (s.resident core).foldl (fun s e => s.unstall e.1 (t e.1)) s

/-- REGISTER_BLOCK_AVAILABLE: a block that a path waits for can be drawn, the oldest group first. -/
def execRegisterBlockAvailable (s : State) : Out :=
  .next (s.unstallOn s.sel.a fun gid _ _ r => match r with
    | .block n => if n ≤ 1 then (s.drawBlock gid).isSome else (s.drawTo gid n 4).isSome
    | _ => false)

/-- FLAG_HEADROOM_FREED: a flag has fallen below 255. -/
def execFlagHeadroomFreed (s : State) : Out :=
  .next (s.unstall s.sel.a fun g _ r => match r with
    | .flag f => decide (g.flag f < 255)
    | _ => false)

/-- OPERATION_LIMIT_FREED: no thread of the path has 1,024 unsettled operations. -/
def execOperationLimitFreed (s : State) : Out :=
  let gid := s.sel.a
  .next (s.unstall gid fun g l r => r = .limit && (g.threads.filter fun e =>
    e.2.wait = some (.stall .limit) && e.2.pc = (g.thread l).pc).all fun e => decide ((s.unsettled gid e.1).length < 1024))

/-- TICKET_SLOT_FREED: the core has a free ticket slot. -/
def execTicketSlotFreed (s : State) : Out :=
  .next (s.unstallOn s.sel.a fun _ _ _ r => r = .ticket && !(s.freeSlots s.sel.a).isEmpty)

/-- ENGINE_PLACE_FREED: the core's matrix engine has a free place, and the slice that has waited for one longest goes on, of
several the lowest (R218; DESIGN CHOICE, log entry 66). -/
def execEnginePlaceFreed (s : State) : Out :=
  let core := s.sel.a
  let ws := (s.core core).held.filter fun h => !h.2.port
  if !s.coreOn core || !s.issue.isEmpty || decide (32 ≤ (s.core core).eng.length) then .next s
  else
    match ws.foldl (fun (b : Option (Nat × Held)) h => match b with
      | some x => if h.2.at_ < x.2.at_ then some h else some x
      | none => some h) none with
    | none => .next s
    | some (k, h) => .next (s.releaseSlice core k h)

/-! ## Waits that end by themselves (R70, R74, R133, R137, R139, R145, R178) -/

/-- TRAP_DELIVERY: the trap of a thread's oldest failure. -/
def execTrapDelivery (s : State) : Out :=
  .next (if s.deliverable s.sel.a s.sel.b then s.deliverFailure s.sel.a s.sel.b else s)

/-- THREAD_EXIT_COMPLETE: nothing of the thread is unsettled any longer. -/
def execThreadExitComplete (s : State) : Out := .next (s.exitDone s.sel.a s.sel.b)

/-- WAITH_RETURN: the horizon has passed. -/
def execWaithReturn (s : State) : Out :=
  match (s.thread s.sel.a s.sel.b).wait with
  | some (.waith _) => .next (s.wakeOne s.sel.a s.sel.b)
  | _ => .next s

/-- WAITF_WAKE: the word is read again. -/
def execWaitfWake (s : State) : Out :=
  .next (if (s.thread s.sel.a s.sel.b).parked then s else s.wfAgain s.sel.a s.sel.b)

/-- WAITF_TIMEOUT: the limit has passed; the last reading decides. -/
def execWaitfTimeout (s : State) : Out :=
  let t := s.thread s.sel.a s.sel.b
  match t.wait with
  | some (.waitf x _ _ _ start) =>
    .next (if s.wfLate s.sel.a x start && !t.parked then s.wfAgain s.sel.a s.sel.b else s)
  | _ => .next s

/-- SLEEP_EXPIRY. -/
def execSleepExpiry (s : State) : Out :=
  let gid := s.sel.a
  match (s.thread gid s.sel.b).wait with
  | some (.sleep till) =>
    if till ≤ s.ctxNow ((s.group? gid).elim 0 Group.ctx) && !s.deliverable gid s.sel.b then .next (s.wake gid s.sel.b)
    else .next s
  | _ => .next s

/-- PROMISE_EXPIRY: the lanes of the thread's path whose promises have passed trap; a ticket that is done ends the wait. -/
def execPromiseExpiry (s : State) : Out :=
  let gid := s.sel.a
  match s.group? gid with
  | none => .next s
  | some g =>
    let pc := (g.thread s.sel.b).pc
    let mine := (g.threads.filterMap fun t => match t.2.wait with
      | some (.pwait tk pr) => if t.2.pc = pc && !s.deliverable gid t.1 then some (t.1, tk, pr) else none
      | _ => none)
    let (s, res) := mine.foldl (fun (r : State × List (Nat × LaneRes)) m =>
      let (s, x) := r.1.pwaitNow gid m.2.1 m.2.2
      (s, r.2 ++ [(m.1, x)])) (s, [])
    let s := res.foldl (fun s r => if r.2 = .next then s.wake gid r.1 else s) s
    let late := res.filterMap fun r => match r.2 with
      | .recover c a => some (r.1, c, a)
      | _ => none
    .next ((s.trapLanes gid .recoverable (late.length + 1) late).freeWith gid (late.map Prod.fst))

end Sys2Proof.Machine
end

