-- ==== Sys2Proof/Machine/House.lean ====
section
/-!
DEFINITION. Sys2Proof/Machine/House.lean: power-on, boot and attestation, clocks and heat, errors, lost dies, time-stop,
snapshots, and contexts that system software creates and ends (R274, R309, R399 to R412).
-/

namespace Sys2Proof.Machine

/-! ## Boot and attestation (R402, R411, R412) -/

/-- The package after a reset: as at power-on, but for what numbers the model's own fresh values and events, the indexes
that the massif gave it, and, but for a power-on, `RTIME`. -/
def State.restart (s : State) (keepTime : Bool) (reason : Nat) : State :=
  { State.reset with
    rtime := if keepTime then s.rtime else 0
    boot := { reason := reason }
    deviceIndex := s.deviceIndex, massifId := s.massifId
    pairs := (List.range 4).map fun d => (d, { rt := if keepTime then s.rtime else 0 })
    energyEnd := if keepTime then s.rtime + 1000000 else 1000000
    freeCtr := s.freeCtr, nextId := s.nextId, agenda := s.agenda, sel := s.sel }

/-- POWER_ON: the boot ROM waits for an image. -/
def execPowerOn (s : State) : Out := .next (s.restart s.sel.flag 0)

/-- The digest over which an image is signed, and whether each of its two signatures verifies against the fused key hash (R411). -/
def Img.digest (i : Sys2Proof.Image) : Nat := Config.sha512 i.bytes
def Img.edOk (i : Sys2Proof.Image) : Bool :=
  Config.keyHash i.edKey = Config.edKeyHash && Config.edVerifies i.edKey i.edSig (Img.digest i)
def Img.mlOk (i : Sys2Proof.Image) : Bool :=
  Config.keyHash i.mlKey = Config.mlKeyHash && Config.mlVerifies i.mlKey i.mlSig (Img.digest i)
def Img.version (i : Sys2Proof.Image) : Nat := Config.imageVersion i.bytes

/-- Why the ROM discards an image; 0 where it accepts it (R411). -/
def Img.reason (i : Sys2Proof.Image) : Nat :=
  if !Img.edOk i then 1 else if !Img.mlOk i then 2 else if Img.version i < Config.fusedMinVersion then 3 else 0

/-- A message to the host over an Ultra Ethernet port, if a belay die is left that has one (R1, R406). -/
def State.tellHost (s : State) (kind : MsgKind) (arg : Nat) (data : List Byte) : State :=
  if !s.belayServes then s else { s with outbox := s.outbox ++ [{ dest := 512, kind := kind, arg := arg, data := data }] }

/-- BOOT_IMAGE: accepted, or discarded with the reason. The ROM runs on belay die 0. -/
def execBootImage (s : State) : Out :=
  let i := s.sel.img
  match s.boot.st with
  | .running => .next s
  | .rom =>
    let r := Img.reason i
    if !s.dieServes 8 then .next s
    else if r = 0 then .next { s with boot := ⟨.running, 0, Img.version i, Img.digest i⟩ }
    else .next ({ s with boot := { s.boot with reason := r } }.tellHost .host r [])

/-- The measurements: ROM digest, image digest and security version, harvest digest, fused minimum version. -/
def State.measurements (s : State) : List Byte :=
  toBytes 64 Config.romDigest ++ toBytes 64 s.boot.digest ++ toBytes 8 s.boot.version ++ toBytes 64 Config.harvestDigest
    ++ toBytes 8 Config.fusedMinVersion

/-- GET_MEASUREMENTS. -/
def execGetMeasurements (s : State) : Out :=
  match s.boot.st with
  | .rom => .next s
  | .running => .next (s.tellHost .measurements 0 s.measurements)

/-! ## Clocks and heat (R403, R404, R410) -/

/-- A step of a die pair's clock begins: its `CYC` stands and the relock ends 2,000 ticks later. -/
def State.step_ (s : State) (d mhz : Nat) : State :=
  let now := s.cyc d
  s.modPair d fun p => { p with cyc := now, rt := s.rtime, mhz := mhz, relock := some (s.rtime + 2000) }

/-- Whether a die pair holds a resident bounded team. -/
def State.boundedOn (s : State) (d : Nat) : Bool := s.teams.any fun t => t.2.bounded && pairOf t.2.core = d

/-- FREQUENCY_STEP: 0.8 to 1.5 GHz in steps of 50 MHz; never under a bounded team. -/
def execFrequencyStep (s : State) : Out :=
  let d := s.sel.a
  let f := s.sel.b
  if 4 ≤ d || f < 800 || 1500 < f || f % 50 ≠ 0 || (s.pair d).relock.isSome || s.boundedOn d then .next s
  else .next (s.step_ d f)

/-- What waited at a clock crossing arrives, in its order, and what waited at a home is tried again (R403). -/
def State.uncross (s : State) : State :=
  let x := s.sel
  let s := s.fifo.foldl State.receive { s with fifo := [] }
  { s with sel := x }.serveAgain

/-- RELOCK_DONE: the epoch is logged and the pair resumes, with what its clock crossings held. -/
def execRelockDone (s : State) : Out :=
  let d := s.sel.a
  let p := s.pair d
  match p.relock with
  | none => .next s
  | some e =>
    if s.rtime < e then .next s
    else
      .next (s.modPair d fun p =>
        { p with relock := none, rt := e, eseq := (p.eseq + 1) % 2 ^ 32
                 epochs := p.epochs.set (p.eseq % 4) (e, p.cyc, p.mhz) }).uncross

/-- THERMAL_STEP: one step down, bounded teams included. -/
def execThermalStep (s : State) : Out :=
  let d := s.sel.a
  let p := s.pair d
  if 4 ≤ d || p.relock.isSome || p.mhz ≤ 800 then .next s else .next (s.step_ d (p.mhz - 50))

/-- THERMAL_SHUTDOWN: every die stops and the package goes to ROM recovery. -/
def execThermalShutdown (s : State) : Out := .next (s.restart true 4)

/-! ## Contexts that end (R77, R276, R282, R406) -/

/-- Whether what a peer asked for is a gang member's part (R358). -/
def ServeKind.isPrepare (k : ServeKind) : Bool :=
  match k with
  | .prepare _ _ => true
  | .read _ _ | .atomic _ _ _ _ | .mcast _ _ _ | .write _ _ _ _ | .spawn _ _ _ => false

/-- A FATAL end of a context: its groups trap, its grids end with status 1, and nothing of it issues again. -/
def State.kill (s : State) (c : Nat) (cause : Cause) : State :=
  let s := (s.groups.filter fun e => e.2.ctx = c).foldl (fun s e => s.fatal e.1 cause) s.trigger
  let s := (s.grids.filter fun e => e.2.ctx = c).foldl (fun s e => s.endGrid e.1 1) s
  let s := (s.teams.filter fun e => e.2.ctx = c).foldl (fun s e => s.dropTeam e.1) s
  let s := s.modCtx c fun x => { x with killed := true, armed := [] }
  { s with
    saves := s.saves.filter fun e => e.2.ctx ≠ c
    images := s.images.filter fun e => e.2.ctx ≠ c
    progs := s.progs.filter fun e => e.2.ctx ≠ c
    lends := s.lends.filter fun e => e.2.r.ctx ≠ c
    serving := s.serving.filter fun x => !(x.ctx = c && x.kind.isPrepare)
    cores := Map.modAll (fun _ k => { k with bin := k.bin.filter fun r => r.ctx ≠ c }) s.cores }

/-! ## Errors (R405) -/

/-- The start of the line of a physical address. -/
def lineOf (a : Nat) : Nat := a / poisonUnit a * poisonUnit a

/-- The contexts whose pages, windows or teams cover a physical address, each with whether it is shared there. -/
def State.coverers (s : State) (a : Nat) : List (Nat × Bool) :=
  if a < bankBase then
    s.ctxs.flatMap fun c => (List.range 4).flatMap fun h =>
      ((s.leaves c.1 h).filter fun f =>
        ((rangesOf (leafWord f.w1) f.size (leafFrame f.w0)).map physRange).any fun r => decide (r.1 ≤ a) && decide (a < r.2)).map
        fun f => ((dbits f.w1 32 6).toNat, f.w1.getLsbD 38)
  else if a < scratchPhys 0 0 then
    s.ctxs.flatMap fun c => (c.2.cfg.windows.filter fun w =>
      decide (w.base ≤ a - bankBase) && decide (a - bankBase < w.base + w.len)).map fun w => (c.1, w.shared)
  else
    (s.teams.filter fun t =>
      let b := scratchPhys t.2.core t.2.scrBase
      decide (b ≤ a) && decide (a < b + t.2.scrLen)).map fun t => (t.2.ctx, false)

/-- The owner of a line; none for a shared one. -/
def State.ownerOf (s : State) (a : Nat) : Option Nat :=
  match s.coverers a with
  | [] => if s.sel.b < 64 then some s.sel.b else none
  | (c, sh) :: rest => if sh || rest.any fun e => e.1 ≠ c || e.2 then none else some c

/-- SCRUB_READ: an error that could be corrected counts on its die. -/
def execScrubRead (s : State) : Out :=
  .next (if s.sel.flag then s.modDie s.sel.a fun d => { d with errs := d.errs + 1 } else s)

/-- UNCORRECTABLE_ERROR: the line is poisoned, and its owner, if it has one, is killed. -/
def execUncorrectableError (s : State) : Out :=
  let a := lineOf s.sel.a
  let s := { s with
    poison := a :: s.poison.filter (· ≠ a)
    cores := Map.modAll (fun _ c => { c with l1 := Map.del (a / 256) c.l1 }) s.cores }
  match s.ownerOf s.sel.a with
  | some c => .next (s.kill c .contextKilled)
  | none => .next s

/-! ## Lost dies (R406) -/

/-- DIE_FAILURE: every context that has touched the die ends. -/
def execDieFailure (s : State) : Out :=
  let d := s.sel.a
  if 10 ≤ d then .next s
  else
    let s := s.modDie d fun x => { x with st := .lost }
    let hit := s.ctxs.filter fun c => c.2.touched.getLsbD d && !c.2.killed
    let s := hit.foldl (fun s c => s.kill c.1 .dieLost) s
    let s := if 8 ≤ d then s.moveProgs d else s
    .next (if d < 4 then s.dropAcks d else s)

/-! ## Time-stop (R407) -/

/-- A time after a stop that began at `t`: later by the ticks for which the stop covered it. -/
def State.later (s : State) (t x : Nat) : Nat := x + (s.rtime - max t x)

/-- The clocks of a context go on after a time-stop that began at `t`. -/
def State.resumeClocks (s : State) (c t : Nat) : State :=
  let d := s.rtime - t
  let wait (w : Wait) : Wait := match w with
    | .sleep till => .sleep (till + d)
    | .waitf x o a b start => .waitf x o a b (start + d)
    | w => w
  let spill := s.spilled c
  let gang (k : OpKind) : OpKind := match k with
    | .gang g => .gang { g with since := g.since + d }
    | k => k
  { s with
    groups := Map.modAll (fun _ g => if g.ctx = c then
        { g with threads := Map.modAll (fun _ th => { th with wait := th.wait.map wait }) g.threads } else g) s.groups
    ops := Map.modAll (fun _ o => if o.ctx = c then
        { o with stop := o.stop + (s.rtime - max t o.issue), kind := gang o.kind } else o) s.ops
    cores := Map.modAll (fun k co =>
      { co with
        bin := co.bin.map fun r => if r.ctx = c then
            { r with born := r.born + d
                     lend := match r.lend with
                       | .lent th at_ => .lent th (at_ + d)
                       | .unlent => .unlent } else r
        spillBorn := Map.modAll (fun a b => if spill.any fun h => h.core = k && h.acc = a then b + d else b) co.spillBorn })
      s.cores
    members := Map.modAll (fun _ m => if m.ctx = c then { m with since := m.since + d } else m) s.members
    progs := Map.modAll (fun _ p => if p.ctx = c then { p with unacked := p.unacked.map fun u => (u.1, u.2 + d) } else p) s.progs
    ctxs := Map.mod c (fun x => { x with stopAt := none }) s.ctxs }

/-- Time-stops begin and end for every context, as its mask and the halted dies have it. -/
def State.timeStops (s : State) : State :=
  s.ctxs.foldl (fun s e =>
    match s.stopped e.1, (s.ctx? e.1).bind Ctx.stopAt with
    | true, none => s.modCtx e.1 fun x => { x with stopAt := some s.rtime }
    | false, some t => s.resumeClocks e.1 t
    | _, _ => s) s

/-- DEBUG_HALT. -/
def execDebugHalt (s : State) : Out :=
  .next (if s.sel.a < 10 then (s.modDie s.sel.a fun d => { d with halted := true }).timeStops else s)

/-- DEBUG_RELEASE. -/
def execDebugRelease (s : State) : Out :=
  .next (if s.sel.a < 10 then (s.modDie s.sel.a fun d => { d with halted := false }).timeStops else s)

/-! ## Snapshots (R408) -/

/-- SNAP_IN: the pin has been held for at least 10 ns. -/
def execSnapIn (s : State) : Out := .next (if 10 ≤ s.sel.a then s.trigger else s)

/-- SNAPSHOT_REARM. -/
def execSnapshotRearm (s : State) : Out := .next { s with snap := { s.snap with latched := false } }

/-! ## Contexts (R223, R274, R309, R310, R370, R385) -/

/-- The first address that a configuration names and the package has not got. -/
def CtxCfg.beyond (c : CtxCfg) : Option Nat :=
  let roots := ((List.range 4).zip c.roots).filterMap fun r => match r.2 with
    | some t => if t % 2 ^ 19 = 0 && t + 2 ^ 19 ≤ 2 ^ 37 then none else some (dieHbm r.1 t)
    | none => none
  let wins := c.windows.filterMap fun w =>
    if w.base % 4096 = 0 && w.len % 4096 = 0 && w.base + w.len ≤ Config.bankBytes then none else some (bankBase + w.base)
  (roots ++ wins).head?

/-- What system software has changed of a context: its mode stays, and touched-dies bits are cleared only while no group of
it is resident (R274, R400; DESIGN CHOICE, log entry 41). -/
def State.reconfigure (s : State) (c : Nat) (cfg : CtxCfg) (clear : BitVec 10) : State :=
  let busy := s.groups.any fun e => e.2.ctx = c
  s.modCtx c fun x => { x with cfg := { cfg with sys := x.cfg.sys }, touched := if busy then x.touched else x.touched &&& ~~~clear }

/-- CONTEXT_CREATION: system software creates a context, once an image runs (R411), or changes one. -/
def execContextCreation (s : State) : Out :=
  let c := s.sel.a
  let cfg := s.sel.cfg
  match s.boot.st with
  | .rom => .next s
  | .running =>
    if 64 ≤ c || 16 < cfg.windows.length || 64 < cfg.grants.length || ((s.ctx? c).isSome && !s.sel.flag) then .next s
    else
      match CtxCfg.beyond cfg with
      | some a => .fault (.noSuchMemory a)
      | none =>
        if (s.ctx? c).isSome then .next (s.reconfigure c cfg (BitVec.ofNat 10 s.sel.b))
        else .next { s with ctxs := Map.put c { cfg := cfg } s.ctxs }

/-- A core forgets which context it held tiles and scratchpad for: a context of the same number is another one (R222, R278). -/
def Core.forget (k : Core) (c : Nat) : Core :=
  { k with
    bin := k.bin.filter fun r => r.ctx ≠ c
    scrOwner := k.scrOwner.map fun r => if r.2.2 = c then (r.1, r.2.1, 64) else r
    lastCtx := if k.lastCtx = some c then none else k.lastCtx, oldTiles := if k.lastCtx = some c then [] else k.oldTiles }

/-- CONTEXT_END: a context without a resident group ends, and with it what was queued, armed, saved or held in bins. -/
def execContextEnd (s : State) : Out :=
  let c := s.sel.a
  if (s.ctx? c).isNone || s.groups.any (fun e => e.2.ctx = c) || s.teams.any (fun e => e.2.ctx = c) then .next s
  else
    .next { s with
      ctxs := Map.del c s.ctxs
      grids := s.grids.filter fun e => e.2.ctx ≠ c
      reserved := s.reserved.filter fun e => (s.grid? e.2.1).all fun g => g.ctx ≠ c
      members := s.members.filter fun e => e.2.ctx ≠ c
      saves := s.saves.filter fun e => e.2.ctx ≠ c
      images := s.images.filter fun e => e.2.ctx ≠ c
      progs := s.progs.filter fun e => e.2.ctx ≠ c
      lends := s.lends.filter fun e => e.2.r.ctx ≠ c
      serving := s.serving.filter fun x => !(x.ctx = c && x.kind.isPrepare)
      unread := s.unread.filter fun u => u.1 ≠ c
      cores := Map.modAll (fun _ k => k.forget c) s.cores }

end Sys2Proof.Machine
end

