-- ==== Sys2Proof/Machine/Lane.lean ====
section
/-!
DEFINITION. Sys2Proof/Machine/Lane.lean: the cross-lane instructions and the transformed-mean reduction of page 6 (R258,
R260 to R268).
-/

namespace Sys2Proof.Machine

/-! ## Frames -/

/-- A cross-lane instruction: `f` gives each participant's registers and the flags of the path. An enabled flag traps
every participant and writes nothing (R261). -/
def cross (i : Instr) (p : Pre) (d : Opnd) (f : State → Nat → Group → List Nat → (Nat → List Word) × Flags) (s : State) :
    Out :=
  inSlot i p s (withNames i fun s c g on =>
    let (r, fl) := f s c.gid g on
    let s := s.raise c.gid fl
    match s.fpTrap? c.gid fl with
    | some e => (s, on.map fun l => (l, .trap e 0))
    | none =>
      let dest := if (i.need g.w).perPath then on.take 1 else on
      (dest.foldl (fun s l => s.dstRun c.gid l d (r l)) s, on.map fun l => (l, .next)))

/-- The registers of a mask operand (R258). -/
def maskRegs (w : Nat) (m : Nat) : List Word := wordsOf (if w = 64 then 2 else 1) (m % 2 ^ w)

/-- A mask of the lanes that satisfy a test. -/
def maskWhere (w : Nat) (f : Nat → Bool) : Nat :=
  (List.range w).foldl (fun m j => if f j then m + 2 ^ j else m) 0

/-! ## Shuffles, votes and masks (R262, R263) -/

/-- The position in the segment that a lane reads, in unbounded integers. -/
def shflPos (mode : Nat) (z i : Nat) (b : Word) : Int :=
  if mode = 0 then b.toNat
  else if mode = 1 then (i : Int) + b.toInt
  else if mode = 2 then ((i + b.toNat) % z : Nat)
  else (i ^^^ b.toNat : Nat)

def execShfl (p : Pre) (x : ShX) (d a b : Opnd) (s : State) : Out :=
  let i := Instr.shfl p x d a b
  inSlot i p s (withNames i fun s c g on =>
    let z := g.w / 2 ^ x.seg.toNat
    let read (l : Nat) : List Word := if x.w64 then wordsOf 2 (s.src64 c.gid l a true).toNat else [s.src32 c.gid l a]
    let readable (l src : Nat) : Bool :=
      if x.c = .nul then true
      else if g.w = 64 then (s.src64 c.gid l x.c true).getLsbD src else (s.src32 c.gid l x.c).getLsbD src
    let pick (l : Nat) : Bool × List Word :=
      let j := shflPos x.mode.toNat z (l % z) (s.src32 c.gid l b)
      let src := l - l % z + j.toNat
      if decide (0 ≤ j) && decide (j < z) && on.contains src && readable l src then (true, read src) else (false, read l)
    let got := on.map fun l => (l, pick l)
    let s := got.foldl (fun s e =>
      let s := s.dstRun c.gid e.1 d e.2.2
      match x.pr with
      | some k => s.setPair c.gid k.val e.1 e.2.1
      | none => s) s
    (s, on.map fun l => (l, .next)))

def execVote (p : Pre) (x : VtX) (d : BitVec 7) (s : State) : Out :=
  inSlot (.vote p x d) p s fun s c g on =>
    let n := (on.filter fun l => g.pred x.ps.val l != x.neg).length
    let v := match x.mode.toNat with
      | 0 => decide (n = on.length)
      | 1 => decide (1 ≤ n)
      | 2 => decide (n = 0) || decide (n = on.length)
      | _ => decide (on.length < 2 * n)
    (on.foldl (fun s l => s.setPair c.gid d.toNat l v) s, on.map fun l => (l, .next))

def execBallot (p : Pre) (d : Opnd) (a : BitVec 7) (s : State) : Out :=
  cross (.ballot p d a) p d (fun _ _ g on =>
    let m := maskRegs g.w (maskWhere g.w fun j => on.contains j && g.pred a.toNat j)
    (fun _ => m, 0)) s

def execFirst (p : Pre) (d a : Opnd) (s : State) : Out :=
  cross (.first p d a) p d (fun s gid _ on =>
    let v := [s.src32 gid (on.headD 0) a]
    (fun _ => v, 0)) s

/-- Leader, size and rank of the class of a participant (R263). -/
def matchWord (on : List Nat) (v : Nat → Nat) (l : Nat) : Word :=
  let same := on.filter fun j => v j = v l
  BitVec.ofNat 32 (same.headD 0 + 2 ^ 6 * same.length + 2 ^ 13 * (same.filter (· < l)).length)

def execMatchL (p : Pre) (d a : Opnd) (s : State) : Out :=
  cross (.matchL p d a) p d (fun s gid _ on => (fun l => [matchWord on (fun j => (s.src32 gid j a).toNat) l], 0)) s

def execMatchW64 (p : Pre) (d a : Opnd) (s : State) : Out :=
  cross (.matchW64 p d a) p d (fun s gid _ on =>
    (fun l => [matchWord on (fun j => (s.src64 gid j a true).toNat) l], 0)) s

def execLanemask (p : Pre) (x : LmX) (d : Opnd) (s : State) : Out :=
  cross (.lanemask p x d) p d (fun _ _ g on =>
    (fun l => maskRegs g.w (maskWhere g.w fun j =>
      match x.mode.toNat with
      | 0 => decide (j < l)
      | 1 => decide (j ≤ l)
      | 2 => decide (l < j)
      | 3 => decide (l ≤ j)
      | 4 => decide (j = l)
      | 5 => on.contains j
      | 6 => on.contains j && decide (j < l)
      | _ => on.contains j && decide (l < j)), 0)) s

/-! ## Reductions and scans (R264, R265) -/

/-- One level of the canonical tree. -/
def treeLevel {α : Type} (f : α → α → α) : List (Option α) → List (Option α)
  | a :: b :: rest =>
    (match a, b with
     | some x, some y => some (f x y)
     | some x, none => some x
     | none, y => y) :: treeLevel f rest
  | [a] => [a]
  | [] => []

/-- The canonical tree over `2^h` leaves. -/
def tree {α : Type} (f : α → α → α) : Nat → List (Option α) → Option α
  | 0, ls => ls.headD none
  | h + 1, ls => tree f h (treeLevel f ls)

/-- The operators of `REDUX`; `SCAN` and `RLOAD` use some of them. -/
inductive ROp where
  | add | min | max | and | or | xor
  deriving DecidableEq, Repr

/-- One combination. -/
def combine (o : ROp) (t : Ty) (a b : Nat) : Nat × Flags :=
  match t.fmt with
  | .ieee f =>
    match o with
    | .add => f.add .rne a b
    | .min => f.minmax false a b
    | _ => f.minmax true a b
  | .narrow _ => (a, 0)
  | .int n _ =>
    let x := t.toInt a
    let y := t.toInt b
    (match o with
     | .add => (a + b) % 2 ^ n
     | .min => if x ≤ y then a else b
     | .max => if x ≤ y then b else a
     | .and => a &&& b
     | .or => a ||| b
     | .xor => a ^^^ b, 0)

/-- The combination with the flags gathered on the way. -/
def combineF (o : ROp) (t : Ty) (a b : Nat × Flags) : Nat × Flags :=
  let (c, fl) := combine o t a.1 b.1
  (c, a.2 ||| b.2 ||| fl)

/-- The identity of a scan (R265). -/
def scanId (o : ROp) (t : Ty) : Nat :=
  match o with
  | .min => if t = .f32 then Fmt.f32.infCode else wrap t.ebits t.hi
  | .max => if t = .f32 then Fmt.f32.signed true Fmt.f32.infCode else wrap t.ebits t.lo
  | _ => 0

def RxX.rop (x : RxX) : ROp :=
  match x.opr.val with
  | 0 => .add | 1 => .min | 2 => .max | 3 => .and | 4 => .or | _ => .xor

def ScX.rop (x : ScX) : ROp :=
  match x.opr.val with
  | 0 => .add | 1 => .xor | 2 => .min | _ => .max

def execRedux (p : Pre) (x : RxX) (d a : Opnd) (s : State) : Out :=
  cross (.redux p x d a) p d (fun s gid g on =>
    let leaf (l : Nat) : Option (Nat × Flags) := if on.contains l then some (s.srcAny gid l x.ty a, 0) else none
    let (r, fl) := (tree (combineF (RxX.rop x) x.ty) (Nat.log2 g.w) ((List.range g.w).map leaf)).getD (0, 0)
    (fun _ => regsOf x.ty r, fl)) s

/-- The values that a scan delivers, by lane. -/
def scanGo (x : ScX) (v : Nat → Nat) : Option (Nat × Flags) → List Nat → List (Nat × Nat) × Flags
  | acc, [] => ([], (acc.map Prod.snd).getD 0)
  | acc, j :: rest =>
    let next := match acc with
      | none => (v j, 0)
      | some a => combineF (ScX.rop x) x.ty a (v j, 0)
    let out := if x.exc then (acc.map Prod.fst).getD (scanId (ScX.rop x) x.ty) else next.1
    let (r, fl) := scanGo x v (some next) rest
    ((j, out) :: r, fl)

def execScan (p : Pre) (x : ScX) (d a : Opnd) (s : State) : Out :=
  cross (.scan p x d a) p d (fun s gid _ on =>
    let (r, fl) := scanGo x (fun j => s.srcAny gid j x.ty a) none on
    (fun l => regsOf x.ty (Map.get r l 0), fl)) s

/-! ## Transformed means (R266, R267) -/

/-- The merge of two leaves with the overflow flags that rule none raises. -/
def gmCombine (v : GmEnv) (a b : GmState × Flags) : GmState × Flags :=
  let (m, fl) := Gm.merge v a.1 b.1
  let keep := if 4 ≤ v.mode && Gm.rule v = 0 then fl &&& (flOF ||| flNX) else 0
  (m, a.2 ||| b.2 ||| (if keep &&& flOF = 0 then 0 else keep))

def execGmred (p : Pre) (x : GmX) (d a : Opnd) (s : State) : Out :=
  cross (.gmred p x d a) p d (fun s gid g on =>
    let v := s.gmEnv g.ctx g.gmMode g.gmShape
    let leaf (l : Nat) : GmState :=
      if x.inS then
        let r := s.srcRun gid l a 4
        let n := r.getD 2 0
        if n = 0 then {} else ⟨(r.getD 0 0).toNat, r.getD 1 0, n⟩
      else Gm.term v (s.srcF gid l a)
    let leaves := on.map fun l => (l, leaf l)
    let (st, fl) : GmState × Flags :=
      if Gm.bad v then (⟨Gm.nanC, 0, leaves.foldl (fun n e => n + e.2.n) 0⟩, flGM)
      else
        let cells := (List.range g.w).map fun l => (Map.get? leaves l).map fun st => (st, (0 : Flags))
        let (st, fl) := (tree (gmCombine v) (Nat.log2 g.w) cells).getD ({}, 0)
        if leaves.any fun e => e.2.n ≠ 0 && Gm.isNan e.2.s then ({ st with s := Gm.nanC }, fl ||| flGM) else (st, fl)
    if x.ext then
      let (c, xf) := Gm.exit v st
      (fun _ => [BitVec.ofNat 32 c], fl ||| xf)
    else (fun _ => [BitVec.ofNat 32 st.s, st.e, st.n, 0], fl)) s

/-- The cause with which a scratchpad address of `n` bytes fails an alignment or its range (R160, R161). -/
def State.scratchBad (s : State) (tid a n al : Nat) : Option Cause :=
  if a % al ≠ 0 then some .misaligned
  else if (s.scratch? tid a n).isNone then some .scratchRange
  else none

/-- `GMTAB` (R267). An uncorrectable error in its scratchpad, which its team owns, has ended the context (R405). Every core and bank sees
the slot as soon as it is written (DESIGN CHOICE, log entry 66). -/
def execGmtab (p : Pre) (d : BitVec 7) (a : Opnd) (s : State) : Out :=
  let i := Instr.gmtab p d a
  inSlot i p s (perLane i fun s gid l =>
    match s.group? gid with
    | none => (s, .next)
    | some g =>
      let ad := (s.src32 gid l a).toNat
      match s.scratchBad g.team ad 536 16, s.scratch? g.team ad 536 with
      | some c, _ => (s, .trap c ad)
      | none, none => (s, .next)
      | none, some ph =>
        let bytes := s.readPhys ph 536
        let img := wordsOf 134 (ofBytes bytes)
        if Gm.imageOk ⟨4, 0, img⟩ then
          (s.modCtx g.ctx fun c => { c with gm := Map.put d.toNat img c.gm }, .next)
        else (s, .trap .tableNonmonotone ad))

end Sys2Proof.Machine
end

