-- ==== Sys2Proof/Machine/Dispatch.lean ====
section
/-!
DEFINITION. Sys2Proof/Machine/Dispatch.lean: one arm for each row of the opcode table.
-/

namespace Sys2Proof.Machine

def exec (i : Instr) (s : State) : Host.Outcome State Fault Refusal :=
  match i with
  | .iadd p d a b => Sys2Proof.Machine.execIadd p d a b s
  | .isub p d a b => Sys2Proof.Machine.execIsub p d a b s
  | .imul p d a b => Sys2Proof.Machine.execImul p d a b s
  | .imulhI p d a b => Sys2Proof.Machine.execImulhI p d a b s
  | .imulhU p d a b => Sys2Proof.Machine.execImulhU p d a b s
  | .iminI p d a b => Sys2Proof.Machine.execIminI p d a b s
  | .iminU p d a b => Sys2Proof.Machine.execIminU p d a b s
  | .imaxI p d a b => Sys2Proof.Machine.execImaxI p d a b s
  | .imaxU p d a b => Sys2Proof.Machine.execImaxU p d a b s
  | .and p d a b => Sys2Proof.Machine.execAnd p d a b s
  | .or p d a b => Sys2Proof.Machine.execOr p d a b s
  | .xor p d a b => Sys2Proof.Machine.execXor p d a b s
  | .andn p d a b => Sys2Proof.Machine.execAndn p d a b s
  | .shl p d a b => Sys2Proof.Machine.execShl p d a b s
  | .shr p d a b => Sys2Proof.Machine.execShr p d a b s
  | .sar p d a b => Sys2Proof.Machine.execSar p d a b s
  | .rol p d a b => Sys2Proof.Machine.execRol p d a b s
  | .iadd64 p d a b => Sys2Proof.Machine.execIadd64 p d a b s
  | .isub64 p d a b => Sys2Proof.Machine.execIsub64 p d a b s
  | .imad p x d a b => Sys2Proof.Machine.execImad p x d a b s
  | .imadw p x d a b => Sys2Proof.Machine.execImadw p x d a b s
  | .bfeU p d a b => Sys2Proof.Machine.execBfeU p d a b s
  | .bfeI p d a b => Sys2Proof.Machine.execBfeI p d a b s
  | .bfi p x d a b => Sys2Proof.Machine.execBfi p x d a b s
  | .popc p d a => Sys2Proof.Machine.execPopc p d a s
  | .clz p d a => Sys2Proof.Machine.execClz p d a s
  | .brev p d a => Sys2Proof.Machine.execBrev p d a s
  | .prmt p x d a b => Sys2Proof.Machine.execPrmt p x d a b s
  | .clmul p d a b => Sys2Proof.Machine.execClmul p d a b s
  | .clmulh p d a b => Sys2Proof.Machine.execClmulh p d a b s
  | .fadd p d a b => Sys2Proof.Machine.execFadd p d a b s
  | .fsub p d a b => Sys2Proof.Machine.execFsub p d a b s
  | .fmul p d a b => Sys2Proof.Machine.execFmul p d a b s
  | .ffma p x d a b => Sys2Proof.Machine.execFfma p x d a b s
  | .fmin p d a b => Sys2Proof.Machine.execFmin p d a b s
  | .fmax p d a b => Sys2Proof.Machine.execFmax p d a b s
  | .sel p x d a b => Sys2Proof.Machine.execSel p x d a b s
  | .padd p x d a b => Sys2Proof.Machine.execPadd p x d a b s
  | .psub p x d a b => Sys2Proof.Machine.execPsub p x d a b s
  | .pmul p x d a b => Sys2Proof.Machine.execPmul p x d a b s
  | .pfma p x d a b => Sys2Proof.Machine.execPfma p x d a b s
  | .pmin p x d a b => Sys2Proof.Machine.execPmin p x d a b s
  | .pmax p x d a b => Sys2Proof.Machine.execPmax p x d a b s
  | .dadd p d a b => Sys2Proof.Machine.execDadd p d a b s
  | .dmul p d a b => Sys2Proof.Machine.execDmul p d a b s
  | .dfma p x d a b => Sys2Proof.Machine.execDfma p x d a b s
  | .icmp p x d a b => Sys2Proof.Machine.execIcmp p x d a b s
  | .fcmp p x d a b => Sys2Proof.Machine.execFcmp p x d a b s
  | .plop p x d a b => Sys2Proof.Machine.execPlop p x d a b s
  | .mov p d a => Sys2Proof.Machine.execMov p d a s
  | .movi p d imm => Sys2Proof.Machine.execMovi p d imm s
  | .iaddi p d a b => Sys2Proof.Machine.execIaddi p d a b s
  | .cvt p x d a => Sys2Proof.Machine.execCvt p x d a s
  | .frnd p x d a => Sys2Proof.Machine.execFrnd p x d a s
  | .fclass p d a => Sys2Proof.Machine.execFclass p d a s
  | .fabs p d a => Sys2Proof.Machine.execFabs p d a s
  | .lop3 p x d a b => Sys2Proof.Machine.execLop3 p x d a b s
  | .iabs p d a => Sys2Proof.Machine.execIabs p d a s
  | .ldg p x d a b => Sys2Proof.Machine.execLdg p x d a b s
  | .stg p x d a b => Sys2Proof.Machine.execStg p x d a b s
  | .lds p x d a b => Sys2Proof.Machine.execLds p x d a b s
  | .sts p x d a b => Sys2Proof.Machine.execSts p x d a b s
  | .ldb p x d a b => Sys2Proof.Machine.execLdb p x d a b s
  | .stb p x d a b => Sys2Proof.Machine.execStb p x d a b s
  | .atomg p x d a b => Sys2Proof.Machine.execAtomg p x d a b s
  | .atoms p x d a b => Sys2Proof.Machine.execAtoms p x d a b s
  | .atomb p x d a b => Sys2Proof.Machine.execAtomb p x d a b s
  | .fence p x => Sys2Proof.Machine.execFence p x s
  | .tfence p x => Sys2Proof.Machine.execTfence p x s
  | .pref p x a b => Sys2Proof.Machine.execPref p x a b s
  | .qpush p x d a => Sys2Proof.Machine.execQpush p x d a s
  | .qpop p x d a => Sys2Proof.Machine.execQpop p x d a s
  | .cpy p x d a b => Sys2Proof.Machine.execCpy p x d a b s
  | .tload p x d a b => Sys2Proof.Machine.execTload p x d a b s
  | .tstore p x d a b => Sys2Proof.Machine.execTstore p x d a b s
  | .pwait p a => Sys2Proof.Machine.execPwait p a s
  | .ptest p d a => Sys2Proof.Machine.execPtest p d a s
  | .binit p a b => Sys2Proof.Machine.execBinit p a b s
  | .bexp p a b => Sys2Proof.Machine.execBexp p a b s
  | .barr p a => Sys2Proof.Machine.execBarr p a s
  | .bwait p d a b => Sys2Proof.Machine.execBwait p d a b s
  | .btest p d a b => Sys2Proof.Machine.execBtest p d a b s
  | .bankop p x d a b => Sys2Proof.Machine.execBankop p x d a b s
  | .restripe p x d a b => Sys2Proof.Machine.execRestripe p x d a b s
  | .geoq p d a => Sys2Proof.Machine.execGeoq p d a s
  | .cancel p d a => Sys2Proof.Machine.execCancel p d a s
  | .manch p d a => Sys2Proof.Machine.execManch p d a s
  | .mldw p x d a => Sys2Proof.Machine.execMldw p x d a s
  | .mswap p d => Sys2Proof.Machine.execMswap p d s
  | .mma p x d a b => Sys2Proof.Machine.execMma p x d a b s
  | .mzero p d a => Sys2Proof.Machine.execMzero p d a s
  | .mrd p x d a b => Sys2Proof.Machine.execMrd p x d a b s
  | .mwr p x d a b => Sys2Proof.Machine.execMwr p x d a b s
  | .msts p x d a b => Sys2Proof.Machine.execMsts p x d a b s
  | .rstat p x d a b => Sys2Proof.Machine.execRstat p x d a b s
  | .mscale p x d a b => Sys2Proof.Machine.execMscale p x d a b s
  | .tdef p id a => Sys2Proof.Machine.execTdef p id a s
  | .tqry p d id wd => Sys2Proof.Machine.execTqry p d id wd s
  | .mopr p => Sys2Proof.Machine.execMopr p s
  | .mwait p a => Sys2Proof.Machine.execMwait p a s
  | .mcst p x d a b => Sys2Proof.Machine.execMcst p x d a b s
  | .rload p x d a b => Sys2Proof.Machine.execRload p x d a b s
  | .coll p h a => Sys2Proof.Machine.execColl p h a s
  | .scbset p a b => Sys2Proof.Machine.execScbset p a b s
  | .scbclr p a b => Sys2Proof.Machine.execScbclr p a b s
  | .arm p x a b => Sys2Proof.Machine.execArm p x a b s
  | .gang p a b => Sys2Proof.Machine.execGang p a b s
  | .peerq p d a => Sys2Proof.Machine.execPeerq p d a s
  | .wcflush p => Sys2Proof.Machine.execWcflush p s
  | .rspawn p x a b => Sys2Proof.Machine.execRspawn p x a b s
  | .mgrp p a b => Sys2Proof.Machine.execMgrp p a b s
  | .bra p imm => Sys2Proof.Machine.execBra p imm s
  | .brx p a => Sys2Proof.Machine.execBrx p a s
  | .call p d imm => Sys2Proof.Machine.execCall p d imm s
  | .ret p a => Sys2Proof.Machine.execRet p a s
  | .brh p imm a => Sys2Proof.Machine.execBrh p imm a s
  | .waith p a => Sys2Proof.Machine.execWaith p a s
  | .reconv p => Sys2Proof.Machine.execReconv p s
  | .bar p x a => Sys2Proof.Machine.execBar p x a s
  | .spawn p x a b => Sys2Proof.Machine.execSpawn p x a b s
  | .exit p => Sys2Proof.Machine.execExit p s
  | .suspend p d a => Sys2Proof.Machine.execSuspend p d a s
  | .resume p a => Sys2Proof.Machine.execResume p a s
  | .resumeS p d a => Sys2Proof.Machine.execResumeS p d a s
  | .cdiscard p d a => Sys2Proof.Machine.execCdiscard p d a s
  | .ccopyMove p a b => Sys2Proof.Machine.execCcopyMove p a b s
  | .ccopyFork p a b => Sys2Proof.Machine.execCcopyFork p a b s
  | .sleep p a => Sys2Proof.Machine.execSleep p a s
  | .waitf p x d a b => Sys2Proof.Machine.execWaitf p x d a b s
  | .trap p imm => Sys2Proof.Machine.execTrap p imm s
  | .rft p => Sys2Proof.Machine.execRft p s
  | .getsr p d a => Sys2Proof.Machine.execGetsr p d a s
  | .setsr p d a => Sys2Proof.Machine.execSetsr p d a s
  | .yieldH p => Sys2Proof.Machine.execYieldH p s
  | .racq p a => Sys2Proof.Machine.execRacq p a s
  | .rrel p => Sys2Proof.Machine.execRrel p s
  | .nop p => Sys2Proof.Machine.execNop p s
  | .steal p d a => Sys2Proof.Machine.execSteal p d a s
  | .launch p d a => Sys2Proof.Machine.execLaunch p d a s
  | .waitl p d a => Sys2Proof.Machine.execWaitl p d a s
  | .snap p a => Sys2Proof.Machine.execSnap p a s
  | .rcp p d a => Sys2Proof.Machine.execRcp p d a s
  | .rsq p d a => Sys2Proof.Machine.execRsq p d a s
  | .sqrt p d a => Sys2Proof.Machine.execSqrt p d a s
  | .exp2 p d a => Sys2Proof.Machine.execExp2 p d a s
  | .log2 p d a => Sys2Proof.Machine.execLog2 p d a s
  | .sinpi p d a => Sys2Proof.Machine.execSinpi p d a s
  | .cospi p d a => Sys2Proof.Machine.execCospi p d a s
  | .tanh p d a => Sys2Proof.Machine.execTanh p d a s
  | .fdiv p d a b => Sys2Proof.Machine.execFdiv p d a b s
  | .sigm p d a => Sys2Proof.Machine.execSigm p d a s
  | .shfl p x d a b => Sys2Proof.Machine.execShfl p x d a b s
  | .vote p x d => Sys2Proof.Machine.execVote p x d s
  | .ballot p d a => Sys2Proof.Machine.execBallot p d a s
  | .redux p x d a => Sys2Proof.Machine.execRedux p x d a s
  | .scan p x d a => Sys2Proof.Machine.execScan p x d a s
  | .matchL p d a => Sys2Proof.Machine.execMatchL p d a s
  | .matchW64 p d a => Sys2Proof.Machine.execMatchW64 p d a s
  | .gmred p x d a => Sys2Proof.Machine.execGmred p x d a s
  | .gmtab p d a => Sys2Proof.Machine.execGmtab p d a s
  | .first p d a => Sys2Proof.Machine.execFirst p d a s
  | .lanemask p x d => Sys2Proof.Machine.execLanemask p x d s
  | .send w => Sys2Proof.Machine.execSend w s
  | .recv w => Sys2Proof.Machine.execRecv w s
  | .rrs w => Sys2Proof.Machine.execRrs w s
  | .rrw w => Sys2Proof.Machine.execRrw w s
  | .copyStep w => Sys2Proof.Machine.execCopyStep w s
  | .waitStep w => Sys2Proof.Machine.execWaitStep w s
  | .loopStep w => Sys2Proof.Machine.execLoopStep w s
  | .endl w => Sys2Proof.Machine.execEndl w s
  | .peerStep w => Sys2Proof.Machine.execPeerStep w s
  | .signal w => Sys2Proof.Machine.execSignal w s
  | .endStep w => Sys2Proof.Machine.execEndStep w s
  | .instructionSweep => Sys2Proof.Machine.execInstructionSweep s
  | .pathStarvation => Sys2Proof.Machine.execPathStarvation s
  | .groupBoost => Sys2Proof.Machine.execGroupBoost s
  | .clauseStart => Sys2Proof.Machine.execClauseStart s
  | .coreRestartEnd => Sys2Proof.Machine.execCoreRestartEnd s
  | .registerBlockAvailable => Sys2Proof.Machine.execRegisterBlockAvailable s
  | .flagHeadroomFreed => Sys2Proof.Machine.execFlagHeadroomFreed s
  | .operationLimitFreed => Sys2Proof.Machine.execOperationLimitFreed s
  | .ticketSlotFreed => Sys2Proof.Machine.execTicketSlotFreed s
  | .enginePlaceFreed => Sys2Proof.Machine.execEnginePlaceFreed s
  | .batchPortGrant => Sys2Proof.Machine.execBatchPortGrant s
  | .trapDelivery => Sys2Proof.Machine.execTrapDelivery s
  | .globalLoadReturn => Sys2Proof.Machine.execGlobalLoadReturn s
  | .globalStoreAccept => Sys2Proof.Machine.execGlobalStoreAccept s
  | .remoteTimeout => Sys2Proof.Machine.execRemoteTimeout s
  | .heldOperationRelease => Sys2Proof.Machine.execHeldOperationRelease s
  | .threadExitComplete => Sys2Proof.Machine.execThreadExitComplete s
  | .waithReturn => Sys2Proof.Machine.execWaithReturn s
  | .waitfWake => Sys2Proof.Machine.execWaitfWake s
  | .waitfTimeout => Sys2Proof.Machine.execWaitfTimeout s
  | .sleepExpiry => Sys2Proof.Machine.execSleepExpiry s
  | .promiseExpiry => Sys2Proof.Machine.execPromiseExpiry s
  | .copySector => Sys2Proof.Machine.execCopySector s
  | .copyComplete => Sys2Proof.Machine.execCopyComplete s
  | .pageWalkComplete => Sys2Proof.Machine.execPageWalkComplete s
  | .pageService => Sys2Proof.Machine.execPageService s
  | .parkedReplay => Sys2Proof.Machine.execParkedReplay s
  | .replInvalidateAck => Sys2Proof.Machine.execReplInvalidateAck s
  | .restripeLineMove => Sys2Proof.Machine.execRestripeLineMove s
  | .tfenceWalkerAck => Sys2Proof.Machine.execTfenceWalkerAck s
  | .plannedDieOffline => Sys2Proof.Machine.execPlannedDieOffline s
  | .retainedStateExit => Sys2Proof.Machine.execRetainedStateExit s
  | .bankRequestAdmit => Sys2Proof.Machine.execBankRequestAdmit s
  | .bankRequestPerform => Sys2Proof.Machine.execBankRequestPerform s
  | .wcDrain => Sys2Proof.Machine.execWcDrain s
  | .wcEntryAgeExpiry => Sys2Proof.Machine.execWcEntryAgeExpiry s
  | .binRecordAccept => Sys2Proof.Machine.execBinRecordAccept s
  | .binTimerExpiry => Sys2Proof.Machine.execBinTimerExpiry s
  | .binDeferredLaunch => Sys2Proof.Machine.execBinDeferredLaunch s
  | .spillRefill => Sys2Proof.Machine.execSpillRefill s
  | .spillWaitEnd => Sys2Proof.Machine.execSpillWaitEnd s
  | .stealCopyArrival => Sys2Proof.Machine.execStealCopyArrival s
  | .stealAck => Sys2Proof.Machine.execStealAck s
  | .stealConfirm => Sys2Proof.Machine.execStealConfirm s
  | .stealRefusal => Sys2Proof.Machine.execStealRefusal s
  | .lendTimeout => Sys2Proof.Machine.execLendTimeout s
  | .stealAnswerTimeout => Sys2Proof.Machine.execStealAnswerTimeout s
  | .thiefCoreReset => Sys2Proof.Machine.execThiefCoreReset s
  | .victimCoreReset => Sys2Proof.Machine.execVictimCoreReset s
  | .hostIntake => Sys2Proof.Machine.execHostIntake s
  | .gridQueueHead => Sys2Proof.Machine.execGridQueueHead s
  | .admission => Sys2Proof.Machine.execAdmission s
  | .effectivePriorityAging => Sys2Proof.Machine.execEffectivePriorityAging s
  | .teamPlacement => Sys2Proof.Machine.execTeamPlacement s
  | .clusterReservation => Sys2Proof.Machine.execClusterReservation s
  | .gridEnd => Sys2Proof.Machine.execGridEnd s
  | .preemption => Sys2Proof.Machine.execPreemption s
  | .teamSave => Sys2Proof.Machine.execTeamSave s
  | .teamRestore => Sys2Proof.Machine.execTeamRestore s
  | .energyWindowEnd => Sys2Proof.Machine.execEnergyWindowEnd s
  | .checkpoint => Sys2Proof.Machine.execCheckpoint s
  | .suspendWrite => Sys2Proof.Machine.execSuspendWrite s
  | .resumeClaim => Sys2Proof.Machine.execResumeClaim s
  | .restoredGroupStart => Sys2Proof.Machine.execRestoredGroupStart s
  | .matrixOpStart => Sys2Proof.Machine.execMatrixOpStart s
  | .matrixOperandRelease => Sys2Proof.Machine.execMatrixOperandRelease s
  | .matrixOpRetire => Sys2Proof.Machine.execMatrixOpRetire s
  | .preamble => Sys2Proof.Machine.execPreamble s
  | .integ => Sys2Proof.Machine.execInteg s
  | .sealedBlockClose => Sys2Proof.Machine.execSealedBlockClose s
  | .grant => Sys2Proof.Machine.execGrant s
  | .linkctl => Sys2Proof.Machine.execLinkctl s
  | .read => Sys2Proof.Machine.execRead s
  | .write => Sys2Proof.Machine.execWrite s
  | .wdata => Sys2Proof.Machine.execWdata s
  | .atomic => Sys2Proof.Machine.execAtomic s
  | .rdata => Sys2Proof.Machine.execRdata s
  | .ack => Sys2Proof.Machine.execAck s
  | .nack => Sys2Proof.Machine.execNack s
  | .mcast => Sys2Proof.Machine.execMcast s
  | .mcastRound => Sys2Proof.Machine.execMcastRound s
  | .laneRetuneDone => Sys2Proof.Machine.execLaneRetuneDone s
  | .mcastReplyTimeout => Sys2Proof.Machine.execMcastReplyTimeout s
  | .rloadRepliesComplete => Sys2Proof.Machine.execRloadRepliesComplete s
  | .rloadServerFallback => Sys2Proof.Machine.execRloadServerFallback s
  | .spawnFlit => Sys2Proof.Machine.execSpawnFlit s
  | .cdata => Sys2Proof.Machine.execCdata s
  | .cctl => Sys2Proof.Machine.execCctl s
  | .rekeyStart => Sys2Proof.Machine.execRekeyStart s
  | .keyInstall => Sys2Proof.Machine.execKeyInstall s
  | .genFlip => Sys2Proof.Machine.execGenFlip s
  | .oldKeyErase => Sys2Proof.Machine.execOldKeyErase s
  | .planeLoss => Sys2Proof.Machine.execPlaneLoss s
  | .gangPrepare => Sys2Proof.Machine.execGangPrepare s
  | .gangPrepared => Sys2Proof.Machine.execGangPrepared s
  | .gangRefused => Sys2Proof.Machine.execGangRefused s
  | .gangGo => Sys2Proof.Machine.execGangGo s
  | .gangGoAck => Sys2Proof.Machine.execGangGoAck s
  | .gangAbort => Sys2Proof.Machine.execGangAbort s
  | .gangTear => Sys2Proof.Machine.execGangTear s
  | .gangPrepareTimeout => Sys2Proof.Machine.execGangPrepareTimeout s
  | .gangGoWaitTimeout => Sys2Proof.Machine.execGangGoWaitTimeout s
  | .gangAckTimeout => Sys2Proof.Machine.execGangAckTimeout s
  | .collProgramStart => Sys2Proof.Machine.execCollProgramStart s
  | .programFault => Sys2Proof.Machine.execProgramFault s
  | .chunkTimeout => Sys2Proof.Machine.execChunkTimeout s
  | .uetRmaWrite => Sys2Proof.Machine.execUetRmaWrite s
  | .cxlExpanderRemoval => Sys2Proof.Machine.execCxlExpanderRemoval s
  | .powerOn => Sys2Proof.Machine.execPowerOn s
  | .bootImage => Sys2Proof.Machine.execBootImage s
  | .getMeasurements => Sys2Proof.Machine.execGetMeasurements s
  | .frequencyStep => Sys2Proof.Machine.execFrequencyStep s
  | .relockDone => Sys2Proof.Machine.execRelockDone s
  | .thermalStep => Sys2Proof.Machine.execThermalStep s
  | .thermalShutdown => Sys2Proof.Machine.execThermalShutdown s
  | .scrubRead => Sys2Proof.Machine.execScrubRead s
  | .uncorrectableError => Sys2Proof.Machine.execUncorrectableError s
  | .dieFailure => Sys2Proof.Machine.execDieFailure s
  | .debugHalt => Sys2Proof.Machine.execDebugHalt s
  | .debugRelease => Sys2Proof.Machine.execDebugRelease s
  | .snapIn => Sys2Proof.Machine.execSnapIn s
  | .snapshotRearm => Sys2Proof.Machine.execSnapshotRearm s
  | .ccopyComplete => Sys2Proof.Machine.execCcopyComplete s
  | .stealRequest => Sys2Proof.Machine.execStealRequest s
  | .planeOnline => Sys2Proof.Machine.execPlaneOnline s
  | .contextCreation => Sys2Proof.Machine.execContextCreation s
  | .contextEnd => Sys2Proof.Machine.execContextEnd s

end Sys2Proof.Machine
end

