-- ==== Sys2Proof/Machine/Pick.lean ====
section
/-!
DEFINITION. Sys2Proof/Machine/Pick.lean: what a step does around the meaning it runs: the instruction that a slot fetches
from its clause (R21, R38, R39, R65), its cost (R67), the events that agents of the device may bring about now, and a
machine that stands before an instruction. Which enabled event comes next, and when, the spec leaves open (DESIGN CHOICE, log entry 31).
-/

namespace Sys2Proof.Machine

/-! ## The instruction of a slot -/

/-- A slot as the timing of its sweep sees it: one that does not issue has no executing lane. A cross-lane instruction has a slot in
each participant, also where its destination is uniform (R260). -/
def State.timed (s : State) (g : Group) (sl : Slot) : Option Timed :=
  let lanes := s.slotLanes sl
  (s.slotDecode { sl with lanes := lanes }).map fun i =>
    { i := i, on := if sl.back then [] else Slot.on s { sl with lanes := lanes } i (Instr.guardOf i), reads := Instr.readCodes g.w i
      once := (i.need g.w).perPath && pathCost g.w i = 0 }

/-- Times the slots of a sweep that begins: when each lane's slot begins, what the sweep costs, and when its results can
be read (R21, R67, R68). -/
def State.timeSweep (s : State) (sls : List Slot) : State × List Slot :=
  match sls.head?.bind fun sl => s.group? sl.gid with
  | none => (s, sls)
  | some g =>
    let gid := (sls.headD { gid := 0, lanes := [], pc := 0 }).gid
    let (c, ts) := timeLanes g (List.range g.w) (s.sliceNow g) (sls.filterMap (s.timed g))
    let c := ts.foldl (fun c t => if t.on.isEmpty then c else c + pathCost g.w t.i) c
    let s := s.modGroup gid fun g => ts.foldl Group.noteDue g
    let s := s.modCore g.core fun x => { x with busy := Map.put g.slice c x.busy }
    (s, sls.map fun sl => { sl with begins := some ((ts.filter fun t => t.on.all sl.lanes.contains).flatMap Timed.begins) })

/-- A slot's scratchpad batches: the state in which it can be executed, once each has had a port and its hops have been counted;
or the state in which its slice waits, for a port or for the end of a batch before the last (R171, R172). -/
def State.charge (s : State) (sl : Slot) (g : Group) (i : Instr) : Except State State :=
  let on := Slot.on s sl i (Instr.guardOf i)
  let costs := if sl.back then [] else s.scratchCosts sl.gid i on
  let now := s.cyc (pairOf g.core)
  match costs[sl.paid]? with
  | none =>
    let hop := if sl.back then 0 else s.hopCost sl.gid i on
    .ok (if hop = 0 then s else s.modCore g.core fun c => { c with busy := Map.put g.slice (s.sliceNow g + hop) c.busy })
  | some cost =>
    match s.portNow g with
    | none => .error (s.holdSlice true now sl)
    | some p =>
      let s := s.usePort g p cost
      if sl.paid + 1 < costs.length then .error (s.holdSlice true (now + cost) { sl with paid := sl.paid + 1 })
      else
        let hop := s.hopCost sl.gid i on
        .ok (if hop = 0 then s else s.modCore g.core fun c => { c with busy := Map.put g.slice (s.sliceNow g + hop) c.busy })

/-- Fetches the instruction of a slot: the state in which it is to be executed, and the instruction. None is executed where
no lane stands there any longer, where the slice waits for a port, or where the words decode to nothing, which is
`ILLEGAL_INSTRUCTION` (R65). -/
def State.slotInstr (s : State) (sl : Slot) : State × Option Instr :=
  match sl.prog with
  | some k =>
    match (s.prog? k).bind fun p => (p.words[p.ip]?).map decodeStep with
    | some (.ok i) => ({ s with cur := some sl }, some i)
    | _ => (s, none)
  | none =>
    let lanes := s.slotLanes sl
    match s.group? sl.gid, (lanes.head?.bind fun l => (s.thread sl.gid l).clause) with
    | some g, some c =>
      let sl := { sl with lanes := lanes }
      match c.decode sl.pc with
      | .error _ => (s.trapAt sl.gid lanes .illegalInstruction .precise 0, none)
      | .ok i =>
        match s.charge sl g i with
        | .error s => (s, none)
        | .ok s => ({ s with cur := some sl }, some i)
    | _, _ => (s, none)

/-- The next slot of a sweep in progress; the sweep is timed when its first slot comes. -/
def State.nextSlot (s : State) : State × Option Instr :=
  let (s, sls) := match s.issue with
    | [] => (s, [])
    | sl :: rest => if sl.begins.isSome || sl.prog.isSome then (s, sl :: rest) else s.timeSweep (sl :: rest)
  match sls with
  | [] => (s, none)
  | sl :: rest => State.slotInstr { s with issue := rest } sl

/-- After a meaning: the slot is over. -/
def State.endSlot (s : State) : State := { s with cur := none }

/-! ## Events that may come next -/

/-- An event of an agent of the device: the tick before which it does not come, the event, what it acts on, and for a step
word the program. -/
structure Cand where
  due : Nat
  i : Instr
  x : Sel
  prog : Option Nat := none

/-- The state in which a candidate is executed. -/
def State.atCand (s : State) (c : Cand) : State :=
  { s with rtime := max s.rtime c.due, sel := c.x, cur := c.prog.map fun k => { gid := 0, lanes := [], pc := 0, prog := some k } }

def ev (due : Nat) (i : Instr) (a : Nat) (b : Nat := 0) (c : Nat := 0) (flag : Bool := false) : Cand :=
  { due := due, i := i, x := { a := a, b := b, c := c, flag := flag } }

/-- Ticks that an access of a core to global memory takes by default: at the own die pair's home, or elsewhere. -/
def farTicks (core va : Nat) : Nat := if vaHome va = pairOf core then 350 else 550

/-- What may come next of one operation, by its kind. -/
def State.kindEvents (s : State) (id : Nat) (o : Op) : List Cand :=
  let late := o.issue + s.stopTicks o + Config.remoteTimeout
  let at_ (n : Nat) (i : Instr) : Cand := ev (o.issue + n) i id
  match o.kind with
  | .load sp a _ _ => if sp = .bank then [at_ 150 .bankRequestAdmit] else [at_ (farTicks o.core a) .globalLoadReturn]
  | .pref a _ => [at_ (farTicks o.core a) .globalLoadReturn]
  | .store sp a _ =>
    if sp = .bank then [at_ 150 .bankRequestAdmit]
    else at_ (farTicks o.core a) .globalStoreAccept :: []
  | .atom sp a _ _ _ _ _ _ => if sp = .bank then [at_ 150 .bankRequestAdmit] else [at_ (farTicks o.core a) .globalStoreAccept]
  | .tfence ws => (ws.filter fun w => decide (w < 16)).map fun w => ev (o.issue + 200) .tfenceWalkerAck id w
  | .async a j =>
    (match j with
    | .copy _ _ _ _ _ => [at_ (400 + a.pos) .copySector, at_ 400 .bankRequestAdmit]
    | .tile _ _ _ _ _ _ => [at_ (400 + a.pos) .copySector]
    | .bank _ _ _ _ _ _ => [at_ 150 .bankRequestAdmit]
    | .restripe _ _ _ _ _ => [at_ 0 .restripeLineMove]) ++ [at_ 0 .copyComplete]
  | .spawn _ _ _ | .rspawn _ _ _ => [at_ 150 .binRecordAccept, at_ 150 .spillWaitEnd]
  | .resume _ _ _ => [at_ 0 .resumeClaim]
  | .ccopy _ _ _ => [at_ 0 .ccopyComplete]
  | .mcst m =>
    (if m.tuned then [at_ 0 .mcastRound] else [ev (m.at_ + 30) .laneRetuneDone id])
      ++ (List.range m.poss.length).map fun i => ev late .mcastReplyTimeout id i
  | .rload _ => [at_ 0 .rloadRepliesComplete, at_ 0 .rloadServerFallback]
  | .gang g =>
    let own := s.deviceIndex.toNat
    let lapse := s.rtime + (g.since + 20000 - s.ctxNow o.ctx)
    [ev o.issue .gangPrepare own g.gang, ev o.issue .gangGo g.gang, ev lapse .gangPrepareTimeout id, ev lapse .gangAckTimeout id]
  | .scb _ _ _ => [at_ 0 .heldOperationRelease]
  | .poll .bank _ _ _ => [at_ 150 .bankRequestAdmit]
  | .chunk _ va _ _ _ => if (bankAddr? va).isSome then [at_ 150 .bankRequestAdmit] else []
  | .sign _ _ | .coll _ _ | .arm _ | .peerq _ | .wcflush _ | .mgrp _ _ | .queue | .poll .global _ _ _ | .poll .scratch _ _ _ => []

/-- What may come next of the operations in flight. -/
def State.opEvents (s : State) : List Cand :=
  (s.ops.filter fun e => !e.2.st.settled).flatMap fun e =>
    let o := e.2
    (if o.held then [ev o.issue .heldOperationRelease e.1] else s.kindEvents e.1 o)
      ++ [ev (o.issue + s.stopTicks o + Config.remoteTimeout) .remoteTimeout e.1]

/-- What may come next of one thread. -/
def State.threadEvents (s : State) (gid l : Nat) (g : Group) (t : Thread) : List Cand :=
  let lapse (start n : Nat) : Nat := s.rtime + (start + n - s.ctxNow g.ctx)
  (if s.deliverable gid l then [ev s.rtime .trapDelivery gid l] else [])
    ++ (if t.phase = .exiting then [ev s.rtime .threadExitComplete gid l] else [])
    ++ (if t.canRun && t.clause.isNone && g.started then [ev s.rtime .clauseStart gid l] else [])
    ++ match t.wait with
      | some (.waith _) => [ev s.rtime .waithReturn gid l]
      | some (.waitf x _ _ _ start) =>
        ev s.rtime .waitfWake gid l ::
          if x.tmo ≠ 0 then [ev (lapse start (2 ^ (x.tmo.toNat + 9))) .waitfTimeout gid l] else []
      | some (.sleep till) => [ev (lapse till 0) .sleepExpiry gid l]
      | some (.pwait _ pr) => [ev (s.rtime + (pr.toNat + 2 ^ 32 - s.rtime % 2 ^ 32) % 2 ^ 32) .promiseExpiry gid l]
      | _ => []

/-- What may come next of one group. -/
def State.groupEvents (s : State) (gid : Nat) (g : Group) : List Cand :=
  let stalled (f : Stall → Bool) : Bool := g.threads.any fun t => match t.2.wait with
    | some (.stall r) => f r
    | _ => false
  let parked := g.threads.any (fun t => t.2.parked) || s.ops.any fun e => e.2.gid = gid && e.2.st = .parked
  (g.threads.flatMap fun t => s.threadEvents gid t.1 g t.2)
    ++ (if parked then [ev s.rtime .parkedReplay gid] else [])
    ++ (if g.suspLeader.isSome then [ev s.rtime .suspendWrite gid] else [])
    ++ (if !g.started then [ev s.rtime .restoredGroupStart gid] else [])
    ++ (match g.susp with
      | .none => []
      | .preempt => [ev s.rtime .teamSave g.team]
      | .checkpoint => [ev s.rtime .checkpoint g.team])
    ++ (match g.stealing with
      | some (_, _, _, at_) => [ev (at_ + 200) .stealRequest gid, ev (at_ + 2000) .stealAnswerTimeout gid]
      | none => [])
    ++ (if stalled fun _ => true then
      [ev s.rtime .flagHeadroomFreed gid, ev s.rtime .operationLimitFreed gid, ev s.rtime .spillWaitEnd gid 0 0 true,
        ev s.rtime .registerBlockAvailable g.core, ev s.rtime .ticketSlotFreed g.core]
    else [])
    ++ (match g.ready with
      | some r => [ev s.rtime .pathStarvation gid, ev (s.tickAt (pairOf g.core) (r + 256)) .groupBoost gid]
      | none => [])

/-- A slice whose ready groups are off duty looks again when the next 1,024 cycles begin (R287). -/
def State.dutyEvent (s : State) (core k : Nat) : List Cand :=
  if (s.onSlice core k).any fun e => e.2.ready.isSome && !s.onDuty e.2 then
    [ev (s.tickAt (pairOf core) ((s.cyc (pairOf core) / 1024 + 1) * 1024)) .instructionSweep core k]
  else []

/-- What may come next of the slices and cores that hold groups. -/
def State.coreEvents (s : State) : List Cand :=
  let cores := (s.groups.map fun e => e.2.core).eraseDups
  (cores.flatMap fun c => match (s.core c).restart with
    | some e => [ev (s.tickAt (pairOf c) e) .coreRestartEnd c]
    | none => [])
    ++ (s.cores.flatMap fun c =>
      (c.2.eng.flatMap fun e =>
        if !e.2.started then [ev s.rtime .matrixOpStart c.1 e.1]
        else
          let (a, b) := s.engDue c.1 e.2
          [if e.2.released then ev (s.tickAt (pairOf c.1) b) .matrixOpRetire c.1 e.1
            else ev (s.tickAt (pairOf c.1) a) .matrixOperandRelease c.1 e.1])
      ++ (c.2.held.flatMap fun h => if h.2.port then
          let free := c.2.ports.foldl min (c.2.ports.headD 0)
          [ev (s.tickAt (pairOf c.1) (max h.2.at_ free)) .batchPortGrant c.1,
            ev (s.tickAt (pairOf c.1) (max h.2.at_ (c.2.ports.foldl max 0))) .batchPortGrant c.1]
        else [ev s.rtime .enginePlaceFreed c.1])
      ++ c.2.wc.flatMap fun e => [ev s.rtime .wcDrain c.1 e.1, ev (e.2.born + 1024) .wcEntryAgeExpiry c.1 e.1])
    ++ ((s.groups.map fun e => (e.2.core, e.2.slice)).eraseDups.filter fun k => decide (k.2 < 64)).flatMap fun k =>
      let free := s.tickAt (pairOf k.1) (Map.get (s.core k.1).busy k.2 0)
      [ev s.rtime .instructionSweep k.1 k.2, ev free .instructionSweep k.1 k.2] ++ s.dutyEvent k.1 k.2

/-- What may come next of bins, spill areas and lends. -/
def State.binEvents (s : State) : List Cand :=
  let keys (c : Nat) (k : Core) : List (Nat × Nat) :=
    ((k.bin.map fun r => (r.ctx, r.node)) ++ s.ctxs.flatMap fun x =>
      ((s.spilled x.1).filter fun h => h.core = c).map fun h => (x.1, h.node)).eraseDups
  (s.cores.flatMap fun c => (keys c.1 c.2).flatMap fun n =>
    let born := ((s.counted c.1 n.1 n.2).head?.map fun x => x.2.1).getD 0
    let ntm := (s.node? n.1 n.2).elim 0 Node.ntm
    [ev s.rtime .binDeferredLaunch c.1 n.1 n.2, ev (s.rtime + (born + ntm - s.ctxNow n.1)) .binTimerExpiry c.1 n.1 n.2,
      ev s.rtime .spillRefill c.1 n.1])
    ++ (if s.serving.any (fun x => match x.kind with
        | .spawn _ _ _ => true
        | _ => false) then [ev s.rtime .spillWaitEnd 0 1] else [])
    ++ s.lends.flatMap fun e =>
      let at_ := ((s.core e.2.victim).bin.findSome? fun r => if r.acc = e.2.acc then (match r.lend with
        | .lent _ t => some t
        | .unlent => none) else none).getD 0
      [ev (at_ + 200) .stealCopyArrival e.1, ev (at_ + 400) .stealAck e.1, ev (at_ + 600) .stealConfirm e.1,
        ev (at_ + 600) .stealRefusal e.1, ev (s.rtime + (at_ + 20000 - s.ctxNow e.2.r.ctx)) .lendTimeout e.1]

/-- What may come next of grids and saved teams. -/
def State.schedEvents (s : State) : List Cand :=
  (s.saves.filter fun e => if e.2.ckpt then e.2.team.saving else !e.2.placed).map (fun e => ev s.rtime .teamRestore e.1)
    ++ s.grids.flatMap fun e =>
      let g := e.2
      let wait := ev (g.since + 100000) .clusterReservation e.1
      match g.st with
      | .queued => [ev s.rtime .gridQueueHead g.ctx g.r.prio]
      | .admittable => [ev s.rtime .admission e.1, ev s.rtime .preemption e.1, wait,
          ev (g.since + 1000000 * (g.aged + 1)) .effectivePriorityAging e.1]
      | .placing => [ev s.rtime .teamPlacement e.1, wait]
      | .running => [ev s.rtime .gridEnd e.1]
      | .waiting | .prepared | .ended _ => []

/-- What may come next of collective programs. -/
def State.progEvents (s : State) : List Cand :=
  s.progs.flatMap fun e =>
    let p := e.2
    (match (p.words[p.ip]?).map decodeStep with
      | some (.ok i) => if p.started && p.failed.isNone then [{ due := s.rtime, i := i, x := { a := e.1 }, prog := some e.1 }] else []
      | _ => [])
      ++ [ev s.rtime .collProgramStart e.1, ev s.rtime .programFault e.1]
      ++ match p.unacked with
        | (_, t) :: _ => [ev (s.rtime + (t + Config.remoteTimeout - s.ctxNow p.ctx)) .chunkTimeout e.1]
        | [] => []

/-- What may come next of links, members, clocks, dies and the energy account. -/
def State.houseEvents (s : State) : List Cand :=
  (s.links.flatMap fun e =>
    let l := e.2
    let at_ (due : Nat) (i : Instr) : Cand := ev due i (e.1 / 8) (e.1 % 8)
    (if l.blk ≠ 0 then [at_ (l.blkT + 64) .sealedBlockClose] else [])
      ++ (if l.rxNew || l.rekey = 2 then [at_ s.rtime .keyInstall] else [])
      ++ (if l.rekey = 3 then [at_ s.rtime .genFlip] else [])
      ++ (if l.heldTill ≠ 0 then [at_ l.heldTill .oldKeyErase] else []))
    ++ (s.members.flatMap fun e => if e.2.st = .prepared then
        [ev (s.rtime + (e.2.since + 40000 - s.ctxNow e.2.ctx)) .gangGoWaitTimeout e.1] else [])
    ++ (s.serving.filterMap fun x => match x.kind with
        | .prepare gang _ => some (ev s.rtime .gangPrepare x.src gang)
        | .read _ _ | .atomic _ _ _ _ | .mcast _ _ _ | .write _ _ _ _ | .spawn _ _ _ => none)
    ++ (s.replQ.flatMap fun e => e.2.acks.map fun d => ev s.rtime .replInvalidateAck e.1 d)
    ++ ((s.walks.filter Walk.live).map fun w => ev s.rtime .pageWalkComplete w.ctx (w.home * 2 ^ 45 + w.base))
    ++ (s.banks.map fun e => ev (s.tickAt (e.1 / 256) (Map.get s.bankBusy e.1 0)) .bankRequestPerform e.1)
    ++ (s.pairs.flatMap fun e => match e.2.relock with
      | some t => [ev t .relockDone e.1]
      | none => [])
    ++ (s.dies.flatMap fun e => if e.2.st = .retained then
        [ev s.rtime .retainedStateExit e.1, ev s.rtime .plannedDieOffline e.1] else [])
    ++ (if s.boot.st = .running then [ev s.energyEnd .energyWindowEnd 0] else [])

/-- A candidate goes before those that are due later. -/
def insertCand (c : Cand) : List Cand → List Cand
  | [] => [c]
  | x :: xs => if x.due ≤ c.due then x :: insertCand c xs else c :: x :: xs

/-- Everything that the device's own agents may do next, the earliest due first. -/
def State.candidates (s : State) : List Cand :=
  let all := (s.groups.flatMap fun e => s.groupEvents e.1 e.2) ++ s.opEvents ++ s.houseEvents ++ s.progEvents
    ++ s.binEvents ++ s.schedEvents ++ s.coreEvents
  (all.map fun c => { c with due := max s.rtime c.due }).foldl (fun cs c => insertCand c cs) []

/-! ## A machine that stands before an instruction -/

/-- The words of a clause that holds one instruction: a header that waits for nothing and counts on no flag (R37). -/
def plainHeader (page n : Nat) : Word := BitVec.ofNat 32 (n + 16 * page + 15 * 2 ^ 19 + 15 * 2 ^ 23)

/-- The device with a booted image and, in context 0, a team of one thread that has started a clause of these words and
whose slot is next (DESIGN CHOICE, log entry 30). -/
def State.withClause (s : State) (page : Nat) (ws : List Word) : State :=
  let tid := s.nextId
  let gid := s.nextId + 1
  let cl := s.nextId + 2
  let c : Clause := ⟨0, plainHeader page ws.length, ws⟩
  let g : Group :=
    { ctx := 0, team := tid, core := 0, slice := 0, w := 16, cbase := 0, groupId := 0, age := s.nextId + 3
      threads := (List.range 16).map fun l => (l, if l = 0 then { pc := 4, clause := some c } else { phase := .exited }) }
  { s with
    boot := { s.boot with st := .running }
    ctxs := Map.put 0 { cfg := { sys := true, cores := List.range 160 } } s.ctxs
    clusters := Map.put cl { cores := [0], nthr := 1 } s.clusters
    teams := Map.put tid { ctx := 0, core := 0, cluster := cl, nthr := 1, w := 16, mtx := true, age := s.nextId + 3 } s.teams
    groups := Map.put gid g s.groups
    nextId := s.nextId + 4
    issue := [{ gid := gid, lanes := [0], pc := 4 }] }

end Sys2Proof.Machine
end

