-- ==== Sys2Proof/Machine/Step.lean ====
section
/-!
DEFINITION. Sys2Proof/Machine/Step.lean: one step of the device. The slots of a sweep in progress come first (R21); then
the next event from outside, once the device's own agents have nothing to do before its tick; then what they do next.
-/

namespace Sys2Proof.Machine

/-- After a meaning the slot is over. -/
def after (o : Out) : Out :=
  match o with
  | .next s => .next s.endSlot
  | o => o

/-- The first candidate that changes anything, with what it comes to. -/
def State.firstOf (s : State) : List Cand → Option (Cand × Out)
  | [] => none
  | c :: cs =>
    match exec c.i (s.atCand c) with
    | .next t => if t = s.atCand c then s.firstOf cs else some (c, .next t)
    | o => some (c, o)

/-- Whether the instruction of a slot would not issue in this state: its path would stall at it (R25, R27, R69, R174), which costs
nothing (R157). -/
def State.heldBack (s : State) (sl : Slot) : Bool :=
  let lanes := s.slotLanes sl
  match sl.prog, s.slotDecode { sl with lanes := lanes } with
  | none, some i => (match exec i { s with cur := some { sl with lanes := lanes } } with
    | .next t => lanes.any fun l => (match (t.thread sl.gid l).wait with
      | some (.stall x) => !x.isPage
      | _ => false)
    | _ => false)
  | _, _ => false

/-- At the start of a sweep the slots that will not issue are noted, as the state then gives it (DESIGN CHOICE, log entry 66). -/
def State.noteBack (s : State) : State :=
  match s.issue with
  | sl :: _ => if sl.begins.isSome || sl.prog.isSome then s else { s with issue := s.issue.map fun x => { x with back := s.heldBack x } }
  | [] => s

/-- One step. -/
def step (s : State) : Out :=
  match s.issue with
  | _ :: _ =>
    match State.nextSlot s.noteBack with
    | (t, some i) => after (exec i t)
    | (t, none) => .next t
  | [] =>
    match s.agenda with
    | (t, i, x) :: rest =>
      let arrive : Out := after (exec i { s with rtime := max s.rtime t, sel := x, agenda := rest })
      if t ≤ s.rtime then arrive
      else
        match s.firstOf (s.candidates.filter fun c => decide (c.due < t)) with
        | some (_, o) => after o
        | none => arrive
    | [] =>
      match s.firstOf s.candidates with
      | some (_, o) => after o
      | none => .next s

/-- The state with an instruction of the opcode table where the next step fetches: the only slot of a sweep, whose thread
has started a clause that holds it (DESIGN CHOICE, log entry 30). -/
def State.withFetchWord (s : State) (nbits w : Nat) : State :=
  let ws := tableWords nbits w
  s.withClause (tablePage (ws.headD 0)) ws

end Sys2Proof.Machine
end

