-- ==== Sys2Proof/Safety.lean ====
section
/-!
DEFINITION. Sys2Proof/Safety.lean: the terms in which claims are stated: a safe run, an instruction that executes, and
where its path goes on.
-/

namespace Sys2Proof.Machine

/-- `k` steps from `s` answer a next state. -/
def SafeRun (k : Nat) (s : State) : Prop := ∃ t, Sys2Proof.core.run k s = .next t

/-- The vector names that the instruction's destination maps (R26). -/
def dstNames (i : Instr) (w : Nat) : List Nat :=
  match (i.need w).dst with
  | some (d, n) => d.vnames n
  | none => []

/-- The lanes that compute: every executing one, or the lowest where the instruction executes once per path (R51). -/
def doers (i : Instr) (g : Group) (on : List Nat) : List Nat := if (i.need g.w).perPath then on.take 1 else on

/-- The state in which an instruction reads its operands: a read of the timer has latched `RTIME_HI` (R152). -/
def State.began (s : State) (i : Instr) (gid : Nat) (g : Group) (on : List Nat) : State :=
  if i.readsRtime g.w then s.latchRtime gid on else s

/-- The current slot executes `i`: its path's lanes pass every check of R65 and R66, the guard holds in `on` and not in
`off` (R44), and the destination's names are mapped in `s1` (R26). The lanes of a slot stand at its instruction (R21). -/
structure Executes (i : Instr) (p : Pre) (s : State) (c : Slot) (g : Group) (on off : List Nat) (s1 : State) : Prop where
  cur : s.cur = some c
  grp : s.group? c.gid = some g
  nodup : c.lanes.Nodup
  here : ∀ l ∈ c.lanes, (g.thread l).pc = c.pc
  legal : ∀ l ∈ c.lanes, s.check i g l = none
  on_eq : c.lanes.filter (fun l => g.guard p.g l) = on
  off_eq : c.lanes.filter (fun l => !g.guard p.g l) = off
  ran : on ≠ []
  mapped : (s.began i c.gid g on).mapNames c.gid (dstNames i g.w) = some s1

/-- The whole path goes on to the next instruction (R41). -/
def State.goOn (s : State) (gid : Nat) (off on : List Nat) : State := (s.advance gid off).advance gid on

/-- Every computing lane writes its registers and raises its flags; `f` reads operands in `s`, before any write. -/
def State.computed (s : State) (gid : Nat) (d : Opnd) (ls : List Nat) (f : State → Nat → Nat → List Word × Flags) : State :=
  ls.foldl (fun t l => t.dstRun gid l d (f s gid l).1) (s.raise gid (ls.foldl (fun x l => x ||| (f s gid l).2) 0))

/-- No flag that a lane raises is enabled in `TRAPEN` (R198). -/
def Untrapped (s : State) (gid : Nat) (ls : List Nat) (fl : Nat → Flags) : Prop := ∀ l ∈ ls, s.fpTrap? gid (fl l) = none

/-- Wherever `i` executes and no enabled flag is raised, it completes: every computing lane's registers from `d` hold what
`f` reads for it, its flags are united into `FLAGS`, and the path goes on. -/
def Computes (i : Instr) (p : Pre) (d : Opnd) (f : State → Nat → Nat → List Word × Flags) : Prop :=
  ∀ s c g on off s1, Executes i p s c g on off s1 → Untrapped s1 c.gid (doers i g on) (fun l => (f s1 c.gid l).2) →
    exec i s = .next ((s1.computed c.gid d (doers i g on) f).goOn c.gid off on)

/-- The same for an instruction that computes over its path: `f` gives each lane's registers and the path's flags. -/
def ComputesPath (i : Instr) (p : Pre) (d : Opnd) (f : State → Nat → Group → List Nat → (Nat → List Word) × Flags) : Prop :=
  ∀ s c g on off s1, Executes i p s c g on off s1 → s1.fpTrap? c.gid (f s1 c.gid g on).2 = none →
    exec i s = .next (((doers i g on).foldl (fun t l => t.dstRun c.gid l d ((f s1 c.gid g on).1 l))
      (s1.raise c.gid (f s1 c.gid g on).2)).goOn c.gid off on)

/-- Wherever `i` executes, every executing lane's pair `k` becomes a condition and its complement. -/
def State.paired (s : State) (gid k : Nat) (ls : List Nat) (f : Nat → Bool) : State :=
  ls.foldl (fun t l => t.setPair gid k l (f l)) s

/-- The state after one execution's operations have been issued: `rs` gives each issuing lane's request, or the path's. -/
def State.issued (start : State → Nat → State) (s : State) (c : Slot) (g : Group) (a b once : Bool) (on : List Nat)
    (rs : List (Nat × Req)) : State :=
  s.fresh.2.executing c s.fresh.1 a b fun t =>
    rs.foldl (fun t e => t.issueOp start c g s.fresh.1 a b (if once then on else [e.1]) e.2) t

/-- Wherever `i` executes, nothing stalls its issue and every issuing lane asks for `r l`, it completes: the flags of its
clause rise once, the operations are in flight, and the path goes on. -/
def Issues (i : Instr) (p : Pre) (start : State → Nat → State) (a b : Bool) (ok : State → Nat → Nat → Prop)
    (r : State → Nat → Nat → Req) : Prop :=
  ∀ s c g on off s1, Executes i p s c g on off s1 → s1.issueStall c on a b = none →
    (∀ l ∈ doers i g on, ok s1 c.gid l) →
    exec i s = .next ((s1.issued start c g a b (i.need g.w).perPath on
      ((doers i g on).map fun l => (l, r s1 c.gid l))).goOn c.gid off on)

/-- Wherever the asynchronous instruction `i` executes, nothing stalls its issue, slots are free for its lanes and every
executing lane asks for `r l`, it completes: each lane has its ticket and promise, and the path goes on (R174). -/
def IssuesAsync (i : Instr) (p : Pre) (d : Opnd) (ok : State → Nat → Nat → Prop) (r : State → Nat → Nat → AReq) : Prop :=
  ∀ s c g on off s1, Executes i p s c g on off s1 → s1.issueStall c on true true = none →
    on.length ≤ (s1.freeSlots g.core).length → (∀ l ∈ on, ok s1 c.gid l) →
    exec i s = .next ((s1.fresh.2.executing c s1.fresh.1 true true fun t =>
      on.foldl (fun t l => t.issueAsync c g s1.fresh.1 l d (r s1 c.gid l)) t).goOn c.gid off on)

/-- The sequencer's slot executes a step of program `k`, which runs, with nothing of an earlier step under way. -/
structure Steps (s : State) (k : Nat) (p : Prog) : Prop where
  slot : s.cur.bind Slot.prog = some k
  prog : s.prog? k = some p
  started : p.started = true
  fine : p.failed = none
  runs : s.sequences p = true
  idle : ∀ e ∈ s.ops, e.2.ofProg k = true → e.2.st.settled = true
  written : p.wr = none

/-- What the write of a destination chunk leaves: the first one of a provisional program escapes (R377), at a peer or in bank memory
with the request that brings it there, and the program stands at its next step. -/
def State.chunkPut (s : State) (k : Nat) (p : Prog) (va : Nat) : State :=
  (match p.op with
    | some id => if s.apart va then s else s.escape id ⟨.copy, clog2 p.d.csz, va⟩
    | none => s).nextStep k

/-- What follows the meaning of an instruction whether or not any thread executed it: the threads at a `RECONV` are counted
again, and the sources of `MCST` operations are read. -/
def closing (i : Instr) (gid : Nat) (s : State) : State :=
  match i with
  | .reconv _ => s.checkReconv gid
  | .mcst _ _ _ _ _ => s.mcstFetches
  | _ => s

/-- A group's register blocks apart from what it can see. -/
def Group.noBlocks (g : Group) : Group := { g with pool := 0, resv := 0, inBlock := [] }

/-- From `s` to `t` the group `gid` may have written the registers `regs` in the lanes `ls`, raised flags, and where
`issues` holds put operations and page walks in flight, where `tickets` holds also taken ticket slots and promises; blocks may have been
drawn. Nothing else has changed, memory included. -/
structure Framed (s t : State) (gid : Nat) (regs : List Opnd) (ls : List Nat) (issues : Bool) (tickets : Bool := false) : Prop where
  rest : t = { s with groups := t.groups, cores := t.cores, ops := t.ops, walks := t.walks, nextId := t.nextId, freeCtr := t.freeCtr }
  inFlight : issues = false → t.ops = s.ops ∧ t.walks = s.walks ∧ t.nextId = s.nextId
  promised : tickets = false → t.freeCtr = s.freeCtr ∧ ∀ k, (t.core k).slots = (s.core k).slots
  cores : ∀ k, { t.core k with pool := 0, resv := 0, slots := [] } = { s.core k with pool := 0, resv := 0, slots := [] }
  others : ∀ k, k ≠ gid → (t.group? k).map Group.noBlocks = (s.group? k).map Group.noBlocks
  own : ∀ g h, s.group? gid = some g → t.group? gid = some h →
    h.noBlocks = { g.noBlocks with
      s := h.s, flags := h.flags, f := h.f, mapped := h.mapped, gen := h.gen, threads := h.threads }
  flags : ∀ g h, s.group? gid = some g → t.group? gid = some h → g.flags ||| h.flags = h.flags
  counts : ∀ g h, s.group? gid = some g → t.group? gid = some h → issues = false → h.f = g.f
  uniform : ∀ g h, s.group? gid = some g → t.group? gid = some h →
    ∀ n : Fin 48, Opnd.s n ∉ regs → Map.get h.s n.val 0 = Map.get g.s n.val 0
  threads : ∀ g h, s.group? gid = some g → t.group? gid = some h → ∀ l x, g.thread? l = some x →
    ∃ y, h.thread? l = some y ∧ y = { x with v := y.v, t := y.t, opc := y.opc, rtimeHi := y.rtimeHi } ∧
      (l ∉ ls → y.v = x.v ∧ y.t = x.t) ∧ (issues = false → y.opc = x.opc) ∧
      (∀ n : Fin 64, Opnd.v n ∉ regs → Map.get y.v n.val 0 = Map.get x.v n.val 0) ∧
      (∀ n : Fin 4, Opnd.t n ∉ regs → Map.get y.t n.val 0 = Map.get x.t n.val 0)

/-- What keeps an issue of the executing lanes to its own operations: nothing of theirs has failed, no store of their core waits in
its write-combining buffer, and no saved image knows the new execution. -/
def State.quiet (s : State) (c : Slot) (g : Group) (on : List Nat) : Prop :=
  (s.core g.core).wc = [] ∧ (∀ e ∈ s.images, s.nextId ∉ e.2.exs) ∧ ∀ l ∈ on, s.failure? c.gid l = none

end Sys2Proof.Machine
end

