-- ==== Sys2Proof/Certificates/Slice0/Obligations.lean ====
section
/-!
DEFINITION. Sys2Proof/Certificates/Slice0/Obligations.lean: what is to be proved about the model.
-/

open Sys2Proof Sys2Proof.Machine

/-! ## Page 0: words (R112 to R129) -/

/-- R112, R115 to R124: the two-source word instructions, each with the value that its entry gives, on every operand. -/
def Obligations.TwoSourceWordsComplete : Prop :=
  ∀ e ∈ ([(.iadd, fun a b => a + b), (.isub, fun a b => a - b), (.imul, fun a b => a * b),
      (.imulhI, fun a b => (a.signExtend 64 * b.signExtend 64).extractLsb' 32 32),
      (.imulhU, fun a b => (a.zeroExtend 64 * b.zeroExtend 64).extractLsb' 32 32),
      (.iminI, fun a b => if a.sle b then a else b), (.iminU, fun a b => if a.ule b then a else b),
      (.imaxI, fun a b => if a.sle b then b else a), (.imaxU, fun a b => if a.ule b then b else a),
      (.and, fun a b => a &&& b), (.or, fun a b => a ||| b), (.xor, fun a b => a ^^^ b), (.andn, fun a b => a &&& ~~~b),
      (.shl, fun a b => a <<< b.toNat), (.shr, fun a b => a >>> b.toNat), (.sar, fun a b => a.sshiftRight b.toNat),
      (.rol, fun a b => a.rotateLeft b.toNat),
      (.clmul, fun a b => (clmul64 a b).extractLsb' 0 32), (.clmulh, fun a b => (clmul64 a b).extractLsb' 32 32)] :
      List ((Pre → Opnd → Opnd → Opnd → Instr) × (Word → Word → Word))),
    ∀ p d a b, Computes (e.1 p d a b) p d fun s g l => ([e.2 (s.src32 g l a) (s.src32 g l b)], 0)

/-- R120 to R128: bit fields, counts, moves and the instructions with an immediate or a third source. -/
def Obligations.BitFieldsAndMovesComplete : Prop :=
  (∀ p d a b, Computes (.bfeU p d a b) p d fun s g l =>
    let w := s.src32 g l b
    let pos := min (w.toNat % 256) 32
    let len := min (w.toNat / 256 % 256) 32
    ([BitVec.ofNat 32 ((s.src32 g l a).toNat / 2 ^ pos % 2 ^ len)], 0)) ∧
  (∀ p d a b, Computes (.bfeI p d a b) p d fun s g l => ([bfe true (s.src32 g l a) (s.src32 g l b)], 0)) ∧
  (∀ p x d a b, Computes (.bfi p x d a b) p d fun s g l =>
    let w := s.src32 g l b
    let pos := min (w.toNat % 256) 32
    let len := min (w.toNat / 256 % 256) 32
    ([ofBits fun j => if decide (pos ≤ j) && decide (j < pos + len) then (s.src32 g l a).getLsbD (j - pos)
      else (s.src32 g l x.c).getLsbD j], 0)) ∧
  (∀ p d a, Computes (.popc p d a) p d fun s g l =>
    ([BitVec.ofNat 32 ((List.range 32).countP fun j => (s.src32 g l a).getLsbD j)], 0)) ∧
  (∀ p d a, Computes (.clz p d a) p d fun s g l => ([clz32 (s.src32 g l a)], 0)) ∧
  (∀ p d a, Computes (.brev p d a) p d fun s g l => ([(s.src32 g l a).reverse], 0)) ∧
  (∀ p d a, Computes (.iabs p d a) p d fun s g l => ([(s.src32 g l a).abs], 0)) ∧
  (∀ p d a, Computes (.mov p d a) p d fun s g l => ([s.src32 g l a], 0)) ∧
  (∀ p d imm, Computes (.movi p d imm) p d fun _ _ _ => ([imm.signExtend 32], 0)) ∧
  (∀ p d a imm, Computes (.iaddi p d a imm) p d fun s g l => ([s.src32 g l a + imm.signExtend 32], 0)) ∧
  (∀ p x d a b, Computes (.prmt p x d a b) p d fun s g l =>
    ([prmt32 (s.src32 g l a) (s.src32 g l b) (s.src32 g l x.c)], 0)) ∧
  (∀ p x d a b, Computes (.lop3 p x d a b) p d fun s g l =>
    ([lop3 x.tt (s.src32 g l a) (s.src32 g l b) (s.src32 g l x.c)], 0)) ∧
  (∀ p x d a b, Computes (.sel p x d a b) p d fun s gid l =>
    let o := if (match s.group? gid with | some g => g.pred x.ps.val l | none => false) then a else b
    (if x.ty.is64 then wordsOf 2 (s.src64 gid l o true).toNat else [s.src32 gid l o], 0))

/-- R116 to R119: the wide and the multiply-add forms. -/
def Obligations.WideAndMultiplyAddComplete : Prop :=
  (∀ p d a b, Computes (.iadd64 p d a b) p d fun s g l => (wordsOf 2 (s.src64 g l a true + s.src64 g l b true).toNat, 0)) ∧
  (∀ p d a b, Computes (.isub64 p d a b) p d fun s g l => (wordsOf 2 (s.src64 g l a true - s.src64 g l b true).toNat, 0)) ∧
  (∀ p x d a b, x.ty = .i32 ∨ x.ty = .u32 → Computes (.imad p x d a b) p d fun s g l =>
    let v (o : Opnd) : Int := if x.ty = .i32 then (s.src32 g l o).toInt else (s.src32 g l o).toNat
    ([BitVec.ofNat 32 (mad (x.ty = .i32) 32 x (v a) (v b) (v x.c))], 0)) ∧
  (∀ p x d a b, x.ty = .i32 ∨ x.ty = .u32 → Computes (.imadw p x d a b) p d fun s g l =>
    let v (o : Opnd) : Int := if x.ty = .i32 then (s.src32 g l o).toInt else (s.src32 g l o).toNat
    let c : Int := if x.ty = .i32 then (s.src64 g l x.c true).toInt else (s.src64 g l x.c false).toNat
    (wordsOf 2 (mad (x.ty = .i32) 64 x (v a) (v b) c), 0))

/-! ## Floating point, packed elements, conversions, special functions (R190 to R217, R249 to R259) -/

/-- R249 to R252, R259: the floating-point instructions of F32 and F64. -/
def Obligations.FloatArithmeticComplete : Prop :=
  (∀ e ∈ ([(.fadd, Fmt.f32.add .rne), (.fsub, Fmt.f32.sub .rne), (.fmul, Fmt.f32.mul .rne), (.fdiv, Fmt.f32.div .rne),
      (.fmin, Fmt.f32.minmax false), (.fmax, Fmt.f32.minmax true)] :
      List ((Pre → Opnd → Opnd → Opnd → Instr) × (Nat → Nat → Nat × Flags))),
    ∀ p d a b, Computes (e.1 p d a b) p d fun s g l =>
      let r := e.2 (s.srcF g l a) (s.srcF g l b)
      ([BitVec.ofNat 32 r.1], r.2)) ∧
  (∀ e ∈ ([(.dadd, Fmt.f64.add .rne), (.dmul, Fmt.f64.mul .rne)] :
      List ((Pre → Opnd → Opnd → Opnd → Instr) × (Nat → Nat → Nat × Flags))),
    ∀ p d a b, Computes (e.1 p d a b) p d fun s g l =>
      let r := e.2 (s.srcT64 g l .f64 a) (s.srcT64 g l .f64 b)
      (wordsOf 2 r.1, r.2)) ∧
  (∀ p x d a b, Computes (.ffma p x d a b) p d fun s g l =>
    let r := fmaX .f32 x (s.srcF g l a) (s.srcF g l b) (s.srcF g l x.c)
    ([BitVec.ofNat 32 r.1], r.2)) ∧
  (∀ p x d a b, Computes (.dfma p x d a b) p d fun s g l =>
    let r := fmaX .f64 x (s.srcT64 g l .f64 a) (s.srcT64 g l .f64 b) (s.srcT64 g l .f64 x.c)
    (wordsOf 2 r.1, r.2)) ∧
  (∀ p x d a, x.ty = .f32 → Computes (.frnd p x d a) p d fun s g l =>
    let r := Fmt.f32.integral x.rm (s.srcF g l a)
    ([BitVec.ofNat 32 r.1], r.2)) ∧
  (∀ p x d a, x.ty = .f64 → Computes (.frnd p x d a) p d fun s g l =>
    let r := Fmt.f64.integral x.rm (s.srcT64 g l .f64 a)
    (wordsOf 2 r.1, r.2)) ∧
  (∀ p d a, Computes (.fclass p d a) p d fun s g l =>
    ([BitVec.ofNat 32 (Fmt.f32.classify (BitVec.ofNat 32 (s.srcF g l a)).toNat)], 0)) ∧
  (∀ p d a, Computes (.fabs p d a) p d fun s g l => ([BitVec.ofNat 32 (s.srcF g l a % 2 ^ 31)], 0))

/-- R253, R256, R257: every element of a packed instruction or a conversion is computed by itself, and their flags are
united. -/
def Obligations.PackedAndConversionsComplete : Prop :=
  (∀ e ∈ ([(.padd, .add), (.psub, .sub), (.pmul, .mul), (.pmin, .min), (.pmax, .max)] :
      List ((Pre → Alu2 → Opnd → Opnd → Opnd → Instr) × POp)),
    ∀ p x d a b, Computes (e.1 p x d a b) p d fun s g l =>
      let r := (List.range x.ty.elems).map fun k =>
        packElem e.2 x (elemAt x.ty.ebits k (s.srcT g l x.ty a)) (elemAt x.ty.ebits k (s.srcT g l x.ty b))
      ([BitVec.ofNat 32 (pack x.ty.ebits (r.map Prod.fst))], (r.map Prod.snd).foldl (· ||| ·) 0)) ∧
  (∀ p x d a b, Computes (.pfma p x d a b) p d fun s g l =>
    let r := (List.range x.ty.elems).map fun k =>
      packFma x (elemAt x.ty.ebits k (s.srcT g l x.ty a)) (elemAt x.ty.ebits k (s.srcT g l x.ty b))
        (elemAt x.ty.ebits k (s.srcT g l x.ty x.c))
    ([BitVec.ofNat 32 (pack x.ty.ebits (r.map Prod.fst))], (r.map Prod.snd).foldl (· ||| ·) 0)) ∧
  (∀ p x d a, Computes (.cvt p x d a) p d fun s g l =>
    let r := (s.srcElems g l x.sty x.dty a).map (cvtElem x)
    (elemRegs x.dty (r.map Prod.fst), (r.map Prod.snd).foldl (· ||| ·) 0))

/-- R216, R217, R188, R233: the special functions, and the queries of a page's placement word and of a tensor-extent
register. -/
def Obligations.SpecialFunctionsAndQueriesComplete : Prop :=
  (∀ e ∈ ([(.rcp, Sfu.rcp), (.rsq, Sfu.rsq), (.sqrt, Sfu.sqrt), (.exp2, Sfu.exp2), (.log2, Sfu.log2), (.sinpi, Sfu.sinpi),
      (.cospi, Sfu.cospi), (.tanh, Sfu.tanh), (.sigm, Sfu.sigm)] :
      List ((Pre → Opnd → Opnd → Instr) × (Word → Nat × Flags))),
    ∀ p d a, Computes (e.1 p d a) p d fun s g l =>
      let r := e.2 (BitVec.ofNat 32 (s.srcF g l a))
      ([BitVec.ofNat 32 r.1], r.2)) ∧
  (∀ p d a, Computes (.geoq p d a) p d fun s gid l =>
    ([s.geoq ((s.group? gid).elim 0 Group.ctx) (s.src64 gid l a false).toNat], 0)) ∧
  (∀ p d id wd, Computes (.tqry p d id wd) p d fun s gid _ =>
    ([(s.txWords ((s.group? gid).elim 0 Group.ctx) id.toNat).getD wd.toNat 0], 0))

/-! ## Predicates (R54 to R57, R125, R126, R255, R262) -/

/-- R57, R125, R255: a compare writes its pair in every executing lane and unites the flags that it raises. -/
def Obligations.ComparesComplete : Prop :=
  (∀ p x d a b s c g on off s1, Executes (.icmp p x d a b) p s c g on off s1 →
    exec (.icmp p x d a b) s = .next ((s1.paired c.gid d.toNat on fun l =>
      icond x.cc (x.ty.toInt (s1.srcAny c.gid l x.ty a)) (x.ty.toInt (s1.srcAny c.gid l x.ty b))).goOn c.gid off on)) ∧
  (∀ p x d a b s c g on off s1, Executes (.fcmp p x d a b) p s c g on off s1 →
    let r (l : Nat) := (scalarFmt x.ty).cond x.cc (s1.srcAny c.gid l x.ty a) (s1.srcAny c.gid l x.ty b)
    Untrapped s1 c.gid on (fun l => (r l).2) →
    exec (.fcmp p x d a b) s = .next (((s1.raise c.gid (on.foldl (fun x l => x ||| (r l).2) 0)).paired c.gid d.toNat on
      fun l => (r l).1).goOn c.gid off on))

/-- R126, R178, R183, R262: the other instructions that write predicates. -/
def Obligations.PredicateWritesComplete : Prop :=
  (∀ p x d a b s c g on off s1, Executes (.plop p x d a b) p s c g on off s1 →
    exec (.plop p x d a b) s = .next ((on.foldl (fun t l => t.modGroup c.gid fun h => h.setPred d.toNat l
      (x.tt.getLsbD ((g.pred a.toNat l).toNat + 2 * (g.pred b.toNat l).toNat))) s1).goOn c.gid off on)) ∧
  (∀ p x d s c g on off s1, Executes (.vote p x d) p s c g on off s1 →
    let n := on.countP fun l => g.pred x.ps.val l != x.neg
    exec (.vote p x d) s = .next ((s1.paired c.gid d.toNat on fun _ =>
      if x.mode = 0 then decide (n = on.length) else if x.mode = 1 then decide (n ≠ 0)
      else if x.mode = 2 then decide (n = 0 ∨ n = on.length) else decide (on.length < 2 * n)).goOn c.gid off on)) ∧
  (∀ p d a s c g on off s1, Executes (.ptest p d a) p s c g on off s1 →
    let done (l : Nat) : Bool := (s1.ticketOp g.core (s1.src32 c.gid l a)).isNone
    exec (.ptest p d a) s = .next (((if on.any done then s1.acquire g.core .dev else s1).paired c.gid d.toNat on
      done).goOn c.gid off on)) ∧
  (∀ p d a b s c g on off s1, Executes (.btest p d a b) p s c g on off s1 →
    ∀ bar : Nat → BBar, (∀ l ∈ on, s1.barBad c.gid (s1.src32 c.gid l a).toNat = none ∧
      (s1.bbar? g.team (s1.src32 c.gid l a).toNat).map Prod.snd = some (bar l) ∧ (bar l).overrun = false) →
    let done (l : Nat) : Bool := decide ((bar l).phase ≠ ((s1.src32 c.gid l b).getLsbD 0).toNat)
    exec (.btest p d a b) s = .next (((if on.any done then s1.acquire g.core .clu else s1).paired c.gid d.toNat on
      done).goOn c.gid off on))

/-! ## Cross-lane (R258 to R267) -/

/-- R258, R262, R263: masks, the first lane's value and the classes of equal values; and what a mask's bits say, at every
lane. -/
def Obligations.MasksComplete : Prop :=
  (∀ p d a, ComputesPath (.ballot p d a) p d fun _ _ g on =>
    (fun _ => maskRegs g.w (maskWhere g.w fun j => on.contains j && g.pred a.toNat j), 0)) ∧
  (∀ p d a, ComputesPath (.first p d a) p d fun s gid _ on => (fun _ => [s.src32 gid (on.headD 0) a], 0)) ∧
  (∀ p d a, ComputesPath (.matchL p d a) p d fun s gid _ on =>
    (fun l => [matchWord on (fun j => (s.src32 gid j a).toNat) l], 0)) ∧
  (∀ p d a, ComputesPath (.matchW64 p d a) p d fun s gid _ on =>
    (fun l => [matchWord on (fun j => (s.src64 gid j a true).toNat) l], 0)) ∧
  (∀ p x d, ComputesPath (.lanemask p x d) p d fun _ _ g on =>
    (fun l => maskRegs g.w (maskWhere g.w fun j =>
      if x.mode = 0 then decide (j < l) else if x.mode = 1 then decide (j ≤ l) else if x.mode = 2 then decide (l < j)
      else if x.mode = 3 then decide (l ≤ j) else if x.mode = 4 then decide (j = l) else if x.mode = 5 then on.contains j
      else if x.mode = 6 then on.contains j && decide (j < l) else on.contains j && decide (l < j)), 0)) ∧
  (∀ w f j, (maskWhere w f).testBit j = (decide (j < w) && f j)) ∧
  (∀ m j, j < 32 → (((maskRegs 64 m).getD 0 0).getLsbD j = m.testBit j ∧ ((maskRegs 64 m).getD 1 0).getLsbD j = m.testBit (32 + j))) ∧
  (∀ w m j, w = 16 ∨ w = 32 → j < 32 →
    (maskRegs w m).length = 1 ∧ ((maskRegs w m).getD 0 0).getLsbD j = (decide (j < w) && m.testBit j))

/-- R262: a shuffle reads every source before it writes any destination; a lane whose source is not readable reads itself,
and its pair says which. -/
def Obligations.ShuffleCompletes : Prop :=
  ∀ p x d a b s c g on off s1, Executes (.shfl p x d a b) p s c g on off s1 →
    let z := g.w / 2 ^ x.seg.toNat
    let read (l : Nat) : List Word := if x.w64 then wordsOf 2 (s1.src64 c.gid l a true).toNat else [s1.src32 c.gid l a]
    let pos (l : Nat) : Int := shflPos x.mode.toNat z (l % z) (s1.src32 c.gid l b)
    let src (l : Nat) : Nat := l - l % z + (pos l).toNat
    let mask (l : Nat) : DWord := if g.w = 64 then s1.src64 c.gid l x.c true else (s1.src32 c.gid l x.c).zeroExtend 64
    let ok (l : Nat) : Bool := decide (0 ≤ pos l ∧ pos l < z ∧ src l ∈ on ∧ (x.c = .nul ∨ (mask l).getLsbD (src l) = true))
    let t := on.foldl (fun t l => t.dstRun c.gid l d (read (if ok l then src l else l))) s1
    exec (.shfl p x d a b) s = .next ((match x.pr with
      | some k => t.paired c.gid k.val on ok
      | none => t).goOn c.gid off on)

/-- R264 to R267: reductions by the canonical tree, scans in lane order, transformed means. -/
def Obligations.ReductionsComplete : Prop :=
  (∀ p x d a, ComputesPath (.redux p x d a) p d fun s gid g on =>
    let r := (tree (combineF (RxX.rop x) x.ty) (Nat.log2 g.w) ((List.range g.w).map fun l =>
      if l ∈ on then some (s.srcAny gid l x.ty a, 0) else none)).getD (0, 0)
    (fun _ => regsOf x.ty r.1, r.2)) ∧
  (∀ p x d a, ComputesPath (.scan p x d a) p d fun s gid _ on =>
    let r := scanGo x (fun j => s.srcAny gid j x.ty a) none on
    (fun l => regsOf x.ty (Map.get r.1 l 0), r.2)) ∧
  (∀ p x d a, ComputesPath (.gmred p x d a) p d fun s gid g on =>
    let v := s.gmEnv g.ctx g.gmMode g.gmShape
    let leaf (l : Nat) : GmState :=
      if x.inS then
        let r := s.srcRun gid l a 4
        if r.getD 2 0 = 0 then {} else ⟨(r.getD 0 0).toNat, r.getD 1 0, r.getD 2 0⟩
      else Gm.term v (s.srcF gid l a)
    let all : GmState × Flags :=
      if Gm.bad v then (⟨Gm.nanC, 0, on.foldl (fun n l => n + (leaf l).n) 0⟩, flGM)
      else
        let r := (tree (gmCombine v) (Nat.log2 g.w) ((List.range g.w).map fun l =>
          if l ∈ on then some (leaf l, 0) else none)).getD ({}, 0)
        if on.any fun l => (leaf l).n ≠ 0 && Gm.isNan (leaf l).s then ({ r.1 with s := Gm.nanC }, r.2 ||| flGM) else r
    if x.ext then (fun _ => [BitVec.ofNat 32 (Gm.exit v all.1).1], all.2 ||| (Gm.exit v all.1).2)
    else (fun _ => [BitVec.ofNat 32 all.1.s, all.1.e, all.1.n, 0], all.2)) ∧
  (∀ p d a s c g on off s1, Executes (.gmtab p d a) p s c g on off s1 → ∀ ph,
    let ad := (s1.src32 c.gid (on.headD 0) a).toNat
    ad % 16 = 0 → s1.scratch? g.team ad 536 = some ph → s1.poisoned ph 536 = false →
    Gm.imageOk ⟨4, 0, wordsOf 134 (ofBytes (s1.readPhys ph 536))⟩ = true →
    exec (.gmtab p d a) s = .next ((s1.modCtx g.ctx fun x =>
      { x with gm := Map.put d.toNat (wordsOf 134 (ofBytes (s1.readPhys ph 536))) x.gm }).goOn c.gid off on))

/-- R264: over integers the canonical tree of `REDUX.ADD` is the sum of the executing lanes' values, whatever the mask. -/
def Obligations.IntegerReductionIsSum : Prop :=
  ∀ (x : RxX) (v : Nat → Nat) (on : List Nat) (h : Nat), RxX.rop x = .add → x.ty = .i32 ∨ x.ty = .u32 → on ≠ [] →
    on.Nodup → (∀ l ∈ on, l < 2 ^ h ∧ v l < 2 ^ 32) →
    (tree (combineF (RxX.rop x) x.ty) h ((List.range (2 ^ h)).map fun l => if l ∈ on then some (v l, 0) else none)).map Prod.fst
      = some ((on.map v).sum % 2 ^ 32)

/-! ## Memory operations (R157 to R170) -/

/-- R160 to R163: an executing lane whose address is aligned to the access (and in range in scratchpad) issues its load or
store with the effective address of R161, its bytes, its order and its scope. -/
def Obligations.LoadsAndStoresIssue : Prop :=
  let glob (x : Mx) (a b : Opnd) (s : State) (gid l : Nat) : Nat :=
    (s.src64 gid l a false + (s.src32 gid l b).signExtend 64 + x.ofs.signExtend 64).toNat
  let loc (x : Mx) (a b : Opnd) (s : State) (gid l : Nat) : Nat :=
    (s.src32 gid l a + s.src32 gid l b + x.ofs.signExtend 32).toNat
  let n (x : Mx) : Nat := 2 ^ x.w.val
  (∀ p x d a b, Issues (.ldg p x d a b) p State.startMem true false (fun s gid l => glob x a b s gid l % n x = 0)
    fun s gid l => { kind := .load .global (glob x a b s gid l) (n x) x.sgn, ord := x.ord, scope := x.scope, h := x.h
                     ordered := false, dst := some (d, widthRegs x.w.val) }) ∧
  (∀ p x d a b, Issues (.lds p x d a b) p State.startMem true false (fun s gid l => loc x a b s gid l % n x = 0 ∧
      (s.scratch? (s.teamOf gid) (loc x a b s gid l) (n x)).isSome ∧ s.tooEarly .scratch gid x false = false)
    fun s gid l => { kind := .load .scratch (loc x a b s gid l) (n x) x.sgn, ord := x.ord, scope := x.scope, h := x.h
                     ordered := false, dst := some (d, widthRegs x.w.val) }) ∧
  (∀ p x d a b, Issues (.ldb p x d a b) p State.startMem true false (fun s gid l => loc x a b s gid l % n x = 0)
    fun s gid l => { kind := .load .bank (loc x a b s gid l) (n x) x.sgn, ord := x.ord, scope := x.scope, h := x.h
                     ordered := false, dst := some (d, widthRegs x.w.val) }) ∧
  (∀ p x d a b, Issues (.stg p x d a b) p State.startMem false true (fun s gid l => glob x a b s gid l % n x = 0)
    fun s gid l => { kind := .store .global (glob x a b s gid l) (s.srcBytes gid l d (n x)), ord := x.ord
                     scope := x.scope, h := x.h }) ∧
  (∀ p x d a b, Issues (.sts p x d a b) p State.startMem false true (fun s gid l => loc x a b s gid l % n x = 0 ∧
      (s.scratch? (s.teamOf gid) (loc x a b s gid l) (n x)).isSome ∧ s.tooEarly .scratch gid x true = false)
    fun s gid l => { kind := .store .scratch (loc x a b s gid l) (s.srcBytes gid l d (n x)), ord := x.ord
                     scope := x.scope, h := x.h }) ∧
  (∀ p x d a b, Issues (.stb p x d a b) p State.startMem false true (fun s gid l => loc x a b s gid l % n x = 0)
    fun s gid l => { kind := .store .bank (loc x a b s gid l) (s.srcBytes gid l d (n x)), ord := x.ord
                     scope := x.scope, h := x.h }) ∧
  (∀ p x a b, Issues (.pref p x a b) p State.startMem false true (fun _ _ _ => True)
    fun s gid l => { kind := .pref (glob x a b s gid l) (x.w.val == 0), ordered := false }) ∧
  (∀ p x, Issues (.tfence p x) p State.startMem false true (fun _ _ _ => True)
    fun s _ _ => { kind := .tfence (s.walkers x.scope), ordered := false })

/-- R164 to R166: atomics issue with their operands, and with the group's transform for `GMADD` and `GMEXIT`. -/
def Obligations.AtomicsIssue : Prop :=
  let n (x : Mx) : Nat := 2 ^ x.w.val
  let al (x : Mx) : Nat := if x.aop = 14 ∨ x.aop = 15 then 32 else n x
  let req (sp : Space) (x : Mx) (d a b : Opnd) (s : State) (gid l : Nat) : Req :=
    { kind := .atom sp (s.ea sp gid l a b x.ofs) x.aop (n x) (s.srcBytes gid l d (if x.aop = 12 then 2 * n x else n x)) x.ret
        ((s.group? gid).elim 0 Group.gmMode) ((s.group? gid).elim 0 Group.gmShape)
      ord := x.ord, scope := x.scope, h := x.h, dst := if x.ret then some (d, widthRegs x.w.val) else none }
  (∀ p x d a b, Issues (.atomg p x d a b) p State.startMem x.ret (!x.ret)
    (fun s gid l => s.eaGlobal gid l a b x.ofs % al x = 0) (req .global x d a b)) ∧
  (∀ p x d a b, Issues (.atoms p x d a b) p State.startMem x.ret (!x.ret)
    (fun s gid l => s.eaLocal gid l a b x.ofs % al x = 0 ∧
      (s.scratch? (s.teamOf gid) (s.eaLocal gid l a b x.ofs) (n x)).isSome ∧ s.tooEarly .scratch gid x true = false)
    (req .scratch x d a b)) ∧
  (∀ p x d a b, Issues (.atomb p x d a b) p State.startMem x.ret (!x.ret)
    (fun s gid l => s.eaLocal gid l a b x.ofs % al x = 0) (req .bank x d a b))

/-- R69: an issued operation takes the thread's `OPC` as its number in every lane given, every such `OPC` advances by one,
and nothing else of the state changes but the operation itself; here one that stays in flight, not held. -/
def Obligations.IssueTakesNumbers : Prop :=
  ∀ (s : State) (c : Slot) (g : Group) (ex : Nat) (a b : Bool) (ls : List Nat) (r : Req),
    (∀ l ∈ ls, s.mustHold g l r.ord r.h r.ordered = false) →
    let t := s.issueOp (fun s _ => s) c g ex a b ls r
    (∃ o, t.op? s.nextId = some o ∧ o.kind = r.kind ∧ o.gid = c.gid ∧ o.ctx = g.ctx ∧ o.st = .waiting ∧ o.held = false ∧
      o.issue = s.rtime ∧ o.ins = g.cbase + c.pc ∧ (o.seta, o.setb) = s.opFlags c a b ∧
      o.lanes = ls.map fun l => (l, (s.thread c.gid l).opc)) ∧
    (∀ k, k ≠ s.nextId → t.op? k = s.op? k) ∧
    (∀ gr l, s.group? c.gid = some gr → (gr.thread? l).isSome → ls.Nodup →
      (t.thread c.gid l).opc = (s.thread c.gid l).opc + (if l ∈ ls then 1 else 0)) ∧
    t = { s with ops := t.ops, groups := t.groups, nextId := s.nextId + 1 }

/-- R174 to R177, R184, R186: the asynchronous instructions. -/
def Obligations.AsyncOperationsIssue : Prop :=
  (∀ p x d a b, IssuesAsync (.cpy p x d a b) p d
    (fun s gid l =>
      let ad (sp : Space) (k : Nat) : Nat :=
        if sp = .global then (s.src64 gid l (a.plus k) false).toNat else (s.src32 gid l (a.plus k)).toNat
      let n := (s.src32 gid l b).toNat
      let inS (q m : Nat) : Prop := (s.scratch? (s.teamOf gid) q m).isSome
      ad x.dsp 0 % 16 = 0 ∧ ad x.ssp 2 % 16 = 0 ∧ n % 16 = 0 ∧ n ≤ 2 ^ 30 ∧ (x.dsp = .scratch → inS (ad x.dsp 0) n) ∧
        (x.ssp = .scratch → inS (ad x.ssp 2) n) ∧
        (x.bar ≠ .nul → (s.src32 gid l x.bar).toNat % 16 = 0 ∧ inS (s.src32 gid l x.bar).toNat 16))
    fun s gid l =>
      let ad (sp : Space) (k : Nat) : Nat :=
        if sp = .global then (s.src64 gid l (a.plus k) false).toNat else (s.src32 gid l (a.plus k)).toNat
      ⟨.copy x.ssp x.dsp (ad x.ssp 2) (ad x.dsp 0) (s.src32 gid l b).toNat,
        if x.bar = .nul then none else some (s.src32 gid l x.bar).toNat, x.bytes, x.par, x.csc, x.h⟩) ∧
  (∀ p x d a b (r : Nat → AReq), IssuesAsync (.tload p x d a b) p d
    (fun s gid l => tileReq false x a b s gid l = .ok (r l)) fun _ _ l => r l) ∧
  (∀ p x d a b (r : Nat → AReq), IssuesAsync (.tstore p x d a b) p d
    (fun s gid l => tileReq true x a b s gid l = .ok (r l)) fun _ _ l => r l) ∧
  (∀ p x d a b, IssuesAsync (.bankop p x d a b) p d
    (fun s gid l =>
      let r (k : Nat) : Nat := (s.src32 gid l (a.plus k)).toNat
      let n := 4 * x.ty.regs
      r 0 % n = 0 ∧ r 1 % n = 0 ∧ r 2 % n = 0 ∧ r 3 ≤ 2 ^ 24)
    fun s gid l =>
      let r (k : Nat) : Nat := (s.src32 gid l (a.plus k)).toNat
      ⟨.bank x (r 0) (r 1) (r 2) (if x.sc then s.srcAny gid l x.ty b else 0) (r 3), none, false, false, x.csc, x.h⟩) ∧
  (∀ p x d a b, IssuesAsync (.restripe p x d a b) p d
    (fun s gid l => (s.src64 gid l a false).toNat % 2 ^ 16 = 0)
    fun s gid l =>
      ⟨.restripe (s.src64 gid l a false).toNat (x.npg.toNat + 1) (s.src32 gid l b) 0 0, none, false, false, x.csc, x.h⟩)

/-! ## Continuations, spawns and the fabric (R140 to R150, R352 to R384) -/

/-- R141, R146 to R149: `RESUME`, `RESUME.S` and `CCOPY` issue with aligned objects, a remote `SPAWN` and an `RSPAWN` with a
record that fits its node; the local `SPAWN` puts its record into the core's bin. -/
def Obligations.ContinuationsAndSpawnsIssue : Prop :=
  (∀ p a, Issues (.resume p a) p State.startMem false true (fun s gid l => (s.src64 gid l a false).toNat % 256 = 0)
    fun s gid l => { kind := .resume (s.src64 gid l a false).toNat false, scope := .dev }) ∧
  (∀ p d a, Issues (.resumeS p d a) p State.startMem true false (fun s gid l => (s.src64 gid l a false).toNat % 256 = 0)
    fun s gid l => { kind := .resume (s.src64 gid l a false).toNat true, scope := .dev, dst := some (d, 1) }) ∧
  (∀ p a b, Issues (.ccopyMove p a b) p State.startMem false true
    (fun s gid l => (s.src64 gid l a false).toNat % 256 = 0 ∧ (s.src64 gid l b false).toNat % 256 = 0)
    fun s gid l => { kind := .ccopy false (s.src64 gid l a false).toNat (s.src64 gid l b false).toNat, scope := .dev }) ∧
  (∀ p a b, Issues (.ccopyFork p a b) p State.startMem false true
    (fun s gid l => (s.src64 gid l a false).toNat % 256 = 0 ∧ (s.src64 gid l b false).toNat % 256 = 0)
    fun s gid l => { kind := .ccopy true (s.src64 gid l a false).toNat (s.src64 gid l b false).toNat, scope := .dev }) ∧
  (∀ p x a b, x.rem = true → Issues (.spawn p x a b) p State.startSpawn false true
    (fun s gid _ => s.nodeBad (s.ctxOf gid) x.node.toNat (x.nw.toNat + 1) = false)
    fun s gid l => { kind := .spawn (s.src32 gid l b).toNat x.node.toNat (s.srcRun gid l a (x.nw.toNat + 1)), scope := .dev }) ∧
  (∀ p x a b, Issues (.rspawn p x a b) p (byBelay State.startRspawn) false true
    (fun s gid _ => s.nodeBad (s.ctxOf gid) x.node.toNat (x.nw.toNat + 1) = false)
    fun s gid l => { kind := .rspawn (s.src32 gid l b) x.node.toNat (s.srcRun gid l a (x.nw.toNat + 1)), scope := .sys }) ∧
  (∀ p x a b s c g on off s1, Executes (.spawn p x a b) p s c g on off s1 → x.rem = false →
    (∀ l ∈ on, s1.storesPending c.gid l = false) → s1.nodeBad g.ctx x.node.toNat (x.nw.toNat + 1) = false → ∀ t : Nat → State, t 0 = s1 →
    (∀ k, k < on.length → (t k).binAccept g.core g.ctx x.node.toNat ((t k).srcRun c.gid (on.getD k 0) a (x.nw.toNat + 1))
      = some (t (k + 1)) ∧ (t k).nodeBad g.ctx x.node.toNat (x.nw.toNat + 1) = false) →
    exec (.spawn p x a b) s = .next ((t on.length).goOn c.gid off on))

/-- R352, R370, R375, R376, R378, R382, R383: the fabric instructions whose operands are registers. -/
def Obligations.FabricOperationsIssue : Prop :=
  (∀ p x d a b s c g on off s1, Executes (.mcst p x d a b) p s c g on off s1 → s1.issueStall c on true false = none →
    let src (l : Nat) : Nat := if x.ssp then (s1.src32 c.gid l a).toNat else (s1.src64 c.gid l a false).toNat
    let dst (l : Nat) : Nat := (s1.src64 c.gid l x.c false).toNat
    ∀ ps : Nat → List Nat, (∀ l ∈ doers (.mcst p x d a b) g on, src l % 256 = 0 ∧ dst l % 256 = 0 ∧ dst l / 2 ^ 47 % 2 ^ 10 = 0 ∧
      s1.groupOf? (s1.src32 c.gid l b).toNat = some (ps l) ∧ s1.pathStores c.gid l = false ∧
      (if x.ssp then (s1.scratch? g.team (src l) 256).isSome = true
        else s1.absent g.ctx (src l) { r := true } (pairOf g.core) = false)) →
    exec (.mcst p x d a b) s = .next (((s1.issued (byBelay fun s _ => s) c g true false
      ((Instr.mcst p x d a b).need g.w).perPath on ((doers (.mcst p x d a b) g on).map fun l =>
        (l, { kind := .mcst { grp := (s1.src32 c.gid l b).toNat, poss := ps l, addr := dst l, local_ := x.ssp, src := src l }
              ord := if x.rel then .rel else .rlx, scope := .sys, dst := some (d, 4) }))).goOn c.gid off on).mcstFetches)) ∧
  (∀ p x d a b (ps : Nat → List Nat), Issues (.rload p x d a b) p (byBelay State.startRload) true false
    (fun s gid l =>
      (s.src64 gid l a false).toNat % 256 = 0 ∧ (s.src64 gid l a false).toNat / 2 ^ 47 % 2 ^ 10 = 0 ∧
        (s.src32 gid l d).toNat % 16 = 0 ∧ (s.scratch? (s.teamOf gid) (s.src32 gid l d).toNat 256).isSome ∧
        s.groupOf? (s.src32 gid l b).toNat = some (ps l))
    fun s gid l =>
      { kind := .rload { poss := ps l, addr := (s.src64 gid l a false).toNat, spad := (s.src32 gid l d).toNat
                         ety := x.ety.toNat, rop := x.rop.val, server := s.progDie ((s.group? gid).elim 0 Group.core) }
        ord := if x.acq then .acq else .rlx, scope := .sys, ordered := false }) ∧
  (∀ p d a, Issues (.peerq p d a) p (byBelay State.startPeerq) true false (fun _ _ _ => True)
    fun s gid l => { kind := .peerq (s.src32 gid l a).toNat, ordered := false, dst := some (d, 1) }) ∧
  (∀ p, Issues (.wcflush p) p (byBelay State.startWcflush) false true (fun _ _ _ => True)
    fun _ _ _ => { kind := .wcflush [], ordered := false }) ∧
  (∀ p a b, Issues (.scbset p a b) p (byBelay State.startScb) false true (fun s gid l => (s.src32 gid l a).toNat < 256)
    fun s gid l => { kind := .scb (s.src32 gid l a).toNat (s.src64 gid l b true) true, scope := .dev, h := true }) ∧
  (∀ p a b, Issues (.scbclr p a b) p (byBelay State.startScb) false true (fun s gid l => (s.src32 gid l a).toNat < 256)
    fun s gid l => { kind := .scb (s.src32 gid l a).toNat (s.src64 gid l b true) false, scope := .dev })

/-- R358, R362, R377, R379, R381: the instructions that read a descriptor when they issue. `t` is the state before each
lane's read; `GANG`, `MGRP` and `COLL` read once, for the path. -/
def Obligations.DescriptorOperationsIssue : Prop :=
  (∀ p x a b s c g on off s1, Executes (.arm p x a b) p s c g on off s1 → s1.issueStall c on false true = none →
    ∀ (t : Nat → State) (bs : Nat → List Byte), t 0 = s1.fresh.2 →
    let r (k : Nat) : Armed :=
      { sb := x.sb.toNat, mask := (t k).src64 c.gid (on.getD k 0) b true
        addr := ((t k).src64 c.gid (on.getD k 0) a false).toNat, words := wordsOf 16 (ofBytes (bs k)), core := g.core
        gid := c.gid, team := g.team }
    (∀ k, k < on.length → (r k).addr % 64 = 0 ∧
      (t k).readDesc c.gid (on.getD k 0) (r k).addr 64 = (t (k + 1), .bytes (bs k)) ∧ (r k).ok = true) →
    exec (.arm p x a b) s = .next (((t on.length).executing c s1.fresh.1 false true fun v =>
      (List.range on.length).foldl (fun u k => u.issueOp (byBelay State.startArm) c g s1.fresh.1
        false true [on.getD k 0] { kind := .arm (r k), h := true }) v).goOn c.gid off on)) ∧
  (∀ p h a s c g on off s1, Executes (.coll p h a) p s c g on off s1 → s1.issueStall c on false true = none →
    ∀ t bs d v, let va := (s1.src64 c.gid (on.headD 0) a false).toNat
    va % 64 = 0 → s1.fresh.2.readDesc c.gid (on.headD 0) va 64 = (t, .bytes bs) → CollDesc.read t.groupOf? bs = .ok d →
    (if 4 * (8 * d.elems) ≤ chunkBuffer then v = t
      else t.gateAt g.ctx d.prog 32768 (2 ^ 65 + 64 * c.gid + on.headD 0) (on.headD 0) = (v, true)) →
    v.slotsBad g.ctx g.core (v.sysMode g.ctx) d = (false, none) →
    exec (.coll p h a) s = .next ((v.executing c s1.fresh.1 false true fun u =>
      u.issueOp (byBelay State.startColl) c g s1.fresh.1 false true on
        { kind := .coll d 0, scope := .dev, h := h, ordered := false }).goOn c.gid off on)) ∧
  (∀ p a b s c g on off s1, Executes (.gang p a b) p s c g on off s1 → s1.issueStall c on false true = none →
    ∀ t bs ps, let va := (s1.src64 c.gid (on.headD 0) a false).toNat
    va % 64 = 0 → s1.groupOf? (s1.src32 c.gid (on.headD 0) b).toNat = some ps →
    s1.fresh.2.readDesc c.gid (on.headD 0) va 64 = (t, .bytes bs) →
    exec (.gang p a b) s = .next ((t.executing c s1.fresh.1 false true fun u =>
      u.issueOp (byBelay State.startGang) c g s1.fresh.1 false true on { kind := .gang { poss := ps, record := wordsOf 16 (ofBytes bs) }, h := true }).goOn c.gid off on)) ∧
  (∀ p a b s c g on off s1, Executes (.mgrp p a b) p s c g on off s1 → s1.issueStall c on false true = none →
    ∀ t h u tl ps, let va := (s1.src64 c.gid (on.headD 0) b false).toNat
    let n := (s1.src32 c.gid (on.headD 0) a).toNat
    n < 4096 → va % 8 = 0 → s1.fresh.2.readDesc c.gid (on.headD 0) va 8 = (t, .bytes h) → fld h 0 8 ≤ 64 →
    t.readDesc c.gid (on.headD 0) (va + 8) (2 * fld h 0 8) = (u, .bytes tl) → groupDesc (h ++ tl) = some ps →
    exec (.mgrp p a b) s = .next ((u.executing c s1.fresh.1 false true fun v =>
      v.issueOp (byBelay State.startMgrp) c g s1.fresh.1 false true on { kind := .mgrp n ps, h := true }).goOn c.gid off on))

/-! ## The matrix engine (R218 to R247) -/

/-- R225, R228: an anchored instruction signs for every executing lane in lane order, each signature an operation with the
operand values as its record, and its flags rise once and fall no earlier than the last has signed. `t` is the state before
each signature. -/
def Obligations.AnchoredInstructionsSign : Prop :=
  let signs (i : Instr) (p : Pre) (an : BitVec 7) (a b x : Opnd) (mk : Opnd → Opnd → Instr) : Prop :=
    ∀ s c g on off s1, Executes i p s c g on off s1 → c.ex = none → s1.issueStall c on true true = none → ∀ t : Nat → State,
      t 0 = { s1.fresh.2.raiseFlags c true true with opening := s1.fresh.1 :: (s1.fresh.2.raiseFlags c true true).opening } →
      let sig (k : Nat) : Sig :=
        let v (o : Opnd) : Word := (t k).src32 c.gid (on.getD k 0) o
        ⟨mk (.lit (v a)) (.lit (v b)), [v a, v b, v x]⟩
      (∀ k, k < on.length → (t k).sigBad g.team (sig k) = none ∧ (t k).engFull g.team an.toNat = false ∧
        t (k + 1) = (t k).issueOp State.sign c g s1.fresh.1 true true [on.getD k 0]
          { kind := .sign an.toNat (sig k), ordered := false }) →
      let u := t on.length
      exec i s = .next ((u.closeEx c.gid s1.fresh.1 (u.opFlags c true true)).goOn c.gid off on)
  (∀ p x d a, signs (.mldw p x d a) p d a .nul .nul fun a _ => .mldw {} x d a) ∧
  (∀ p d, signs (.mswap p d) p d .nul .nul .nul fun _ _ => .mswap {} d) ∧
  (∀ p x d a b, signs (.mma p x d a b) p d a b .nul fun a b => .mma {} x d a b) ∧
  (∀ p d a, signs (.mzero p d a) p d .nul .nul .nul fun _ _ => .mzero {} d a) ∧
  (∀ p x d a b, signs (.mrd p x d a b) p d a b .nul fun a b => .mrd {} x d a b) ∧
  (∀ p x d a b, signs (.mwr p x d a b) p d a b .nul fun a b => .mwr {} x d a b) ∧
  (∀ p x d a b, signs (.msts p x d a b) p d a b x.c fun a b => .msts {} x d a b) ∧
  (∀ p x d a b, signs (.rstat p x d a b) p d a b x.c fun a b => .rstat {} x d a b) ∧
  (∀ p x d a b, signs (.mscale p x d a b) p d a b x.c fun a b => .mscale {} x d a b)

/-- R226, R232, R244, R245: an anchor is set up for a number of signatures, a tensor-extent register is defined, and the
two waits of the engine end at once where nothing is outstanding. -/
def Obligations.EngineControlCompletes : Prop :=
  (∀ p d a s c g on off s1 tm, Executes (.manch p d a) p s c g on off s1 → s1.team? g.team = some tm →
    let n := (s1.src32 c.gid (on.headD 0) a).toNat
    0 < n → n ≤ tm.nthr →
    exec (.manch p d a) s = .next (((Map.get tm.anchors d.toNat {}).sigs.foldl (fun t id => t.fail id .anchorMismatch)
      (s1.modTeam g.team fun x => { x with anchors := Map.put d.toNat { n := n } x.anchors })).goOn c.gid off on)) ∧
  (∀ p id a s c g on off s1, Executes (.tdef p id a) p s c g on off s1 →
    let ws := s1.srcRun c.gid (on.headD 0) a 8
    (Tx.read ws).isSome →
    exec (.tdef p id a) s = .next ((s1.modCtx g.ctx fun x => { x with tx := Map.put id.toNat ws x.tx }).goOn c.gid off on)) ∧
  (∀ p s c g on off s1, Executes (.mopr p) p s c g on off s1 →
    (∀ l ∈ on, s1.moprPending c.gid l (s1.thread c.gid l).opc.toNat = false) →
    exec (.mopr p) s = .next (s1.goOn c.gid off on)) ∧
  (∀ p a s c g on off s1, Executes (.mwait p a) p s c g on off s1 →
    (∀ e ∈ (s1.core g.core).eng, e.2.team = g.team → a.toNat ≠ 16 ∧ e.2.sig.tile ≠ some a.toNat) →
    exec (.mwait p a) s = .next (s1.goOn c.gid off on))

/-! ## Barriers, tickets and queues (R29, R136, R170, R178 to R183) -/

/-- R181, R183: the updates of a byte-counting barrier, lane by lane (`t` is the state before each lane), and `BWAIT` where
the phase has changed already. -/
def Obligations.ByteBarriersComplete : Prop :=
  let upd (i : Instr) (p : Pre) (rel : Prop) (a b : Opnd) (bad : Word → Prop) (f : Word → BBar → BBar) : Prop :=
    ∀ s c g on off s1, Executes i p s c g on off s1 → ∀ (t : Nat → State) (ph : Nat → Nat), t 0 = s1 →
      (∀ k, k < on.length →
        let ad := ((t k).src32 c.gid (on.getD k 0) a).toNat
        let w := (t k).src32 c.gid (on.getD k 0) b
        ad % 16 = 0 ∧ (t k).scratch? ((t k).teamOf c.gid) ad 16 = some (ph k) ∧ ¬ bad w ∧
          t (k + 1) = (t k).updBar (ph k) (f w)) →
      (rel → ∀ l ∈ on, s1.storesPending c.gid l = false) →
      exec i s = .next ((t on.length).goOn c.gid off on)
  (∀ p a b, upd (.binit p a b) p False a b (fun w => w = 0 ∨ 65535 < w.toNat) fun w _ => ⟨w.toNat, w.toNat, 0, 0, 0⟩) ∧
  (∀ p a b, upd (.bexp p a b) p False a b (fun _ => False) fun w x => x.expect w) ∧
  (∀ p a, upd (.barr p a) p True a .nul (fun _ => False) fun _ x => x.arrive) ∧
  (∀ p d a b s c g on off s1, Executes (.bwait p d a b) p s c g on off s1 → ∀ bar : Nat → BBar,
    (∀ l ∈ doers (.bwait p d a b) g on, (s1.src32 c.gid l a).toNat % 16 = 0 ∧
      (s1.bbar? g.team (s1.src32 c.gid l a).toNat).map Prod.snd = some (bar l) ∧
      (bar l).phase ≠ ((s1.src32 c.gid l b).getLsbD 0).toNat ∧ (bar l).overrun = false) →
    exec (.bwait p d a b) s = .next (((doers (.bwait p d a b) g on).foldl
      (fun t l => t.dst32 c.gid l d (BitVec.ofNat 32 (bar l).st)) (s1.acquire g.core .clu)).goOn c.gid off on))

/-- R170, R178, R179: `PWAIT` on tickets that are done, `CANCEL` lane by lane, and queue instructions that find room, a
value, or a partner that is gone. -/
def Obligations.TicketsAndQueuesComplete : Prop :=
  (∀ p a s c g on off s1, Executes (.pwait p a) p s c g on off s1 →
    (∀ l ∈ on, s1.ticketOp g.core (s1.src32 c.gid l a) = none) →
    exec (.pwait p a) s = .next ((s1.acquire g.core .dev).goOn c.gid off on)) ∧
  (∀ p d a s c g on off s1, Executes (.cancel p d a) p s c g on off s1 → ∀ t : Nat → State, t 0 = s1 →
    let ls := doers (.cancel p d a) g on
    (∀ k, k < ls.length → t (k + 1) = match (t k).ticketOp g.core ((t k).src32 c.gid (ls.getD k 0) a) with
      | none => (t k).dst32 c.gid (ls.getD k 0) d 2
      | some id => ((t k).modOp id (modAsync fun x => { x with cancelled := true })).dst32 c.gid (ls.getD k 0) d
          (match ((t k).op? id).map Op.kind with
            | some (.async x _) => if x.wrote then 1 else 0
            | _ => 0)) →
    exec (.cancel p d a) s = .next ((t ls.length).goOn c.gid off on)) ∧
  (∀ p x d a s c g on off s1, Executes (.qpush p x d a) p s c g on off s1 →
    (∀ l ∈ on, (s1.unsettled c.gid l).length < 1024) → ∀ t : Nat → State, t 0 = s1 →
    (∀ k, k < on.length → (t k).push c.gid (on.getD k 0) a.toNat ((t k).src32 c.gid (on.getD k 0) d) x.h = some (t (k + 1))) →
    exec (.qpush p x d a) s = .next ((t on.length).goOn c.gid off on)) ∧
  (∀ p x d a s c g on off s1, Executes (.qpop p x d a) p s c g on off s1 →
    (∀ l ∈ on, (s1.unsettled c.gid l).length < 1024) → ∀ (t u : Nat → State) (w : Nat → Word), t 0 = s1 →
    (∀ k, k < on.length → (t k).pop c.gid (on.getD k 0) a.toNat x.h ((t k).src32 c.gid (on.getD k 0) d) = some (u k, w k) ∧
      t (k + 1) = (u k).dst32 c.gid (on.getD k 0) d (w k)) →
    exec (.qpop p x d a) s = .next ((t on.length).goOn c.gid off on))

/-- R29, R73, R79, R170: a window holds at most eight words, first in first out, and each push and pop takes one number; of a paired
team, which holds its operations, each waits for what is older and for the comparator, and behind a failure it has no effect and is
counted among the dropped operations. -/
def Obligations.QueueWindowsAreFifo : Prop :=
  let paired (s : State) (g : Group) : Prop := (s.team? g.team).any Team.paired = true
  (∀ (s t : State) gid l k w, s.push gid l k w false = some t →
    ∃ g, s.group? gid = some g ∧ (paired s g → s.unsettled gid l = [] ∧ (g.thread l).wait.isSome = true) ∧
      (paired s g → (s.failure? gid l).isSome = true → t = s.countDropped gid l) ∧
      (¬ (paired s g ∧ (s.failure? gid l).isSome = true) → s.partnerGone g l = true → t = s.countOne gid l) ∧
      (¬ (paired s g ∧ (s.failure? gid l).isSome = true) → s.partnerGone g l = false →
        (s.window (g.partner.getD 0) l k).length < 8 ∧
        t = (s.setWindow (g.partner.getD 0) l k (s.window (g.partner.getD 0) l k ++ [w])).countOne gid l)) ∧
  (∀ (s t : State) gid l k w old, s.pop gid l k false old = some (t, w) →
    (w = old ∧ t = s.countDropped gid l ∧ ∃ g, s.group? gid = some g ∧ paired s g ∧ (s.failure? gid l).isSome = true) ∨
    (s.window gid l k = [] ∧ w = 0 ∧ t = s.countOne gid l ∧ ∃ g, s.group? gid = some g ∧ s.partnerGone g l = true) ∨
    (∃ ws, s.window gid l k = w :: ws ∧ t = (s.setWindow gid l k ws).countOne gid l)) ∧
  (∀ (s : State) gid l g x, s.group? gid = some g → g.thread? l = some x → let t := s.countDropped gid l
    (t.thread gid l).opc = x.opc + 1 ∧ ∃ id o, t.op? id = some o ∧ o.kind = .queue ∧ o.st = .dropped ∧ o.gid = gid ∧
      o.lanes = [(l, x.opc)] ∧ o.ins = g.cbase + x.pc)

/-- R99, R136: arrivals at a barrier, lane by lane (`t` is the state before each lane), once earlier accesses of the threads have
been performed: an `ARRIVE` goes on, a `SYNC` goes on when the path's last arrival completes the phase, as an acquire, and
waits for the phase where none of its arrivals does; a `WAIT` waits for the phase of the barrier; a count above the team's or
the cluster's threads is `ILLEGAL_OPERAND`. And what one arrival is: it counts, the first one sets what is expected, and the
phase flips and is counted anew when the count is reached; with nobody waiting. -/
def Obligations.BarrierArrivals : Prop :=
  (∀ p x a s c g on off s1, Executes (.bar p x a) p s c g on off s1 →
    let k := if x.clu then 16 + x.idx.toNat else x.idx.toNat
    let arr (u : State) (j : Nat) := u.arrive c.gid (on.getD j 0) g.team k (u.src32 c.gid (on.getD j 0) a)
    (x.mode = .wait → exec (.bar p x a) s = .next (s1.finish c.gid off
      (on.map fun l => (l, .wait (.bar x.clu x.idx.toNat (s1.barrier g.team k).ph))))) ∧
    ((∀ l ∈ on, s1.storesPending c.gid l = false) → x.mode ≠ .wait →
      (∀ l ∈ on, s1.barLimit g.team k < (s1.src32 c.gid l a).toNat) →
      exec (.bar p x a) s = .next ((s1.advance c.gid off).trapAt c.gid on .illegalOperand .precise 0)) ∧
    ((∀ l ∈ on, s1.storesPending c.gid l = false) → ∀ t : Nat → State, t 0 = s1 →
      (∀ j, j < on.length → ((t j).src32 c.gid (on.getD j 0) a).toNat ≤ (t j).barLimit g.team k ∧ t (j + 1) = (arr (t j) j).1) →
      (x.mode = .arrive → exec (.bar p x a) s = .next ((t on.length).goOn c.gid off on)) ∧
      (x.mode = .sync → (arr (t (on.length - 1)) (on.length - 1)).2 = true →
        exec (.bar p x a) s = .next (((t on.length).acquire g.core (if x.clu then .clu else .grp)).goOn c.gid off on)) ∧
      (x.mode = .sync → (∀ j, j < on.length → (arr (t j) j).2 = false) →
        exec (.bar p x a) s = .next ((t on.length).finish c.gid off
          (on.map fun l => (l, .wait (.bar x.clu x.idx.toNat ((t on.length).barrier g.team k).ph))))))) ∧
  (∀ (s : State) gid l tid tm k a g, k < 16 → s.team? tid = some tm → s.group? gid = some g → g.team = tid →
    (∀ e ∈ s.groups, ∀ x ∈ e.2.threads, ∀ clu idx ph, x.2.wait ≠ some (.bar clu idx ph)) →
    let b := s.barrier tid k
    let want := if b.n = 0 then a.toNat else b.e
    want ≠ 0 →
    (s.arrive gid l tid k a).1.barrier tid k =
        (if want ≤ b.n + 1 then { e := want, n := b.n + 1 - want, ph := !b.ph } else { e := want, n := b.n + 1, ph := b.ph }) ∧
      (s.arrive gid l tid k a).2 = decide (want ≤ b.n + 1))

/-! ## Control flow (R130 to R156) -/

/-- R132, R133, R42: branches, calls and returns leave the clause for their targets; a branch not taken goes on; a target
that is no multiple of four is a PRECISE `MISALIGNED` trap of the threads that take it. -/
def Obligations.BranchesComplete : Prop :=
  (∀ p imm s c g on off s1, Executes (.bra p imm) p s c g on off s1 → c.pc % 4 = 0 →
    exec (.bra p imm) s = .next ((s1.advance c.gid off).leave c.gid on fun _ => codeTarget c.pc imm.toInt)) ∧
  (∀ p a s c g on off s1, Executes (.brx p a) p s c g on off s1 → (∀ l ∈ on, (s1.src32 c.gid l a).toNat % 4 = 0) →
    exec (.brx p a) s = .next ((s1.advance c.gid off).leave c.gid on fun l => (s1.src32 c.gid l a).toNat)) ∧
  (∀ p a s c g on off s1, Executes (.ret p a) p s c g on off s1 → (∀ l ∈ on, (s1.src32 c.gid l a).toNat % 4 = 0) →
    exec (.ret p a) s = .next ((s1.advance c.gid off).leave c.gid on fun l => (s1.src32 c.gid l a).toNat)) ∧
  (∀ p d imm s c g on off s1, Executes (.call p d imm) p s c g on off s1 →
    exec (.call p d imm) s = .next ((((doers (.call p d imm) g on).foldl (fun t l => t.dst32 c.gid l d
      (BitVec.ofNat 32 (((s1.thread c.gid l).clause.map Clause.after).getD 0))) s1).advance c.gid off).leave c.gid on
      fun _ => codeTarget c.pc imm.toInt)) ∧
  (∀ p imm a s c g on off s1, Executes (.brh p imm a) p s c g on off s1 →
    let taken (l : Nat) : Bool := s1.passed c.gid l (s1.clampSeq c.gid l (s1.src32 c.gid l a))
    let t := s1.advance c.gid off
    exec (.brh p imm a) s = .next ((if on.any taken then
        t.leave c.gid (on.filter taken) fun _ => codeTarget c.pc imm.toInt else t).advance c.gid (on.filter fun l => !taken l))) ∧
  (∀ p a s c g on off s1 w, w.toNat % 4 ≠ 0 →
    ((Executes (.brx p a) p s c g on off s1 → (∀ l ∈ on, s1.src32 c.gid l a = w) →
      exec (.brx p a) s = .next ((s1.advance c.gid off).trapAt c.gid on .misaligned .precise w.toNat)) ∧
    (Executes (.ret p a) p s c g on off s1 → (∀ l ∈ on, s1.src32 c.gid l a = w) →
      exec (.ret p a) s = .next ((s1.advance c.gid off).trapAt c.gid on .misaligned .precise w.toNat))))

/-- R133, R134, R137, R139: waits that are over at once, and waits that begin; a `RECONV` holds its threads until every live
thread of the group outside handlers is there. -/
def Obligations.WaitsComplete : Prop :=
  (∀ p a s c g on off s1, Executes (.waith p a) p s c g on off s1 →
    (∀ l ∈ on, s1.passed c.gid l (s1.clampSeq c.gid l (s1.src32 c.gid l a)) = true) →
    exec (.waith p a) s = .next (s1.goOn c.gid off on)) ∧
  (∀ p a s c g on off s1, Executes (.sleep p a) p s c g on off s1 → (∀ l ∈ on, s1.src32 c.gid l a = 0) →
    exec (.sleep p a) s = .next (s1.goOn c.gid off on)) ∧
  (∀ p a s c g on off s1, Executes (.sleep p a) p s c g on off s1 → (∀ l ∈ on, s1.src32 c.gid l a ≠ 0) →
    exec (.sleep p a) s = .next (s1.finish c.gid off
      (on.map fun l => (l, .wait (.sleep (s1.slotNow c.gid l + (s1.src32 c.gid l a).toNat)))))) ∧
  (∀ p s c g on off s1, Executes (.reconv p) p s c g on off s1 →
    exec (.reconv p) s = .next ((s1.finish c.gid off (on.map fun l => (l, .wait .reconv))).checkReconv c.gid)) ∧
  (∀ p x d a b s c g on off s1, Executes (.waitf p x d a b) p s c g on off s1 →
    ((Instr.waitf p x d a b).need g.w).perPath = true → ∀ t, s1.wfFirst x d a b c.gid (on.headD 0) = (t, .next) →
    exec (.waitf p x d a b) s = .next ((t.wfShare c.gid (on.headD 0) x (on.drop 1)).goOn c.gid off on)) ∧
  (∀ p x d a b s c g on off s1, Executes (.waitf p x d a b) p s c g on off s1 →
    ((Instr.waitf p x d a b).need g.w).perPath = false → ∀ t : Nat → State, t 0 = s1 →
    let n := if x.w64 then 8 else 4
    (∀ k, k < on.length →
      let l := on.getD k 0
      let u := t k
      let addr := (if x.spc = .global then u.src64 c.gid l a false + x.ofs.signExtend 64
        else ((u.src32 c.gid l a + x.ofs.signExtend 32).zeroExtend 64 : DWord)).toNat
      let v : DWord := if x.w64 then u.src64 c.gid l b true else (u.src32 c.gid l b).zeroExtend 64
      addr % n = 0 ∧ (x.spc = .scratch → (u.scratch? (u.teamOf c.gid) addr n).isSome) ∧
        u.wfStep c.gid l x d addr v (u.slotNow c.gid l) = (t (k + 1), .next)) →
    exec (.waitf p x d a b) s = .next ((t on.length).goOn c.gid off on)) ∧
  (∀ (s : State) gid g, s.group? gid = some g →
    (∃ e ∈ g.threads, e.2.phase ≠ .exited ∧ e.2.hnd = none ∧ e.2.wait ≠ some .reconv ∧ ∀ l, e.2.wait ≠ some (.withPath l)) →
    s.checkReconv gid = s)

/-- R145, R151, R83: an exit, a trap and a return from a handler, which operations that failed do not hold back. -/
def Obligations.ExitTrapAndReturnComplete : Prop :=
  (∀ p s c g on off s1, Executes (.exit p) p s c g on off s1 →
    let cl := on.head?.bind fun l => (s1.thread c.gid l).clause
    let rel := (cl.map Clause.releases).getD []
    let r := if rel = [] then s1 else s1.unmap c.gid rel
    let t := on.foldl (fun t l => (t.drainThread c.gid l).modThread c.gid l fun x => { x with phase := .exiting, t := [] })
      (if cl.any fun x => x.header.y then r.modGroup c.gid fun x => { x with skip := true } else r)
    exec (.exit p) s = .next ((on.foldl (fun t l => t.exitDone c.gid l) t).advance c.gid off)) ∧
  (∀ p imm s c g on off s1, Executes (.trap p imm) p s c g on off s1 →
    exec (.trap p imm) s = .next ((s1.advance c.gid off).trapAt c.gid on .userTrap .precise imm.toNat)) ∧
  (∀ p s c g on off s1, Executes (.rft p) p s c g on off s1 →
    (∀ l ∈ on, s1.unsettled c.gid l = []) →
    exec (.rft p) s = .next ((s1.returnAll c.gid on).advance c.gid off))

/-- R152 to R156: special registers, hints, register blocks and snapshots. -/
def Obligations.SpecialRegistersAndHintsComplete : Prop :=
  (∀ p d a s c g on off s1, Executes (.getsr p d a) p s c g on off s1 →
    exec (.getsr p d a) s = .next ((on.foldl (fun t l =>
      if l ∈ doers (.getsr p d a) g on then (t.getSr c.gid l a.toNat).2.dst32 c.gid l d (t.getSr c.gid l a.toNat).1
      else (t.getSr c.gid l a.toNat).2) s1).goOn c.gid off on)) ∧
  (∀ p d a s c g on off s1, Executes (.setsr p d a) p s c g on off s1 →
    exec (.setsr p d a) s = .next ((s1.setSr c.gid d.toNat (s1.src32 c.gid (on.headD 0) a)).goOn c.gid off on)) ∧
  (∀ p s c g on off s1, Executes (.nop p) p s c g on off s1 → exec (.nop p) s = .next (s1.goOn c.gid off on)) ∧
  (∀ p s c g on off s1, Executes (.yieldH p) p s c g on off s1 →
    exec (.yieldH p) s = .next ((s1.modGroup c.gid fun x => { x with skip := true }).goOn c.gid off on)) ∧
  (∀ p a s c g on off s1 t, Executes (.racq p a) p s c g on off s1 →
    s1.drawTo c.gid (min (s1.src32 c.gid (on.headD 0) a).toNat 4) 4 = some t →
    exec (.racq p a) s = .next (t.goOn c.gid off on)) ∧
  (∀ p s c g on off s1 g1, Executes (.rrel p) p s c g on off s1 → s1.group? c.gid = some g1 →
    exec (.rrel p) s = .next ((s1.shrink c.gid g1.needBlocks).goOn c.gid off on)) ∧
  (∀ p a s c g on off s1, Executes (.snap p a) p s c g on off s1 →
    exec (.snap p a) s = .next ({ s1 with snap :=
      { latched := true, tick := if s1.snap.latched then s1.snap.tick else s1.rtime
        tag := s1.src32 c.gid (on.headD 0) a } }.goOn c.gid off on)) ∧
  (∀ p x s c g on off s1, Executes (.fence p x) p s c g on off s1 → ∀ t : Nat → State, t 0 = s1 →
    (∀ k, k < on.length →
      let l := on.getD k 0
      let r := (t k).modThread c.gid l fun y => { y with relFence := Scope.wider y.relFence (some x.scope) }
      let u := if x.ord = .acq then t k else if x.scope = .sys then r.drainThread c.gid l else r
      u.fencePending c.gid l x (u.thread c.gid l).opc.toNat = false ∧ t (k + 1) = u.fenceEnd c.gid x) →
    exec (.fence p x) s = .next ((t on.length).goOn c.gid off on))

/-! ## Launches and suspension (R140 to R148, R274 to R276) -/

/-- R142 to R144, R146, R148: a launch that is accepted, a wait on a ticket that has ended, a steal without a victim, a
discard, and a suspension that begins. -/
def Obligations.LaunchesAndSuspensionsComplete : Prop :=
  (∀ p d a s c g on off s1, Executes (.launch p d a) p s c g on off s1 → (∀ l ∈ on, s1.storesPending c.gid l = false) →
    let va := (s1.src64 c.gid (on.headD 0) a false).toNat
    va % 64 = 0 → ∀ t bs u gr w, s1.cread g.ctx g.core va 64 = .ok (t, bs) →
    t.queueRecord g.ctx (pairOf g.core) bs none = .ok (u, gr, w) →
    exec (.launch p d a) s = .next ((u.dst32 c.gid (on.headD 0) d w).goOn c.gid off on)) ∧
  (∀ p d a s c g on off s1 n, Executes (.waitl p d a) p s c g on off s1 →
    s1.ticketStatus g.ctx (s1.src32 c.gid (on.headD 0) a) = some n →
    exec (.waitl p d a) s =
      .next (((s1.acquire g.core .dev).dst32 c.gid (on.headD 0) d (BitVec.ofNat 32 n)).goOn c.gid off on)) ∧
  (∀ p d a s c g on off s1, Executes (.steal p d a) p s c g on off s1 →
    let v := s1.src32 c.gid (on.headD 0) a
    let victim := if v = 0xFFFFFFFF then s1.pickVictim g.core g.ctx else v.toNat
    exec (.steal p d a) s = .next (if victim = g.core ∨ 160 ≤ victim then (s1.dst32 c.gid (on.headD 0) d 0).goOn c.gid off on
      else s1.finish c.gid off (on.map fun l => (l, .wait (.steal d victim s1.rtime))))) ∧
  (∀ p d a s c g on off s1, Executes (.cdiscard p d a) p s c g on off s1 → (∀ l ∈ on, s1.storesPending c.gid l = false) →
    let ls := doers (.cdiscard p d a) g on
    ∀ (t u : Nat → State) (old : Nat → Nat), t 0 = s1 →
    (∀ k, k < ls.length →
      let obj := ((t k).src64 c.gid (ls.getD k 0) a false).toNat
      obj % 256 = 0 ∧ (t k).lineBusy g.ctx (obj + 8) 4 = false ∧ (t k).casState g.ctx g.core obj stReady stDiscarded ((t k).sysMode g.ctx) = .ok (u k, old k) ∧
        t (k + 1) = (u k).dst32 c.gid (ls.getD k 0) d (BitVec.ofNat 32 (old k))) →
    exec (.cdiscard p d a) s = .next ((t ls.length).goOn c.gid off on)) ∧
  (∀ p d a s c g on off s1 g1, Executes (.suspend p d a) p s c g on off s1 → s1.group? c.gid = some g1 →
    let obj := (s1.src64 c.gid (on.headD 0) a false).toNat
    obj % 256 = 0 →
    exec (.suspend p d a) s = .next ((g1.threads.foldl (fun t e => t.drainThread c.gid e.1) s1).finish c.gid off
      (on.map fun l => (l, .wait (.suspend (some obj) d (p.sp.getD 0))))))

/-! ## The sequencer's steps (R363 to R367) -/

/-- R209, R326, R329, R364, R365: the steps that move chunks, with their credit, their chunk and their bytes, once the bytes of their
source are there and the lines that they write may be written (R101). A step that reduces into its own source chunk of carry words
sends what came in to be added there. A bank combines what a request brings with what its words hold, rounded once. -/
def Obligations.DataStepsComplete : Prop :=
  (∀ (s : State) k p (w : StepW), Steps s k p →
    let src := p.chunk w w.bs
    let dst := p.chunk w w.bd
    let cin (t : State) (r : State) (bs : List Byte) : Prop :=
      (t.takeChunk k p (p.rank w.pa)).isSome ∧ ∃ u, t.collGate k p dst p.d.csz = (u, true) ∧
        u.takeChunk k p (p.rank w.pa) = some (r, bs)
    (∀ bs r u, cin s r bs →
      let raw := (List.range p.d.csz).map fun i => bs.getD i 0
      r.collWrite k p dst (if w.cf then p.chunkBytes w.bd (p.d.carried bs)
        else if p.carryWords w.bd then carryBytes (lineToCarry p.d.ety raw) else raw) false true = .ok u →
      exec (.recv w) s = .next ((u.chunkPut k p dst).giveCredits k)) ∧
    (∀ bs r u, p.carryWords w.bd = true → src = dst → cin s r bs →
      r.collWrite k p dst (carryBytes (p.d.carried bs)) true true = .ok u →
      exec (.rrw w) s = .next ((u.chunkPut k p dst).giveCredits k)) ∧
    (∀ s1, s.chunkReady k p (some (p.source w)) = (s1, true) →
      (∀ t bs u, Map.get p.credits (p.rank w.pa) 0 ≠ 0 → w.cf = false → p.carryWords w.bs = false →
        s1.collRead p src p.d.csz = .ok (t, bs) → t.sendChunk k p (p.rank w.pa) src bs = .on u →
        exec (.send w) s = .next ((u.nextStep k).giveCredits k)) ∧
      (∀ t es u, Map.get p.credits (p.rank w.pa) 0 ≠ 0 → w.cf = true ∨ p.carryWords w.bs = true →
        s1.readCarry p w.bs src = .ok (t, es) →
        t.sendChunk k p (p.rank w.pa) src (if w.cf then carryBytes es else lineFromCarry p.d.ety es) = .on u →
        exec (.send w) s = .next ((u.nextStep k).giveCredits k)) ∧
      (∀ t bs u mine v, Map.get p.credits (p.rank w.pb) 0 ≠ 0 → s1.takeChunk k p (p.rank w.pa) = some (t, bs) →
        t.readCarry p w.bs src = .ok (u, mine) →
        u.sendChunk k p (p.rank w.pb) src (carryBytes (combineAll p.d.ety p.d.rop (p.d.carried bs) mine)) = .on v →
        exec (.rrs w) s = .next ((v.nextStep k).giveCredits k)) ∧
      (∀ r bs u mine x, p.inPlace w = false → cin s1 r bs → r.readCarry p w.bs src = .ok (u, mine) →
        u.collWrite k p dst (p.chunkBytes w.bd (combineAll p.d.ety p.d.rop (p.d.carried bs) mine)) (p.carryWords w.bd) true = .ok x →
        exec (.rrw w) s = .next ((x.chunkPut k p dst).giveCredits k)) ∧
      (∀ s0 t bs u, s1.collGate k p dst p.d.csz = (s0, true) → p.carryWords w.bs = false → p.carryWords w.bd = false →
        s0.collRead p src p.d.csz = .ok (t, bs) → t.collWrite k p dst bs false true = .ok u →
        exec (.copyStep w) s = .next ((u.chunkPut k p dst).giveCredits k)) ∧
      (∀ s0 t es u, s1.collGate k p dst p.d.csz = (s0, true) → p.carryWords w.bs = true ∨ p.carryWords w.bd = true →
        s0.readCarry p w.bs src = .ok (t, es) → t.collWrite k p dst (p.chunkBytes w.bd es) false true = .ok u →
        exec (.copyStep w) s = .next ((u.chunkPut k p dst).giveCredits k)))) ∧
  (∀ (s : State) p b va bs, p.carryWords b = false → s.collRead p va p.d.csz = .ok (s, bs) →
    s.readCarry p b va = .ok (s, lineToCarry p.d.ety bs)) ∧
  (∀ (p : Prog) b es, p.chunkBytes b es = if p.carryWords b then carryBytes es else lineFromCarry p.d.ety es) ∧
  (∀ (s t u : State) id o k p va n bs was, o.kind = .chunk k va n (some bs) true → s.prog? k = some p →
    (s.bankTouch o.ctx (va % 2 ^ 32) n).spaceRead .bank 0 o.ctx o.core (va % 2 ^ 32) n {} = .ok (t, was) → t.prog? k = some p →
    t.spaceWrite .bank 0 o.ctx o.core (va % 2 ^ 32)
      (carryBytes (combineAll p.d.ety p.d.rop (elemsOf 8 was) (elemsOf 8 bs))) = .ok u →
    s.chunkAtBank id o = u.chunkDone id k n none)

/-- R364, R366: the other steps. A WAIT or a SIGNAL of a scoreboard names `NB` + 1 bits from `FB`; credits go out for the receiving
steps that the program then stands before (R365). -/
def Obligations.ControlStepsComplete : Prop :=
  ∀ (s : State) k p (w : StepW), Steps s k p →
    (w.md = false → (∀ j, j ≤ w.nb.toNat → w.fb.toNat + j < 64 →
        (Map.get ((s.ctx? p.ctx).elim [] Ctx.scb) w.sb.toNat 0).getLsbD (w.fb.toNat + j) = true) →
      exec (.waitStep w) s = .next ((s.nextStep k).giveCredits k)) ∧
    (w.md = true → p.unacked = [] → exec (.waitStep w) s = .next ((s.nextStep k).giveCredits k)) ∧
    (∀ q, p.loop w = some q → exec (.loopStep w) s = .next ((s.modProg k fun _ => q).giveCredits k)) ∧
    (∀ q, p.endl = some q → exec (.endl w) s = .next ((s.modProg k fun _ => q).giveCredits k)) ∧
    (∀ q, p.peer w = some q → exec (.peerStep w) s = .next ((s.modProg k fun _ => q).giveCredits k)) ∧
    (p.unacked = [] → w.md = false →
      exec (.signal w) s = .next (((s.nextStep k).scbUpdate p.ctx w.sb.toNat fun v => v ||| stepMask w).giveCredits k)) ∧
    (∀ s0 t, p.unacked = [] → w.md = true →
      let va := ((((p.d.b.getD w.bd.toNat 0 : Nat) : Int) + 4 * w.k.toInt) % ((2 ^ 64 : Nat) : Int)).toNat
      s.collGate k p va 4 = (s0, true) → s0.collWrite k p va (toBytes 4 w.value.toNat) false false = .ok t →
      exec (.signal w) s = .next ((t.nextStep k).giveCredits k)) ∧
    (p.unacked = [] → exec (.endStep w) s = .next ((s.progEnd k p .ok).giveCredits k))

/-! ## Events of the package (R287, R399 to R412) -/

/-- R287, R402 to R404, R410 to R412: power-on, boot and attestation, a die pair's clock, heat, the energy window. -/
def Obligations.PowerAndClockEvents : Prop :=
  (∀ s, ∃ t, exec .powerOn s = .next t ∧ t.rtime = (if s.sel.flag then s.rtime else 0) ∧ t.boot.st = .rom ∧ t.ctxs = [] ∧
    t.groups = [] ∧ t.teams = [] ∧ t.grids = [] ∧ t.ops = [] ∧ ∀ d, (t.die d).st = .online) ∧
  (∀ s, ∃ t, exec .thermalShutdown s = .next t ∧ t.rtime = s.rtime ∧ t.boot.st = .rom ∧ t.boot.reason = 4 ∧ t.ctxs = [] ∧
    t.groups = [] ∧ t.teams = [] ∧ t.grids = [] ∧ t.ops = []) ∧
  (∀ s, s.boot.st = .rom → s.dieServes 8 = true →
    let i := s.sel.img
    let r := if Img.edOk i = false then 1 else if Img.mlOk i = false then 2
      else if Config.imageVersion i.bytes < Config.fusedMinVersion then 3 else 0
    exec .bootImage s = .next (if r = 0 then { s with boot := ⟨.running, 0, Config.imageVersion i.bytes, Config.sha512 i.bytes⟩ }
      else { s with
        boot := { s.boot with reason := r }
        outbox := s.outbox ++ (if s.belayServes then [{ dest := 512, kind := .host, arg := r }] else []) })) ∧
  (∀ i : Sys2Proof.Image, (Img.edOk i = true ↔ Config.keyHash i.edKey = Config.edKeyHash ∧
      Config.edVerifies i.edKey i.edSig (Config.sha512 i.bytes) = true) ∧
    (Img.mlOk i = true ↔ Config.keyHash i.mlKey = Config.mlKeyHash ∧
      Config.mlVerifies i.mlKey i.mlSig (Config.sha512 i.bytes) = true)) ∧
  (∀ s, s.boot.st = .running → s.belayServes = true → exec .getMeasurements s = .next { s with
    outbox := s.outbox ++ [{ dest := 512, kind := .measurements, data := s.measurements }] }) ∧
  (∀ s, s.sel.a < 4 → 800 ≤ s.sel.b → s.sel.b ≤ 1500 → s.sel.b % 50 = 0 → (s.pair s.sel.a).relock = none →
    s.boundedOn s.sel.a = false →
    exec .frequencyStep s = .next (s.modPair s.sel.a fun p =>
      { p with cyc := s.cyc s.sel.a, rt := s.rtime, mhz := s.sel.b, relock := some (s.rtime + 2000) })) ∧
  (∀ s, s.sel.a < 4 → (s.pair s.sel.a).relock = none → 800 < (s.pair s.sel.a).mhz →
    exec .thermalStep s = .next (s.modPair s.sel.a fun p =>
      { p with cyc := s.cyc s.sel.a, rt := s.rtime, mhz := p.mhz - 50, relock := some (s.rtime + 2000) })) ∧
  (∀ s e, (s.pair s.sel.a).relock = some e → e ≤ s.rtime →
    exec .relockDone s = .next (s.modPair s.sel.a fun p =>
      { p with relock := none, rt := e, eseq := (p.eseq + 1) % 2 ^ 32
               epochs := p.epochs.set (p.eseq % 4) (e, p.cyc, p.mhz) }).uncross) ∧
  (∀ s : State, (s.fifo = [] → s.serving = [] → s.uncross = s) ∧ ∀ m, s.fifo = [m] →
    s.uncross = ({ (({ s with fifo := [] } : State).receive m) with sel := s.sel } : State).serveAgain) ∧
  (∀ (s : State) ctx va d o n sys die, s.epoch? ctx va = some (d, o) → s.dieServes d = true → o + n ≤ 128 →
    s.readPiece ctx va n { r := true } sys die = .ok (s, ((s.pair d).window.drop o).take n)) ∧
  (∀ (s : State) ctx va d o bs sys die, s.epoch? ctx va = some (d, o) → s.writePiece ctx va bs sys die = .error (.cause .permission)) ∧
  (∀ s c x, s.energyEnd ≤ s.rtime → s.ctx? c = some x →
    ∃ t y n, exec .energyWindowEnd s = .next t ∧ t.energyEnd = s.energyEnd + 1000000 ∧ t.ctx? c = some y ∧
      ((s.ctxs.map Prod.fst).Nodup → y.energy = (x.energy + Config.energyUsed n) % 2 ^ 64))

/-- R405 to R408, R322, R309: errors, lost and offline dies, time-stop, snapshots, contexts and expanders. That an event
changes what was set up for a context is the model's (DESIGN CHOICE, log entry 41). -/
def Obligations.ErrorAndDebugEvents : Prop :=
  (∀ s, s.sel.flag = true → exec .scrubRead s = .next (s.modDie s.sel.a fun d => { d with errs := d.errs + 1 })) ∧
  (∀ s, s.ownerOf s.sel.a = none → ∃ t, exec .uncorrectableError s = .next t ∧ (lineOf s.sel.a) ∈ t.poison ∧ t.mem = s.mem ∧
    t.ctxs = s.ctxs ∧ t.groups = s.groups ∧ ∀ a n, s.poisoned a n = true → t.poisoned a n = true) ∧
  (∀ s c, s.ownerOf s.sel.a = some c → exec .uncorrectableError s = .next (({ s with
    poison := lineOf s.sel.a :: s.poison.filter (· ≠ lineOf s.sel.a)
    cores := Map.modAll (fun _ k => { k with l1 := Map.del (lineOf s.sel.a / 256) k.l1 }) s.cores } : State).kill c
      .contextKilled)) ∧
  (∀ (s : State) c cause, let t := s.kill c cause
    (∀ y, t.ctx? c = some y → y.killed = true ∧ y.armed = []) ∧ (∀ e ∈ t.saves, e.2.ctx ≠ c) ∧ (∀ e ∈ t.images, e.2.ctx ≠ c) ∧
      (∀ e ∈ t.progs, e.2.ctx ≠ c) ∧ (∀ e ∈ t.lends, e.2.r.ctx ≠ c) ∧ ∀ e ∈ t.cores, ∀ r ∈ e.2.bin, r.ctx ≠ c) ∧
  (∀ s, s.sel.a < 10 → (∀ e ∈ s.ctxs, e.2.touched.getLsbD s.sel.a = false ∨ e.2.killed = true) →
    let t := s.modDie s.sel.a fun y => { y with st := .lost }
    exec .dieFailure s =
      .next (if 8 ≤ s.sel.a then t.moveProgs s.sel.a else if s.sel.a < 4 then t.dropAcks s.sel.a else t)) ∧
  (∀ s c x, s.sel.a < 10 → s.ctxs = [(c, x)] → x.touched.getLsbD s.sel.a = true → x.killed = false →
    let t := (s.modDie s.sel.a fun y => { y with st := .lost }).kill c .dieLost
    exec .dieFailure s =
      .next (if 8 ≤ s.sel.a then t.moveProgs s.sel.a else if s.sel.a < 4 then t.dropAcks s.sel.a else t)) ∧
  (∀ (s : State) ctx va p sys die, vaOk va = true → s.remote? va = none → s.epoch? ctx va = none →
    (s.die (vaHome va)).st = .lost → s.translate ctx va p sys die = .error (.cause .translation)) ∧
  (∀ (s : State) ctx a n d, d ∈ bankDies a n → (s.die d).st = .lost → s.bankFail ctx a n = some .translation) ∧
  (∀ s, s.sel.a < 10 → exec .debugHalt s = .next (s.modDie s.sel.a fun d => { d with halted := true }).timeStops) ∧
  (∀ s, s.sel.a < 10 → exec .debugRelease s = .next (s.modDie s.sel.a fun d => { d with halted := false }).timeStops) ∧
  (∀ s, 10 ≤ s.sel.a → exec .snapIn s = .next { s with
    snap := if s.snap.latched then s.snap else { s.snap with latched := true, tick := s.rtime } }) ∧
  (∀ s, exec .snapshotRearm s = .next { s with snap := { s.snap with latched := false } }) ∧
  (∀ s, s.sel.a < 4 → s.sel.a ∉ s.cxlOut → exec .cxlExpanderRemoval s = .next { s with
    cxlOut := s.sel.a :: s.cxlOut
    near := Map.modAll (fun _ ls => ls.filter fun n =>
      !(decide (cxlBase s.sel.a ≤ 256 * n) && decide (256 * n < cxlBase (s.sel.a + 1)))) s.near
    cores := Map.modAll (fun _ k => { k with l1 := k.l1.filter fun e =>
      !(decide (cxlBase s.sel.a ≤ 256 * e.1) && decide (256 * e.1 < cxlBase (s.sel.a + 1))) }) s.cores }) ∧
  (∀ s, s.sel.a < 8 → s.sel.a ≥ 4 → (s.die s.sel.a).st = .online →
    exec .plannedDieOffline s = .next (s.modDie s.sel.a fun x => { x with st := .offline })) ∧
  (∀ s, s.sel.a = 8 ∨ s.sel.a = 9 → (s.die s.sel.a).st = .online →
    exec .plannedDieOffline s = .next ((s.modDie s.sel.a fun x => { x with st := .offline }).moveProgs s.sel.a)) ∧
  (∀ s, s.sel.a < 4 → (s.die s.sel.a).st = .online ∨ (s.die s.sel.a).st = .retained → ∃ t, exec .plannedDieOffline s = .next t ∧
    let u := (s.evacuate s.sel.a).dropAcks s.sel.a
    (t.die s.sel.a).st = (if u.holdsDie s.sel.a then .retained else .offline) ∧ t.mem = u.mem) ∧
  (∀ s, (s.die s.sel.a).st = .retained → s.holdsDie s.sel.a = false →
    exec .retainedStateExit s = .next (s.modDie s.sel.a fun x => { x with st := .offline })) ∧
  (∀ s e, (s.core s.sel.a).restart = some e → e ≤ s.cyc (pairOf s.sel.a) →
    exec .coreRestartEnd s = .next (s.modCore s.sel.a fun x => { x with gated := false, restart := none })) ∧
  (∀ s, s.boot.st = .running → s.sel.a < 64 → s.ctx? s.sel.a = none → s.sel.cfg.windows.length ≤ 16 →
    s.sel.cfg.grants.length ≤ 64 → CtxCfg.beyond s.sel.cfg = none →
    exec .contextCreation s = .next { s with ctxs := Map.put s.sel.a { cfg := s.sel.cfg } s.ctxs }) ∧
  (∀ s x, s.boot.st = .running → s.sel.a < 64 → s.ctx? s.sel.a = some x → s.sel.flag = true → s.sel.cfg.windows.length ≤ 16 →
    s.sel.cfg.grants.length ≤ 64 → CtxCfg.beyond s.sel.cfg = none → (∀ e ∈ s.groups, e.2.ctx ≠ s.sel.a) →
    exec .contextCreation s = .next (s.modCtx s.sel.a fun y => { y with
      cfg := { s.sel.cfg with sys := y.cfg.sys }, touched := y.touched &&& ~~~(BitVec.ofNat 10 s.sel.b) })) ∧
  (∀ s, (s.ctx? s.sel.a).isSome → (∀ e ∈ s.groups, e.2.ctx ≠ s.sel.a) → (∀ e ∈ s.teams, e.2.ctx ≠ s.sel.a) →
    ∃ t, exec .contextEnd s = .next t ∧ t.ctx? s.sel.a = none ∧ t.mem = s.mem ∧ t.groups = s.groups ∧ t.teams = s.teams ∧
      (∀ e ∈ t.grids, e.2.ctx ≠ s.sel.a) ∧ ∀ c, c ≠ s.sel.a → t.ctx? c = s.ctx? c)

/-- R1, R340 to R349, R408, R412: what the flits and clocks of links do, while a belay die serves. A flit joins the open block of its
link as its header says, and its message is whole where none of its flits was discarded; a block acts once its INTEG flit has verified
it, and another one is asked for again. Codes of link control are the model's (DESIGN CHOICE, log entry 27). -/
def Obligations.LinkEvents : Prop :=
  let key (s : State) : Nat := linkKey s.sel.a s.sel.b
  let lk (s : State) : Link := s.link (key s)
  let wire (s : State) : Wire := s.wire s.sel.a s.sel.b
  let mod (s : State) (f : Link → Link) : State := s.modLink (key s) f
  (∀ s : State, exec .preamble s = .next s) ∧
  (∀ (s : State) h, s.sel.hdr = some h → exec .grant s = .next (s.takeFlit .grant 0 h)) ∧
  (∀ (s : State) k code h, s.belayServes = false → s.takeFlit k code h = s) ∧
  (∀ (s : State) p q c a, s.belayServes = false → s.sendCtl p q c a = s) ∧
  (∀ (s : State) k code h, s.belayServes = true → let p := hdrAt h 48 9
    let l := s.link (linkKey p s.sel.plane)
    let x := selOfFlit s.sel k code h
    let ch := hdrAt h 1 6
    let last := h.getLsbD 12 || !k.long
    let seen := if k.long then Map.get l.rxPart ch (0, true) else (0, true)
    let n := if last then max 1 (flitsIn x k - seen.1) else 1
    let t := s.takeFlit k code h
    let m := t.link (linkKey p s.sel.plane)
    let good : Prop := hdrAt h 7 5 = k.type ∧ k.onChan ch = true ∧ hdrAt h 13 3 = 0 ∧ h.getLsbD 63 = false ∧
      s.portRoom p s.sel.plane ch n = true
    t = { s with links := t.links } ∧
    (l.up = false ∨ l.rxBad = true → m = { l with errs := l.errs + 1 }) ∧
    (l.up = true → l.rxBad = false → m.rxSeq = (hdrAt h 16 16 + 1) % 65536 ∧ m.rxFlits = l.rxFlits + n ∧
      (good → m.rxBlock = l.rxBlock ++ [⟨k, code, x, n, last && seen.2⟩] ∧ m.errs = l.errs) ∧
      (¬ good → m.rxBlock = l.rxBlock ∧ m.errs = l.errs + 1) ∧
      (last = true → Map.get? m.rxPart ch = none) ∧
      (last = false → good → Map.get? m.rxPart ch = some (seen.1 + 1, seen.2)) ∧
      (last = false → ¬ good → Map.get? m.rxPart ch = some (seen.1 + 1, false)) ∧
      m.heldTill = (if h.getLsbD 0 ≠ l.genRx ∧ l.rxIdle = true ∧ l.heldTill = 0 then s.rtime + holdTicks else l.heldTill) ∧
      (hdrAt h 16 16 = (l.rxSeq + n - 1) % 65536 → h.getLsbD 0 = l.genRx ∨ l.rxIdle = true →
        l.rxFlits = 0 ∨ h.getLsbD 0 = l.rxGen → m.rxGap = l.rxGap) ∧
      (hdrAt h 16 16 ≠ (l.rxSeq + n - 1) % 65536 → m.rxGap = true))) ∧
  (∀ (m : Msg) own gen seq k, m.chan < 64 → own < 512 → let h := m.header own gen seq k
    h.getLsbD 0 = gen ∧ hdrAt h 1 6 = m.chan ∧ hdrAt h 7 5 = m.typeAt k ∧ h.getLsbD 12 = decide (k + 1 = m.flits) ∧
      hdrAt h 13 3 = 0 ∧ hdrAt h 16 16 = seq % 2 ^ 16 ∧ hdrAt h 32 16 = m.tag % 2 ^ 16 ∧ hdrAt h 48 9 = own ∧
      hdrAt h 57 6 = m.ctx % 64 ∧ h.getLsbD 63 = false ∧ hdrAt h 64 64 = m.argAt k % 2 ^ 64) ∧
  (∀ (s : State) h, s.sel.hdr = some h → s.belayServes = true → let p := hdrAt h 48 9
    let q := s.sel.plane
    let l := s.link (linkKey p q)
    let gen := if l.rxFlits = 0 then h.getLsbD 0 else l.rxGen
    let release (f : Link → Link) : State := l.rxBlock.foldl (fun t m =>
        let u := t.giveBack p q m
        if m.whole then u.receive m else u)
      (s.modLink (linkKey p q) fun l => f { l with fails := 0, rxFirst := l.rxSeq, rxBlock := [], rxFlits := 0, rxKept := l.rxPart })
    l.up = true → l.rxBad = false →
    (s.sel.flag = true → l.rxGap = false → gen = l.genRx →
      exec .integ s = .next { release id with sel := s.sel }) ∧
    (s.sel.flag = true → l.rxGap = false → gen ≠ l.genRx → l.rxIdle = true →
      exec .integ s = .next { release (fun l => { l with genRx := gen }) with sel := s.sel }) ∧
    (s.sel.flag = false ∨ l.rxGap = true ∨ (gen ≠ l.genRx ∧ l.rxIdle = false) →
      exec .integ s = .next ((s.modLink (linkKey p q) fun l =>
        { l with fails := l.fails + 1, rxBad := decide (4 ≤ l.fails + 1), rxSeq := l.rxFirst, rxBlock := [], rxFlits := 0
                 rxGap := false, rxPart := l.rxKept }).sendCtl p q 1 l.rxFirst))) ∧
  (∀ (s : State) p q (m : RxMsg) h, m.x.hdr = some h → let ch := hdrAt h 1 6
    (62 ≤ ch → s.giveBack p q m = s) ∧
    (ch < 62 → ∃ more, more ≤ 1 ∧ s.giveBack p q m = (s.modLink (linkKey p q) fun l => { l with given := l.given + more }).enqueue p q
      { dest := p, kind := .grant, chan := 62, arg := ch + 64 * (m.n + more) })) ∧
  (∀ s : State, (lk s).blk = 0 ∨ s.rtime < (lk s).blkT + 64 → exec .sealedBlockClose s = .next s) ∧
  (∀ s : State, (lk s).blk ≠ 0 → (lk s).blkT + 64 ≤ s.rtime → exec .sealedBlockClose s = .next (({ mod s (fun l =>
      { l with blk := 0, ctr := l.ctr + 1, dark := true, credits := l.credits.filter fun e => decide (e.1 < 62) }) with
    outbox := s.outbox ++ [(wire s).bare .integ (lk s).genTx ((lk s).blkAt % 65536) ((wire s).iv (lk s).ctr).toNat] } : State).pump
      s.sel.a s.sel.b)) ∧
  (∀ s : State, s.receive { kind := .grant, x := s.sel } = (s.modLink (linkKey s.sel.a s.sel.plane) fun l =>
    { l with credits := Map.put s.sel.c (l.credit s.sel.c + s.sel.d) l.credits }).pump s.sel.a s.sel.plane) ∧
  (∀ (s : State) h, s.sel.hdr = some h → s.belayServes = true →
    ((s.link (linkKey (hdrAt h 48 9) s.sel.plane)).up = true → exec .linkctl s = .next (s.takeFlit .linkctl 0 h)) ∧
    ((s.link (linkKey (hdrAt h 48 9) s.sel.plane)).up = false → exec .linkctl s = .next
      { ({ s with sel := selOfFlit s.sel .linkctl 0 h } : State).linkctlIn with sel := s.sel })) ∧
  (∀ s : State, s.receive { kind := .linkctl, x := s.sel } = s.linkctlIn) ∧
  (∀ s : State, let t := s.linkctlIn
    (s.sel.link = .attested → s.boot.st = .running → t = mod s fun l =>
      { l with up := true, bad := false, rxBad := false, fails := 0 }) ∧
    (s.sel.link = .trigger → t = s.trigger) ∧
    (s.sel.link = .newKey → t = mod s fun l => if l.up = true then { l with rxNew := true } else l) ∧
    (s.sel.link = .keyInstalled → t = mod s fun l => if l.up = true ∧ l.rekey = 1 then { l with rekey := 2 } else l) ∧
    (∀ seq, s.sel.link = .retry seq → (lk s).retries = 0 ∨ (lk s).retrySeq ≠ seq ∨ (lk s).retries < 3 → ∃ ms is,
      let back := ((lk s).sent + 65536 - seq) % 65536
      let due (q : Msg) (h : BitVec 128) : Prop :=
        (q ∈ (lk s).txq ∨ (q ∈ s.outbox ∧ q.dest = s.sel.a ∧ q.plane = s.sel.b ∧ q.kind ≠ .preamble ∧ q.kind ≠ .integ)) ∧
        h ∈ q.hdrs ∧ ((lk s).sent + 65536 - hdrAt h 16 16) % 65536 ≤ back ∧ hdrAt h 16 16 ≠ (lk s).sent % 65536 ∧
        (lk s).sent ≤ q.last + back
      let same (a b : BitVec 128) : Prop := a.getLsbD 0 = (lk s).genTx ∧ ∀ i, i ≠ 0 → a.getLsbD i = b.getLsbD i
      t.outbox = s.outbox ++ (wire s).bare .preamble (lk s).genTx 0 0 :: ms ++ is ∧
      (∀ m ∈ ms, ∃ q, m = { q with hdrs := m.hdrs } ∧ ∀ a ∈ m.hdrs, ∃ b, due q b ∧ same a b) ∧
      (∀ q b, due q b → ∃ m ∈ ms, m = { q with hdrs := m.hdrs } ∧ ∃ a ∈ m.hdrs, same a b) ∧
      (∀ m ∈ is, m.kind = .integ) ∧ is.length = ceilDiv (ms.map fun m => m.hdrs.length).sum 16 ∧
      (t.link (key s)).ctr = (lk s).ctr + is.length ∧ (t.link (key s)).blk = 0) ∧
    (∀ seq, s.sel.link = .retry seq → (lk s).retrySeq = seq → 3 ≤ (lk s).retries → (t.link (key s)).bad = true)) ∧
  (∀ s : State, (lk s).up = true → (lk s).rekey = 0 → (lk s).rekeyTill ≤ s.rtime →
    exec .rekeyStart s = .next ((mod s fun l => { l with rekey := 1 }).sendCtl s.sel.a s.sel.b 2 0)) ∧
  (∀ s : State, (lk s).rxNew = true → (lk s).rxIdle = false →
    exec .keyInstall s = .next ((mod s fun l => { l with rxNew := false, rxIdle := true }).sendCtl s.sel.a s.sel.b 3 0)) ∧
  (∀ s : State, (lk s).rxNew = false → (lk s).rekey = 2 →
    exec .keyInstall s = .next (mod s fun l => { l with rekey := 3, txIdle := true })) ∧
  (∀ s : State, (lk s).rekey = 3 → (lk s).blk = 0 → exec .genFlip s = .next ((mod s fun l =>
    { l with genTx := !l.genTx, ctr := 0, txIdle := false, rekey := 0, rekeyTill := s.rtime + 350 + holdTicks }).pump
      s.sel.a s.sel.b)) ∧
  (∀ s : State, (lk s).rxIdle = true → (lk s).heldTill ≠ 0 → (lk s).heldTill ≤ s.rtime →
    exec .oldKeyErase s = .next (mod s fun l => { l with rxIdle := false, heldTill := 0 })) ∧
  (∀ s : State, s.sel.a < 8 → s.sel.a ∉ s.planesOff → ∃ t, exec .planeLoss s = .next t ∧ t.planesOff = s.sel.a :: s.planesOff ∧
    ∀ peer, (t.link (linkKey peer s.sel.a)).txq = []) ∧
  (∀ s : State, ∃ t, exec .planeOnline s = .next t ∧ s.sel.a ∉ t.planesOff ∧
    t = { s with planesOff := t.planesOff, links := t.links, outbox := t.outbox })

/-- R101, R103, R308, R317, R343, R346, R359, R403, R405: a peer's requests join the blocks of their links, and one that has been
verified is served at once where it can be: READ, WRITE with its WDATA up to the flit with LAST, ATOMIC, MCAST and SPAWN; and what
arrives by Ultra Ethernet. `g` is the state at which the access may be made. -/
def Obligations.PeerRequestsAreServed : Prop :=
  let met (g : State) (x : Serve) (va n : Nat) : State := g.meets x.ctx (g.servedVa va) n { r := true } x.sys (homeDie va)
  (∀ e ∈ ([(.read, .read), (.write, .write), (.wdata, .wdata), (.atomic, .atomic), (.mcast, .mcast), (.spawnFlit, .spawn)] :
      List (Instr × MsgKind)), ∀ (s : State) h, s.sel.hdr = some h → exec e.1 s = .next (s.takeFlit e.2 0 h)) ∧
  (∀ (s : State) g, let m := s.sel.msg
    let x := s.serveOf (.read m.addr m.n)
    s.serveGate x m.addr m.n = (g, true) → let u := met g x m.addr m.n
    (∀ t bs, u.gread m.ctx (u.servedVa m.addr) m.n { r := true } m.sys (homeDie m.addr) = .ok (t, bs) →
      s.receive { kind := .read, x := s.sel } = t.reply x .rdata m.addr bs) ∧
    (∀ c, u.gread m.ctx (u.servedVa m.addr) m.n { r := true } m.sys (homeDie m.addr) = .error (.cause c) →
      s.receive { kind := .read, x := s.sel } = u.reply x .nack m.addr (toBytes 2 (u.refusal m.addr c).code)) ∧
    (u.gread m.ctx (u.servedVa m.addr) m.n { r := true } m.sys (homeDie m.addr) = .error .notPresent →
      s.receive { kind := .read, x := s.sel } = { u with serving := u.serving ++ [x] })) ∧
  (∀ s : State, (∀ h, s.sel.hdr = some h → h.getLsbD 12 = false) → s.receive { kind := .write, x := s.sel } = { s with
    serving := s.serving ++ [s.serveOf (.write s.sel.msg.addr 1 none [])] }) ∧
  (∀ (s : State) x rest va left f todo, s.serving = x :: rest → x.src = s.sel.a → x.tag = s.sel.msg.tag →
    x.kind = .write va left f todo → left ≠ 0 → (∀ h, s.sel.hdr = some h → h.getLsbD 12 = false) →
    let more := todo ++ [(s.sel.msg.addr / 64 * 64, s.sel.msg.mask, s.sel.msg.data)]
    s.receive { kind := .wdata, x := s.sel } = { s with serving := rest ++ [{ x with kind := .write va left f more }] }) ∧
  (∀ (s : State) h x rest va left g t u, s.serving = x :: rest → x.src = s.sel.a → x.tag = s.sel.msg.tag →
    x.kind = .write va left none [] → left ≠ 0 → s.sel.hdr = some h → h.getLsbD 12 = true →
    let a := s.sel.msg.addr / 64 * 64
    let line := va / 256 * 256
    let y : Serve := { x with kind := .write va 0 none [(a, s.sel.msg.mask, s.sel.msg.data)] }
    ({ s with serving := rest } : State).serveGate y line 256 = (g, true) →
    (met g y line 256).replGate x.tag (some x.src) x.ctx ((met g y line 256).servedVa line) = (t, true) →
    t.maskedWrite y (t.servedVa a) (sectorMask s.sel.msg.mask) s.sel.msg.data = .ok u →
    s.receive { kind := .wdata, x := s.sel } = u.reply y .ack va []) ∧
  (∀ (s : State) g t t0 u old, let m := s.sel.msg
    let n := 2 ^ m.w
    let x := s.serveOf (.atomic m.addr m.aop n m.data)
    s.serveGate x m.addr n = (g, true) → let v := met g x m.addr n
    v.gread m.ctx (v.servedVa m.addr) n { r := true, w := true } m.sys (homeDie m.addr) = .ok (t0, old) →
    v.replGate m.tag (some s.sel.a) m.ctx (v.servedVa m.addr) = (t, true) →
    t.gwrite m.ctx (t.servedVa m.addr)
      (toBytes n (atomNew m.aop.toNat n (ofBytes old) (ofBytes (m.data.take n)) (ofBytes (m.data.drop n)))) m.sys
      (homeDie m.addr) = .ok u →
    s.receive { kind := .atomic, x := s.sel } = u.reply x .rdata m.addr old) ∧
  (∀ (s : State) g t u, let m := s.sel.msg
    let va := m.addr / 256 * 256
    let x := s.serveOf (.mcast va m.mask m.data)
    s.serveGate x va 256 = (g, true) →
    (met g x va 256).replGate m.tag (some s.sel.a) m.ctx ((met g x va 256).servedVa va) = (t, true) →
    t.maskedWrite x (t.servedVa va) (lineMask m.mask) m.data = .ok u →
    s.receive { kind := .mcast, x := s.sel } = u.reply x .ack va []) ∧
  (∀ (s : State) c, let m := s.sel.msg
    let words := wordsOf (m.data.length / 4) (ofBytes m.data)
    let x := s.serveOf (.spawn (m.addr % 256) (m.addr / 256 % 1024) words)
    s.ctx? m.ctx = some c → m.addr % 256 ∈ c.cfg.cores → s.nodeBad m.ctx (m.addr / 256 % 1024) words.length = false →
    (∀ t, s.binAccept (m.addr % 256) m.ctx (m.addr / 256 % 1024) words = some t →
      s.receive { kind := .spawn, x := s.sel } = t.reply x .ack 0 []) ∧
    (s.binAccept (m.addr % 256) m.ctx (m.addr / 256 % 1024) words = none →
      s.receive { kind := .spawn, x := s.sel } = { s with serving := s.serving ++ [x] })) ∧
  (∀ (s : State) c n, s.ctx? s.sel.a = some c → s.sel.c < 8 → s.dieServes (8 + s.sel.c / 4) = true → s.sel.msg.sys = false →
    n = (if s.sel.flag then s.sel.d else s.sel.msg.data.length) → physExists s.sel.b n = true →
    (∃ w ∈ c.cfg.rma, w.base ≤ s.sel.b ∧ s.sel.b + n ≤ w.base + w.len) →
    ∃ t, exec .uetRmaWrite s = .next t ∧ t.groups = s.groups ∧
      t.mem = (if s.sel.flag then s.mem else Memory.write s.mem s.sel.b s.sel.msg.data) ∧
      t.outbox = s.outbox ++ [{ dest := 512, kind := if s.sel.flag then .rma else .uetDone, ctx := s.sel.a, addr := s.sel.b
                                arg := n, data := if s.sel.flag then s.readPhys s.sel.b n else [] }])

/-- R70, R72, R343, R350, R403: what the replies of a peer, once verified, and their absence do to the one operation that waits for
them, while the clock of its core's pair runs; a relock holds them at the crossing. -/
def Obligations.RepliesSettleOperations : Prop :=
  let plain (o : Op) : Prop := (∃ sp a bs, o.kind = .store sp a bs) ∨ (∃ sp a n sgn, o.kind = .load sp a n sgn)
  (∀ e ∈ ([(.rdata, .rdata), (.ack, .ack), (.nack, .nack)] : List (Instr × MsgKind)), ∀ (s : State) h, s.sel.hdr = some h →
    exec e.1 s = .next (s.takeFlit e.2 0 h)) ∧
  (∀ (s : State) id o, (s.pair (pairOf o.core)).relock = none →
    (∀ sp a n sgn, s.asking s.sel.a s.sel.msg.tag = [(id, o)] → o.kind = .load sp a n sgn →
      s.receive { kind := .rdata, x := s.sel } = (s.loaded id o n sgn s.sel.msg.data).flushes) ∧
    (∀ sp a n v ret mode shape aop, s.asking s.sel.a s.sel.msg.tag = [(id, o)] →
      o.kind = .atom sp a aop n v ret mode shape →
      s.receive { kind := .rdata, x := s.sel } = (s.atomDone id o a n ret s.sel.msg.data).flushes) ∧
    (∀ sp a bs, s.asking s.sel.a s.sel.b = [(id, o)] → o.kind = .store sp a bs →
      s.receive { kind := .ack, x := s.sel } = (((s.escape id ⟨.store, Nat.log2 bs.length, a⟩).settle id .ok).doneB id).flushes) ∧
    (s.asking s.sel.a s.sel.b = [(id, o)] → plain o →
      s.receive { kind := .nack, x := s.sel } = (s.fail id (Cause.ofCode s.sel.c)).flushes)) ∧
  (∀ (s : State) id o, s.asking s.sel.a s.sel.b = [(id, o)] → (s.pair (pairOf o.core)).relock.isSome = true →
    s.receive { kind := .ack, x := s.sel } = { s with fifo := s.fifo ++ [{ kind := .ack, x := s.sel }] }) ∧
  (∀ (s : State) o, s.op? s.sel.a = some o → s.unanswered o = true → plain o →
    (∀ tag, o.st = .sent tag → exec .remoteTimeout s = .next ((s.fail s.sel.a .remoteTimeout).flushes)) ∧
    (o.st = .waiting → s.forPeer o = true → exec .remoteTimeout s = .next (s.fail s.sel.a .remoteTimeout)))

/-- R282, R340, R346, R350, R352 to R356, R375, R376, R384: rounds, replies and drains of operations on the fabric, and the records
that an accepted `SPAWN` or a sent `RSPAWN` leaves. The model's choice are the three lanes of a port with one belay die left and the
address in a SPAWN's escape (DESIGN CHOICE, log entry 66), the form of a request to a peer's belay die (DESIGN CHOICE, log entry 52) and
the address of an RSPAWN's message (DESIGN CHOICE, log entry 27). -/
def Obligations.FabricEvents : Prop :=
  (∀ (s : State) o m, s.op? s.sel.a = some o → o.kind = .mcst m → m.line = [] → o.st = .waiting →
    exec .mcastRound s = .next (s.mcstFetch s.sel.a)) ∧
  (∀ (s : State) o m, s.op? s.sel.a = some o → o.kind = .mcst m → o.held = false → o.st.settled = false → m.line.length = 256 →
    m.tuned = true →
    (m.round s.deviceIndex.toNat s.lanesOf = [] → s.mcstOwes m = false → exec .mcastRound s = .next (s.mcstDone s.sel.a)) ∧
    ∀ i is, m.round s.deviceIndex.toNat s.lanesOf = i :: is →
      exec .mcastRound s = .next ((i :: is).foldl (fun t j => match t.op? s.sel.a with
        | some q => if q.st.settled then t else (match q.kind with
          | .mcst m => t.mcstSend s.sel.a q m j
          | _ => t)
        | none => t) (s.modOp s.sel.a fun q => { modMcst (fun m => { m with tuned := false, at_ := s.rtime }) q with
          st := .sent (tagOf s.sel.a) }))) ∧
  (∀ (m : Mcst) own lanes, (∀ i ∈ m.round own lanes, i < m.poss.length ∧ i ∉ m.sent) ∧
    ∀ port, ((m.round own lanes).filter fun i => decide (m.poss.getD i 0 ≠ own ∧ portTo (m.poss.getD i 0) = port)).length ≤ lanes) ∧
  (∀ s : State, s.lanesOf ≤ 6 ∧ (s.dieServes 8 = true → s.dieServes 9 = true → s.lanesOf = 6)) ∧
  (∀ (s : State) o m, s.op? s.sel.a = some o → o.kind = .mcst m → ∃ t, exec .laneRetuneDone s = .next t ∧ t = { s with ops := t.ops } ∧
    t.op? s.sel.a = some (if m.at_ + 30 ≤ s.rtime then { o with kind := .mcst { m with tuned := true } } else o)) ∧
  (∀ (s : State) o m, s.op? s.sel.a = some o → o.kind = .mcst m → s.unanswered o = true → s.sel.b ∈ m.sent →
    exec .mcastReplyTimeout s = .next (s.mcstNack s.sel.a (m.poss.getD s.sel.b 512) .remoteTimeout)) ∧
  (∀ (s : State) o r, s.op? s.sel.a = some o → o.kind = .rload r → o.held = false → o.st.settled = false → o.st ≠ .waiting →
    r.moved = false → s.reduces r.server = true → (Map.get? r.got (r.poss.idxOf s.deviceIndex.toNat)).isSome →
    r.poss.length ≤ r.got.length + r.nacks.length →
    let line := lineFromCarry r.ety (pullRoot r.ety r.rop 7 (r.got.map fun e => lineToCarry r.ety e.2))
    (∀ j c rest, r.nacks = (j, c) :: rest → r.for_ = none →
      exec .rloadRepliesComplete s = .next (s.fail s.sel.a (Cause.ofCode c))) ∧
    (∀ t, r.nacks = [] → r.for_ = none → s.spaceWrite .scratch o.gid o.ctx o.core r.spad line = .ok t →
      exec .rloadRepliesComplete s =
        .next ((t.settleFlags s.sel.a .ok).acquire o.core (if acquires o.ord then .sys else .grp))) ∧
    ∀ peer tag, r.nacks = [] → r.for_ = some (peer, tag) → exec .rloadRepliesComplete s = .next (((s.send peer (r.addr / 256) 0
      { dest := 0, kind := .rdata, flits := 4, tag := tag, ctx := o.ctx, addr := r.addr, data := line }).getD s).settle s.sel.a .ok)) ∧
  (∀ (s : State) o r, s.op? s.sel.a = some o → o.kind = .rload r → o.held = false → o.st.settled = false → o.st ≠ .waiting →
    r.moved = false → s.sel.flag = true ∨ s.reduces r.server = false →
    let t := if s.sel.flag then s.modDie r.server fun d => { d with aluOff := true } else s
    (r.poss.headD 0 = s.deviceIndex.toNat ∨ s.dieServes r.server = false → s.reduces (17 - r.server) = true →
      exec .rloadServerFallback s = .next (byBelay State.startRload (t.modOp s.sel.a (modRload fun q =>
        { q with got := [], nacks := [], server := 17 - q.server })) s.sel.a)) ∧
    (r.poss.headD 0 ≠ s.deviceIndex.toNat → s.dieServes r.server = true →
      exec .rloadServerFallback s = .next (t.rloadMove s.sel.a o r))) ∧
  (∀ (s t : State) id o r, let q : RLoad := { r with got := [], nacks := [], moved := true }
    let u := s.fresh.2.modOp id fun x => { x with kind := .rload q, st := .sent (tagOf s.nextId) }
    u.tornFrom o.gid (r.poss.headD 0) id = false →
    u.send (r.poss.headD 0) 0 0 (q.request (tagOf s.nextId) o.ctx o.sys) = some t → s.rloadMove id o r = t) ∧
  (∀ (s : State) e, Map.get? (s.core s.sel.a).wc s.sel.b = some e → s.wcDue e = true →
    exec .wcDrain s = .next (s.drain s.sel.a s.sel.b).flushes) ∧
  (∀ (s : State) e, Map.get? (s.core s.sel.a).wc s.sel.b = some e → e.born + 1024 ≤ s.rtime →
    exec .wcEntryAgeExpiry s = .next (s.drain s.sel.a s.sel.b).flushes) ∧
  (∀ (s : State) o core node ws, s.op? s.sel.a = some o → o.kind = .spawn core node ws → o.st = .waiting → o.held = false →
    s.copyReady s.sel.a o = true →
    (∀ t, s.binAccept core o.ctx node ws = some t →
      exec .binRecordAccept s = .next ((t.escape s.sel.a ⟨.spawn, ws.length, core⟩).settleFlags s.sel.a .ok)) ∧
    (s.binAccept core o.ctx node ws = none → exec .binRecordAccept s = .next s)) ∧
  (∀ (s : State) core ctx node ws, s.binRoom core ctx node = true → s.binAccept core ctx node ws = some ((s.modCore core fun c =>
    { c with accCtr := c.accCtr + 1
             bin := c.bin ++ [⟨ctx, node, (s.core core).accCtr, s.ctxNow ctx, ws, .unlent, 0⟩] }).binLaunch core ctx node)) ∧
  (∀ (s : State) o tg node ws, s.op? s.sel.a = some o → o.kind = .rspawn tg node ws → o.st = .waiting → o.held = false →
    s.releasedSys s.sel.a o = true →
    let peer := (bits tg 0 9).toNat
    let core := (bits tg 9 8).toNat
    (∀ c t, peer = s.deviceIndex.toNat → s.ctx? o.ctx = some c → core ∈ c.cfg.cores → s.binAccept core o.ctx node ws = some t →
      exec .binRecordAccept s = .next ((t.escape s.sel.a ⟨.spawn, ws.length, core⟩).settleFlags s.sel.a .ok)) ∧
    (∀ t, peer ≠ s.deviceIndex.toNat → s.tornFrom o.gid peer s.sel.a = false →
      s.send peer core 0 { dest := 0, kind := .spawn, flits := 1, tag := tagOf s.sel.a, ctx := o.ctx, sys := o.sys
                           addr := core + 256 * node, data := bytesOfWords ws } = some t →
      exec .binRecordAccept s = .next ((t.touchBelay o.ctx o.core).modOp s.sel.a fun x => { x with st := .sent (tagOf s.sel.a) })))

/-- R277, R308, R358, R380: a gang launch, from the members' answers, which come as verified flits of their links, and the
launcher's clocks. -/
def Obligations.GangEvents : Prop :=
  let got (s : State) (code : Nat) : State := s.receive { kind := .gang, code := code, x := s.sel }
  let free (s : State) (gang : Nat) : Prop := ∀ x ∈ s.serving, x.kind.asksFor gang = false
  (∀ e ∈ ([(.gangPrepare, 0), (.gangPrepared, 1), (.gangRefused, 2), (.gangGo, 3), (.gangGoAck, 4), (.gangAbort, 5),
      (.gangTear, 6)] : List (Instr × Nat)), ∀ (s : State) h, s.sel.hdr = some h → exec e.1 s = .next (s.takeFlit .gang e.2 h)) ∧
  (∀ (s : State) gang, free s gang → s.unkeep gang = (s, none)) ∧
  (∀ (s : State), Map.get? s.members s.sel.b = none → let u := (s.unkeep s.sel.b).1
    (∀ t, u.gangReserve s.sel.b s.sel.a s.sel.c s.sel.words = .ok t →
      got s 0 = (t.send s.sel.a 0 s.sel.b (gangMsg s.sel.b 1 s.sel.c [])).getD t) ∧
    (∀ k, u.gangReserve s.sel.b s.sel.a s.sel.c s.sel.words = .error (.inl k) →
      got s 0 = (u.send s.sel.a 0 s.sel.b (gangMsg s.sel.b 2 s.sel.c (toBytes 4 (2 ^ 31 + k)))).getD u) ∧
    (∀ k, free s s.sel.b → s.gangReserve s.sel.b s.sel.a s.sel.c s.sel.words = .error (.inr k) →
      got s 0 = { s with serving := s.serving ++ [⟨s.sel.a, 0, s.sel.c, false, .prepare s.sel.b s.sel.words⟩] })) ∧
  (∀ (s : State) x ws, s.sel.hdr = none → s.sel.a ≠ s.deviceIndex.toNat →
    s.serving.find? (fun x => x.kind.asksFor s.sel.b) = some x → x.kind = .prepare s.sel.b ws →
    exec .gangPrepare s = .next (s.memberPrepare x.src s.sel.b x.ctx ws)) ∧
  (∀ (s : State) id o x, s.sel.hdr = none → s.sel.a = s.deviceIndex.toNat → s.gangOp s.sel.b = some (id, o, x) →
    Map.get? s.members s.sel.b = none → x.going = false → s.deviceIndex.toNat ∈ x.poss →
    ∀ t, s.gangReserve s.sel.b s.deviceIndex.toNat o.ctx (x.record ++ x.poss.map (BitVec.ofNat 32)) = .ok t →
    exec .gangPrepare s = .next (t.gangHeard id s.deviceIndex.toNat)) ∧
  (∀ (s t : State) gang src ctx ws, s.gangReserve gang src ctx ws = .ok t → ∃ m gr, Map.get? t.members gang = some m ∧
    m.st = .prepared ∧ m.src = src ∧ m.ctx = ctx ∧ m.grid = some gr ∧ (∀ x, t.grid? gr = some x → x.st = .prepared) ∧
    ∀ e ∈ t.groups, (t.team? e.2.team).any (fun x => x.grid = some gr) = true → e.2.started = false) ∧
  (∀ (s : State) id o x, s.gangOp s.sel.a = some (id, o, x) → s.op? id = some o → o.kind = .gang x → o.st.settled = false →
    o.st ≠ .waiting → s.sel.b ∈ x.poss →
    let out := (((s.gangSend x.poss x.gang 5 o.ctx []).1).gangRelease x.gang).fail id .remoteError
    let more := s.modOp id (modGang fun y => { y with heard := s.sel.b :: x.heard })
    (x.going = false → s.sel.b ∉ x.heard → x.heard.length + 1 < x.poss.length → got s 1 = more) ∧
    (x.going = false → s.sel.b ∉ x.heard → x.poss.length ≤ x.heard.length + 1 → got s 1 = ((s.modOp id (modGang fun y =>
      { y with heard := [], going := true, since := s.ctxNow o.ctx })).gangSend x.poss x.gang 3 o.ctx []).1) ∧
    (x.going = false → got s 2 = out) ∧
    (x.going = true → s.sel.b ∉ x.heard →
      got s 4 = if x.heard.length + 1 < x.poss.length then more else more.settleFlags id .ok)) ∧
  (∀ (s : State) o x, s.op? s.sel.a = some o → o.kind = .gang x → o.st.settled = false → o.st ≠ .waiting → x.going = false →
    x.since + 20000 ≤ s.ctxNow o.ctx →
    exec .gangPrepareTimeout s = .next ((((s.gangSend x.poss x.gang 5 o.ctx []).1).gangRelease x.gang).fail s.sel.a .remoteError)) ∧
  (∀ (s : State) m gr, Map.get? s.members s.sel.a = some m → m.st = .prepared → m.src ≠ s.deviceIndex.toNat → m.grid = some gr →
    Map.get? (got s 3).members s.sel.a = some { m with st := .running } ∧
      ∀ e ∈ (got s 3).groups, ((got s 3).team? e.2.team).any (fun x => x.grid = some gr) = true → e.2.started = true) ∧
  (∀ (s : State) m gr, Map.get? s.members s.sel.a = some m → m.st = .prepared → m.grid = some gr →
    Map.get? (got s 5).members s.sel.a = none ∧ (got s 5).grid? gr = none ∧
      (free s s.sel.a → m.since + 40000 ≤ s.ctxNow m.ctx → exec .gangGoWaitTimeout s = .next (got s 5))) ∧
  (∀ (s : State) m gr, Map.get? s.members s.sel.a = some m → m.st = .running → m.grid = some gr → free s s.sel.a →
    got s 6 = ({ s with members := Map.put s.sel.a { m with st := .torn } s.members } : State).modGrid gr
      fun y => { y with torn := m.peers, tornAt := s.nextId }) ∧
  (∀ (s : State) o x, s.op? s.sel.a = some o → o.kind = .gang x → o.st.settled = false → x.going = true →
    x.since + 20000 ≤ s.ctxNow o.ctx →
    exec .gangAckTimeout s = .next ((((s.gangSend x.poss x.gang 6 o.ctx []).1).gangTorn x.gang).fail s.sel.a .gangTorn))

/-- R344, R362, R365, R367: a collective program starts, receives chunks and control, and ends where it fails. -/
def Obligations.CollectiveEvents : Prop :=
  (∀ (s : State) p, s.prog? s.sel.a = some p → p.started = false → p.failed = none → p.op = none → p.unread = none →
    s.sequences p = true →
    (p.read = true → let run := s.progs.filter fun e => e.2.started && e.2.die = p.die
      run.length < 16 → (run.map fun e => 4 * e.2.d.slot e.2.words).sum + 4 * p.d.slot p.words ≤ chunkBuffer →
      exec .collProgramStart s =
        .next (((s.touch p.ctx p.die).modProg s.sel.a fun q => { q with started := true }).giveCredits s.sel.a)) ∧
    ∀ s0 t ws, p.read = false → s.apart p.d.prog = false → s.gateAt p.ctx p.d.prog 32768 s.sel.a 0 = (s0, true) →
      s0.readWords p.ctx p.core p.sys 4096 p.d.prog 0 = (t, ws, none) →
      exec .collProgramStart s =
        .next (t.modProg s.sel.a fun q => { q with words := ws, short := none, read := true, rd := none })) ∧
  (∀ (s : State) k p, s.prog? k = some p → let rs := Prog.receives lookAhead 4 p
    rs.length ≤ 4 ∧ s.giveCredits k =
      (rs.drop p.due).foldl (fun t r => t.giveCredit k r) (s.modProg k fun q => { q with due := max q.due rs.length })) ∧
  (∀ (s : State) p w e, s.prog? s.sel.a = some p → p.started = true → p.failed = none → p.words[p.ip]? = some w →
    decodeStep w = .error e → exec .programFault s = .next (s.progFail s.sel.a .remoteError true)) ∧
  (∀ (s : State) p, s.prog? s.sel.a = some p → p.started = true → p.failed = none → p.words[p.ip]? = none → p.short = none →
    exec .programFault s = .next (s.progFail s.sel.a .remoteError true)) ∧
  (∀ (s : State) p c, s.prog? s.sel.a = some p → p.failed = some c → exec .programFault s = .next (s.progEnd s.sel.a p (.failed c))) ∧
  (∀ (s : State) p r at_ rest, s.prog? s.sel.a = some p → p.unacked = (r, at_) :: rest → at_ + 50000 ≤ s.ctxNow p.ctx →
    exec .chunkTimeout s = .next (s.progFail s.sel.a .remoteTimeout true)) ∧
  (∀ (s : State) h, s.sel.hdr = some h →
    exec .cdata s = .next (s.takeFlit .cdata 0 h) ∧ exec .cctl s = .next (s.takeFlit .cctl 0 h)) ∧
  (∀ (s : State) p, s.prog? s.sel.a = some p → s.sel.b ∈ p.d.grp → p.started = true → p.failed = none → p.inbox.length < 4 →
    s.receive { kind := .cdata, x := s.sel } = (s.modProg s.sel.a fun q =>
      { q with inbox := q.inbox ++ [(p.d.grp.idxOf s.sel.b, s.sel.msg.data)] }).collCtl s.sel.a p (p.d.grp.idxOf s.sel.b) 1) ∧
  (∀ (s : State) p, s.prog? s.sel.a = some p → s.sel.b ∈ p.d.grp →
    let r := p.d.grp.idxOf s.sel.b
    let t := s.receive { kind := .cctl, x := s.sel }
    (s.sel.coll = .credit → t = s.modProg s.sel.a fun q =>
      { q with credits := Map.put r (Map.get q.credits r 0 + 1) q.credits }) ∧
    (∀ at_ rest, s.sel.coll = .ack → p.unacked = (r, at_) :: rest → (t.prog? s.sel.a).map Prog.unacked = some rest) ∧
    (s.sel.coll = .abort → t = s.progFail s.sel.a .remoteError false) ∧
    (∀ c, s.sel.coll = .nack c → t = s.progFail s.sel.a (Cause.ofCode c) true))

/-- R10, R142, R271, R281 to R283, R330: bins, their timers and spill areas, and stealing. -/
def Obligations.BinEvents : Prop :=
  (∀ s : State, s.sel.flag = false → s.sel.b = 1 → exec .spillWaitEnd s = .next s.serveAgain) ∧
  (∀ (s : State) t o core node ws, s.sel.flag = false → s.sel.b ≠ 1 → s.op? s.sel.a = some o → o.kind = .spawn core node ws → o.st = .waiting →
    o.held = false → s.copyReady s.sel.a o = true → s.binAccept core o.ctx node ws = some t →
    exec .spillWaitEnd s = .next ((t.escape s.sel.a ⟨.spawn, ws.length, core⟩).settleFlags s.sel.a .ok)) ∧
  (∀ (s : State) n, s.node? s.sel.b s.sel.c = some n → s.timerDone s.sel.a s.sel.b s.sel.c n = true →
    exec .binTimerExpiry s = .next (s.binLaunch s.sel.a s.sel.b s.sel.c)) ∧
  (∀ (s : State) n t, s.node? s.sel.b s.sel.c = some n → s.table? s.sel.b = some t →
    (s.die (pairOf s.sel.a)).halted = false → s.dieServes (pairOf s.sel.a) = true →
    let xs := s.counted s.sel.a s.sel.b s.sel.c
    (∀ x ∈ xs.take n.nco, ∀ h, x.2.2 = some h → s.spillClocked t h.slot = true) →
    exec .binDeferredLaunch s = .next (if n.nco ≤ xs.length ∨ s.timerDone s.sel.a s.sel.b s.sel.c n = true then
      s.launchNode s.sel.a s.sel.b n t (xs.take n.nco) else s)) ∧
  (∀ (s : State) h t ws, s.refillable s.sel.a s.sel.b = some h → s.unspill s.sel.b h = some (t, ws) → ∃ u,
    exec .spillRefill s = .next u ∧ (∃ r, (u.core s.sel.a).bin = (t.core s.sel.a).bin ++ [r] ∧
      r.ctx = s.sel.b ∧ r.node = h.node ∧ r.acc = h.acc ∧ r.words = ws ∧ r.lend = .unlent)) ∧
  (∀ (s : State) g lanes d v at_, s.group? s.sel.a = some g → g.stealing = some (lanes, d, v, at_) → s.stealable v g.ctx = [] →
    exec .stealRequest s = .next (s.stealAnswer s.sel.a lanes d 0)) ∧
  (∀ (s : State) g lanes d v at_ r, s.group? s.sel.a = some g → g.stealing = some (lanes, d, v, at_) → s.stealable v g.ctx = [r] →
    s.counted v g.ctx r.node = [(r.acc, r.born, none)] → (s.core v).bin = [r] → 0 < (s.node? g.ctx r.node).elim 0 Node.nco →
    exec .stealRequest s = .next ((s.lendRec v g.core r).stealAnswer s.sel.a lanes d (BitVec.ofNat 32 (r.node * 2 ^ 16 + 1)))) ∧
  (∀ (s : State) g lanes d v at_, s.group? s.sel.a = some g → g.stealing = some (lanes, d, v, at_) → at_ + 2000 ≤ s.rtime →
    exec .stealAnswerTimeout s = .next (s.stealAnswer s.sel.a lanes d 0)) ∧
  (∀ (s : State) l, Map.get? s.lends s.sel.a = some l → l.st = .flying → ∃ t, exec .stealCopyArrival s = .next t ∧
    Map.get? t.lends s.sel.a = some (if s.binRoom l.thief l.r.ctx l.r.node then { l with st := .pending, ackSent := true }
      else { l with st := .none }) ∧ t = { s with lends := t.lends }) ∧
  (∀ (s : State) l, Map.get? s.lends s.sel.a = some l → l.ackSent = true → l.confirm = none → l.guided = false →
    ∃ t, exec .stealAck s = .next t ∧ Map.get? t.lends s.sel.a = some { l with confirm := some (s.lentNow l) } ∧
      (∀ r, r ∈ (t.core l.victim).bin ↔
        r ∈ (s.core l.victim).bin ∧ (s.lentNow l = true → r.acc ≠ l.acc))) ∧
  (∀ (s : State) l, Map.get? s.lends s.sel.a = some l → l.confirm = some true → l.st = .pending →
    exec .stealConfirm s = .next ((({ s with lends := Map.del s.sel.a s.lends } : State).modCore l.thief fun c =>
      { c with accCtr := c.accCtr + 1
               bin := c.bin ++ [⟨l.r.ctx, l.r.node, (s.core l.thief).accCtr, s.ctxNow l.r.ctx, l.r.words, .unlent, 0⟩] }).binLaunch
      l.thief l.r.ctx l.r.node)) ∧
  (∀ (s : State) l, Map.get? s.lends s.sel.a = some l → l.confirm = some false →
    exec .stealRefusal s = .next { s with lends := Map.del s.sel.a s.lends }) ∧
  (∀ (s : State) l r th at_, Map.get? s.lends s.sel.a = some l → l.ackSent = true →
    (s.core l.victim).bin.find? (fun x => x.acc = l.acc && x.gen = l.gen) = some r → r.lend = .lent th at_ →
    at_ + 20000 ≤ s.ctxNow r.ctx →
    exec .lendTimeout s = .next ((s.modCore l.victim fun c => { c with bin := c.bin.map fun x =>
      if x.acc = l.acc then { x with gen := x.gen + 1, lend := .unlent } else x }).binLaunch l.victim r.ctx r.node)) ∧
  (∀ s : State, ∃ t, exec .thiefCoreReset s = .next t ∧ t = { s with lends := t.lends } ∧ ∀ k, Map.get? t.lends k =
    (Map.get? s.lends k).map fun l => if l.thief = s.sel.a then { l with st := .none } else l) ∧
  (∀ s : State, (s.core s.sel.a).bin = [] → ∃ t, exec .victimCoreReset s = .next t ∧ (t.core s.sel.a).bin = [] ∧ t.mem = s.mem) ∧
  (∀ (s : State) r, (s.core s.sel.a).bin = [r] → r.lend ≠ .unlent →
    ∃ t, exec .victimCoreReset s = .next t ∧ (t.core s.sel.a).bin = [] ∧ t.mem = s.mem ∧
      ∀ k l, Map.get? s.lends k = some l → Map.get? t.lends k =
        some (if l.victim = s.sel.a ∧ s.lentNow l = true then { l with guided := true } else l))

/-- R271 to R279, R287, R331: a host's record is taken in, grids are admitted, placed, aged, reserved for, and end. -/
def Obligations.GridEvents : Prop :=
  (∀ s : State, s.boot.st = .running → s.belayServes = true → s.sel.flag = false → s.sel.b % 64 = 0 →
    let reply (w : Word) : Msg := { dest := 512, kind := .rma, ctx := s.sel.a, addr := s.sel.c, data := toBytes 4 w.toNat }
    (∀ t gr w, s.queueRecord s.sel.a 0 (bytesOfWords s.sel.words) none = .ok (t, gr, w) →
      exec .hostIntake s = .next { t with outbox := t.outbox ++ [reply w] }) ∧
    ∀ k, s.queueRecord s.sel.a 0 (bytesOfWords s.sel.words) none = .error (.inl k) →
      exec .hostIntake s = .next { s with outbox := s.outbox ++ [reply (launchCode k)] }) ∧
  (∀ (s : State) gr, s.queueHead s.sel.a s.sel.b = some gr →
    exec .gridQueueHead s = .next (s.modGrid gr fun g => { g with st := .waiting }).retest) ∧
  (∀ (s : State) t g, s.grid? s.sel.a = some g → s.admitGrid s.sel.a = some t →
    (∀ e ∈ s.grids, e.1 ≠ s.sel.a → s.before e (s.sel.a, g) = true → s.admitGrid e.1 = none) → g.r.cls ≠ 1 →
    exec .admission s = .next t) ∧
  (∀ (s : State) g, s.grid? s.sel.a = some g → g.st = .admittable → g.r.cls ≠ 2 → g.since + 1000000 * (g.aged + 1) ≤ s.rtime →
    exec .effectivePriorityAging s = .next (s.modGrid s.sel.a fun x => { x with aged := x.aged + 1 })) ∧
  (∀ (s : State) t g, s.grid? s.sel.a = some g → g.st = .placing → s.saves = [] → s.placeNext s.sel.a = some t →
    exec .teamPlacement s = .next t) ∧
  (∀ (s : State) g, s.grid? s.sel.a = some g → g.st = .admittable → g.r.clusterSize ≠ 1 → g.r.coop = false → g.r.paired = false →
    s.findsRoom s.sel.a g = false → s.reserved = [] →
    (∀ e ∈ s.grids, e.1 ≠ s.sel.a → g.since ≤ e.2.since) → g.since + 100000 ≤ s.rtime → s.couldHold s.sel.a g ≠ [] →
    let load (rc : List Nat) : Nat := (rc.map s.residentThreads).sum
    ∃ rc ∈ s.couldHold s.sel.a g, (∀ x ∈ s.couldHold s.sel.a g, load rc ≤ load x) ∧
      exec .clusterReservation s = .next { s with reserved := [(pairOf (rc.headD 0), (s.sel.a, rc))] }) ∧
  (∀ (s : State) g, s.grid? s.sel.a = some g → g.st = .running → g.left = 0 → exec .gridEnd s = .next (s.endGrid s.sel.a 0))

/-- R146 to R150, R280, R291 to R298: continuations are written, claimed, copied and restored; teams are pre-empted, saved,
restored and checkpointed. -/
def Obligations.ContinuationEvents : Prop :=
  (∀ (s : State) g obj live s1 s2 old, s.group? s.sel.a = some g → g.suspLeader = some (obj, live) → s.suspReady s.sel.a g true = true →
    s.cread g.ctx g.core (obj + 12) 16 = .ok (s1, old) →
    let bytes := s.objBytes s.sel.a g live obj (fld old 0 4) (fld old 14 2) g.suspDs (s.detEntries s.sel.a g)
    s.lineBusy g.ctx obj bytes.length = false → s1.writeObj g.ctx g.core obj bytes (s.sysMode g.ctx) stReady = (s2, none) →
    exec .suspendWrite s = .next ((s2.detach s.sel.a g obj (s.detEntries s.sel.a g)).retireGroup s.sel.a)) ∧
  (∀ (s : State) g h t, s.group? s.sel.a = some g → g.started = false → g.bySched = true → s.detDone g = some h →
    (∀ e ∈ s.groups, e.2.team = g.team → e.2.started = false → e.2.bySched = true → (s.detDone e.2).isSome = true) →
    (s.modGroup s.sel.a fun x => { x with slice := g.slice }).drawTo s.sel.a (max 1 g.needBlocks) 4 = some t →
    exec .restoredGroupStart s = .next (t.startRestored s.sel.a g h (g.from?.elim 0 fun x => x.2.1))) ∧
  (∀ (s : State) o g obj sf s1 h s2, s.op? s.sel.a = some o → s.contReady s.sel.a = true → o.kind = .resume obj sf false →
    s.group? o.gid = some g → s.lineBusy o.ctx (obj + 8) 4 = false → s.checkObj g obj = .ok (s1, h) →
    s1.casState o.ctx o.core obj stReady stClaimed (s.sysMode o.ctx) = .ok (s2, stReady) →
    exec .resumeClaim s = .next ((s2.acquire o.core .dev).modOp s.sel.a fun x => { x with kind := .resume obj sf true })) ∧
  (∀ (s : State) o g obj sf s1 h, s.op? s.sel.a = some o → s.contReady s.sel.a = true → o.kind = .resume obj sf true →
    s.group? o.gid = some g → s.lineBusy o.ctx (obj + 8) 4 = false → s.readObj o.ctx o.core obj (s.sysMode o.ctx) = .ok (s1, h) → ∃ base,
    exec .resumeClaim s = .next ((s1.fresh.2.queueGroup s1.fresh.1 base h obj).resumeEnd s.sel.a o sf none) ∧
      base.ctx = g.ctx ∧ base.team = g.team ∧ base.core = g.core ∧ base.cls = g.cls ∧ base.prio = g.prio) ∧
  (∀ (s : State) o g obj sf c, s.op? s.sel.a = some o → s.contReady s.sel.a = true → o.kind = .resume obj sf true →
    s.group? o.gid = some g → s.lineBusy o.ctx (obj + 8) 4 = false → s.readObj o.ctx o.core obj (s.sysMode o.ctx) = .error (.cause c) →
    exec .resumeClaim s =
      .next ((s.faultObj o.ctx o.core obj (s.sysMode o.ctx)).resumeEnd s.sel.a o sf (some c))) ∧
  (∀ (s : State) o g obj sf s1 h s2 st, s.op? s.sel.a = some o → s.contReady s.sel.a = true → o.kind = .resume obj sf false →
    s.group? o.gid = some g → s.lineBusy o.ctx (obj + 8) 4 = false → s.checkObj g obj = .ok (s1, h) →
    s1.casState o.ctx o.core obj stReady stClaimed (s.sysMode o.ctx) = .ok (s2, st) → st ≠ stReady →
    exec .resumeClaim s = .next (s2.resumeEnd s.sel.a o sf (some .doubleResume))) ∧
  (∀ (s : State) o g src dst s1 h s2 s3, s.op? s.sel.a = some o → s.contReady s.sel.a = true → o.kind = .ccopy false src dst →
    s.group? o.gid = some g → s.sourceWaits o src = false → s.lineBusy o.ctx (src + 8) 4 = false → s.checkObj g src = .ok (s1, h) →
    (src + h.length ≤ dst ∨ dst + h.length ≤ src) → s.lineBusy o.ctx dst h.length = false →
    s1.casState o.ctx o.core src stReady stConsumed (s.sysMode o.ctx) = .ok (s2, stReady) →
    s2.writeObj o.ctx o.core dst (copyBytes h dst false s.rtime) (s.sysMode o.ctx) stReady = (s3, none) →
    exec .ccopyComplete s = .next ((s3.copyImage h dst false).settleFlags s.sel.a .ok)) ∧
  (∀ (s : State) o g src dst s1 h s2, s.op? s.sel.a = some o → s.contReady s.sel.a = true → o.kind = .ccopy true src dst →
    s.group? o.gid = some g → s.sourceWaits o src = false → s.lineBusy o.ctx (src + 8) 4 = false → s.checkObj g src = .ok (s1, h) →
    (src + h.length ≤ dst ∨ dst + h.length ≤ src) → s.lineBusy o.ctx dst h.length = false → fld h 0xC 4 % 2 = 1 → fld h 8 4 = stReady →
    s1.writeObj o.ctx o.core dst (copyBytes h dst true s.rtime) (s.sysMode o.ctx) stReady = (s2, none) →
    exec .ccopyComplete s = .next ((s2.copyImage h dst true).settleFlags s.sel.a .ok)) ∧
  (∀ s : State, s.sel.flag = true → (s.team? s.sel.a).isSome → ∃ t, exec .preemption s = .next t ∧ t = { s with groups := t.groups } ∧
    ∀ tm, s.team? s.sel.a = some tm → ∀ e ∈ t.groups, (s.team? e.2.team).any (fun x => x.cluster = tm.cluster) = true →
      e.2.susp = .none ∧ ∀ l ∈ e.2.threads, ∀ d v, l.2.wait ≠ some (.suspend none d v)) ∧
  (∀ (s : State) g tid t area, s.sel.flag = false → s.grid? s.sel.a = some g → g.st = .admittable → g.r.cls ≠ 0 →
    s.energyFits g = true → s.admitGrid s.sel.a = none →
    s.pickTeam g (s.allowedCores g.ctx g.r.cls g.r.mtx g.r.paired s.sel.a) = some (tid, t) → s.saveArea t.ctx t.core = .ok area →
    (s.savePlace t.ctx area.1 area.2 ((s.mates t).map fun e => up256 (s.recordMax e.1 e.2)).sum).isSome = true →
    ∃ u, exec .preemption s = .next u ∧ u = { s with groups := u.groups } ∧ ∀ e ∈ u.groups,
      (s.mates t).any (fun m => m.1 = e.2.team) = true → e.2.susp = .preempt) ∧
  (∀ (s : State) t u, s.team? s.sel.a = some t → s.mates t = [(s.sel.a, t)] → s.groupsOf s.sel.a ≠ [] →
    s.teamReady s.sel.a t .preempt = true → s.saveTeam s.sel.a t false = .ok u →
    exec .teamSave s = .next (u.dropTeam s.sel.a)) ∧
  (∀ (s : State) v c p, Map.get? s.saves s.sel.a = some v → v.ckpt = false → v.placed = false → s.gridFirst v = false →
    (∀ a ∈ v.objs, s.lineBusy v.ctx (a + 8) 4 = false) → s.savedWith s.sel.a v = [(s.sel.a, v)] → s.restorePlace v [(s.sel.a, v)] = some ([c], [(c, p)]) →
    (∀ u hs, s.claimRecord v c = (u, .ok hs) →
      let a := u.addCluster v.cluster.cols v.cluster.rows [c] v.cluster.nthr
      let w := ({ a.2 with clusters := Map.mod a.1 (fun x => { x with bars := v.cluster.bars }) a.2.clusters } : State).putBack
        v hs c a.1 p
      ∃ t, exec .teamRestore s = .next t ∧ t = { w with saves := t.saves } ∧ ∀ x, Map.get? w.saves s.sel.a = some x →
        x.ckpt = false → Map.get? t.saves s.sel.a = some { x with placed := true }) ∧
    ∀ u x, s.claimRecord v c = (u, .error (.cause x)) → exec .teamRestore s = .next (u.recordLost s.sel.a v x)) ∧
  (∀ (s : State) t, s.team? s.sel.a = some t → t.paired = true → s.groupsOf s.sel.a ≠ [] →
    (∀ e ∈ s.groupsOf s.sel.a, e.2.susp = .none) → ∃ u, exec .checkpoint s = .next u ∧ u = { s with groups := u.groups } ∧
      ∀ e ∈ u.groups, e.2.team = s.sel.a → e.2.susp = .checkpoint)

/-- R70, R72, R91 to R95, R100 to R103, R156, R167, R174, R306 to R326: what completes memory operations, copies, page walks,
services and bank requests. `id` is the operation that an event names. -/
def Obligations.MemoryEvents : Prop :=
  (∀ (s : State) o a n sgn, let id := s.sel.a
    s.op? id = some o → s.homeReady id o = true → o.kind = .load .global a n sgn →
    let m := s.meets o.ctx a 1 { r := true } (s.sysMode o.ctx) (pairOf o.core)
    let r := m.spaceRead .global o.gid o.ctx o.core a n { r := true }
    (s.sel.flag = false →
      (∀ t bs, r = .ok (t, bs) → exec .globalLoadReturn s = .next ((t.l1Fill o.core o.ctx a).loaded id o n sgn bs)) ∧
      (∀ c, r = .error (.cause c) → exec .globalLoadReturn s = .next (m.fail id c)) ∧
      (r = .error .notPresent → exec .globalLoadReturn s = .next (m.park id o))) ∧
    (∀ bs, s.sel.flag = true → acquires o.ord = false → Scope.rank o.scope ≤ 1 → m.mayRead o a = true →
      m.l1Read o.core o.ctx a n = some bs → exec .globalLoadReturn s = .next (m.loaded id o n sgn bs))) ∧
  (∀ (s : State) o a l, let id := s.sel.a
    s.op? id = some o → s.homeReady id o = true → o.kind = .pref a l →
    let m := s.meets o.ctx a 1 { r := true } (s.sysMode o.ctx) (pairOf o.core)
    m.translate o.ctx a { r := true } (m.sysMode o.ctx) (pairOf o.core) = .error .notPresent →
    exec .globalLoadReturn s = .next (m.settleFlags id .ok)) ∧
  (∀ (s : State) o, let id := s.sel.a
    s.op? id = some o → s.homeReady id o = true →
    (∀ a bs, o.kind = .store .global a bs →
      let m := s.meets o.ctx a 1 { w := true } (s.sysMode o.ctx) (pairOf o.core)
      let r := m.translate o.ctx a { w := true } (m.sysMode o.ctx) (pairOf o.core)
      (∀ e, r = .error e → exec .globalStoreAccept s = .next (m.storeDone id o a bs)) ∧
      ∀ f t, r = .ok f →
        (m.replGate id none o.ctx a = (t, true) → exec .globalStoreAccept s = .next (t.storeDone id o a bs)) ∧
        (m.replGate id none o.ctx a = (t, false) → exec .globalStoreAccept s = .next t)) ∧
    (∀ a aop n v ret mode shape, o.kind = .atom .global a aop n v ret mode shape →
      let m := s.meets o.ctx a 1 { r := true, w := true } (s.sysMode o.ctx) (pairOf o.core)
      let r := m.translate o.ctx a { r := true, w := true } (m.sysMode o.ctx) (pairOf o.core)
      (∀ e, r = .error e → exec .globalStoreAccept s = .next (m.writeMem id o)) ∧
      ∀ f t, r = .ok f →
        (m.replGate id none o.ctx a = (t, true) → exec .globalStoreAccept s = .next (t.writeMem id o)) ∧
        (m.replGate id none o.ctx a = (t, false) → exec .globalStoreAccept s = .next t))) ∧
  (∀ (s : State) t o va bs id, s.spaceWrite .global o.gid o.ctx o.core va bs = .ok t → s.storeDone id o va bs =
    (((((t.l1Store o.core o.ctx va bs).notePromo id o va).escape id ⟨.store, Nat.log2 bs.length, va⟩).settle id .ok).doneB id)) ∧
  (∀ (s : State) e, Map.get? s.replQ s.sel.a = some e → s.sel.b ∈ e.acks → (∃ d ∈ e.acks, d ≠ s.sel.b) →
    (∀ x ∈ s.replQ, x.2.line = e.line → x.1 = s.sel.a) →
    exec .replInvalidateAck s = .next { s with
      replQ := Map.mod s.sel.a (fun e => { e with acks := e.acks.filter (· ≠ s.sel.b) }) s.replQ }) ∧
  (∀ (s : State) line id o, s.replQ = [(s.sel.a, ⟨line, id, none, [s.sel.b]⟩)] → s.op? id = some o → o.st = .waiting → o.global?.isSome = true →
    exec .replInvalidateAck s =
      .next (({ s with replQ := [(s.sel.a, ⟨line, id, none, []⟩)] } : State).performMem false id)) ∧
  (∀ (s : State) o, let id := s.sel.a
    s.op? id = some o → o.held = true → o.st.settled = false → s.horizonBefore id o = true → s.laneHeld id o = false →
    (s.sel.flag = false → exec .heldOperationRelease s = .next ((s.modOp id fun x => { x with held := false }).startOp id)) ∧
    ∀ g t, s.sel.flag = true → s.group? o.gid = some g → s.team? g.team = some t → t.paired = true →
      exec .heldOperationRelease s = .next (s.fatal o.gid .pairMismatch)) ∧
  (∀ (s : State) o sb m set, s.op? s.sel.a = some o → o.held = false → o.st = .waiting → o.kind = .scb sb m set →
    exec .heldOperationRelease s = .next (s.startOp s.sel.a)) ∧
  (∀ (s : State) g t k w, s.op? s.sel.a = none → s.sel.flag = true → s.group? s.sel.b = some g → s.team? g.team = some t →
    t.paired = true → (s.thread s.sel.b s.sel.c).wait = some (.qpush k w false) →
    exec .heldOperationRelease s = .next (s.fatal s.sel.b .pairMismatch)) ∧
  (∀ (s : State) o acks, let id := s.sel.a
    s.op? id = some o → o.kind = .tfence acks → s.sel.b ∈ acks → o.held = false → o.st = .waiting → s.storesAccepted id o = true →
    let left := acks.filter (· ≠ s.sel.b)
    let t := ({ s with tlb := s.tlb.filter fun e => !(e.ctx = o.ctx && e.home = s.sel.b) } : State).modOp id fun x =>
      { x with kind := .tfence left }
    exec .tfenceWalkerAck s = .next (if left = [] then t.settleFlags id .ok else t)) ∧
  (∀ (s : State) o, s.op? s.sel.a = some o → s.clocked o.core = true → exec .copySector s = .next (s.sector false s.sel.a)) ∧
  (∀ (s : State) o x src dst p q, let id := s.sel.a
    s.op? id = some o → s.clocked o.core = true → o.kind = .async x (.copy .scratch .scratch src dst 64) → o.st = .waiting →
    o.held = false → o.err = none → x.cancelled = false → s.copyReady id o = true →
    s.teamAway x (.copy .scratch .scratch src dst 64) = false → x.pos = 0 → x.buf = [] → x.wr = 0 → src % 64 = 0 → dst % 64 = 0 →
    s.scratch? x.team src 64 = some p → s.scratch? x.team dst 64 = some q → s.poisoned p 64 = false →
    ∃ t, exec .copySector s = .next t ∧ t.mem = Memory.write s.mem q (s.readPhys p 64)) ∧
  (∀ s : State, exec .restripeLineMove s = .next (s.restripeLine s.sel.a)) ∧
  (∀ (s : State) o x va pages w size done m, s.op? s.sel.a = some o → o.kind = .async x (.restripe va pages w size done) → o.st = .waiting →
    o.held = false → x.cancelled = false → done < pages → vaOk (va + done * size) = true → s.remote? (va + done * size) = none →
    s.moving = [m] → m.op = s.sel.a → m.new ≠ m.old → ∀ g, s.engineGate o .global (va + done * size) 1 = (g, true) →
    (m.pos + 256 < m.size → ∃ t, exec .restripeLineMove s = .next t ∧ t.mem = (g.moveLine m m.pos).mem ∧
      t.moving = [{ m with pos := m.pos + 256 }]) ∧
    (m.size ≤ m.pos + 256 → ∃ t, exec .restripeLineMove s = .next t ∧ t.moving = [])) ∧
  (∀ (s : State) o a j, let id := s.sel.a
    s.op? id = some o → o.kind = .async a j → o.err = none → o.st = .waiting → o.held = false →
    (a.cancelled = true ∨ a.whole j = true) → s.moving = [] → exec .copyComplete s = .next (s.asyncEnd id .ok)) ∧
  (∀ (s : State) o a j c, s.op? s.sel.a = some o → o.kind = .async a j → o.err = some c →
    exec .copyComplete s = .next (s.asyncEnd s.sel.a (.failed c))) ∧
  (∀ (s : State) w, let home := vaHome s.sel.b
    vaOk s.sel.b = true → s.remote? s.sel.b = none → s.walks.find? (fun w => w.live && w.covers s.sel.a s.sel.b) = some w →
    (s.pair home).relock = none → s.dieServes home = true →
    (∀ f, s.walk s.sel.a home (vaOfs s.sel.b) = .ok f → exec .pageWalkComplete s = .next ((s.walkOver w true).cache s.sel.a f)) ∧
    (∀ f, s.walk s.sel.a home (vaOfs s.sel.b) = .error .notPresent → (s.walkOver w false).rawLeaf s.sel.a s.sel.b = some f →
      exec .pageWalkComplete s = .next ((s.walkOver w false).parkOn s.sel.a home f))) ∧
  (∀ (s : State) w found, w.again = false ∨ found = true →
    s.walkOver w found = State.startWalks { s with walks := s.walks.filter (· ≠ w) } w.home 1) ∧
  (∀ (s : State) f, s.belayServes = true → vaOk s.sel.b = true → s.remote? s.sel.b = none → s.rawLeaf s.sel.a s.sel.b = some f →
    f.w0.getLsbD 0 = false →
    s.moving = [] →
    let u : State := { s with unread := s.unread.filter fun u => !(u.1 = s.sel.a && u.2.1 = f.home && u.2.2.1 = f.base) }
    let goes (t : State) : Prop := let v := t.serveAgain
      exec .pageService s = .next (v.ctxs.foldl (fun x c => x.installArms c.1) v)
    (s.sel.svc = .unreadable → goes { u with unread := (s.sel.a, f.home, f.base, f.size) :: u.unread }) ∧
    (s.sel.svc = .removed → goes (u.setLeafBits f.ea fun w => w &&& ~~~0x80)) ∧
    (s.sel.svc = .served → u.leafOk f.size f.w0 f.w1 = true →
      let w := leafWord f.w1
      let v := (u.wipe ((rangesOf w f.size (leafFrame f.w0)).map physRange)).fill w (leafFrame f.w0) (s.sel.msg.data.take f.size)
      goes { v.setLeafBits f.ea (fun w => w ||| 1) with tlb := v.tlb.filter fun e => e.ea ≠ f.ea })) ∧
  (∀ s : State, exec .parkedReplay s = .next (s.replay s.sel.a)) ∧
  (∀ (s : State) u id o q, s.ops = [(id, o)] → o.gid = s.sel.a → o.st = .parked → s.replayBehind id o = false →
    s.replayGate [(id, o)] = (u, true) → (u.replayOne id).op? id = some q → q.st ≠ .parked →
    exec .parkedReplay s = .next ((u.replayOne id).unpark s.sel.a)) ∧
  (∀ (s : State) id o, s.op? id = some o → o.st = .parked → o.global?.isSome = true →
    s.replayOne id = (s.modOp id fun x => { x with st := .waiting }).performMem false id) ∧
  (∀ (s : State) o b, let id := s.sel.a
    s.op? id = some o → o.bank? = some b → s.admits id o b = true → (∀ a j, o.kind ≠ .async a j) →
    let pass (e : Nat × Op) : Nat × Op :=
      if decide (e.2.arrived e.1 < o.arrived id) && s.atBank e.1 e.2 b then (e.1, { e.2 with passed := e.2.passed + 1 }) else e
    exec .bankRequestAdmit s = .next (({ s with
      ops := s.ops.map pass, banks := Map.put b (s.queue b ++ [(id, 0)]) s.banks } : State).modOp id fun x =>
        { x with passed := 0 })) ∧
  (∀ (s : State) o id i rest, s.queue s.sel.a = (id, i) :: rest → s.bankFree s.sel.a = true → s.op? id = some o → o.st = .waiting →
    let t := ({ s with banks := if rest = [] then Map.del s.sel.a s.banks else Map.put s.sel.a rest s.banks } : State).occupy
      s.sel.a o.aluCycles
    ((∃ sp a n sgn, o.kind = .load sp a n sgn) ∨ (∃ sp a bs, o.kind = .store sp a bs) ∨
      (∃ sp a aop n v ret mode shape, o.kind = .atom sp a aop n v ret mode shape) →
      exec .bankRequestPerform s = .next (t.performMem false id)) ∧
    (∀ a x d p q v m, o.kind = .async a (.bank x d p q v m) → a.cancelled = false →
      exec .bankRequestPerform s = .next (t.bankStep id i)) ∧
    (∀ a sp dp src dst n, o.kind = .async a (.copy sp dp src dst n) →
      exec .bankRequestPerform s = .next ((t.sector true id).reaches id)) ∧
    (∀ k va n w comb, o.kind = .chunk k va n w comb → exec .bankRequestPerform s = .next (t.chunkAtBank id o)) ∧
    (∀ sp l a n, o.kind = .poll sp l a n → exec .bankRequestPerform s = .next (t.bankPoll id o l a n)))

/-- R171 to R173, R218 to R220, R247, R407: an operation of the matrix engine starts, releases its operands and retires; a load that
shared its data lane with a stream that retires keeps what it lost. -/
def Obligations.MatrixEvents : Prop :=
  (∀ s e, s.eng? s.sel.a s.sel.b = some e → e.started = false → e.ready (s.engOlder s.sel.a s.sel.b) = true →
    s.engineOn s.sel.a = true → exec .matrixOpStart s = .next (s.modEng s.sel.a s.sel.b fun x =>
      { x with started := true, at_ := s.cyc (pairOf s.sel.a), rel := (s.engTimes e).1, ret := (s.engTimes e).2 })) ∧
  (∀ s e p d a tm, s.eng? s.sel.a s.sel.b = some e → e.started = true → e.released = false →
    (s.engDue s.sel.a e).1 ≤ s.cyc (pairOf s.sel.a) → s.team? e.team = some tm →
    e.sig.ins = .mzero p d a → ∃ t, exec .matrixOperandRelease s = .next t ∧ t.tile e.team a.toNat = {} ∧ t.mem = s.mem ∧
      ∀ k, k ≠ a.toNat → t.tile e.team k = s.tile e.team k) ∧
  (∀ s e, s.eng? s.sel.a s.sel.b = some e → e.released = true →
    (e.sig.swaps = true → ∀ o ∈ s.engOlder s.sel.a s.sel.b, o.sig.isMma = true → o.released = true) →
    (s.engDue s.sel.a e).2 ≤ s.cyc (pairOf s.sel.a) →
    let shares (o : EngOp) : EngOp := if e.sig.isMma = true ∧ o.sig.isMldw = true ∧ o.started = true then
      { o with shared := o.shared + e.overlap o.at_ (e.at_ + e.rel) } else o
    let put (t : State) (w : Nat × List Byte) : State := match t.ownScratch? e.team w.1 w.2.length with
      | some ph => (t.writePhys ph w.2).clearPoison ph w.2.length
      | none => t
    let t := e.out.foldl put s
    let u := if e.sig.swaps then t.modTeam e.team fun x => { x with active := x.shadowPl, shadowPl := x.active } else t
    exec .matrixOpRetire s = .next ((e.sigs.foldl (fun v i => v.doneA i) (u.modCore s.sel.a fun c =>
      { c with eng := Map.modAll (fun _ o => shares o) (Map.del s.sel.b c.eng) })).sweepOps))

/-- R20 to R22, R34, R38, R40: a path at a header starts its clause, and a sweep issues at most two paths of the group that
comes first. -/
def Obligations.SweepEvents : Prop :=
  (∀ (s : State) g h pc ls b c v w u, (s.wakeWaits s.sel.a).deliverAll s.sel.a = u → u.group? s.sel.a = some g → g.started = true →
    (u.paths s.sel.a g).find? (fun p => p.2.1.isNone && p.2.2.contains s.sel.b) = some (pc, none, ls) →
    u.codeWalked s.sel.a g pc (ls.headD 0) = (w, true) → w.fetchClause g pc = .ok (v, some b) → v.group? s.sel.a = some h → v.startable s.sel.a h (pc, none, ls) = some c →
    exec .clauseStart s = .next (ls.foldl (fun t l => t.modThread s.sel.a l fun x =>
      { x with pc := pc + 4, clause := some c, t := [] }) v)) ∧
  (∀ s u gid g, u = (((s.onSlice s.sel.a s.sel.b).foldl (fun t e => t.settleIn e.1) s).gate s.sel.a).noteReady s.sel.a s.sel.b →
    s.coreOn s.sel.a = true → u.sliceFree s.sel.a s.sel.b = true → (gid, g) ∈ u.onSlice s.sel.a s.sel.b → g.ready.isSome →
    u.onDuty g = true → g.skip = false →
    (∀ h ∈ u.onSlice s.sel.a s.sel.b, h ≠ (gid, g) → h.2.ready.isSome → pickBefore h.2 g = false) →
    (u.onSlice s.sel.a s.sel.b).Nodup →
    exec .instructionSweep s = .next (u.sweepGroup s.sel.a s.sel.b gid)) ∧
  (∀ (s : State) core k gid, ((s.sweepGroup core k gid).issue.length ≤ 2 ∨ s.group? gid = none)) ∧
  (∀ g ps, (choosePaths g ps).length ≤ 2 ∧ ∀ p ∈ choosePaths g ps, p ∈ ps) ∧
  (∀ s g r, s.group? s.sel.a = some g → g.ready = some r → g.boost = none → r + 256 ≤ s.cyc (pairOf g.core) →
    exec .groupBoost s = .next (s.modGroup s.sel.a fun x => { x with boost := some (s.cyc (pairOf g.core)) })) ∧
  (∀ s g pc, s.group? s.sel.a = some g → g.starved (s.readyPaths s.sel.a) = some pc →
    exec .pathStarvation s = .next (s.modGroup s.sel.a fun x => { x with forced := some pc }))

/-- R25, R27, R35, R69, R172, R174, R218: a stalled thread issues again once what it waits for is free; a slice that held its slots
for a place in the engine or for a batch port goes on with them, later by its wait. -/
def Obligations.StallsEnd : Prop :=
  let ends (e : Instr) (r : Stall) (core : Bool) (free : State → Nat → Group → Nat → Prop) : Prop :=
    ∀ s gid g l x, s.group? gid = some g → (if core then g.core = s.sel.a else gid = s.sel.a) → g.thread? l = some x →
      x.wait = some (.stall r) → free s gid g l →
      ∃ t, exec e s = .next t ∧ (t.thread gid l).wait = none ∧ t = { s with groups := t.groups }
  (∀ n, ends .registerBlockAvailable (.block n) true fun s gid _ _ =>
    if n ≤ 1 then (s.drawBlock gid).isSome = true else (s.drawTo gid n 4).isSome = true) ∧
  (∀ f, ends .flagHeadroomFreed (.flag f) false fun _ _ g _ => g.flag f < 255) ∧
  ends .operationLimitFreed .limit false (fun s gid g l => ∀ e ∈ g.threads, e.2.wait = some (.stall .limit) →
    e.2.pc = (g.thread l).pc → (s.unsettled gid e.1).length < 1024) ∧
  ends .ticketSlotFreed .ticket true (fun s _ _ _ => s.freeSlots s.sel.a ≠ []) ∧
  (∀ (s : State) k h, let a := s.sel.a
    let d := s.cyc (pairOf a) - h.at_
    s.coreOn a = true → s.issue = [] → (s.core a).eng.length < 32 → (s.core a).held = [(k, h)] → h.port = false →
    ∃ t, exec .enginePlaceFreed s = .next t ∧ t.issue = h.slots.map (Slot.later d) ∧ Map.get? (t.core a).held k = none ∧
      Map.get (t.core a).busy k 0 = Map.get (s.core a).busy k 0 + d) ∧
  (∀ (s : State) k h sl rest g i p cost, let a := s.sel.a
    let now := s.cyc (pairOf a)
    let at_ : Slot := { sl with lanes := s.slotLanes sl }
    let costs := s.scratchCosts sl.gid i (Slot.on s at_ i (Instr.guardOf i))
    let paid : Slot := { sl with paid := sl.paid + 1 }
    s.coreOn a = true → s.issue = [] → (s.core a).held = [(k, h)] → h.port = true → h.at_ ≤ now → k < 64 → h.slots = sl :: rest →
    s.group? sl.gid = some g → g.core = a → s.slotDecode at_ = some i → costs[sl.paid]? = some cost → s.freePort g = some p →
    ∃ t, exec .batchPortGrant s = .next t ∧ (t.core a).rr = (k + 1) % 64 ∧
      (t.core a).ports = (s.core a).ports.set p (max ((s.core a).ports.getD p 0) now + cost) ∧
      (sl.paid + 1 = costs.length → t.issue = (paid :: rest).map (Slot.later (now - h.at_)) ∧
        Map.get? (t.core a).held k = none) ∧
      (sl.paid + 1 < costs.length → t.issue = [] ∧
        Map.get? (t.core a).held k =
          some { h with slots := paid :: rest.map (Slot.later (now - h.at_)), at_ := now + cost }))

/-- R26, R70, R74, R133, R137, R139, R145, R178, R320: waits that end by themselves, a failure's trap, and a thread's end, which waits
for the page of its handler's frame; the value that ends a wait is discarded where another path has released its name meanwhile. -/
def Obligations.WaitEvents : Prop :=
  (∀ s, s.deliverable s.sel.a s.sel.b = true → exec .trapDelivery s = .next (s.deliverFailure s.sel.a s.sel.b)) ∧
  (∀ s g, s.group? s.sel.a = some g → (g.thread s.sel.b).phase = .exiting → s.unsettled s.sel.a s.sel.b = [] →
    s.deliverable s.sel.a s.sel.b = false → s.frameAway s.sel.a s.sel.b = false →
    let t := (s.freeFrame s.sel.a s.sel.b).modThread s.sel.a s.sel.b fun x =>
      { x with phase := .exited, clause := none, wait := none }
    ∀ h, t.group? s.sel.a = some h → exec .threadExitComplete s = .next (
      if h.threads.all fun e => e.2.phase = .exited then t.retireGroup s.sel.a
      else (t.recount h.team).checkReconv s.sel.a)) ∧
  (∀ s g a, s.group? s.sel.a = some g → (g.thread s.sel.b).wait = some (.waith a) → s.passed s.sel.a s.sel.b a = true →
    s.deliverable s.sel.a s.sel.b = false → exec .waithReturn s = .next (s.wake s.sel.a s.sel.b)) ∧
  (∀ s g x d addr b start t bs, s.group? s.sel.a = some g → (g.thread s.sel.b).wait = some (.waitf x d addr b start) →
    (g.thread s.sel.b).parked = false → s.deliverable s.sel.a s.sel.b = false → x.spc = .scratch → x.w64 = false →
    x.acq = false → x.pr = none → s.ownBefore s.sel.a s.sel.b x.spc addr 4 = false →
    s.spaceRead x.spc s.sel.a g.ctx g.core addr 4 { r := true } = .ok (t, bs) →
    (wfCond x.cc false (BitVec.ofNat 64 (ofBytes bs)) b = true → exec .waitfWake s =
      .next ((t.dstWait s.sel.a s.sel.b d (BitVec.ofNat 32 (ofBytes bs))).wake s.sel.a s.sel.b)) ∧
    (wfCond x.cc false (BitVec.ofNat 64 (ofBytes bs)) b = false → t.wfLate s.sel.a x start = false →
      exec .waitfWake s = .next t) ∧
    (wfCond x.cc false (BitVec.ofNat 64 (ofBytes bs)) b = false → t.wfLate s.sel.a x start = true →
      s.wfLate s.sel.a x start = true → exec .waitfTimeout s =
        .next ((t.dstWait s.sel.a s.sel.b d (BitVec.ofNat 32 (ofBytes bs))).wake s.sel.a s.sel.b))) ∧
  (∀ (s : State) gid l d w g x, s.group? gid = some g → g.thread? l = some x → let t := s.dstWait gid l d w
    (x.wait.isSome = true → (∃ n, d = .v n ∧ n.val ∈ x.lost) → t = s) ∧
    ((∀ n, d = .v n → n.val ∉ x.lost) → t = s.dst32 gid l d w)) ∧
  (∀ (s : State) gid ns h l x, (s.unmap gid ns).group? gid = some h → h.thread? l = some x → x.wait.isSome = true →
    ∀ n ∈ ns, n ∈ x.lost) ∧
  (∀ s g till, s.group? s.sel.a = some g → (g.thread s.sel.b).wait = some (.sleep till) → till ≤ s.ctxNow g.ctx →
    s.deliverable s.sel.a s.sel.b = false → exec .sleepExpiry s = .next (s.wake s.sel.a s.sel.b)) ∧
  (∀ s g x tk pr, s.group? s.sel.a = some g → g.threads = [(s.sel.b, x)] → x.wait = some (.pwait tk pr) →
    s.deliverable s.sel.a s.sel.b = false → (s.ticketOp g.core tk).isSome → s.promiseDue g.core tk pr = true →
    exec .promiseExpiry s = .next ((s.freeNum.2.trapLanes s.sel.a .recoverable 2
      [(s.sel.b, .promiseMissed, (Config.revised s.freeNum.1).toNat)]).freeWith s.sel.a [s.sel.b]))

/-! ## Encoding and decoding (R37 to R65, R363) -/

/-- R39, R43 to R65, R363: decoding an encoded well-formed instruction gives it back, with the words after it, and its length
is that of its words; the same for a step word. -/
def Obligations.DecodingInvertsEncoding : Prop :=
  (∀ i ws, i.shapeOk = true → i.gen.isSome = true → decodeWords i.page (encode i ++ ws) = .ok (i, ws)) ∧
  (∀ i ws, i.shapeOk = true → i.gen.isSome = true → instrLen i.page (encode i ++ ws) = (encode i).length) ∧
  (∀ i w, i.shapeOk = true → encodeStep i = some w → decodeStep w = .ok i)

/-- Words of the spec's worked examples, and what they are. -/
def Obligations.WordsOfTheSpecDecode : Prop :=
  decodeWords 0 [0x02C0C101] = .ok (.bfeI { g := .pred 0 } (.v 3) (.v 2) (.v 1), []) ∧
  decodeWords 0 [0x66317FFE, 0xF0000100] = .ok (.mov {} (.s 5) (.lit 0xF0000100), []) ∧
  decodeWords 0 [0x65C043FF, 0x20000000, 0x00000064] = .ok (.icmp {} ⟨.lt, .i32⟩ 1 (.v 7) (.lit 100), []) ∧
  decodeWords 0 [0x6261017F, 0xE8000000, 0x10000000] = .ok (.imad {} { c := .k 0, ty := .i32 } (.v 4) (.v 2) (.lit 0x10000000), []) ∧
  decodeWords 1 [0x6040A2FE, 0x04000004] = .ok (.lds {} { w := 2, ofs := 4 } (.v 2) (.s 5) .nul, []) ∧
  decodeWords 3 [0x60E0EA55, 0xAC460000] =
    .ok (.msts {} { c := .s 22, tile := 2, dty := 3 } 3 (.s 20) (.s 21), []) ∧
  decodeWords 4 [0x6005247F, 0x4A000000, 0x00000011] = .ok (.mcst {} { ssp := false, c := .s 10 } (.v 20) (.s 8) (.lit 17), []) ∧
  decodeWords 5 [0x6040C005] = .ok (.call {} (.v 3) 5, []) ∧
  decodeWords 5 [0x101FFFF4] = .ok (.bra { g := .pred 2 } (-12), []) ∧
  decodeWords 6 [0x01A1017E, 0x02000000] = .ok (.redux { g := .pred 0 } { opr := 0, ty := .f32 } (.v 4) (.v 2), []) ∧
  decodeStep 0x3404CFFF00000000 = .ok (.rrs { pa := 1, pb := 0, ia := 1, ij := 0, ib := 3, k := -1 }) ∧
  Header.read 0x37F80109 = some ⟨9, 0, 2, none, none, false, true, true, false⟩

/-! ## A step (R21, R38, R65, R367) -/

/-- A step executes the instruction to which the words of the slot's clause at the program counter decode, or the step word
at which its program stands, and the slot is over; a scratchpad access first has its batches' ports, or its slice waits (R172); a
slot whose words decode to nothing is an `ILLEGAL_INSTRUCTION` of its threads (R65); an event that is due is executed. -/
def Obligations.StepRunsTheDecodedInstruction : Prop :=
  let ended (o : Out) : Out := match o with
    | .next t => .next { t with cur := none }
    | o => o
  (∀ s sl rest g cl i more u, s.issue = sl :: rest → sl.prog = none → sl.begins.isSome = true →
    let t : State := { s with issue := rest }
    let lanes := t.slotLanes sl
    t.group? sl.gid = some g → (lanes.head?.bind fun l => (t.thread sl.gid l).clause) = some cl →
    decodeWords (cl.pageAt (cl.idx sl.pc)) ((cl.ws.take cl.area).drop (cl.idx sl.pc)) = .ok (i, more) →
    (t.charge { sl with lanes := lanes } g i = .ok u → step s = ended (exec i { u with cur := some { sl with lanes := lanes } })) ∧
    (t.charge { sl with lanes := lanes } g i = .error u → step s = .next u)) ∧
  (∀ s sl rest g cl e, s.issue = sl :: rest → sl.prog = none → sl.begins.isSome = true →
    let t : State := { s with issue := rest }
    let lanes := t.slotLanes sl
    t.group? sl.gid = some g → (lanes.head?.bind fun l => (t.thread sl.gid l).clause) = some cl →
    decodeWords (cl.pageAt (cl.idx sl.pc)) ((cl.ws.take cl.area).drop (cl.idx sl.pc)) = .error e →
    step s = .next (t.trapAt sl.gid lanes .illegalInstruction .precise 0)) ∧
  (∀ (s : State) sl, ∀ l ∈ s.slotLanes sl, (s.thread sl.gid l).pc = sl.pc) ∧
  (∀ s sl rest k p w i, s.issue = sl :: rest → sl.prog = some k → s.prog? k = some p → p.words[p.ip]? = some w →
    decodeStep w = .ok i → step s = ended (exec i { s with issue := rest, cur := some sl })) ∧
  (∀ s t i x rest, s.issue = [] → s.agenda = (t, i, x) :: rest → t ≤ s.rtime →
    step s = ended (exec i { s with rtime := max s.rtime t, sel := x, agenda := rest }))

/-! ## Memory (R161 to R163, R405) -/

/-- The bytes that a state's memory lists stand in the canonical form after every step that has a next state. -/
def Obligations.StepsKeepMemoryCanonical : Prop :=
  ∀ s t, Memory.wf s.mem = true → step s = .next t → Memory.wf t.mem = true

/-- A write is read back, and leaves every other byte alone and the form canonical; equal memories are equal lists; what a
store's acceptance (R163) and a load's value (R162) change of memory. -/
def Obligations.MemoryReadsBackWrites : Prop :=
  (∀ m a bs, Memory.wf m = true → Memory.wf (Memory.write m a bs) = true) ∧
  (∀ m a bs q, Memory.read1 (Memory.write m a bs) q =
    if a ≤ q ∧ q < a + bs.length then bs.getD (q - a) 0 else Memory.read1 m q) ∧
  (∀ m n, Memory.wf m = true → Memory.wf n = true → (∀ q, Memory.read1 m q = Memory.read1 n q) → m = n) ∧
  (∀ (s : State) id o va bs f ph, bs ≠ [] → va % 256 + bs.length ≤ 256 →
    s.translate o.ctx va { w := true } (s.sysMode o.ctx) (pairOf o.core) = .ok (f, ph) → s.cxlGone ph = false →
    let t := s.storeDone id o va bs
    t.readPhys ph bs.length = bs ∧
      ∀ q, (q < ph ∨ ph + bs.length ≤ q) → (q < f.ea ∨ f.ea + 8 ≤ q) → Memory.read1 t.mem q = Memory.read1 s.mem q) ∧
  (∀ (s : State) id o n sgn bs, (s.loaded id o n sgn bs).mem = s.mem)

/-- The state after reset: the clocks at zero, the boot ROM running, no context, nothing in flight, no byte of memory
listed (R402, R411; the energy window's end and the dies' states are the model's, DESIGN CHOICE, log entries 2 and 4). And a thread at kernel
entry (R24, R153): its index in `v0`, the argument block in `s0:s1`, the team's numbers in `s2` to `s4`, everything else
zero. -/
def Obligations.ResetAndKernelEntry : Prop :=
  (let s := State.reset
   s.rtime = 0 ∧ s.boot.st = .rom ∧ s.mem = [] ∧ Memory.wf s.mem = true ∧ s.ctxs = [] ∧ s.grids = [] ∧ s.teams = [] ∧
     s.groups = [] ∧ s.ops = [] ∧ s.poison = [] ∧ s.cur = none ∧ s.issue = [] ∧ s.agenda = [] ∧
     (∀ d, (s.die d).st = .online) ∧ (∀ d, (s.pair d).cyc = 0) ∧ s.snap.latched = false) ∧
  (∀ (s : State) gr (g : Grid) idx core cl rank p gid h, g.r.shadow = false →
    (gid, h) ∈ (s.placeTeam gr g idx core cl rank p).groups → (∀ x, (gid, x) ∉ s.groups) →
    ∃ k, h.groupId = BitVec.ofNat 32 k ∧ h.kind = .plain ∧ h.core = core ∧ h.w = g.r.w ∧ h.cbase = g.r.entry ∧
      Map.get h.s 0 0 = BitVec.ofNat 32 g.r.args ∧ Map.get h.s 1 0 = BitVec.ofNat 32 (g.r.args / 2 ^ 32) ∧
      Map.get h.s 2 0 = BitVec.ofNat 32 idx ∧ Map.get h.s 3 0 = BitVec.ofNat 32 g.r.teams ∧
      Map.get h.s 4 0 = BitVec.ofNat 32 g.r.nthr ∧ (∀ n, 5 ≤ n → Map.get h.s n 0 = 0) ∧ h.p = [] ∧ h.f = [] ∧ h.flags = 0 ∧
      h.trapen = 0 ∧ h.gmShape = 0x3F800000 ∧ h.gmMode = 0 ∧
      ∀ l x, h.thread? l = some x → l < g.r.w ∧ x.pc = 0 ∧ x.clause = none ∧ x.t = [] ∧ x.opc = 0 ∧ x.wait = none ∧
        x.hnd = none ∧ x.teamThread = BitVec.ofNat 32 (k * g.r.w + l) ∧
        (k * g.r.w + l < g.r.nthr → x.phase = .active ∧ Map.get x.v 0 0 = BitVec.ofNat 32 (k * g.r.w + l) ∧
          ∀ n, n ≠ 0 → Map.get x.v n 0 = 0) ∧
        (g.r.nthr ≤ k * g.r.w + l → x.phase = .exited))

/-! ## Traps, guards and frames (R26, R28, R44, R53, R54, R65, R66, R75 to R82, R198) -/

/-- R28, R78, R79, R81, R82, R99, R101, R320: a trap's threads enter the handler with the frame's address in `s46:s47`, which the frame keeps
at +496, every other register as it was, and their `OPC`, and with nothing of theirs left in the core's L1; the next-frame counter
has been counted, also where `n` is bad or the frame is not free (the model's reading of R78, DEDUCED, log entry 65); a frame whose page
is not present, or on whose lines writes still wait, is not taken; a trap in handler mode is escalated to FATAL. -/
def Obligations.TrapsEnterTheHandler : Prop :=
  (∀ (s : State) gid lanes f g tm u fr v, s.group? gid = some g → s.team? g.team = some tm → f.cls ≠ .fatal →
    tm.handler ≠ 0 → (∀ l ∈ lanes, (g.thread l).hnd = none) → lanes.Nodup → s.takeFrame g.ctx g.core = (u, .ok fr) →
    u.gwrite g.ctx fr ((f.forTeam tm.paired).bytes lanes (Map.get g.s 46 0) (Map.get g.s 47 0)) true (pairOf g.core) = .ok v →
    let t := s.takeTrap gid lanes f
    t.mem = v.mem ∧ (t.core g.core).l1 = [] ∧ ∀ h, v.group? gid = some h → ∃ k, t.group? gid = some k ∧
      k = { h with s := k.s, threads := k.threads } ∧
      Map.get k.s 46 0 = BitVec.ofNat 32 fr ∧ Map.get k.s 47 0 = BitVec.ofNat 32 (fr / 2 ^ 32) ∧
      (∀ n, n ≠ 46 → n ≠ 47 → Map.get k.s n 0 = Map.get h.s n 0) ∧
      (∀ l, l ∉ lanes → k.thread? l = h.thread? l) ∧
      ∀ l ∈ lanes, ∀ x, h.thread? l = some x → k.thread? l = some { x with
        pc := (tm.handler + 2 ^ 64 - g.cbase) % 2 ^ 64, clause := none, t := [], wait := none, phase := .active
        hnd := some ⟨fr, f.resume, x.clause, maskOf lanes⟩ }) ∧
  (∀ (s t u w : State) ctx core c b0 b1, let die := pairOf core
    s.ctx? ctx = some c → s.gread ctx c.trapBase 4 { r := true, w := true } true die = .ok (t, b0) →
    t.dwrite ctx c.trapBase (toBytes 4 (ofBytes b0 + 1)) true die = .ok u →
    u.gread ctx (c.trapBase + 4) 4 { r := true } true die = .ok (w, b1) →
    let n := ofBytes b1
    let fr := c.trapBase + 512 * (1 + ofBytes b0 % n)
    (¬ (∃ k, k ≤ 16 ∧ n = 2 ^ k) → s.takeFrame ctx core = (w, .error (.cause .translation, c.trapBase))) ∧
    ∀ x b2, (∃ k, k ≤ 16 ∧ n = 2 ^ k) → w.gread ctx fr 2 { r := true } true die = .ok (x, b2) →
      s.takeFrame ctx core = (if x.lineBusy ctx fr 512 = true then (s, .error (.notPresent, fr))
        else (x, if ofBytes b2 = 0 then .ok fr else .error (.cause .translation, fr)))) ∧
  (∀ (s t : State) gid lanes f g tm va, s.group? gid = some g → s.team? g.team = some tm → f.cls ≠ .fatal →
    tm.handler ≠ 0 → (∀ l ∈ lanes, (g.thread l).hnd = none) → s.takeFrame g.ctx g.core = (t, .error (.notPresent, va)) →
    t = s ∧ s.takeTrap gid lanes f = if f.cls = .horizon then s else s.awaitFrame gid lanes va) ∧
  (∀ (f : Frame) lanes a b, (f.bytes lanes a b).length = 512 ∧
    ((f.bytes lanes a b).drop 496).take 8 = toBytes 4 a.toNat ++ toBytes 4 b.toNat) ∧
  (∀ (s : State) gid lanes f g l, s.group? gid = some g → l ∈ lanes → (g.thread l).hnd.isSome = true →
    s.takeTrap gid lanes f = s.fatal gid f.cause)

/-- R44, R54, R65, R66, R76, R198: threads that fail a check of their instruction take its cause as a PRECISE trap and
nothing else happens; where the guard holds in none the path only goes on; a raised flag that `TRAPEN` enables is a trap, and
nothing is written. -/
def Obligations.ChecksGuardsAndFloatingTraps : Prop :=
  (∀ i p s c g x, i.gen.map Gen.p = some p → s.cur = some c → s.group? c.gid = some g → c.lanes ≠ [] →
    (∀ l ∈ c.lanes, (g.thread l).pc = c.pc ∧ s.check i g l = some x) →
    exec i s = .next (closing i c.gid (s.trapAt c.gid c.lanes x .precise 0))) ∧
  (∀ i p s c g, i.gen.map Gen.p = some p → s.cur = some c → s.group? c.gid = some g →
    (∀ l ∈ c.lanes, s.check i g l = none ∧ g.guard p.g l = false) →
    exec i s = .next (closing i c.gid (s.advance c.gid c.lanes))) ∧
  (∀ (s : State) i g l, i.privileged = true → s.sysMode g.ctx = false → i.page ≠ 3 → s.check i g l = some .privileged) ∧
  (∀ (s : State) i g l, i.page = 3 → (s.team? g.team).any Team.mtx = false → s.check i g l = some .illegalInstruction) ∧
  (∀ e ∈ ([(.fadd, Fmt.f32.add .rne), (.fsub, Fmt.f32.sub .rne), (.fmul, Fmt.f32.mul .rne), (.fdiv, Fmt.f32.div .rne),
      (.fmin, Fmt.f32.minmax false), (.fmax, Fmt.f32.minmax true)] :
      List ((Pre → Opnd → Opnd → Opnd → Instr) × (Nat → Nat → Nat × Flags))),
    ∀ p d a b s c g on off s1, Executes (e.1 p d a b) p s c g on off s1 →
    let ls := doers (e.1 p d a b) g on
    let fl (l : Nat) : Flags := (e.2 (s1.srcF c.gid l a) (s1.srcF c.gid l b)).2
    (∀ l ∈ ls, s1.fpTrap? c.gid (fl l) = some .fp) →
    exec (e.1 p d a b) s = .next (((s1.raise c.gid (ls.foldl (fun x l => x ||| fl l) 0)).advance c.gid off).trapAt c.gid on
      .fp .precise 0))

/-- What an instruction that computes, compares or issues leaves as it was: everything but its destination in its executing
lanes, its flags, its pair or its operations, of an asynchronous one its ticket slots, of one that a belay die serves the touched bits
and its scoreboard; and what going on to the next instruction leaves. -/
def Obligations.FramesOfInstructions : Prop :=
  (∀ i p d f m, Computes i p d f → (∀ s gid l, (f s gid l).1.length ≤ m) → ∀ s c g on off s1,
    Executes i p s c g on off s1 → Untrapped s1 c.gid (doers i g on) (fun l => (f s1 c.gid l).2) →
    ∃ u, exec i s = .next (u.goOn c.gid off on) ∧ Framed s u c.gid ((List.range m).map d.plus) (doers i g on) false) ∧
  (∀ i p d f m, ComputesPath i p d f → (∀ s gid g on l, ((f s gid g on).1 l).length ≤ m) → ∀ s c g on off s1,
    Executes i p s c g on off s1 → s1.fpTrap? c.gid (f s1 c.gid g on).2 = none →
    ∃ u, exec i s = .next (u.goOn c.gid off on) ∧ Framed s u c.gid ((List.range m).map d.plus) (doers i g on) false) ∧
  (∀ p x d a b s c g on off s1, Executes (.icmp p x d a b) p s c g on off s1 → ∃ u : State,
    exec (.icmp p x d a b) s = .next (u.goOn c.gid off on) ∧ ∀ h, u.group? c.gid = some h →
      (∀ k l, l < 64 → (k ≠ 2 * d.toNat ∧ k ≠ 2 * d.toNat + 1) ∨ l ∉ on → h.pred k l = g.pred k l) ∧
      Framed s (u.modGroup c.gid fun y => { y with p := g.p }) c.gid [] [] false) ∧
  (∀ p x d a b s c g on off s1, Executes (.fcmp p x d a b) p s c g on off s1 →
    Untrapped s1 c.gid on (fun l => ((scalarFmt x.ty).cond x.cc (s1.srcAny c.gid l x.ty a) (s1.srcAny c.gid l x.ty b)).2) →
    ∃ u : State, exec (.fcmp p x d a b) s = .next (u.goOn c.gid off on) ∧ ∀ h, u.group? c.gid = some h →
      (∀ k l, l < 64 → (k ≠ 2 * d.toNat ∧ k ≠ 2 * d.toNat + 1) ∨ l ∉ on → h.pred k l = g.pred k l) ∧
      Framed s (u.modGroup c.gid fun y => { y with p := g.p }) c.gid [] [] false) ∧
  (let far (x : Mx) : Nat := if 14 ≤ x.aop.toNat then 32 else Mx.bytes x
    ∀ e ∈ ([(.ldg, fun _ => true, Mx.bytes), (.stg, fun _ => false, Mx.bytes), (.atomg, Mx.ret, far)] :
      List ((Pre → Mx → Opnd → Opnd → Opnd → Instr) × (Mx → Bool) × (Mx → Nat))),
    ∀ p x d a b s c g on off s1, Executes (e.1 p x d a b) p s c g on off s1 → s1.issueStall c on (e.2.1 x) (!e.2.1 x) = none →
    ((∀ l ∈ on, ∀ b, s1.mustHold g l x.ord x.h b = false) ∨ s1.quiet c g on) →
    (∀ l ∈ doers (e.1 p x d a b) g on, let va := s1.eaGlobal c.gid l a b x.ofs
      va % e.2.2 x = 0 ∧ vaOk va = true ∧ s1.remote? va = none ∧ ∀ q, s1.absent g.ctx va q (pairOf g.core) = false) →
    ∃ u, exec (e.1 p x d a b) s = .next (u.goOn c.gid off on) ∧ Framed s u c.gid [] [] true) ∧
  (let far (x : Mx) : Nat := if 14 ≤ x.aop.toNat then 32 else Mx.bytes x
    ∀ e ∈ ([(.ldb, fun _ => true, Mx.bytes), (.stb, fun _ => false, Mx.bytes), (.atomb, Mx.ret, far)] :
      List ((Pre → Mx → Opnd → Opnd → Opnd → Instr) × (Mx → Bool) × (Mx → Nat))),
    ∀ p x d a b s c g on off s1, Executes (e.1 p x d a b) p s c g on off s1 → s1.issueStall c on (e.2.1 x) (!e.2.1 x) = none →
    ((∀ l ∈ on, ∀ b, s1.mustHold g l x.ord x.h b = false) ∨ s1.quiet c g on) →
    (∀ l ∈ doers (e.1 p x d a b) g on, s1.eaLocal c.gid l a b x.ofs % e.2.2 x = 0) →
    ∃ u, exec (e.1 p x d a b) s = .next (u.goOn c.gid off on) ∧ Framed s u c.gid [] [] true) ∧
  (∀ i p d ok r, IssuesAsync i p d ok r → ∀ s c g on off s1, Executes i p s c g on off s1 →
    s1.issueStall c on true true = none → on.length ≤ (s1.freeSlots g.core).length → (∀ l ∈ on, ok s1 c.gid l) →
    (∀ l ∈ on, (r s1 c.gid l).job.empty = false) →
    ((∀ l ∈ on, s1.mustHold g l .rlx (r s1 c.gid l).h false = false) ∨ s1.quiet c g on) →
    ∃ u, exec i s = .next (u.goOn c.gid off on) ∧ Framed s u c.gid [d, d.plus 1] on true true) ∧
  (let fabric (i : Instr) (p : Pre) (seta : Bool) (regs : List Opnd) (ok : State → Group → Nat → Nat → Prop)
      (sb : State → Nat → Nat → Option Nat) : Prop :=
    ∀ s c g on off s1, Executes i p s c g on off s1 → s1.issueStall c on seta (!seta) = none → s1.quiet c g on →
      (∀ l ∈ on, ok s1 g c.gid l) → ∃ u : State, exec i s = .next (u.goOn c.gid off on) ∧
      Framed s { u with ctxs := s.ctxs } c.gid regs on true ∧ ∀ k, ∀ x ∈ s.ctx? k, ∃ y : Ctx, u.ctx? k = some y ∧
        y = { x with touched := y.touched, scb := y.scb } ∧ x.touched &&& ~~~ y.touched = 0 ∧
        ∀ n, (k ≠ g.ctx ∨ ∀ l ∈ on, sb s1 c.gid l ≠ some n) → Map.get y.scb n 0 = Map.get x.scb n 0
   let idle (s : State) (g : Group) : Prop := (∀ x ∈ s.ctx? g.ctx, x.armed = []) ∧ (∀ e ∈ s.grids, e.2.st ≠ .waiting) ∧
     ∀ e ∈ s.ops, ∀ a, e.2.kind ≠ .arm a
   (∀ p d a, fabric (.peerq p d a) p true [d] (fun _ _ _ _ => True) fun _ _ _ => none) ∧
   (∀ p, fabric (.wcflush p) p false [] (fun s _ _ _ => ∀ e ∈ s.ops, ∀ ws, e.2.kind ≠ .wcflush ws) fun _ _ _ => none) ∧
   (∀ p a b, fabric (.scbset p a b) p false [] (fun s g gid l => (s.src32 gid l a).toNat < 256 ∧ idle s g)
     fun s gid l => some (s.src32 gid l a).toNat) ∧
   ∀ p a b, fabric (.scbclr p a b) p false [] (fun s g gid l => (s.src32 gid l a).toNat < 256 ∧ idle s g)
     fun s gid l => some (s.src32 gid l a).toNat) ∧
  (∀ (s : State) gid off on g l0, s.group? gid = some g → (∀ l ∈ off ++ on, (g.thread l).clause = (g.thread l0).clause ∧
      (g.thread l).pc = (g.thread l0).pc) → (∀ cl, (g.thread l0).clause = some cl → cl.header.rel = false) →
    let t := s.goOn gid off on
    t = { s with groups := t.groups } ∧ (∀ k, k ≠ gid → t.group? k = s.group? k) ∧ ∃ h, t.group? gid = some h ∧
      h = { g with skip := h.skip, threads := h.threads } ∧ ∀ l x, g.thread? l = some x → ∃ y, h.thread? l = some y ∧
        y = { x with pc := y.pc, clause := y.clause, t := y.t, wait := y.wait } ∧ (l ∉ off ++ on → y = x))

/-- R53: what a clause's release masks name is unmapped for the whole group when the clause ends, and nothing else is. -/
def Obligations.ReleaseMasksUnmapAtTheEnd : Prop :=
  (∀ c : Clause, c.header.rel = true → ∀ n, n ∈ c.releases ↔
    (n < 32 ∧ (c.ws.getD (c.header.n - 2) 0).getLsbD n = true) ∨
    (32 ≤ n ∧ n < 64 ∧ (c.ws.getD (c.header.n - 1) 0).getLsbD (n - 32) = true)) ∧
  (∀ c : Clause, c.header.rel = false → c.releases = []) ∧
  (∀ (s : State) gid lanes pc g c l0, s.group? gid = some g → l0 ∈ lanes →
    (∀ l ∈ lanes, (g.thread l).clause = some c ∧ (g.thread? l).isSome = true) →
    let t := s.leave gid lanes pc
    ∃ h, t.group? gid = some h ∧ ∀ l, (g.thread? l).isSome = true → ∀ n : Fin 64,
      (n.val ∈ c.releases → Map.get? h.mapped n.val = none ∧ t.src32 gid l (.v n) = 0) ∧
      (n.val ∉ c.releases → Map.get? h.mapped n.val = Map.get? g.mapped n.val ∧ t.src32 gid l (.v n) = s.src32 gid l (.v n)))

/-- R25: an issue that would raise a completion flag above 255 does not take place, and its path waits; it issues again once
the flag has fallen below 255, and not before. -/
def Obligations.FullFlagsHoldIssueBack : Prop :=
  let waits (i : Instr) (p : Pre) (a b : Bool) : Prop :=
    ∀ s c g on off s1 k, Executes i p s c g on off s1 → s1.issueStall c on a b = some (.flag k) →
      exec i s = .next ((off ++ on).foldl (fun t l => t.modThread c.gid l fun x => { x with wait := some (.stall (.flag k)) }) s1)
  (∀ p x d a b, waits (.ldg p x d a b) p true false ∧ waits (.lds p x d a b) p true false ∧
    waits (.ldb p x d a b) p true false ∧ waits (.stg p x d a b) p false true ∧ waits (.sts p x d a b) p false true ∧
    waits (.stb p x d a b) p false true ∧ waits (.atomg p x d a b) p x.ret (!x.ret)) ∧
  (∀ p x d a b, waits (.cpy p x d a b) p true true) ∧ (∀ p x d a b, waits (.mma p x d a b) p true true) ∧
  (∀ s : State, ∀ c on a b k, s.issueStall c on a b = some (.flag k) → ∃ g, s.group? c.gid = some g ∧ 254 ≤ g.flag k) ∧
  (∀ s : State, ∀ c on k g h, s.group? c.gid = some g → s.slotHeader c = some h → h.seta = some k →
    255 ≤ g.flag k → s.issueStall c on true false = some (.flag k)) ∧
  (∀ s gid g l x k, s.group? gid = some g → s.sel.a = gid → (g.threads.map Prod.fst).Nodup → g.thread? l = some x →
    x.wait = some (.stall (.flag k)) →
    ∃ t, exec .flagHeadroomFreed s = .next t ∧ (t.thread gid l).wait = if g.flag k < 255 then none else x.wait)

/-! ## Special registers (R152 to R155) -/

/-- R152 to R155: what each special register reads, and what writing one changes. -/
def Obligations.SpecialRegisterValues : Prop :=
  (∀ (s : State) gid l g tm cx, s.group? gid = some g → s.team? g.team = some tm → s.ctx? g.ctx = some cx →
    let get (n : Nat) : Word := (s.getSr gid l n).1
    let w (n : Nat) : Word := BitVec.ofNat 32 n
    get 0 = (g.thread l).teamThread ∧ get 1 = w tm.pos.1 ∧ get 2 = w tm.pos.2.1 ∧ get 3 = w tm.pos.2.2 ∧
    get 4 = w tm.size.1 ∧ get 5 = w tm.size.2.1 ∧ get 6 = w tm.size.2.2 ∧ get 7 = w tm.rank ∧ get 8 = w g.core ∧
    get 9 = g.groupId ∧ get 10 = w g.w ∧ get 11 = g.flags.setWidth 32 ∧ get 12 = g.trapen.setWidth 32 ∧
    get 13 = g.gmShape ∧ get 14 = g.gmMode.setWidth 32 ∧ get 15 = w (s.cycOf gid l) ∧
    get 18 = w cx.energy ∧ get 20 = s.deviceIndex.setWidth 32 ∧ get 21 = s.massifId.setWidth 32 ∧ get 22 = w g.ctx ∧
    get 64 = cx.trapLo ∧ get 65 = cx.trapHi ∧ get 66 = cx.saveLo ∧ get 67 = cx.saveHi ∧ get 68 = cx.touched.setWidth 32 ∧
    get 69 = s.snap.tag) ∧
  (∀ (s : State) gid l g x, s.group? gid = some g → g.thread? l = some x →
    let w (n : Nat) : Word := BitVec.ofNat 32 n
    let cyc := w (s.cycOf gid l / 2 ^ 32)
    let ticks := w (s.tickOf gid l / 2 ^ 32)
    ((s.getSr gid l 15).2.getSr gid l 16).1 = cyc ∧ (x.cycHi = none → (s.getSr gid l 16).1 = cyc) ∧
    (∀ ls, l ∈ ls → ((s.latchRtime gid ls).getSr gid l 17).1 = ticks) ∧
    (x.rtimeHi = none → (s.getSr gid l 17).1 = ticks) ∧
    ∀ cx, s.ctx? g.ctx = some cx → let en := w (cx.energy / 2 ^ 32)
      ((s.getSr gid l 18).2.getSr gid l 19).1 = en ∧ (x.energyHi = none → (s.getSr gid l 19).1 = en)) ∧
  (∀ (s : State) gid g v, s.group? gid = some g →
    s.setSr gid 11 v = s.modGroup gid (fun h => { h with flags := v.setWidth 6 }) ∧
    s.setSr gid 12 v = s.modGroup gid (fun h => { h with trapen := v.setWidth 6 }) ∧
    s.setSr gid 13 v = s.modGroup gid (fun h => { h with gmShape := v }) ∧
    s.setSr gid 14 v = s.modGroup gid (fun h => { h with gmMode := v.setWidth 4 }) ∧
    s.setSr gid 64 v = s.modCtx g.ctx (fun c => { c with trapLo := v }) ∧
    s.setSr gid 65 v = s.modCtx g.ctx (fun c => { c with trapHi := v }) ∧
    s.setSr gid 66 v = s.modCtx g.ctx (fun c => { c with saveLo := v }) ∧
    s.setSr gid 67 v = s.modCtx g.ctx (fun c => { c with saveHi := v })) ∧
  (∀ w p d (n : BitVec 7), (23 ≤ n.toNat ∧ n.toNat ≤ 63) ∨ 70 ≤ n.toNat → (Instr.getsr p d n).opndOk w = false) ∧
  (∀ w p (n : BitVec 7) a, n.toNat ≤ 10 ∨ (15 ≤ n.toNat ∧ n.toNat ≤ 63) ∨ 68 ≤ n.toNat → (Instr.setsr p n a).opndOk w = false) ∧
  (∀ p d (n : BitVec 7), 64 ≤ n.toNat → (Instr.getsr p d n).privileged = true) ∧
  (∀ p (n : BitVec 7) a, 64 ≤ n.toNat → (Instr.setsr p n a).privileged = true)
end

