-- ==== Sys2Proof/Laws/Map.lean ====
section
/-!
SUPPORT. Sys2Proof/Laws/Map.lean: the laws of maps.
-/

namespace Sys2Proof.Machine

variable {β : Type}

@[simp] theorem Map.get?_nil (k : Nat) : Map.get? ([] : Map β) k = none := rfl

theorem Map.get?_cons (e : Nat × β) (m : Map β) (k : Nat) :
    Map.get? (e :: m) k = if e.1 = k then some e.2 else Map.get? m k := rfl

theorem Map.get?_append (m n : Map β) (k : Nat) :
    Map.get? (m ++ n) k = (Map.get? m k).or (Map.get? n k) := by
  induction m with
  | nil => simp
  | cons e m ih => simp only [List.cons_append, Map.get?_cons]; split <;> simp_all

theorem Map.get?_filter_of_not (m : Map β) (q : Nat × β → Bool) (k : Nat) (h : ∀ v, q (k, v) = false) :
    Map.get? (m.filter q) k = none := by
  induction m with
  | nil => rfl
  | cons e m ih =>
    obtain ⟨j, v⟩ := e
    simp only [List.filter_cons]
    split
    · rw [Map.get?_cons]; split
      · simp_all
      · exact ih
    · exact ih

theorem Map.get?_filter_of (m : Map β) (q : Nat × β → Bool) (k : Nat) (h : ∀ v, q (k, v) = true) :
    Map.get? (m.filter q) k = Map.get? m k := by
  induction m with
  | nil => rfl
  | cons e m ih =>
    obtain ⟨j, v⟩ := e
    by_cases hj : j = k
    · subst hj; simp [h, Map.get?_cons]
    · simp only [List.filter_cons]; split <;> simp [Map.get?_cons, hj, ih]

/-- Reading the key that was written. -/
@[simp] theorem Map.get?_put (k : Nat) (v : β) (m : Map β) : Map.get? (Map.put k v m) k = some v := by
  simp [Map.put, Map.get?_append, Map.get?_cons, Map.get?_filter_of_not]

/-- Reading another key. -/
theorem Map.get?_put_ne {k j : Nat} (h : j ≠ k) (v : β) (m : Map β) :
    Map.get? (Map.put k v m) j = Map.get? m j := by
  rw [Map.put, Map.get?_append, Map.get?_cons]
  rcases Nat.lt_or_gt_of_ne h with h' | h'
  · rw [Map.get?_filter_of _ _ _ (by simp [h']), if_neg (Ne.symm h), Map.get?_filter_of_not _ _ _ (by simp; omega)]
    cases Map.get? m j <;> rfl
  · rw [Map.get?_filter_of_not _ _ _ (by simp; omega), if_neg (Ne.symm h), Map.get?_filter_of _ _ _ (by simp [h'])]
    rfl

@[simp] theorem Map.get_put (k : Nat) (v d : β) (m : Map β) : Map.get (Map.put k v m) k d = v := by simp [Map.get]

theorem Map.get_put_ne {k j : Nat} (h : j ≠ k) (v d : β) (m : Map β) :
    Map.get (Map.put k v m) j d = Map.get m j d := by simp [Map.get, Map.get?_put_ne h]

@[simp] theorem Map.get?_mod (k : Nat) (f : β → β) (m : Map β) :
    Map.get? (Map.mod k f m) k = (Map.get? m k).map f := by
  induction m with
  | nil => rfl
  | cons e m ih =>
    simp only [Map.mod, List.map_cons, Map.get?_cons] at *
    by_cases h : e.1 = k <;> simp [h, ih]

theorem Map.get?_mod_ne {k j : Nat} (h : j ≠ k) (f : β → β) (m : Map β) :
    Map.get? (Map.mod k f m) j = Map.get? m j := by
  induction m with
  | nil => rfl
  | cons e m ih =>
    simp only [Map.mod, List.map_cons, Map.get?_cons] at *
    by_cases h' : e.1 = k
    · have : e.1 ≠ j := fun x => h (x ▸ h')
      have : k ≠ j := Ne.symm h
      simp_all
    · simp [h', ih]

/-- Two updates of one key are one. -/
theorem Map.mod_mod (k : Nat) (f h : β → β) (m : Map β) :
    Map.mod k h (Map.mod k f m) = Map.mod k (fun x => h (f x)) m := by
  simp only [Map.mod, List.map_map]
  apply List.map_congr_left
  intro e _
  by_cases he : e.1 = k <;> simp [he]

theorem Map.mod_congr {k : Nat} {f h : β → β} (m : Map β) (e : ∀ x, f x = h x) : Map.mod k f m = Map.mod k h m := by
  have : f = h := funext e
  rw [this]

/-- Updates of two keys commute. -/
theorem Map.mod_comm {k j : Nat} (n : j ≠ k) (f h : β → β) (m : Map β) :
    Map.mod j h (Map.mod k f m) = Map.mod k f (Map.mod j h m) := by
  simp only [Map.mod, List.map_map]
  apply List.map_congr_left
  intro e _
  by_cases h1 : e.1 = k
  · have : e.1 ≠ j := fun x => n (x ▸ h1)
    have : k ≠ j := Ne.symm n
    simp_all
  · by_cases h2 : e.1 = j <;> simp_all

@[simp] theorem Map.mod_id (k : Nat) (m : Map β) : Map.mod k (fun x => x) m = m := by
  simp [Map.mod]

end Sys2Proof.Machine
end

