-- ==== Sys2Proof/Laws/Regs.lean ====
section
/-!
SUPPORT. Sys2Proof/Laws/Regs.lean: what writing a register, a flag or a predicate leaves alone, as the readers see it.
-/

namespace Sys2Proof.Machine

/-! ## Groups -/

@[simp] theorem group?_modGroup (s : State) (g : Nat) (f : Group → Group) :
    (s.modGroup g f).group? g = (s.group? g).map f := Map.get?_mod g f s.groups

theorem group?_modGroup_ne {g h : Nat} (n : h ≠ g) (s : State) (f : Group → Group) :
    (s.modGroup g f).group? h = s.group? h := Map.get?_mod_ne n f s.groups

theorem modGroup_modGroup (s : State) (g : Nat) (f h : Group → Group) :
    (s.modGroup g f).modGroup g h = s.modGroup g fun x => h (f x) := by
  simp only [State.modGroup, Map.mod_mod]

theorem modGroup_congr {s : State} {g : Nat} {f h : Group → Group} (e : ∀ x, f x = h x) :
    s.modGroup g f = s.modGroup g h := by rw [show f = h from funext e]

@[simp] theorem modGroup_self (s : State) (g : Nat) : (s.modGroup g fun x => x) = s := by
  simp [State.modGroup]

@[simp] theorem thread_modThread (g : Group) (l : Nat) (f : Thread → Thread) (h : (g.thread? l).isSome) :
    (g.modThread l f).thread l = f (g.thread l) := by
  simp only [Group.thread, Group.modThread, Group.thread?, Map.get] at *
  rw [Map.get?_mod]
  cases e : Map.get? g.threads l with
  | none => simp [e] at h
  | some t => rfl

theorem thread_modThread_ne {l k : Nat} (n : k ≠ l) (g : Group) (f : Thread → Thread) :
    (g.modThread l f).thread k = g.thread k := by
  simp only [Group.thread, Group.modThread, Map.get, Map.get?_mod_ne n]

/-- What `writeback` of one register does to its group. -/
def wrote (o : Opnd) (l : Nat) (w : Word) (g : Group) : Group :=
  match o with
  | .v n => g.modThread l fun t => { t with v := Map.put n.val w t.v }
  | .s n => { g with s := Map.put n.val w g.s }
  | .t n => g.modThread l fun t => { t with t := Map.put n.val w t.t }
  | .k _ | .lane | .hz | .opc | .rtime | .nul | .lit _ | .litNone => g

/-- Writing one register changes its group and nothing else. -/
theorem dst32_eq (s : State) (gid l : Nat) (o : Opnd) (w : Word) : s.dst32 gid l o w = s.modGroup gid (wrote o l w) := by
  cases o <;> simp only [State.dst32] <;> first | rfl | exact (modGroup_self s gid).symm

theorem raise_eq (s : State) (gid : Nat) (fl : Flags) :
    s.raise gid fl = s.modGroup gid fun g => { g with flags := g.flags ||| fl } := rfl

/-- Raising and writing a register do not meet. -/
theorem raise_dst32 (s : State) (gid l : Nat) (o : Opnd) (w : Word) (fl : Flags) :
    (s.dst32 gid l o w).raise gid fl = (s.raise gid fl).dst32 gid l o w := by
  simp only [dst32_eq, raise_eq, modGroup_modGroup]
  apply modGroup_congr
  intro g
  cases o <;> rfl

theorem raise_raise (s : State) (gid : Nat) (a b : Flags) : (s.raise gid a).raise gid b = s.raise gid (a ||| b) := by
  simp only [raise_eq, modGroup_modGroup, BitVec.or_assoc]

@[simp] theorem raise_zero (s : State) (gid : Nat) : s.raise gid 0 = s := by
  rw [raise_eq, modGroup_congr (h := fun g => g)] <;> simp

/-- What a run writes. -/
theorem raise_dstRun (s : State) (gid l : Nat) (o : Opnd) (ws : List Word) (fl : Flags) :
    (s.dstRun gid l o ws).raise gid fl = (s.raise gid fl).dstRun gid l o ws := by
  unfold State.dstRun
  generalize (List.range ws.length).zip ws = xs
  induction xs generalizing s with
  | nil => rfl
  | cons e xs ih => simp only [List.foldl_cons]; rw [ih, raise_dst32]

/-! ## A change of one group that lane `l` does not see -/

/-- Lane `l`'s readers find in `h` what they find in `g`. -/
structure Unseen (l : Nat) (g h : Group) : Prop where
  thread : h.thread l = g.thread l
  s : h.s = g.s
  p : h.p = g.p
  core : h.core = g.core
  trapen : h.trapen = g.trapen
  w : h.w = g.w

theorem Unseen.refl (l : Nat) (g : Group) : Unseen l g g := ⟨rfl, rfl, rfl, rfl, rfl, rfl⟩

theorem Unseen.trans {l : Nat} {g h k : Group} (a : Unseen l g h) (b : Unseen l h k) : Unseen l g k :=
  ⟨b.thread.trans a.thread, b.s.trans a.s, b.p.trans a.p, b.core.trans a.core, b.trapen.trans a.trapen, b.w.trans a.w⟩

/-- A destination that is not uniform. -/
def Opnd.laned (o : Opnd) : Prop := ∀ n, o ≠ .s n

theorem unseen_wrote {l k : Nat} (n : k ≠ l) {o : Opnd} (h : Opnd.laned o) (w : Word) (g : Group) :
    Unseen k g (wrote o l w g) := by
  cases o with
  | s n => exact absurd rfl (h n)
  | v _ => exact ⟨thread_modThread_ne n _ _, rfl, rfl, rfl, rfl, rfl⟩
  | t _ => exact ⟨thread_modThread_ne n _ _, rfl, rfl, rfl, rfl, rfl⟩
  | _ => exact Unseen.refl _ _

/-- Lane `l`'s readers of group `gid` find in `t` what they find in `s`. -/
structure Same (gid l : Nat) (s t : State) : Prop where
  group : ∃ f : Group → Group, t = s.modGroup gid f ∧ ∀ g, Unseen l g (f g)

theorem Same.refl (gid l : Nat) (s : State) : Same gid l s s :=
  ⟨fun g => g, (modGroup_self s gid).symm, fun g => Unseen.refl l g⟩

theorem Same.trans {gid l : Nat} {s t u : State} (a : Same gid l s t) (b : Same gid l t u) : Same gid l s u := by
  obtain ⟨f, rfl, hf⟩ := a.group
  obtain ⟨h, rfl, hh⟩ := b.group
  exact ⟨fun g => h (f g), modGroup_modGroup s gid f h, fun g => (hf g).trans (hh _)⟩

theorem Same.raise (gid l : Nat) (s : State) (fl : Flags) : Same gid l s (s.raise gid fl) :=
  ⟨_, raise_eq s gid fl, fun _ => ⟨rfl, rfl, rfl, rfl, rfl, rfl⟩⟩

theorem Same.dst32 {gid l k : Nat} (n : k ≠ l) {o : Opnd} (h : Opnd.laned o) (s : State) (w : Word) :
    Same gid k s (s.dst32 gid l o w) :=
  ⟨_, dst32_eq s gid l o w, fun g => unseen_wrote n h w g⟩

theorem Opnd.laned_plus {o : Opnd} (h : Opnd.laned o) (i : Nat) : Opnd.laned (o.plus i) := by
  intro n
  cases o with
  | s m => exact absurd rfl (h m)
  | _ => simp only [Opnd.plus]; first | (split <;> simp) | simp

theorem Same.dstRun {gid l k : Nat} (n : k ≠ l) {o : Opnd} (h : Opnd.laned o) (s : State) (ws : List Word) :
    Same gid k s (s.dstRun gid l o ws) := by
  unfold State.dstRun
  generalize (List.range ws.length).zip ws = xs
  induction xs generalizing s with
  | nil => exact Same.refl _ _ _
  | cons e xs ih => exact (Same.dst32 n (Opnd.laned_plus h _) s _).trans (ih _)

section

variable {gid l : Nat} {s t : State} (h : Same gid l s t)
include h

theorem Same.thread : t.thread gid l = s.thread gid l := by
  obtain ⟨f, rfl, hf⟩ := h.group
  simp only [State.thread, group?_modGroup]
  cases s.group? gid with
  | none => rfl
  | some g => exact (hf g).thread

theorem Same.hz : t.hz gid l = s.hz gid l := by
  obtain ⟨f, rfl, hf⟩ := h.group
  have ht := Same.thread h
  simp only [State.hz]
  rw [ht]
  rfl

theorem Same.cycOf : t.cycOf gid l = s.cycOf gid l := by
  obtain ⟨f, rfl, hf⟩ := h.group
  simp only [State.cycOf, group?_modGroup]
  cases s.group? gid with
  | none => rfl
  | some g => simp only [Option.map_some, (hf g).core]; rfl

theorem Same.tickOf : t.tickOf gid l = s.tickOf gid l := by
  have hc := Same.cycOf h
  obtain ⟨f, rfl, hf⟩ := h.group
  simp only [State.tickOf, group?_modGroup, hc]
  cases s.group? gid with
  | none => rfl
  | some g =>
    have e : pairOf (f g).core = pairOf g.core := by rw [(hf g).core]
    cases hcur : s.cur with
    | none => simp only [Option.map_some, State.modGroup, hcur]
    | some c => simp only [Option.map_some, State.modGroup, hcur, e, State.tickAt, State.pair]

/-- One operand. -/
theorem Same.src32 (o : Opnd) : t.src32 gid l o = s.src32 gid l o := by
  have h1 := Same.thread h
  have h2 := Same.hz h
  have h3 := Same.tickOf h
  cases o <;> simp only [State.src32, h1, h2, h3]
  obtain ⟨f, rfl, hf⟩ := h.group
  simp only [group?_modGroup]
  cases s.group? gid with
  | none => rfl
  | some g => simp only [Option.map_some, (hf g).s]

theorem Same.src64 (o : Opnd) (x : Bool) : t.src64 gid l o x = s.src64 gid l o x := by
  cases o <;> simp only [State.src64, Same.src32 h]

theorem Same.srcRun (o : Opnd) (n : Nat) : t.srcRun gid l o n = s.srcRun gid l o n := by
  simp only [State.srcRun, Same.src32 h]

theorem Same.srcT (ty : Ty) (o : Opnd) : t.srcT gid l ty o = s.srcT gid l ty o := by
  cases o <;> simp only [State.srcT, Same.src32 h]

theorem Same.srcT64 (ty : Ty) (o : Opnd) : t.srcT64 gid l ty o = s.srcT64 gid l ty o := by
  simp only [State.srcT64, Same.src64 h]

theorem Same.srcAny (ty : Ty) (o : Opnd) : t.srcAny gid l ty o = s.srcAny gid l ty o := by
  simp only [State.srcAny, Same.srcT h, Same.srcT64 h]

theorem Same.srcF (o : Opnd) : t.srcF gid l o = s.srcF gid l o := Same.srcT h .f32 o

/-- A predicate. -/
theorem Same.pred (k : Nat) :
    (match t.group? gid with | some g => g.pred k l | none => false)
      = (match s.group? gid with | some g => g.pred k l | none => false) := by
  obtain ⟨f, rfl, hf⟩ := h.group
  simp only [group?_modGroup]
  cases s.group? gid with
  | none => rfl
  | some g => simp only [Option.map_some, Group.pred, (hf g).p]

/-- Which raised flags trap. -/
theorem Same.fpTrap? (fl : Flags) : t.fpTrap? gid fl = s.fpTrap? gid fl := by
  obtain ⟨f, rfl, hf⟩ := h.group
  simp only [State.fpTrap?, group?_modGroup]
  cases s.group? gid with
  | none => rfl
  | some g => simp only [Option.map_some, (hf g).trapen]

end

end Sys2Proof.Machine
end

