-- ==== Sys2Proof/Laws/Slot.lean ====
section
/-!
SUPPORT. Sys2Proof/Laws/Slot.lean: what the frame of an instruction's slot comes to for a path that executes.
-/

namespace Sys2Proof.Machine

@[simp] theorem trapLanes_nil (s : State) (gid : Nat) (cls : TrapClass) (n : Nat) : s.trapLanes gid cls n [] = s := by
  cases n <;> rfl

@[simp] theorem advance_nil (s : State) (gid : Nat) : s.advance gid [] = s := rfl

theorem filterMap_none {α β : Type} (l : List α) : (l.filterMap fun _ => (none : Option β)) = [] := by
  induction l <;> simp_all

theorem findSome?_none {α β : Type} (l : List α) : (l.findSome? fun _ => (none : Option β)) = none := by
  induction l <;> simp_all

/-- Results that are all `next`: the path goes on. -/
theorem finish_next (s : State) (gid : Nat) (off on : List Nat) :
    s.finish gid off (on.map fun l => (l, LaneRes.next)) = s.goOn gid off on := by
  unfold State.finish
  split
  · rename_i x hx
    simp [List.findSome?_map, Function.comp_def, findSome?_none] at hx
  · simp [List.filterMap_map, Function.comp_def, State.goOn, filterMap_none]

/-- A path that executes: the body runs over its executing lanes. -/
theorem inSlot_executes {i : Instr} {p : Pre} {s : State} {c : Slot} {g : Group} {on off : List Nat} {s1 : State}
    (h : Executes i p s c g on off s1)
    (body : State → Slot → Group → List Nat → State × List (Nat × LaneRes)) :
    inSlot i p s body =
      .next ((body (s.began i c.gid g on) c g on).1.finish c.gid off (body (s.began i c.gid g on) c g on).2) := by
  have hbad : c.lanes.filterMap (fun l => (s.check i g l).map fun x => (l, LaneRes.trap x 0)) = [] := by
    rw [List.filterMap_eq_nil_iff]; intro l hl; simp [h.legal l hl]
  have hok : c.lanes.filter (fun l => (s.check i g l).isNone) = c.lanes := by
    rw [List.filter_eq_self]; intro l hl; simp [h.legal l hl]
  have hne := h.ran
  simp only [inSlot, h.cur, h.grp, hbad, hok, h.on_eq, h.off_eq, List.foldl_nil]
  cases on with
  | nil => exact absurd rfl hne
  | cons a r => rfl

/-- With the destination's names mapped, the body runs in the mapped state. -/
theorem withNames_executes {i : Instr} {p : Pre} {s : State} {c : Slot} {g : Group} {on off : List Nat} {s1 : State}
    (h : Executes i p s c g on off s1)
    (body : State → Slot → Group → List Nat → State × List (Nat × LaneRes)) :
    withNames i body (s.began i c.gid g on) c g on = body s1 c g on := by
  change (match (s.began i c.gid g on).mapNames c.gid (dstNames i g.w) with
    | .some t => body t c g on
    | .none => (s.began i c.gid g on, on.map fun l => (l, .stall (.block 1)))) = body s1 c g on
  rw [h.mapped]

/-- An instruction without vector destination runs in the state that it reads. -/
theorem Executes.start {i : Instr} {p : Pre} {s : State} {c : Slot} {g : Group} {on off : List Nat} {s1 : State}
    (h : Executes i p s c g on off s1) (hd : dstNames i g.w = []) : s.began i c.gid g on = s1 := by
  have hm := h.mapped
  rw [hd] at hm
  have hg : ∃ g', (s.began i c.gid g on).group? c.gid = some g' := by
    unfold State.began
    split
    · unfold State.latchRtime
      have : ∀ (ls : List Nat) (t : State), (∃ g', t.group? c.gid = some g') →
          ∃ g', (ls.foldl (fun s l => s.modThread c.gid l fun t =>
            { t with rtimeHi := some (BitVec.ofNat 32 (s.tickOf c.gid l / 2 ^ 32)) }) t).group? c.gid = some g' := by
        intro ls
        induction ls with
        | nil => intro t ht; exact ht
        | cons a ls ih =>
          intro t ⟨g', hg'⟩
          refine ih _ ?_
          simp [State.modThread, hg']
      exact this on s ⟨g, h.grp⟩
    · exact ⟨g, h.grp⟩
  obtain ⟨g', hg'⟩ := hg
  simpa [State.mapNames, hg'] using hm

end Sys2Proof.Machine
end

