-- ==== Sys2Proof/Laws/Alu.lean ====
section
/-!
SUPPORT. Sys2Proof/Laws/Alu.lean: everything that the frame `alu` can do for a path that executes without an enabled
flag.
-/

namespace Sys2Proof.Machine

/-- A value function that looks only at its own lane's registers and at the state outside the group's. -/
def OwnLane (f : State → Nat → Nat → List Word × Flags) : Prop :=
  ∀ s t gid l, Same gid l s t → f t gid l = f s gid l

/-- What `alu` does in one lane. -/
def aluLane (gid : Nat) (d : Opnd) (f : State → Nat → Nat → List Word × Flags) (s : State) (l : Nat) : State × LaneRes :=
  match (s.raise gid (f s gid l).2).fpTrap? gid (f s gid l).2 with
  | some c => (s.raise gid (f s gid l).2, .trap c 0)
  | none => ((s.raise gid (f s gid l).2).dstRun gid l d (f s gid l).1, .next)

/-- Runs of lanes that write their registers and raise flags: first all flags, then all registers. -/
theorem runLanes_writes {gid : Nat} {d : Opnd} (hd : Opnd.laned d) {f : State → Nat → Nat → List Word × Flags}
    (hf : OwnLane f) (s0 : State) :
    ∀ (ls : List Nat) (s : State) (acc : List (Nat × LaneRes)), ls.Nodup →
      (∀ l ∈ ls, Same gid l s0 s) → (∀ l ∈ ls, s0.fpTrap? gid (f s0 gid l).2 = none) →
      ls.foldl (fun (r : State × List (Nat × LaneRes)) l =>
        ((aluLane gid d f r.1 l).1, r.2 ++ [(l, (aluLane gid d f r.1 l).2)])) (s, acc)
      = (ls.foldl (fun t l => t.dstRun gid l d (f s0 gid l).1)
          (s.raise gid (ls.foldl (fun x l => x ||| (f s0 gid l).2) 0)),
         acc ++ ls.map fun l => (l, LaneRes.next)) := by
  intro ls
  induction ls with
  | nil => intro s acc _ _ _; simp only [List.foldl_nil, List.map_nil, List.append_nil, raise_zero]
  | cons l ls ih =>
    intro s acc hn hs ht
    have hfl : f s gid l = f s0 gid l := hf _ _ _ _ (hs l (by simp))
    have htr : (s.raise gid (f s0 gid l).2).fpTrap? gid (f s0 gid l).2 = none := by
      rw [((hs l (by simp)).trans (Same.raise gid l s _)).fpTrap?]; exact ht l (by simp)
    have hnd := List.nodup_cons.mp hn
    simp only [List.foldl_cons, aluLane, hfl, htr]
    change ls.foldl (fun (r : State × List (Nat × LaneRes)) l =>
        ((aluLane gid d f r.1 l).1, r.2 ++ [(l, (aluLane gid d f r.1 l).2)])) _ = _
    rw [ih]
    · have hz : ∀ (x : Flags), ls.foldl (fun x l => x ||| (f s0 gid l).2) x
          = x ||| ls.foldl (fun x l => x ||| (f s0 gid l).2) 0 := by
        clear ih hn hs ht hnd
        induction ls with
        | nil => intro x; simp
        | cons a r ih => intro x; simp only [List.foldl_cons]; rw [ih, ih (0 ||| _)]; simp [BitVec.or_assoc]
      rw [hz (0 ||| (f s0 gid l).2), raise_dstRun, raise_raise]
      simp
    · exact hnd.2
    · intro k hk
      have hkl : k ≠ l := fun e => hnd.1 (e ▸ hk)
      exact ((hs k (by simp [hk])).trans (Same.raise gid k s _)).trans (Same.dstRun hkl hd _ _)
    · intro k hk; exact ht k (by simp [hk])

theorem need_perPath_byDst {n : Need} (h : n.mode = .byDst) : n.perPath = n.uniDst := by simp [Need.perPath, h]

theorem laned_of_not_uniDst {n : Need} {d : Opnd} {k : Nat} (h : n.dst = some (d, k)) (u : n.uniDst = false) :
    Opnd.laned d := by
  rintro m rfl
  simp [Need.uniDst, h] at u

/-- Everything that `alu` does for a path that executes and raises no enabled flag (R51, R112, R198). -/
theorem alu_executes {i : Instr} {p : Pre} {d : Opnd} {f : State → Nat → Nat → List Word × Flags}
    (hf : OwnLane f) (hm : ∀ w, (i.need w).mode = .byDst) (hd : ∀ w, ∃ k, (i.need w).dst = some (d, k))
    {s : State} {c : Slot} {g : Group} {on off : List Nat} {s1 : State} (h : Executes i p s c g on off s1)
    (ht : ∀ l ∈ doers i g on, s1.fpTrap? c.gid (f s1 c.gid l).2 = none) :
    alu i p d f s = .next (((doers i g on).foldl (fun t l => t.dstRun c.gid l d (f s1 c.gid l).1)
      (s1.raise c.gid ((doers i g on).foldl (fun x l => x ||| (f s1 c.gid l).2) 0))).goOn c.gid off on) := by
  have hon : on.Nodup := h.on_eq ▸ h.nodup.filter _
  obtain ⟨k, hk⟩ := hd g.w
  unfold alu
  rw [inSlot_executes h, withNames_executes h]
  unfold perLane
  by_cases hp : (i.need g.w).perPath = true
  · simp only [doers, hp, if_true] at ht ⊢
    obtain ⟨a, r, rfl⟩ := List.exists_cons_of_ne_nil h.ran
    have ha := ht a (by simp)
    have hr : (s1.raise c.gid (f s1 c.gid a).2).fpTrap? c.gid (f s1 c.gid a).2 = none := by
      rw [(Same.raise c.gid a s1 _).fpTrap?]; exact ha
    simp only [hr, finish_next]
    simp
  · have hp' : (i.need g.w).perPath = false := by simpa using hp
    have hl : Opnd.laned d := laned_of_not_uniDst hk (by rw [← need_perPath_byDst (hm g.w)]; exact hp')
    simp only [doers, hp', Bool.false_eq_true, if_false] at ht ⊢
    have hrun := runLanes_writes (gid := c.gid) hl hf s1 on s1 [] hon (fun l _ => Same.refl _ _ _) ht
    change Host.Outcome.next ((on.foldl (fun (r : State × List (Nat × LaneRes)) l =>
        ((aluLane c.gid d f r.1 l).1, r.2 ++ [(l, (aluLane c.gid d f r.1 l).2)])) (s1, [])).1.finish c.gid off
      (on.foldl (fun (r : State × List (Nat × LaneRes)) l =>
        ((aluLane c.gid d f r.1 l).1, r.2 ++ [(l, (aluLane c.gid d f r.1 l).2)])) (s1, [])).2) = _
    rw [hrun]
    simp only [List.nil_append, finish_next]

end Sys2Proof.Machine
end

