-- ==== Sys2Proof/Laws/Issue.lean ====
section
/-!
SUPPORT. Sys2Proof/Laws/Issue.lean: everything that the frames of the fallible instructions (`issueS`, `issue`,
`asyncIssue`) can do for a path that executes: the path waits, or its operations are in flight and it goes on.
-/

namespace Sys2Proof.Machine

theorem doers_ne_nil {i : Instr} {p : Pre} {s : State} {c : Slot} {g : Group} {on off : List Nat} {s1 : State}
    (h : Executes i p s c g on off s1) : doers i g on ≠ [] := by
  obtain ⟨a, r, rfl⟩ := List.exists_cons_of_ne_nil h.ran
  unfold doers
  split <;> simp

theorem filterMap_some {α β : Type} (f : α → β) (ls : List α) : (ls.filterMap fun x => some (f x)) = ls.map f := by
  induction ls <;> simp_all

/-- A path whose issue is held back (R25, R69): every executing thread waits at the instruction. -/
theorem issue_stalls {i : Instr} {p : Pre} {start : State → Nat → State} {a b : Bool} {f : State → Nat → Nat → Issue}
    {s : State} {c : Slot} {g : Group} {on off : List Nat} {s1 : State} (h : Executes i p s c g on off s1) {x : Stall}
    (hst : s1.issueStall c on a b = some x) :
    issue i p start a b f s = .next (s1.finish c.gid off (on.map fun l => (l, .stall x))) := by
  unfold issue issueS
  rw [inSlot_executes h, withNames_executes h]
  simp only [hst]

/-- Where nothing holds the issue back and every computing lane's checks pass, the operations are in flight, the flags of
the clause have risen once, and the path goes on (R9, R41, R69). -/
theorem issue_executes {i : Instr} {p : Pre} {start : State → Nat → State} {a b : Bool} {f : State → Nat → Nat → Issue}
    {s : State} {c : Slot} {g : Group} {on off : List Nat} {s1 : State} (h : Executes i p s c g on off s1)
    (hst : s1.issueStall c on a b = none) {r : Nat → Req}
    (hf : ∀ l ∈ doers i g on, f s1.fresh.2 c.gid l = .ok (r l)) :
    issue i p start a b f s = .next ((s1.issued start c g a b (i.need g.w).perPath on
      ((doers i g on).map fun l => (l, r l))).goOn c.gid off on) := by
  have hne := doers_ne_nil h
  have htried : ∀ (ls : List Nat) (acc : List (Nat × Issue)), (∀ l ∈ ls, f s1.fresh.2 c.gid l = .ok (r l)) →
      ls.foldl (fun (q : State × List (Nat × Issue)) l => (q.1, q.2 ++ [(l, f q.1 c.gid l)])) (s1.fresh.2, acc)
        = (s1.fresh.2, acc ++ ls.map fun l => (l, .ok (r l))) := by
    intro ls
    induction ls with
    | nil => intro acc _; simp
    | cons l ls ih =>
      intro acc hl
      simp only [List.foldl_cons, hl l (by simp)]
      rw [ih _ fun k hk => hl k (by simp [hk])]
      simp
  unfold issue issueS
  rw [inSlot_executes h, withNames_executes h]
  simp only [hst]
  have e := htried (doers i g on) [] hf
  unfold doers at e hne ⊢
  simp only [e, List.nil_append, List.filterMap_map, Function.comp_def, List.find?_map]
  rw [filterMap_some]
  rw [if_neg (by simpa using hne), ← finish_next (on := on)]
  refine congrArg Host.Outcome.next (congrArg _ ?_)
  apply List.map_congr_left
  intro l _
  congr 1
  cases (if (i.need g.w).perPath = true then on.take 1 else on).find? fun k =>
      (i.need g.w).perPath || decide (k = l) <;> rfl

/-- An asynchronous instruction whose issue is held back, or whose lanes find no free slots (R174): every executing thread
waits at the instruction. -/
theorem asyncIssue_stalls {i : Instr} {p : Pre} {d : Opnd} {f : State → Nat → Nat → Except LaneRes AReq} {s : State}
    {c : Slot} {g : Group} {on off : List Nat} {s1 : State} (h : Executes i p s c g on off s1) {x : Stall}
    (hst : s1.issueStall c on true true = some x) :
    asyncIssue i p d f s = .next (s1.finish c.gid off (on.map fun l => (l, .stall x))) := by
  unfold asyncIssue
  rw [inSlot_executes h, withNames_executes h]
  simp only [hst]

/-- Where nothing holds the issue back, slots are free for the lanes and every lane's checks pass, each lane's operation is
in flight with its ticket and promise, and the path goes on (R174). -/
theorem asyncIssue_executes {i : Instr} {p : Pre} {d : Opnd} {f : State → Nat → Nat → Except LaneRes AReq} {s : State}
    {c : Slot} {g : Group} {on off : List Nat} {s1 : State} (h : Executes i p s c g on off s1)
    (hst : s1.issueStall c on true true = none) (hfree : on.length ≤ (s1.freeSlots g.core).length) {r : Nat → AReq}
    (hf : ∀ l ∈ on, f s1 c.gid l = .ok (r l)) :
    asyncIssue i p d f s = .next ((s1.fresh.2.executing c s1.fresh.1 true true fun t =>
      on.foldl (fun t l => t.issueAsync c g s1.fresh.1 l d (r l)) t).goOn c.gid off on) := by
  have htried : (on.map fun l => (l, f s1 c.gid l)) = on.map fun l => (l, .ok (r l)) :=
    List.map_congr_left fun l hl => by rw [hf l hl]
  unfold asyncIssue
  rw [inSlot_executes h, withNames_executes h]
  simp only [htried, hst, List.filterMap_map, Function.comp_def, List.map_map]
  rw [filterMap_some, List.length_map, if_neg (Nat.not_lt.mpr hfree)]
  simp only [List.foldl_map, List.isEmpty_map]
  rw [if_neg (by simpa using h.ran), ← finish_next (on := on)]

end Sys2Proof.Machine
end

