-- ==== Sys2Proof/Laws/State.lean ====
section
/-!
SUPPORT. Sys2Proof/Laws/State.lean: what each update of a part of the state leaves in each field.
-/

namespace Sys2Proof.Machine

/-! ### `modGroup` -/

section

variable (s : State) (g : Nat) (f : Group → Group)

@[simp] theorem modGroup_rtime : (s.modGroup g f).rtime = s.rtime := rfl
@[simp] theorem modGroup_boot : (s.modGroup g f).boot = s.boot := rfl
@[simp] theorem modGroup_deviceIndex : (s.modGroup g f).deviceIndex = s.deviceIndex := rfl
@[simp] theorem modGroup_massifId : (s.modGroup g f).massifId = s.massifId := rfl
@[simp] theorem modGroup_dies : (s.modGroup g f).dies = s.dies := rfl
@[simp] theorem modGroup_pairs : (s.modGroup g f).pairs = s.pairs := rfl
@[simp] theorem modGroup_snap : (s.modGroup g f).snap = s.snap := rfl
@[simp] theorem modGroup_mem : (s.modGroup g f).mem = s.mem := rfl
@[simp] theorem modGroup_poison : (s.modGroup g f).poison = s.poison := rfl
@[simp] theorem modGroup_tlb : (s.modGroup g f).tlb = s.tlb := rfl
@[simp] theorem modGroup_walks : (s.modGroup g f).walks = s.walks := rfl
@[simp] theorem modGroup_moving : (s.modGroup g f).moving = s.moving := rfl
@[simp] theorem modGroup_unread : (s.modGroup g f).unread = s.unread := rfl
@[simp] theorem modGroup_near : (s.modGroup g f).near = s.near := rfl
@[simp] theorem modGroup_replQ : (s.modGroup g f).replQ = s.replQ := rfl
@[simp] theorem modGroup_replBad : (s.modGroup g f).replBad = s.replBad := rfl
@[simp] theorem modGroup_images : (s.modGroup g f).images = s.images := rfl
@[simp] theorem modGroup_promo : (s.modGroup g f).promo = s.promo := rfl
@[simp] theorem modGroup_cxlOut : (s.modGroup g f).cxlOut = s.cxlOut := rfl
@[simp] theorem modGroup_mgroups : (s.modGroup g f).mgroups = s.mgroups := rfl
@[simp] theorem modGroup_planesOff : (s.modGroup g f).planesOff = s.planesOff := rfl
@[simp] theorem modGroup_links : (s.modGroup g f).links = s.links := rfl
@[simp] theorem modGroup_outbox : (s.modGroup g f).outbox = s.outbox := rfl
@[simp] theorem modGroup_serving : (s.modGroup g f).serving = s.serving := rfl
@[simp] theorem modGroup_fifo : (s.modGroup g f).fifo = s.fifo := rfl
@[simp] theorem modGroup_members : (s.modGroup g f).members = s.members := rfl
@[simp] theorem modGroup_progs : (s.modGroup g f).progs = s.progs := rfl
@[simp] theorem modGroup_reserved : (s.modGroup g f).reserved = s.reserved := rfl
@[simp] theorem modGroup_saves : (s.modGroup g f).saves = s.saves := rfl
@[simp] theorem modGroup_energyEnd : (s.modGroup g f).energyEnd = s.energyEnd := rfl
@[simp] theorem modGroup_fatals : (s.modGroup g f).fatals = s.fatals := rfl
@[simp] theorem modGroup_ops : (s.modGroup g f).ops = s.ops := rfl
@[simp] theorem modGroup_banks : (s.modGroup g f).banks = s.banks := rfl
@[simp] theorem modGroup_bankBusy : (s.modGroup g f).bankBusy = s.bankBusy := rfl
@[simp] theorem modGroup_lends : (s.modGroup g f).lends = s.lends := rfl
@[simp] theorem modGroup_ctxs : (s.modGroup g f).ctxs = s.ctxs := rfl
@[simp] theorem modGroup_grids : (s.modGroup g f).grids = s.grids := rfl
@[simp] theorem modGroup_clusters : (s.modGroup g f).clusters = s.clusters := rfl
@[simp] theorem modGroup_teams : (s.modGroup g f).teams = s.teams := rfl
@[simp] theorem modGroup_groups : (s.modGroup g f).groups = Map.mod g f s.groups := rfl
@[simp] theorem modGroup_cores : (s.modGroup g f).cores = s.cores := rfl
@[simp] theorem modGroup_freeCtr : (s.modGroup g f).freeCtr = s.freeCtr := rfl
@[simp] theorem modGroup_nextId : (s.modGroup g f).nextId = s.nextId := rfl
@[simp] theorem modGroup_sel : (s.modGroup g f).sel = s.sel := rfl
@[simp] theorem modGroup_cur : (s.modGroup g f).cur = s.cur := rfl
@[simp] theorem modGroup_issue : (s.modGroup g f).issue = s.issue := rfl
@[simp] theorem modGroup_opening : (s.modGroup g f).opening = s.opening := rfl
@[simp] theorem modGroup_agenda : (s.modGroup g f).agenda = s.agenda := rfl

end

/-! ### `modThread` -/

section

variable (s : State) (g l : Nat) (f : Thread → Thread)

@[simp] theorem modThread_rtime : (s.modThread g l f).rtime = s.rtime := rfl
@[simp] theorem modThread_boot : (s.modThread g l f).boot = s.boot := rfl
@[simp] theorem modThread_deviceIndex : (s.modThread g l f).deviceIndex = s.deviceIndex := rfl
@[simp] theorem modThread_massifId : (s.modThread g l f).massifId = s.massifId := rfl
@[simp] theorem modThread_dies : (s.modThread g l f).dies = s.dies := rfl
@[simp] theorem modThread_pairs : (s.modThread g l f).pairs = s.pairs := rfl
@[simp] theorem modThread_snap : (s.modThread g l f).snap = s.snap := rfl
@[simp] theorem modThread_mem : (s.modThread g l f).mem = s.mem := rfl
@[simp] theorem modThread_poison : (s.modThread g l f).poison = s.poison := rfl
@[simp] theorem modThread_tlb : (s.modThread g l f).tlb = s.tlb := rfl
@[simp] theorem modThread_walks : (s.modThread g l f).walks = s.walks := rfl
@[simp] theorem modThread_moving : (s.modThread g l f).moving = s.moving := rfl
@[simp] theorem modThread_unread : (s.modThread g l f).unread = s.unread := rfl
@[simp] theorem modThread_near : (s.modThread g l f).near = s.near := rfl
@[simp] theorem modThread_replQ : (s.modThread g l f).replQ = s.replQ := rfl
@[simp] theorem modThread_replBad : (s.modThread g l f).replBad = s.replBad := rfl
@[simp] theorem modThread_images : (s.modThread g l f).images = s.images := rfl
@[simp] theorem modThread_promo : (s.modThread g l f).promo = s.promo := rfl
@[simp] theorem modThread_cxlOut : (s.modThread g l f).cxlOut = s.cxlOut := rfl
@[simp] theorem modThread_mgroups : (s.modThread g l f).mgroups = s.mgroups := rfl
@[simp] theorem modThread_planesOff : (s.modThread g l f).planesOff = s.planesOff := rfl
@[simp] theorem modThread_links : (s.modThread g l f).links = s.links := rfl
@[simp] theorem modThread_outbox : (s.modThread g l f).outbox = s.outbox := rfl
@[simp] theorem modThread_serving : (s.modThread g l f).serving = s.serving := rfl
@[simp] theorem modThread_fifo : (s.modThread g l f).fifo = s.fifo := rfl
@[simp] theorem modThread_members : (s.modThread g l f).members = s.members := rfl
@[simp] theorem modThread_progs : (s.modThread g l f).progs = s.progs := rfl
@[simp] theorem modThread_reserved : (s.modThread g l f).reserved = s.reserved := rfl
@[simp] theorem modThread_saves : (s.modThread g l f).saves = s.saves := rfl
@[simp] theorem modThread_energyEnd : (s.modThread g l f).energyEnd = s.energyEnd := rfl
@[simp] theorem modThread_fatals : (s.modThread g l f).fatals = s.fatals := rfl
@[simp] theorem modThread_ops : (s.modThread g l f).ops = s.ops := rfl
@[simp] theorem modThread_banks : (s.modThread g l f).banks = s.banks := rfl
@[simp] theorem modThread_bankBusy : (s.modThread g l f).bankBusy = s.bankBusy := rfl
@[simp] theorem modThread_lends : (s.modThread g l f).lends = s.lends := rfl
@[simp] theorem modThread_ctxs : (s.modThread g l f).ctxs = s.ctxs := rfl
@[simp] theorem modThread_grids : (s.modThread g l f).grids = s.grids := rfl
@[simp] theorem modThread_clusters : (s.modThread g l f).clusters = s.clusters := rfl
@[simp] theorem modThread_teams : (s.modThread g l f).teams = s.teams := rfl
@[simp] theorem modThread_groups : (s.modThread g l f).groups = Map.mod g (fun x => x.modThread l f) s.groups := rfl
@[simp] theorem modThread_cores : (s.modThread g l f).cores = s.cores := rfl
@[simp] theorem modThread_freeCtr : (s.modThread g l f).freeCtr = s.freeCtr := rfl
@[simp] theorem modThread_nextId : (s.modThread g l f).nextId = s.nextId := rfl
@[simp] theorem modThread_sel : (s.modThread g l f).sel = s.sel := rfl
@[simp] theorem modThread_cur : (s.modThread g l f).cur = s.cur := rfl
@[simp] theorem modThread_issue : (s.modThread g l f).issue = s.issue := rfl
@[simp] theorem modThread_opening : (s.modThread g l f).opening = s.opening := rfl
@[simp] theorem modThread_agenda : (s.modThread g l f).agenda = s.agenda := rfl

end

/-! ### `modTeam` -/

section

variable (s : State) (k : Nat) (f : Team → Team)

@[simp] theorem modTeam_rtime : (s.modTeam k f).rtime = s.rtime := rfl
@[simp] theorem modTeam_boot : (s.modTeam k f).boot = s.boot := rfl
@[simp] theorem modTeam_deviceIndex : (s.modTeam k f).deviceIndex = s.deviceIndex := rfl
@[simp] theorem modTeam_massifId : (s.modTeam k f).massifId = s.massifId := rfl
@[simp] theorem modTeam_dies : (s.modTeam k f).dies = s.dies := rfl
@[simp] theorem modTeam_pairs : (s.modTeam k f).pairs = s.pairs := rfl
@[simp] theorem modTeam_snap : (s.modTeam k f).snap = s.snap := rfl
@[simp] theorem modTeam_mem : (s.modTeam k f).mem = s.mem := rfl
@[simp] theorem modTeam_poison : (s.modTeam k f).poison = s.poison := rfl
@[simp] theorem modTeam_tlb : (s.modTeam k f).tlb = s.tlb := rfl
@[simp] theorem modTeam_walks : (s.modTeam k f).walks = s.walks := rfl
@[simp] theorem modTeam_moving : (s.modTeam k f).moving = s.moving := rfl
@[simp] theorem modTeam_unread : (s.modTeam k f).unread = s.unread := rfl
@[simp] theorem modTeam_near : (s.modTeam k f).near = s.near := rfl
@[simp] theorem modTeam_replQ : (s.modTeam k f).replQ = s.replQ := rfl
@[simp] theorem modTeam_replBad : (s.modTeam k f).replBad = s.replBad := rfl
@[simp] theorem modTeam_images : (s.modTeam k f).images = s.images := rfl
@[simp] theorem modTeam_promo : (s.modTeam k f).promo = s.promo := rfl
@[simp] theorem modTeam_cxlOut : (s.modTeam k f).cxlOut = s.cxlOut := rfl
@[simp] theorem modTeam_mgroups : (s.modTeam k f).mgroups = s.mgroups := rfl
@[simp] theorem modTeam_planesOff : (s.modTeam k f).planesOff = s.planesOff := rfl
@[simp] theorem modTeam_links : (s.modTeam k f).links = s.links := rfl
@[simp] theorem modTeam_outbox : (s.modTeam k f).outbox = s.outbox := rfl
@[simp] theorem modTeam_serving : (s.modTeam k f).serving = s.serving := rfl
@[simp] theorem modTeam_fifo : (s.modTeam k f).fifo = s.fifo := rfl
@[simp] theorem modTeam_members : (s.modTeam k f).members = s.members := rfl
@[simp] theorem modTeam_progs : (s.modTeam k f).progs = s.progs := rfl
@[simp] theorem modTeam_reserved : (s.modTeam k f).reserved = s.reserved := rfl
@[simp] theorem modTeam_saves : (s.modTeam k f).saves = s.saves := rfl
@[simp] theorem modTeam_energyEnd : (s.modTeam k f).energyEnd = s.energyEnd := rfl
@[simp] theorem modTeam_fatals : (s.modTeam k f).fatals = s.fatals := rfl
@[simp] theorem modTeam_ops : (s.modTeam k f).ops = s.ops := rfl
@[simp] theorem modTeam_banks : (s.modTeam k f).banks = s.banks := rfl
@[simp] theorem modTeam_bankBusy : (s.modTeam k f).bankBusy = s.bankBusy := rfl
@[simp] theorem modTeam_lends : (s.modTeam k f).lends = s.lends := rfl
@[simp] theorem modTeam_ctxs : (s.modTeam k f).ctxs = s.ctxs := rfl
@[simp] theorem modTeam_grids : (s.modTeam k f).grids = s.grids := rfl
@[simp] theorem modTeam_clusters : (s.modTeam k f).clusters = s.clusters := rfl
@[simp] theorem modTeam_teams : (s.modTeam k f).teams = Map.mod k f s.teams := rfl
@[simp] theorem modTeam_groups : (s.modTeam k f).groups = s.groups := rfl
@[simp] theorem modTeam_cores : (s.modTeam k f).cores = s.cores := rfl
@[simp] theorem modTeam_freeCtr : (s.modTeam k f).freeCtr = s.freeCtr := rfl
@[simp] theorem modTeam_nextId : (s.modTeam k f).nextId = s.nextId := rfl
@[simp] theorem modTeam_sel : (s.modTeam k f).sel = s.sel := rfl
@[simp] theorem modTeam_cur : (s.modTeam k f).cur = s.cur := rfl
@[simp] theorem modTeam_issue : (s.modTeam k f).issue = s.issue := rfl
@[simp] theorem modTeam_opening : (s.modTeam k f).opening = s.opening := rfl
@[simp] theorem modTeam_agenda : (s.modTeam k f).agenda = s.agenda := rfl

end

/-! ### `modCtx` -/

section

variable (s : State) (k : Nat) (f : Ctx → Ctx)

@[simp] theorem modCtx_rtime : (s.modCtx k f).rtime = s.rtime := rfl
@[simp] theorem modCtx_boot : (s.modCtx k f).boot = s.boot := rfl
@[simp] theorem modCtx_deviceIndex : (s.modCtx k f).deviceIndex = s.deviceIndex := rfl
@[simp] theorem modCtx_massifId : (s.modCtx k f).massifId = s.massifId := rfl
@[simp] theorem modCtx_dies : (s.modCtx k f).dies = s.dies := rfl
@[simp] theorem modCtx_pairs : (s.modCtx k f).pairs = s.pairs := rfl
@[simp] theorem modCtx_snap : (s.modCtx k f).snap = s.snap := rfl
@[simp] theorem modCtx_mem : (s.modCtx k f).mem = s.mem := rfl
@[simp] theorem modCtx_poison : (s.modCtx k f).poison = s.poison := rfl
@[simp] theorem modCtx_tlb : (s.modCtx k f).tlb = s.tlb := rfl
@[simp] theorem modCtx_walks : (s.modCtx k f).walks = s.walks := rfl
@[simp] theorem modCtx_moving : (s.modCtx k f).moving = s.moving := rfl
@[simp] theorem modCtx_unread : (s.modCtx k f).unread = s.unread := rfl
@[simp] theorem modCtx_near : (s.modCtx k f).near = s.near := rfl
@[simp] theorem modCtx_replQ : (s.modCtx k f).replQ = s.replQ := rfl
@[simp] theorem modCtx_replBad : (s.modCtx k f).replBad = s.replBad := rfl
@[simp] theorem modCtx_images : (s.modCtx k f).images = s.images := rfl
@[simp] theorem modCtx_promo : (s.modCtx k f).promo = s.promo := rfl
@[simp] theorem modCtx_cxlOut : (s.modCtx k f).cxlOut = s.cxlOut := rfl
@[simp] theorem modCtx_mgroups : (s.modCtx k f).mgroups = s.mgroups := rfl
@[simp] theorem modCtx_planesOff : (s.modCtx k f).planesOff = s.planesOff := rfl
@[simp] theorem modCtx_links : (s.modCtx k f).links = s.links := rfl
@[simp] theorem modCtx_outbox : (s.modCtx k f).outbox = s.outbox := rfl
@[simp] theorem modCtx_serving : (s.modCtx k f).serving = s.serving := rfl
@[simp] theorem modCtx_fifo : (s.modCtx k f).fifo = s.fifo := rfl
@[simp] theorem modCtx_members : (s.modCtx k f).members = s.members := rfl
@[simp] theorem modCtx_progs : (s.modCtx k f).progs = s.progs := rfl
@[simp] theorem modCtx_reserved : (s.modCtx k f).reserved = s.reserved := rfl
@[simp] theorem modCtx_saves : (s.modCtx k f).saves = s.saves := rfl
@[simp] theorem modCtx_energyEnd : (s.modCtx k f).energyEnd = s.energyEnd := rfl
@[simp] theorem modCtx_fatals : (s.modCtx k f).fatals = s.fatals := rfl
@[simp] theorem modCtx_ops : (s.modCtx k f).ops = s.ops := rfl
@[simp] theorem modCtx_banks : (s.modCtx k f).banks = s.banks := rfl
@[simp] theorem modCtx_bankBusy : (s.modCtx k f).bankBusy = s.bankBusy := rfl
@[simp] theorem modCtx_lends : (s.modCtx k f).lends = s.lends := rfl
@[simp] theorem modCtx_ctxs : (s.modCtx k f).ctxs = Map.mod k f s.ctxs := rfl
@[simp] theorem modCtx_grids : (s.modCtx k f).grids = s.grids := rfl
@[simp] theorem modCtx_clusters : (s.modCtx k f).clusters = s.clusters := rfl
@[simp] theorem modCtx_teams : (s.modCtx k f).teams = s.teams := rfl
@[simp] theorem modCtx_groups : (s.modCtx k f).groups = s.groups := rfl
@[simp] theorem modCtx_cores : (s.modCtx k f).cores = s.cores := rfl
@[simp] theorem modCtx_freeCtr : (s.modCtx k f).freeCtr = s.freeCtr := rfl
@[simp] theorem modCtx_nextId : (s.modCtx k f).nextId = s.nextId := rfl
@[simp] theorem modCtx_sel : (s.modCtx k f).sel = s.sel := rfl
@[simp] theorem modCtx_cur : (s.modCtx k f).cur = s.cur := rfl
@[simp] theorem modCtx_issue : (s.modCtx k f).issue = s.issue := rfl
@[simp] theorem modCtx_opening : (s.modCtx k f).opening = s.opening := rfl
@[simp] theorem modCtx_agenda : (s.modCtx k f).agenda = s.agenda := rfl

end

/-! ### `modCore` -/

section

variable (s : State) (k : Nat) (f : Core → Core)

@[simp] theorem modCore_rtime : (s.modCore k f).rtime = s.rtime := rfl
@[simp] theorem modCore_boot : (s.modCore k f).boot = s.boot := rfl
@[simp] theorem modCore_deviceIndex : (s.modCore k f).deviceIndex = s.deviceIndex := rfl
@[simp] theorem modCore_massifId : (s.modCore k f).massifId = s.massifId := rfl
@[simp] theorem modCore_dies : (s.modCore k f).dies = s.dies := rfl
@[simp] theorem modCore_pairs : (s.modCore k f).pairs = s.pairs := rfl
@[simp] theorem modCore_snap : (s.modCore k f).snap = s.snap := rfl
@[simp] theorem modCore_mem : (s.modCore k f).mem = s.mem := rfl
@[simp] theorem modCore_poison : (s.modCore k f).poison = s.poison := rfl
@[simp] theorem modCore_tlb : (s.modCore k f).tlb = s.tlb := rfl
@[simp] theorem modCore_walks : (s.modCore k f).walks = s.walks := rfl
@[simp] theorem modCore_moving : (s.modCore k f).moving = s.moving := rfl
@[simp] theorem modCore_unread : (s.modCore k f).unread = s.unread := rfl
@[simp] theorem modCore_near : (s.modCore k f).near = s.near := rfl
@[simp] theorem modCore_replQ : (s.modCore k f).replQ = s.replQ := rfl
@[simp] theorem modCore_replBad : (s.modCore k f).replBad = s.replBad := rfl
@[simp] theorem modCore_images : (s.modCore k f).images = s.images := rfl
@[simp] theorem modCore_promo : (s.modCore k f).promo = s.promo := rfl
@[simp] theorem modCore_cxlOut : (s.modCore k f).cxlOut = s.cxlOut := rfl
@[simp] theorem modCore_mgroups : (s.modCore k f).mgroups = s.mgroups := rfl
@[simp] theorem modCore_planesOff : (s.modCore k f).planesOff = s.planesOff := rfl
@[simp] theorem modCore_links : (s.modCore k f).links = s.links := rfl
@[simp] theorem modCore_outbox : (s.modCore k f).outbox = s.outbox := rfl
@[simp] theorem modCore_serving : (s.modCore k f).serving = s.serving := rfl
@[simp] theorem modCore_fifo : (s.modCore k f).fifo = s.fifo := rfl
@[simp] theorem modCore_members : (s.modCore k f).members = s.members := rfl
@[simp] theorem modCore_progs : (s.modCore k f).progs = s.progs := rfl
@[simp] theorem modCore_reserved : (s.modCore k f).reserved = s.reserved := rfl
@[simp] theorem modCore_saves : (s.modCore k f).saves = s.saves := rfl
@[simp] theorem modCore_energyEnd : (s.modCore k f).energyEnd = s.energyEnd := rfl
@[simp] theorem modCore_fatals : (s.modCore k f).fatals = s.fatals := rfl
@[simp] theorem modCore_ops : (s.modCore k f).ops = s.ops := rfl
@[simp] theorem modCore_banks : (s.modCore k f).banks = s.banks := rfl
@[simp] theorem modCore_bankBusy : (s.modCore k f).bankBusy = s.bankBusy := rfl
@[simp] theorem modCore_lends : (s.modCore k f).lends = s.lends := rfl
@[simp] theorem modCore_ctxs : (s.modCore k f).ctxs = s.ctxs := rfl
@[simp] theorem modCore_grids : (s.modCore k f).grids = s.grids := rfl
@[simp] theorem modCore_clusters : (s.modCore k f).clusters = s.clusters := rfl
@[simp] theorem modCore_teams : (s.modCore k f).teams = s.teams := rfl
@[simp] theorem modCore_groups : (s.modCore k f).groups = s.groups := rfl
@[simp] theorem modCore_cores : (s.modCore k f).cores = Map.put k (f (s.core k)) s.cores := rfl
@[simp] theorem modCore_freeCtr : (s.modCore k f).freeCtr = s.freeCtr := rfl
@[simp] theorem modCore_nextId : (s.modCore k f).nextId = s.nextId := rfl
@[simp] theorem modCore_sel : (s.modCore k f).sel = s.sel := rfl
@[simp] theorem modCore_cur : (s.modCore k f).cur = s.cur := rfl
@[simp] theorem modCore_issue : (s.modCore k f).issue = s.issue := rfl
@[simp] theorem modCore_opening : (s.modCore k f).opening = s.opening := rfl
@[simp] theorem modCore_agenda : (s.modCore k f).agenda = s.agenda := rfl

end

/-! ### `modOp` -/

section

variable (s : State) (k : Nat) (f : Op → Op)

@[simp] theorem modOp_rtime : (s.modOp k f).rtime = s.rtime := rfl
@[simp] theorem modOp_boot : (s.modOp k f).boot = s.boot := rfl
@[simp] theorem modOp_deviceIndex : (s.modOp k f).deviceIndex = s.deviceIndex := rfl
@[simp] theorem modOp_massifId : (s.modOp k f).massifId = s.massifId := rfl
@[simp] theorem modOp_dies : (s.modOp k f).dies = s.dies := rfl
@[simp] theorem modOp_pairs : (s.modOp k f).pairs = s.pairs := rfl
@[simp] theorem modOp_snap : (s.modOp k f).snap = s.snap := rfl
@[simp] theorem modOp_mem : (s.modOp k f).mem = s.mem := rfl
@[simp] theorem modOp_poison : (s.modOp k f).poison = s.poison := rfl
@[simp] theorem modOp_tlb : (s.modOp k f).tlb = s.tlb := rfl
@[simp] theorem modOp_walks : (s.modOp k f).walks = s.walks := rfl
@[simp] theorem modOp_moving : (s.modOp k f).moving = s.moving := rfl
@[simp] theorem modOp_unread : (s.modOp k f).unread = s.unread := rfl
@[simp] theorem modOp_near : (s.modOp k f).near = s.near := rfl
@[simp] theorem modOp_replQ : (s.modOp k f).replQ = s.replQ := rfl
@[simp] theorem modOp_replBad : (s.modOp k f).replBad = s.replBad := rfl
@[simp] theorem modOp_images : (s.modOp k f).images = s.images := rfl
@[simp] theorem modOp_promo : (s.modOp k f).promo = s.promo := rfl
@[simp] theorem modOp_cxlOut : (s.modOp k f).cxlOut = s.cxlOut := rfl
@[simp] theorem modOp_mgroups : (s.modOp k f).mgroups = s.mgroups := rfl
@[simp] theorem modOp_planesOff : (s.modOp k f).planesOff = s.planesOff := rfl
@[simp] theorem modOp_links : (s.modOp k f).links = s.links := rfl
@[simp] theorem modOp_outbox : (s.modOp k f).outbox = s.outbox := rfl
@[simp] theorem modOp_serving : (s.modOp k f).serving = s.serving := rfl
@[simp] theorem modOp_fifo : (s.modOp k f).fifo = s.fifo := rfl
@[simp] theorem modOp_members : (s.modOp k f).members = s.members := rfl
@[simp] theorem modOp_progs : (s.modOp k f).progs = s.progs := rfl
@[simp] theorem modOp_reserved : (s.modOp k f).reserved = s.reserved := rfl
@[simp] theorem modOp_saves : (s.modOp k f).saves = s.saves := rfl
@[simp] theorem modOp_energyEnd : (s.modOp k f).energyEnd = s.energyEnd := rfl
@[simp] theorem modOp_fatals : (s.modOp k f).fatals = s.fatals := rfl
@[simp] theorem modOp_ops : (s.modOp k f).ops = Map.mod k f s.ops := rfl
@[simp] theorem modOp_banks : (s.modOp k f).banks = s.banks := rfl
@[simp] theorem modOp_bankBusy : (s.modOp k f).bankBusy = s.bankBusy := rfl
@[simp] theorem modOp_lends : (s.modOp k f).lends = s.lends := rfl
@[simp] theorem modOp_ctxs : (s.modOp k f).ctxs = s.ctxs := rfl
@[simp] theorem modOp_grids : (s.modOp k f).grids = s.grids := rfl
@[simp] theorem modOp_clusters : (s.modOp k f).clusters = s.clusters := rfl
@[simp] theorem modOp_teams : (s.modOp k f).teams = s.teams := rfl
@[simp] theorem modOp_groups : (s.modOp k f).groups = s.groups := rfl
@[simp] theorem modOp_cores : (s.modOp k f).cores = s.cores := rfl
@[simp] theorem modOp_freeCtr : (s.modOp k f).freeCtr = s.freeCtr := rfl
@[simp] theorem modOp_nextId : (s.modOp k f).nextId = s.nextId := rfl
@[simp] theorem modOp_sel : (s.modOp k f).sel = s.sel := rfl
@[simp] theorem modOp_cur : (s.modOp k f).cur = s.cur := rfl
@[simp] theorem modOp_issue : (s.modOp k f).issue = s.issue := rfl
@[simp] theorem modOp_opening : (s.modOp k f).opening = s.opening := rfl
@[simp] theorem modOp_agenda : (s.modOp k f).agenda = s.agenda := rfl

end

/-! ### `modDie` -/

section

variable (s : State) (k : Nat) (f : Die → Die)

@[simp] theorem modDie_rtime : (s.modDie k f).rtime = s.rtime := rfl
@[simp] theorem modDie_boot : (s.modDie k f).boot = s.boot := rfl
@[simp] theorem modDie_deviceIndex : (s.modDie k f).deviceIndex = s.deviceIndex := rfl
@[simp] theorem modDie_massifId : (s.modDie k f).massifId = s.massifId := rfl
@[simp] theorem modDie_dies : (s.modDie k f).dies = Map.put k (f (s.die k)) s.dies := rfl
@[simp] theorem modDie_pairs : (s.modDie k f).pairs = s.pairs := rfl
@[simp] theorem modDie_snap : (s.modDie k f).snap = s.snap := rfl
@[simp] theorem modDie_mem : (s.modDie k f).mem = s.mem := rfl
@[simp] theorem modDie_poison : (s.modDie k f).poison = s.poison := rfl
@[simp] theorem modDie_tlb : (s.modDie k f).tlb = s.tlb := rfl
@[simp] theorem modDie_walks : (s.modDie k f).walks = s.walks := rfl
@[simp] theorem modDie_moving : (s.modDie k f).moving = s.moving := rfl
@[simp] theorem modDie_unread : (s.modDie k f).unread = s.unread := rfl
@[simp] theorem modDie_near : (s.modDie k f).near = s.near := rfl
@[simp] theorem modDie_replQ : (s.modDie k f).replQ = s.replQ := rfl
@[simp] theorem modDie_replBad : (s.modDie k f).replBad = s.replBad := rfl
@[simp] theorem modDie_images : (s.modDie k f).images = s.images := rfl
@[simp] theorem modDie_promo : (s.modDie k f).promo = s.promo := rfl
@[simp] theorem modDie_cxlOut : (s.modDie k f).cxlOut = s.cxlOut := rfl
@[simp] theorem modDie_mgroups : (s.modDie k f).mgroups = s.mgroups := rfl
@[simp] theorem modDie_planesOff : (s.modDie k f).planesOff = s.planesOff := rfl
@[simp] theorem modDie_links : (s.modDie k f).links = s.links := rfl
@[simp] theorem modDie_outbox : (s.modDie k f).outbox = s.outbox := rfl
@[simp] theorem modDie_serving : (s.modDie k f).serving = s.serving := rfl
@[simp] theorem modDie_fifo : (s.modDie k f).fifo = s.fifo := rfl
@[simp] theorem modDie_members : (s.modDie k f).members = s.members := rfl
@[simp] theorem modDie_progs : (s.modDie k f).progs = s.progs := rfl
@[simp] theorem modDie_reserved : (s.modDie k f).reserved = s.reserved := rfl
@[simp] theorem modDie_saves : (s.modDie k f).saves = s.saves := rfl
@[simp] theorem modDie_energyEnd : (s.modDie k f).energyEnd = s.energyEnd := rfl
@[simp] theorem modDie_fatals : (s.modDie k f).fatals = s.fatals := rfl
@[simp] theorem modDie_ops : (s.modDie k f).ops = s.ops := rfl
@[simp] theorem modDie_banks : (s.modDie k f).banks = s.banks := rfl
@[simp] theorem modDie_bankBusy : (s.modDie k f).bankBusy = s.bankBusy := rfl
@[simp] theorem modDie_lends : (s.modDie k f).lends = s.lends := rfl
@[simp] theorem modDie_ctxs : (s.modDie k f).ctxs = s.ctxs := rfl
@[simp] theorem modDie_grids : (s.modDie k f).grids = s.grids := rfl
@[simp] theorem modDie_clusters : (s.modDie k f).clusters = s.clusters := rfl
@[simp] theorem modDie_teams : (s.modDie k f).teams = s.teams := rfl
@[simp] theorem modDie_groups : (s.modDie k f).groups = s.groups := rfl
@[simp] theorem modDie_cores : (s.modDie k f).cores = s.cores := rfl
@[simp] theorem modDie_freeCtr : (s.modDie k f).freeCtr = s.freeCtr := rfl
@[simp] theorem modDie_nextId : (s.modDie k f).nextId = s.nextId := rfl
@[simp] theorem modDie_sel : (s.modDie k f).sel = s.sel := rfl
@[simp] theorem modDie_cur : (s.modDie k f).cur = s.cur := rfl
@[simp] theorem modDie_issue : (s.modDie k f).issue = s.issue := rfl
@[simp] theorem modDie_opening : (s.modDie k f).opening = s.opening := rfl
@[simp] theorem modDie_agenda : (s.modDie k f).agenda = s.agenda := rfl

end

/-! ### `modPair` -/

section

variable (s : State) (k : Nat) (f : Pair → Pair)

@[simp] theorem modPair_rtime : (s.modPair k f).rtime = s.rtime := rfl
@[simp] theorem modPair_boot : (s.modPair k f).boot = s.boot := rfl
@[simp] theorem modPair_deviceIndex : (s.modPair k f).deviceIndex = s.deviceIndex := rfl
@[simp] theorem modPair_massifId : (s.modPair k f).massifId = s.massifId := rfl
@[simp] theorem modPair_dies : (s.modPair k f).dies = s.dies := rfl
@[simp] theorem modPair_pairs : (s.modPair k f).pairs = Map.put k (f (s.pair k)) s.pairs := rfl
@[simp] theorem modPair_snap : (s.modPair k f).snap = s.snap := rfl
@[simp] theorem modPair_mem : (s.modPair k f).mem = s.mem := rfl
@[simp] theorem modPair_poison : (s.modPair k f).poison = s.poison := rfl
@[simp] theorem modPair_tlb : (s.modPair k f).tlb = s.tlb := rfl
@[simp] theorem modPair_walks : (s.modPair k f).walks = s.walks := rfl
@[simp] theorem modPair_moving : (s.modPair k f).moving = s.moving := rfl
@[simp] theorem modPair_unread : (s.modPair k f).unread = s.unread := rfl
@[simp] theorem modPair_near : (s.modPair k f).near = s.near := rfl
@[simp] theorem modPair_replQ : (s.modPair k f).replQ = s.replQ := rfl
@[simp] theorem modPair_replBad : (s.modPair k f).replBad = s.replBad := rfl
@[simp] theorem modPair_images : (s.modPair k f).images = s.images := rfl
@[simp] theorem modPair_promo : (s.modPair k f).promo = s.promo := rfl
@[simp] theorem modPair_cxlOut : (s.modPair k f).cxlOut = s.cxlOut := rfl
@[simp] theorem modPair_mgroups : (s.modPair k f).mgroups = s.mgroups := rfl
@[simp] theorem modPair_planesOff : (s.modPair k f).planesOff = s.planesOff := rfl
@[simp] theorem modPair_links : (s.modPair k f).links = s.links := rfl
@[simp] theorem modPair_outbox : (s.modPair k f).outbox = s.outbox := rfl
@[simp] theorem modPair_serving : (s.modPair k f).serving = s.serving := rfl
@[simp] theorem modPair_fifo : (s.modPair k f).fifo = s.fifo := rfl
@[simp] theorem modPair_members : (s.modPair k f).members = s.members := rfl
@[simp] theorem modPair_progs : (s.modPair k f).progs = s.progs := rfl
@[simp] theorem modPair_reserved : (s.modPair k f).reserved = s.reserved := rfl
@[simp] theorem modPair_saves : (s.modPair k f).saves = s.saves := rfl
@[simp] theorem modPair_energyEnd : (s.modPair k f).energyEnd = s.energyEnd := rfl
@[simp] theorem modPair_fatals : (s.modPair k f).fatals = s.fatals := rfl
@[simp] theorem modPair_ops : (s.modPair k f).ops = s.ops := rfl
@[simp] theorem modPair_banks : (s.modPair k f).banks = s.banks := rfl
@[simp] theorem modPair_bankBusy : (s.modPair k f).bankBusy = s.bankBusy := rfl
@[simp] theorem modPair_lends : (s.modPair k f).lends = s.lends := rfl
@[simp] theorem modPair_ctxs : (s.modPair k f).ctxs = s.ctxs := rfl
@[simp] theorem modPair_grids : (s.modPair k f).grids = s.grids := rfl
@[simp] theorem modPair_clusters : (s.modPair k f).clusters = s.clusters := rfl
@[simp] theorem modPair_teams : (s.modPair k f).teams = s.teams := rfl
@[simp] theorem modPair_groups : (s.modPair k f).groups = s.groups := rfl
@[simp] theorem modPair_cores : (s.modPair k f).cores = s.cores := rfl
@[simp] theorem modPair_freeCtr : (s.modPair k f).freeCtr = s.freeCtr := rfl
@[simp] theorem modPair_nextId : (s.modPair k f).nextId = s.nextId := rfl
@[simp] theorem modPair_sel : (s.modPair k f).sel = s.sel := rfl
@[simp] theorem modPair_cur : (s.modPair k f).cur = s.cur := rfl
@[simp] theorem modPair_issue : (s.modPair k f).issue = s.issue := rfl
@[simp] theorem modPair_opening : (s.modPair k f).opening = s.opening := rfl
@[simp] theorem modPair_agenda : (s.modPair k f).agenda = s.agenda := rfl

end

/-! ### `modGrid` -/

section

variable (s : State) (k : Nat) (f : Grid → Grid)

@[simp] theorem modGrid_rtime : (s.modGrid k f).rtime = s.rtime := rfl
@[simp] theorem modGrid_boot : (s.modGrid k f).boot = s.boot := rfl
@[simp] theorem modGrid_deviceIndex : (s.modGrid k f).deviceIndex = s.deviceIndex := rfl
@[simp] theorem modGrid_massifId : (s.modGrid k f).massifId = s.massifId := rfl
@[simp] theorem modGrid_dies : (s.modGrid k f).dies = s.dies := rfl
@[simp] theorem modGrid_pairs : (s.modGrid k f).pairs = s.pairs := rfl
@[simp] theorem modGrid_snap : (s.modGrid k f).snap = s.snap := rfl
@[simp] theorem modGrid_mem : (s.modGrid k f).mem = s.mem := rfl
@[simp] theorem modGrid_poison : (s.modGrid k f).poison = s.poison := rfl
@[simp] theorem modGrid_tlb : (s.modGrid k f).tlb = s.tlb := rfl
@[simp] theorem modGrid_walks : (s.modGrid k f).walks = s.walks := rfl
@[simp] theorem modGrid_moving : (s.modGrid k f).moving = s.moving := rfl
@[simp] theorem modGrid_unread : (s.modGrid k f).unread = s.unread := rfl
@[simp] theorem modGrid_near : (s.modGrid k f).near = s.near := rfl
@[simp] theorem modGrid_replQ : (s.modGrid k f).replQ = s.replQ := rfl
@[simp] theorem modGrid_replBad : (s.modGrid k f).replBad = s.replBad := rfl
@[simp] theorem modGrid_images : (s.modGrid k f).images = s.images := rfl
@[simp] theorem modGrid_promo : (s.modGrid k f).promo = s.promo := rfl
@[simp] theorem modGrid_cxlOut : (s.modGrid k f).cxlOut = s.cxlOut := rfl
@[simp] theorem modGrid_mgroups : (s.modGrid k f).mgroups = s.mgroups := rfl
@[simp] theorem modGrid_planesOff : (s.modGrid k f).planesOff = s.planesOff := rfl
@[simp] theorem modGrid_links : (s.modGrid k f).links = s.links := rfl
@[simp] theorem modGrid_outbox : (s.modGrid k f).outbox = s.outbox := rfl
@[simp] theorem modGrid_serving : (s.modGrid k f).serving = s.serving := rfl
@[simp] theorem modGrid_fifo : (s.modGrid k f).fifo = s.fifo := rfl
@[simp] theorem modGrid_members : (s.modGrid k f).members = s.members := rfl
@[simp] theorem modGrid_progs : (s.modGrid k f).progs = s.progs := rfl
@[simp] theorem modGrid_reserved : (s.modGrid k f).reserved = s.reserved := rfl
@[simp] theorem modGrid_saves : (s.modGrid k f).saves = s.saves := rfl
@[simp] theorem modGrid_energyEnd : (s.modGrid k f).energyEnd = s.energyEnd := rfl
@[simp] theorem modGrid_fatals : (s.modGrid k f).fatals = s.fatals := rfl
@[simp] theorem modGrid_ops : (s.modGrid k f).ops = s.ops := rfl
@[simp] theorem modGrid_banks : (s.modGrid k f).banks = s.banks := rfl
@[simp] theorem modGrid_bankBusy : (s.modGrid k f).bankBusy = s.bankBusy := rfl
@[simp] theorem modGrid_lends : (s.modGrid k f).lends = s.lends := rfl
@[simp] theorem modGrid_ctxs : (s.modGrid k f).ctxs = s.ctxs := rfl
@[simp] theorem modGrid_grids : (s.modGrid k f).grids = Map.mod k f s.grids := rfl
@[simp] theorem modGrid_clusters : (s.modGrid k f).clusters = s.clusters := rfl
@[simp] theorem modGrid_teams : (s.modGrid k f).teams = s.teams := rfl
@[simp] theorem modGrid_groups : (s.modGrid k f).groups = s.groups := rfl
@[simp] theorem modGrid_cores : (s.modGrid k f).cores = s.cores := rfl
@[simp] theorem modGrid_freeCtr : (s.modGrid k f).freeCtr = s.freeCtr := rfl
@[simp] theorem modGrid_nextId : (s.modGrid k f).nextId = s.nextId := rfl
@[simp] theorem modGrid_sel : (s.modGrid k f).sel = s.sel := rfl
@[simp] theorem modGrid_cur : (s.modGrid k f).cur = s.cur := rfl
@[simp] theorem modGrid_issue : (s.modGrid k f).issue = s.issue := rfl
@[simp] theorem modGrid_opening : (s.modGrid k f).opening = s.opening := rfl
@[simp] theorem modGrid_agenda : (s.modGrid k f).agenda = s.agenda := rfl

end

/-! ### `modLink` -/

section

variable (s : State) (k : Nat) (f : Link → Link)

@[simp] theorem modLink_rtime : (s.modLink k f).rtime = s.rtime := rfl
@[simp] theorem modLink_boot : (s.modLink k f).boot = s.boot := rfl
@[simp] theorem modLink_deviceIndex : (s.modLink k f).deviceIndex = s.deviceIndex := rfl
@[simp] theorem modLink_massifId : (s.modLink k f).massifId = s.massifId := rfl
@[simp] theorem modLink_dies : (s.modLink k f).dies = s.dies := rfl
@[simp] theorem modLink_pairs : (s.modLink k f).pairs = s.pairs := rfl
@[simp] theorem modLink_snap : (s.modLink k f).snap = s.snap := rfl
@[simp] theorem modLink_mem : (s.modLink k f).mem = s.mem := rfl
@[simp] theorem modLink_poison : (s.modLink k f).poison = s.poison := rfl
@[simp] theorem modLink_tlb : (s.modLink k f).tlb = s.tlb := rfl
@[simp] theorem modLink_walks : (s.modLink k f).walks = s.walks := rfl
@[simp] theorem modLink_moving : (s.modLink k f).moving = s.moving := rfl
@[simp] theorem modLink_unread : (s.modLink k f).unread = s.unread := rfl
@[simp] theorem modLink_near : (s.modLink k f).near = s.near := rfl
@[simp] theorem modLink_replQ : (s.modLink k f).replQ = s.replQ := rfl
@[simp] theorem modLink_replBad : (s.modLink k f).replBad = s.replBad := rfl
@[simp] theorem modLink_images : (s.modLink k f).images = s.images := rfl
@[simp] theorem modLink_promo : (s.modLink k f).promo = s.promo := rfl
@[simp] theorem modLink_cxlOut : (s.modLink k f).cxlOut = s.cxlOut := rfl
@[simp] theorem modLink_mgroups : (s.modLink k f).mgroups = s.mgroups := rfl
@[simp] theorem modLink_planesOff : (s.modLink k f).planesOff = s.planesOff := rfl
@[simp] theorem modLink_links : (s.modLink k f).links = Map.put k (f (s.link k)) s.links := rfl
@[simp] theorem modLink_outbox : (s.modLink k f).outbox = s.outbox := rfl
@[simp] theorem modLink_serving : (s.modLink k f).serving = s.serving := rfl
@[simp] theorem modLink_fifo : (s.modLink k f).fifo = s.fifo := rfl
@[simp] theorem modLink_members : (s.modLink k f).members = s.members := rfl
@[simp] theorem modLink_progs : (s.modLink k f).progs = s.progs := rfl
@[simp] theorem modLink_reserved : (s.modLink k f).reserved = s.reserved := rfl
@[simp] theorem modLink_saves : (s.modLink k f).saves = s.saves := rfl
@[simp] theorem modLink_energyEnd : (s.modLink k f).energyEnd = s.energyEnd := rfl
@[simp] theorem modLink_fatals : (s.modLink k f).fatals = s.fatals := rfl
@[simp] theorem modLink_ops : (s.modLink k f).ops = s.ops := rfl
@[simp] theorem modLink_banks : (s.modLink k f).banks = s.banks := rfl
@[simp] theorem modLink_bankBusy : (s.modLink k f).bankBusy = s.bankBusy := rfl
@[simp] theorem modLink_lends : (s.modLink k f).lends = s.lends := rfl
@[simp] theorem modLink_ctxs : (s.modLink k f).ctxs = s.ctxs := rfl
@[simp] theorem modLink_grids : (s.modLink k f).grids = s.grids := rfl
@[simp] theorem modLink_clusters : (s.modLink k f).clusters = s.clusters := rfl
@[simp] theorem modLink_teams : (s.modLink k f).teams = s.teams := rfl
@[simp] theorem modLink_groups : (s.modLink k f).groups = s.groups := rfl
@[simp] theorem modLink_cores : (s.modLink k f).cores = s.cores := rfl
@[simp] theorem modLink_freeCtr : (s.modLink k f).freeCtr = s.freeCtr := rfl
@[simp] theorem modLink_nextId : (s.modLink k f).nextId = s.nextId := rfl
@[simp] theorem modLink_sel : (s.modLink k f).sel = s.sel := rfl
@[simp] theorem modLink_cur : (s.modLink k f).cur = s.cur := rfl
@[simp] theorem modLink_issue : (s.modLink k f).issue = s.issue := rfl
@[simp] theorem modLink_opening : (s.modLink k f).opening = s.opening := rfl
@[simp] theorem modLink_agenda : (s.modLink k f).agenda = s.agenda := rfl

end

/-! ### `writePhys` -/

section

variable (s : State) (a : Nat) (bs : List Byte)

@[simp] theorem writePhys_rtime : (s.writePhys a bs).rtime = s.rtime := rfl
@[simp] theorem writePhys_boot : (s.writePhys a bs).boot = s.boot := rfl
@[simp] theorem writePhys_deviceIndex : (s.writePhys a bs).deviceIndex = s.deviceIndex := rfl
@[simp] theorem writePhys_massifId : (s.writePhys a bs).massifId = s.massifId := rfl
@[simp] theorem writePhys_dies : (s.writePhys a bs).dies = s.dies := rfl
@[simp] theorem writePhys_pairs : (s.writePhys a bs).pairs = s.pairs := rfl
@[simp] theorem writePhys_snap : (s.writePhys a bs).snap = s.snap := rfl
@[simp] theorem writePhys_mem : (s.writePhys a bs).mem = Memory.write s.mem a bs := rfl
@[simp] theorem writePhys_poison : (s.writePhys a bs).poison = s.poison := rfl
@[simp] theorem writePhys_tlb : (s.writePhys a bs).tlb = s.tlb := rfl
@[simp] theorem writePhys_walks : (s.writePhys a bs).walks = s.walks := rfl
@[simp] theorem writePhys_moving : (s.writePhys a bs).moving = s.moving := rfl
@[simp] theorem writePhys_unread : (s.writePhys a bs).unread = s.unread := rfl
@[simp] theorem writePhys_near : (s.writePhys a bs).near = s.near := rfl
@[simp] theorem writePhys_replQ : (s.writePhys a bs).replQ = s.replQ := rfl
@[simp] theorem writePhys_replBad : (s.writePhys a bs).replBad = s.replBad := rfl
@[simp] theorem writePhys_images : (s.writePhys a bs).images = s.images := rfl
@[simp] theorem writePhys_promo : (s.writePhys a bs).promo = s.promo := rfl
@[simp] theorem writePhys_cxlOut : (s.writePhys a bs).cxlOut = s.cxlOut := rfl
@[simp] theorem writePhys_mgroups : (s.writePhys a bs).mgroups = s.mgroups := rfl
@[simp] theorem writePhys_planesOff : (s.writePhys a bs).planesOff = s.planesOff := rfl
@[simp] theorem writePhys_links : (s.writePhys a bs).links = s.links := rfl
@[simp] theorem writePhys_outbox : (s.writePhys a bs).outbox = s.outbox := rfl
@[simp] theorem writePhys_serving : (s.writePhys a bs).serving = s.serving := rfl
@[simp] theorem writePhys_fifo : (s.writePhys a bs).fifo = s.fifo := rfl
@[simp] theorem writePhys_members : (s.writePhys a bs).members = s.members := rfl
@[simp] theorem writePhys_progs : (s.writePhys a bs).progs = s.progs := rfl
@[simp] theorem writePhys_reserved : (s.writePhys a bs).reserved = s.reserved := rfl
@[simp] theorem writePhys_saves : (s.writePhys a bs).saves = s.saves := rfl
@[simp] theorem writePhys_energyEnd : (s.writePhys a bs).energyEnd = s.energyEnd := rfl
@[simp] theorem writePhys_fatals : (s.writePhys a bs).fatals = s.fatals := rfl
@[simp] theorem writePhys_ops : (s.writePhys a bs).ops = s.ops := rfl
@[simp] theorem writePhys_banks : (s.writePhys a bs).banks = s.banks := rfl
@[simp] theorem writePhys_bankBusy : (s.writePhys a bs).bankBusy = s.bankBusy := rfl
@[simp] theorem writePhys_lends : (s.writePhys a bs).lends = s.lends := rfl
@[simp] theorem writePhys_ctxs : (s.writePhys a bs).ctxs = s.ctxs := rfl
@[simp] theorem writePhys_grids : (s.writePhys a bs).grids = s.grids := rfl
@[simp] theorem writePhys_clusters : (s.writePhys a bs).clusters = s.clusters := rfl
@[simp] theorem writePhys_teams : (s.writePhys a bs).teams = s.teams := rfl
@[simp] theorem writePhys_groups : (s.writePhys a bs).groups = s.groups := rfl
@[simp] theorem writePhys_cores : (s.writePhys a bs).cores = s.cores := rfl
@[simp] theorem writePhys_freeCtr : (s.writePhys a bs).freeCtr = s.freeCtr := rfl
@[simp] theorem writePhys_nextId : (s.writePhys a bs).nextId = s.nextId := rfl
@[simp] theorem writePhys_sel : (s.writePhys a bs).sel = s.sel := rfl
@[simp] theorem writePhys_cur : (s.writePhys a bs).cur = s.cur := rfl
@[simp] theorem writePhys_issue : (s.writePhys a bs).issue = s.issue := rfl
@[simp] theorem writePhys_opening : (s.writePhys a bs).opening = s.opening := rfl
@[simp] theorem writePhys_agenda : (s.writePhys a bs).agenda = s.agenda := rfl

end

/-! ### `clearPoison` -/

section

variable (s : State) (a n : Nat)

@[simp] theorem clearPoison_rtime : (s.clearPoison a n).rtime = s.rtime := rfl
@[simp] theorem clearPoison_boot : (s.clearPoison a n).boot = s.boot := rfl
@[simp] theorem clearPoison_deviceIndex : (s.clearPoison a n).deviceIndex = s.deviceIndex := rfl
@[simp] theorem clearPoison_massifId : (s.clearPoison a n).massifId = s.massifId := rfl
@[simp] theorem clearPoison_dies : (s.clearPoison a n).dies = s.dies := rfl
@[simp] theorem clearPoison_pairs : (s.clearPoison a n).pairs = s.pairs := rfl
@[simp] theorem clearPoison_snap : (s.clearPoison a n).snap = s.snap := rfl
@[simp] theorem clearPoison_mem : (s.clearPoison a n).mem = s.mem := rfl
@[simp] theorem clearPoison_poison : (s.clearPoison a n).poison = s.poison.filter fun p => !(decide (a ≤ p) && decide (p + poisonUnit p ≤ a + n)) := rfl
@[simp] theorem clearPoison_tlb : (s.clearPoison a n).tlb = s.tlb := rfl
@[simp] theorem clearPoison_walks : (s.clearPoison a n).walks = s.walks := rfl
@[simp] theorem clearPoison_moving : (s.clearPoison a n).moving = s.moving := rfl
@[simp] theorem clearPoison_unread : (s.clearPoison a n).unread = s.unread := rfl
@[simp] theorem clearPoison_near : (s.clearPoison a n).near = s.near := rfl
@[simp] theorem clearPoison_replQ : (s.clearPoison a n).replQ = s.replQ := rfl
@[simp] theorem clearPoison_replBad : (s.clearPoison a n).replBad = s.replBad := rfl
@[simp] theorem clearPoison_images : (s.clearPoison a n).images = s.images := rfl
@[simp] theorem clearPoison_promo : (s.clearPoison a n).promo = s.promo := rfl
@[simp] theorem clearPoison_cxlOut : (s.clearPoison a n).cxlOut = s.cxlOut := rfl
@[simp] theorem clearPoison_mgroups : (s.clearPoison a n).mgroups = s.mgroups := rfl
@[simp] theorem clearPoison_planesOff : (s.clearPoison a n).planesOff = s.planesOff := rfl
@[simp] theorem clearPoison_links : (s.clearPoison a n).links = s.links := rfl
@[simp] theorem clearPoison_outbox : (s.clearPoison a n).outbox = s.outbox := rfl
@[simp] theorem clearPoison_serving : (s.clearPoison a n).serving = s.serving := rfl
@[simp] theorem clearPoison_fifo : (s.clearPoison a n).fifo = s.fifo := rfl
@[simp] theorem clearPoison_members : (s.clearPoison a n).members = s.members := rfl
@[simp] theorem clearPoison_progs : (s.clearPoison a n).progs = s.progs := rfl
@[simp] theorem clearPoison_reserved : (s.clearPoison a n).reserved = s.reserved := rfl
@[simp] theorem clearPoison_saves : (s.clearPoison a n).saves = s.saves := rfl
@[simp] theorem clearPoison_energyEnd : (s.clearPoison a n).energyEnd = s.energyEnd := rfl
@[simp] theorem clearPoison_fatals : (s.clearPoison a n).fatals = s.fatals := rfl
@[simp] theorem clearPoison_ops : (s.clearPoison a n).ops = s.ops := rfl
@[simp] theorem clearPoison_banks : (s.clearPoison a n).banks = s.banks := rfl
@[simp] theorem clearPoison_bankBusy : (s.clearPoison a n).bankBusy = s.bankBusy := rfl
@[simp] theorem clearPoison_lends : (s.clearPoison a n).lends = s.lends := rfl
@[simp] theorem clearPoison_ctxs : (s.clearPoison a n).ctxs = s.ctxs := rfl
@[simp] theorem clearPoison_grids : (s.clearPoison a n).grids = s.grids := rfl
@[simp] theorem clearPoison_clusters : (s.clearPoison a n).clusters = s.clusters := rfl
@[simp] theorem clearPoison_teams : (s.clearPoison a n).teams = s.teams := rfl
@[simp] theorem clearPoison_groups : (s.clearPoison a n).groups = s.groups := rfl
@[simp] theorem clearPoison_cores : (s.clearPoison a n).cores = s.cores := rfl
@[simp] theorem clearPoison_freeCtr : (s.clearPoison a n).freeCtr = s.freeCtr := rfl
@[simp] theorem clearPoison_nextId : (s.clearPoison a n).nextId = s.nextId := rfl
@[simp] theorem clearPoison_sel : (s.clearPoison a n).sel = s.sel := rfl
@[simp] theorem clearPoison_cur : (s.clearPoison a n).cur = s.cur := rfl
@[simp] theorem clearPoison_issue : (s.clearPoison a n).issue = s.issue := rfl
@[simp] theorem clearPoison_opening : (s.clearPoison a n).opening = s.opening := rfl
@[simp] theorem clearPoison_agenda : (s.clearPoison a n).agenda = s.agenda := rfl

end

/-! ### `raise` -/

section

variable (s : State) (g : Nat) (fl : Flags)

@[simp] theorem raise_rtime : (s.raise g fl).rtime = s.rtime := rfl
@[simp] theorem raise_boot : (s.raise g fl).boot = s.boot := rfl
@[simp] theorem raise_deviceIndex : (s.raise g fl).deviceIndex = s.deviceIndex := rfl
@[simp] theorem raise_massifId : (s.raise g fl).massifId = s.massifId := rfl
@[simp] theorem raise_dies : (s.raise g fl).dies = s.dies := rfl
@[simp] theorem raise_pairs : (s.raise g fl).pairs = s.pairs := rfl
@[simp] theorem raise_snap : (s.raise g fl).snap = s.snap := rfl
@[simp] theorem raise_mem : (s.raise g fl).mem = s.mem := rfl
@[simp] theorem raise_poison : (s.raise g fl).poison = s.poison := rfl
@[simp] theorem raise_tlb : (s.raise g fl).tlb = s.tlb := rfl
@[simp] theorem raise_walks : (s.raise g fl).walks = s.walks := rfl
@[simp] theorem raise_moving : (s.raise g fl).moving = s.moving := rfl
@[simp] theorem raise_unread : (s.raise g fl).unread = s.unread := rfl
@[simp] theorem raise_near : (s.raise g fl).near = s.near := rfl
@[simp] theorem raise_replQ : (s.raise g fl).replQ = s.replQ := rfl
@[simp] theorem raise_replBad : (s.raise g fl).replBad = s.replBad := rfl
@[simp] theorem raise_images : (s.raise g fl).images = s.images := rfl
@[simp] theorem raise_promo : (s.raise g fl).promo = s.promo := rfl
@[simp] theorem raise_cxlOut : (s.raise g fl).cxlOut = s.cxlOut := rfl
@[simp] theorem raise_mgroups : (s.raise g fl).mgroups = s.mgroups := rfl
@[simp] theorem raise_planesOff : (s.raise g fl).planesOff = s.planesOff := rfl
@[simp] theorem raise_links : (s.raise g fl).links = s.links := rfl
@[simp] theorem raise_outbox : (s.raise g fl).outbox = s.outbox := rfl
@[simp] theorem raise_serving : (s.raise g fl).serving = s.serving := rfl
@[simp] theorem raise_fifo : (s.raise g fl).fifo = s.fifo := rfl
@[simp] theorem raise_members : (s.raise g fl).members = s.members := rfl
@[simp] theorem raise_progs : (s.raise g fl).progs = s.progs := rfl
@[simp] theorem raise_reserved : (s.raise g fl).reserved = s.reserved := rfl
@[simp] theorem raise_saves : (s.raise g fl).saves = s.saves := rfl
@[simp] theorem raise_energyEnd : (s.raise g fl).energyEnd = s.energyEnd := rfl
@[simp] theorem raise_fatals : (s.raise g fl).fatals = s.fatals := rfl
@[simp] theorem raise_ops : (s.raise g fl).ops = s.ops := rfl
@[simp] theorem raise_banks : (s.raise g fl).banks = s.banks := rfl
@[simp] theorem raise_bankBusy : (s.raise g fl).bankBusy = s.bankBusy := rfl
@[simp] theorem raise_lends : (s.raise g fl).lends = s.lends := rfl
@[simp] theorem raise_ctxs : (s.raise g fl).ctxs = s.ctxs := rfl
@[simp] theorem raise_grids : (s.raise g fl).grids = s.grids := rfl
@[simp] theorem raise_clusters : (s.raise g fl).clusters = s.clusters := rfl
@[simp] theorem raise_teams : (s.raise g fl).teams = s.teams := rfl
@[simp] theorem raise_groups : (s.raise g fl).groups = Map.mod g (fun x => { x with flags := x.flags ||| fl }) s.groups := rfl
@[simp] theorem raise_cores : (s.raise g fl).cores = s.cores := rfl
@[simp] theorem raise_freeCtr : (s.raise g fl).freeCtr = s.freeCtr := rfl
@[simp] theorem raise_nextId : (s.raise g fl).nextId = s.nextId := rfl
@[simp] theorem raise_sel : (s.raise g fl).sel = s.sel := rfl
@[simp] theorem raise_cur : (s.raise g fl).cur = s.cur := rfl
@[simp] theorem raise_issue : (s.raise g fl).issue = s.issue := rfl
@[simp] theorem raise_opening : (s.raise g fl).opening = s.opening := rfl
@[simp] theorem raise_agenda : (s.raise g fl).agenda = s.agenda := rfl

end

/-! ### `fresh` -/

section

variable (s : State)

@[simp] theorem fresh_value : s.fresh.1 = s.nextId := rfl
@[simp] theorem fresh_rtime : s.fresh.2.rtime = s.rtime := rfl
@[simp] theorem fresh_boot : s.fresh.2.boot = s.boot := rfl
@[simp] theorem fresh_deviceIndex : s.fresh.2.deviceIndex = s.deviceIndex := rfl
@[simp] theorem fresh_massifId : s.fresh.2.massifId = s.massifId := rfl
@[simp] theorem fresh_dies : s.fresh.2.dies = s.dies := rfl
@[simp] theorem fresh_pairs : s.fresh.2.pairs = s.pairs := rfl
@[simp] theorem fresh_snap : s.fresh.2.snap = s.snap := rfl
@[simp] theorem fresh_mem : s.fresh.2.mem = s.mem := rfl
@[simp] theorem fresh_poison : s.fresh.2.poison = s.poison := rfl
@[simp] theorem fresh_tlb : s.fresh.2.tlb = s.tlb := rfl
@[simp] theorem fresh_walks : s.fresh.2.walks = s.walks := rfl
@[simp] theorem fresh_moving : s.fresh.2.moving = s.moving := rfl
@[simp] theorem fresh_unread : s.fresh.2.unread = s.unread := rfl
@[simp] theorem fresh_near : s.fresh.2.near = s.near := rfl
@[simp] theorem fresh_replQ : s.fresh.2.replQ = s.replQ := rfl
@[simp] theorem fresh_replBad : s.fresh.2.replBad = s.replBad := rfl
@[simp] theorem fresh_images : s.fresh.2.images = s.images := rfl
@[simp] theorem fresh_promo : s.fresh.2.promo = s.promo := rfl
@[simp] theorem fresh_cxlOut : s.fresh.2.cxlOut = s.cxlOut := rfl
@[simp] theorem fresh_mgroups : s.fresh.2.mgroups = s.mgroups := rfl
@[simp] theorem fresh_planesOff : s.fresh.2.planesOff = s.planesOff := rfl
@[simp] theorem fresh_links : s.fresh.2.links = s.links := rfl
@[simp] theorem fresh_outbox : s.fresh.2.outbox = s.outbox := rfl
@[simp] theorem fresh_serving : s.fresh.2.serving = s.serving := rfl
@[simp] theorem fresh_fifo : s.fresh.2.fifo = s.fifo := rfl
@[simp] theorem fresh_members : s.fresh.2.members = s.members := rfl
@[simp] theorem fresh_progs : s.fresh.2.progs = s.progs := rfl
@[simp] theorem fresh_reserved : s.fresh.2.reserved = s.reserved := rfl
@[simp] theorem fresh_saves : s.fresh.2.saves = s.saves := rfl
@[simp] theorem fresh_energyEnd : s.fresh.2.energyEnd = s.energyEnd := rfl
@[simp] theorem fresh_fatals : s.fresh.2.fatals = s.fatals := rfl
@[simp] theorem fresh_ops : s.fresh.2.ops = s.ops := rfl
@[simp] theorem fresh_banks : s.fresh.2.banks = s.banks := rfl
@[simp] theorem fresh_bankBusy : s.fresh.2.bankBusy = s.bankBusy := rfl
@[simp] theorem fresh_lends : s.fresh.2.lends = s.lends := rfl
@[simp] theorem fresh_ctxs : s.fresh.2.ctxs = s.ctxs := rfl
@[simp] theorem fresh_grids : s.fresh.2.grids = s.grids := rfl
@[simp] theorem fresh_clusters : s.fresh.2.clusters = s.clusters := rfl
@[simp] theorem fresh_teams : s.fresh.2.teams = s.teams := rfl
@[simp] theorem fresh_groups : s.fresh.2.groups = s.groups := rfl
@[simp] theorem fresh_cores : s.fresh.2.cores = s.cores := rfl
@[simp] theorem fresh_freeCtr : s.fresh.2.freeCtr = s.freeCtr := rfl
@[simp] theorem fresh_nextId : s.fresh.2.nextId = s.nextId + 1 := rfl
@[simp] theorem fresh_sel : s.fresh.2.sel = s.sel := rfl
@[simp] theorem fresh_cur : s.fresh.2.cur = s.cur := rfl
@[simp] theorem fresh_issue : s.fresh.2.issue = s.issue := rfl
@[simp] theorem fresh_opening : s.fresh.2.opening = s.opening := rfl
@[simp] theorem fresh_agenda : s.fresh.2.agenda = s.agenda := rfl

end

/-! ### `freeNum` -/

section

variable (s : State)

@[simp] theorem freeNum_value : s.freeNum.1 = s.freeCtr := rfl
@[simp] theorem freeNum_rtime : s.freeNum.2.rtime = s.rtime := rfl
@[simp] theorem freeNum_boot : s.freeNum.2.boot = s.boot := rfl
@[simp] theorem freeNum_deviceIndex : s.freeNum.2.deviceIndex = s.deviceIndex := rfl
@[simp] theorem freeNum_massifId : s.freeNum.2.massifId = s.massifId := rfl
@[simp] theorem freeNum_dies : s.freeNum.2.dies = s.dies := rfl
@[simp] theorem freeNum_pairs : s.freeNum.2.pairs = s.pairs := rfl
@[simp] theorem freeNum_snap : s.freeNum.2.snap = s.snap := rfl
@[simp] theorem freeNum_mem : s.freeNum.2.mem = s.mem := rfl
@[simp] theorem freeNum_poison : s.freeNum.2.poison = s.poison := rfl
@[simp] theorem freeNum_tlb : s.freeNum.2.tlb = s.tlb := rfl
@[simp] theorem freeNum_walks : s.freeNum.2.walks = s.walks := rfl
@[simp] theorem freeNum_moving : s.freeNum.2.moving = s.moving := rfl
@[simp] theorem freeNum_unread : s.freeNum.2.unread = s.unread := rfl
@[simp] theorem freeNum_near : s.freeNum.2.near = s.near := rfl
@[simp] theorem freeNum_replQ : s.freeNum.2.replQ = s.replQ := rfl
@[simp] theorem freeNum_replBad : s.freeNum.2.replBad = s.replBad := rfl
@[simp] theorem freeNum_images : s.freeNum.2.images = s.images := rfl
@[simp] theorem freeNum_promo : s.freeNum.2.promo = s.promo := rfl
@[simp] theorem freeNum_cxlOut : s.freeNum.2.cxlOut = s.cxlOut := rfl
@[simp] theorem freeNum_mgroups : s.freeNum.2.mgroups = s.mgroups := rfl
@[simp] theorem freeNum_planesOff : s.freeNum.2.planesOff = s.planesOff := rfl
@[simp] theorem freeNum_links : s.freeNum.2.links = s.links := rfl
@[simp] theorem freeNum_outbox : s.freeNum.2.outbox = s.outbox := rfl
@[simp] theorem freeNum_serving : s.freeNum.2.serving = s.serving := rfl
@[simp] theorem freeNum_fifo : s.freeNum.2.fifo = s.fifo := rfl
@[simp] theorem freeNum_members : s.freeNum.2.members = s.members := rfl
@[simp] theorem freeNum_progs : s.freeNum.2.progs = s.progs := rfl
@[simp] theorem freeNum_reserved : s.freeNum.2.reserved = s.reserved := rfl
@[simp] theorem freeNum_saves : s.freeNum.2.saves = s.saves := rfl
@[simp] theorem freeNum_energyEnd : s.freeNum.2.energyEnd = s.energyEnd := rfl
@[simp] theorem freeNum_fatals : s.freeNum.2.fatals = s.fatals := rfl
@[simp] theorem freeNum_ops : s.freeNum.2.ops = s.ops := rfl
@[simp] theorem freeNum_banks : s.freeNum.2.banks = s.banks := rfl
@[simp] theorem freeNum_bankBusy : s.freeNum.2.bankBusy = s.bankBusy := rfl
@[simp] theorem freeNum_lends : s.freeNum.2.lends = s.lends := rfl
@[simp] theorem freeNum_ctxs : s.freeNum.2.ctxs = s.ctxs := rfl
@[simp] theorem freeNum_grids : s.freeNum.2.grids = s.grids := rfl
@[simp] theorem freeNum_clusters : s.freeNum.2.clusters = s.clusters := rfl
@[simp] theorem freeNum_teams : s.freeNum.2.teams = s.teams := rfl
@[simp] theorem freeNum_groups : s.freeNum.2.groups = s.groups := rfl
@[simp] theorem freeNum_cores : s.freeNum.2.cores = s.cores := rfl
@[simp] theorem freeNum_freeCtr : s.freeNum.2.freeCtr = s.freeCtr + 1 := rfl
@[simp] theorem freeNum_nextId : s.freeNum.2.nextId = s.nextId := rfl
@[simp] theorem freeNum_sel : s.freeNum.2.sel = s.sel := rfl
@[simp] theorem freeNum_cur : s.freeNum.2.cur = s.cur := rfl
@[simp] theorem freeNum_issue : s.freeNum.2.issue = s.issue := rfl
@[simp] theorem freeNum_opening : s.freeNum.2.opening = s.opening := rfl
@[simp] theorem freeNum_agenda : s.freeNum.2.agenda = s.agenda := rfl

end

/-! ### `Group.modThread` -/

section

variable (g : Group) (l : Nat) (f : Thread → Thread)

@[simp] theorem group_modThread_ctx : (g.modThread l f).ctx = g.ctx := rfl
@[simp] theorem group_modThread_team : (g.modThread l f).team = g.team := rfl
@[simp] theorem group_modThread_core : (g.modThread l f).core = g.core := rfl
@[simp] theorem group_modThread_slice : (g.modThread l f).slice = g.slice := rfl
@[simp] theorem group_modThread_w : (g.modThread l f).w = g.w := rfl
@[simp] theorem group_modThread_kind : (g.modThread l f).kind = g.kind := rfl
@[simp] theorem group_modThread_cbase : (g.modThread l f).cbase = g.cbase := rfl
@[simp] theorem group_modThread_groupId : (g.modThread l f).groupId = g.groupId := rfl
@[simp] theorem group_modThread_cls : (g.modThread l f).cls = g.cls := rfl
@[simp] theorem group_modThread_prio : (g.modThread l f).prio = g.prio := rfl
@[simp] theorem group_modThread_age : (g.modThread l f).age = g.age := rfl
@[simp] theorem group_modThread_s : (g.modThread l f).s = g.s := rfl
@[simp] theorem group_modThread_p : (g.modThread l f).p = g.p := rfl
@[simp] theorem group_modThread_f : (g.modThread l f).f = g.f := rfl
@[simp] theorem group_modThread_flags : (g.modThread l f).flags = g.flags := rfl
@[simp] theorem group_modThread_trapen : (g.modThread l f).trapen = g.trapen := rfl
@[simp] theorem group_modThread_gmShape : (g.modThread l f).gmShape = g.gmShape := rfl
@[simp] theorem group_modThread_gmMode : (g.modThread l f).gmMode = g.gmMode := rfl
@[simp] theorem group_modThread_pool : (g.modThread l f).pool = g.pool := rfl
@[simp] theorem group_modThread_resv : (g.modThread l f).resv = g.resv := rfl
@[simp] theorem group_modThread_mapped : (g.modThread l f).mapped = g.mapped := rfl
@[simp] theorem group_modThread_inBlock : (g.modThread l f).inBlock = g.inBlock := rfl
@[simp] theorem group_modThread_gen : (g.modThread l f).gen = g.gen := rfl
@[simp] theorem group_modThread_threads : (g.modThread l f).threads = Map.mod l f g.threads := rfl
@[simp] theorem group_modThread_ready : (g.modThread l f).ready = g.ready := rfl
@[simp] theorem group_modThread_boost : (g.modThread l f).boost = g.boost := rfl
@[simp] theorem group_modThread_starve : (g.modThread l f).starve = g.starve := rfl
@[simp] theorem group_modThread_forced : (g.modThread l f).forced = g.forced := rfl
@[simp] theorem group_modThread_skip : (g.modThread l f).skip = g.skip := rfl
@[simp] theorem group_modThread_susp : (g.modThread l f).susp = g.susp := rfl
@[simp] theorem group_modThread_from? : (g.modThread l f).from? = g.from? := rfl
@[simp] theorem group_modThread_started : (g.modThread l f).started = g.started := rfl
@[simp] theorem group_modThread_cycles : (g.modThread l f).cycles = g.cycles := rfl
@[simp] theorem group_modThread_due : (g.modThread l f).due = g.due := rfl

end

/-! ### `Group.setFlag` -/

section

variable (g : Group) (k n : Nat)

@[simp] theorem group_setFlag_ctx : (g.setFlag k n).ctx = g.ctx := rfl
@[simp] theorem group_setFlag_team : (g.setFlag k n).team = g.team := rfl
@[simp] theorem group_setFlag_core : (g.setFlag k n).core = g.core := rfl
@[simp] theorem group_setFlag_slice : (g.setFlag k n).slice = g.slice := rfl
@[simp] theorem group_setFlag_w : (g.setFlag k n).w = g.w := rfl
@[simp] theorem group_setFlag_kind : (g.setFlag k n).kind = g.kind := rfl
@[simp] theorem group_setFlag_cbase : (g.setFlag k n).cbase = g.cbase := rfl
@[simp] theorem group_setFlag_groupId : (g.setFlag k n).groupId = g.groupId := rfl
@[simp] theorem group_setFlag_cls : (g.setFlag k n).cls = g.cls := rfl
@[simp] theorem group_setFlag_prio : (g.setFlag k n).prio = g.prio := rfl
@[simp] theorem group_setFlag_age : (g.setFlag k n).age = g.age := rfl
@[simp] theorem group_setFlag_s : (g.setFlag k n).s = g.s := rfl
@[simp] theorem group_setFlag_p : (g.setFlag k n).p = g.p := rfl
@[simp] theorem group_setFlag_f : (g.setFlag k n).f = Map.put k n g.f := rfl
@[simp] theorem group_setFlag_flags : (g.setFlag k n).flags = g.flags := rfl
@[simp] theorem group_setFlag_trapen : (g.setFlag k n).trapen = g.trapen := rfl
@[simp] theorem group_setFlag_gmShape : (g.setFlag k n).gmShape = g.gmShape := rfl
@[simp] theorem group_setFlag_gmMode : (g.setFlag k n).gmMode = g.gmMode := rfl
@[simp] theorem group_setFlag_pool : (g.setFlag k n).pool = g.pool := rfl
@[simp] theorem group_setFlag_resv : (g.setFlag k n).resv = g.resv := rfl
@[simp] theorem group_setFlag_mapped : (g.setFlag k n).mapped = g.mapped := rfl
@[simp] theorem group_setFlag_inBlock : (g.setFlag k n).inBlock = g.inBlock := rfl
@[simp] theorem group_setFlag_gen : (g.setFlag k n).gen = g.gen := rfl
@[simp] theorem group_setFlag_threads : (g.setFlag k n).threads = g.threads := rfl
@[simp] theorem group_setFlag_ready : (g.setFlag k n).ready = g.ready := rfl
@[simp] theorem group_setFlag_boost : (g.setFlag k n).boost = g.boost := rfl
@[simp] theorem group_setFlag_starve : (g.setFlag k n).starve = g.starve := rfl
@[simp] theorem group_setFlag_forced : (g.setFlag k n).forced = g.forced := rfl
@[simp] theorem group_setFlag_skip : (g.setFlag k n).skip = g.skip := rfl
@[simp] theorem group_setFlag_susp : (g.setFlag k n).susp = g.susp := rfl
@[simp] theorem group_setFlag_from? : (g.setFlag k n).from? = g.from? := rfl
@[simp] theorem group_setFlag_started : (g.setFlag k n).started = g.started := rfl
@[simp] theorem group_setFlag_cycles : (g.setFlag k n).cycles = g.cycles := rfl
@[simp] theorem group_setFlag_due : (g.setFlag k n).due = g.due := rfl

end

end Sys2Proof.Machine
end

