-- ==== Sys2Proof/Laws/Memory.lean ====
section
/-!
SUPPORT. Sys2Proof/Laws/Memory.lean: every operation over memory keeps its canonical form. The two operations that the model
has are the write of bytes and the removal of what a range lists, which leaves the range all 0.
-/

namespace Sys2Proof.Machine

/-- The canonical form as a property of the list: addresses rise strictly and no listed byte is 0. -/
def Memory.Canonical (m : List Host.Cell) : Prop := m.Pairwise (fun x y => x.1 < y.1) ∧ ∀ c ∈ m, c.2 ≠ 0

theorem Memory.wf_iff (m : List Host.Cell) : Memory.wf m = true ↔ Memory.Canonical m := by
  unfold Memory.Canonical
  induction m with
  | nil => simp [Memory.wf]
  | cons c m ih =>
    obtain ⟨a, b⟩ := c
    cases m with
    | nil => simp [Memory.wf]
    | cons d m =>
      obtain ⟨a', b'⟩ := d
      simp only [Memory.wf] at ih ⊢
      simp only [Bool.and_eq_true, decide_eq_true_eq] at ih ⊢
      rw [ih]
      simp only [List.pairwise_cons, List.forall_mem_cons]
      constructor
      · rintro ⟨⟨h0, h1⟩, ⟨h2, h3⟩, h4⟩
        exact ⟨⟨⟨h1, fun x hx => Nat.lt_trans h1 (h2 x hx)⟩, h2, h3⟩, h0, h4⟩
      · rintro ⟨⟨⟨h1, _⟩, h2, h3⟩, h0, h4⟩
        exact ⟨⟨h0, h1⟩, ⟨h2, h3⟩, h4⟩

/-- A range that is removed. -/
theorem Memory.wf_filter {m : List Host.Cell} (h : Memory.wf m = true) (p : Host.Cell → Bool) :
    Memory.wf (m.filter p) = true := by
  rw [Memory.wf_iff] at *
  exact ⟨h.1.filter p, fun c hc => h.2 c (List.mem_of_mem_filter hc)⟩

/-- The cells of a write lie in its range, rise, and are not 0. -/
theorem Memory.cells_spec (bs : List Byte) : ∀ a, Memory.Canonical (Memory.cells a bs) ∧
    ∀ c ∈ Memory.cells a bs, a ≤ c.1 ∧ c.1 < a + bs.length := by
  induction bs with
  | nil => intro a; simp [Memory.cells, Memory.Canonical]
  | cons b bs ih =>
    intro a
    obtain ⟨⟨h1, h2⟩, h3⟩ := ih (a + 1)
    have h3' : ∀ c ∈ Memory.cells (a + 1) bs, a + 1 ≤ c.1 ∧ c.1 < a + (bs.length + 1) := by
      intro c hc
      have := h3 c hc
      omega
    simp only [Memory.cells, Memory.Canonical, List.length_cons]
    split
    · exact ⟨⟨h1, h2⟩, fun c hc => by have := h3' c hc; omega⟩
    · rename_i hb
      refine ⟨⟨List.pairwise_cons.mpr ⟨fun c hc => by have := h3' c hc; simp only; omega, h1⟩, ?_⟩, ?_⟩
      · simp only [List.forall_mem_cons]
        exact ⟨hb, h2⟩
      · simp only [List.forall_mem_cons]
        exact ⟨by omega, fun c hc => by have := h3' c hc; omega⟩

/-- The write of bytes. -/
theorem Memory.wf_write {m : List Host.Cell} (h : Memory.wf m = true) (a : Nat) (bs : List Byte) :
    Memory.wf (Memory.write m a bs) = true := by
  rw [Memory.wf_iff] at *
  obtain ⟨⟨c1, c2⟩, c3⟩ := Memory.cells_spec bs a
  refine ⟨?_, ?_⟩
  · simp only [Memory.write, List.pairwise_append, List.mem_append, List.mem_filter, decide_eq_true_eq]
    refine ⟨⟨h.1.filter _, c1, ?_⟩, h.1.filter _, ?_⟩
    · intro x hx y hy
      have := c3 y hy
      omega
    · rintro x (hx | hx) y hy
      · omega
      · have := c3 x hx
        omega
  · intro c hc
    simp only [Memory.write, List.mem_append, List.mem_filter] at hc
    rcases hc with (hc | hc) | hc
    · exact h.2 c hc.1
    · exact c2 c hc
    · exact h.2 c hc.1

theorem wf_writePhys {s : State} (h : Memory.wf s.mem = true) (a : Nat) (bs : List Byte) :
    Memory.wf (s.writePhys a bs).mem = true := Memory.wf_write h a bs

theorem wf_wipe {s : State} (h : Memory.wf s.mem = true) (rs : List (Nat × Nat)) : Memory.wf (s.wipe rs).mem = true :=
  Memory.wf_filter h _

theorem wf_reset : Memory.wf State.reset.mem = true := rfl

end Sys2Proof.Machine
end

