-- ==== Sys2Proof/Tests/Slice0.lean ====
section
/-!
SUPPORT. Sys2Proof/Tests/Slice0.lean: ill-formed terms, words written out from the spec, one step of some instructions
against the spec's rules and worked examples, and for every statement a state and operands that meet its hypotheses.
-/

namespace Sys2Proof.Tests

open Sys2Proof Sys2Proof.Machine

set_option maxRecDepth 20000
set_option exponentiation.threshold 5000

/-! ## The small states of the tests -/

/-- The header of the tests: slots 0 to 7 may be started, no flag is named, no release (R38, R39). -/
def hw0 : Word := 0x07F8000F

/-- A thread in the first slot of a clause at code offset 0. -/
def thr (l : Nat) : Thread :=
  { pc := 4, clause := some ⟨0, hw0, []⟩, v := [(0, BitVec.ofNat 32 l), (1, 5), (4, 1)], opc := 7
    teamThread := BitVec.ofNat 32 l }

/-- A group of a marked team of a system context: lane 0 runs, lane 1 is at the same place. -/
def grp : Group :=
  { ctx := 0, team := 1, core := 0, slice := 0, w := 16, cbase := 0, groupId := 0, s := [(2, 1)], pool := 4
    mapped := (List.range 64).map fun n => (n, 0), threads := [(0, thr 0), (1, thr 1)] }

def team : Team := { ctx := 0, core := 0, nthr := 2, w := 16, scrBase := 4096, scrLen := 65536, mtx := true, handler := 4096 }

/-- A team without scratchpad or tiles, which the scheduler saves. -/
def small : Team := { team with scrLen := 0, mtx := false, paired := true, handler := 0 }

/-- Lane 0's slot. -/
def slot : Slot := { gid := 5, lanes := [0], pc := 4 }

/-- Memory: entry 0 of the root table at die 0's address 0, a leaf of 1 GiB on stack 0 at frame 0x4000 with every permission
(R311, R313), and at its global addresses 0x1000, 0x1040 and 0x1080 a collective's descriptor of rank 0 of group 1 with chunks
of 256 bytes, a multicast descriptor of positions 1 and 2, a launch record of one team of 16 threads, and the headers of a trap area of four frames and of
a save area of 1 MiB (R79, R274, R297, R362, R381). -/
def mem0 : List Host.Cell :=
  [(0, 0x3F), (1, 3), (3, 0x40), (8, 1)] ++
    ([(0x100A, 2), (0x100C, 1), (0x1031, 1), (0x1040, 2), (0x1048, 1), (0x104A, 2), (0x1081, 0x20), (0x1090, 1), (0x1092, 1),
      (0x1094, 1), (0x1098, 16), (0x109E, 8), (0x100004, 4), (0x200002, 0x10)] : List Host.Cell).map fun c => (2 ^ 30 + c.1, c.2)

/-- A node table with one node of one word, whose teams start with two records (R281). -/
def table : NodeTable := ⟨[], [⟨0x2000, 1, 2, true, 0, false, 16, 1000, 4096⟩], 0x8000, 4, 0, 0⟩

def ctx0 : Ctx :=
  { cfg := { sys := true, cores := [0, 1, 2], windows := [⟨0, 2 ^ 28, false⟩], roots := [some 0], rma := [⟨2 ^ 30, 4096, false⟩] }
    tx := [(7, [0, 0, 0, 0x00010001, 0, 0, 0, 0x00010001])], node := some table, trapLo := 0x100000, saveLo := 0x200000 }

/-- The state in which a test's instruction runs: group 5 of team 1 of context 0, and what the test adds. -/
def demo (g : Group := grp) : State :=
  { State.reset with
    boot := ⟨.running, 0, 0, 0⟩, groups := [(5, g)], teams := [(1, team)], ctxs := [(0, ctx0)], mem := mem0
    clusters := [(0, { cores := [0], nthr := 2 })], mgroups := [(1, [0, 4])], nextId := 50, cur := some slot, rtime := 1000 }

/-- Lane 0 passes the checks of `i`, the guard holds, and the destination's names are there. -/
def fine (g : Group) (i : Instr) : Bool :=
  decide ((demo g).check i g 0 = none) && g.guard .always 0 && decide ((g.thread 0).pc = 4)
    && (((demo g).began i 5 g [0]).mapNames 5 (dstNames i g.w)).isSome

/-- The state in which `i` reads its operands. -/
def start (g : Group) (i : Instr) : State := (((demo g).began i 5 g [0]).mapNames 5 (dstNames i g.w)).getD (demo g)

/-- Where `fine` says so, `i` executes in the test's state. -/
theorem fine_executes {g : Group} {i : Instr} (h : fine g i = true) : Executes i {} (demo g) slot g [0] [] (start g i) := by
  simp only [fine, Bool.and_eq_true, decide_eq_true_eq] at h
  refine ⟨rfl, rfl, by decide, fun l hl => ?_, fun l hl => ?_, ?_, ?_, by decide, ?_⟩
  · simp only [slot, List.mem_singleton] at hl
    exact hl ▸ h.1.2
  · simp only [slot, List.mem_singleton] at hl
    exact hl ▸ h.1.1.1
  · simp [slot, h.1.1.2]
  · simp [slot, h.1.1.2]
  · simp only [slot, start]
    obtain ⟨x, hx⟩ := Option.isSome_iff_exists.mp h.2
    rw [hx]; rfl

theorem all_fine {g : Group} {is : List Instr} (h : is.all (fine g) = true) :
    ∀ i ∈ is, Executes i {} (demo g) slot g [0] [] (start g i) := fun i hi => fine_executes (List.all_eq_true.mp h i hi)

/-- Where an instruction may also issue: its flags have room and the thread's operations are few. -/
def issues (a b : Bool) (g : Group) (i : Instr) : Bool := fine g i && decide ((start g i).issueStall slot [0] a b = none)

theorem all_issue {a b : Bool} {g : Group} {is : List Instr} (h : is.all (issues a b g) = true) :
    ∀ i ∈ is, Executes i {} (demo g) slot g [0] [] (start g i) ∧ (start g i).issueStall slot [0] a b = none := by
  intro i hi
  have := List.all_eq_true.mp h i hi
  simp only [issues, Bool.and_eq_true, decide_eq_true_eq] at this
  exact ⟨fine_executes this.1, this.2⟩

/-- No flag that an instruction raises is enabled in `TRAPEN`. -/
def quiet (g : Group) (i : Instr) : Bool := fine g i && decide (((start g i).group? 5).map Group.trapen = some 0)

theorem all_quiet {g : Group} {is : List Instr} (h : is.all (quiet g) = true) : ∀ i ∈ is,
    Executes i {} (demo g) slot g [0] [] (start g i) ∧ ∀ ls fl, Untrapped (start g i) 5 ls fl := by
  intro i hi
  have := List.all_eq_true.mp h i hi
  simp only [quiet, Bool.and_eq_true, decide_eq_true_eq] at this
  refine ⟨fine_executes this.1, fun ls fl l _ => ?_⟩
  obtain ⟨x, hx, h0⟩ := Option.map_eq_some_iff.mp this.2
  simp [State.fpTrap?, hx, h0]

/-- What an answer holds. -/
def Out.has (o : Out) (p : State → Bool) : Bool :=
  match o with
  | .next s => p s
  | .fault _ => false
  | .refused _ => false

/-- The result of an `Except`, with what is to hold of it. -/
def okAnd {ε α : Type} (x : Except ε α) (p : α → Bool) : Bool :=
  match x with
  | .ok a => p a
  | .error _ => false

theorem okAnd_iff {ε α : Type} {x : Except ε α} {p : α → Bool} : okAnd x p = true ↔ ∃ a, x = .ok a ∧ p a = true := by
  cases x <;> simp [okAnd]

/-- An answer that came without a failure. -/
def errNone {α β : Type} (x : α × Option β) : Bool := x.2.isNone

/-- The same for an `Option`. -/
def someAnd {α : Type} (x : Option α) (p : α → Bool) : Bool :=
  match x with
  | some a => p a
  | none => false

theorem someAnd_iff {α : Type} {x : Option α} {p : α → Bool} : someAnd x p = true ↔ ∃ a, x = some a ∧ p a = true := by
  cases x <;> simp [someAnd]

abbrev v (n : Fin 64) : Opnd := .v n
abbrev sr (n : Fin 48) : Opnd := .s n

/-! ## Ill-formed terms, one for each check of WellFormed -/

theorem test_ill_source : (Instr.iadd {} (v 0) .litNone (v 1)).shapeOk = false := by decide
theorem test_ill_destination : (Instr.iadd {} (.lit 1) (v 0) (v 1)).shapeOk = false := by decide
theorem test_ill_iaddi_source : (Instr.iaddi {} (v 0) (.lit 3) 1).shapeOk = false := by decide
/-- R54, R55, R116: unused fields of ALU3, and the types of `IMAD`. -/
theorem test_ill_alu3 : (Instr.imad {} { c := v 1, ty := .f32 } (v 0) (v 0) (v 1)).shapeOk = false ∧
    (Instr.imad {} { c := v 1, ty := .i32, rm := .rtz } (v 0) (v 0) (v 1)).shapeOk = false ∧
    (Instr.bfi {} { c := v 1, ty := .i32, sat := true } (v 0) (v 0) (v 1)).shapeOk = false ∧
    (Instr.ffma {} { c := v 1, ty := .f64 } (v 0) (v 0) (v 1)).shapeOk = false ∧
    (Instr.pfma {} { c := v 1, ty := .f32 } (v 0) (v 0) (v 1)).shapeOk = false := by decide
theorem test_ill_alu2 : (Instr.padd {} { ty := .nf8x4 } (v 0) (v 0) (v 1)).shapeOk = false ∧
    (Instr.padd {} { ty := .i8x4, rm := .rup } (v 0) (v 0) (v 1)).shapeOk = false ∧
    (Instr.pmin {} { ty := .f16x2, na := true } (v 0) (v 0) (v 1)).shapeOk = false ∧
    (Instr.frnd {} { ty := .f32, sat := true } (v 0) (v 0)).shapeOk = false := by decide
theorem test_ill_sel_cmp : (Instr.sel {} ⟨0, .i16x2⟩ (v 0) (v 0) (v 1)).shapeOk = false ∧
    (Instr.icmp {} ⟨.ord, .i32⟩ 0 (v 0) (v 1)).shapeOk = false ∧ (Instr.fcmp {} ⟨.lt, .i32⟩ 0 (v 0) (v 1)).shapeOk = false := by decide
/-- R256: no conversion from a type to itself. -/
theorem test_ill_cvt : (Instr.cvt {} ⟨.f32, .f32, .rne, false⟩ (v 0) (v 1)).shapeOk = false ∧
    (Instr.cvt {} ⟨.i8x4, .i64, .rne, false⟩ (v 0) (v 2)).shapeOk = false := by decide
/-- R60, R163: a load releases nothing, a store acquires nothing and extends no sign. -/
theorem test_ill_load_store : (Instr.ldg {} { w := 2, ord := .rel } (v 0) (v 2) (v 1)).shapeOk = false ∧
    (Instr.lds {} { w := 2, sgn := true } (v 0) (v 2) (v 1)).shapeOk = false ∧
    (Instr.ldb {} { w := 2, aop := 1 } (v 0) (v 2) (v 1)).shapeOk = false ∧
    (Instr.stg {} { w := 2, ord := .acq } (v 0) (v 2) (v 1)).shapeOk = false := by decide
/-- R164: 32 bits for the float add, 16 bytes without `RET` for `GMADD`, and banks only for the mean's operations. -/
theorem test_ill_atom : (Instr.atomb {} { w := 3, aop := 1 } (v 0) (v 2) (v 1)).shapeOk = false ∧
    (Instr.atomb {} { w := 4, aop := 14, ret := true } (v 0) (v 2) (v 1)).shapeOk = false ∧
    (Instr.atomg {} { w := 4, aop := 14 } (v 0) (v 2) (v 1)).shapeOk = false := by decide
theorem test_ill_fence_queue : (Instr.fence {} { w := 2 }).shapeOk = false ∧ (Instr.tfence {} { w := 0, scope := .grp }).shapeOk = false ∧
    (Instr.pref {} { w := 2 } (v 2) (v 1)).shapeOk = false ∧ (Instr.qpush {} { w := 2, ofs := 4 } (v 0) 0).shapeOk = false := by decide
theorem test_ill_async : (Instr.cpy {} ⟨.global, .scratch, v 1, .devp, false, false, false⟩ (v 0) (v 4) (v 1)).shapeOk = false ∧
    (Instr.cpy {} ⟨.global, .scratch, .nul, .grp, false, true, false⟩ (v 0) (v 4) (v 1)).shapeOk = false ∧
    (Instr.tload {} { txi := 0, csc := .devp, bar := v 1 } (v 0) (v 4) (v 1)).shapeOk = false ∧
    (Instr.tstore {} { txi := 0, csc := .grp, bar := v 1, pad := true } (v 0) (v 4) (v 1)).shapeOk = false ∧
    (Instr.bankop {} { opk := 0, ty := .i8x4, csc := .grp } (v 0) (v 4) (v 1)).shapeOk = false ∧
    (Instr.restripe {} ⟨0, .devp, false⟩ (v 0) (v 4) (v 1)).shapeOk = false := by decide
theorem test_ill_matrix : (Instr.msts {} { c := v 1, tile := 0, dty := 7 } 0 (v 0) (v 1)).shapeOk = false ∧
    (Instr.mrd {} ⟨0, 0, 0, 0, 8⟩ 0 (v 0) (v 1)).shapeOk = false ∧ (Instr.mwr {} ⟨0, 0, 0, 0, 0⟩ 0 (v 0) (v 1)).shapeOk = false := by decide
theorem test_ill_cross_lane : (Instr.redux {} ⟨3, .f32⟩ (v 0) (v 1)).shapeOk = false ∧ (Instr.scan {} ⟨1, .f32, false⟩ (v 0) (v 1)).shapeOk = false ∧
    (Instr.redux {} ⟨0, .i16x2⟩ (v 0) (v 1)).shapeOk = false := by decide
theorem test_ill_control : (Instr.bar {} { idx := 4, clu := true } (v 0)).shapeOk = false ∧ (Instr.spawn {} ⟨0, 0, false⟩ (v 0) (v 1)).shapeOk = false ∧
    (Instr.rload {} ⟨5, 0, false⟩ (v 0) (v 2) (v 1)).shapeOk = false := by decide
/-- R363: a field that a step does not use, and indexes and bit ranges that do not exist. -/
theorem test_ill_step : (Instr.send { pb := 1 }).shapeOk = false ∧ (Instr.recv { ij := 3 }).shapeOk = false ∧
    (Instr.waitStep { fb := 40, nb := 40 }).shapeOk = false ∧ (Instr.endl { k := 1 }).shapeOk = false := by decide

/-- The words are exactly instruction `i`. -/
def reads (page : Nat) (ws : List Word) (i : Instr) : Bool :=
  match decodeWords page ws with
  | .ok (j, []) => decide (j = i)
  | _ => false

/-- The words are refused as an illegal instruction. -/
def refuses (page : Nat) (ws : List Word) : Bool :=
  match decodeWords page ws with
  | .error e => decide (e = .illegalInstruction)
  | .ok _ => false

/-! ## Words of the spec's listings decode to what stands beside them (R5 to R7, R123, R132, R173) -/

theorem test_decode_page0 : reads 0 [0x66317FFE, 0xF0000100] (.mov {} (sr 5) (.lit 0xF0000100)) = true ∧
    reads 0 [0x6000C082] (.iadd {} (v 3) (v 1) (v 2)) = true ∧
    reads 0 [0x0820C101] (.isub { g := .pred 1 } (v 3) (v 2) (v 1)) = true ∧
    reads 0 [0x65C00082, 0x40000000] (.icmp {} ⟨.gt, .i32⟩ 0 (v 1) (v 2)) = true ∧
    reads 0 [0x6671A37F] (.iaddi {} (sr 6) (sr 6) (-1)) = true ∧
    reads 0 [0x636140FE, 0xFE000000, 0x00000123] (.prmt {} { c := .lit 0x123, ty := .i32 } (v 5) (v 1) .nul) = true := by decide

theorem test_decode_page1 : reads 1 [0x604062FE, 0x04000000] (.lds {} { w := 2 } (v 1) (sr 5) .nul) = true ∧
    reads 1 [0x60014147, 0x04000000] (.ldg {} { w := 2 } (v 5) (v 2) (sr 7)) = true := by decide

/-- `SP` 0, `G` 12, opcode 0x0D, `D` = `v4`, `A` = `v2`, `B` unread: 126. -/
theorem test_decode_page2 : reads 2 [0b0#1 ++ 0b1100#4 ++ 0b001101#6 ++ 0b0000100#7 ++ 0b0000010#7 ++ 0b1111110#7] (.cancel {} (v 4) (v 2)) = true := by decide

theorem test_decode_page5 : reads 5 [0x6040C005] (.call {} (v 3) 5) = true ∧ reads 5 [0x607F81FE] (.ret {} (v 3)) = true ∧
    reads 5 [0x613FBF7E] (.exit {}) = true ∧ reads 5 [0x101FFFF7] (.bra { g := .pred 2 } (-9)) = true := by decide

/-- Page 3: the listing of R241; page 4: that of R375; page 6: that of R264; a step word: that of R363. -/
theorem test_decode_rest : reads 3 [0x60E0EA55, 0xAC460000] (.msts {} { c := sr 22, tile := 2, dty := 3 } 3 (sr 20) (sr 21)) = true ∧
    reads 4 [0x6005247F, 0x4A000000, 0x00000011] (.mcst {} { ssp := false, c := sr 10 } (v 20) (sr 8) (.lit 17)) = true ∧
    reads 6 [0x01A1017E, 0x02000000] (.redux { g := .pred 0 } { opr := 0, ty := .f32 } (v 4) (v 2)) = true ∧
    (decodeStep 0x3404CFFF00000000).toOption = some (.rrs { pa := 1, pb := 0, ia := 1, ij := 0, ib := 3, k := -1 }) := by decide

/-- R54: an unassigned opcode, a guard of 14, and a reserved field. -/
theorem test_decode_refuses : refuses 0 [0x67E00000] = true ∧ refuses 0 [0x7000C082] = true ∧
    refuses 1 [0x604062FE, 0x1C000000] = true := by decide

/-! ## One step of an instruction: what the rules say a register holds after it -/

/-- Register `o` of lane 0 after `i`, in a group whose `v0` to `v3` hold these words. -/
def gives (ws : List Word) (i : Instr) (o : Opnd) (w : Word) : Bool :=
  let g := { grp with threads := [(0, { thr 0 with v := (List.range ws.length).zip ws })] }
  Out.has (exec i (demo g)) fun t => decide (t.src32 5 0 o = w)

/-- R5: 7 and 35. -/
theorem test_iadd : gives [7, 35] (.iadd {} (v 2) (v 0) (v 1)) (v 2) 42 = true := by decide
theorem test_iadd_wraps : gives [0xFFFFFFFF, 2] (.iadd {} (v 1) (v 0) (v 1)) (v 1) 1 = true := by decide
theorem test_isub_operand_order : gives [3, 5] (.isub {} (v 2) (v 0) (v 1)) (v 2) 0xFFFFFFFE = true := by decide
theorem test_imulh_signs : gives [0xFFFFFFFF, 2] (.imulhI {} (v 2) (v 0) (v 1)) (v 2) 0xFFFFFFFF = true ∧
    gives [0xFFFFFFFF, 2] (.imulhU {} (v 2) (v 0) (v 1)) (v 2) 1 = true := by decide
theorem test_imin_signs : gives [0x80000000, 1] (.iminI {} (v 2) (v 0) (v 1)) (v 2) 0x80000000 = true ∧
    gives [0x80000000, 1] (.iminU {} (v 2) (v 0) (v 1)) (v 2) 1 = true := by decide
theorem test_andn : gives [0xFF, 0x0F] (.andn {} (v 2) (v 0) (v 1)) (v 2) 0xF0 = true := by decide
/-- R117 in a pair: the carry goes into the high word. -/
theorem test_iadd64_carry : gives [0xFFFFFFFF, 0, 1, 0] (.iadd64 {} (v 4) (v 0) (v 2)) (v 5) 1 = true := by decide
/-- The worked clause of the integer chapter: 0xF4 sign-extended, its product with 2^28, saturated and not, and the bytes of
0x12F456A8 reversed. -/
theorem test_worked_clause :
    gives [0x12F456A8] (.bfeI {} (v 2) (v 0) (.lit 0x0810)) (v 2) 0xFFFFFFF4 = true ∧
    gives [0xFFFFFFF4] (.imad {} { c := .k 0, ty := .i32, sat := true } (v 3) (v 0) (.lit 0x10000000)) (v 3) 0x80000000 = true ∧
    gives [0xFFFFFFF4] (.imad {} { c := .k 0, ty := .i32 } (v 4) (v 0) (.lit 0x10000000)) (v 4) 0x40000000 = true ∧
    gives [0x12F456A8] (.prmt {} { c := .lit 0x0123, ty := .i32 } (v 5) (v 0) .nul) (v 5) 0xA856F412 = true := by decide
/-- R122, R123. -/
theorem test_counts : gives [0x12F456A8] (.popc {} (v 1) (v 0)) (v 1) 14 = true ∧ gives [0] (.clz {} (v 1) (v 0)) (v 1) 32 = true ∧
    gives [1] (.brev {} (v 1) (v 0)) (v 1) 0x80000000 = true ∧ gives [0x80000000] (.iabs {} (v 1) (v 0)) (v 1) 0x80000000 = true ∧
    gives [0x80] (.prmt {} { c := .lit 0x8880, ty := .i32 } (v 1) (v 0) .nul) (v 1) 0xFFFFFF80 = true := by decide
/-- R124: the majority of three. -/
theorem test_lop3 : gives [0b0011, 0b0101, 0b0110] (.lop3 {} ⟨v 2, 0xE8⟩ (v 3) (v 0) (v 1)) (v 3) 0b0111 = true := by decide
/-- R26, R50: an unmapped register and `NUL` read 0. -/
theorem test_mov_nul : gives [5] (.mov {} (v 0) .nul) (v 0) 0 = true := by decide
theorem test_movi_sign : gives [] (.movi {} (v 0) (-1)) (v 0) 0xFFFFFFFF = true := by decide

/-- 1.5 + 2.25, 1 / 3 to nearest, and −0 from a multiplication. -/
theorem test_float : gives [0x3FC00000, 0x40100000] (.fadd {} (v 2) (v 0) (v 1)) (v 2) 0x40700000 = true ∧
    gives [0x3F800000, 0x40400000] (.fdiv {} (v 2) (v 0) (v 1)) (v 2) 0x3EAAAAAB = true ∧
    gives [0x80000000, 0x3F800000] (.fmul {} (v 2) (v 0) (v 1)) (v 2) 0x80000000 = true := by decide
/-- R202: the worked conversions to NF8 and NF4, four and eight at a time. -/
theorem test_cvt_narrow : gives [0x40540000, 0x3F880000, 0x3F980000, 0x43FA0000] (.cvt {} ⟨.f32, .nf8x4, .rne, false⟩ (v 4) (v 0)) (v 4)
      0x7F3A3845 = true ∧
    gives [0x40200000, 0x3F600000, 0x3EC00000, 0, 0, 0, 0, 0] (.cvt {} ⟨.f32, .nf4x8, .rne, false⟩ (v 8) (v 0)) (v 8) 0x00000024 = true := by
  decide
/-- R250: a signalling NaN operand raises NV. -/
theorem test_flags_nv : Out.has (exec (.fadd {} (v 2) (v 0) (v 1)) (demo { grp with threads := [(0, { thr 0 with v := [(0, 0x7F800001)] })] }))
    (fun t => decide ((t.group? 5).map Group.flags = some 1)) = true := by decide

/-- R357: 2^30, 1, −2^30, 1 and four times 0.25 in the canonical tree of eight positions. -/
theorem test_pulled_sum : pullRoot 0 0 7 ([0x4E800000, 0x3F800000, 0xCE800000, 0x3F800000, 0x3E800000, 0x3E800000, 0x3E800000,
    0x3E800000].map fun e => lineToCarry 0 (toBytes 4 e)) = lineToCarry 0 (toBytes 4 0x40000000) := by decide
/-- The worked example of R213: four ones and a 4 under p = 2. -/
theorem test_mean : let e : GmEnv := ⟨0, 0x40000000, []⟩
    let m (a b : GmState) : GmState := (Gm.merge e a b).1
    let one := Gm.term e 0x3F800000
    let four := m (m (m one one) one) one
    four = ⟨0x40800000, 0, 4⟩ ∧ Gm.term e 0x40800000 = ⟨0x3F800000, 2, 1⟩ ∧
      m four (Gm.term e 0x40800000) = ⟨0x3FA00000, 2, 5⟩ ∧ m (Gm.term e 0x40800000) four = ⟨0x3FA00000, 2, 5⟩ ∧
      (Gm.exit e ⟨0x3FA00000, 2, 5⟩).1 = 0x40000000 := by decide

/-! ## Other effects -/

/-- The listing of the control chapter: the link of a `CALL` that is the tail of a clause of two words is 0x0C, and it goes 5
words on from its own place. -/
theorem test_call : Out.has (exec (.call {} (v 3) 5) { demo { grp with threads := [(0, { thr 0 with pc := 8, clause := some ⟨0, 0x17F80002, [0x662080FE, 0x6040C005]⟩ })] } with
      cur := some { slot with pc := 8 } })
    (fun t => decide (t.src32 5 0 (v 3) = 0x0C) && decide ((t.thread 5 0).pc = 0x1C)) = true := by decide
/-- R69: a load takes number 7, and `OPC` is 8. -/
theorem test_load_number : Out.has (exec (.ldg {} { w := 2 } (v 5) (.lit 0x1000) (v 8)) demo)
    (fun t => decide ((t.thread 5 0).opc = 8) && decide (t.hz 5 0 = 7)) = true := by decide +kernel
/-- R70, R160: the store of a word to scratchpad stands there least significant byte first. -/
theorem test_sts : Out.has (exec (.sts {} { w := 2 } (.lit 0x01020304) (.lit 16) (v 8)) demo)
    (fun t => decide (t.readPhys (scratchPhys 0 4112) 4 = [4, 3, 2, 1])) = true := by decide
/-- R161: a misaligned address traps and stores nothing; the handler starts at its offset with the frame's address in `s46`. -/
theorem test_misaligned : Out.has (exec (.sts {} { w := 2 } (.lit 1) (.lit 18) (v 8)) demo)
    (fun t => decide ((t.thread 5 0).pc = 4096) && decide (t.src32 5 0 (sr 46) = 0x100200) && decide (t.readPhys (scratchPhys 0 4096) 32 = List.replicate 32 0))
    = true := by decide
/-- R77, R79: the frame of a user trap begins with cause 0x70 and class 0, and keeps the immediate at +16. -/
theorem test_trap_frame : Out.has (exec (.trap {} 0x1234) demo)
    (fun t => decide (t.readPhys (2 ^ 30 + 0x100200) 3 = [0x70, 0, 0]) && decide (t.readPhys (2 ^ 30 + 0x100210) 2 = [0x34, 0x12])) = true := by
  decide
/-- R65: a privileged register in user mode. -/
theorem test_privileged : ({ demo with ctxs := [(0, { cfg := {} })] } : State).check (.getsr {} (v 0) 64) grp 0 = some .privileged := by decide
/-- R154: a write of `FLAGS` keeps six bits. -/
theorem test_setsr_flags : Out.has (exec (.setsr {} 11 (.lit 0xFFFFFFFF)) demo)
    (fun t => decide ((t.group? 5).map Group.flags = some 0x3F)) = true := by decide
/-- R225: two signatures of a declared two issue the operation to the engine. -/
theorem test_signatures : Out.has (exec (.mzero {} 2 15) { demo with teams := [(1, { team with anchors := [(2, { n := 1 })] })] })
    (fun t => decide ((t.core 0).eng.length = 1)) = true := by decide
/-- R408: the trigger latches the tick once. -/
theorem test_snap : Out.has (exec (.snap {} (sr 2)) demo)
    (fun t => decide (t.snap = { latched := true, tick := 1000, tag := 1 })) = true := by decide

/-! ## The opcode table's words run as the first instruction after reset -/

theorem test_fetch_word : decodeTableWord 32 0x60000000 = some (.iadd {} (v 0) (v 0) (v 0)) ∧
    Out.has (step (State.reset.withFetchWord 32 0x60000000)) (fun t => decide ((t.thread 2 0).pc = 8)) = true := by decide

/-! ## Witnesses of the statements' hypotheses: instructions -/

theorem wit_TwoSourceWordsComplete : ∀ i ∈ ([.iadd, .isub, .imul, .imulhI, .imulhU, .iminI, .iminU, .imaxI, .imaxU, .and, .or,
    .xor, .andn, .shl, .shr, .sar, .rol, .clmul, .clmulh] : List (Pre → Opnd → Opnd → Opnd → Instr)).map
      (fun c => c {} (v 2) (v 0) (v 1)),
    Executes i {} (demo) slot grp [0] [] (start grp i) ∧ ∀ ls fl, Untrapped (start grp i) 5 ls fl := all_quiet (by decide)

def bitFields : List Instr :=
  [.bfeU {} (v 2) (v 0) (v 1), .bfeI {} (v 2) (v 0) (v 1), .bfi {} { c := v 1, ty := .i32 } (v 2) (v 0) (v 1), .popc {} (v 2) (v 0),
    .clz {} (v 2) (v 0), .brev {} (v 2) (v 0), .iabs {} (v 2) (v 0), .mov {} (v 2) (.lit 7), .movi {} (v 2) (-1), .iaddi {} (v 2) (v 0) 9,
    .prmt {} { c := v 1, ty := .i32 } (v 2) (v 0) (v 1), .lop3 {} ⟨v 1, 0xE8⟩ (v 2) (v 0) (v 1), .sel {} ⟨0, .i64⟩ (v 2) (v 0) (v 4)]

theorem wit_BitFieldsAndMovesComplete : ∀ i ∈ bitFields, Executes i {} demo slot grp [0] [] (start grp i) ∧
    ∀ ls fl, Untrapped (start grp i) 5 ls fl := all_quiet (by decide)

theorem wit_WideAndMultiplyAddComplete : ∀ i ∈ ([.iadd64 {} (v 2) (v 0) (v 4), .isub64 {} (v 2) (v 0) (v 4),
      .imad {} { c := v 1, ty := .i32 } (v 2) (v 0) (v 1), .imad {} { c := v 1, ty := .u32 } (v 2) (v 0) (v 1),
      .imadw {} { c := v 4, ty := .i32 } (v 2) (v 0) (v 1), .imadw {} { c := v 4, ty := .u32 } (v 2) (v 0) (v 1)] : List Instr),
    Executes i {} demo slot grp [0] [] (start grp i) ∧ ∀ ls fl, Untrapped (start grp i) 5 ls fl := all_quiet (by decide)

theorem wit_FloatArithmeticComplete : ∀ i ∈ ([.fadd, .fsub, .fmul, .fdiv, .fmin, .fmax, .dadd, .dmul] :
      List (Pre → Opnd → Opnd → Opnd → Instr)).map (fun c => c {} (v 2) (v 0) (v 4)) ++
    [.ffma {} { c := v 1, ty := .f32 } (v 2) (v 0) (v 1), .dfma {} { c := v 4, ty := .f64 } (v 2) (v 0) (v 4),
      .frnd {} { ty := .f32 } (v 2) (v 0), .frnd {} { ty := .f64 } (v 2) (v 0), .fclass {} (v 2) (v 0), .fabs {} (v 2) (v 0)],
    Executes i {} demo slot grp [0] [] (start grp i) ∧ ∀ ls fl, Untrapped (start grp i) 5 ls fl := all_quiet (by decide)

theorem wit_PackedAndConversionsComplete : ∀ i ∈ ([.padd, .psub, .pmul, .pmin, .pmax] :
      List (Pre → Alu2 → Opnd → Opnd → Opnd → Instr)).map (fun c => c {} { ty := .f16x2 } (v 2) (v 0) (v 1)) ++
    [.pfma {} { c := v 1, ty := .i16x2 } (v 2) (v 0) (v 1), .cvt {} ⟨.f32, .bf16x2, .rne, false⟩ (v 2) (v 0)],
    Executes i {} demo slot grp [0] [] (start grp i) ∧ ∀ ls fl, Untrapped (start grp i) 5 ls fl := all_quiet (by decide)

theorem wit_SpecialFunctionsAndQueriesComplete : ∀ i ∈ ([.rcp, .rsq, .sqrt, .exp2, .log2, .sinpi, .cospi, .tanh, .sigm, .geoq] :
      List (Pre → Opnd → Opnd → Instr)).map (fun c => c {} (v 2) (v 0)) ++ [.tqry {} (v 2) 7 3],
    Executes i {} demo slot grp [0] [] (start grp i) ∧ ∀ ls fl, Untrapped (start grp i) 5 ls fl := all_quiet (by decide)

theorem wit_ComparesComplete : ∀ i ∈ ([.icmp {} ⟨.lt, .i32⟩ 0 (v 0) (v 1), .fcmp {} ⟨.unord, .f64⟩ 5 (v 0) (v 4)] : List Instr),
    Executes i {} demo slot grp [0] [] (start grp i) ∧ ∀ ls fl, Untrapped (start grp i) 5 ls fl := all_quiet (by decide)

/-- `v8` is 0: a barrier at scratchpad address 0 and a ticket of no operation. -/
theorem wit_PredicateWritesComplete : (∀ i ∈ ([.plop {} ⟨8⟩ 0 1 11, .vote {} { mode := 3, ps := 0 } 5, .ptest {} 0 (v 8),
      .btest {} 5 (v 8) (v 4)] : List Instr), Executes i {} demo slot grp [0] [] (start grp i)) ∧
    let s1 := start grp (.btest {} 5 (v 8) (v 4))
    s1.barBad 5 (s1.src32 5 0 (v 8)).toNat = none ∧
      (s1.bbar? 1 (s1.src32 5 0 (v 8)).toNat).any (fun x => !x.2.overrun) = true := ⟨all_fine (by decide), by decide⟩

theorem wit_MasksComplete : ∀ i ∈ ([.ballot {} (v 2) 11, .first {} (v 2) (v 0), .matchL {} (v 2) (v 0), .matchW64 {} (v 2) (v 0),
      .lanemask {} ⟨7⟩ (v 2)] : List Instr),
    Executes i {} demo slot grp [0] [] (start grp i) ∧ ∀ ls fl, Untrapped (start grp i) 5 ls fl := all_quiet (by decide)

theorem wit_ShuffleCompletes : ∀ i ∈ ([.shfl {} { c := .nul, mode := 0, pr := some 5, w64 := true } (v 2) (v 0) (v 1),
      .shfl {} { c := .s 0, mode := 3, seg := 3 } (v 2) (v 0) (v 1)] : List Instr),
    Executes i {} demo slot grp [0] [] (start grp i) := all_fine (by decide)

/-- A table image in the team's scratchpad: rule 0, the range from 0 to the least subnormal, and both tables rising through the
subnormals (R215). -/
def demoT : State :=
  let a : Nat := scratchPhys 0 4096
  let t (o : Nat) : List Host.Cell := (List.range 64).map fun i => (a + o + 4 * i, BitVec.ofNat 8 (i + 1))
  { demo with mem := mem0 ++ (a + 8, 1) :: t 20 ++ t 280 }

theorem wit_ReductionsComplete : (∀ i ∈ ([.redux {} ⟨2, .f32⟩ (v 2) (v 0), .scan {} ⟨3, .i64, true⟩ (v 2) (v 0),
      .gmred {} ⟨true, true⟩ (v 2) (v 4), .gmtab {} 7 (sr 8)] : List Instr),
    Executes i {} demo slot grp [0] [] (start grp i) ∧ ∀ ls fl, Untrapped (start grp i) 5 ls fl) ∧
    demoT.check (.gmtab {} 7 (sr 8)) grp 0 = none ∧
    let ad := (demoT.src32 5 0 (sr 8)).toNat
    ad % 16 = 0 ∧ (demoT.scratch? 1 ad 536).any (fun ph => !demoT.poisoned ph 536 &&
      Gm.imageOk ⟨4, 0, wordsOf 134 (ofBytes (demoT.readPhys ph 536))⟩) = true := ⟨all_quiet (by decide), by decide⟩

theorem wit_IntegerReductionIsSum : RxX.rop ⟨0, .u32⟩ = .add ∧ [0, 15].Nodup ∧
    ∀ l ∈ [0, 15], l < 2 ^ 4 ∧ (fun _ : Nat => 4294967295) l < 2 ^ 32 :=
  ⟨rfl, by decide, fun l h => ⟨by revert l; decide, by show 4294967295 < 2 ^ 32; omega⟩⟩

/-- Every address of `v8:v9` and `v10` is 0. -/
theorem wit_LoadsAndStoresIssue :
    (∀ i ∈ ([.ldg, .lds, .ldb] : List (Pre → Mx → Opnd → Opnd → Opnd → Instr)).map (fun c => c {} { w := 5 } (v 16) (v 8) (v 10)),
      Executes i {} demo slot grp [0] [] (start grp i) ∧ (start grp i).issueStall slot [0] true false = none) ∧
    (∀ i ∈ ([.stg, .sts, .stb] : List (Pre → Mx → Opnd → Opnd → Opnd → Instr)).map (fun c => c {} { w := 5 } (v 16) (v 8) (v 10)) ++
        [.pref {} { w := 0 } (v 8) (v 10), .tfence {} { w := 0, scope := .dev }],
      Executes i {} demo slot grp [0] [] (start grp i) ∧ (start grp i).issueStall slot [0] false true = none) ∧
    (∀ i ∈ [Instr.lds {} { w := 5 } (v 16) (v 8) (v 10), .sts {} { w := 5 } (v 16) (v 8) (v 10)],
      ((start grp i).src64 5 0 (v 8) false).toNat = 0 ∧ (start grp i).src32 5 0 (v 8) = 0 ∧ (start grp i).src32 5 0 (v 10) = 0 ∧
        ((start grp i).scratch? ((start grp i).teamOf 5) 0 32).isSome = true) :=
  ⟨all_issue (by decide), all_issue (by decide), by decide⟩

theorem wit_AtomicsIssue :
    (∀ i ∈ ([.atomg, .atoms, .atomb] : List (Pre → Mx → Opnd → Opnd → Opnd → Instr)).map
        (fun c => c {} { w := 3, aop := 12, ret := true } (v 16) (v 8) (v 10)),
      Executes i {} demo slot grp [0] [] (start grp i) ∧ (start grp i).issueStall slot [0] true false = none) ∧
    let s := start grp (.atoms {} { w := 3, aop := 12, ret := true } (v 16) (v 8) (v 10))
    s.eaGlobal 5 0 (v 8) (v 10) 0 % 8 = 0 ∧ s.eaLocal 5 0 (v 8) (v 10) 0 % 8 = 0 ∧
      (s.scratch? (s.teamOf 5) (s.eaLocal 5 0 (v 8) (v 10) 0) 8).isSome = true := ⟨all_issue (by decide), by decide⟩

theorem wit_IssueTakesNumbers : demo.mustHold grp 0 .rlx false true = false ∧ demo.group? 5 = some grp ∧
    (grp.thread? 0).isSome = true := by decide

/-- The copies' operands are 0: no bytes, addresses 0. -/
theorem wit_AsyncOperationsIssue :
    (∀ i ∈ ([.cpy {} ⟨.global, .scratch, v 8, .grp, false, false, false⟩ (v 16) (v 8) (v 12),
        .tload {} { txi := 7, csc := .core, bar := .nul } (v 16) (v 8) (v 10),
        .tstore {} { txi := 7, csc := .core, bar := .nul } (v 16) (v 8) (v 10),
        .bankop {} { opk := 0, ty := .f64, csc := .dev } (v 16) (v 8) (v 12), .restripe {} ⟨0, .sys, false⟩ (v 16) (v 8) (v 10)] :
        List Instr),
      Executes i {} demo slot grp [0] [] (start grp i) ∧ (start grp i).issueStall slot [0] true true = none) ∧
    let s := demo
    1 ≤ (s.freeSlots grp.core).length ∧ (s.scratch? (s.teamOf 5) 0 16).isSome = true ∧ s.sysMode 0 = true ∧
      okAnd (tileReq false { txi := 7, csc := .core, bar := .nul } (v 8) (v 10) s 5 0) (fun _ => true) = true ∧
      okAnd (tileReq true { txi := 7, csc := .core, bar := .nul } (v 8) (v 10) s 5 0) (fun _ => true) = true :=
  ⟨all_issue (by decide), by decide⟩

theorem wit_ContinuationsAndSpawnsIssue :
    (∀ i ∈ ([.resume {} (v 8), .ccopyMove {} (v 8) (v 10), .ccopyFork {} (v 8) (v 10), .spawn {} ⟨0, 0, true⟩ (v 8) (v 10),
        .spawn {} ⟨0, 0, false⟩ (v 8) .nul, .rspawn {} ⟨0, 0⟩ (v 8) (v 10)] : List Instr),
      Executes i {} demo slot grp [0] [] (start grp i) ∧ (start grp i).issueStall slot [0] false true = none) ∧
    (∀ i ∈ [Instr.resumeS {} (v 16) (v 8)],
      Executes i {} demo slot grp [0] [] (start grp i) ∧ (start grp i).issueStall slot [0] true false = none) ∧
    demo.nodeBad 0 0 1 = false ∧ (demo.src64 5 0 (v 8) false).toNat % 256 = 0 ∧ (demo.src64 5 0 (v 10) false).toNat % 256 = 0 ∧
    (demo.binAccept 0 0 0 (demo.srcRun 5 0 (v 8) 1)).isSome = true := ⟨all_issue (by decide), all_issue (by decide), by decide⟩

/-- The multicast's source and the pulled reduction's destination stand in scratchpad; group 1 is positions 0 and 4. -/
theorem wit_FabricOperationsIssue :
    (∀ i ∈ ([.mcst {} ⟨true, v 8, false⟩ (v 16) (v 8) (v 4), .mcst {} ⟨false, v 8, true⟩ (v 16) (v 8) (v 4),
        .rload {} ⟨0, 0, true⟩ (v 8) (v 8) (v 4), .peerq {} (v 16) (v 4)] : List Instr),
      Executes i {} demo slot grp [0] [] (start grp i) ∧ (start grp i).issueStall slot [0] true false = none) ∧
    (∀ i ∈ ([.wcflush {}, .scbset {} (v 1) (v 8), .scbclr {} (v 1) (v 8)] : List Instr),
      Executes i {} demo slot grp [0] [] (start grp i) ∧ (start grp i).issueStall slot [0] false true = none) ∧
    demo.groupOf? (demo.src32 5 0 (v 4)).toNat = some [0, 4] ∧ demo.storesPending 5 0 = false ∧
    (demo.scratch? 1 0 256).isSome = true ∧ demo.absent 0 0 { r := true } 0 = false ∧ (demo.src32 5 0 (v 1)).toNat < 256 :=
  ⟨all_issue (by decide), all_issue (by decide), by decide⟩

/-- The descriptors of `mem0`; `ARM` reads 64 bytes of zeros. -/
theorem wit_DescriptorOperationsIssue :
    (∀ i ∈ ([.arm {} ⟨255⟩ (.lit 0x1100) (v 8), .coll {} false (.lit 0x1000), .gang {} (.lit 0x1080) (.lit 1),
        .mgrp {} (.lit 4095) (.lit 0x1040)] : List Instr),
      Executes i {} demo slot grp [0] [] (start grp i) ∧ (start grp i).issueStall slot [0] false true = none) ∧
    okAnd (demo.cread 0 0 0x1100 64) (fun r => ({ sb := 255, mask := 0, addr := 0x1100, words := wordsOf 16 (ofBytes r.2), core := 0
                                                  gid := 5, team := 1 } : Armed).ok) = true ∧
    okAnd (demo.cread 0 0 0x1000 64) (fun r => okAnd (CollDesc.read r.1.groupOf? r.2) fun d =>
      decide (r.1.slotsBad 0 0 (r.1.sysMode 0) d = (false, none))) = true ∧
    okAnd (demo.cread 0 0 0x1080 64) (fun _ => true) = true ∧
    okAnd (demo.cread 0 0 0x1040 8) (fun r => decide (fld r.2 0 8 = 2) && okAnd (r.1.cread 0 0 0x1048 4) fun q =>
      decide (groupDesc (r.2 ++ q.2) = some [1, 2])) = true :=
  ⟨all_issue (by decide), by decide, by decide, by decide, by decide⟩

theorem wit_AnchoredInstructionsSign :
    (∀ i ∈ ([.mldw {} ⟨7, false⟩ 0 (.lit 0), .mswap {} 7, .mma {} { tile := 0, row := 0, txa := 7 } 1 (.lit 0) (.lit 0x00010000),
        .mzero {} 2 15, .mrd {} ⟨1, 0, 0, 0, 0⟩ 3 (.lit 0) (.lit 1), .mwr {} ⟨1, 0, 0, 0, 8⟩ 3 (.lit 0) (.lit 1),
        .msts {} { c := .lit 0, tile := 2, dty := 3 } 4 (.lit 0) (.lit 0x00010000), .rstat {} ⟨.lit 0, 1, 0⟩ 5 (.lit 0) (.lit 0),
        .mscale {} { c := .lit 0, tile := 1 } 5 (.lit 0) (.lit 0)] : List Instr),
      Executes i {} demo slot grp [0] [] (start grp i) ∧ (start grp i).issueStall slot [0] true true = none) ∧
    let s := demo.fresh.2.raiseFlags slot true true
    s.sigBad 1 ⟨.mswap {} 7, [0, 0, 0]⟩ = none ∧ s.engFull 1 7 = false := ⟨all_issue (by decide), by decide⟩

theorem wit_EngineControlCompletes :
    (∀ i ∈ ([.manch {} 7 (.lit 1), .tdef {} 255 (sr 8), .mopr {}, .mwait {} 16] : List Instr),
      Executes i {} demo slot grp [0] [] (start grp i)) ∧
    0 < (demo.src32 5 0 (.lit 1)).toNat ∧ (demo.src32 5 0 (.lit 1)).toNat ≤ team.nthr ∧
    (let g := { grp with s := [(11, 0x00010001), (15, 0x00010001)] }
     fine g (.tdef {} 255 (sr 8)) = true ∧ (Tx.read ((start g (.tdef {} 255 (sr 8))).srcRun 5 0 (sr 8) 8)).isSome = true) ∧
    demo.moprPending 5 0 (demo.thread 5 0).opc.toNat = false ∧ (demo.core grp.core).eng = [] := ⟨all_fine (by decide), by decide⟩

theorem wit_ByteBarriersComplete :
    (∀ i ∈ ([.binit {} (v 8) (.lit 65535), .bexp {} (v 8) (v 1), .barr {} (v 8), .bwait {} (v 16) (v 8) (.lit 1)] : List Instr),
      Executes i {} demo slot grp [0] [] (start grp i)) ∧
    (demo.scratch? (demo.teamOf 5) 0 16).isSome = true ∧ demo.storesPending 5 0 = false ∧
    (demo.bbar? 1 (demo.src32 5 0 (v 8)).toNat).any (fun x => !x.2.overrun && decide (x.2.phase ≠ 1)) = true :=
  ⟨all_fine (by decide), by decide⟩

/-- The groups of a SHADOW launch: group 5 with its partner, group 6 (R29). -/
def compG : Group := { grp with kind := .compute 6 }
def shadG : Group := { grp with kind := .shadow 6 }

theorem wit_TicketsAndQueuesComplete :
    (∀ i ∈ ([.pwait {} (v 8), .cancel {} (v 16) (v 8)] : List Instr), Executes i {} demo slot grp [0] [] (start grp i)) ∧
    (∀ i ∈ ([.qpush {} { w := 2 } (v 0) 3] : List Instr), Executes i {} (demo shadG) slot shadG [0] [] (start shadG i)) ∧
    (∀ i ∈ ([.qpop {} { w := 2 } (v 16) 3] : List Instr), Executes i {} (demo compG) slot compG [0] [] (start compG i)) ∧
    demo.ticketOp 0 (demo.src32 5 0 (v 8)) = none ∧ ((demo shadG).push 5 0 3 9 false).isSome = true ∧
    ((demo compG).pop 5 0 3 false 0).isSome = true ∧ ((demo shadG).unsettled 5 0).length < 1024 ∧
    ((demo compG).unsettled 5 0).length < 1024 :=
  ⟨all_fine (by decide), all_fine (by decide), all_fine (by decide), by decide⟩

/-- With its partner there, a push finds room, and a pop of a window with words takes the first. -/
theorem wit_QueueWindowsAreFifo :
    (let s : State := { demo shadG with groups := [(5, shadG), (6, { compG with kind := .compute 5 })] }
     s.partnerGone shadG 0 = false ∧ someAnd (s.push 5 0 3 9 false) (fun t => decide (t.window 6 0 3 = [9])) = true) ∧
    (let g := { compG with threads := [(0, { thr 0 with q := [(3, [8, 9])] })] }
     someAnd ((demo g).pop 5 0 3 false 0) (fun t => decide (t.2 = 8) && decide (t.1.window 5 0 3 = [9])) = true) := by decide

theorem wit_BarrierArrivals :
    (∀ i ∈ ([.bar {} { idx := 15 } (v 8), .bar {} { idx := 3, clu := true, mode := .arrive } (.lit 2)] : List Instr),
      Executes i {} demo slot grp [0] [] (start grp i)) ∧
    (demo.src32 5 0 (v 8)).toNat ≤ demo.barLimit 1 15 ∧ (2 : Nat) ≤ demo.barLimit 1 19 ∧ demo.storesPending 5 0 = false ∧
    (demo.arrive 5 0 1 15 0).2 = false ∧ (demo.arrive 5 0 1 15 1).2 = true := ⟨all_fine (by decide), by decide⟩

theorem wit_BranchesComplete :
    (∀ i ∈ ([.bra {} (-12), .brx {} (v 8), .ret {} (.lit 6), .call {} (v 16) 5, .brh {} (-4) (v 1)] : List Instr),
      Executes i {} demo slot grp [0] [] (start grp i)) ∧
    slot.pc % 4 = 0 ∧ (demo.src32 5 0 (v 8)).toNat % 4 = 0 ∧ demo.src32 5 0 (.lit 6) = 6 ∧ (6 : Word).toNat % 4 ≠ 0 :=
  ⟨all_fine (by decide), by decide⟩

theorem wit_WaitsComplete :
    (∀ i ∈ ([.waith {} (v 1), .sleep {} (v 8), .sleep {} (v 1), .reconv {},
        .waitf {} { cc := 0, spc := .scratch } (v 16) (v 8) (v 8), .waitf {} { cc := 0, spc := .scratch } (sr 16) (sr 8) (sr 8)] : List Instr),
      Executes i {} demo slot grp [0] [] (start grp i)) ∧
    demo.passed 5 0 (demo.clampSeq 5 0 (demo.src32 5 0 (v 1))) = true ∧ demo.src32 5 0 (v 8) = 0 ∧ demo.src32 5 0 (v 1) ≠ 0 ∧
    (demo.wfStep 5 0 { cc := 0, spc := .scratch } (v 16) 0 0 1000).2 = .next ∧
    (demo.wfFirst { cc := 0, spc := .scratch } (sr 16) (sr 8) (sr 8) 5 0).2 = .next ∧
    (demo.scratch? (demo.teamOf 5) 0 4).isSome = true ∧
    ∃ e ∈ grp.threads, e.2.phase ≠ .exited ∧ e.2.hnd = none ∧ e.2.wait ≠ some .reconv ∧ ∀ l, e.2.wait ≠ some (.withPath l) :=
  ⟨all_fine (by decide), by decide, by decide, by decide, by decide, by decide, by decide, (0, thr 0), by decide, by decide, by decide,
    by decide, by simp [thr]⟩

/-- A group whose lane 0 is in its handler. -/
def hndG : Group := { grp with threads := [(0, { thr 0 with hnd := some ⟨0, 4, none, 1⟩ }), (1, thr 1)] }

theorem wit_ExitTrapAndReturnComplete :
    (∀ i ∈ ([.exit {}, .trap {} 0xFFFF] : List Instr), Executes i {} demo slot grp [0] [] (start grp i)) ∧
    (∀ i ∈ ([.rft {}] : List Instr), Executes i {} (demo hndG) slot hndG [0] [] (start hndG i)) ∧
    (demo hndG).unsettled 5 0 = [] :=
  ⟨all_fine (by decide), all_fine (by decide), by decide⟩

theorem wit_SpecialRegistersAndHintsComplete :
    (∀ i ∈ ([.getsr {} (v 16) 0, .getsr {} (sr 4) 69, .setsr {} 11 (.lit 63), .setsr {} 67 (sr 2), .nop {}, .yieldH {}, .racq {} (.lit 4),
        .rrel {}, .snap {} (sr 2), .fence {} { w := 0, ord := .ar, scope := .sys }] : List Instr),
      Executes i {} demo slot grp [0] [] (start grp i)) ∧
    (demo.drawTo 5 4 4).isSome = true ∧ demo.group? 5 = some grp ∧
    demo.fencePending 5 0 { w := 0, ord := .ar, scope := .sys } 7 = false := ⟨all_fine (by decide), by decide⟩

theorem wit_LaunchesAndSuspensionsComplete :
    (∀ i ∈ ([.launch {} (sr 8) (.lit 0x1080), .waitl {} (sr 8) (sr 2), .steal {} (sr 8) (.lit 0), .steal {} (sr 8) (.lit 1),
        .cdiscard {} (v 16) (.lit 0x1100), .suspend { sp := some 0 } (sr 8) (.lit 0x2000)] : List Instr).take 5,
      Executes i {} demo slot grp [0] [] (start grp i)) ∧
    demo.storesPending 5 0 = false ∧
    okAnd (demo.cread 0 0 0x1080 64) (fun r => okAnd (r.1.queueRecord 0 0 r.2 none) fun _ => true) = true ∧
    ({ demo with ctxs := [(0, { ctx0 with tickets := 1, ended := [(1, 3)] })] } : State).ticketStatus 0 1 = some 3 ∧
    okAnd (demo.casState 0 0 0x1100 stReady stDiscarded true) (fun _ => true) = true ∧ demo.lineBusy 0 0x1108 4 = false ∧
    demo.check (.suspend { sp := some 0 } (sr 8) (.lit 0x2000)) grp 0 = none := ⟨all_fine (by decide), by decide⟩

/-! ## Witnesses of the statements' hypotheses: the sequencer and the events -/

/-- A running collective program of rank 0 of two positions, with one credit towards rank 1 and a chunk received from it; a
chunk is 256 bytes of F32. -/
def prog0 : Prog :=
  { die := 8, core := 0, ctx := 0, sys := true, grid := none, op := none, status := none
    d := ⟨0, 0, [0, 4], 0, 0, [0x1000, 0x1100, 0x1200, 0], 256⟩, started := true, read := true, p := [1, 1, 0, 0]
    inbox := [(1, List.replicate 256 1)], credits := [(1, 1)] }

/-- The state whose walker's cache has the page of `mem0`. -/
def warm (s : State) : State := { s with tlb := [⟨0, 0, 0, 2 ^ 30, 0, 0x4000033F, 1⟩] }

def demoP (p : Prog := prog0) : State := { warm demo with links := [(linkKey 4 0, { up := true })], progs := [(7, p)], cur := some { gid := 0, lanes := [], pc := 0, prog := some 7 } }

theorem demoP_steps (p : Prog) (h : p.started = true ∧ p.failed = none ∧ (demoP p).sequences p = true ∧ p.wr = none) :
    Steps (demoP p) 7 p :=
  ⟨rfl, rfl, h.1, h.2.1, h.2.2.1, (fun _ he => nomatch he), h.2.2.2⟩

theorem wit_DataStepsComplete : Steps (demoP) 7 prog0 ∧ Map.get prog0.credits (prog0.rank 0) 0 ≠ 0 ∧
    (demoP.chunkReady 7 prog0 (some (prog0.source { pa := 0 }))).2 = true ∧
    okAnd (demoP.collRead prog0 0x1000 256) (fun r => match r.1.sendChunk 7 prog0 1 0x1000 r.2 with | .on _ => true | _ => false)
      = true ∧
    someAnd (demoP.takeChunk 7 prog0 1) (fun r => okAnd (r.1.collRead prog0 0x1000 256) fun q =>
      okAnd (q.1.collWrite 7 prog0 0x1100 q.2 false true) fun _ => true) = true ∧
    (let g := demoP.collGate 7 prog0 0x1100 256
     g.2 = true ∧ (g.1.takeChunk 7 prog0 1).isSome = true) ∧ prog0.carryWords 1 = false :=
  ⟨demoP_steps _ ⟨rfl, rfl, rfl, rfl⟩, by decide, by decide, by decide, by decide, by decide, by decide⟩

/-- A program whose base registers 0 and 1 point at a bank and are the destination of an RRW: their words are carry words. -/
def progB : Prog :=
  { prog0 with
    words := [(encodeStep (.rrw { bd := 1 })).getD 0, (encodeStep (.rrw { bs := 0, bd := 0 })).getD 0]
    d := { prog0.d with b := [0xFFFFFFFF00000040, 0xFFFFFFFF00000040, 0x1200, 0] } }

/-- A bank chunk of carry words, which a step reduces into where it stands, and a request that brings words to be added there. -/
theorem wit_DataStepsComplete_carry : progB.carryWords 1 = true ∧ progB.carryWords 2 = false ∧ prog0.carryWords 1 = false ∧
    (let w : StepW := { pa := 1, bs := 0, bd := 0 }
     progB.inPlace w = true ∧ progB.chunk w w.bs = progB.chunk w w.bd ∧
       (let g := (demoP progB).collGate 7 progB (progB.chunk w w.bd) 256
        g.2 = true ∧ someAnd (g.1.takeChunk 7 progB 1) (fun r =>
          okAnd (r.1.collWrite 7 progB (progB.chunk w w.bd) (carryBytes (progB.d.carried r.2)) true true) fun _ => true) = true)) ∧
    (let o := { ex := 0, core := 0, ctx := 0, gid := 0, lanes := [], ins := 0
                kind := .chunk 7 0xFFFFFFFF00000040 32 (some (List.replicate 32 0)) true, issue := 0, sys := true : Op }
     let s : State := { demoP progB with ops := [(9, o)] }
     s.prog? 7 = some progB ∧ okAnd ((s.bankTouch 0 0x40 32).spaceRead .bank 0 0 0 0x40 32 {}) (fun r =>
       okAnd (r.1.spaceWrite .bank 0 0 0 0x40 (carryBytes (combineAll progB.d.ety progB.d.rop (elemsOf 8 r.2)
         (elemsOf 8 (List.replicate 32 0))))) fun _ => true) = true) := by decide

theorem wit_ControlStepsComplete : Steps (demoP) 7 prog0 ∧ prog0.unacked = [] ∧
    (let s : State := { demoP with ctxs := [(0, { ctx0 with scb := [(255, 2 ^ 63)] })] }
     (Map.get ((s.ctx? 0).elim [] Ctx.scb) 255 0).getLsbD 63 = true) ∧
    (prog0.loop { k := 3 }).isSome = true ∧ ({ prog0 with loops := [(0, 3, 1)] } : Prog).endl.isSome = true ∧
    (prog0.peer { pa := 1, k := 1 }).isSome = true ∧
    (let g := demoP.collGate 7 prog0 0x1200 4
     g.2 = true ∧ okAnd (g.1.collWrite 7 prog0 0x1200 (toBytes 4 9) false false) (fun _ => true) = true) :=
  ⟨demoP_steps _ ⟨rfl, rfl, rfl, rfl⟩, by decide, by decide, by decide, by decide, by decide, by decide⟩

theorem wit_PowerAndClockEvents :
    (State.reset.boot.st = .rom ∧ State.reset.dieServes 8 = true) ∧
    demo.boot.st = .running ∧ demo.belayServes = true ∧
    (∀ f ∈ [800, 1500], let s : State := { State.reset with sel := { a := 3, b := f } }
     s.sel.a < 4 ∧ 800 ≤ s.sel.b ∧ s.sel.b ≤ 1500 ∧ s.sel.b % 50 = 0 ∧ (s.pair s.sel.a).relock = none ∧
       s.boundedOn s.sel.a = false ∧ 800 < (s.pair s.sel.a).mhz) ∧
    (let s : State := { State.reset with pairs := [(0, { relock := some 2000 })], rtime := 2000 }
     (s.pair s.sel.a).relock = some 2000 ∧ 2000 ≤ s.rtime) ∧
    (({ demo with fifo := [{ kind := .ack, x := {} }] } : State).fifo = [{ kind := .ack, x := {} }] ∧ demo.fifo = [] ∧
      demo.serving = []) ∧
    (let s : State := { demo with rtime := 1000000 }
     s.energyEnd ≤ s.rtime ∧ s.ctx? 0 = some ctx0 ∧ (s.ctxs.map Prod.fst).Nodup) ∧
    (let s : State := { demo with ctxs := [(0, { ctx0 with cfg := { ctx0.cfg with epochs := [(2 ^ 46, 3)] } })] }
     s.epoch? 0 (2 ^ 46) = some (3, 0) ∧ s.epoch? 0 (2 ^ 46 + 127) = some (3, 127) ∧ s.epoch? 0 (2 ^ 46 + 128) = none ∧
       s.dieServes 3 = true) := by decide

theorem wit_ErrorAndDebugEvents :
    ({ State.reset with sel := { b := 64 } } : State).ownerOf 2 = none ∧ demo.ownerOf (scratchPhys 0 4096) = some 0 ∧
    (∀ e ∈ demo.ctxs, e.2.touched.getLsbD 4 = false) ∧
    (∀ d ∈ [0, 7, 9], let x : Ctx := { ctx0 with touched := 0x281 }
     let s : State := { demo with ctxs := [(0, x)], sel := { a := d } }
     s.sel.a < 10 ∧ s.ctxs = [(0, x)] ∧ x.touched.getLsbD s.sel.a = true ∧ x.killed = false) ∧
    (let s : State := { demo with dies := [(0, { st := .lost })] }
     vaOk 0x1000 = true ∧ s.remote? 0x1000 = none ∧ s.epoch? 0 0x1000 = none ∧ (s.die (vaHome 0x1000)).st = .lost ∧ 0 ∈ bankDies 0 4) ∧
    0 ∉ State.reset.cxlOut ∧
    (∀ d ∈ [0, 3, 4, 7, 8, 9], let s : State := { State.reset with sel := { a := d } }
     (s.die s.sel.a).st = .online) ∧
    (let s : State := { State.reset with dies := [(0, { st := .retained })] }
     (s.die s.sel.a).st = .retained ∧ s.holdsDie s.sel.a = false) ∧
    (let s : State := { State.reset with cores := [(0, { restart := some 0 })] }
     (s.core s.sel.a).restart = some 0 ∧ 0 ≤ s.cyc (pairOf s.sel.a)) ∧
    (let s : State := { demo with sel := { a := 63 } }
     s.boot.st = .running ∧ s.ctx? s.sel.a = none ∧ s.sel.cfg.windows.length ≤ 16 ∧ s.sel.cfg.grants.length ≤ 64 ∧ CtxCfg.beyond s.sel.cfg = none) ∧
    (let s : State := { demo with groups := [], sel := { flag := true, b := 3 } }
     s.boot.st = .running ∧ s.ctx? s.sel.a = some ctx0 ∧ s.sel.cfg.windows.length ≤ 16 ∧ s.sel.cfg.grants.length ≤ 64 ∧
       CtxCfg.beyond s.sel.cfg = none ∧ ∀ e ∈ s.groups, e.2.ctx ≠ s.sel.a) ∧
    (let s : State := { demo with groups := [], teams := [] }
     (s.ctx? s.sel.a).isSome = true ∧ (∀ e ∈ s.groups, e.2.ctx ≠ s.sel.a) ∧ ∀ e ∈ s.teams, e.2.ctx ≠ s.sel.a) := by decide

/-- A link to peer 4 on plane 7 as the tests need it. -/
def demoL (l : Link) (x : Sel := {}) : State := { demo with links := [(linkKey 4 7, l)], sel := { x with a := 4, b := 7 } }

/-- The header of a flit of peer 4. -/
def hdr (k : MsgKind) (chan : Nat) (seq : Nat := 0) : BitVec 128 :=
  ({ dest := 0, kind := k, chan := chan, tag := 9, addr := 0x1000 } : Msg).header 4 false seq 0

/-- The header of the first flit of a message of several. -/
def hdrFirst (k : MsgKind) : BitVec 128 := ({ dest := 0, kind := k, chan := 20, flits := 4, tag := 9, addr := 0x1000 } : Msg).header 4 false 0 0

/-- Both belay dies are lost. -/
def noBelay : State := { demo with dies := [(8, { st := .lost }), (9, { st := .lost })] }

/-- A flit on the link of `demoL`, whole and without LAST; its block, verified; a spoilt block; and a block under a key that has just
come. -/
theorem wit_LinkEvents_blocks :
    (let h := hdr .read 0
     let s := demoL { up := true } { hdr := some h, plane := 7, flag := true, msg := { n := 64 } }
     let l := s.link (linkKey (hdrAt h 48 9) s.sel.plane)
     let n := max 1 (flitsIn (selOfFlit s.sel .read 0 h) .read)
     s.sel.hdr = some h ∧ s.belayServes = true ∧ l.up = true ∧ l.rxBad = false ∧ MsgKind.read.long = false ∧ hdrAt h 7 5 = MsgKind.read.type ∧
       MsgKind.read.onChan (hdrAt h 1 6) = true ∧ hdrAt h 13 3 = 0 ∧ h.getLsbD 63 = false ∧
       s.portRoom 4 7 (hdrAt h 1 6) n = true ∧ l.rxFlits = 0 ∧ hdrAt h 16 16 = (l.rxSeq + n - 1) % 65536 ∧ h.getLsbD 0 = l.genRx) ∧
    (let h := hdrFirst .rdata
     let s := demoL { up := true } { hdr := some h, plane := 7 }
     h.getLsbD 12 = false ∧ MsgKind.rdata.long = true ∧ MsgKind.rdata.onChan (hdrAt h 1 6) = true ∧ s.portRoom 4 7 (hdrAt h 1 6) 1 = true) ∧
    (let h := hdr .integ 63
     let s := demoL { up := true } { hdr := some h, plane := 7, flag := true }
     let l := s.link (linkKey (hdrAt h 48 9) s.sel.plane)
     l.up = true ∧ l.rxBad = false ∧ l.rxGap = false ∧ l.rxFlits = 0 ∧ h.getLsbD 0 = l.genRx) ∧
    (let h := hdr .integ 63
     let s := demoL { up := true, genRx := true, rxIdle := true } { hdr := some h, plane := 7, flag := true }
     let l := s.link (linkKey (hdrAt h 48 9) s.sel.plane)
     h.getLsbD 0 ≠ l.genRx ∧ l.rxIdle = true ∧ l.heldTill = 0) ∧
    (hdr .read 0 1 ≠ hdr .read 0 ∧ hdrAt (hdr .read 0 1) 16 16 = 1 ∧ (demoL {}).sel.flag = false ∧ hdrAt (hdr .grant 62) 1 6 = 62) ∧
    noBelay.belayServes = false := by decide

theorem wit_LinkEvents :
    (demoL {} { link := .attested }).sel.link = .attested ∧ (demoL {} { link := .trigger }).sel.link = .trigger ∧
    (demoL {} { link := .newKey }).sel.link = .newKey ∧ (demoL {} { link := .retry 5 }).sel.link = .retry 5 ∧
    ((demoL {}).link (linkKey 4 7)).retries = 0 ∧ 3 ≤ ((demoL { retries := 3, retrySeq := 5 }).link (linkKey 4 7)).retries ∧
    ((demoL { rekey := 1, up := true }).link (linkKey 4 7)).rekey = 1 ∧
    (let s := demoL { blk := 3, blkT := 936 }; (s.link (linkKey 4 7)).blk ≠ 0 ∧ (s.link (linkKey 4 7)).blkT + 64 ≤ s.rtime) ∧
    (let s := demoL { blk := 3, blkT := 937 }; s.rtime < (s.link (linkKey 4 7)).blkT + 64) ∧
    ((demoL { up := true }).link (linkKey (hdrAt (hdr .linkctl 63) 48 9) 7)).up = true ∧
    ((demoL {}).link (linkKey (hdrAt (hdr .linkctl 63) 48 9) 7)).up = false ∧ (demoL {}).boot.st = .running ∧
    (let s := demoL { up := true }
     (s.link (linkKey 4 7)).up = true ∧ (s.link (linkKey 4 7)).rekey = 0 ∧ (s.link (linkKey 4 7)).rekeyTill ≤ s.rtime) ∧
    (let s := demoL { rxNew := true }; (s.link (linkKey 4 7)).rxNew = true ∧ (s.link (linkKey 4 7)).rxIdle = false) ∧
    (let s := demoL { rekey := 2 }; (s.link (linkKey 4 7)).rxNew = false ∧ (s.link (linkKey 4 7)).rekey = 2) ∧
    (let s := demoL { rekey := 3 }; (s.link (linkKey 4 7)).rekey = 3 ∧ (s.link (linkKey 4 7)).blk = 0) ∧
    (let s := demoL { rxIdle := true, heldTill := 1000 }
     (s.link (linkKey 4 7)).heldTill ≠ 0 ∧ (s.link (linkKey 4 7)).heldTill ≤ s.rtime) ∧
    (7 ∉ State.reset.planesOff) := by decide

/-- Requests of peer 4, with an address at which the page of `mem0` lies, and one at which none does. -/
def ask (m : PeerMsg) : State := { warm demo with sel := { a := 4, msg := m } }

theorem wit_PeerRequestsAreServed :
    (let s := ask { addr := 0x1000, n := 64, sys := true }
     let g := s.serveGate (s.serveOf (.read 0x1000 64)) 0x1000 64
     g.2 = true ∧ okAnd (g.1.gread 0 (s.servedVa 0x1000) 64 { r := true } true 0) (fun _ => true) = true) ∧
    (let s : State := { ask { addr := 0x1000, n := 64, sys := true } with tlb := [⟨0, 0, 0, 2 ^ 30, 0, 0x4000033B, 1⟩] }
     let g := s.serveGate (s.serveOf (.read 0x1000 64)) 0x1000 64
     g.2 = true ∧ decide (g.1.gread 0 (s.servedVa 0x1000) 64 { r := true } true 0 matches .error (.cause .permission)) = true) ∧
    (let w : Walk := { ctx := 0, home := 0, base := 0, size := 2 ^ 30, ex := 2 ^ 64 + 4 * 65536, lane := 0, arr := 0, over_ := true }
     let s : State := { ask { addr := 0x1000, n := 64, sys := true } with tlb := [], mem := (0, 0xBE) :: mem0.drop 1, walks := [w] }
     let g := s.serveGate (s.serveOf (.read 0x1000 64)) 0x1000 64
     g.2 = true ∧ decide (g.1.gread 0 (s.servedVa 0x1000) 64 { r := true } true 0 matches .error .notPresent) = true) ∧
    (let h := ({ dest := 0, kind := .wdata, flits := 1, tag := 9 } : Msg).header 4 false 0 0
     let x : Serve := ⟨4, 9, 0, true, .write 0x1000 2 none []⟩
     let y : Serve := ⟨4, 9, 0, true, .write 0x1000 0 none [(0x1000, 1, [5])]⟩
     let s := ask { tag := 9, addr := 0x1000, mask := 1, data := [5] }
     let g := s.serveGate y 0x1000 256
     let r := g.1.replGate 9 (some 4) 0 (s.servedVa 0x1000)
     h.getLsbD 12 = true ∧ (hdrFirst .wdata).getLsbD 12 = false ∧ x.src = s.sel.a ∧ x.tag = s.sel.msg.tag ∧ g.2 = true ∧ r.2 = true ∧
       okAnd (r.1.maskedWrite y (s.servedVa 0x1000) (sectorMask 1) [5]) (fun _ => true) = true) ∧
    (let s := ask { addr := 0x1000, w := 2, aop := 0, sys := true, data := [1, 0, 0, 0] }
     let g := s.serveGate (s.serveOf (.atomic 0x1000 0 4 [1, 0, 0, 0])) 0x1000 4
     g.2 = true ∧ (g.1.replGate 0 (some 4) 0 (s.servedVa 0x1000)).2 = true ∧
       okAnd (g.1.gread 0 (s.servedVa 0x1000) 4 { r := true, w := true } true 0) (fun r =>
       okAnd (r.1.gwrite 0 (s.servedVa 0x1000) (toBytes 4 1) true 0) fun _ => true) = true) ∧
    (let s := ask { addr := 0x1000, sys := true, mask := 1, data := List.replicate 256 1 }
     let x := s.serveOf (.mcast 0x1000 1 s.sel.msg.data)
     let g := s.serveGate x 0x1000 256
     let r := g.1.replGate 0 (some 4) 0 (s.servedVa 0x1000)
     g.2 = true ∧ r.2 = true ∧ okAnd (r.1.maskedWrite x (s.servedVa 0x1000) (lineMask 1) s.sel.msg.data) (fun _ => true) = true) ∧
    (let s := ask { addr := 2, data := [1, 0, 0, 0] }
     s.ctx? 0 = some ctx0 ∧ s.sel.msg.addr % 256 ∈ ctx0.cfg.cores ∧ s.nodeBad 0 (s.sel.msg.addr / 256 % 1024) 1 = false ∧
       (s.binAccept 2 0 0 [1]).isSome = true) ∧
    (let s : State := { ask { addr := 2, data := [1, 0, 0, 0] } with
       ctxs := [(0, { ctx0 with node := some { table with spilln := 0 } })]
       cores := [(2, { bin := (List.range 64).map fun k => ⟨0, k + 1, k, 0, [], .unlent, 0⟩ })] }
     s.nodeBad 0 0 1 = false ∧ s.binAccept 2 0 0 [1] = none) ∧
    (let s : State := { demo with sel := { a := 0, b := 2 ^ 30 + 4095, msg := { data := [1] } } }
     physExists s.sel.b s.sel.msg.data.length = true ∧ s.sel.c < 8 ∧ s.dieServes (8 + s.sel.c / 4) = true ∧ s.sel.msg.sys = false ∧
       ∃ w ∈ ctx0.cfg.rma, w.base ≤ s.sel.b ∧ s.sel.b + s.sel.msg.data.length ≤ w.base + w.len) := by decide

/-- An operation of lane 0, with number 7. -/
def op (k : OpKind) (st : OpSt := .waiting) : Op :=
  { ex := 1, core := 0, ctx := 0, gid := 5, lanes := [(0, 7)], ins := 4, kind := k, st := st, issue := 0, sys := true }

def demoO (o : Op) (x : Sel := {}) : State := { demo with ops := [(9, o)], sel := { x with a := 9 }, rtime := 60000 }

/-- Peer 4 and the tag of operation 9. -/
theorem wit_RepliesSettleOperations :
    (∀ k ∈ [OpKind.load .global (2 ^ 56 + 4 * 2 ^ 47) 4 false, .store .global (2 ^ 56 + 4 * 2 ^ 47) [1, 0, 0, 0],
        .atom .global (2 ^ 56 + 4 * 2 ^ 47) 0 4 [1, 0, 0, 0] true 0 0],
      let s : State := { demoO (op k (.sent 9)) with sel := { a := 4, b := 9, msg := { tag := 9, data := [1, 0, 0, 0] } } }
      s.asking s.sel.a s.sel.msg.tag = [(9, op k (.sent 9))] ∧ s.asking s.sel.a s.sel.b = [(9, op k (.sent 9))] ∧
        (s.pair (pairOf (op k).core)).relock = none ∧
        (({ s with pairs := [(0, { relock := some 70000 })] } : State).pair (pairOf (op k).core)).relock.isSome = true) ∧
    (let o := op (.store .global (2 ^ 56 + 4 * 2 ^ 47) [1, 0, 0, 0]) (.sent 9)
     (demoO o).op? (demoO o).sel.a = some o ∧ (demoO o).unanswered o = true ∧ (demoO { o with st := .waiting }).forPeer o = true) := by decide

theorem wit_FabricEvents :
    (let m : Mcst := { grp := 1, poss := [0, 4], addr := 0, local_ := true, src := 0 }
     (demoO (op (.mcst m))).op? 9 = some (op (.mcst m)) ∧ m.line = [] ∧ m.at_ + 30 ≤ (demoO (op (.mcst m))).rtime ∧ ¬ 59971 + 30 ≤ 60000) ∧
    (let m : Mcst := { grp := 1, poss := [0, 4], addr := 0, local_ := true, src := 0, line := List.replicate 256 1 }
     let o := op (.mcst m); let s := demoO o
     s.op? s.sel.a = some o ∧ o.held = false ∧ o.st.settled = false ∧ m.line.length = 256 ∧ m.tuned = true ∧ m.round 0 s.lanesOf = [0, 1] ∧
       ({ m with sent := [0, 1] } : Mcst).round 0 6 = [] ∧ s.mcstOwes { m with sent := [0, 1], acks := [0] } = false) ∧
    (let m : Mcst := { grp := 1, poss := [0, 4], addr := 0, local_ := true, src := 0, line := List.replicate 256 1, sent := [1] }
     let o := op (.mcst m) (.sent 9); let s := demoO o { b := 1 }
     s.unanswered o = true ∧ s.sel.b ∈ m.sent) ∧
    (demo.dieServes 8 = true ∧ demo.dieServes 9 = true) ∧
    (let r : RLoad := { poss := [0, 4], addr := 0, spad := 0, ety := 0, rop := 0, got := [(0, List.replicate 256 1)], nacks := [(1, 0x22)]
                        server := 8 }
     let o := op (.rload r) .performed; let s := demoO o
     o.st ≠ .waiting ∧ o.st.settled = false ∧ s.reduces r.server = true ∧ (Map.get? r.got (r.poss.idxOf s.deviceIndex.toNat)).isSome = true ∧
       r.poss.length ≤ r.got.length + r.nacks.length ∧ r.poss.headD 0 = s.deviceIndex.toNat ∧ s.reduces (17 - r.server) = true) ∧
    (let r : RLoad := { poss := [0], addr := 0, spad := 0, ety := 0, rop := 0, got := [(0, List.replicate 256 1)], server := 8 }
     let o := op (.rload r) .performed; let s := demoO o
     (Map.get? r.got (r.poss.idxOf s.deviceIndex.toNat)).isSome = true ∧ r.poss.length ≤ r.got.length ∧
       okAnd (s.spaceWrite .scratch 5 0 0 0 (lineFromCarry 0 (pullRoot 0 0 7 (r.got.map fun e => lineToCarry 0 e.2))))
         (fun _ => true) = true) ∧
    (let r : RLoad := { poss := [4, 0], addr := 0, spad := 0, ety := 0, rop := 0, server := 8 }
     let o := op (.rload r) .performed
     let s : State := { demoO o { flag := true } with links := [(linkKey 4 0, { up := true })] }
     let u := s.fresh.2.modOp 9 fun x => { x with kind := .rload { r with moved := true }, st := .sent (tagOf s.nextId) }
     r.poss.headD 0 ≠ s.deviceIndex.toNat ∧ s.dieServes r.server = true ∧ u.tornFrom o.gid 4 9 = false ∧
       (u.send 4 0 0 (({ r with moved := true } : RLoad).request (tagOf s.nextId) o.ctx o.sys)).isSome = true) ∧
    (let e : WcEntry := { peer := 4, line := 0, bytes := (List.range 256).map fun k => (k, 1) }
     let s : State := { demo with cores := [(0, { wc := [(3, e)] })], sel := { b := 3 }, rtime := 1024 }
     Map.get? (s.core s.sel.a).wc s.sel.b = some e ∧ s.wcDue e = true ∧ e.born + 1024 ≤ s.rtime) ∧
    (let o := op (.spawn 2 0 [1]); let s := demoO o
     s.op? 9 = some o ∧ s.copyReady 9 o = true ∧ (s.binAccept 2 0 0 [1]).isSome = true ∧ s.binRoom 2 0 0 = true) ∧
    (let o := op (.rspawn (2 * 2 ^ 9) 0 [1]); let s := demoO o
     s.op? 9 = some o ∧ s.releasedSys 9 o = true ∧ (bits (2 * 2 ^ 9) 0 9).toNat = s.deviceIndex.toNat ∧
       (bits (2 * 2 ^ 9) 9 8).toNat ∈ ctx0.cfg.cores ∧ (s.binAccept 2 0 0 [1]).isSome = true) ∧
    (let o := op (.rspawn (4 + 2 * 2 ^ 9) 0 [1])
     let s : State := { demoO o with links := [(linkKey 4 0, { up := true }), (linkKey 4 2, { up := true })] }
     (bits (4 + 2 * 2 ^ 9) 0 9).toNat ≠ s.deviceIndex.toNat ∧ s.tornFrom 5 4 9 = false ∧
       (s.send 4 2 0 { dest := 0, kind := .spawn, flits := 1, tag := tagOf 9, ctx := 0, sys := true, addr := 2
                       data := bytesOfWords [1] }).isSome = true) := by decide

/-- The launch record of a gang: code at 0x2000, one team of 16 threads of 16 lanes. -/
def recWords : List Word := [0x2000, 0, 0, 0, 0x00010001, 1, 16, 0x00080000, 0, 0, 0, 0, 0, 0, 0, 0]

def recG : LRec := ((LRec.read (bytesOfWords recWords)).getD
  ⟨0, 0, 1, 1, 1, 0, 16, 16, 1, 1, 0, 0, 1, 0, 0, 0, 0, 0, 0, 0⟩)

def gridG (st : GridSt) : Grid := { ctx := 0, ticket := 1, r := recG, st := st }

theorem wit_GangEvents :
    (LRec.read (bytesOfWords recWords)).isSome = true ∧
    (let s : State := { demo with sel := { a := 4, b := 77, words := recWords ++ [4, 0] } }
     Map.get? s.members s.sel.b = none ∧ s.sel.a ≠ s.deviceIndex.toNat ∧
       okAnd (s.gangReserve s.sel.b s.sel.a s.sel.c s.sel.words) (fun _ => true) = true) ∧
    (let s : State := { demo with sel := { a := 4, b := 77, words := [] } }
     decide (s.gangReserve s.sel.b s.sel.a s.sel.c s.sel.words matches .error (.inl 2)) = true) ∧
    (let s : State := { demo with sel := { a := 4, b := 77, words := recWords.set 12 0x80000000 ++ [4, 0] } }
     decide (s.gangReserve s.sel.b s.sel.a s.sel.c s.sel.words matches .error (.inr 0)) = true ∧ s.serving = []) ∧
    (let y : Serve := ⟨4, 0, 0, false, .prepare 77 recWords⟩
     let s : State := { demo with serving := [y], sel := { a := 4, b := 77 } }
     s.sel.hdr = none ∧ s.sel.a ≠ s.deviceIndex.toNat ∧ s.serving.find? (fun x => x.kind.asksFor s.sel.b) = some y) ∧
    (let x : Gang := { gang := 77, poss := [0, 4], record := recWords }
     let o := op (.gang x) .performed
     let s : State := { demoO o with sel := { a := 0, b := 77 } }
     s.sel.hdr = none ∧ s.sel.a = s.deviceIndex.toNat ∧ someAnd (s.gangOp 77) (fun e => decide (e = (9, o, x))) = true ∧ x.going = false ∧
       s.deviceIndex.toNat ∈ x.poss ∧ okAnd (s.gangReserve 77 0 0 (recWords ++ x.poss.map (BitVec.ofNat 32))) (fun _ => true) = true) ∧
    (let x : Gang := { gang := 77, poss := [0, 4], record := recWords }
     let o := op (.gang x) .performed; let s := demoO o { b := 4 }
     o.st.settled = false ∧ o.st ≠ .waiting ∧ s.sel.b ∈ x.poss ∧ s.sel.b ∉ x.heard ∧ x.heard.length + 1 < x.poss.length ∧
       ({ x with heard := [0] } : Gang).poss.length ≤ ({ x with heard := [0] } : Gang).heard.length + 1 ∧
       x.since + 20000 ≤ s.ctxNow o.ctx) ∧
    (let m : Member := ⟨4, 0, recG, .prepared, 0, some 30, [0]⟩
     let s : State := { demo with members := [(77, m)], sel := { a := 77 }, rtime := 40000 }
     Map.get? s.members s.sel.a = some m ∧ m.src ≠ s.deviceIndex.toNat ∧ m.since + 40000 ≤ s.ctxNow m.ctx) ∧
    (let m : Member := ⟨4, 0, recG, .running, 0, some 30, [0]⟩
     Map.get? ({ demo with members := [(77, m)] } : State).members 77 = some m) := by decide

theorem wit_CollectiveEvents :
    (let p : Prog := { prog0 with started := false }
     let s := demoP p
     s.prog? 7 = some p ∧ p.unread = none ∧ s.sequences p = true ∧
       (let run := s.progs.filter fun e => e.2.started && e.2.die = p.die
        run.length < 16 ∧ (run.map fun e => 4 * e.2.d.slot e.2.words).sum + 4 * p.d.slot p.words ≤ chunkBuffer)) ∧
    (let p : Prog := { prog0 with started := false, read := false, d := { prog0.d with prog := 0x1200 } }
     let s := { demoP p with mem := mem0 ++ [(2 ^ 30 + 0x1207, 0xA0)] }
     let g := s.gateAt 0 0x1200 32768 7 0
     s.prog? 7 = some p ∧ s.sequences p = true ∧ s.apart p.d.prog = false ∧ g.2 = true ∧ (g.1.readWords 0 0 true 4096 0x1200 0).2.2 = none) ∧
    (let p : Prog := { prog0 with words := [0xF000000000000000] }
     p.words[p.ip]? = some 0xF000000000000000 ∧ (decodeStep 0xF000000000000000).toOption = none) ∧
    (prog0.words[prog0.ip]? = none ∧ prog0.short = none) ∧
    (let p : Prog := { prog0 with unacked := [(1, 0)] }
     let s : State := { demoP p with rtime := 50000 }
     0 + 50000 ≤ s.ctxNow p.ctx) ∧
    (4 ∈ prog0.d.grp ∧ prog0.inbox.length < 4) := by decide

/-- Records of node 0 in the bins of cores 0 and 1. -/
def rec0 : Rec := { ctx := 0, node := 0, acc := 3, born := 0, words := [9] }
def demoB (rs : List Rec) (x : Sel := {}) : State := { demo with cores := [(0, { bin := rs }), (1, { bin := rs })], sel := x }
def lend0 : Lend := { victim := 1, thief := 0, acc := 3, gen := 0, r := rec0 }
def stealG : Group := { grp with threads := [(0, { thr 0 with wait := some (.steal (sr 8) 1 0) })] }

theorem wit_BinEvents :
    (let o := op (.spawn 1 0 [9]); let s : State := { demoO o with cores := [] }
     s.copyReady 9 o = true ∧ (s.binAccept 1 0 0 [9]).isSome = true) ∧
    (let s := demoB [rec0, { rec0 with acc := 4 }] { a := 1 }
     (s.node? 0 0).isSome = true ∧ s.timerDone 1 0 0 (table.nodes.getD 0 ⟨0, 0, 0, true, 0, true, 0, 0, 0⟩) = true ∧
       s.table? 0 = some table ∧ (s.die (pairOf s.sel.a)).halted = false ∧ s.dieServes (pairOf s.sel.a) = true ∧
       (s.counted 1 0 0).length = 2 ∧ ∀ x ∈ s.counted 1 0 0, x.2.2 = none) ∧
    (({ demo with sel := { b := 1 } } : State).sel.flag = false ∧ demo.spillClocked table 0 = true) ∧
    (let s : State := { demo with mem := mem0 ++ [(bankBase + 0x8000, 9), (bankBase + 0x8106, 0x40)] }
     someAnd (s.refillable 0 0) (fun h => (s.unspill 0 h).isSome) = true) ∧
    (let s : State := { demo stealG with cores := [(1, { bin := [rec0] })], sel := { a := 5 } }
     stealG.stealing = some ([0], sr 8, 1, 0) ∧ s.stealable 1 0 = [rec0] ∧ s.counted 1 0 0 = [(3, 0, none)] ∧
       (demo stealG).stealable 1 0 = [] ∧ 0 < (s.node? 0 0).elim 0 Node.nco) ∧
    (let s : State := { demo with lends := [(2, { lend0 with ackSent := true, st := .pending })], sel := { a := 2 } }
     Map.get? s.lends s.sel.a = some { lend0 with ackSent := true, st := .pending } ∧ lend0.confirm = none ∧ lend0.st = .flying) ∧
    (let s : State := { demo with cores := [(1, { bin := [{ rec0 with lend := .lent 0 0 }] })], rtime := 20000 }
     (s.core 1).bin.find? (fun x => x.acc = lend0.acc && x.gen = lend0.gen) = some { rec0 with lend := .lent 0 0 } ∧
       0 + 20000 ≤ s.ctxNow 0) ∧
    (demo.core 0).bin = [] := by decide

theorem wit_GridEvents :
    (let s : State := { demo with sel := { b := 64, words := recWords } }
     s.sel.b % 64 = 0 ∧ okAnd (s.queueRecord 0 0 (bytesOfWords s.sel.words) none) (fun _ => true) = true ∧
       decide (s.queueRecord 0 0 [] none matches .error (.inl 2)) = true) ∧
    (({ demo with grids := [(30, gridG .queued)] } : State).queueHead 0 0 = some 30) ∧
    (let g := { gridG .admittable with r := { recG with cls := 0 } }
     let s : State := { demo with grids := [(30, g)], sel := { a := 30 }, teams := [], groups := [] }
     s.grid? s.sel.a = some g ∧ (s.admitGrid s.sel.a).isSome = true ∧ ∀ e ∈ s.grids, e.1 ≠ s.sel.a → False) ∧
    (let s : State := { demo with grids := [(30, gridG .placing)], sel := { a := 30 } }
     s.saves = [] ∧ (s.placeNext s.sel.a).isSome = true) ∧
    (let g := { gridG .admittable with r := { recG with cols := 2 } }
     let s : State := { demo with grids := [(30, g)], sel := { a := 30 }, rtime := 1000000 }
     g.r.cls ≠ 2 ∧ g.since + 1000000 * (g.aged + 1) ≤ s.rtime ∧ g.r.clusterSize ≠ 1 ∧ g.r.coop = false ∧ g.r.paired = false ∧ s.reserved = [] ∧
       s.couldHold s.sel.a g ≠ []) ∧
    (let g := { gridG .admittable with r := { recG with cols := 2 } }
     let full : Core := { pool := 0, resv := 0 }
     let s : State := { demo with grids := [(30, g)], sel := { a := 30 }, rtime := 1000000, cores := [(0, full), (1, full), (2, full)] }
     s.findsRoom s.sel.a g = false ∧ s.couldHold s.sel.a g ≠ []) := by decide

/-- A copy inside scratchpad, one sector long; and a re-stripe whose page is being moved. -/
def copy0 : Job := .copy .scratch .scratch 0 64 64
def move0 : Moving := ⟨9, 0, 0, 0, 2 ^ 30, 0x4000, 0x8000, 1, 2, 0, 0⟩

theorem wit_MemoryEvents_accesses :
    (let o := op (.load .global 0x1000 4 false); let s := demoO o
     s.op? s.sel.a = some o ∧ s.homeReady s.sel.a o = true ∧ s.sel.flag = false ∧
       okAnd ((s.meets 0 0x1000 1 { r := true } true 0).spaceRead .global 5 0 0 0x1000 4 { r := true }) (fun _ => true) = true) ∧
    (let o := op (.pref 0x1000 true); let s : State := { demoO o with mem := (0, 0xBE) :: mem0.drop 1 }
     let m := s.meets 0 0x1000 1 { r := true } true 0
     s.homeReady s.sel.a o = true ∧ decide (m.translate 0 0x1000 { r := true } (m.sysMode 0) 0 matches .error .notPresent) = true) ∧
    (let o := op (.load .global 0x1000 4 false)
     let s : State := { demoO o { flag := true } with cores := [(0, { l1 := [((2 ^ 30 + 0x1000) / 256, 59999, List.replicate 256 7)] })] }
     acquires o.ord = false ∧ Scope.rank o.scope ≤ 1 ∧ s.mayRead o 0x1000 = true ∧ s.l1Read 0 0 0x1000 4 = some [7, 7, 7, 7]) ∧
    (let o := op (.load .global (2 ^ 30) 4 false); let s := demoO o
     s.homeReady s.sel.a o = true ∧
       decide (s.spaceRead .global 5 0 0 (2 ^ 30) 4 { r := true } matches .error (.cause .translation)) = true) ∧
    (let o := op (.load .global 0x1000 4 false); let s : State := { demoO o with mem := (0, 0xBE) :: mem0.drop 1 }
     s.homeReady s.sel.a o = true ∧ decide (s.spaceRead .global 5 0 0 0x1000 4 { r := true } matches .error .notPresent) = true ∧
       decide (s.translate 0 0x1000 { r := true } (s.sysMode 0) 0 matches .error .notPresent) = true) ∧
    (∀ k ∈ [OpKind.store .global 0x1000 [1, 2, 3, 4], .atom .global 0x1000 0 4 [1, 0, 0, 0] true 0 0],
      let o := op k; let s := demoO o
      s.homeReady s.sel.a o = true ∧ (s.replGate 9 none 0 0x1000).2 = true ∧ s.storesAccepted s.sel.a o = true ∧
        okAnd (s.translate 0 0x1000 { r := true, w := true } (s.sysMode 0) 0) (fun _ => true) = true ∧
        okAnd (s.translate 0 0x1000 { w := true } (s.sysMode 0) 0) (fun _ => true) = true ∧
        okAnd (s.spaceWrite .global 5 0 0 0x1000 [1, 2, 3, 4]) (fun _ => true) = true) ∧
    (let o := op (.store .global 0x1000 [1]); let e : ReplW := ⟨0x400010, 9, none, [2, 3]⟩
     let s : State := { demoO o with replQ := [(60, e)], sel := { a := 60, b := 2 } }
     Map.get? s.replQ 60 = some e ∧ s.sel.b ∈ e.acks ∧ 3 ∈ e.acks ∧ 3 ≠ s.sel.b ∧ o.st = .waiting ∧ o.global?.isSome = true ∧
       (∀ x ∈ s.replQ, x.2.line = e.line → x.1 = s.sel.a) ∧ (e.acks.filter (· ≠ 2)) = [3]) ∧
    (let o := { op (.store .global 0x1000 [1]) with held := true }; let s := demoO o { flag := true }
     o.st.settled = false ∧ s.horizonBefore s.sel.a o = true ∧ s.laneHeld s.sel.a o = false ∧ s.group? o.gid = some grp ∧
       ({ s with teams := [(1, small)] } : State).team? grp.team = some small ∧ small.paired = true) ∧
    (let o := op (.scb 3 1 true); (demoO o).op? 9 = some o ∧ o.held = false ∧ o.st = .waiting) ∧
    (let s : State := { demo { grp with threads := [(0, { thr 0 with wait := some (.qpush 3 9 false) })] } with
       teams := [(1, small)], sel := { flag := true, b := 5 } }
     s.op? s.sel.a = none ∧ (s.thread s.sel.b s.sel.c).wait = some (.qpush 3 9 false)) ∧
    (let o := op (.tfence [3]); let s := demoO o { b := 3 }
     o.kind = .tfence [s.sel.b] ∧ s.storesAccepted s.sel.a o = true) := by decide

theorem wit_MemoryEvents_engines :
    (let a : Async := { slot := none, ticket := 0, promise := 0, pos := 1, team := 1 }
     let o := op (.async a copy0); let s := demoO o
     o.err = none ∧ a.whole copy0 = true ∧ s.moving = []) ∧
    (let a : Async := { slot := none, ticket := 0, promise := 0, team := 1 }
     let o := op (.async a copy0); let s := demoO o
     s.clocked o.core = true ∧ s.copyReady s.sel.a o = true ∧ s.teamAway a copy0 = false ∧ a.cancelled = false ∧
       someAnd (s.scratch? a.team 0 64) (fun p => !s.poisoned p 64) = true ∧ (s.scratch? a.team 64 64).isSome = true) ∧
    (let a : Async := { slot := none, ticket := 0, promise := 0 }
     let o := op (.async a (.restripe 0 1 2 (2 ^ 30) 0)); let s : State := { demoO o with moving := [move0] }
     vaOk 0 = true ∧ s.remote? 0 = none ∧ move0.op = s.sel.a ∧ move0.new ≠ move0.old ∧ move0.pos + 256 < move0.size ∧
       2 ^ 30 ≤ ({ move0 with pos := 2 ^ 30 - 256 } : Moving).pos + 256 ∧ (({ s with tlb := (warm s).tlb } : State).engineGate o .global 0 1).2 = true) ∧
    (let a : Async := { slot := none, ticket := 0, promise := 0 }
     ({ op (.async a copy0) with err := some .misaligned } : Op).err = some .misaligned) ∧
    (let w : Walk := { ctx := 0, home := 0, base := 0, size := 2 ^ 30, ex := 1, lane := 0, arr := 0, live := true }
     let s : State := { demo with walks := [w], sel := { a := 0, b := 0x1000 } }
     vaOk s.sel.b = true ∧ s.remote? s.sel.b = none ∧ s.walks.find? (fun w => w.live && w.covers s.sel.a s.sel.b) = some w ∧
       (s.pair (vaHome s.sel.b)).relock = none ∧ s.dieServes (vaHome s.sel.b) = true ∧ w.again = false ∧
       okAnd (s.walk s.sel.a 0 0x1000) (fun _ => true) = true) ∧
    (let s : State := { demo with mem := (0, 0xBE) :: mem0.drop 1, sel := { a := 0, b := 0x1000, svc := .removed } }
     decide (s.walk s.sel.a (vaHome s.sel.b) (vaOfs s.sel.b) matches .error .notPresent) = true ∧ s.moving = [] ∧ s.belayServes = true ∧
       someAnd (s.rawLeaf s.sel.a s.sel.b) (fun f => !f.w0.getLsbD 0 && s.leafOk f.size f.w0 f.w1) = true) ∧
    (let o := op (.load .global 0x1000 4 false) .parked
     let s : State := { demoO o with sel := { a := 5 } }
     let u := (warm s).replayGate [(9, o)]
     o.gid = s.sel.a ∧ s.replayBehind 9 o = false ∧ u.2 = true ∧ o.global?.isSome = true ∧
       someAnd ((u.1.replayOne 9).op? 9) (fun q => decide (q.st ≠ .parked)) = true) ∧
    (let o := op (.load .bank 32 4 false); let s := demoO o
     o.bank? = some 1 ∧ s.admits s.sel.a o 1 = true) ∧
    (let o := op (.load .bank 32 4 false)
     let s : State := { demoO o with banks := [(1, [(9, 0), (9, 1)])], sel := { a := 1 } }
     s.queue s.sel.a = [(9, 0), (9, 1)] ∧ s.op? 9 = some o ∧ s.bankFree s.sel.a = true ∧ o.st = .waiting) := by decide

def eng0 (i : Instr) (st rel : Bool) : EngOp :=
  { team := 1, sig := ⟨i, [0, 0, 0]⟩, sigs := [], started := st, released := rel, at_ := 0, rel := 16, ret := 20 }
def demoE (e : EngOp) : State := { demo with cores := [(0, { eng := [(2, e)] })], sel := { b := 2 } }

theorem wit_MatrixEvents :
    (let e := eng0 (.mzero {} 0 15) false false; let s := demoE e
     s.eng? s.sel.a s.sel.b = some e ∧ e.ready (s.engOlder s.sel.a s.sel.b) = true ∧ s.engineOn s.sel.a = true) ∧
    (let e := eng0 (.mzero {} 0 15) true false; let s := demoE e
     (s.engDue s.sel.a e).1 ≤ s.cyc (pairOf s.sel.a) ∧ s.team? e.team = some team) ∧
    (let e := eng0 (.mswap {} 0) true true; let s := demoE e
     e.sig.swaps = true ∧ (∀ o ∈ s.engOlder s.sel.a s.sel.b, o.sig.isMma = false) ∧
       (s.engDue s.sel.a e).2 ≤ s.cyc (pairOf s.sel.a)) := by decide

/-- A thread at a header, the clause of `mem0` being zeros after a header at global address 0x2000. -/
def hdrG : Group := { grp with cbase := 0x2000, threads := [(0, { thr 0 with pc := 0, clause := none })], ready := some 0 }
def demoH : State :=
  { warm (demo hdrG) with mem := mem0 ++ [(2 ^ 30 + 0x2000, 1), (2 ^ 30 + 0x2002, 0xF8), (2 ^ 30 + 0x2003, 0x07)], sel := { a := 5 } }

theorem wit_SweepEvents :
    (let u := (demoH.wakeWaits 5).deliverAll 5
     someAnd (u.group? 5) (fun g =>
       someAnd ((u.paths 5 g).find? fun p => p.2.1.isNone && p.2.2.contains 0) (fun p => (u.codeWalked 5 g p.1 0).2 && okAnd ((u.codeWalked 5 g p.1 0).1.fetchClause g p.1) fun r =>
         r.2.isSome && g.started && someAnd (r.1.group? 5) fun h => (r.1.startable 5 h p).isSome)) = true) ∧
    (let s : State := { demo with sel := {} }
     let u := (((s.onSlice 0 0).foldl (fun t e => t.settleIn e.1) s).gate 0).noteReady 0 0
     s.coreOn 0 = true ∧ u.sliceFree 0 0 = true ∧
       (u.onSlice 0 0).map (fun e => (e.1, e.2.ready.isSome && u.onDuty e.2 && !e.2.skip)) = [(5, true)]) ∧
    (let g := { grp with ready := some 0 }
     let s : State := { demo g with sel := { a := 5 } }
     g.boost = none ∧ 0 + 256 ≤ s.cyc (pairOf g.core)) ∧
    (let g := { grp with starve := [(4, 16)] }
     (demo g).group? 5 = some g ∧ g.starved ((demo g).readyPaths 5) = some 4) := by decide

def stallG (r : Stall) (f : Map Nat := []) : Group := { grp with f := f, threads := [(0, { thr 0 with wait := some (.stall r) })] }

theorem wit_StallsEnd :
    (stallG (.block 2)).thread? 0 = some { thr 0 with wait := some (.stall (.block 2)) } ∧
    (((demo (stallG (.block 2))).drawTo 5 2 4).isSome = true) ∧
    (stallG (.flag 11) [(11, 254)]).flag 11 < 255 ∧ ((demo (stallG .limit)).unsettled 5 0).length < 1024 ∧
    ((demo (stallG .ticket)).freeSlots 0 ≠ []) ∧ ((demo (stallG (.block 1))).drawBlock 5).isSome = true := by decide

/-- Slice 0 of core 0 holds its slot of an `LDS`, which it has met at the batch port or at the engine. -/
def heldS (port : Bool) : State :=
  { demo { grp with threads := [(0, { thr 0 with clause := some ⟨0, 0x07F80012, [0x6040A2FE, 0x04000004]⟩ })] } with
    cur := none, cores := [(0, { held := [(0, ⟨[{ slot with begins := some [] }], port, 0⟩)] })] }

theorem wit_StallsEnd_held :
    (let s := heldS false
     s.coreOn 0 = true ∧ s.issue = [] ∧ (s.core 0).eng.length < 32 ∧ (s.core 0).held = [(0, ⟨[{ slot with begins := some [] }], false, 0⟩)]) ∧
    (let s := heldS true
     let sl : Slot := { slot with begins := some [] }
     let at_ : Slot := { sl with lanes := s.slotLanes sl }
     0 ≤ s.cyc (pairOf 0) ∧ someAnd (s.slotDecode at_) (fun i =>
       (s.scratchCosts 5 i (Slot.on s at_ i (Instr.guardOf i))).length = 1) = true ∧
       someAnd (s.group? 5) (fun g => decide (g.core = 0) && (s.freePort g).isSome) = true) := by decide

def waitG (w : Wait) : Group := { grp with threads := [(0, { thr 0 with wait := some w })] }

theorem wit_WaitEvents :
    ((demoO (op (.load .global 0 4 false) (.failed .translation))).deliverable 5 0 = true) ∧
    (let g := { grp with threads := [(0, { thr 0 with phase := .exiting })] }
     (demo g).unsettled 5 0 = [] ∧ (demo g).deliverable 5 0 = false ∧ (demo g).frameAway 5 0 = false) ∧
    (let x : Thread := { thr 0 with wait := some (.qpop 3 (v 16) false), lost := [16] }
     let g := { grp with threads := [(0, x)] }
     (demo g).group? 5 = some g ∧ g.thread? 0 = some x ∧ x.wait.isSome = true ∧ (16 : Fin 64).val ∈ x.lost ∧ (17 : Fin 64).val ∉ x.lost ∧
       someAnd (((demo g).unmap 5 [16]).group? 5) (fun h => someAnd (h.thread? 0) fun y => y.wait.isSome) = true) ∧
    ((demo (waitG (.waith 7))).passed 5 0 7 = true) ∧
    (let x : WfX := { cc := 0, spc := .scratch, tmo := 1 }
     let s : State := { demo (waitG (.waitf x (v 16) 0 0 0)) with rtime := 1000000 }
     s.ownBefore 5 0 .scratch 0 4 = false ∧
       okAnd (s.spaceRead .scratch 5 0 0 0 4 { r := true }) (fun r => wfCond 0 false (BitVec.ofNat 64 (ofBytes r.2)) 0 &&
         !wfCond 0 false (BitVec.ofNat 64 (ofBytes r.2)) 1 && r.1.wfLate 5 x 0 && !r.1.wfLate 5 x 1000000) = true ∧
       s.wfLate 5 x 0 = true) ∧
    (waitG (.sleep 1000)).threads = [(0, { thr 0 with wait := some (.sleep 1000) })] ∧ 1000 ≤ demo.ctxNow 0 ∧
    (let a : Async := { slot := some 3, ticket := 3, promise := 0 }
     let s : State := { demoO (op (.async a (.copy .global .scratch 0 0 64))) with
       groups := [(5, waitG (.pwait 3 0))], cores := [(0, { slots := [(3, ⟨0, some 9⟩)] })] }
     s.deliverable 5 0 = false ∧ (s.ticketOp 0 3).isSome = true ∧ s.promiseDue 0 3 0 = true) := by decide

/-- The groups of that team. -/
def heldG (w : Susp) : Group :=
  { grp with mapped := [], susp := w, threads := [(0, { thr 0 with v := [], clause := none, pc := 0, wait := some (.suspend none .nul 0) })] }
def demoS (w : Susp) : State := { demo (heldG w) with teams := [(1, small)] }
def suspG : Group :=
  { grp with mapped := [], threads := [(0, { thr 0 with v := [], wait := some (.suspend (some 0x4000) .nul 0) })] }

/-- The state after the object at 0x4000 has been written over a byte `z` of flags, with another group of the team there, and an operation
of its lane 0. -/
def demoC (k : OpKind) (z : Byte := 0) : State :=
  match exec .suspendWrite { ((demo suspG).gwrite 0 0x400C [z] true 0).toOption.getD (demo suspG) with groups := [(5, suspG), (6, grp)], sel := { a := 5 } } with
  | .next t => { t with ops := [(9, { op k with gid := 6 })], sel := { a := 9 } }
  | .fault _ => demo
  | .refused _ => demo

theorem wit_ContinuationEvents_suspend : let s : State := { demo suspG with sel := { a := 5 } }
    suspG.suspLeader = some (0x4000, 0) ∧ s.suspReady 5 suspG true = true ∧
    s.lineBusy 0 0x4000 512 = false ∧ okAnd (s.cread 0 0 (0x4000 + 12) 16) (fun r => errNone (r.1.writeObj 0 0 0x4000
      (s.objBytes 5 suspG 0 0x4000 (fld r.2 0 4) (fld r.2 14 2) suspG.suspDs (s.detEntries 5 suspG)) (s.sysMode 0) stReady)) = true := by
  decide +kernel

theorem wit_ContinuationEvents_resume : let s := demoC (.resume 0x4000 false)
    s.contReady 9 = true ∧ s.group? 6 = some grp ∧ s.lineBusy 0 0x4008 4 = false ∧ okAnd (s.checkObj grp 0x4000) (fun r =>
      !detPending r.2 && okAnd (r.1.casState 0 0 0x4000 stReady stClaimed true) (fun q => decide (q.2 = stReady) &&
        okAnd (q.1.readObj 0 0 0x4000 true) fun _ => true)) = true := by decide +kernel

/-- An object that has been claimed already is not READY. -/
theorem wit_ContinuationEvents_resumeTwice : let s := demoC (.resume 0x4000 false)
    okAnd (s.casState 0 0 0x4000 stReady stClaimed true) (fun q => okAnd (q.1.checkObj grp 0x4000) fun r =>
      okAnd (r.1.casState 0 0 0x4000 stReady stClaimed true) fun p => decide (p.2 ≠ stReady)) = true := by decide +kernel

theorem wit_ContinuationEvents_ccopy : let s := demoC (.ccopy false 0x4000 0x8000)
    s.contReady 9 = true ∧ someAnd (s.op? 9) (fun o => !s.sourceWaits o 0x4000) = true ∧ s.lineBusy 0 0x4008 4 = false ∧
    okAnd (s.checkObj grp 0x4000) (fun r => decide (0x4000 + r.2.length ≤ 0x8000) && !s.lineBusy 0 0x8000 r.2.length &&
      okAnd (r.1.casState 0 0 0x4000 stReady stConsumed true) (fun q =>
        errNone (q.1.writeObj 0 0 0x8000 (copyBytes r.2 0x8000 false s.rtime) true stReady))) = true := by decide +kernel

/-- An object that says it may be cloned. -/
theorem wit_ContinuationEvents_clone :
    let s := demoC (.ccopy true 0x4000 0x8000) 1
    (s.contReady 9 && someAnd (s.op? 9) (fun o => !s.sourceWaits o 0x4000) && !s.lineBusy 0 0x4008 4 &&
      okAnd (s.checkObj grp 0x4000) fun r => decide (0x4000 + r.2.length ≤ 0x8000) && !s.lineBusy 0 0x8000 r.2.length &&
        decide (fld r.2 0xC 4 % 2 = 1) && decide (fld r.2 8 4 = stReady) &&
        errNone (r.1.writeObj 0 0 0x8000 (copyBytes r.2 0x8000 true s.rtime) true stReady)) = true := by decide +kernel

/-- A claimed object whose magic number has been overwritten. -/
theorem wit_ContinuationEvents_lost :
    okAnd ((demoC (.resume 0x4000 true)).gwrite 0 0x4000 (toBytes 4 0) true 0) (fun s => s.contReady 9 && !s.lineBusy 0 0x4008 4 &&
      decide (s.readObj 0 0 0x4000 true matches .error (.cause _))) = true := by decide +kernel

/-- A restored group whose object has no entry, and a marked team to be checkpointed. -/
theorem wit_ContinuationEvents_restored : let s := demoC (.resume 0x4000 false)
    let g := { grp with started := false, from? := some (0x4000, 0, List.replicate 512 0) }
    let t : State := { s with groups := [(5, g)] }
    g.started = false ∧ g.bySched = true ∧ (t.detDone g).isSome = true ∧ (t.drawTo 5 (max 1 g.needBlocks) 4).isSome = true := by decide +kernel

theorem wit_ContinuationEvents_save :
    (let s := demoS .preempt
     s.mates small = [(1, small)] ∧ s.groupsOf 1 ≠ [] ∧ s.teamReady 1 small .preempt = true ∧
       okAnd (s.saveTeam 1 small false) (fun _ => true) = true) ∧
    (small.paired = true ∧ (demoS .none).groupsOf 1 ≠ [] ∧ ∀ e ∈ (demoS .none).groupsOf 1, e.2.susp = .none) := by decide +kernel

/-- A grid that finds no room on the context's one core, and a team of lower priority to be saved. -/
def demoV : State :=
  { demo { heldG .none with pool := 0 } with
    teams := [(1, { small with paired := false })], cores := [(0, { pool := 0 })], sel := { a := 30 }
    ctxs := [(0, { ctx0 with cfg := { ctx0.cfg with cores := [0] } })]
    grids := [(30, { gridG .admittable with r := { recG with prio := 7 } })] }

theorem wit_ContinuationEvents_preemption : someAnd (demoV.grid? 30) (fun g => decide (g.st = .admittable) && decide (g.r.cls ≠ 0) &&
    demoV.energyFits g && (demoV.admitGrid 30).isNone &&
    someAnd (demoV.pickTeam g (demoV.allowedCores g.ctx g.r.cls g.r.mtx g.r.paired 30)) fun v =>
      okAnd (demoV.saveArea v.2.ctx v.2.core) fun a =>
        (demoV.savePlace v.2.ctx a.1 a.2 ((demoV.mates v.2).map fun e => up256 (demoV.recordMax e.1 e.2)).sum).isSome) = true := by
  decide +kernel

/-- The state after team 1 has been saved. -/
def demoR : State :=
  match exec .teamSave { demoS .preempt with sel := { a := 1 } } with
  | .next t => t
  | .fault _ => demo
  | .refused _ => demo

theorem wit_ContinuationEvents_restore : demoR.saves.length = 1 ∧ Map.sorted demoR.saves = true ∧ someAnd demoR.saves.head? (fun e =>
    !e.2.ckpt && !e.2.placed && !demoR.gridFirst e.2 && decide (demoR.savedWith e.1 e.2 = [e]) &&
    someAnd (demoR.restorePlace e.2 [e]) fun p => decide (p.1.length = 1) && decide (p.2.length = 1) &&
      e.2.objs.all (fun a => !demoR.lineBusy e.2.ctx (a + 8) 4) && okAnd (demoR.claimRecord e.2 (p.1.headD 0)).2 fun _ => true) = true := by
  decide +kernel

/-! ## Witnesses of the statements' hypotheses: decoding, steps, memory, traps and frames -/

theorem wit_DecodingInvertsEncoding : (Instr.bfeI { g := .pred 0 } (v 3) (v 2) (v 1)).shapeOk = true ∧
    (Instr.bfeI { g := .pred 0 } (v 3) (v 2) (v 1)).gen.isSome = true ∧
    (Instr.rrs { pa := 1, ia := 1, ib := 3, k := -1 }).shapeOk = true ∧
    (encodeStep (.rrs { pa := 1, ia := 1, ib := 3, k := -1 })).isSome = true := by decide

/-- A slot that has been timed, whose clause holds the word `w`. -/
def fetched (w : Word) : State :=
  { demo { grp with threads := [(0, { thr 0 with clause := some ⟨0, hw0, List.replicate 15 w⟩ })] } with
    cur := none, issue := [{ slot with begins := some [] }] }

/-- What a step would fetch: whether the words decode, and whether the slot could be charged. -/
def fetches (w : Word) : Bool × Bool :=
  let t : State := { fetched w with issue := [] }
  match t.group? 5, (t.thread 5 0).clause with
  | some g, some cl =>
    match decodeWords (cl.pageAt (cl.idx 4)) ((cl.ws.take cl.area).drop (cl.idx 4)) with
    | .ok r => (true, (t.charge { slot with begins := some [] } g r.1).toOption.isSome)
    | .error _ => (false, false)
  | _, _ => (true, false)

/-- `IADD v2, v0, v1` and a word of an unassigned opcode. -/
theorem wit_StepRunsTheDecodedInstruction : fetches 0x0080C17F = (true, true) ∧ fetches 0xFFFFFFFF = (false, false) ∧
    State.slotLanes { fetched 0x0080C17F with issue := [] } { slot with begins := some [] } = [0] := ⟨rfl, rfl, rfl⟩

/-- A program at a SEND. -/
theorem wit_StepRunsTheDecodedInstruction_program :
    let s := demoP { prog0 with words := [0xF000000000000000, 0xA000000000000000, 0x0000000000000000] }
    someAnd (s.prog? 7) (fun p => someAnd p.words[2]? fun w => okAnd (decodeStep w) fun _ => true) = true := by decide

/-- An event that is due. -/
theorem wit_StepRunsTheDecodedInstruction_event :
    let s : State := { demo with agenda := [(900, .snapshotRearm, {})] }
    s.issue = [] ∧ s.agenda = [(900, .snapshotRearm, {})] ∧ 900 ≤ s.rtime := ⟨rfl, rfl, by decide⟩

theorem wit_StepsKeepMemoryCanonical : Memory.wf (fetched 0x0080C17F).mem = true ∧ Out.has (step (fetched 0x0080C17F)) (fun _ => true) = true := by
  decide

theorem wit_MemoryReadsBackWrites : Memory.wf mem0 = true ∧ ([1] : List Byte) ≠ [] ∧ 0x10FF % 256 + 1 ≤ 256 ∧
    okAnd (demo.translate 0 0x10FF { w := true } true 0) (fun r => !demo.cxlGone r.2) = true := by decide

/-- A team of the grid of `recWords` is placed: its group is new. -/
theorem wit_ResetAndKernelEntry : recG.shadow = false ∧
    someAnd (State.reset.pickCore [0] recG.demand) (fun c =>
      (State.reset.placeTeam 30 (gridG .placing) 0 c.1 0 0 c.2).groups.length == 1) = true ∧ State.reset.groups = [] := by decide

def frame0 : Frame := { cause := .userTrap, cls := .precise, ins := 4, hz := 7, opc := 7, resume := 4 }

theorem wit_TrapsEnterTheHandler : demo.group? 5 = some grp ∧ demo.team? 1 = some team ∧ frame0.cls ≠ .fatal ∧
    team.handler ≠ 0 ∧ (grp.thread 0).hnd = none ∧ okAnd (demo.takeFrame 0 0).2 (fun fr =>
      okAnd ((demo.takeFrame 0 0).1.gwrite 0 fr ((frame0.forTeam team.paired).bytes [0] 0 0) true 0) fun _ => true) = true ∧ (hndG.thread 0).hnd.isSome = true ∧
    okAnd (demo.gread 0 0x100000 4 { r := true, w := true } true 0) (fun t => okAnd (t.1.dwrite 0 0x100000 (toBytes 4 (ofBytes t.2 + 1)) true 0)
      fun u => okAnd (u.gread 0 0x100004 4 { r := true } true 0) fun w => decide (ofBytes w.2 = 2 ^ 2) &&
        okAnd (w.1.gread 0 0x100200 2 { r := true } true 0) fun _ => true) = true ∧
    (let s : State := { demo with mem := (0, 0xBE) :: mem0.drop 1 }
     s.group? 5 = some grp ∧ decide ((s.takeFrame 0 0).2 matches .error (.notPresent, 0x100000)) = true) := by decide

/-- A signalling NaN in `v0` with its flag enabled. -/
def nanG : Group := { grp with trapen := 1, threads := [(0, { thr 0 with v := [(0, 0x7F800001)] })] }

theorem wit_ChecksGuardsAndFloatingTraps :
    demo.check (.iadd {} (sr 1) (v 0) (v 1)) grp 0 = some .illegalOperand ∧
    (demo.check (.iadd { g := .pred 0 } (v 2) (v 0) (v 1)) grp 0 = none ∧ grp.guard (.pred 0) 0 = false) ∧
    ((Instr.snap {} (sr 2)).privileged = true ∧ (Instr.snap {} (sr 2)).page ≠ 3 ∧ State.reset.sysMode 0 = false) ∧
    ((Instr.mopr {}).page = 3 ∧ (demoS .none).team? 1 = some small ∧ small.mtx = false) ∧
    (∀ e ∈ ([(.fadd, Fmt.f32.add .rne), (.fsub, Fmt.f32.sub .rne), (.fmul, Fmt.f32.mul .rne), (.fdiv, Fmt.f32.div .rne),
      (.fmin, Fmt.f32.minmax false), (.fmax, Fmt.f32.minmax true)] :
      List ((Pre → Opnd → Opnd → Opnd → Instr) × (Nat → Nat → Nat × Flags))),
      let i := e.1 {} (v 2) (v 0) (v 1)
      fine nanG i = true ∧ (start nanG i).fpTrap? 5 (e.2 ((start nanG i).srcF 5 0 (v 0)) ((start nanG i).srcF 5 0 (v 1))).2 = some .fp) := by
  decide

theorem wit_FramesOfInstructions :
    (∀ i ∈ [Instr.iadd {} (v 2) (v 0) (v 1), .ballot {} (v 2) 0, .icmp {} ⟨.lt, .i32⟩ 5 (v 0) (v 1), .fcmp {} ⟨.lt, .f32⟩ 5 (v 0) (v 1)],
      Executes i {} demo slot grp [0] [] (start grp i) ∧ ∀ ls fl, Untrapped (start grp i) 5 ls fl) ∧
    (∀ i ∈ [Instr.ldg {} { w := 2 } (v 16) (.lit 0x1000) (v 8), .ldb {} { w := 2 } (v 16) (v 8) (v 10),
        .atomg {} { w := 2, aop := 0, ret := true } (v 16) (.lit 0x1000) (v 8), .atomb {} { w := 2, aop := 0, ret := true } (v 16) (v 8) (v 10),
        .peerq {} (v 16) (v 4)],
      Executes i {} demo slot grp [0] [] (start grp i) ∧ (start grp i).issueStall slot [0] true false = none) ∧
    (∀ i ∈ [Instr.stg {} { w := 2 } (v 16) (.lit 0x1000) (v 8), .stb {} { w := 2 } (v 16) (v 8) (v 10), .wcflush {}, .scbset {} (v 1) (v 8),
        .scbclr {} (v 1) (v 8)],
      Executes i {} demo slot grp [0] [] (start grp i) ∧ (start grp i).issueStall slot [0] false true = none) ∧
    (∀ i ∈ [Instr.cpy {} ⟨.scratch, .scratch, .nul, .grp, false, false, false⟩ (v 16) (v 8) (.lit 64)],
      Executes i {} demo slot grp [0] [] (start grp i) ∧ (start grp i).issueStall slot [0] true true = none) ∧
    (demo.eaGlobal 5 0 (.lit 0x1000) (v 8) 0 = 0x1000 ∧ vaOk 0x1000 = true ∧ demo.remote? 0x1000 = none ∧
      ∀ a b c, demo.absent 0 0x1000 ⟨a, b, c⟩ 0 = false) ∧
    ((∀ b, demo.mustHold grp 0 .rlx false b = false) ∧ demo.quiet slot grp [0] ∧ demo.eaLocal 5 0 (v 8) (v 10) 0 % 32 = 0 ∧
      1 ≤ (demo.freeSlots grp.core).length ∧ (demo.src32 5 0 (v 1)).toNat < 256 ∧ (∀ x ∈ demo.ctx? 0, x.armed = []) ∧ demo.grids = [] ∧
      demo.ops = []) ∧
    ((grp.thread 1).clause = (grp.thread 0).clause ∧ (grp.thread 1).pc = (grp.thread 0).pc ∧
      someAnd (grp.thread 0).clause (fun c => !c.header.rel) = true) :=
  ⟨all_quiet (by decide), all_issue (by decide), all_issue (by decide), all_issue (by decide), by decide,
    ⟨by decide, ⟨rfl, nofun, by decide⟩, by decide, by decide, by decide, by decide, rfl, rfl⟩, by decide⟩

/-- A clause of one instruction that releases `v1` and `v32` (R53). -/
def relC : Clause := ⟨0, 0x27F80003, [0, 2, 1]⟩

theorem wit_ReleaseMasksUnmapAtTheEnd : relC.header.rel = true ∧ relC.releases = [1, 32] ∧ (Clause.mk 0 hw0 []).header.rel = false ∧
    (let g := { grp with threads := [(0, { thr 0 with clause := some relC }), (1, { thr 1 with clause := some relC })] }
     (demo g).group? 5 = some g ∧ ∀ l ∈ [0, 1], (g.thread l).clause = some relC ∧ (g.thread? l).isSome = true) := by decide

/-- A clause that names flag 3 as its `SETA` and its `SETB`, and a group whose flag 3 is full. -/
def flagC (hw : Word) : Group := { grp with f := [(3, 255)], threads := [(0, { thr 0 with clause := some ⟨0, hw, []⟩ })] }

theorem wit_FullFlagsHoldIssueBack :
    (∀ i ∈ ([.ldg, .lds, .ldb] : List (Pre → Mx → Opnd → Opnd → Opnd → Instr)).map (fun c => c {} { w := 2 } (v 16) (v 8) (v 10)),
      fine (flagC 0x0798000F) i = true ∧ (start (flagC 0x0798000F) i).issueStall slot [0] true false = some (.flag 3)) ∧
    (∀ i ∈ ([.stg, .sts, .stb, .atomg] : List (Pre → Mx → Opnd → Opnd → Opnd → Instr)).map (fun c => c {} { w := 2, aop := 0 } (v 16) (v 8) (v 10)),
      fine (flagC 0x01F8000F) i = true ∧ (start (flagC 0x01F8000F) i).issueStall slot [0] false true = some (.flag 3)) ∧
    (∀ i ∈ [Instr.cpy {} ⟨.scratch, .scratch, .nul, .grp, false, false, false⟩ (v 16) (v 8) (v 12),
        .mma {} { tile := 0, row := 0, txa := 7 } 1 (.lit 0) (.lit 0x00010000)],
      fine { flagC 0x0198000F with f := [(3, 254)] } i = true ∧
      (start { flagC 0x0198000F with f := [(3, 254)] } i).issueStall slot [0] true true = some (.flag 3)) ∧
    someAnd ((demo (flagC 0x0798000F)).slotHeader slot) (fun h => decide (h.seta = some 3)) = true ∧
    ((stallG (.flag 11) [(11, 254)]).thread? 0 = some { thr 0 with wait := some (.stall (.flag 11)) } ∧
      ((stallG (.flag 11)).threads.map Prod.fst).Nodup ∧ (stallG (.flag 11) [(11, 255)]).flag 11 = 255) := by decide

theorem wit_SpecialRegisterValues : demo.group? 5 = some grp ∧ demo.team? grp.team = some team ∧ demo.ctx? grp.ctx = some ctx0 ∧
    grp.thread? 0 = some (thr 0) ∧ (thr 0).cycHi = none ∧ (thr 0).rtimeHi = none ∧ (thr 0).energyHi = none ∧
    (23 : BitVec 7).toNat = 23 ∧ (63 : BitVec 7).toNat = 63 ∧ (68 : BitVec 7).toNat = 68 ∧ (70 : BitVec 7).toNat = 70 ∧
    (127 : BitVec 7).toNat = 127 := by decide

end Sys2Proof.Tests
end

section
/-!
Proofs. The rules of links: what an update of a link, a pump, a message that joins a queue and a
resend leave in the state, and what the events of links do.
-/

namespace Sys2Proof.Machine

/-! ### Reading a link after an update -/

@[simp] theorem Map.get?_del {β : Type} (k : Nat) (m : Map β) : Map.get? (Map.del k m) k = none :=
  Map.get?_filter_of_not m _ k (by simp)

section

variable (s : State) (k : Nat) (f : Link → Link)

@[simp] theorem link_modLink : (s.modLink k f).link k = f (s.link k) := Map.get_put k _ _ _

theorem modLink_congr {f g : Link → Link} (h : f (s.link k) = g (s.link k)) : s.modLink k f = s.modLink k g := by
  rw [State.modLink, State.modLink, h]

theorem link_modLink_ne {j : Nat} (hj : j ≠ k) : (s.modLink k f).link j = s.link j := Map.get_put_ne hj _ _ _

/-- A link that no entry lists is as at reset. -/
theorem link_of_not_mem (h : k ∉ s.links.map Prod.fst) : s.link k = {} := by
  suffices Map.get? s.links k = none by simp [State.link, Map.get, this]
  generalize s.links = m at h
  induction m with
  | nil => rfl
  | cons e m ih =>
    simp only [List.map_cons, List.mem_cons, not_or] at h
    rw [Map.get?_cons, if_neg (Ne.symm h.1), ih h.2]

end

/-- A plane below 8 is read back from the number of its link. -/
theorem linkKey_mod (peer : Nat) {p : Nat} (hp : p < 8) : linkKey peer p % 8 = p := by
  unfold linkKey; omega

/-! ### Link headers (R342) -/

theorem typeAt_lt (m : Msg) (k : Nat) : m.typeAt k < 32 := by
  have type_lt : ∀ c : MsgKind, c.type < 32 := by intro c; cases c <;> decide
  unfold Msg.typeAt
  split
  · exact type_lt .wdata
  · exact type_lt m.kind

/-- A header as a number, where its channel and its sender fit in their fields. -/
theorem header_toNat (m : Msg) (own seq k : Nat) (gen : Bool) (hc : m.chan < 64) (ho : own < 512) :
    (m.header own gen seq k).toNat = gen.toNat + 2 * m.chan + 2 ^ 7 * m.typeAt k + 2 ^ 12 * (decide (k + 1 = m.flits)).toNat
      + 2 ^ 16 * (seq % 2 ^ 16) + 2 ^ 32 * (m.tag % 2 ^ 16) + 2 ^ 48 * own + 2 ^ 57 * (m.ctx % 64)
      + 2 ^ 64 * (m.argAt k % 2 ^ 64) := by
  have ht := typeAt_lt m k
  have hg := Bool.toNat_le gen
  have hb := Bool.toNat_le (decide (k + 1 = m.flits))
  have hl : (if k + 1 = m.flits then 2 ^ 12 else 0) = 2 ^ 12 * (decide (k + 1 = m.flits)).toNat := by split <;> simp [*]
  rw [Msg.header, BitVec.toNat_ofNat, hl]
  exact Nat.mod_eq_of_lt (by omega)

theorem hdrAt_eq (h : BitVec 128) (lo n : Nat) : hdrAt h lo n = h.toNat / 2 ^ lo % 2 ^ n := by
  simp [hdrAt, Nat.shiftRight_eq_div_pow]

theorem getLsbD_of_div_mod {n i : Nat} {h : BitVec n} {b : Bool} (e : h.toNat / 2 ^ i % 2 = b.toNat) : h.getLsbD i = b := by
  have : h.getLsbD i = decide (h.toNat / 2 ^ i % 2 = 1) := Nat.testBit_eq_decide_div_mod_eq
  rw [this, e]
  cases b <;> rfl

/-- What the fields of a header read. -/
theorem header_fields (m : Msg) (own seq k : Nat) (gen : Bool) (hc : m.chan < 64) (ho : own < 512) :
    let h := m.header own gen seq k
    h.getLsbD 0 = gen ∧ hdrAt h 1 6 = m.chan ∧ hdrAt h 7 5 = m.typeAt k ∧ h.getLsbD 12 = decide (k + 1 = m.flits) ∧
      hdrAt h 13 3 = 0 ∧ hdrAt h 16 16 = seq % 2 ^ 16 ∧ hdrAt h 32 16 = m.tag % 2 ^ 16 ∧ hdrAt h 48 9 = own ∧
      hdrAt h 57 6 = m.ctx % 64 ∧ h.getLsbD 63 = false ∧ hdrAt h 64 64 = m.argAt k % 2 ^ 64 := by
  have ht := typeAt_lt m k
  have hg := Bool.toNat_le gen
  have hl := Bool.toNat_le (decide (k + 1 = m.flits))
  have hn := header_toNat m own seq k gen hc ho
  intro h
  simp only [hdrAt_eq]
  refine ⟨getLsbD_of_div_mod ?_, ?_, ?_, getLsbD_of_div_mod ?_, ?_, ?_, ?_, ?_, ?_,
    getLsbD_of_div_mod (b := false) (show _ = 0 from ?_), ?_⟩ <;> rw [hn] <;> omega

/-! ### Sending -/

theorem seal_bad (w : Wire) (l : Link) : (l.seal w).1.bad = l.bad := by
  unfold Link.seal; split <;> rfl

theorem flit_bad (w : Wire) (now : Nat) (l : Link) (m : Msg) : (l.flit w now m).1.bad = l.bad := by
  unfold Link.flit
  dsimp only
  split
  · rw [seal_bad]
  · rfl

/-- A link that has failed as a sender stays so while it sends. -/
theorem linkPump_bad (w : Wire) (now fuel : Nat) (l : Link) : (Link.pump w now fuel l).1.bad = l.bad := by
  induction fuel generalizing l with
  | zero => rfl
  | succ fuel ih =>
    unfold Link.pump
    split
    · dsimp only; split <;> rfl
    · exact (ih _).trans (flit_bad ..)

section

variable (s : State) (p q : Nat) (m : Msg)

theorem link_pump : (s.pump p q).link (linkKey p q)
    = (Link.pump (s.wire p q) s.rtime ((s.link (linkKey p q)).waiting + 1) (s.link (linkKey p q))).1 := Map.get_put ..

/-- A link that sends changes itself and the outbox. -/
theorem pump_frame : s.pump p q = { s with links := (s.pump p q).links, outbox := (s.pump p q).outbox } := rfl

theorem link_pump_ne {j : Nat} (hj : j ≠ linkKey p q) : (s.pump p q).link j = s.link j := Map.get_put_ne hj _ _ _

theorem link_pump_bad (j : Nat) : ((s.pump p q).link j).bad = (s.link j).bad := by
  by_cases hj : j = linkKey p q
  · subst hj
    rw [link_pump, linkPump_bad]
  · rw [link_pump_ne s p q hj]

theorem enqueue_frame : s.enqueue p q m = { s with links := (s.enqueue p q m).links, outbox := (s.enqueue p q m).outbox } := rfl

theorem link_enqueue_ne {j : Nat} (hj : j ≠ linkKey p q) : (s.enqueue p q m).link j = s.link j := by
  rw [State.enqueue, link_pump_ne _ _ _ hj, link_modLink_ne _ _ _ hj]

theorem link_enqueue_bad (j : Nat) : ((s.enqueue p q m).link j).bad = (s.link j).bad := by
  rw [State.enqueue, link_pump_bad]
  by_cases hj : j = linkKey p q
  · subst hj; rw [link_modLink]
  · rw [link_modLink_ne _ _ _ hj]

theorem sendCtl_of_no_belay (code arg : Nat) (h : s.belayServes = false) : s.sendCtl p q code arg = s := by
  simp [State.sendCtl, h]

end

/-- What holds of a state and is kept by each message that joins the queue of the plane chosen for it holds after a resend. -/
theorem resend_induction {P : State → Prop} (s : State) (ms : List Msg) (h : P s)
    (step : ∀ (t : State) (m : Msg) p, P t → t.planeFor m.dest m.line = some p → P (t.enqueue m.dest p { m with hdrs := [] })) :
    P (s.resend ms) := by
  unfold State.resend
  generalize ms.filter Msg.moves = ms
  induction ms generalizing s with
  | nil => exact h
  | cons m ms ih =>
    rw [List.foldl_cons]
    refine ih _ ?_
    split
    next p hp => exact step s m p h hp
    next => exact h

theorem link_resend_bad (s : State) (ms : List Msg) (j : Nat) : ((s.resend ms).link j).bad = (s.link j).bad :=
  resend_induction (P := fun t => (t.link j).bad = (s.link j).bad) s ms rfl
    fun t m p ht _ => (link_enqueue_bad t m.dest p _ j).trans ht

/-- A resend changes links and the outbox. -/
theorem resend_frame (s : State) (ms : List Msg) :
    s.resend ms = { s with links := (s.resend ms).links, outbox := (s.resend ms).outbox } :=
  resend_induction (P := fun t => t = { s with links := t.links, outbox := t.outbox }) s ms rfl
    fun t m p ht _ => by rw [enqueue_frame t, ht]

/-- The plane of a message is one of the eight, and online. -/
theorem planeFor_online {s : State} {peer idx p : Nat} (h : s.planeFor peer idx = some p) : p < 8 ∧ p ∉ s.planesOff := by
  have hp := List.find?_some h
  simp only [List.contains_iff_mem, State.planesTo, State.planeOn, List.mem_filter, List.mem_range, Bool.and_eq_true] at hp
  obtain ⟨hlt, ⟨⟨-, hon⟩, -⟩, -⟩ := hp
  exact ⟨hlt, by simpa using hon⟩

/-- A resend leaves the links of a lost plane alone. -/
theorem link_resend_of_lost (s : State) (ms : List Msg) {p : Nat} (hp : p < 8) (hoff : p ∈ s.planesOff) (peer : Nat) :
    (s.resend ms).link (linkKey peer p) = s.link (linkKey peer p) := by
  have key := resend_induction
    (P := fun t => p ∈ t.planesOff ∧ t.link (linkKey peer p) = s.link (linkKey peer p)) s ms ⟨hoff, rfl⟩
  refine (key fun t m q ⟨ht, hl⟩ hq => ⟨by rw [enqueue_frame]; exact ht, ?_⟩).2
  obtain ⟨hq8, hon⟩ := planeFor_online hq
  have hne : linkKey peer p ≠ linkKey m.dest q := by
    intro e
    have : p = q := by rw [← linkKey_mod peer hp, e, linkKey_mod _ hq8]
    exact hon (this ▸ ht)
  rw [link_enqueue_ne _ _ _ _ hne, hl]

/-! ### A flit that arrives (R342, R345, R348, R349) -/

/-- Whether a flit ends its message. -/
def MsgKind.endsWith (k : MsgKind) (h : BitVec 128) : Bool := h.getLsbD 12 || !k.long

/-- How many flits of the message of a flit have come before it, and whether none was discarded. -/
def Link.seen (l : Link) (k : MsgKind) (h : BitVec 128) : Nat × Bool :=
  if k.long then Map.get l.rxPart (hdrAt h 1 6) (0, true) else (0, true)

/-- The flits that a flit stands for. -/
def Link.standsFor (l : Link) (x : Sel) (k : MsgKind) (h : BitVec 128) : Nat :=
  if k.endsWith h then max 1 (flitsIn x k - (l.seen k h).1) else 1

/-- Whether a flit that stands for `n` is no link error. -/
def State.accepts (s : State) (k : MsgKind) (h : BitVec 128) (n : Nat) : Bool :=
  hdrAt h 7 5 = k.type && k.onChan (hdrAt h 1 6) && hdrAt h 13 3 = 0 && !h.getLsbD 63 &&
    s.portRoom (hdrAt h 48 9) s.sel.plane (hdrAt h 1 6) n

/-- Whether a flit spoils the open block: a `SEQ` gap, a key bank that is not held, or a second generation. -/
def Link.spoiltBy (l : Link) (x : Sel) (k : MsgKind) (h : BitVec 128) : Bool :=
  hdrAt h 16 16 ≠ (l.rxSeq + l.standsFor x k h - 1) % 65536 || !(h.getLsbD 0 == l.genRx || l.rxIdle)
    || (l.rxFlits ≠ 0 && h.getLsbD 0 != l.rxGen)

/-- A link after a flit, accepted where `fine` says so, has joined its open block at the tick `now`. -/
def Link.join (l : Link) (now : Nat) (fine : Bool) (x : Sel) (k : MsgKind) (code : Nat) (h : BitVec 128) : Link :=
  { l with
    rxSeq := (hdrAt h 16 16 + 1) % 65536, rxFlits := l.rxFlits + l.standsFor x k h, rxGen := h.getLsbD 0
    rxGap := l.rxGap || l.spoiltBy x k h
    rxBlock := if fine then l.rxBlock ++ [⟨k, code, x, l.standsFor x k h, k.endsWith h && fine && (l.seen k h).2⟩] else l.rxBlock
    rxPart := if k.endsWith h then Map.del (hdrAt h 1 6) l.rxPart
      else Map.put (hdrAt h 1 6) ((l.seen k h).1 + 1, (l.seen k h).2 && fine) l.rxPart
    heldTill := if h.getLsbD 0 != l.genRx && l.rxIdle && l.heldTill = 0 then now + holdTicks else l.heldTill
    errs := if fine then l.errs else l.errs + 1 }

section

variable (s : State) (k : MsgKind) (code : Nat) (h : BitVec 128)

theorem takeFlit_of_no_belay (hb : s.belayServes = false) : s.takeFlit k code h = s := by
  simp [State.takeFlit, hb]

theorem takeFlit_of_down (hb : s.belayServes = true)
    (hd : (s.link (linkKey (hdrAt h 48 9) s.sel.plane)).up = false ∨ (s.link (linkKey (hdrAt h 48 9) s.sel.plane)).rxBad = true) :
    s.takeFlit k code h = s.modLink (linkKey (hdrAt h 48 9) s.sel.plane) fun l => { l with errs := l.errs + 1 } := by
  have hd' : (!(s.link (linkKey (hdrAt h 48 9) s.sel.plane)).up || (s.link (linkKey (hdrAt h 48 9) s.sel.plane)).rxBad) = true := by
    simpa using hd
  rw [State.takeFlit, hb]
  exact if_pos hd'

theorem takeFlit_of_up (hb : s.belayServes = true) (hu : (s.link (linkKey (hdrAt h 48 9) s.sel.plane)).up = true)
    (hr : (s.link (linkKey (hdrAt h 48 9) s.sel.plane)).rxBad = false) :
    s.takeFlit k code h = s.modLink (linkKey (hdrAt h 48 9) s.sel.plane) fun l =>
      l.join s.rtime (s.accepts k h (l.standsFor (selOfFlit s.sel k code h) k h)) (selOfFlit s.sel k code h) k code h := by
  rw [State.takeFlit, hb, hu, hr]
  rfl

theorem link_takeFlit_of_up {l : Link} (hb : s.belayServes = true) (hl : s.link (linkKey (hdrAt h 48 9) s.sel.plane) = l)
    (hu : l.up = true) (hr : l.rxBad = false) : (s.takeFlit k code h).link (linkKey (hdrAt h 48 9) s.sel.plane)
      = l.join s.rtime (s.accepts k h (l.standsFor (selOfFlit s.sel k code h) k h)) (selOfFlit s.sel k code h) k code h := by
  subst hl
  rw [takeFlit_of_up s k code h hb hu hr, link_modLink]

theorem takeFlit_frame : s.takeFlit k code h = { s with links := (s.takeFlit k code h).links } := by
  unfold State.takeFlit
  dsimp only
  split
  · rfl
  · split <;> rfl

end

theorem accepts_iff {s : State} {k : MsgKind} {h : BitVec 128} {n : Nat} : s.accepts k h n = true ↔
    hdrAt h 7 5 = k.type ∧ k.onChan (hdrAt h 1 6) = true ∧ hdrAt h 13 3 = 0 ∧ h.getLsbD 63 = false ∧
      s.portRoom (hdrAt h 48 9) s.sel.plane (hdrAt h 1 6) n = true := by
  simp [State.accepts, and_assoc]

section

variable (l : Link) (now : Nat) (fine : Bool) (x : Sel) (k : MsgKind) (code : Nat) (h : BitVec 128)

theorem join_rxBlock_of_fine : (l.join now true x k code h).rxBlock
    = l.rxBlock ++ [⟨k, code, x, l.standsFor x k h, k.endsWith h && (l.seen k h).2⟩] := by
  simp [Link.join]

theorem join_rxPart_of_last (hl : k.endsWith h = true) : Map.get? (l.join now fine x k code h).rxPart (hdrAt h 1 6) = none := by
  simp [Link.join, hl]

theorem join_rxPart_of_more_fine (hl : k.endsWith h = false) :
    Map.get? (l.join now true x k code h).rxPart (hdrAt h 1 6) = some ((l.seen k h).1 + 1, (l.seen k h).2) := by
  simp [Link.join, hl]

theorem join_rxPart_of_more_error (hl : k.endsWith h = false) :
    Map.get? (l.join now false x k code h).rxPart (hdrAt h 1 6) = some ((l.seen k h).1 + 1, false) := by
  simp [Link.join, hl]

theorem join_heldTill : (l.join now fine x k code h).heldTill
    = if h.getLsbD 0 ≠ l.genRx ∧ l.rxIdle = true ∧ l.heldTill = 0 then now + holdTicks else l.heldTill := by
  simp [Link.join, and_assoc]

theorem join_rxGap_of_next (hs : hdrAt h 16 16 = (l.rxSeq + l.standsFor x k h - 1) % 65536)
    (hk : h.getLsbD 0 = l.genRx ∨ l.rxIdle = true) (hg : l.rxFlits = 0 ∨ h.getLsbD 0 = l.rxGen) :
    (l.join now fine x k code h).rxGap = l.rxGap := by
  have hn : l.spoiltBy x k h = false := by
    simp only [Link.spoiltBy, Bool.or_eq_false_iff, Bool.and_eq_false_iff]
    exact ⟨⟨by simpa using hs, by rcases hk with hk | hk <;> simp [-BitVec.getLsbD_eq_getElem, hk]⟩, by simpa using hg⟩
  simp [Link.join, hn]

theorem join_rxGap_of_gap (hs : hdrAt h 16 16 ≠ (l.rxSeq + l.standsFor x k h - 1) % 65536) :
    (l.join now fine x k code h).rxGap = true := by
  simp [Link.join, Link.spoiltBy, hs]

end

/-! ### Blocks that end, and what the receiver gives back (R345, R347, R348) -/

section

variable (s : State) (p q : Nat) (m : RxMsg) (h : BitVec 128)

theorem giveBack_of_link_channel (hm : m.x.hdr = some h) (hc : 62 ≤ hdrAt h 1 6) : s.giveBack p q m = s := by
  simp [State.giveBack, hm, hc]

theorem giveBack_of_channel (hm : m.x.hdr = some h) (hc : hdrAt h 1 6 < 62) :
    s.giveBack p q m = (s.modLink (linkKey p q) fun l => { l with given := l.given + min 1 (s.grantRoom p q) }).enqueue p q
      { dest := p, kind := .grant, chan := 62, arg := hdrAt h 1 6 + 64 * (m.n + min 1 (s.grantRoom p q)) } := by
  simp only [State.giveBack, hm, Option.elim_some, Nat.not_le.mpr hc, if_false]

end

/-- The generation of the open block that an INTEG flit ends. -/
def Link.blockGen (l : Link) (h : BitVec 128) : Bool := if l.rxFlits = 0 then h.getLsbD 0 else l.rxGen

/-- The open block of a link is released: its flits are freed and its whole messages act in their order; `f` is what else becomes of
the link. -/
def State.releaseBlock (s : State) (p q : Nat) (f : Link → Link) : State :=
  (s.link (linkKey p q)).rxBlock.foldl (fun t m =>
      let u := t.giveBack p q m
      if m.whole then u.receive m else u)
    (s.modLink (linkKey p q) fun l => f { l with fails := 0, rxFirst := l.rxSeq, rxBlock := [], rxFlits := 0, rxKept := l.rxPart })

/-- The open block of a link is discarded and asked for again from its first `SEQ`. -/
def State.refuseBlock (s : State) (p q : Nat) : State :=
  (s.modLink (linkKey p q) fun l =>
    { l with fails := l.fails + 1, rxBad := decide (4 ≤ l.fails + 1), rxSeq := l.rxFirst, rxBlock := [], rxFlits := 0
             rxGap := false, rxPart := l.rxKept }).sendCtl p q 1 (s.link (linkKey p q)).rxFirst

theorem releaseBlock_congr (s : State) (p q : Nat) {f g : Link → Link}
    (h : ∀ l : Link, l.genRx = (s.link (linkKey p q)).genRx → l.rxIdle = (s.link (linkKey p q)).rxIdle → f l = g l) :
    s.releaseBlock p q f = s.releaseBlock p q g :=
  congrArg (List.foldl _ · _) (modLink_congr s _ (h _ rfl rfl))

section

variable {s : State} {h : BitVec 128} {l : Link} (hs : s.sel.hdr = some h) (hb : s.belayServes = true)
  (hl : s.link (linkKey (hdrAt h 48 9) s.sel.plane) = l) (hu : l.up = true) (hr : l.rxBad = false)

include hs hb hl hu hr

/-- INTEG on a link that is up: the block is released where it verifies, and refused otherwise. -/
theorem integ_of_up : exec .integ s =
    if s.sel.flag && !l.rxGap && (l.blockGen h == l.genRx || l.rxIdle) then
      .next { s.releaseBlock (hdrAt h 48 9) s.sel.plane fun k =>
        { k with genRx := if l.blockGen h != l.genRx && k.rxIdle then l.blockGen h else k.genRx } with sel := s.sel }
    else .next (s.refuseBlock (hdrAt h 48 9) s.sel.plane) := by
  subst hl
  change execInteg s = _
  unfold execInteg
  rw [hs]
  dsimp only
  rw [if_neg (by simp [hb]), if_neg (by simp [hu, hr])]
  rfl

theorem integ_of_same_key (hf : s.sel.flag = true) (hg : l.rxGap = false) (hk : l.blockGen h = l.genRx) :
    exec .integ s = .next { s.releaseBlock (hdrAt h 48 9) s.sel.plane id with sel := s.sel } := by
  rw [integ_of_up hs hb hl hu hr, if_pos (by simp [hf, hg, hk])]
  simp only [hk, bne_self_eq_false, Bool.false_and, Bool.false_eq_true, if_false]
  rfl

theorem integ_of_new_key (hf : s.sel.flag = true) (hg : l.rxGap = false) (hk : l.blockGen h ≠ l.genRx) (hi : l.rxIdle = true) :
    exec .integ s = .next { s.releaseBlock (hdrAt h 48 9) s.sel.plane fun k => { k with genRx := l.blockGen h } with
      sel := s.sel } := by
  rw [integ_of_up hs hb hl hu hr, if_pos (by simp [hf, hg, hi])]
  have hc := releaseBlock_congr s (hdrAt h 48 9) s.sel.plane
    (f := fun k => { k with genRx := if l.blockGen h != l.genRx && k.rxIdle then l.blockGen h else k.genRx })
    (g := fun k => { k with genRx := l.blockGen h }) fun k _ hki => by simp [hk, hki, hl, hi]
  rw [hc]

theorem integ_of_spoilt (hf : s.sel.flag = false ∨ l.rxGap = true ∨ (l.blockGen h ≠ l.genRx ∧ l.rxIdle = false)) :
    exec .integ s = .next (s.refuseBlock (hdrAt h 48 9) s.sel.plane) := by
  rw [integ_of_up hs hb hl hu hr, if_neg]
  rcases hf with hf | hf | ⟨hk, hi⟩ <;> simp [*]

end

/-- A grant is no answer, so that it never waits at the clock crossing (R403). -/
theorem receive_grant (s : State) : s.receive { kind := .grant, x := s.sel } = (s.modLink (linkKey s.sel.a s.sel.plane) fun l =>
    { l with credits := Map.put s.sel.c (l.credit s.sel.c + s.sel.d) l.credits }).pump s.sel.a s.sel.plane := rfl

theorem receive_linkctl (s : State) : s.receive { kind := .linkctl, x := s.sel } = s.linkctlIn := rfl

/-! ### Link control and the sender's own events (R340, R347, R349, R412) -/

theorem exec_grant {s : State} {h : BitVec 128} (hs : s.sel.hdr = some h) : exec .grant s = .next (s.takeFlit .grant 0 h) := by
  change Host.Outcome.next (s.flitIn .grant) = _
  rw [State.flitIn, hs]

section

variable {s : State} {h : BitVec 128} (hs : s.sel.hdr = some h) (hb : s.belayServes = true)

include hs hb

theorem linkctl_of_up (hu : (s.link (linkKey (hdrAt h 48 9) s.sel.plane)).up = true) :
    exec .linkctl s = .next (s.takeFlit .linkctl 0 h) := by
  change execLinkctl s = _
  simp only [execLinkctl, hs, hb, hu, Bool.not_true, Bool.false_eq_true, if_false, if_true]

theorem linkctl_of_down (hu : (s.link (linkKey (hdrAt h 48 9) s.sel.plane)).up = false) : exec .linkctl s = .next
    { ({ s with sel := selOfFlit s.sel .linkctl 0 h } : State).linkctlIn with sel := s.sel } := by
  change execLinkctl s = _
  simp only [execLinkctl, hs, hb, hu, Bool.not_true, Bool.false_eq_true, if_false]

end

section

variable (s : State)

theorem linkctlIn_attested (hx : s.sel.link = .attested) (hr : s.boot.st = .running) : s.linkctlIn
    = s.modLink (linkKey s.sel.a s.sel.b) fun l => { l with up := true, bad := false, rxBad := false, fails := 0 } := by
  simp only [State.linkctlIn, hx, hr, if_true, State.modLinkOf]

theorem linkctlIn_trigger (hx : s.sel.link = .trigger) : s.linkctlIn = s.trigger := by simp only [State.linkctlIn, hx]

theorem linkctlIn_newKey (hx : s.sel.link = .newKey) : s.linkctlIn
    = s.modLink (linkKey s.sel.a s.sel.b) fun l => if l.up = true then { l with rxNew := true } else l := by
  simp only [State.linkctlIn, hx, State.modLinkOf]

theorem linkctlIn_keyInstalled (hx : s.sel.link = .keyInstalled) : s.linkctlIn
    = s.modLink (linkKey s.sel.a s.sel.b) fun l => if l.up = true ∧ l.rekey = 1 then { l with rekey := 2 } else l := by
  simp only [State.linkctlIn, hx, State.modLinkOf, Bool.and_eq_true, decide_eq_true_eq]

theorem linkctlIn_retry {seq : Nat} (hx : s.sel.link = .retry seq) : s.linkctlIn = s.retry s.sel.a s.sel.b seq := by
  simp only [State.linkctlIn, hx]

theorem sealedBlockClose_of_early (h : (s.link (linkKey s.sel.a s.sel.b)).blk = 0 ∨
    s.rtime < (s.link (linkKey s.sel.a s.sel.b)).blkT + 64) : exec .sealedBlockClose s = .next s := by
  change execSealedBlockClose s = _
  simp only [execSealedBlockClose, Bool.or_eq_true, decide_eq_true_eq, h, if_true]

theorem seal_of_open (w : Wire) {l : Link} (h : l.blk ≠ 0) : l.seal w =
    ({ l with blk := 0, ctr := l.ctr + 1, credits := l.credits.filter fun e => decide (e.1 < 62) },
      [w.bare .integ l.genTx (l.blkAt % 65536) (w.iv l.ctr).toNat]) := if_neg h

theorem sealedBlockClose_of_due (ho : (s.link (linkKey s.sel.a s.sel.b)).blk ≠ 0)
    (ht : (s.link (linkKey s.sel.a s.sel.b)).blkT + 64 ≤ s.rtime) :
    let l := s.link (linkKey s.sel.a s.sel.b)
    let w := s.wire s.sel.a s.sel.b
    exec .sealedBlockClose s = .next (({ s.modLink (linkKey s.sel.a s.sel.b) (fun l =>
        { l with blk := 0, ctr := l.ctr + 1, dark := true, credits := l.credits.filter fun e => decide (e.1 < 62) }) with
      outbox := s.outbox ++ [w.bare .integ l.genTx (l.blkAt % 65536) (w.iv l.ctr).toNat] } : State).pump s.sel.a s.sel.b) := by
  change execSealedBlockClose s = _
  simp only [execSealedBlockClose, seal_of_open _ ho]
  rw [if_neg (by simp [ho, ht])]
  rfl

theorem rekeyStart_of_due (hu : (s.link (linkKey s.sel.a s.sel.b)).up = true) (hk : (s.link (linkKey s.sel.a s.sel.b)).rekey = 0)
    (ht : (s.link (linkKey s.sel.a s.sel.b)).rekeyTill ≤ s.rtime) : exec .rekeyStart s
    = .next ((s.modLink (linkKey s.sel.a s.sel.b) fun l => { l with rekey := 1 }).sendCtl s.sel.a s.sel.b 2 0) := by
  change execRekeyStart s = _
  exact if_pos (by simp [hu, hk, ht])

theorem keyInstall_of_received (hn : (s.link (linkKey s.sel.a s.sel.b)).rxNew = true)
    (hi : (s.link (linkKey s.sel.a s.sel.b)).rxIdle = false) : exec .keyInstall s
    = .next ((s.modLink (linkKey s.sel.a s.sel.b) fun l => { l with rxNew := false, rxIdle := true }).sendCtl s.sel.a s.sel.b 3 0) := by
  change execKeyInstall s = _
  exact if_pos (by simp [hn, hi])

theorem keyInstall_of_confirmed (hn : (s.link (linkKey s.sel.a s.sel.b)).rxNew = false)
    (hk : (s.link (linkKey s.sel.a s.sel.b)).rekey = 2) : exec .keyInstall s
    = .next (s.modLink (linkKey s.sel.a s.sel.b) fun l => { l with rekey := 3, txIdle := true }) := by
  change execKeyInstall s = _
  exact (if_neg (by simp [hn])).trans (if_pos hk)

theorem genFlip_of_installed (hk : (s.link (linkKey s.sel.a s.sel.b)).rekey = 3) (ho : (s.link (linkKey s.sel.a s.sel.b)).blk = 0) :
    exec .genFlip s = .next ((s.modLink (linkKey s.sel.a s.sel.b) fun l =>
      { l with genTx := !l.genTx, ctr := 0, txIdle := false, rekey := 0, rekeyTill := s.rtime + 350 + holdTicks }).pump
        s.sel.a s.sel.b) := by
  change execGenFlip s = _
  exact if_pos (by simp [hk, ho])

theorem oldKeyErase_of_due (hi : (s.link (linkKey s.sel.a s.sel.b)).rxIdle = true)
    (hh : (s.link (linkKey s.sel.a s.sel.b)).heldTill ≠ 0) (ht : (s.link (linkKey s.sel.a s.sel.b)).heldTill ≤ s.rtime) :
    exec .oldKeyErase s
      = .next (s.modLink (linkKey s.sel.a s.sel.b) fun l => { l with rxIdle := false, heldTill := 0 }) := by
  change execOldKeyErase s = _
  exact if_pos (by simp [hi, hh, ht])

end

/-! ### Retries (R348) -/

/-- A header with its generation bit set to `b`. -/
def withGen (b : Bool) (h : BitVec 128) : BitVec 128 := h / 2#128 * 2#128 + (if b then 1 else 0)

theorem withGen_toNat (b : Bool) (h : BitVec 128) : (withGen b h).toNat = h.toNat / 2 * 2 + b.toNat := by
  have hh := h.isLt
  cases b <;> simp [withGen] <;> omega

theorem withGen_getLsbD_zero (b : Bool) (h : BitVec 128) : (withGen b h).getLsbD 0 = b :=
  getLsbD_of_div_mod (by have := Bool.toNat_le b; rw [withGen_toNat]; omega)

theorem withGen_getLsbD_pos (b : Bool) (h : BitVec 128) {i : Nat} (hi : i ≠ 0) : (withGen b h).getLsbD i = h.getLsbD i := by
  obtain ⟨j, rfl⟩ := Nat.exists_eq_succ_of_ne_zero hi
  have hd : (withGen b h).toNat / 2 = h.toNat / 2 := by have := Bool.toNat_le b; rw [withGen_toNat]; omega
  rw [BitVec.getLsbD, BitVec.getLsbD, Nat.succ_eq_add_one, Nat.testBit_succ, Nat.testBit_succ, hd]

/-- Whether a flit with the header `h` was sent at or after a `SEQ` (R348). -/
def Link.sentAfter (l : Link) (seq : Nat) (h : BitVec 128) : Bool :=
  decide ((l.sent + 65536 - hdrAt h 16 16) % 65536 ≤ (l.sent + 65536 - seq) % 65536) && hdrAt h 16 16 ≠ l.sent % 65536

theorem flitsFrom_eq_some {q m : Msg} {l : Link} {seq : Nat} : q.flitsFrom l seq = some m ↔
    (q.hdrs.filter (l.sentAfter seq) ≠ [] ∧ l.sent ≤ q.last + (l.sent + 65536 - seq) % 65536) ∧
      m = { q with hdrs := (q.hdrs.filter (l.sentAfter seq)).map (withGen l.genTx) } := by
  change (if (q.hdrs.filter (l.sentAfter seq)).isEmpty || decide (q.last + (l.sent + 65536 - seq) % 65536 < l.sent) then none
    else some { q with hdrs := (q.hdrs.filter (l.sentAfter seq)).map (withGen l.genTx) }) = some m ↔ _
  split
  next h =>
    simp only [Bool.or_eq_true, List.isEmpty_iff, decide_eq_true_eq] at h
    simp only [reduceCtorEq, false_iff, not_and]
    rintro ⟨hn, hl⟩
    exact absurd h (by simp [hn, hl])
  next h =>
    simp only [Bool.or_eq_true, List.isEmpty_iff, decide_eq_true_eq, not_or, Nat.not_lt] at h
    simp only [Option.some.injEq, ne_eq, h, not_false_eq_true, and_self, true_and, eq_comm]

/-- What a link may be asked for again: messages on its queue and messages in the outbox that it has sent. -/
def State.resendable (s : State) (p q : Nat) (m : Msg) : Prop :=
  m ∈ (s.link (linkKey p q)).txq ∨ (m ∈ s.outbox ∧ m.dest = p ∧ m.plane = q ∧ m.kind ≠ .preamble ∧ m.kind ≠ .integ)

theorem mem_sentFrom {s : State} {p q seq : Nat} {m : Msg} : m ∈ s.sentFrom p q seq ↔
    ∃ x, s.resendable p q x ∧ x.flitsFrom (s.link (linkKey p q)) seq = some m := by
  simp only [State.sentFrom, List.mem_eraseDups, List.mem_filterMap, List.mem_append, List.mem_filter, Bool.and_eq_true,
    decide_eq_true_eq, ne_eq, State.resendable, and_assoc, or_comm]

/-- A flit that a retry request from `seq` asks for: the message that it belongs to, and its header. -/
def State.due (s : State) (p q seq : Nat) (m : Msg) (h : BitVec 128) : Prop :=
  let l := s.link (linkKey p q)
  let back := (l.sent + 65536 - seq) % 65536
  s.resendable p q m ∧ h ∈ m.hdrs ∧ (l.sent + 65536 - hdrAt h 16 16) % 65536 ≤ back ∧ hdrAt h 16 16 ≠ l.sent % 65536 ∧
    l.sent ≤ m.last + back

/-- The same flit, under a generation. -/
def sameFlit (gen : Bool) (a b : BitVec 128) : Prop := a.getLsbD 0 = gen ∧ ∀ i, i ≠ 0 → a.getLsbD i = b.getLsbD i

theorem sameFlit_withGen (gen : Bool) (h : BitVec 128) : sameFlit gen (withGen gen h) h :=
  ⟨withGen_getLsbD_zero gen h, fun _ hi => withGen_getLsbD_pos gen h hi⟩

theorem due_iff {s : State} {p q seq : Nat} {m : Msg} {h : BitVec 128} : s.due p q seq m h ↔ s.resendable p q m ∧
    h ∈ m.hdrs.filter ((s.link (linkKey p q)).sentAfter seq) ∧
      (s.link (linkKey p q)).sent ≤ m.last + ((s.link (linkKey p q)).sent + 65536 - seq) % 65536 := by
  simp only [State.due, Link.sentAfter, List.mem_filter, Bool.and_eq_true, decide_eq_true_eq, and_assoc]

/-- What a retry sends is due. -/
theorem due_of_mem_sentFrom {s : State} {p q seq : Nat} {m : Msg} (hm : m ∈ s.sentFrom p q seq) :
    ∃ x, m = { x with hdrs := m.hdrs } ∧
      ∀ a ∈ m.hdrs, ∃ b, s.due p q seq x b ∧ sameFlit (s.link (linkKey p q)).genTx a b := by
  obtain ⟨x, hx, hf⟩ := mem_sentFrom.mp hm
  obtain ⟨⟨-, hlast⟩, rfl⟩ := flitsFrom_eq_some.mp hf
  refine ⟨x, rfl, fun a ha => ?_⟩
  obtain ⟨b, hb, rfl⟩ := List.mem_map.mp ha
  exact ⟨b, due_iff.mpr ⟨hx, hb, hlast⟩, sameFlit_withGen _ b⟩

/-- What is due, a retry sends. -/
theorem mem_sentFrom_of_due {s : State} {p q seq : Nat} {x : Msg} {b : BitVec 128} (hd : s.due p q seq x b) :
    ∃ m ∈ s.sentFrom p q seq, m = { x with hdrs := m.hdrs } ∧ ∃ a ∈ m.hdrs, sameFlit (s.link (linkKey p q)).genTx a b := by
  obtain ⟨hx, hb, hlast⟩ := due_iff.mp hd
  exact ⟨_, mem_sentFrom.mpr ⟨x, hx, flitsFrom_eq_some.mpr ⟨⟨List.ne_nil_of_mem hb, hlast⟩, rfl⟩⟩, rfl,
    _, List.mem_map_of_mem hb, sameFlit_withGen _ b⟩

/-- How many retry requests for one `SEQ` have come in a row, with one for `seq`. -/
def Link.retryCount (l : Link) (seq : Nat) : Nat := if l.retries ≠ 0 && l.retrySeq = seq then l.retries + 1 else 1

/-- The INTEG flits that a retry sends. -/
def State.retrySeals (s : State) (p q seq : Nat) : List Msg :=
  (s.wire p q).seals (s.link (linkKey p q)).genTx seq (s.link (linkKey p q)).ctr
    (((s.sentFrom p q seq).map fun m => m.hdrs.length).sum)

theorem retrySeals_length (s : State) (p q seq : Nat) :
    (s.retrySeals p q seq).length = ceilDiv ((s.sentFrom p q seq).map fun m => m.hdrs.length).sum 16 := by
  simp [State.retrySeals, Wire.seals]

theorem retrySeals_kind {s : State} {p q seq : Nat} {m : Msg} (hm : m ∈ s.retrySeals p q seq) : m.kind = .integ := by
  obtain ⟨i, -, rfl⟩ := List.mem_map.mp hm
  rfl

/-- A retry request that is no fourth in a row sends what is due again, sealed under fresh counters. -/
theorem retry_of_few (s : State) (p q seq : Nat) (hk : (s.link (linkKey p q)).retryCount seq < 4) : s.retry p q seq =
    { s.modLink (linkKey p q) (fun l => { l with
        ctr := l.ctr + (s.retrySeals p q seq).length, blk := 0, dark := true
        retries := (s.link (linkKey p q)).retryCount seq, retrySeq := seq }) with
      outbox := s.outbox ++ (s.wire p q).bare .preamble (s.link (linkKey p q)).genTx 0 0 :: s.sentFrom p q seq ++
        s.retrySeals p q seq } := by
  have hn : (s.sentFrom p q seq).foldl (fun n m => n + m.hdrs.length) 0 = ((s.sentFrom p q seq).map fun m => m.hdrs.length).sum := by
    rw [List.sum_eq_foldl, List.foldl_map]
  rw [retrySeals_length, State.retrySeals, ← hn]
  exact if_neg (Nat.not_le.mpr hk)

theorem link_retry_of_few (s : State) (p q seq : Nat) (hk : (s.link (linkKey p q)).retryCount seq < 4) :
    (s.retry p q seq).link (linkKey p q) = { s.link (linkKey p q) with
      ctr := (s.link (linkKey p q)).ctr + (s.retrySeals p q seq).length, blk := 0, dark := true
      retries := (s.link (linkKey p q)).retryCount seq, retrySeq := seq } := by
  rw [retry_of_few s p q seq hk]
  exact Map.get_put ..

/-- The fourth in a row fails the link. -/
theorem retry_bad_of_many (s : State) (p q seq : Nat) (hk : 4 ≤ (s.link (linkKey p q)).retryCount seq) :
    ((s.retry p q seq).link (linkKey p q)).bad = true := by
  rw [State.retry]
  refine (congrArg (fun t : State => (t.link (linkKey p q)).bad) (if_pos hk)).trans ?_
  rw [link_resend_bad, State.unqueue, link_modLink, link_modLink]

theorem retryCount_lt {l : Link} {seq : Nat} (h : l.retries = 0 ∨ l.retrySeq ≠ seq ∨ l.retries < 3) : l.retryCount seq < 4 := by
  unfold Link.retryCount
  split
  next hc => simp only [ne_eq, Bool.and_eq_true, decide_eq_true_eq] at hc; omega
  next => omega

theorem le_retryCount {l : Link} {seq : Nat} (hs : l.retrySeq = seq) (hr : 3 ≤ l.retries) : 4 ≤ l.retryCount seq := by
  rw [Link.retryCount, if_pos (by simp [hs]; omega)]
  omega

/-! ### Planes that come and go (R341) -/

/-- A message that has not begun to leave and may choose its plane anew. -/
def Msg.idle (m : Msg) : Bool := m.moves && m.hdrs.isEmpty

/-- The links without their idle messages. -/
def State.withoutIdle (s : State) : State :=
  { s with links := Map.modAll (fun _ l => { l with txq := l.txq.filter fun m => !m.idle }) s.links }

theorem rechoose_eq (s : State) (change : State → State) :
    s.rechoose change = (change s.withoutIdle).resend (s.links.flatMap fun e => e.2.txq.filter Msg.idle) := rfl

theorem withoutIdle_keys (s : State) : s.withoutIdle.links.map Prod.fst = s.links.map Prod.fst := by
  simp [State.withoutIdle, Map.modAll]

theorem resend_planesOff (s : State) (ms : List Msg) : (s.resend ms).planesOff = s.planesOff := by
  rw [resend_frame]

/-- The queues of the listed links are emptied. -/
def State.unqueueAll (s : State) (es : Map Link) : State := es.foldl (fun t e => t.unqueue e.1) s

theorem unqueueAll_planesOff (s : State) (es : Map Link) : (s.unqueueAll es).planesOff = s.planesOff := by
  unfold State.unqueueAll
  induction es generalizing s with
  | nil => rfl
  | cons e es ih => exact ih _

theorem unqueueAll_txq (s : State) (es : Map Link) (k : Nat) (h : k ∈ es.map Prod.fst ∨ (s.link k).txq = []) :
    ((s.unqueueAll es).link k).txq = [] := by
  unfold State.unqueueAll
  induction es generalizing s with
  | nil => simpa using h
  | cons e es ih =>
    refine ih (s.unqueue e.1) ?_
    by_cases hk : k = e.1
    · subst hk; right; rw [State.unqueue, link_modLink]
    · rw [State.unqueue, link_modLink_ne _ _ _ hk]
      simpa [hk] using h

/-- The links of a plane. -/
def State.linksOn (s : State) (p : Nat) : Map Link := s.links.filter fun e => e.1 % 8 = p

theorem mem_linksOn {s : State} {p : Nat} (hp : p < 8) (peer : Nat) (h : linkKey peer p ∈ s.links.map Prod.fst) :
    linkKey peer p ∈ (s.linksOn p).map Prod.fst := by
  obtain ⟨e, he, hk⟩ := List.mem_map.mp h
  exact List.mem_map.mpr ⟨e, List.mem_filter.mpr ⟨he, by rw [hk, linkKey_mod peer hp]; simp⟩, hk⟩

/-- The state in which what a lost plane `p` had not delivered is sent again. -/
def State.withoutPlane (s : State) (p : Nat) : State :=
  ({ s.withoutIdle with planesOff := p :: s.planesOff } : State).unqueueAll (s.linksOn p)

theorem withoutPlane_planesOff (s : State) (p : Nat) : (s.withoutPlane p).planesOff = p :: s.planesOff :=
  unqueueAll_planesOff ..

theorem withoutPlane_txq (s : State) {p : Nat} (hp : p < 8) (peer : Nat) :
    ((s.withoutPlane p).link (linkKey peer p)).txq = [] := by
  refine unqueueAll_txq _ _ _ ?_
  by_cases hk : linkKey peer p ∈ s.links.map Prod.fst
  · exact .inl (mem_linksOn hp peer hk)
  · right
    rw [link_of_not_mem _ _ (by rw [withoutIdle_keys]; exact hk)]

theorem planeLoss_resends (s : State) (ha : s.sel.a < 8) (hoff : s.sel.a ∉ s.planesOff) :
    ∃ lost idle, exec .planeLoss s = .next (((s.withoutPlane s.sel.a).resend lost).resend idle) := by
  exact ⟨_, _, (if_neg (by simp [ha, hoff]) : execPlaneLoss s = _)⟩

/-- After the loss of a plane it is off, and nothing waits on its links. -/
theorem planeLoss_clears (s : State) (ha : s.sel.a < 8) (hoff : s.sel.a ∉ s.planesOff) : ∃ t, exec .planeLoss s = .next t ∧
    t.planesOff = s.sel.a :: s.planesOff ∧ ∀ peer, (t.link (linkKey peer s.sel.a)).txq = [] := by
  obtain ⟨lost, idle, he⟩ := planeLoss_resends s ha hoff
  have hp : ∀ ms, ((s.withoutPlane s.sel.a).resend ms).planesOff = s.sel.a :: s.planesOff := fun ms => by
    rw [resend_planesOff, withoutPlane_planesOff]
  refine ⟨_, he, by rw [resend_planesOff, hp], fun peer => ?_⟩
  rw [link_resend_of_lost _ _ ha (by rw [hp]; exact List.mem_cons_self),
    link_resend_of_lost _ _ ha (by rw [withoutPlane_planesOff]; exact List.mem_cons_self), withoutPlane_txq s ha]

/-- A plane that comes online is off no more, and only links and the outbox change besides. -/
theorem planeOnline_clears (s : State) : ∃ t, exec .planeOnline s = .next t ∧ s.sel.a ∉ t.planesOff ∧
    t = { s with planesOff := t.planesOff, links := t.links, outbox := t.outbox } := by
  refine ⟨_, rfl, ?_, ?_⟩ <;> rw [rechoose_eq]
  · rw [resend_planesOff]; simp
  · rw [resend_frame]; rfl

/-! ### What flits, INTEG, grants, link control, keys and plane losses do to a link -/

/-- Settles O35, from the rules of links: each event and each flit by the lemma about it. That a retry sends the flits from its `SEQ` on,
under the sender's present generation, is the reading of log entry 53. -/
theorem linkEvents : Obligations.LinkEvents := by
  unfold Obligations.LinkEvents
  intro key lk wire mod
  refine ⟨fun s => rfl, fun s h hs => exec_grant hs, fun s k code h => takeFlit_of_no_belay s k code h,
    fun s p q c a => sendCtl_of_no_belay s p q c a, ?flit, fun m own gen seq k => header_fields m own seq k gen, ?integ, ?free,
    sealedBlockClose_of_early, sealedBlockClose_of_due, receive_grant,
    fun s h hs hb => ⟨linkctl_of_up hs hb, linkctl_of_down hs hb⟩, receive_linkctl, ?control, rekeyStart_of_due,
    keyInstall_of_received, keyInstall_of_confirmed, genFlip_of_installed, oldKeyErase_of_due, planeLoss_clears, planeOnline_clears⟩
  case flit =>
    intro s k code h hb p l x ch last seen n t m good
    refine ⟨takeFlit_frame s k code h, fun hd => ?_, fun hu hr => ?_⟩
    · have ht : t = _ := takeFlit_of_down s k code h hb hd
      simp only [m, ht, link_modLink, l, p]
    · have hm : m = l.join s.rtime (s.accepts k h n) x k code h := link_takeFlit_of_up s k code h hb rfl hu hr
      have hgood : s.accepts k h n = true ↔ good := accepts_iff
      rw [hm]
      refine ⟨rfl, rfl, fun hg => ?_, fun hg => ?_, join_rxPart_of_last l _ _ x k code h, fun hl hg => ?_, fun hl hg => ?_,
        join_heldTill l _ _ x k code h, join_rxGap_of_next l _ _ x k code h, join_rxGap_of_gap l _ _ x k code h⟩
      · rw [hgood.mpr hg]
        exact ⟨join_rxBlock_of_fine l _ x k code h, rfl⟩
      · rw [Bool.eq_false_iff.mpr (mt hgood.mp hg)]
        exact ⟨rfl, rfl⟩
      · rw [hgood.mpr hg]
        exact join_rxPart_of_more_fine l _ x k code h hl
      · rw [Bool.eq_false_iff.mpr (mt hgood.mp hg)]
        exact join_rxPart_of_more_error l _ x k code h hl
  case integ =>
    intro s h hs hb p q l gen release hu hr
    exact ⟨integ_of_same_key hs hb rfl hu hr, integ_of_new_key hs hb rfl hu hr, integ_of_spoilt hs hb rfl hu hr⟩
  case free =>
    intro s p q m h hm ch
    exact ⟨giveBack_of_link_channel s p q m h hm, fun hc => ⟨_, Nat.min_le_left .., giveBack_of_channel s p q m h hm hc⟩⟩
  case control =>
    intro s t
    refine ⟨linkctlIn_attested s, linkctlIn_trigger s, linkctlIn_newKey s, linkctlIn_keyInstalled s, fun seq hx hk => ?_,
      fun seq hx hs hr => ?_⟩
    · have ht : t = s.retry s.sel.a s.sel.b seq := linkctlIn_retry s hx
      have hlink := link_retry_of_few s s.sel.a s.sel.b seq (retryCount_lt hk)
      have hout := congrArg State.outbox (retry_of_few s s.sel.a s.sel.b seq (retryCount_lt hk))
      rw [ht]
      exact ⟨s.sentFrom s.sel.a s.sel.b seq, s.retrySeals s.sel.a s.sel.b seq, hout, fun m => due_of_mem_sentFrom,
        fun x b => mem_sentFrom_of_due, fun m => retrySeals_kind, retrySeals_length s _ _ seq, congrArg Link.ctr hlink,
        congrArg Link.blk hlink⟩
    · have ht : t = s.retry s.sel.a s.sel.b seq := linkctlIn_retry s hx
      rw [ht]
      exact retry_bad_of_many s _ _ seq (le_retryCount hs hr)

end Sys2Proof.Machine
end

section
/-!
Proofs. Bins and steals: what the timers, the spill areas, the messages of a steal and the resets of cores do to bins and lends
(R281 to R283).
-/

namespace Sys2Proof.Machine

/-! ### Reading maps and cores after an update -/

@[simp] theorem Map.get?_modAll {β : Type} (f : Nat → β → β) (m : Map β) (k : Nat) :
    Map.get? (Map.modAll f m) k = (Map.get? m k).map (f k) := by
  induction m with
  | nil => rfl
  | cons e m ih =>
    simp only [Map.modAll, List.map_cons, Map.get?_cons] at *
    by_cases h : e.1 = k <;> simp [h, ih]

@[simp] theorem core_modCore (s : State) (k : Nat) (f : Core → Core) : (s.modCore k f).core k = f (s.core k) :=
  Map.get_put k _ _ _

@[simp] theorem core_modLend (s : State) (k c : Nat) (f : Lend → Lend) : (s.modLend k f).core c = s.core c := rfl

theorem get?_modLend {s : State} {k : Nat} {l : Lend} (f : Lend → Lend) (hl : Map.get? s.lends k = some l) :
    Map.get? (s.modLend k f).lends k = some (f l) := by
  rw [State.modLend, Map.get?_mod, hl, Option.map_some]

/-! ### Acceptance, launches and refilling (R10, R282) -/

theorem acceptSpawn_of_accepted {s t : State} {id : Nat} {o : Op} {core node : Nat} {ws : List Word} (ho : s.op? id = some o)
    (hk : o.kind = .spawn core node ws) (hw : o.st = .waiting) (hh : o.held = false) (hr : s.copyReady id o = true)
    (ht : s.binAccept core o.ctx node ws = some t) :
    s.acceptSpawn id = (t.escape id ⟨.spawn, ws.length, core⟩).settleFlags id .ok := by
  simp only [State.acceptSpawn, ho, hk]
  rw [if_neg (by simp [hw, hh, hr]), ht]

theorem spillWaitEnd_serves {s : State} (hf : s.sel.flag = false) (hb : s.sel.b = 1) :
    exec .spillWaitEnd s = .next s.serveAgain :=
  ((if_neg (by simp [hf]) : execSpillWaitEnd s = _)).trans (if_pos hb)

theorem spillWaitEnd_accepts {s : State} (hf : s.sel.flag = false) (hb : s.sel.b ≠ 1) :
    exec .spillWaitEnd s = .next (s.acceptSpawn s.sel.a) :=
  ((if_neg (by simp [hf]) : execSpillWaitEnd s = _)).trans (if_neg hb)

theorem binTimerExpiry_of_done {s : State} {n : Node} (hn : s.node? s.sel.b s.sel.c = some n)
    (hd : s.timerDone s.sel.a s.sel.b s.sel.c n = true) :
    exec .binTimerExpiry s = .next (s.binLaunch s.sel.a s.sel.b s.sel.c) := by
  change execBinTimerExpiry s = _
  simp only [execBinTimerExpiry, hn, if_pos hd]

/-- On a core that serves, and where the banks of the records that would be taken are clocked, a node's team is launched when its
coalescing count is reached or its timer has expired. -/
theorem binLaunch_of_clocked {s : State} {core ctx node : Nat} {n : Node} {t : NodeTable} (hn : s.node? ctx node = some n)
    (ht : s.table? ctx = some t) (hh : (s.die (pairOf core)).halted = false) (hd : s.dieServes (pairOf core) = true)
    (hc : ∀ x ∈ (s.counted core ctx node).take n.nco, ∀ h, x.2.2 = some h → s.spillClocked t h.slot = true) :
    s.binLaunch core ctx node = if n.nco ≤ (s.counted core ctx node).length ∨ s.timerDone core ctx node n = true then
      s.launchNode core ctx n t ((s.counted core ctx node).take n.nco) else s := by
  have hstopped : ((s.counted core ctx node).take n.nco).any (fun x => x.2.2.any fun h => !s.spillClocked t h.slot) = false := by
    rw [List.any_eq_false]
    intro x hx
    cases hs : x.2.2 with
    | none => simp
    | some h => simp [hc x hx h hs]
  simp only [State.binLaunch, hn, ht]
  rw [if_neg (by simp [hh, hd]), if_neg (by simp [hstopped])]
  simp only [Bool.or_eq_true, decide_eq_true_eq]

/-- A refilled record stands last in the bin, unlent, with its words and its acceptance number. -/
theorem spillRefill_appends {s t : State} {h : Spilled} {ws : List Word} (hr : s.refillable s.sel.a s.sel.b = some h)
    (hu : s.unspill s.sel.b h = some (t, ws)) : exec .spillRefill s = .next (t.modCore s.sel.a fun c =>
      { c with bin := c.bin ++ [⟨s.sel.b, h.node, h.acc, Map.get c.spillBorn h.acc 0, ws, .unlent, 0⟩]
               spillBorn := Map.del h.acc c.spillBorn }) := by
  change execSpillRefill s = _
  simp only [execSpillRefill, hr, hu]

/-! ### The victim answers a steal (R142, R283) -/

section

variable {s : State} {g : Group} {lanes : List Nat} {d : Opnd} {v at_ : Nat} (hg : s.group? s.sel.a = some g)
  (hs : g.stealing = some (lanes, d, v, at_))
include hg hs

theorem stealRequest_of_nothing (hv : s.stealable v g.ctx = []) :
    exec .stealRequest s = .next (s.stealAnswer s.sel.a lanes d 0) := by
  change execStealRequest s = _
  simp only [execStealRequest, hg, hs, hv]

/-- The only record of the victim's bin is lent, where the coalescing count of its node allows one. -/
theorem stealRequest_of_one {r : Rec} (hv : s.stealable v g.ctx = [r]) (hc : s.counted v g.ctx r.node = [(r.acc, r.born, none)])
    (hb : (s.core v).bin = [r]) (hn : 0 < (s.node? g.ctx r.node).elim 0 Node.nco) : exec .stealRequest s =
      .next ((s.lendRec v g.core r).stealAnswer s.sel.a lanes d (BitVec.ofNat 32 (r.node * 2 ^ 16 + 1))) := by
  have htake : [r].take ((s.node? g.ctx r.node).elim 0 Node.nco) = [r] := List.take_of_length_le hn
  change execStealRequest s = _
  simp only [execStealRequest, hg, hs, hv, hc, hb, List.foldl_nil, List.filterMap_cons, List.filterMap_nil, List.find?_cons,
    Option.isNone_none, decide_true, Bool.and_self, htake, List.foldl_cons, List.length_singleton]

theorem stealAnswerTimeout_of_late (ha : at_ + 2000 ≤ s.rtime) :
    exec .stealAnswerTimeout s = .next (s.stealAnswer s.sel.a lanes d 0) := by
  change execStealAnswerTimeout s = _
  simp only [execStealAnswerTimeout, hg, Option.bind_some, hs, if_pos ha]

end

/-! ### The messages of a lend (R283) -/

section

variable {s : State} {l : Lend} (hl : Map.get? s.lends s.sel.a = some l)
include hl

theorem stealCopyArrival_of_flying (hf : l.st = .flying) : exec .stealCopyArrival s = .next (s.modLend s.sel.a fun x =>
    if s.binRoom l.thief l.r.ctx l.r.node then { x with st := .pending, ackSent := true } else { x with st := .none }) := by
  change execStealCopyArrival s = _
  simp only [execStealCopyArrival, hl]
  rw [if_neg (by simp [hf])]
  split <;> rfl

theorem stealAck_of_lent (ha : l.ackSent = true) (hc : l.confirm = none) (hg : l.guided = false) (hn : s.lentNow l = true) :
    exec .stealAck s = .next ((s.modCore l.victim fun c => { c with bin := c.bin.filter fun r => decide (r.acc ≠ l.acc) }).modLend
      s.sel.a fun x => { x with confirm := some true }) := by
  change execStealAck s = _
  simp only [execStealAck, hl]
  rw [if_neg (by simp [ha, hc]), if_neg (by simp [hg]), if_pos hn]

theorem stealAck_of_not_lent (ha : l.ackSent = true) (hc : l.confirm = none) (hg : l.guided = false) (hn : s.lentNow l = false) :
    exec .stealAck s = .next (s.modLend s.sel.a fun x => { x with confirm := some false }) := by
  change execStealAck s = _
  simp only [execStealAck, hl]
  rw [if_neg (by simp [ha, hc]), if_neg (by simp [hg]), if_neg (by simp [hn])]

theorem stealConfirm_of_pending (hc : l.confirm = some true) (hp : l.st = .pending) : exec .stealConfirm s =
    .next ((({ s with lends := Map.del s.sel.a s.lends } : State).modCore l.thief fun c =>
      { c with accCtr := c.accCtr + 1
               bin := c.bin ++ [⟨l.r.ctx, l.r.node, (s.core l.thief).accCtr, s.ctxNow l.r.ctx, l.r.words, .unlent, 0⟩] }).binLaunch
      l.thief l.r.ctx l.r.node) := by
  change execStealConfirm s = _
  simp only [execStealConfirm, hl]
  rw [if_neg (by simp [hc]), if_neg (by simp [hp])]
  rfl

theorem stealRefusal_of_refused (hc : l.confirm = some false) :
    exec .stealRefusal s = .next { s with lends := Map.del s.sel.a s.lends } := by
  change execStealRefusal s = _
  simp only [execStealRefusal, hl, if_pos hc]

/-- A lend whose acknowledgement was sent stays listed when it times out; the victim's record is unlent under a new generation. -/
theorem lendTimeout_of_late {r : Rec} {th at_ : Nat} (ha : l.ackSent = true)
    (hr : (s.core l.victim).bin.find? (fun x => x.acc = l.acc && x.gen = l.gen) = some r) (hlent : r.lend = .lent th at_)
    (hlate : at_ + 20000 ≤ s.ctxNow r.ctx) : exec .lendTimeout s = .next ((s.modCore l.victim fun c =>
      { c with bin := c.bin.map fun x => if x.acc = l.acc then { x with gen := x.gen + 1, lend := .unlent } else x }).binLaunch
        l.victim r.ctx r.node) := by
  change execLendTimeout s = _
  simp only [execLendTimeout, hl, hr, hlent]
  rw [if_neg (Nat.not_lt.mpr hlate), if_neg (by simp [ha])]

end

/-- The acknowledgement is answered by whether the record is still lent, and takes the record out of the victim's bin if it is. -/
theorem stealAck_answers {s : State} {l : Lend} (hl : Map.get? s.lends s.sel.a = some l) (ha : l.ackSent = true)
    (hc : l.confirm = none) (hg : l.guided = false) : ∃ t, exec .stealAck s = .next t ∧
      Map.get? t.lends s.sel.a = some { l with confirm := some (s.lentNow l) } ∧
      ∀ r, r ∈ (t.core l.victim).bin ↔ r ∈ (s.core l.victim).bin ∧ (s.lentNow l = true → r.acc ≠ l.acc) := by
  cases hn : s.lentNow l with
  | true =>
    refine ⟨_, stealAck_of_lent hl ha hc hg hn, get?_modLend _ hl, fun r => ?_⟩
    rw [core_modLend, core_modCore]
    simp
  | false =>
    refine ⟨_, stealAck_of_not_lent hl ha hc hg hn, get?_modLend _ hl, fun r => ?_⟩
    rw [core_modLend]
    simp

/-! ### Cores that are reset (R283) -/

/-- The reset of a thief's core changes the thief's half of its lends, and nothing else. -/
theorem thiefCoreReset_drops (s : State) : ∃ t, exec .thiefCoreReset s = .next t ∧ t = { s with lends := t.lends } ∧
    ∀ k, Map.get? t.lends k =
      (Map.get? s.lends k).map fun l => if l.thief = s.sel.a then { l with st := .none } else l := by
  refine ⟨_, rfl, rfl, fun k => ?_⟩
  rw [Map.get?_modAll]

/-- The guide core takes the lend table of a core: the lends whose records it still holds are guided. -/
def State.guideLends (s : State) (core : Nat) : State :=
  { s with lends := Map.modAll (fun _ l => if l.victim = core && s.lentNow l then { l with guided := true } else l) s.lends }

/-- The reset of a victim's core that holds no unlent record spills nothing and leaves its bin empty. -/
theorem victimCoreReset_of_all_lent {s : State} (h : (s.core s.sel.a).bin.filter (fun r => r.lend = .unlent) = []) :
    exec .victimCoreReset s = .next ((s.guideLends s.sel.a).modCore s.sel.a fun c =>
      { c with bin := c.bin.filter fun r => r.lend = .unlent }) := by
  change execVictimCoreReset s = _
  have hbin : (((s.guideLends s.sel.a).modCore s.sel.a fun c => { c with bin := c.bin.filter fun r => r.lend = .unlent }).core
      s.sel.a).bin = [] := by
    rw [core_modCore]; exact h
  exact congrArg Host.Outcome.next (congrArg (List.foldl _ _) hbin)

theorem victimCoreReset_clears {s : State} (h : (s.core s.sel.a).bin.filter (fun r => r.lend = .unlent) = []) :
    ∃ t, exec .victimCoreReset s = .next t ∧ (t.core s.sel.a).bin = [] ∧ t.mem = s.mem ∧
      ∀ k l, Map.get? s.lends k = some l → Map.get? t.lends k =
        some (if l.victim = s.sel.a ∧ s.lentNow l = true then { l with guided := true } else l) := by
  refine ⟨_, victimCoreReset_of_all_lent h, ?_, rfl, fun k l hl => ?_⟩
  · rw [core_modCore]; exact h
  · rw [modCore_lends, State.guideLends, Map.get?_modAll, hl]
    simp

/-! ### What timers, spill areas, steals and core resets do to bins and lends -/

/-- Settles O41: each event of bins and steals by the lemma about it. Which records a steal takes is the reading of log entry 42. -/
theorem binEvents : Obligations.BinEvents := by
  unfold Obligations.BinEvents
  refine ⟨fun s => spillWaitEnd_serves, ?accept, fun s n => binTimerExpiry_of_done, ?launch, ?refill,
    fun s g lanes d v at_ => stealRequest_of_nothing, fun s g lanes d v at_ r hg hs => stealRequest_of_one hg hs,
    fun s g lanes d v at_ => stealAnswerTimeout_of_late, ?arrive, fun s l => stealAck_answers, fun s l => stealConfirm_of_pending,
    fun s l => stealRefusal_of_refused, fun s l r th at_ hl => lendTimeout_of_late hl, thiefCoreReset_drops, ?victim, ?victimLent⟩
  case accept =>
    intro s t o core node ws hf hb ho hk hw hh hr ht
    rw [spillWaitEnd_accepts hf hb, acceptSpawn_of_accepted ho hk hw hh hr ht]
  case launch =>
    intro s n t hn ht hh hd xs hc
    exact congrArg Host.Outcome.next (binLaunch_of_clocked hn ht hh hd hc)
  case refill =>
    intro s h t ws hr hu
    exact ⟨_, spillRefill_appends hr hu, _, by rw [core_modCore], rfl, rfl, rfl, rfl, rfl⟩
  case arrive =>
    intro s l hl hf
    exact ⟨_, stealCopyArrival_of_flying hl hf, get?_modLend _ hl, rfl⟩
  case victim =>
    intro s hb
    obtain ⟨t, he, hbin, hmem, -⟩ := victimCoreReset_clears (s := s) (by rw [hb]; rfl)
    exact ⟨t, he, hbin, hmem⟩
  case victimLent =>
    intro s r hb hr
    exact victimCoreReset_clears (by simp [hb, hr])

end Sys2Proof.Machine
end

section
/-!
Proofs. Slots that run lane by lane: what the frames of an instruction come to where every executing lane goes on, and what the
mapping of names leaves of a group.
-/

namespace Sys2Proof.Machine

/-! ### Reading the state after an update -/

theorem core_modCore_ne {k j : Nat} (n : j ≠ k) (s : State) (f : Core → Core) : (s.modCore k f).core j = s.core j :=
  Map.get_put_ne n _ _ _

@[simp] theorem thread?_modThread (g : Group) (l : Nat) (f : Thread → Thread) :
    (g.modThread l f).thread? l = (g.thread? l).map f := Map.get?_mod l f g.threads

theorem thread?_modThread_ne {l k : Nat} (n : k ≠ l) (g : Group) (f : Thread → Thread) :
    (g.modThread l f).thread? k = g.thread? k := Map.get?_mod_ne n f g.threads

theorem thread_eq_of_thread? {g : Group} {l : Nat} {x : Thread} (h : g.thread? l = some x) : g.thread l = x := by
  change Map.get? g.threads l = some x at h
  simp [Group.thread, Map.get, h]

theorem state_thread_eq {s : State} {gid : Nat} {g : Group} (h : s.group? gid = some g) (l : Nat) : s.thread gid l = g.thread l := by
  simp [State.thread, h]

theorem Map.put_put {β : Type} (k : Nat) (v w : β) (m : Map β) : Map.put k v (Map.put k w m) = Map.put k v m := by
  have hlt : ∀ e : Nat × β, (decide (e.1 < k) && decide (k < e.1)) = false := fun e => by simp; omega
  have hgt : ∀ e : Nat × β, (decide (k < e.1) && decide (e.1 < k)) = false := fun e => by simp; omega
  simp [Map.put, List.filter_append, List.filter_filter, hlt, hgt]

/-- An update of a core that has been made already. -/
theorem modCore_modCore_self (s : State) (k : Nat) {f : Core → Core} (hf : ∀ c, f (f c) = f c) :
    (s.modCore k f).modCore k f = s.modCore k f := by
  simp only [State.modCore, State.core, Map.get_put, hf, Map.put_put]

theorem acquire_acquire (s : State) (k : Nat) (sc : Scope) : (s.acquire k sc).acquire k sc = s.acquire k sc := by
  unfold State.acquire
  split
  · exact modCore_modCore_self s k fun _ => rfl
  · rfl

@[simp] theorem group?_acquire (s : State) (k gid : Nat) (sc : Scope) : (s.acquire k sc).group? gid = s.group? gid := by
  unfold State.acquire; split <;> rfl

/-! ### The core on which a group stands -/

/-- The core of a group, where the group is listed. -/
def State.coreOf (s : State) (gid : Nat) : Option Nat := (s.group? gid).map Group.core

/-- An update of a group that keeps its core keeps the core of every group. -/
theorem coreOf_modGroup (s : State) (gid k : Nat) {f : Group → Group} (hf : ∀ g, (f g).core = g.core) :
    (s.modGroup gid f).coreOf k = s.coreOf k := by
  unfold State.coreOf
  by_cases h : k = gid
  · subst h
    rw [group?_modGroup, Option.map_map]
    exact congrArg (Option.map · _) (funext hf)
  · rw [group?_modGroup_ne h]

theorem coreOf_modThread (s : State) (gid l k : Nat) (f : Thread → Thread) : (s.modThread gid l f).coreOf k = s.coreOf k :=
  coreOf_modGroup s gid k fun _ => rfl

theorem coreOf_dst32 (s : State) (gid l k : Nat) (o : Opnd) (w : Word) : (s.dst32 gid l o w).coreOf k = s.coreOf k := by
  rw [dst32_eq]
  exact coreOf_modGroup s gid k fun g => by cases o <;> rfl

/-- A fold whose steps keep a value keeps it. -/
theorem foldl_keeps {α β γ : Type} (q : α → γ) {f : α → β → α} (hf : ∀ a b, q (f a b) = q a) (ls : List β) (a : α) :
    q (ls.foldl f a) = q a := by
  induction ls generalizing a with
  | nil => rfl
  | cons b ls ih => rw [List.foldl_cons, ih, hf]

/-! ### What drawing blocks leaves of a group -/

/-- A group without what it holds of register blocks. -/
def Group.unblocked (g : Group) : Group := { g with pool := 0, resv := 0, mapped := [], inBlock := [], gen := 0 }

/-- The groups of a state, each without its register blocks. -/
def State.entries (s : State) : Map Group := s.groups.map fun e => (e.1, e.2.unblocked)

theorem mem_entries {s : State} {gid : Nat} {h : Group} (hm : (gid, h) ∈ s.groups) : (gid, h.unblocked) ∈ s.entries :=
  List.mem_map.mpr ⟨_, hm, rfl⟩

theorem of_mem_entries {s : State} {gid : Nat} {h : Group} (hm : (gid, h) ∈ s.entries) : ∃ x, (gid, x) ∈ s.groups := by
  obtain ⟨e, he, heq⟩ := List.mem_map.mp hm
  cases heq
  exact ⟨_, he⟩

theorem entries_modGroup (s : State) (gid : Nat) {f : Group → Group} (hf : ∀ g, (f g).unblocked = g.unblocked) :
    (s.modGroup gid f).entries = s.entries := by
  unfold State.entries State.modGroup Map.mod
  rw [List.map_map]
  refine List.map_congr_left fun e _ => ?_
  by_cases h : e.1 = gid
  · simp only [Function.comp, if_pos h, hf]
  · simp only [Function.comp, if_neg h]

theorem entries_foldl_modCore (cs : List Nat) (f : Core → Core) (s : State) :
    (cs.foldl (fun s c => s.modCore c f) s).entries = s.entries :=
  foldl_keeps State.entries (by exact fun _ _ => rfl) cs s

theorem entries_shrink (s : State) (gid n : Nat) : (s.shrink gid n).entries = s.entries := by
  unfold State.shrink
  split
  · rfl
  · split
    · rfl
    · exact (entries_foldl_modCore ..).trans (entries_modGroup s gid fun _ => rfl)

theorem entries_reclaim (s : State) (c gid : Nat) : (s.reclaim c gid).entries = s.entries :=
  foldl_keeps State.entries (fun t e => by split; exacts [rfl, entries_shrink ..]) _ s

theorem entries_drawBlock {s t : State} {gid : Nat} (h : s.drawBlock gid = some t) : t.entries = s.entries := by
  have take (cs : List Nat) (f : Core → Core) (g : Group → Group) (hg : ∀ x, (g x).unblocked = x.unblocked) (u : State) :
      ((cs.foldl (fun s c => s.modCore c f) u).modGroup gid g).entries = u.entries := by
    rw [entries_modGroup _ _ hg, entries_foldl_modCore]
  have reclaimed (cs : List Nat) : (cs.foldl (fun s c => s.reclaim c gid) s).entries = s.entries :=
    foldl_keeps State.entries (fun _ _ => entries_reclaim ..) _ _
  unfold State.drawBlock at h
  split at h
  · cases h
  · dsimp only at h
    split at h
    · cases h; exact take _ _ _ (by exact fun _ => rfl) _
    · split at h
      · cases h; rw [take _ _ _ (by exact fun _ => rfl), reclaimed]
      · split at h
        · cases h; rw [take _ _ _ (by exact fun _ => rfl), reclaimed]
        · cases h

theorem entries_drawTo {s t : State} {gid n fuel : Nat} (h : s.drawTo gid n fuel = some t) : t.entries = s.entries := by
  induction fuel generalizing s with
  | zero => cases h; rfl
  | succ fuel ih =>
    unfold State.drawTo at h
    split at h
    · cases h
    · split at h
      · cases h; rfl
      · obtain ⟨u, hu, ht⟩ := Option.bind_eq_some_iff.mp h
        rw [ih ht, entries_drawBlock hu]

theorem unblocked_mapNames (ns : List Nat) (g : Group) : (ns.foldl Group.mapName g).unblocked = g.unblocked :=
  foldl_keeps Group.unblocked (by exact fun _ _ => rfl) ns g

theorem unblocked_remap (ns : List Nat) (g : Group) : (g.remap ns).unblocked = g.unblocked :=
  (unblocked_mapNames ns { g with mapped := [], inBlock := [] } :)

theorem entries_mapNames {s t : State} {gid : Nat} {ns : List Nat} (h : s.mapNames gid ns = some t) : t.entries = s.entries := by
  unfold State.mapNames at h
  split at h
  · cases h
  · dsimp only at h
    split at h
    · cases h; rfl
    · obtain ⟨u, hu, rfl⟩ := Option.map_eq_some_iff.mp h
      rw [entries_modGroup _ _ (unblocked_mapNames _), entries_drawTo hu]

/-! ### The core on which a group stands, after names are mapped -/

theorem coreOf_eq_entries (s : State) (gid : Nat) : s.coreOf gid = (Map.get? s.entries gid).map Group.core := by
  unfold State.coreOf State.group? State.entries
  induction s.groups with
  | nil => rfl
  | cons e m ih =>
    rw [List.map_cons, Map.get?_cons, Map.get?_cons]
    split
    · rfl
    · exact ih

theorem coreOf_mapNames {s t : State} {gid : Nat} {ns : List Nat} (h : s.mapNames gid ns = some t) (k : Nat) :
    t.coreOf k = s.coreOf k := by
  rw [coreOf_eq_entries, entries_mapNames h, coreOf_eq_entries]

theorem coreOf_began (s : State) (i : Instr) (gid : Nat) (g : Group) (on : List Nat) (k : Nat) :
    (s.began i gid g on).coreOf k = s.coreOf k := by
  unfold State.began
  split
  · exact foldl_keeps (fun t : State => t.coreOf k) (fun _ _ => coreOf_modThread ..) _ _
  · rfl

/-- The group of a slot stands on its core in the state in which its instruction runs. -/
theorem Executes.coreOf {i : Instr} {p : Pre} {s : State} {c : Slot} {g : Group} {on off : List Nat} {s1 : State}
    (h : Executes i p s c g on off s1) : s1.coreOf c.gid = some g.core := by
  rw [coreOf_mapNames h.mapped, coreOf_began]
  simp [State.coreOf, h.grp]

theorem elim_core {s : State} {gid k : Nat} (h : s.coreOf gid = some k) : (s.group? gid).elim 0 Group.core = k := by
  obtain ⟨g, hg, rfl⟩ := Option.map_eq_some_iff.mp h
  rw [hg]; rfl

/-! ### Bodies that run for each lane, and every lane goes on -/

section

variable {i : Instr} {p : Pre} {s : State} {c : Slot} {g : Group} {on off : List Nat} {s1 : State} (h : Executes i p s c g on off s1)

include h

/-- Where the body lets every executing lane go on, the path goes on. -/
theorem inSlot_next {body : State → Slot → Group → List Nat → State × List (Nat × LaneRes)} {t : State}
    (hb : body (s.began i c.gid g on) c g on = (t, on.map fun l => (l, .next))) :
    inSlot i p s body = .next (t.goOn c.gid off on) := by
  rw [inSlot_executes h, hb, finish_next]

/-- The same for a body that runs once the destination's names have been mapped. -/
theorem inSlot_withNames_next {body : State → Slot → Group → List Nat → State × List (Nat × LaneRes)} {t : State}
    (hb : body s1 c g on = (t, on.map fun l => (l, .next))) : inSlot i p s (withNames i body) = .next (t.goOn c.gid off on) :=
  inSlot_next h ((withNames_executes h body).trans hb)

/-- The same for an instruction that writes no vector register. -/
theorem inSlot_start_next (hd : dstNames i g.w = []) {body : State → Slot → Group → List Nat → State × List (Nat × LaneRes)}
    {t : State} (hb : body s1 c g on = (t, on.map fun l => (l, .next))) : inSlot i p s body = .next (t.goOn c.gid off on) :=
  inSlot_next h (h.start hd ▸ hb)

end

/-- Lanes that run one after the other from `t 0` to `t ls.length`, and all go on. -/
theorem runLanes_chain {f : State → Nat → State × LaneRes} {ls : List Nat} {t : Nat → State}
    (ht : ∀ k, k < ls.length → f (t k) (ls.getD k 0) = (t (k + 1), .next)) :
    runLanes f (t 0) ls = (t ls.length, ls.map fun l => (l, .next)) := by
  have key : ∀ (ls : List Nat) (t : Nat → State) (acc : List (Nat × LaneRes)),
      (∀ k, k < ls.length → f (t k) (ls.getD k 0) = (t (k + 1), .next)) →
      ls.foldl (fun r l => ((f r.1 l).1, r.2 ++ [(l, (f r.1 l).2)])) (t 0, acc)
        = (t ls.length, acc ++ ls.map fun l => (l, .next)) := by
    intro ls
    induction ls with
    | nil => intro t acc _; simp
    | cons l ls ih =>
      intro t acc ht
      have h0 : f (t 0) l = (t 1, .next) := by simpa using ht 0 (by simp)
      have hs := ih (fun k => t (k + 1)) (acc ++ [(l, .next)]) fun k hk => by
        simpa using ht (k + 1) (by simpa using hk)
      simpa [h0] using hs
  simpa [runLanes] using key ls t [] ht

/-- The state that is left when each lane in turn has been done by `f`. -/
def chainOf (f : State → Nat → State) (s : State) (ls : List Nat) (k : Nat) : State := (ls.take k).foldl f s

theorem chainOf_zero (f : State → Nat → State) (s : State) (ls : List Nat) : chainOf f s ls 0 = s := by simp [chainOf]

theorem chainOf_length (f : State → Nat → State) (s : State) (ls : List Nat) : chainOf f s ls ls.length = ls.foldl f s := by
  simp [chainOf]

theorem chainOf_succ (f : State → Nat → State) (s : State) {ls : List Nat} {k : Nat} (hk : k < ls.length) :
    chainOf f s ls (k + 1) = f (chainOf f s ls k) (ls.getD k 0) := by
  rw [chainOf, List.take_add_one, List.getElem?_eq_getElem hk, Option.toList_some, List.foldl_append, List.foldl_cons,
    List.foldl_nil, List.getD_eq_getElem _ _ hk, chainOf]

/-- Lanes of which each goes on, with what `f'` makes of the state before it. -/
theorem runLanes_foldl {f : State → Nat → State × LaneRes} {f' : State → Nat → State} {ls : List Nat}
    (hf : ∀ s, ∀ l ∈ ls, f s l = (f' s l, .next)) (s : State) :
    runLanes f s ls = (ls.foldl f' s, ls.map fun l => (l, .next)) := by
  have := runLanes_chain (f := f) (ls := ls) (t := chainOf f' s ls) fun k hk => by
    rw [hf _ _ (by rw [List.getD_eq_getElem _ _ hk]; exact List.getElem_mem hk), chainOf_succ f' s hk]
  rwa [chainOf_zero, chainOf_length] at this

theorem doers_thread {i : Instr} {g : Group} (hm : (i.need g.w).mode = .thread) (on : List Nat) : doers i g on = on := by
  simp [doers, Need.perPath, hm]

/-- A body that runs lane by lane, or once for the path: the computing lanes run one after the other, and all go on. -/
theorem perLane_chain {i : Instr} {f : State → Nat → Nat → State × LaneRes} {c : Slot} {g : Group} {on : List Nat}
    (hne : on ≠ []) {t : Nat → State}
    (ht : ∀ k, k < (doers i g on).length → f (t k) c.gid ((doers i g on).getD k 0) = (t (k + 1), .next)) :
    perLane i f (t 0) c g on = (t (doers i g on).length, on.map fun l => (l, .next)) := by
  unfold perLane
  unfold doers at ht ⊢
  split
  next hp =>
    obtain ⟨a, r, rfl⟩ := List.exists_cons_of_ne_nil hne
    have h0 := ht 0 (by simp [hp])
    simp only [hp, if_true, List.take_succ_cons, List.take_zero, List.getD_cons_zero] at h0 ⊢
    rw [h0]
    rfl
  next hp =>
    simp only [hp, if_false, Bool.false_eq_true] at ht ⊢
    exact runLanes_chain ht

/-- A body that runs in every lane: each goes on from the state that the one before it left. -/
theorem perLane_thread_chain {i : Instr} {f : State → Nat → Nat → State × LaneRes} {c : Slot} {g : Group} {on : List Nat}
    (hne : on ≠ []) (hm : (i.need g.w).mode = .thread) {t : Nat → State}
    (ht : ∀ k, k < on.length → f (t k) c.gid (on.getD k 0) = (t (k + 1), .next)) :
    perLane i f (t 0) c g on = (t on.length, on.map fun l => (l, .next)) := by
  have := perLane_chain (i := i) (f := f) (c := c) (g := g) hne (t := t) (by rwa [doers_thread hm])
  rwa [doers_thread hm] at this

/-- A body that runs once for the path, and goes on. -/
theorem perLane_once {i : Instr} {f : State → Nat → Nat → State × LaneRes} {s t : State} {c : Slot} {g : Group} {on : List Nat}
    (hne : on ≠ []) (hm : (i.need g.w).mode = .once) (hf : f s c.gid (on.headD 0) = (t, .next)) :
    perLane i f s c g on = (t, on.map fun l => (l, .next)) := by
  obtain ⟨a, r, rfl⟩ := List.exists_cons_of_ne_nil hne
  rw [List.headD_cons] at hf
  simp only [perLane, Need.perPath, hm, if_true, hf]

/-- Below the limit of R69 the body runs. -/
theorem underLimit_of_few {body : State → Slot → Group → List Nat → State × List (Nat × LaneRes)} {s : State} {c : Slot} {g : Group}
    {on : List Nat} (h : ∀ l ∈ on, (s.unsettled c.gid l).length < 1024) : underLimit body s c g on = body s c g on := by
  unfold underLimit
  rw [if_neg]
  simpa using h

end Sys2Proof.Machine
end

section
/-!
Proofs. Issues, tickets, queues, special registers and hints: what one issue leaves in the state, and what the instructions of
tickets, queue windows and special registers come to where they execute.
-/

namespace Sys2Proof.Machine

/-! ### One issue (R69) -/

/-- Giving numbers changes groups only. -/
theorem number_frame (s : State) (gid : Nat) (ls : List Nat) : (s.number gid ls).2 = { s with groups := (s.number gid ls).2.groups } := by
  suffices ∀ t : State, t = { s with groups := t.groups } →
      ls.foldl (fun s l => s.modThread gid l fun t => { t with opc := t.opc + 1 }) t = { s with
        groups := (ls.foldl (fun s l => s.modThread gid l fun t => { t with opc := t.opc + 1 }) t).groups } from this s rfl
  induction ls with
  | nil => exact fun t ht => ht
  | cons l ls ih => exact fun t ht => ih _ (by rw [ht]; rfl)

theorem thread_modThread_opc (s : State) (gid l k : Nat) (f : Thread → Thread) :
    (s.modThread gid l f).thread gid k = match s.group? gid with
      | some g => (g.modThread l f).thread k
      | none => {} := by
  simp only [State.thread, State.modThread, group?_modGroup]
  cases s.group? gid <;> rfl

/-- Of a lane that the group lists, the `OPC` advances by one if it is given a number, and every other lane keeps its own. -/
theorem number_opc {gid l : Nat} {ls : List Nat} (hn : ls.Nodup) {s : State} {g : Group} (hg : s.group? gid = some g)
    (hl : (g.thread? l).isSome) :
    ((s.number gid ls).2.thread gid l).opc = (s.thread gid l).opc + (if l ∈ ls then 1 else 0) := by
  change ((ls.foldl (fun s l => s.modThread gid l fun t => { t with opc := t.opc + 1 }) s).thread gid l).opc = _
  induction ls generalizing s g with
  | nil => simp
  | cons a ls ih =>
    obtain ⟨hnot, hnd⟩ := List.nodup_cons.mp hn
    have hg' : (s.modThread gid a fun t => { t with opc := t.opc + 1 }).group? gid
        = some (g.modThread a fun t => { t with opc := t.opc + 1 }) := by simp [State.modThread, hg]
    rw [List.foldl_cons]
    by_cases h : l = a
    · subst h
      rw [ih hnd hg' (by simpa using hl), state_thread_eq hg', state_thread_eq hg, thread_modThread g l _ hl]
      simp [hnot]
    · rw [ih hnd hg' (by rwa [thread?_modThread_ne h]), state_thread_eq hg', state_thread_eq hg, thread_modThread_ne h]
      simp [h]

/-- The header of a slot does not depend on the numbers of its threads. -/
theorem slotHeader_number (s : State) (c : Slot) (ls : List Nat) : (s.number c.gid ls).2.slotHeader c = s.slotHeader c := by
  have hc (t : State) (a k : Nat) : ((t.modThread c.gid a fun x => { x with opc := x.opc + 1 }).thread c.gid k).clause
      = (t.thread c.gid k).clause := by
    rw [thread_modThread_opc]
    cases hg : t.group? c.gid with
    | none => simp [State.thread, hg]
    | some g =>
      rw [state_thread_eq hg]
      by_cases h : k = a
      · subst h
        cases hx : g.thread? k with
        | none => simp [Group.thread, Map.get, Group.modThread, show Map.get? g.threads k = none from hx]
        | some x => simp only [thread_modThread g k _ (show (g.thread? k).isSome by simp [hx])]
      · simp only [thread_modThread_ne h]
  have key (k : Nat) : ((s.number c.gid ls).2.thread c.gid k).clause = (s.thread c.gid k).clause :=
    foldl_keeps (fun t : State => (t.thread c.gid k).clause) (by exact fun t a => hc t a k) ls s
  simp only [State.slotHeader, key]

theorem opFlags_number (s : State) (c : Slot) (a b : Bool) (ls : List Nat) :
    (s.number c.gid ls).2.opFlags c a b = s.opFlags c a b := by
  simp only [State.opFlags, slotHeader_number]

/-- The operation that an issue puts in flight. -/
def State.issuing (s : State) (c : Slot) (g : Group) (ex : Nat) (a b : Bool) (ls : List Nat) (r : Req) : Op :=
  { ex := ex, core := g.core, ctx := g.ctx, gid := c.gid, lanes := (s.number c.gid ls).1, ins := g.cbase + c.pc, kind := r.kind
    ord := r.ord, scope := r.scope, held := ls.any fun l => s.mustHold g l r.ord r.h r.ordered
    seta := (s.opFlags c a b).1, setb := (s.opFlags c a b).2, dst := r.dst.map fun d => s.dstOf c.gid d.1 d.2
    issue := s.rtime, sys := s.sysMode g.ctx, ts := s.stopped g.ctx, err := r.err
    fence := if r.ordered then ls.foldl (fun a l => Scope.wider a (g.thread l).relFence) none else none }

/-- An issue numbers its lanes, puts its operation in flight, and begins it. -/
theorem issueOp_eq (start : State → Nat → State) (s : State) (c : Slot) (g : Group) (ex : Nat) (a b : Bool) (ls : List Nat) (r : Req) :
    s.issueOp start c g ex a b ls r = State.beginOp start { s with
      groups := (s.number c.gid ls).2.groups, ops := Map.put s.nextId (s.issuing c g ex a b ls r) s.ops
      nextId := s.nextId + 1 } s.nextId := by
  unfold State.issueOp State.issuing
  dsimp only
  rw [opFlags_number, number_frame]
  rfl

/-- What is not held begins at once. -/
theorem beginOp_of_free {start : State → Nat → State} {s : State} {id : Nat} {o : Op} (ho : s.op? id = some o) (hh : o.held = false) :
    s.beginOp start id = start s id := by
  simp [State.beginOp, ho, hh]

/-- Settles O15: an issue is what numbering its lanes and adding its operation make of the state. -/
theorem issueTakesNumbers : Obligations.IssueTakesNumbers := by
  unfold Obligations.IssueTakesNumbers
  intro s c g ex a b ls r hfree t
  have hheld : (s.issuing c g ex a b ls r).held = false := by simpa [State.issuing] using hfree
  have ht : t = { s with
      groups := (s.number c.gid ls).2.groups, ops := Map.put s.nextId (s.issuing c g ex a b ls r) s.ops
      nextId := s.nextId + 1 } :=
    (issueOp_eq ..).trans (beginOp_of_free (Map.get?_put ..) hheld)
  rw [ht]
  refine ⟨⟨_, Map.get?_put .., rfl, rfl, rfl, rfl, hheld, rfl, rfl, rfl, rfl⟩, fun k hk => Map.get?_put_ne hk .., ?_, rfl⟩
  intro gr l hg hl hn
  rw [← number_opc hn hg hl, number_frame]
  rfl

/-! ### Tickets (R174, R178) -/

/-- An acquire keeps which operation a ticket names. -/
theorem ticketOp_acquire (s : State) (k : Nat) (sc : Scope) (core : Nat) (t : Word) :
    (s.acquire k sc).ticketOp core t = s.ticketOp core t := by
  have hs : ((s.acquire k sc).core core).slots = (s.core core).slots := by
    unfold State.acquire
    split
    · by_cases h : core = k
      · subst h; rw [core_modCore]
      · rw [core_modCore_ne h]
    · rfl
  simp only [State.ticketOp, hs]

theorem src32_acquire (s : State) (k : Nat) (sc : Scope) (gid l : Nat) (o : Opnd) :
    (s.acquire k sc).src32 gid l o = s.src32 gid l o := by
  unfold State.acquire
  split
  · cases o <;> rfl
  · rfl

/-- A wait on a ticket that is done acquires and goes on. -/
theorem pwaitNow_of_done {s : State} {gid core : Nat} {t pr : Word} (hc : s.coreOf gid = some core) (ht : s.ticketOp core t = none) :
    s.pwaitNow gid t pr = (s.acquire core .dev, .next) := by
  simp [State.pwaitNow, State.ticketAcquire, elim_core hc, ht]

theorem pwait_of_done {p : Pre} {a : Opnd} {s : State} {c : Slot} {g : Group} {on off : List Nat} {s1 : State}
    (h : Executes (.pwait p a) p s c g on off s1) (ht : ∀ l ∈ on, s1.ticketOp g.core (s1.src32 c.gid l a) = none) :
    exec (.pwait p a) s = .next ((s1.acquire g.core .dev).goOn c.gid off on) := by
  have hcore (u : State) (hu : u = s1 ∨ u = s1.acquire g.core .dev) {l : Nat} (hl : l ∈ on) (pr : Word) :
      u.pwaitNow c.gid (u.src32 c.gid l a) pr = (s1.acquire g.core .dev, .next) := by
    rcases hu with rfl | rfl
    · exact pwaitNow_of_done h.coreOf (ht l hl)
    · have hc : (s1.acquire g.core .dev).coreOf c.gid = some g.core := by rw [State.coreOf, group?_acquire]; exact h.coreOf
      rw [pwaitNow_of_done hc (by rw [src32_acquire, ticketOp_acquire]; exact ht l hl), acquire_acquire]
  change execPwait p a s = _
  unfold execPwait
  refine inSlot_start_next h rfl ?_
  obtain ⟨n, hn⟩ : ∃ n, on.length = n + 1 := Nat.exists_eq_succ_of_ne_zero (by simpa using h.ran)
  have := perLane_thread_chain (i := .pwait p a) (c := c) (g := g) h.ran rfl
    (f := fun s gid l => s.pwaitNow gid (s.src32 gid l a) (s.src32 gid l (a.plus 1)))
    (t := fun k => if k = 0 then s1 else s1.acquire g.core .dev) fun k hk => by
      have hl : on.getD k 0 ∈ on := by rw [List.getD_eq_getElem _ _ hk]; exact List.getElem_mem hk
      have hu : (if k = 0 then s1 else s1.acquire g.core .dev) = s1 ∨
          (if k = 0 then s1 else s1.acquire g.core .dev) = s1.acquire g.core .dev := by split <;> simp
      simpa using hcore _ hu hl _
  simpa [hn] using this

/-- `CANCEL` in one lane (R178). -/
def State.cancelOne (s : State) (core gid l : Nat) (d a : Opnd) : State :=
  match s.ticketOp core (s.src32 gid l a) with
  | none => s.dst32 gid l d 2
  | some id => (s.modOp id (modAsync fun x => { x with cancelled := true })).dst32 gid l d
      (match (s.op? id).map Op.kind with
        | some (.async x _) => if x.wrote then 1 else 0
        | _ => 0)

theorem coreOf_cancelOne (s : State) (core gid l : Nat) (d a : Opnd) (k : Nat) :
    (s.cancelOne core gid l d a).coreOf k = s.coreOf k := by
  unfold State.cancelOne
  split
  · exact coreOf_dst32 ..
  · exact coreOf_dst32 ..

theorem cancel_chain {p : Pre} {d a : Opnd} {s : State} {c : Slot} {g : Group} {on off : List Nat} {s1 : State}
    (h : Executes (.cancel p d a) p s c g on off s1) {t : Nat → State} (h0 : t 0 = s1)
    (ht : ∀ k, k < (doers (.cancel p d a) g on).length →
      t (k + 1) = (t k).cancelOne g.core c.gid ((doers (.cancel p d a) g on).getD k 0) d a) :
    exec (.cancel p d a) s = .next ((t (doers (.cancel p d a) g on).length).goOn c.gid off on) := by
  have hcore : ∀ k, k ≤ (doers (.cancel p d a) g on).length → (t k).coreOf c.gid = some g.core := by
    intro k
    induction k with
    | zero => exact fun _ => h0 ▸ h.coreOf
    | succ k ih => exact fun hk => by rw [ht k hk, coreOf_cancelOne, ih (by omega)]
  change execCancel p d a s = _
  unfold execCancel
  refine inSlot_withNames_next h ?_
  rw [← h0]
  refine perLane_chain h.ran fun k hk => ?_
  rw [ht k hk]
  dsimp only
  rw [elim_core (hcore k hk.le)]
  unfold State.cancelOne
  cases (t k).ticketOp g.core ((t k).src32 c.gid ((doers (.cancel p d a) g on).getD k 0) a) with
  | none => rfl
  | some id =>
    dsimp only
    cases (t k).op? id with
    | none => rfl
    | some o => cases hk : o.kind <;> simp [hk]

/-! ### Queue windows (R29, R170) -/

theorem qpush_chain {p : Pre} {x : Mx} {d : Opnd} {a : BitVec 7} {s : State} {c : Slot} {g : Group} {on off : List Nat} {s1 : State}
    (h : Executes (.qpush p x d a) p s c g on off s1) (hl : ∀ l ∈ on, (s1.unsettled c.gid l).length < 1024) {t : Nat → State}
    (h0 : t 0 = s1) (ht : ∀ k, k < on.length →
      (t k).push c.gid (on.getD k 0) a.toNat ((t k).src32 c.gid (on.getD k 0) d) x.h = some (t (k + 1))) :
    exec (.qpush p x d a) s = .next ((t on.length).goOn c.gid off on) := by
  change execQpush p x d a s = _
  unfold execQpush
  refine inSlot_start_next h rfl ((underLimit_of_few hl).trans ?_)
  rw [← h0]
  exact perLane_thread_chain h.ran rfl fun k hk => by simp only [ht k hk]

theorem qpop_chain {p : Pre} {x : Mx} {d : Opnd} {a : BitVec 7} {s : State} {c : Slot} {g : Group} {on off : List Nat} {s1 : State}
    (h : Executes (.qpop p x d a) p s c g on off s1) (hl : ∀ l ∈ on, (s1.unsettled c.gid l).length < 1024) {t u : Nat → State}
    {w : Nat → Word} (h0 : t 0 = s1) (ht : ∀ k, k < on.length →
      (t k).pop c.gid (on.getD k 0) a.toNat x.h ((t k).src32 c.gid (on.getD k 0) d) = some (u k, w k) ∧
        t (k + 1) = (u k).dst32 c.gid (on.getD k 0) d (w k)) :
    exec (.qpop p x d a) s = .next ((t on.length).goOn c.gid off on) := by
  change execQpop p x d a s = _
  unfold execQpop
  refine inSlot_withNames_next h ((underLimit_of_few hl).trans ?_)
  rw [← h0]
  exact perLane_thread_chain h.ran rfl fun k hk => by simp only [(ht k hk).1, (ht k hk).2]

/-- Settles O23: each instruction runs lane by lane from the state that the lane before it left, and all lanes go on. -/
theorem ticketsAndQueuesComplete : Obligations.TicketsAndQueuesComplete := by
  unfold Obligations.TicketsAndQueuesComplete
  refine ⟨fun p a s c g on off s1 h ht => pwait_of_done h ht, ?cancel,
    fun p x d a s c g on off s1 h hl t h0 ht => qpush_chain h hl h0 ht,
    fun p x d a s c g on off s1 h hl t u w h0 ht => qpop_chain h hl h0 ht⟩
  case cancel =>
    intro p d a s c g on off s1 h t h0 ls ht
    refine cancel_chain h h0 fun k hk => (ht k hk).trans ?_
    rfl

section

variable {s : State} {g : Group} {gid l : Nat}

/-- Without `.H` a paired team holds its queue instructions, and no other. -/
theorem queueHolds_plain (s : State) (g : Group) : s.queueHolds g false = (s.team? g.team).any Team.paired := rfl

theorem queueHeld_plain : s.queueHeld g gid l false = false ↔
    ((s.team? g.team).any Team.paired = true → s.unsettled gid l = [] ∧ (g.thread l).wait.isSome = true) := by
  unfold State.queueHeld
  rw [queueHolds_plain]
  cases (s.team? g.team).any Team.paired
  · simp
  · cases hw : (g.thread l).wait <;> simp

theorem queueDropped_plain : s.queueDropped g gid l false = true ↔
    ((s.team? g.team).any Team.paired = true ∧ (s.failure? gid l).isSome = true) := by
  rw [State.queueDropped, queueHolds_plain, Bool.and_eq_true]

end

/-- Everything that a push without `.H` can do where it goes through. -/
theorem push_cases {s t : State} {gid l k : Nat} {w : Word} (h : s.push gid l k w false = some t) :
    ∃ g, s.group? gid = some g ∧ s.queueHeld g gid l false = false ∧
      ((s.queueDropped g gid l false = true ∧ t = s.countDropped gid l) ∨
       (s.queueDropped g gid l false = false ∧ s.partnerGone g l = true ∧ t = s.countOne gid l) ∨
       (s.queueDropped g gid l false = false ∧ s.partnerGone g l = false ∧ (s.window (g.partner.getD 0) l k).length < 8 ∧
        t = (s.setWindow (g.partner.getD 0) l k (s.window (g.partner.getD 0) l k ++ [w])).countOne gid l)) := by
  unfold State.push at h
  split at h
  · cases h
  next g hg =>
  split at h
  · cases h
  next hh =>
  refine ⟨g, hg, Bool.eq_false_iff.mpr hh, ?_⟩
  split at h
  next hd => cases h; exact .inl ⟨hd, rfl⟩
  next hd =>
  split at h
  next hp => cases h; exact .inr (.inl ⟨Bool.eq_false_iff.mpr hd, hp, rfl⟩)
  next hp =>
  dsimp only at h
  split at h
  · cases h
  next hw => cases h; exact .inr (.inr ⟨Bool.eq_false_iff.mpr hd, Bool.eq_false_iff.mpr hp, Nat.lt_of_not_le hw, rfl⟩)

/-- Everything that a pop without `.H` can do where it goes through. -/
theorem pop_cases {s t : State} {gid l k : Nat} {w old : Word} (h : s.pop gid l k false old = some (t, w)) :
    ∃ g, s.group? gid = some g ∧
      ((s.queueDropped g gid l false = true ∧ t = s.countDropped gid l ∧ w = old) ∨
       (∃ ws, s.window gid l k = w :: ws ∧ t = (s.setWindow gid l k ws).countOne gid l) ∨
       (s.window gid l k = [] ∧ s.partnerGone g l = true ∧ t = s.countOne gid l ∧ w = 0)) := by
  unfold State.pop at h
  split at h
  · cases h
  next g hg =>
  refine ⟨g, hg, ?_⟩
  split at h
  · cases h
  split at h
  next hd => cases h; exact .inl ⟨hd, rfl, rfl⟩
  split at h
  next v ws hw => cases h; exact .inr (.inl ⟨ws, hw, rfl⟩)
  next hw =>
    split at h
    next hp => cases h; exact .inr (.inr ⟨hw, hp, rfl, rfl⟩)
    · cases h

/-- A dropped queue instruction takes its number and stands among the dropped operations. -/
theorem countDropped_counts {s : State} {gid l : Nat} {g : Group} {x : Thread} (hg : s.group? gid = some g) (hx : g.thread? l = some x) :
    ((s.countDropped gid l).thread gid l).opc = x.opc + 1 ∧ ∃ id o, (s.countDropped gid l).op? id = some o ∧ o.kind = .queue ∧
      o.st = .dropped ∧ o.gid = gid ∧ o.lanes = [(l, x.opc)] ∧ o.ins = g.cbase + x.pc := by
  have ht : g.thread l = x := thread_eq_of_thread? hx
  unfold State.countDropped
  rw [hg]
  dsimp only
  refine ⟨?_, s.nextId + 1, _, Map.get?_put .., rfl, rfl, rfl, by rw [ht], by rw [ht]⟩
  have hg' (u : State) (hu : u.group? gid = some g) : ((u.countOne gid l).thread gid l).opc = x.opc + 1 := by
    have : (u.countOne gid l).group? gid = some (g.modThread l fun t => { t with opc := t.opc + 1 }) := by
      simp [State.countOne, State.modThread, hu]
    rw [state_thread_eq this, thread_modThread g l _ (by simp [hx]), ht]
  exact hg' _ hg

/-- Settles O24, by what a push and a pop that go through can do. That a paired team's queue instructions wait for earlier operations
is the reading of log entry 33. -/
theorem queueWindowsAreFifo : Obligations.QueueWindowsAreFifo := by
  unfold Obligations.QueueWindowsAreFifo
  refine ⟨?push, ?pop, fun s gid l g x hg hx => countDropped_counts hg hx⟩
  case push =>
    intro s t gid l k w h
    obtain ⟨g, hg, hheld, hcases⟩ := push_cases h
    refine ⟨g, hg, queueHeld_plain.mp hheld, fun hp hf => ?_, fun hn hgone => ?_, fun hn hgone => ?_⟩
    · have hd : s.queueDropped g gid l false = true := queueDropped_plain.mpr ⟨hp, hf⟩
      rcases hcases with ⟨-, ht⟩ | ⟨hd', -⟩ | ⟨hd', -⟩
      · exact ht
      · simp [hd] at hd'
      · simp [hd] at hd'
    · rcases hcases with ⟨hd, -⟩ | ⟨-, -, ht⟩ | ⟨-, hgone', -⟩
      · exact absurd (queueDropped_plain.mp hd) hn
      · exact ht
      · simp [hgone] at hgone'
    · rcases hcases with ⟨hd, -⟩ | ⟨-, hgone', -⟩ | ⟨-, -, hlen, ht⟩
      · exact absurd (queueDropped_plain.mp hd) hn
      · simp [hgone] at hgone'
      · exact ⟨hlen, ht⟩
  case pop =>
    intro s t gid l k w old h
    obtain ⟨g, hg, ⟨hd, ht, hw⟩ | ⟨ws, hw, ht⟩ | ⟨hnil, hgone, ht, hw⟩⟩ := pop_cases h
    · exact .inl ⟨hw, ht, g, hg, queueDropped_plain.mp hd⟩
    · exact .inr (.inr ⟨ws, hw, ht⟩)
    · exact .inr (.inl ⟨hnil, hw, ht, g, hg, hgone⟩)

/-! ### Special registers, hints, register blocks, snapshots and fences (R152 to R156, R167, R408) -/

section

variable {p : Pre} {s : State} {c : Slot} {g : Group} {on off : List Nat} {s1 : State}

theorem mem_take_one {l : Nat} {ls : List Nat} : l ∈ ls.take 1 ↔ ls.head? = some l := by
  cases ls <;> simp [eq_comm]

/-- An executing lane computes where the instruction executes per thread, and the lowest one where it does not. -/
theorem mem_doers {i : Instr} {l : Nat} (hl : l ∈ on) :
    l ∈ doers i g on ↔ ((i.need g.w).perPath && on.head? ≠ some l) = false := by
  unfold doers
  cases (i.need g.w).perPath
  · simpa using hl
  · simp [mem_take_one]

theorem getsr_reads {d : Opnd} {a : BitVec 7} (h : Executes (.getsr p d a) p s c g on off s1) :
    exec (.getsr p d a) s = .next ((on.foldl (fun t l =>
      if l ∈ doers (.getsr p d a) g on then (t.getSr c.gid l a.toNat).2.dst32 c.gid l d (t.getSr c.gid l a.toNat).1
      else (t.getSr c.gid l a.toNat).2) s1).goOn c.gid off on) := by
  change execGetsr p d a s = _
  unfold execGetsr
  refine inSlot_withNames_next h (runLanes_foldl (fun t l hl => ?_) s1)
  simp only [mem_doers hl, Prod.mk.injEq, and_true]
  cases (((Instr.getsr p d a).need g.w).perPath && on.head? ≠ some l) <;> rfl

theorem setsr_writes {d : BitVec 7} {a : Opnd} (h : Executes (.setsr p d a) p s c g on off s1) :
    exec (.setsr p d a) s = .next ((s1.setSr c.gid d.toNat (s1.src32 c.gid (on.headD 0) a)).goOn c.gid off on) := by
  change execSetsr p d a s = _
  unfold execSetsr
  exact inSlot_start_next h rfl (perLane_once h.ran rfl rfl)

theorem nop_goes_on (h : Executes (.nop p) p s c g on off s1) : exec (.nop p) s = .next (s1.goOn c.gid off on) := by
  change execNop p s = _
  unfold execNop
  exact inSlot_start_next h rfl rfl

theorem yieldH_skips (h : Executes (.yieldH p) p s c g on off s1) :
    exec (.yieldH p) s = .next ((s1.modGroup c.gid fun x => { x with skip := true }).goOn c.gid off on) := by
  change execYieldH p s = _
  unfold execYieldH
  exact inSlot_start_next h rfl (perLane_once h.ran rfl rfl)

theorem racq_draws {a : Opnd} {t : State} (h : Executes (.racq p a) p s c g on off s1)
    (ht : s1.drawTo c.gid (min (s1.src32 c.gid (on.headD 0) a).toNat 4) 4 = some t) :
    exec (.racq p a) s = .next (t.goOn c.gid off on) := by
  change execRacq p a s = _
  unfold execRacq
  refine inSlot_start_next h rfl (perLane_once h.ran rfl ?_)
  simp only [ht]

theorem rrel_shrinks {g1 : Group} (h : Executes (.rrel p) p s c g on off s1) (hg : s1.group? c.gid = some g1) :
    exec (.rrel p) s = .next ((s1.shrink c.gid g1.needBlocks).goOn c.gid off on) := by
  change execRrel p s = _
  unfold execRrel
  refine inSlot_start_next h rfl (perLane_once h.ran rfl ?_)
  simp only [hg, Option.elim_some]

theorem trigger_tag (s : State) (tag : Word) : ({ s.trigger with snap := { s.trigger.snap with tag := tag } } : State)
    = { s with snap := { latched := true, tick := if s.snap.latched then s.snap.tick else s.rtime, tag := tag } } := by
  unfold State.trigger
  cases hl : s.snap.latched <;> simp [hl]

theorem snap_latches {a : Opnd} (h : Executes (.snap p a) p s c g on off s1) :
    exec (.snap p a) s = .next ({ s1 with snap :=
      { latched := true, tick := if s1.snap.latched then s1.snap.tick else s1.rtime
        tag := s1.src32 c.gid (on.headD 0) a } }.goOn c.gid off on) := by
  change execSnap p a s = _
  unfold execSnap
  refine inSlot_start_next h rfl (perLane_once h.ran rfl ?_)
  rw [← trigger_tag]

/-- The state in which a fence looks for what is pending: a release is in force, and at system scope the write-combining buffer
drains (R167). -/
def State.fenceStart (s : State) (gid l : Nat) (x : Mx) : State :=
  let r := s.modThread gid l fun y => { y with relFence := Scope.wider y.relFence (some x.scope) }
  if x.ord = .acq then s else if x.scope = .sys then r.drainThread gid l else r

theorem fence_chain {x : Mx} (h : Executes (.fence p x) p s c g on off s1) {t : Nat → State} (h0 : t 0 = s1)
    (ht : ∀ k, k < on.length →
      let u := (t k).fenceStart c.gid (on.getD k 0) x
      u.fencePending c.gid (on.getD k 0) x (u.thread c.gid (on.getD k 0)).opc.toNat = false ∧ t (k + 1) = u.fenceEnd c.gid x) :
    exec (.fence p x) s = .next ((t on.length).goOn c.gid off on) := by
  change execFence p x s = _
  unfold execFence
  refine inSlot_start_next h rfl ?_
  rw [← h0]
  refine perLane_thread_chain h.ran rfl fun k hk => ?_
  obtain ⟨hpend, hnext⟩ := ht k hk
  rw [hnext]
  exact if_neg (Bool.eq_false_iff.mp hpend)

end

/-- Settles O29: each instruction by the lemma about it. What a uniform `GETSR` reads is the reading of log entry 66. -/
theorem specialRegistersAndHintsComplete : Obligations.SpecialRegistersAndHintsComplete := by
  unfold Obligations.SpecialRegistersAndHintsComplete
  exact ⟨fun p d a s c g on off s1 h => getsr_reads h, fun p d a s c g on off s1 h => setsr_writes h,
    fun p s c g on off s1 h => nop_goes_on h, fun p s c g on off s1 h => yieldH_skips h,
    fun p a s c g on off s1 t h ht => racq_draws h ht, fun p s c g on off s1 g1 h hg => rrel_shrinks h hg,
    fun p a s c g on off s1 h => snap_latches h, fun p x s c g on off s1 h t h0 ht => fence_chain h h0 ht⟩

end Sys2Proof.Machine
end

section
/-!
Proofs. What an event names stays named: waits that end, traps that are taken and failures that are delivered leave `sel` as it was.
-/

namespace Sys2Proof.Machine

/-! ### Threads that go on -/

section

variable (s : State) (gid : Nat)

@[simp] theorem acquire_sel (k : Nat) (sc : Scope) : (s.acquire k sc).sel = s.sel := by unfold State.acquire; split <;> rfl

@[simp] theorem dst32_sel (l : Nat) (o : Opnd) (w : Word) : (s.dst32 gid l o w).sel = s.sel := by rw [dst32_eq, modGroup_sel]

@[simp] theorem dstWait_sel (l : Nat) (o : Opnd) (w : Word) : (s.dstWait gid l o w).sel = s.sel := by
  unfold State.dstWait
  dsimp only
  split
  · split <;> simp
  · simp

@[simp] theorem fenceEnd_sel (x : Mx) : (s.fenceEnd gid x).sel = s.sel := by
  unfold State.fenceEnd
  split
  · split <;> simp
  · rfl

@[simp] theorem unmap_sel (ns : List Nat) : (s.unmap gid ns).sel = s.sel := rfl

@[simp] theorem foldl_modThread_sel (ls : List Nat) (f : Nat → Thread → Thread) :
    (ls.foldl (fun s l => s.modThread gid l (f l)) s).sel = s.sel :=
  foldl_keeps State.sel (by exact fun _ _ => rfl) ls s

@[simp] theorem leave_sel (ls : List Nat) (pc : Nat → Nat) : (s.leave gid ls pc).sel = s.sel := by
  unfold State.leave
  dsimp only
  split
  · simp
  · split <;> split <;> simp

@[simp] theorem advance_sel (ls : List Nat) : (s.advance gid ls).sel = s.sel := by
  unfold State.advance
  split
  · rfl
  · dsimp only
    split
    · rfl
    · split
      · exact leave_sel ..
      · exact foldl_keeps State.sel (by exact fun _ _ => rfl) _ s

@[simp] theorem wake_sel (l : Nat) : (s.wake gid l).sel = s.sel := by
  unfold State.wake
  split
  · rfl
  · exact advance_sel ..

@[simp] theorem freeWith_sel (ls : List Nat) : (s.freeWith gid ls).sel = s.sel := by
  unfold State.freeWith
  split
  · rfl
  · exact advance_sel ..

@[simp] theorem checkReconv_sel : (s.checkReconv gid).sel = s.sel := by
  unfold State.checkReconv
  split
  · rfl
  · dsimp only
    split
    · exact foldl_keeps State.sel (by exact fun _ _ => wake_sel ..) _ s
    · rfl

/-! ### Queue windows -/

theorem countDropped_sel (l : Nat) : (s.countDropped gid l).sel = s.sel := by
  unfold State.countDropped
  split <;> rfl

end

theorem push_sel {s t : State} {gid l k : Nat} {w : Word} {h : Bool} (e : s.push gid l k w h = some t) : t.sel = s.sel := by
  unfold State.push at e
  split at e
  · cases e
  split at e
  · cases e
  split at e
  · cases e; exact countDropped_sel ..
  split at e
  · cases e; rfl
  · dsimp only at e
    split at e
    · cases e
    · cases e; rfl

theorem pop_sel {s t : State} {gid l k : Nat} {h : Bool} {old w : Word} (e : s.pop gid l k h old = some (t, w)) : t.sel = s.sel := by
  unfold State.pop at e
  split at e
  · cases e
  split at e
  · cases e
  split at e
  · cases e; exact countDropped_sel ..
  split at e
  · cases e; rfl
  split at e
  · cases e; rfl
  · cases e

/-! ### Memory that is read and written -/

section

variable (s : State)

@[simp] theorem touch_sel (c d : Nat) : (s.touch c d).sel = s.sel := rfl

@[simp] theorem cache_sel (c : Nat) (f : Leaf) : (s.cache c f).sel = s.sel := by
  unfold State.cache
  dsimp only
  split <;> rfl

@[simp] theorem noteLeaf_sel (c : Nat) (f : Leaf) (w : Bool) : (s.noteLeaf c f w).sel = s.sel := by
  unfold State.noteLeaf
  dsimp only
  rw [cache_sel]
  generalize (if w then 0x200 else 0x100 : DWord) = b
  split <;> rfl

@[simp] theorem refill_sel (w : Word) (fr o die : Nat) : (s.refill w fr o die).sel = s.sel := by
  unfold State.refill
  dsimp only
  split <;> rfl

@[simp] theorem nearFill_sel (w : Word) (home a : Nat) : (s.nearFill w home a).sel = s.sel := by
  unfold State.nearFill
  split <;> rfl

@[simp] theorem invalidate_sel (w : Word) (a : Nat) : (s.invalidate w a).sel = s.sel := by
  unfold State.invalidate
  split <;> rfl

end

/-- A fold that can fail, whose steps keep a value, keeps it. -/
theorem foldl_except_keeps {α β ε γ : Type} (q : α → γ) {f : Except ε α → β → Except ε α}
    (hf : ∀ r b t, f r b = .ok t → ∃ u, r = .ok u ∧ q t = q u) {ls : List β} {r : Except ε α} {t : α} (h : ls.foldl f r = .ok t) :
    ∃ u, r = .ok u ∧ q t = q u := by
  induction ls generalizing r with
  | nil => exact ⟨t, h, rfl⟩
  | cons b ls ih =>
    obtain ⟨u, hu, hq⟩ := ih h
    obtain ⟨v, hv, hq'⟩ := hf _ _ _ hu
    exact ⟨v, hv, hq.trans hq'⟩

theorem readPiece_sel {s t : State} {c va n die : Nat} {p : Perm} {sys : Bool} {bs : List Byte}
    (h : s.readPiece c va n p sys die = .ok (t, bs)) : t.sel = s.sel := by
  unfold State.readPiece at h
  split at h
  · unfold State.readEpoch at h
    split at h
    · cases h
    split at h
    · cases h
    · cases h; rfl
  · split at h
    · cases h
    · dsimp only at h
      split at h
      · cases h
      · cases h; simp

theorem gread_sel {s t : State} {c va n die : Nat} {p : Perm} {sys : Bool} {bs : List Byte}
    (h : s.gread c va n p sys die = .ok (t, bs)) : t.sel = s.sel := by
  obtain ⟨u, hu, hq⟩ := foldl_except_keeps (fun r : State × List Byte => r.1.sel) (fun r b t hr => by
    cases r with
    | error x => cases hr
    | ok u =>
      dsimp only at hr
      split at hr
      · cases hr
      next hp => cases hr; exact ⟨u, rfl, readPiece_sel hp⟩) h
  cases hu
  exact hq

theorem writePiece_sel {s t : State} {c va die : Nat} {bs : List Byte} {sys : Bool}
    (h : s.writePiece c va bs sys die = .ok t) : t.sel = s.sel := by
  unfold State.writePiece at h
  split at h
  · cases h
  · split at h
    · cases h
    · cases h; simp

theorem gwrite_sel {s t : State} {c va die : Nat} {bs : List Byte} {sys : Bool} (h : s.gwrite c va bs sys die = .ok t) :
    t.sel = s.sel := by
  obtain ⟨u, hu, hq⟩ := foldl_except_keeps State.sel (fun r b t hr => by
    cases r with
    | error x => cases hr
    | ok u => exact ⟨u, rfl, writePiece_sel hr⟩) h
  cases hu
  exact hq

theorem dwrite_sel {s t : State} {c va die : Nat} {bs : List Byte} {sys : Bool} (h : s.dwrite c va bs sys die = .ok t) :
    t.sel = s.sel := by
  unfold State.dwrite at h
  split at h
  · cases h
  · exact gwrite_sel h

/-! ### Groups, teams and grids that end -/

section

variable (s : State)

@[simp] theorem shrink_sel (gid k : Nat) : (s.shrink gid k).sel = s.sel := by
  unfold State.shrink
  split
  · rfl
  · split
    · rfl
    · exact foldl_keeps State.sel (by exact fun _ _ => rfl) _ _

@[simp] theorem dropGroup_sel (gid : Nat) : (s.dropGroup gid).sel = s.sel := shrink_sel s gid 0

@[simp] theorem dropTeam_sel (tid : Nat) : (s.dropTeam tid).sel = s.sel := by
  unfold State.dropTeam
  split
  · rfl
  next t ht =>
    have hg : ((s.groups.filter fun e => e.2.team = tid).foldl (fun s e => s.dropGroup e.1) s).sel = s.sel :=
      foldl_keeps State.sel (by exact fun _ _ => dropGroup_sel ..) _ s
    dsimp only
    split <;> split <;> split <;> simp [hg]

@[simp] theorem wakeWaitl_sel (c tk st : Nat) : (s.wakeWaitl c tk st).sel = s.sel := by
  unfold State.wakeWaitl
  refine foldl_keeps State.sel (fun t e => ?_) _ s
  refine foldl_keeps State.sel (fun t e => ?_) _ t
  split
  · split <;> simp
  · rfl

@[simp] theorem endGrid_sel (gr st : Nat) : (s.endGrid gr st).sel = s.sel := by
  unfold State.endGrid
  split
  · rfl
  · split
    · rfl
    · exact (wakeWaitl_sel ..).trans (foldl_keeps State.sel (by exact fun _ _ => dropTeam_sel ..) _ s)

@[simp] theorem dropTeamOps_sel (tid : Nat) : (s.dropTeamOps tid).sel = s.sel := by
  unfold State.dropTeamOps
  dsimp only
  refine foldl_keeps State.sel (fun t e => ?_) _ s
  split
  · split <;> rfl
  · rfl

@[simp] theorem trigger_sel : s.trigger.sel = s.sel := by
  unfold State.trigger
  split <;> rfl

@[simp] theorem fatal_sel (gid : Nat) (c : Cause) : (s.fatal gid c).sel = s.sel := by
  unfold State.fatal
  dsimp only
  split
  · simp
  · split
    · simp
    · split
      · simp
      · split
        · simp
        · split <;> simp

end

/-! ### Traps and returns -/

section

variable (s : State) (gid : Nat)

theorem takeFrame_sel (c core : Nat) : (s.takeFrame c core).1.sel = s.sel := by
  have atomic {t : State} {ctr base : Nat} (h : (match s.gread c base 4 { r := true, w := true } true (pairOf core) with
      | .error e => .error e
      | .ok (s, h) => (s.dwrite c base (toBytes 4 (ofBytes h + 1)) true (pairOf core)).map fun s => (s, ofBytes h) :
        Except XErr (State × Nat)) = .ok (t, ctr)) : t.sel = s.sel := by
    split at h
    · cases h
    next u b hu =>
      cases hw : u.dwrite c base (toBytes 4 (ofBytes b + 1)) true (pairOf core) with
      | error e => rw [hw] at h; cases h
      | ok v => rw [hw] at h; cases h; exact (dwrite_sel hw).trans (gread_sel hu)
  unfold State.takeFrame
  split
  · rfl
  · dsimp only
    split
    · rfl
    next t ctr ht =>
      split
      · exact atomic ht
      next u b hu =>
        have hsel := (gread_sel hu).trans (atomic ht)
        split
        · exact hsel
        · split
          · rfl
          · exact hsel
          next hv =>
            split
            · rfl
            · split <;> exact (gread_sel hv).trans hsel

@[simp] theorem awaitFrame_sel (ls : List Nat) (va : Nat) : (s.awaitFrame gid ls va).sel = s.sel :=
  foldl_keeps State.sel (by exact fun _ _ => rfl) ls s

@[simp] theorem enterHandler_sel (g : Group) (hd : Nat) (ls : List Nat) (fr res : Nat) : (s.enterHandler gid g hd ls fr res).sel = s.sel :=
  foldl_keeps State.sel (by exact fun _ _ => rfl) ls _

@[simp] theorem takeTrap_sel (ls : List Nat) (f : Frame) : (s.takeTrap gid ls f).sel = s.sel := by
  unfold State.takeTrap
  split
  · rfl
  next g hg =>
  split
  · simp
  split
  · simp
  have hfr := takeFrame_sel s g.ctx g.core
  split
  next he => rw [he] at hfr; split <;> simpa using hfr
  next he => rw [he] at hfr; simpa using hfr
  next t fr he =>
    rw [he] at hfr
    split
    · simpa using hfr
    next hw => rw [enterHandler_sel, gwrite_sel hw]; exact hfr

theorem freed_sel {s t : State} {g : Group} {fr : Nat} {but : List Nat} (h : s.freed g fr but = .ok t) : t.sel = s.sel := by
  unfold State.freed at h
  split at h
  · cases h; rfl
  · exact dwrite_sel h

@[simp] theorem returnFrom_sel (ls : List Nat) : (s.returnFrom gid ls).sel = s.sel := by
  unfold State.returnFrom
  split
  next l0 rest g hg =>
    split
    · rfl
    split
    · simp
    · simp
    next u b hu =>
      have hsel := gread_sel hu
      dsimp only
      split
      · simpa using hsel
      split
      · simpa using hsel
      · simp
      next hv =>
        split
        · simpa using (freed_sel hv).trans hsel
        · simpa using (freed_sel hv).trans hsel
  · rfl

@[simp] theorem returnAll_sel (ls : List Nat) : (s.returnAll gid ls).sel = s.sel :=
  foldl_keeps State.sel (by exact fun _ _ => returnFrom_sel ..) _ s

@[simp] theorem wakeRft_sel (g : Group) (pc : Nat) : (s.wakeRft gid g pc).sel = s.sel := by
  unfold State.wakeRft
  dsimp only
  split
  · simp
  · rfl

/-! ### Failures that are delivered -/

@[simp] theorem lowerFlag_sel (ex f : Nat) : (s.lowerFlag gid ex f).sel = s.sel := by
  unfold State.lowerFlag
  dsimp only
  refine (foldl_keeps State.sel (fun t e => ?_) _ _).trans rfl
  split
  · split <;> rfl
  · rfl

@[simp] theorem doneA_sel (id : Nat) : (s.doneA id).sel = s.sel := by
  unfold State.doneA
  split
  · rfl
  split
  · rfl
  · dsimp only
    split <;> simp

@[simp] theorem doneB_sel (id : Nat) : (s.doneB id).sel = s.sel := by
  unfold State.doneB
  split
  · rfl
  split
  · rfl
  · dsimp only
    split <;> simp

@[simp] theorem settle_sel (id : Nat) (st : OpSt) : (s.settle id st).sel = s.sel := by
  unfold State.settle
  split
  · rfl
  split
  · rfl
  · dsimp only
    split <;> simp

@[simp] theorem dropOne_sel (id : Nat) : (s.dropOne id).sel = s.sel := by
  unfold State.dropOne
  split
  · rfl
  · dsimp only
    split
    · split <;> simp
    · simp

@[simp] theorem dropHeld_sel (l id : Nat) : (s.dropHeld gid l id).sel = s.sel :=
  foldl_keeps State.sel (by exact fun _ _ => dropOne_sel ..) _ s

@[simp] theorem setBarrier_sel (tid k : Nat) (b : Barrier) : (s.setBarrier tid k b).sel = s.sel := by
  unfold State.setBarrier
  split
  · rfl
  · split <;> rfl

@[simp] theorem withdraw_sel (l : Nat) : (s.withdraw gid l).sel = s.sel := by
  unfold State.withdraw
  split
  next g clu idx ph _ _ =>
    dsimp only
    generalize (if clu = true then 16 + idx else idx) = k
    split
    · simp
    · rfl
  · rfl

@[simp] theorem deliverDetached_sel (g : Group) (l : Nat) : (s.deliverDetached gid g l).sel = s.sel := by
  unfold State.deliverDetached
  dsimp only
  split
  · rfl
  · exact (foldl_keeps State.sel (by exact fun _ _ => rfl) _ _).trans (takeTrap_sel ..)

@[simp] theorem deliverFailure_sel (l : Nat) : (s.deliverFailure gid l).sel = s.sel := by
  unfold State.deliverFailure
  split
  · rfl
  split
  · rfl
  split
  · split <;> simp
  next id o c hf =>
    have hheld : ∀ ls : List Nat, (ls.foldl (fun s l => match s.failure? gid l with
        | some (id, _, _) => s.dropHeld gid l id
        | none => s) s).sel = s.sel := fun ls =>
      foldl_keeps State.sel (fun t l => by split; exacts [dropHeld_sel .., rfl]) ls s
    have hwith : ∀ (ls : List Nat) (t : State), (ls.foldl (fun s l => s.withdraw gid l) t).sel = t.sel := fun ls t =>
      foldl_keeps State.sel (by exact fun _ _ => withdraw_sel ..) ls t
    dsimp only
    split
    · exact hheld _
    · have htrap (ls : List Nat) (f : Frame) (t : State) (ht : t.sel = s.sel) :
          ((ls.foldl (fun s l => s.withdraw gid l) t).takeTrap gid ls f).sel = s.sel :=
        (takeTrap_sel ..).trans ((hwith ls t).trans ht)
      split
      · exact htrap _ _ _ (hheld _)
      · split
        · exact (freeWith_sel ..).trans (htrap _ _ _ (hheld _))
        · exact htrap _ _ _ (hheld _)

/-! ### Waits that are looked at -/

@[simp] theorem wakeOne_sel (l : Nat) : (s.wakeOne gid l).sel = s.sel := by
  unfold State.wakeOne
  split
  · rfl
  dsimp only
  split
  · rfl
  split
  · rfl
  split
  case h_1 => split <;> simp
  case h_2 => split <;> simp
  case h_3 => split <;> simp
  case h_4 => split <;> simp
  case h_5 => split <;> simp [State.ticketAcquire]
  case h_6 => split <;> simp
  case h_7 =>
    split
    next hp => rw [wake_sel, push_sel hp]
    next => rfl
  case h_8 =>
    split
    next hp => rw [wake_sel]; exact (dstWait_sel ..).trans (pop_sel hp)
    next => rfl
  case h_9 => exact wakeRft_sel ..
  case h_10 => split <;> rfl
  case h_11 => split <;> simp
  case h_12 =>
    split
    next => rfl
    next => exact foldl_keeps State.sel (by exact fun _ _ => rfl) _ s
  case h_13 =>
    split
    next => rfl
    next => exact foldl_keeps State.sel (by exact fun _ _ => rfl) _ s
  case h_14 => split <;> rfl
  all_goals rfl

@[simp] theorem wakeWaits_sel : (s.wakeWaits gid).sel = s.sel := by
  unfold State.wakeWaits
  split
  · rfl
  · exact (checkReconv_sel ..).trans (foldl_keeps State.sel (by exact fun _ _ => wakeOne_sel ..) _ s)

@[simp] theorem deliverAll_sel : (s.deliverAll gid).sel = s.sel := by
  unfold State.deliverAll
  split
  · rfl
  · exact foldl_keeps State.sel (fun t l => by split; exacts [deliverFailure_sel .., rfl]) _ s

end

end Sys2Proof.Machine
end

section
/-!
Proofs. Sweeps and waits: which group a sweep picks and how many paths it issues, and what ends a wait.
-/

namespace Sys2Proof.Machine

/-! ### The start of a clause (R38, R40) -/

theorem reach_of_clause {u v w : State} {gid pc : Nat} {ls : List Nat} {g : Group} {b : Clause} (hg : u.group? gid = some g)
    (hw : u.codeWalked gid g pc (ls.headD 0) = (w, true)) (hf : w.fetchClause g pc = .ok (v, some b)) :
    u.reach gid (pc, none, ls) = v := by
  simp only [State.reach, hg, hw, hf]

theorem startPath_of_startable {v : State} {gid : Nat} {p : Path} {h : Group} {c : Clause} (hg : v.group? gid = some h)
    (hs : v.startable gid h p = some c) : v.startPath gid p
      = p.2.2.foldl (fun t l => t.modThread gid l fun x => { x with pc := p.1 + 4, clause := some c, t := [] }) v := by
  simp only [State.startPath, hg, hs]

/-- The path that holds the selected thread reaches its header and starts its clause. -/
theorem clauseStart_of_path {s : State} {g : Group} {p : Path}
    (hg : ((s.wakeWaits s.sel.a).deliverAll s.sel.a).group? s.sel.a = some g) (hst : g.started = true)
    (hp : (((s.wakeWaits s.sel.a).deliverAll s.sel.a).paths s.sel.a g).find?
      (fun p => p.2.1.isNone && p.2.2.contains s.sel.b) = some p) :
    exec .clauseStart s
      = .next ((((s.wakeWaits s.sel.a).deliverAll s.sel.a).reach s.sel.a p).startPath s.sel.a p) := by
  change execClauseStart s = _
  simp only [execClauseStart, hg, hst, Bool.not_true, Bool.false_eq_true, if_false, deliverAll_sel, wakeWaits_sel, hp]

/-! ### The group that comes first (R20, R34) -/

/-- Of two groups one comes before the other. -/
theorem pickBefore_total {a b : Group} (h : pickBefore a b = false) : pickBefore b a = true := by
  revert h
  unfold pickBefore
  rcases a.boost with _ | x <;> rcases b.boost with _ | y
  · simp only [Bool.or_eq_false_iff, Bool.and_eq_false_iff, decide_eq_false_iff_not, Bool.or_eq_true, Bool.and_eq_true,
      decide_eq_true_eq]
    omega
  · simp
  · simp
  · simp only [decide_eq_false_iff_not, decide_eq_true_eq]
    omega

theorem firstPick_mem {ls : List (Nat × Group)} {h : Nat × Group} (e : firstPick ls = some h) : h ∈ ls := by
  induction ls generalizing h with
  | nil => cases e
  | cons g gs ih =>
    unfold firstPick at e
    split at e
    next k hk =>
      split at e
      · cases e; exact List.mem_cons_self
      · cases e; exact List.mem_cons_of_mem _ (ih hk)
    · cases e; exact List.mem_cons_self

/-- A group that no other one comes before is picked. -/
theorem firstPick_of_first {ls : List (Nat × Group)} {x : Nat × Group} (hx : x ∈ ls)
    (hfirst : ∀ h ∈ ls, h ≠ x → pickBefore h.2 x.2 = false) : firstPick ls = some x := by
  induction ls with
  | nil => cases hx
  | cons g gs ih =>
    unfold firstPick
    by_cases hin : x ∈ gs
    · rw [ih hin fun h hh => hfirst h (List.mem_cons_of_mem _ hh)]
      dsimp only
      by_cases hg : g = x
      · subst hg; split <;> rfl
      · rw [if_neg (by simp [hfirst g List.mem_cons_self hg])]
    · obtain rfl : x = g := (List.mem_cons.mp hx).resolve_right hin
      split
      next k hk =>
        have hne : k ≠ x := fun e => hin (e ▸ firstPick_mem hk)
        rw [if_pos (pickBefore_total (hfirst k (List.mem_cons_of_mem _ (firstPick_mem hk)) hne))]
      · rfl

/-- The state of a slice that a sweep chooses from: its groups have been settled, the core's gate and their readiness noted. -/
def State.swept (s : State) (core k : Nat) : State :=
  (((s.onSlice core k).foldl (fun t e => t.settleIn e.1) s).gate core).noteReady core k

/-- The groups that a sweep chooses from: the ready ones on duty, without those told to yield where others are left. -/
def State.contenders (s : State) (core k : Nat) : List (Nat × Group) :=
  let ready := (s.onSlice core k).filter fun e => e.2.ready.isSome && s.onDuty e.2
  let keen := ready.filter fun e => !e.2.skip || e.2.boost.isSome
  if keen.isEmpty then ready else keen

/-- Of the contenders a group is picked that is ready and on duty, was not told to yield, and that no other ready group comes before. -/
theorem firstPick_contenders {u : State} {core k gid : Nat} {g : Group} (hm : (gid, g) ∈ u.onSlice core k) (hr : g.ready.isSome)
    (hd : u.onDuty g = true) (hs : g.skip = false)
    (hfirst : ∀ h ∈ u.onSlice core k, h ≠ (gid, g) → h.2.ready.isSome → pickBefore h.2 g = false) :
    firstPick (u.contenders core k) = some (gid, g) := by
  have hkeen : (gid, g) ∈ ((u.onSlice core k).filter fun e => e.2.ready.isSome && u.onDuty e.2).filter fun e =>
      !e.2.skip || e.2.boost.isSome := List.mem_filter.mpr ⟨List.mem_filter.mpr ⟨hm, by simp [hr, hd]⟩, by simp [hs]⟩
  unfold State.contenders
  dsimp only
  rw [if_neg (fun h => List.ne_nil_of_mem hkeen (List.isEmpty_iff.mp h)), firstPick_of_first hkeen]
  intro h hh hne
  obtain ⟨hh, -⟩ := List.mem_filter.mp hh
  obtain ⟨hh, hrd⟩ := List.mem_filter.mp hh
  exact hfirst h hh hne (Bool.and_eq_true_iff.mp hrd).1

/-- A sweep of a slice that is free issues the group picked from the contenders. -/
theorem instructionSweep_of_pick {s : State} {gid : Nat} {g : Group} (hc : s.coreOn s.sel.a = true)
    (hf : (s.swept s.sel.a s.sel.b).sliceFree s.sel.a s.sel.b = true)
    (hp : firstPick ((s.swept s.sel.a s.sel.b).contenders s.sel.a s.sel.b) = some (gid, g)) :
    exec .instructionSweep s = .next ((s.swept s.sel.a s.sel.b).sweepGroup s.sel.a s.sel.b gid) := by
  change execInstructionSweep s = _
  unfold execInstructionSweep
  rw [if_neg (by simp [hc])]
  change (if !(s.swept s.sel.a s.sel.b).sliceFree s.sel.a s.sel.b then _ else
    match firstPick ((s.swept s.sel.a s.sel.b).contenders s.sel.a s.sel.b) with
    | some (gid, _) => Host.Outcome.next ((s.swept s.sel.a s.sel.b).sweepGroup s.sel.a s.sel.b gid)
    | none => _) = _
  rw [if_neg (by simp [hf]), hp]

/-! ### The paths of a sweep (R21, R22) -/

theorem mem_insertPath {p x : Path} {ps : List Path} : x ∈ insertPath p ps ↔ x = p ∨ x ∈ ps := by
  induction ps with
  | nil => simp [insertPath]
  | cons q qs ih =>
    unfold insertPath
    split
    · simp
    · simp only [List.mem_cons, ih]
      exact or_left_comm

theorem mem_insertPaths {x : Path} {ps : List Path} : x ∈ ps.foldr insertPath [] ↔ x ∈ ps := by
  induction ps with
  | nil => rfl
  | cons p ps ih => rw [List.foldr_cons, mem_insertPath, ih, List.mem_cons]

/-- A sweep's paths: the two that come first, or a starved or forced one in the place of the second. -/
theorem choosePaths_cases (g : Group) (ps : List Path) : choosePaths g ps = (ps.foldr insertPath []).take 2 ∨
    ∃ f ∈ ps, choosePaths g ps = ((ps.foldr insertPath []).take 2).take 1 ++ [f] := by
  unfold choosePaths
  dsimp only
  split
  next f hf =>
    split
    · exact .inl rfl
    · obtain ⟨pc, -, hpc⟩ := Option.bind_eq_some_iff.mp hf
      exact .inr ⟨f, List.mem_of_find?_eq_some hpc, rfl⟩
  · exact .inl rfl

theorem choosePaths_length (g : Group) (ps : List Path) : (choosePaths g ps).length ≤ 2 := by
  rcases choosePaths_cases g ps with h | ⟨f, -, h⟩ <;> rw [h]
  · exact List.length_take_le ..
  · simp only [List.length_append, List.length_take, List.length_singleton]
    omega

theorem mem_of_mem_choosePaths {g : Group} {ps : List Path} {p : Path} (hp : p ∈ choosePaths g ps) : p ∈ ps := by
  rcases choosePaths_cases g ps with h | ⟨f, hf, h⟩ <;> rw [h] at hp
  · exact mem_insertPaths.mp (List.mem_of_mem_take hp)
  · rcases List.mem_append.mp hp with hp | hp
    · exact mem_insertPaths.mp (List.mem_of_mem_take (List.mem_of_mem_take hp))
    · exact List.mem_singleton.mp hp ▸ hf

theorem slotsOf_length (s : State) (gid : Nat) (ps : List Path) : (s.slotsOf gid ps).length = ps.length := by
  unfold State.slotsOf
  dsimp only
  split
  · split <;> rfl
  · rw [List.length_map]

/-- A sweep issues the paths chosen from those that are ready, and no others. -/
theorem sweepGroup_issue {s : State} {gid : Nat} {g : Group} (hg : s.group? gid = some g) (core k : Nat) :
    (s.sweepGroup core k gid).issue.length = (choosePaths g (s.readyPaths gid)).length := by
  unfold State.sweepGroup
  rw [hg]
  exact slotsOf_length ..

theorem groupBoost_of_late {s : State} {g : Group} {r : Nat} (hg : s.group? s.sel.a = some g) (hr : g.ready = some r)
    (hb : g.boost = none) (ht : r + 256 ≤ s.cyc (pairOf g.core)) :
    exec .groupBoost s = .next (s.modGroup s.sel.a fun x => { x with boost := some (s.cyc (pairOf g.core)) }) := by
  change execGroupBoost s = _
  simp only [execGroupBoost, hg, hr, hb, if_pos ht]

theorem pathStarvation_forces {s : State} {g : Group} {pc : Nat} (hg : s.group? s.sel.a = some g)
    (hs : g.starved (s.readyPaths s.sel.a) = some pc) :
    exec .pathStarvation s = .next (s.modGroup s.sel.a fun x => { x with forced := some pc }) := by
  change execPathStarvation s = _
  simp only [execPathStarvation, hg, hs]

/-- Settles O46: what starts a clause, which group is picked, and how many of its paths are issued. Which of two groups boosted in one
cycle comes first is the reading of log entry 66. -/
theorem sweepEvents : Obligations.SweepEvents := by
  unfold Obligations.SweepEvents
  refine ⟨?start, ?sweep, ?two, fun g ps => ⟨choosePaths_length g ps, fun p => mem_of_mem_choosePaths⟩,
    fun s g r => groupBoost_of_late, fun s g pc => pathStarvation_forces⟩
  case start =>
    intro s g h pc ls b c v w u hu hg hst hp hw hf hv hs
    subst hu
    rw [clauseStart_of_path hg hst hp, reach_of_clause hg hw hf, startPath_of_startable hv hs]
  case sweep =>
    intro s u gid g hu hc hf hm hr hd hs hfirst _
    subst hu
    exact instructionSweep_of_pick hc hf (firstPick_contenders hm hr hd hs hfirst)
  case two =>
    intro s core k gid
    cases hg : s.group? gid with
    | none => exact .inr rfl
    | some g => exact .inl (sweepGroup_issue hg core k ▸ choosePaths_length ..)

/-! ### Waits that end (R26, R70, R74, R133, R137, R139, R145, R178) -/

theorem trapDelivery_of_deliverable {s : State} (h : s.deliverable s.sel.a s.sel.b = true) :
    exec .trapDelivery s = .next (s.deliverFailure s.sel.a s.sel.b) := by
  change execTrapDelivery s = _
  rw [execTrapDelivery, if_pos h]

/-- An exiting thread with nothing unsettled, no failure and its frame's page present ends. -/
theorem exitDone_of_settled {s : State} {gid l : Nat} {g h : Group} (hg : s.group? gid = some g) (hp : (g.thread l).phase = .exiting)
    (hu : s.unsettled gid l = []) (hd : s.deliverable gid l = false) (hf : s.frameAway gid l = false)
    (hh : ((s.freeFrame gid l).modThread gid l fun x => { x with phase := .exited, clause := none, wait := none }).group? gid = some h) :
    s.exitDone gid l =
      if h.threads.all fun e => e.2.phase = .exited then
        ((s.freeFrame gid l).modThread gid l fun x => { x with phase := .exited, clause := none, wait := none }).retireGroup gid
      else (((s.freeFrame gid l).modThread gid l fun x => { x with phase := .exited, clause := none, wait := none }).recount
        h.team).checkReconv gid := by
  unfold State.exitDone
  rw [hg]
  dsimp only
  rw [if_neg (by simp [hp, hu, hd, hf]), hh]

section

variable {s : State} {g : Group} (hg : s.group? s.sel.a = some g) (hd : s.deliverable s.sel.a s.sel.b = false)

include hg hd

theorem waithReturn_of_passed {a : Word} (hw : (g.thread s.sel.b).wait = some (.waith a)) (hp : s.passed s.sel.a s.sel.b a = true) :
    exec .waithReturn s = .next (s.wake s.sel.a s.sel.b) := by
  change execWaithReturn s = _
  simp only [execWaithReturn, state_thread_eq hg, hw, State.wakeOne, hg, hd, Bool.false_and, Bool.false_eq_true, if_false, hp, if_true]

theorem sleepExpiry_of_over {till : Nat} (hw : (g.thread s.sel.b).wait = some (.sleep till)) (ht : till ≤ s.ctxNow g.ctx) :
    exec .sleepExpiry s = .next (s.wake s.sel.a s.sel.b) := by
  change execSleepExpiry s = _
  simp only [execSleepExpiry, state_thread_eq hg, hw, hg, Option.elim_some, hd, ht, decide_true, Bool.not_false, Bool.and_self, if_true]

end

/-- A promise that is due while its ticket's operation goes on traps, and what stayed with the thread goes on. -/
theorem pwaitNow_of_due {s : State} {gid core : Nat} {t pr : Word} (hc : s.coreOf gid = some core) (ht : (s.ticketOp core t).isSome)
    (hd : s.promiseDue core t pr = true) :
    s.pwaitNow gid t pr = (s.freeNum.2, .recover .promiseMissed (Config.revised s.freeNum.1).toNat) := by
  have hn : (s.ticketOp core t).isNone = false := by simpa [Option.isSome_iff_ne_none] using ht
  simp [State.pwaitNow, elim_core hc, hn, hd]

theorem promiseExpiry_of_due {s : State} {g : Group} {x : Thread} {tk pr : Word} (hg : s.group? s.sel.a = some g)
    (hone : g.threads = [(s.sel.b, x)]) (hw : x.wait = some (.pwait tk pr)) (hd : s.deliverable s.sel.a s.sel.b = false)
    (ht : (s.ticketOp g.core tk).isSome) (hp : s.promiseDue g.core tk pr = true) :
    exec .promiseExpiry s = .next ((s.freeNum.2.trapLanes s.sel.a .recoverable 2
      [(s.sel.b, .promiseMissed, (Config.revised s.freeNum.1).toNat)]).freeWith s.sel.a [s.sel.b]) := by
  have hpc : (g.thread s.sel.b).pc = x.pc := by simp [Group.thread, Map.get, hone, Map.get?_cons]
  have hnow := pwaitNow_of_due (gid := s.sel.a) (by simp [State.coreOf, hg]) ht hp
  change execPromiseExpiry s = _
  unfold execPromiseExpiry
  dsimp only
  rw [hg]
  simp only [hone, List.filterMap_cons, List.filterMap_nil, hw, hpc, hd, decide_true, Bool.not_false, Bool.and_self, if_true,
    List.foldl_cons, List.foldl_nil, hnow, List.nil_append, reduceCtorEq, if_false]
  rfl

/-! ### A `WAITF` on scratchpad (R137, R139) -/

section

variable {s : State} {x : WfX} (hw : x.w64 = false) (ha : x.acq = false) (hp : x.pr = none)

theorem extract_ofNat (n : Nat) : (BitVec.ofNat 64 n).extractLsb' 0 32 = BitVec.ofNat 32 n := by
  apply BitVec.eq_of_toNat_eq
  simp

include hw ha hp

/-- What a word that a `WAITF` reads makes of it. -/
theorem wfGot_plain (gid l : Nat) (d : Opnd) (addr : Nat) (b : DWord) (start : Nat) (bs : List Byte) :
    s.wfGot gid l x d addr b start bs =
      if wfCond x.cc false (BitVec.ofNat 64 (ofBytes bs)) b = true ∨ s.wfLate gid x start = true then
        (s.dstWait gid l d (BitVec.ofNat 32 (ofBytes bs)), .next)
      else (s, .wait (.waitf x d addr b start)) := by
  unfold State.wfGot
  simp only [hw, ha, State.wfPair, hp, extract_ofNat, Bool.false_eq_true, if_false]
  by_cases hc : wfCond x.cc false (BitVec.ofNat 64 (ofBytes bs)) b = true
  · simp [hc]
  · cases s.wfLate gid x start <;> simp [hc]

omit ha hp in
theorem wfStep_scratch {gid l : Nat} {g : Group} {d : Opnd} {addr : Nat} {b : DWord} {start : Nat} {t : State} {bs : List Byte}
    (hg : s.group? gid = some g) (hs : x.spc = .scratch) (ho : s.ownBefore gid l x.spc addr 4 = false)
    (hr : s.spaceRead x.spc gid g.ctx g.core addr 4 { r := true } = .ok (t, bs)) :
    s.wfStep gid l x d addr b start = t.wfGot gid l x d addr b start bs := by
  rw [hs] at ho hr
  unfold State.wfStep
  rw [hg]
  dsimp only
  simp [hw, hs, ho, hr]

theorem wfAgain_scratch {gid l : Nat} {g : Group} {d : Opnd} {addr : Nat} {b : DWord} {start : Nat} {t : State} {bs : List Byte}
    (hg : s.group? gid = some g) (hwait : (g.thread l).wait = some (.waitf x d addr b start)) (hd : s.deliverable gid l = false)
    (hs : x.spc = .scratch) (ho : s.ownBefore gid l x.spc addr 4 = false)
    (hr : s.spaceRead x.spc gid g.ctx g.core addr 4 { r := true } = .ok (t, bs)) :
    s.wfAgain gid l =
      if wfCond x.cc false (BitVec.ofNat 64 (ofBytes bs)) b = true ∨ t.wfLate gid x start = true then
        (t.dstWait gid l d (BitVec.ofNat 32 (ofBytes bs))).wake gid l
      else t := by
  unfold State.wfAgain
  rw [state_thread_eq hg, hwait]
  dsimp only
  rw [if_neg (by simp [hd]), wfStep_scratch hw hg hs ho hr, wfGot_plain hw ha hp]
  by_cases hc : wfCond x.cc false (BitVec.ofNat 64 (ofBytes bs)) b = true ∨ t.wfLate gid x start = true
  · simp only [if_pos hc, State.wfOver, State.wfShare, hp]
  · simp only [if_neg hc]

end

theorem waitfWake_of_awake {s : State} (h : (s.thread s.sel.a s.sel.b).parked = false) :
    exec .waitfWake s = .next (s.wfAgain s.sel.a s.sel.b) := by
  change execWaitfWake s = _
  rw [execWaitfWake, if_neg (by simp [h])]

theorem waitfTimeout_of_late {s : State} {x : WfX} {d : Opnd} {addr : Nat} {b : DWord} {start : Nat}
    (hw : (s.thread s.sel.a s.sel.b).wait = some (.waitf x d addr b start)) (hp : (s.thread s.sel.a s.sel.b).parked = false)
    (hl : s.wfLate s.sel.a x start = true) : exec .waitfTimeout s = .next (s.wfAgain s.sel.a s.sel.b) := by
  change execWaitfTimeout s = _
  simp [execWaitfTimeout, hw, hl, hp]

/-! ### Results for names that have been released (R26) -/

theorem dstWait_of_lost {s : State} {gid l : Nat} {n : Fin 64} (w : Word) (hw : (s.thread gid l).wait.isSome = true)
    (hn : n.val ∈ (s.thread gid l).lost) : s.dstWait gid l (.v n) w = s := by
  simp [State.dstWait, hw, hn]

theorem dstWait_of_kept {s : State} {gid l : Nat} {d : Opnd} (w : Word) (hd : ∀ n, d = .v n → n.val ∉ (s.thread gid l).lost) :
    s.dstWait gid l d w = s.dst32 gid l d w := by
  cases d with
  | v n => simp [State.dstWait, hd n rfl]
  | _ => rfl

theorem mem_lost_of_unmap {s : State} {gid : Nat} {ns : List Nat} {h : Group} {l : Nat} {x : Thread}
    (hh : (s.unmap gid ns).group? gid = some h) (hx : h.thread? l = some x) (hw : x.wait.isSome = true) {n : Nat} (hn : n ∈ ns) :
    n ∈ x.lost := by
  rw [State.unmap, group?_modGroup] at hh
  obtain ⟨g, -, rfl⟩ := Option.map_eq_some_iff.mp hh
  simp only [Group.thread?, Map.get?_modAll] at hx
  obtain ⟨y, -, rfl⟩ := Option.map_eq_some_iff.mp hx
  simp only at hw ⊢
  rw [if_pos hw]
  exact List.mem_append_left _ hn

/-- Settles O48: each event by the lemma about it. The revised promise of a `PWAIT` is a free value (log entry 7). -/
theorem waitEvents : Obligations.WaitEvents := by
  unfold Obligations.WaitEvents
  refine ⟨fun s => trapDelivery_of_deliverable, ?exit, fun s g a hg hw hp hd => waithReturn_of_passed hg hd hw hp, ?waitf, ?result,
    fun s gid ns h l x hh hx hw n => mem_lost_of_unmap hh hx hw, fun s g till hg hw ht hd => sleepExpiry_of_over hg hd hw ht,
    fun s g x tk pr hg hone hw hd ht hp => promiseExpiry_of_due hg hone hw hd ht hp⟩
  case exit =>
    intro s g hg hp hu hd hf t h hh
    exact congrArg Host.Outcome.next (exitDone_of_settled hg hp hu hd hf hh)
  case waitf =>
    intro s g x d addr b start t bs hg hwait hpark hd hs hw ha hp ho hr
    have hth := state_thread_eq hg s.sel.b
    have hwake := (waitfWake_of_awake (hth ▸ hpark)).trans
      (congrArg Host.Outcome.next (wfAgain_scratch hw ha hp hg hwait hd hs ho hr))
    refine ⟨fun hc => ?_, fun hc hl => ?_, fun hc hl hs' => ?_⟩
    · rw [hwake, if_pos (.inl hc)]
    · rw [hwake, if_neg (by simp [hc, hl])]
    · rw [waitfTimeout_of_late (hth ▸ hwait) (hth ▸ hpark) hs', wfAgain_scratch hw ha hp hg hwait hd hs ho hr, if_pos (.inr hl)]
  case result =>
    intro s gid l d w g x hg hx t
    have hth : s.thread gid l = x := (state_thread_eq hg l).trans (thread_eq_of_thread? hx)
    refine ⟨fun hw hn => ?_, fun hn => dstWait_of_kept w (hth ▸ hn)⟩
    obtain ⟨n, rfl, hn⟩ := hn
    exact dstWait_of_lost w (hth ▸ hw) (hth ▸ hn)

end Sys2Proof.Machine
end

section
/-!
Proofs. Errors, lost and offline dies, time-stop, snapshots, expanders and contexts: what each of these events does (R309, R322, R360,
R405 to R408).
-/

namespace Sys2Proof.Machine

/-! ### Errors (R405) -/

theorem scrubRead_of_error {s : State} (h : s.sel.flag = true) :
    exec .scrubRead s = .next (s.modDie s.sel.a fun d => { d with errs := d.errs + 1 }) := by
  change execScrubRead s = _
  rw [execScrubRead, if_pos h]

/-- The line of an uncorrectable error is poisoned and leaves every L1. -/
def spoilt (s : State) : State :=
  { s with
    poison := lineOf s.sel.a :: s.poison.filter (· ≠ lineOf s.sel.a)
    cores := Map.modAll (fun _ k => { k with l1 := Map.del (lineOf s.sel.a / 256) k.l1 }) s.cores }

theorem leavesAt_spoilt (s : State) (home root : Nat) : (spoilt s).leavesAt home 2 root 0 = s.leavesAt home 2 root 0 := rfl

theorem leaves_spoilt (s : State) (c home : Nat) : (spoilt s).leaves c home = s.leaves c home := by
  simp only [State.leaves, leavesAt_spoilt]
  rfl

/-- Poison and caches say nothing about whose a line is. -/
theorem ownerOf_spoilt (s : State) (a : Nat) : (spoilt s).ownerOf a = s.ownerOf a := by
  simp only [State.ownerOf, State.coverers, leaves_spoilt]
  rfl

theorem uncorrectableError_of_owner {s : State} {c : Nat} (h : s.ownerOf s.sel.a = some c) :
    exec .uncorrectableError s = .next ((spoilt s).kill c .contextKilled) := by
  change (match (spoilt s).ownerOf s.sel.a with
    | some c => Host.Outcome.next ((spoilt s).kill c .contextKilled)
    | none => .next (spoilt s)) = _
  rw [ownerOf_spoilt, h]

theorem uncorrectableError_of_shared {s : State} (h : s.ownerOf s.sel.a = none) :
    exec .uncorrectableError s = .next (spoilt s) := by
  change (match (spoilt s).ownerOf s.sel.a with
    | some c => Host.Outcome.next ((spoilt s).kill c .contextKilled)
    | none => .next (spoilt s)) = _
  rw [ownerOf_spoilt, h]

theorem poisoned_spoilt {s : State} {a n : Nat} (h : s.poisoned a n = true) : (spoilt s).poisoned a n = true := by
  obtain ⟨p, hp, ht⟩ := List.any_eq_true.mp h
  refine List.any_eq_true.mpr ⟨p, ?_, ht⟩
  by_cases he : p = lineOf s.sel.a
  · exact he ▸ List.mem_cons_self
  · exact List.mem_cons_of_mem _ (List.mem_filter.mpr ⟨hp, by simpa using he⟩)

/-! ### Contexts that are killed (R405, R406) -/

/-- A killed context is marked so and armed no more. -/
theorem kill_ctx {s : State} {c : Nat} {cause : Cause} {y : Ctx} (h : (s.kill c cause).ctx? c = some y) :
    y.killed = true ∧ y.armed = [] := by
  simp only [State.kill, State.ctx?, modCtx_ctxs, Map.get?_mod] at h
  obtain ⟨x, -, rfl⟩ := Option.map_eq_some_iff.mp h
  exact ⟨rfl, rfl⟩

/-- What a list keeps of what is not a context's is not the context's. -/
theorem ne_of_mem_filter {α : Type} {q : α → Nat} {c : Nat} {ls : List α} {e : α} (h : e ∈ ls.filter fun e => q e ≠ c) : q e ≠ c :=
  of_decide_eq_true (List.mem_filter.mp h).2

theorem kill_bins {s : State} {c : Nat} {cause : Cause} : ∀ e ∈ (s.kill c cause).cores, ∀ r ∈ e.2.bin, r.ctx ≠ c := by
  intro e he r hr
  rw [State.kill] at he
  obtain ⟨e, -, rfl⟩ := List.mem_map.mp he
  exact ne_of_mem_filter hr

/-! ### Dies that are lost (R309, R406) -/

/-- What the loss of a die leaves to be done when its contexts have been killed. -/
def State.afterLoss (s : State) (d : Nat) : State := if 8 ≤ d then s.moveProgs d else if d < 4 then s.dropAcks d else s

theorem dieFailure_of_die {s : State} (h : s.sel.a < 10) : exec .dieFailure s =
    .next (((s.ctxs.filter fun c => c.2.touched.getLsbD s.sel.a && !c.2.killed).foldl (fun s c => s.kill c.1 .dieLost)
      (s.modDie s.sel.a fun y => { y with st := .lost })).afterLoss s.sel.a) := by
  change execDieFailure s = _
  unfold execDieFailure State.afterLoss
  dsimp only
  rw [if_neg (by omega)]
  by_cases h8 : 8 ≤ s.sel.a
  · simp only [h8, if_true, show ¬ s.sel.a < 4 by omega, if_false]
    rfl
  · simp only [h8, if_false]
    split <;> rfl

theorem dieFailure_of_untouched {s : State} (h : s.sel.a < 10)
    (hn : ∀ e ∈ s.ctxs, e.2.touched.getLsbD s.sel.a = false ∨ e.2.killed = true) :
    exec .dieFailure s = .next ((s.modDie s.sel.a fun y => { y with st := .lost }).afterLoss s.sel.a) := by
  have hnone : s.ctxs.filter (fun c => c.2.touched.getLsbD s.sel.a && !c.2.killed) = [] := by
    rw [List.filter_eq_nil_iff]
    intro e he
    rcases hn e he with ht | hk
    · rw [ht]; simp
    · simp [hk]
  rw [dieFailure_of_die h, hnone, List.foldl_nil]

theorem dieFailure_of_touched {s : State} {c : Nat} {x : Ctx} (h : s.sel.a < 10) (hc : s.ctxs = [(c, x)])
    (ht : x.touched.getLsbD s.sel.a = true) (hk : x.killed = false) :
    exec .dieFailure s = .next (((s.modDie s.sel.a fun y => { y with st := .lost }).kill c .dieLost).afterLoss s.sel.a) := by
  have hone : s.ctxs.filter (fun c => c.2.touched.getLsbD s.sel.a && !c.2.killed) = [(c, x)] := by
    rw [hc, List.filter_cons, if_pos (by rw [ht, hk]; rfl), List.filter_nil]
  rw [dieFailure_of_die h, hone, List.foldl_cons, List.foldl_nil]

theorem dieServes_of_lost {s : State} {d : Nat} (h : (s.die d).st = .lost) : s.dieServes d = false := by
  simp [State.dieServes, h]

theorem translate_of_lost_home {s : State} {ctx va die : Nat} {p : Perm} {sys : Bool} (hv : vaOk va = true)
    (hr : s.remote? va = none) (he : s.epoch? ctx va = none) (hl : (s.die (vaHome va)).st = .lost) :
    s.translate ctx va p sys die = .error (.cause .translation) := by
  have hleaf : s.leafOf ctx va = .error (.cause .translation) := by
    simp [State.leafOf, he, dieServes_of_lost hl]
  simp [State.translate, hv, hr, hleaf]

theorem bankFail_of_lost {s : State} {ctx a n d : Nat} (hd : d ∈ bankDies a n) (hl : (s.die d).st = .lost) :
    s.bankFail ctx a n = some .translation := by
  have hall : (bankDies a n).all s.dieServes = false :=
    List.all_eq_false.mpr ⟨d, hd, by simp [dieServes_of_lost hl]⟩
  simp [State.bankFail, hall]

/-! ### Time-stop, snapshots and expanders (R360, R407, R408) -/

theorem debugHalt_of_die {s : State} (h : s.sel.a < 10) :
    exec .debugHalt s = .next (s.modDie s.sel.a fun d => { d with halted := true }).timeStops := by
  change execDebugHalt s = _
  rw [execDebugHalt, if_pos h]

theorem debugRelease_of_die {s : State} (h : s.sel.a < 10) :
    exec .debugRelease s = .next (s.modDie s.sel.a fun d => { d with halted := false }).timeStops := by
  change execDebugRelease s = _
  rw [execDebugRelease, if_pos h]

theorem trigger_eq (s : State) : s.trigger = { s with
    snap := if s.snap.latched then s.snap else { s.snap with latched := true, tick := s.rtime } } := by
  unfold State.trigger
  split <;> rfl

theorem snapIn_latches {s : State} (h : 10 ≤ s.sel.a) : exec .snapIn s = .next { s with
    snap := if s.snap.latched then s.snap else { s.snap with latched := true, tick := s.rtime } } := by
  change execSnapIn s = _
  rw [execSnapIn, if_pos h, trigger_eq]

theorem cxlExpanderRemoval_of_present {s : State} (h : s.sel.a < 4) (hn : s.sel.a ∉ s.cxlOut) :
    exec .cxlExpanderRemoval s = .next { s with
      cxlOut := s.sel.a :: s.cxlOut
      near := Map.modAll (fun _ ls => ls.filter fun n =>
        !(decide (cxlBase s.sel.a ≤ 256 * n) && decide (256 * n < cxlBase (s.sel.a + 1)))) s.near
      cores := Map.modAll (fun _ k => { k with l1 := k.l1.filter fun e =>
        !(decide (cxlBase s.sel.a ≤ 256 * e.1) && decide (256 * e.1 < cxlBase (s.sel.a + 1))) }) s.cores } := by
  change execCxlExpanderRemoval s = _
  exact if_pos (by simp [h, hn])

/-! ### Dies that go offline as planned (R322) -/

theorem plannedDieOffline_of_module {s : State} (h : 4 ≤ s.sel.a) (h' : s.sel.a < 10) (ho : (s.die s.sel.a).st = .online) :
    exec .plannedDieOffline s = .next (if 8 ≤ s.sel.a then (s.modDie s.sel.a fun x => { x with st := .offline }).moveProgs s.sel.a
      else s.modDie s.sel.a fun x => { x with st := .offline }) := by
  change execPlannedDieOffline s = _
  unfold execPlannedDieOffline
  dsimp only
  rw [if_neg (by simp [ho, h']), if_neg (by omega)]

theorem plannedDieOffline_of_memory {s : State} (h : s.sel.a < 4)
    (ho : (s.die s.sel.a).st = .online ∨ (s.die s.sel.a).st = .retained) :
    exec .plannedDieOffline s = .next (((s.evacuate s.sel.a).dropAcks s.sel.a).modDie s.sel.a fun x =>
      { x with st := if ((s.evacuate s.sel.a).dropAcks s.sel.a).holdsDie s.sel.a then .retained else .offline }) := by
  change execPlannedDieOffline s = _
  unfold execPlannedDieOffline
  dsimp only
  rw [if_neg (by rcases ho with ho | ho <;> simp [ho, h] <;> omega), if_pos h]

@[simp] theorem die_modDie (s : State) (d : Nat) (f : Die → Die) : (s.modDie d f).die d = f (s.die d) := Map.get_put d _ _ _

theorem retainedStateExit_of_empty {s : State} (h : (s.die s.sel.a).st = .retained) (hn : s.holdsDie s.sel.a = false) :
    exec .retainedStateExit s = .next (s.modDie s.sel.a fun x => { x with st := .offline }) := by
  change execRetainedStateExit s = _
  exact if_pos (by simp [h, hn])

theorem coreRestartEnd_of_due {s : State} {e : Nat} (h : (s.core s.sel.a).restart = some e) (ht : e ≤ s.cyc (pairOf s.sel.a)) :
    exec .coreRestartEnd s = .next (s.modCore s.sel.a fun x => { x with gated := false, restart := none }) := by
  change execCoreRestartEnd s = _
  simp only [execCoreRestartEnd, h, if_pos ht]

/-! ### Contexts that are created, set up again and ended -/

section

variable {s : State} (hb : s.boot.st = .running) (ha : s.sel.a < 64) (hw : s.sel.cfg.windows.length ≤ 16)
  (hg : s.sel.cfg.grants.length ≤ 64) (hm : CtxCfg.beyond s.sel.cfg = none)

include hb ha hw hg hm

theorem contextCreation_of_new (hc : s.ctx? s.sel.a = none) :
    exec .contextCreation s = .next { s with ctxs := Map.put s.sel.a { cfg := s.sel.cfg } s.ctxs } := by
  change execContextCreation s = _
  unfold execContextCreation
  rw [hb]
  dsimp only
  rw [if_neg (by simp [hc]; omega), hm]
  exact if_neg (by simp [hc])

theorem contextCreation_of_known {x : Ctx} (hc : s.ctx? s.sel.a = some x) (hf : s.sel.flag = true) :
    exec .contextCreation s = .next (s.reconfigure s.sel.a s.sel.cfg (BitVec.ofNat 10 s.sel.b)) := by
  change execContextCreation s = _
  unfold execContextCreation
  rw [hb]
  dsimp only
  rw [if_neg (by simp [hc, hf]; omega), hm]
  exact if_pos (by simp [hc])

end

theorem reconfigure_of_idle {s : State} {c : Nat} (cfg : CtxCfg) (clear : BitVec 10) (h : ∀ e ∈ s.groups, e.2.ctx ≠ c) :
    s.reconfigure c cfg clear = s.modCtx c fun y => { y with
      cfg := { cfg with sys := y.cfg.sys }, touched := y.touched &&& ~~~clear } := by
  have hbusy : (s.groups.any fun e => decide (e.2.ctx = c)) = false := by simpa using fun a b hm => h (a, b) hm
  unfold State.reconfigure
  simp only [hbusy, Bool.false_eq_true, if_false]

theorem ctx?_del_ne {s : State} {c k : Nat} (h : k ≠ c) : Map.get? (Map.del c s.ctxs) k = s.ctx? k :=
  Map.get?_filter_of _ _ _ fun _ => by simpa using h

theorem contextEnd_of_idle {s : State} (hc : (s.ctx? s.sel.a).isSome) (hg : ∀ e ∈ s.groups, e.2.ctx ≠ s.sel.a)
    (ht : ∀ e ∈ s.teams, e.2.ctx ≠ s.sel.a) :
    ∃ t, exec .contextEnd s = .next t ∧ t.ctxs = Map.del s.sel.a s.ctxs ∧ t.mem = s.mem ∧ t.groups = s.groups ∧
      t.teams = s.teams ∧ t.grids = s.grids.filter fun e => e.2.ctx ≠ s.sel.a := by
  have hgroups : (s.groups.any fun e => decide (e.2.ctx = s.sel.a)) = false := by simpa using fun a b hm => hg (a, b) hm
  have hteams : (s.teams.any fun e => decide (e.2.ctx = s.sel.a)) = false := by simpa using fun a b hm => ht (a, b) hm
  have hn : (s.ctx? s.sel.a).isNone = false := by simpa [Option.isSome_iff_ne_none] using hc
  refine ⟨_, (if_neg (by simp [hgroups, hteams, hn]) : execContextEnd s = _), rfl, rfl, rfl, rfl, rfl⟩

/-- Settles O34: each event by the lemma about it. What an event changes of what was set up for a context is the reading of log
entry 41. -/
theorem errorAndDebugEvents : Obligations.ErrorAndDebugEvents := by
  unfold Obligations.ErrorAndDebugEvents
  refine ⟨fun s => scrubRead_of_error, ?shared, fun s c => uncorrectableError_of_owner, ?killed, fun s => dieFailure_of_untouched,
    fun s c x ha hc ht hk => dieFailure_of_touched ha hc ht hk, fun s ctx va p sys die => translate_of_lost_home,
    fun s ctx a n d => bankFail_of_lost, fun s => debugHalt_of_die, fun s => debugRelease_of_die, fun s => snapIn_latches,
    fun s => rfl, fun s => cxlExpanderRemoval_of_present, ?fabric, ?belay, ?memory, fun s => retainedStateExit_of_empty,
    fun s e => coreRestartEnd_of_due, fun s hb ha hc hw hg hm => contextCreation_of_new hb ha hw hg hm hc, ?again, ?ended⟩
  case shared =>
    exact fun s h => ⟨spoilt s, uncorrectableError_of_shared h, List.mem_cons_self, rfl, rfl, rfl, fun a n => poisoned_spoilt⟩
  case killed =>
    intro s c cause t
    exact ⟨fun y => kill_ctx, fun e => ne_of_mem_filter, fun e => ne_of_mem_filter, fun e => ne_of_mem_filter,
      fun e => ne_of_mem_filter, kill_bins⟩
  case fabric =>
    intro s h8 h4 ho
    rw [plannedDieOffline_of_module h4 (by omega) ho, if_neg (by omega)]
  case belay =>
    intro s ha ho
    rw [plannedDieOffline_of_module (by omega) (by omega) ho, if_pos (by omega)]
  case memory =>
    intro s ha ho
    exact ⟨_, plannedDieOffline_of_memory ha ho, by rw [die_modDie], rfl⟩
  case again =>
    intro s x hb ha hc hf hw hg hm hidle
    rw [contextCreation_of_known hb ha hw hg hm hc hf, reconfigure_of_idle _ _ hidle]
  case ended =>
    intro s hc hg ht
    obtain ⟨t, he, hctxs, hmem, hgroups, hteams, hgrids⟩ := contextEnd_of_idle hc hg ht
    refine ⟨t, he, ?_, hmem, hgroups, hteams, fun e hm => ?_, fun c hne => ?_⟩
    · rw [State.ctx?, hctxs, Map.get?_del]
    · rw [hgrids] at hm
      exact ne_of_mem_filter (q := fun e : Nat × Grid => e.2.ctx) hm
    · rw [State.ctx?, hctxs, ctx?_del_ne hne]

end Sys2Proof.Machine
end

section
/-!
Proofs. The state after reset and the groups of a team that is placed: drawing register blocks changes of a group only what names
its blocks, so that a group stands as it was put (R24, R27, R153).
-/

namespace Sys2Proof.Machine

/-! ### A group that is put on its slice -/

/-- A thread as its group starts. -/
def GroupInit.thread (i : GroupInit) (l : Nat) : Thread :=
  { pc := i.pc, phase := if i.live l then .active else .exited, teamThread := i.tthread l
    v := if i.live l then ((List.range (i.vec l).length).zip (i.vec l)) else [] }

/-- A group as it starts, at its age. -/
def GroupInit.group (i : GroupInit) (age : Nat) : Group :=
  { ctx := i.ctx, team := i.team, core := i.core, slice := i.slice, w := i.w, kind := i.kind, cbase := i.cbase
    groupId := BitVec.ofNat 32 i.idx, cls := i.cls, prio := i.prio, age := age, s := i.uni
    threads := (List.range i.w).map fun l => (l, i.thread l) }

theorem entries_addGroup (s : State) (gid : Nat) (i : GroupInit) : (s.addGroup gid i).entries =
    State.entries { s with groups := Map.put gid (i.group s.nextId) s.groups } := by
  change State.entries (match State.mapNames { s with
      groups := Map.put gid (i.group s.nextId) s.groups, nextId := s.nextId + 1 } gid i.names with
    | some t => t
    | none => State.modGroup _ gid fun g => g.remap i.names) = _
  split
  next t ht => exact (entries_mapNames ht :)
  next => exact entries_modGroup _ _ (unblocked_remap _)

theorem mem_put_of_mem {β : Type} {m : Map β} {k j : Nat} {v w : β} (h : (j, w) ∈ Map.put k v m) : (j = k ∧ w = v) ∨ (j, w) ∈ m := by
  rcases List.mem_append.mp h with h | h
  · exact .inr (List.mem_filter.mp h).1
  · rcases List.mem_cons.mp h with h | h
    · cases h
      exact .inl ⟨rfl, rfl⟩
    · exact .inr (List.mem_filter.mp h).1

/-- What is listed after a group is put is that group or was listed. -/
theorem mem_entries_addGroup {s : State} {gid k : Nat} {i : GroupInit} {h : Group} (hm : (k, h) ∈ (s.addGroup gid i).entries) :
    h = (i.group s.nextId).unblocked ∨ (k, h) ∈ s.entries := by
  rw [entries_addGroup] at hm
  obtain ⟨⟨j, x⟩, hx, heq⟩ := List.mem_map.mp hm
  cases heq
  rcases mem_put_of_mem hx with ⟨-, rfl⟩ | hx
  · exact .inl rfl
  · exact .inr (mem_entries hx)

theorem thread?_group (i : GroupInit) (age l : Nat) {x : Thread} (h : (i.group age).thread? l = some x) : l < i.w ∧ x = i.thread l := by
  suffices ∀ ls : List Nat, Map.get? (ls.map fun l => (l, i.thread l)) l = some x → l ∈ ls ∧ x = i.thread l by
    obtain ⟨hl, hx⟩ := this _ h
    exact ⟨List.mem_range.mp hl, hx⟩
  intro ls h
  induction ls with
  | nil => cases h
  | cons k ls ih =>
    rw [List.map_cons, Map.get?_cons] at h
    split at h
    next hk =>
      cases h; cases hk
      exact ⟨List.mem_cons_self, rfl⟩
    next =>
      obtain ⟨hl, hx⟩ := ih h
      exact ⟨List.mem_cons_of_mem _ hl, hx⟩

/-! ### The groups of a team -/

@[simp] theorem groups_freshScratch (s : State) (core base len ctx : Nat) : (s.freshScratch core base len ctx).groups = s.groups :=
  foldl_keeps State.groups (fun _ _ => by dsimp only; split <;> rfl) _ _

@[simp] theorem groups_freshTiles (s : State) (core ctx : Nat) : (s.freshTiles core ctx).1.groups = s.groups := by
  unfold State.freshTiles
  split
  · refine foldl_keeps (fun r : State × Map Tile => r.1.groups) (fun r t => ?_) _ _
    exact foldl_keeps (fun r : State × Map DWord => r.1.groups) (by exact fun _ _ => rfl) t.2.e (r.1, [])
  · rfl

@[simp] theorem groups_addTo (s : State) (tid : Nat) (t : Team) : (t.addTo s tid).groups = s.groups := by
  unfold Team.addTo
  dsimp only
  split <;> rfl

@[simp] theorem groups_acquire (s : State) (k : Nat) (sc : Scope) : (s.acquire k sc).groups = s.groups := by
  unfold State.acquire
  split <;> rfl

/-- What group `e.1` of a team without shadow groups starts with, on slice `e.2` (R24). -/
def Grid.entryOf (g : Grid) (tid core idx : Nat) (e : Nat × Nat) : GroupInit :=
  let w (n : Nat) : Word := BitVec.ofNat 32 n
  { ctx := g.ctx, team := tid, core := core, slice := e.2, w := g.r.w, cbase := g.r.entry, pc := 0, idx := e.1, cls := g.r.cls
    prio := g.r.prio, kind := .plain, live := fun l => decide (e.1 * g.r.w + l < g.r.nthr)
    uni := [(0, w g.r.args), (1, w (g.r.args / 2 ^ 32)), (2, w idx), (3, w g.r.teams), (4, w g.r.nthr)]
    vec := fun l => [w (e.1 * g.r.w + l)], tthread := fun l => w (e.1 * g.r.w + l), names := [0] }

/-- Puts one group of a team under the next free number; the number after it would be its shadow group's. -/
def State.enter (g : Grid) (tid core idx : Nat) (s : State) (e : Nat × Nat) : State :=
  State.addGroup { s with nextId := s.nextId + 2 } s.nextId (g.entryOf tid core idx e)

/-- A team without shadow groups is placed by putting its groups, one after the other, where the groups are what they were. -/
theorem placeTeam_of_plain (s : State) (gr : Nat) {g : Grid} (idx core cl rank : Nat) (p : List Nat × Nat)
    (h : g.r.shadow = false) : ∃ u tid, u.groups = s.groups ∧ s.placeTeam gr g idx core cl rank p =
      ((List.range p.1.length).zip p.1).foldl (State.enter g tid core idx) u := by
  unfold State.placeTeam
  simp only [h]
  refine ⟨_, _, ?_, rfl⟩
  rw [groups_acquire, groups_addTo]
  cases g.r.mtx <;> cases g.r.paired <;>
    simp only [if_true, if_false, Bool.false_eq_true, groups_freshTiles, groups_freshScratch] <;> rfl

theorem mem_entries_enter {g : Grid} {tid core idx k : Nat} {h : Group} {ls : List (Nat × Nat)} {s : State}
    (hm : (k, h) ∈ (ls.foldl (State.enter g tid core idx) s).entries) :
    (∃ e age, h = ((g.entryOf tid core idx e).group age).unblocked) ∨ (k, h) ∈ s.entries := by
  induction ls generalizing s with
  | nil => exact .inr hm
  | cons e ls ih =>
    rcases ih hm with hnew | hm
    · exact .inl hnew
    · exact (mem_entries_addGroup hm).imp_left fun heq => ⟨e, _, heq⟩

/-- A group that placing a team has added stands as `Grid.entryOf` says, but for its register blocks. -/
theorem unblocked_of_placed {s : State} {gr : Nat} {g : Grid} {idx core cl rank : Nat} {p : List Nat × Nat} {gid : Nat} {h : Group}
    (hs : g.r.shadow = false) (hm : (gid, h) ∈ (s.placeTeam gr g idx core cl rank p).groups) (hnew : ∀ x, (gid, x) ∉ s.groups) :
    ∃ tid e age, h.unblocked = ((g.entryOf tid core idx e).group age).unblocked := by
  obtain ⟨u, tid, hu, hp⟩ := placeTeam_of_plain s gr idx core cl rank p hs
  rcases mem_entries_enter (hp ▸ mem_entries hm) with ⟨e, age, heq⟩ | hold
  · exact ⟨tid, e, age, heq⟩
  · obtain ⟨x, hx⟩ := of_mem_entries hold
    exact absurd (hu ▸ hx) (hnew x)

/-- A value that every listed key has and that stands for the others is every key's. -/
theorem get_map_const {β : Type} (ls : List Nat) (v : β) (k : Nat) : Map.get (ls.map fun d => (d, v)) k v = v := by
  unfold Map.get
  induction ls with
  | nil => rfl
  | cons d ls ih =>
    rw [List.map_cons, Map.get?_cons]
    split
    · rfl
    · exact ih

/-- A uniform register from 5 on is none of those that the launch writes. -/
theorem uni_entryOf_rest (g : Grid) (tid core idx : Nat) (e : Nat × Nat) {n : Nat} (h : 5 ≤ n) :
    Map.get (g.entryOf tid core idx e).uni n 0 = 0 := by
  simp only [Map.get, Grid.entryOf, Map.get?_cons, Map.get?_nil, show ¬ 0 = n by omega, show ¬ 1 = n by omega,
    show ¬ 2 = n by omega, show ¬ 3 = n by omega, show ¬ 4 = n by omega, if_false, Option.getD_none]

theorem thread_entryOf_live {g : Grid} (tid core idx : Nat) {e : Nat × Nat} {l : Nat} (h : e.1 * g.r.w + l < g.r.nthr) :
    ((g.entryOf tid core idx e).thread l).phase = .active ∧
      ((g.entryOf tid core idx e).thread l).v = [(0, BitVec.ofNat 32 (e.1 * g.r.w + l))] := by
  simp only [GroupInit.thread, Grid.entryOf, h, decide_true, if_true]
  exact ⟨trivial, rfl⟩

theorem thread_entryOf_dead {g : Grid} (tid core idx : Nat) {e : Nat × Nat} {l : Nat} (h : g.r.nthr ≤ e.1 * g.r.w + l) :
    ((g.entryOf tid core idx e).thread l).phase = .exited := by
  simp only [GroupInit.thread, Grid.entryOf, Nat.not_lt.mpr h, decide_false, Bool.false_eq_true, if_false]

/-- Settles O54: reset by evaluation; a placed group by what drawing its register block leaves of it. -/
theorem resetAndKernelEntry : Obligations.ResetAndKernelEntry := by
  unfold Obligations.ResetAndKernelEntry
  refine ⟨⟨rfl, rfl, rfl, rfl, rfl, rfl, rfl, rfl, rfl, rfl, rfl, rfl, rfl, fun d => ?_, fun d => ?_, rfl⟩, ?_⟩
  · exact congrArg Die.st (get_map_const (List.range 10) {} d)
  · exact congrArg Pair.cyc (get_map_const (List.range 4) {} d)
  · intro s gr g idx core cl rank p gid h hs hm hnew
    obtain ⟨tid, e, age, heq⟩ := unblocked_of_placed hs hm hnew
    have field {α : Type} (q : Group → α) (hq : ∀ x, q x.unblocked = q x) : q h = q ((g.entryOf tid core idx e).group age) := by
      rw [← hq, heq, hq]
    refine ⟨e.1, field Group.groupId fun _ => rfl, field Group.kind fun _ => rfl, field Group.core fun _ => rfl,
      field Group.w fun _ => rfl, field Group.cbase fun _ => rfl, ?_⟩
    rw [field Group.s fun _ => rfl]
    refine ⟨rfl, rfl, rfl, rfl, rfl, fun n hn => uni_entryOf_rest g tid core idx e hn, field Group.p fun _ => rfl,
      field Group.f fun _ => rfl, field Group.flags fun _ => rfl, field Group.trapen fun _ => rfl,
      field Group.gmShape fun _ => rfl, field Group.gmMode fun _ => rfl, fun l x hx => ?_⟩
    rw [field (fun y => y.thread? l) fun _ => rfl] at hx
    obtain ⟨hl, rfl⟩ := thread?_group _ _ _ hx
    refine ⟨hl, rfl, rfl, rfl, rfl, rfl, rfl, rfl, fun hlive => ?_, fun hdead => thread_entryOf_dead tid core idx hdead⟩
    obtain ⟨hph, hv⟩ := thread_entryOf_live tid core idx hlive
    refine ⟨hph, by rw [hv]; rfl, fun n hn => ?_⟩
    rw [hv, Map.get, Map.get?_cons, if_neg (Ne.symm hn)]
    rfl

end Sys2Proof.Machine
end

section
/-!
Proofs. Full completion flags: an anchored instruction whose execution has begun does not ask again whether its flags have room, so that
the whole of its path does not wait for them.
-/

namespace Sys2Proof.Machine

/-- A group whose lane 0 stands in a clause that names flag 3 as its `SETA` and its `SETB`, and whose flag 3 is full. -/
def fullGroup : Group :=
  { ctx := 0, team := 1, core := 0, slice := 0, w := 16, cbase := 0, groupId := 0, f := [(3, 255)]
    threads := [(0, { pc := 4, clause := some ⟨0, 0x0198000F, []⟩ })] }

/-- The slot of lane 0, whose execution 7 an earlier lane has begun (R218). -/
def begunSlot : Slot := { gid := 5, lanes := [0], pc := 4, ex := some 7 }

def fullState : State :=
  { State.reset with
    groups := [(5, fullGroup)], teams := [(1, { ctx := 0, core := 0, nthr := 16, w := 16, mtx := true })], cur := some begunSlot }

def fullMma : Instr := .mma {} { tile := 0, row := 0, txa := 7 } 1 (.lit 0) (.lit 0x00010000)

/-- What a thread waits for when a step has been taken. -/
def waitAfter (gid l : Nat) : Out → Option Wait
  | .next s => (s.thread gid l).wait
  | _ => none

theorem fullMma_executes : Executes fullMma {} fullState begunSlot fullGroup [0] [] fullState :=
  ⟨rfl, rfl, by decide, by decide, by decide, by decide, by decide, by decide, rfl⟩

theorem fullMma_stalled : fullState.issueStall begunSlot [0] true true = some (.flag 3) := by decide

theorem fullMma_does_not_wait : waitAfter 5 0 (exec fullMma fullState) ≠ some (.stall (.flag 3)) := by decide

/-- Refutes O59: `MMA` whose execution an earlier lane has begun signs, and does not wait, while flag 3 stands at 255. -/
theorem not_fullFlagsHoldIssueBack : ¬ Obligations.FullFlagsHoldIssueBack := by
  unfold Obligations.FullFlagsHoldIssueBack
  intro h
  obtain ⟨-, -, mma, -⟩ := h
  have hstays := mma _ _ _ _ _ fullState begunSlot fullGroup [0] [] fullState 3 fullMma_executes fullMma_stalled
  exact fullMma_does_not_wait ((congrArg (waitAfter 5 0) hstays).trans rfl)

end Sys2Proof.Machine
end

section
/-!
Proofs. Batches that a slice waits to pay for: the slot whose batch has had its port begins later by the wait, as the other slots
of its slice do.
-/

namespace Sys2Proof.Machine

/-- A group of 17 lanes at an `LDS` of one word, which takes two batches (R171). -/
def twoBatchGroup : Group :=
  { ctx := 0, team := 1, core := 0, slice := 0, w := 32, cbase := 0, groupId := 0, s := [(5, 0xF0000000)]
    threads := (List.range 17).map fun l => (l, { pc := 4, clause := some ⟨0, 0x07F80012, [0x6040A2FE, 0x04000004]⟩ }) }

/-- Its slot, which was to begin in cycle 5 for lane 0. -/
def twoBatchSlot : Slot := { gid := 5, lanes := List.range 17, pc := 4, begins := some [(0, 5)] }

/-- What slice 0 holds since cycle 0. -/
def twoBatchHeld : Held := ⟨[twoBatchSlot], true, 0⟩

def twoBatchState : State :=
  { State.reset with
    groups := [(5, twoBatchGroup)], rtime := 1000, cores := [(0, { held := [(0, twoBatchHeld)] })]
    teams := [(1, { ctx := 0, core := 0, nthr := 17, w := 32, scrLen := 4096 })] }

/-- The slot with the lanes that can run. -/
def readySlot : Slot := { twoBatchSlot with lanes := twoBatchState.slotLanes twoBatchSlot }

/-- The instruction in the slot: `LDS.W32 v2, [s5 + 4]`. -/
def twoBatchInstr : Instr :=
  .lds {} { aop := 0, w := 2, sgn := false, ord := .rlx, scope := .grp, h := false, ret := false, ofs := 4 } (.v 2) (.s 5) .nul

/-- What slice 0 of core 0 holds when a step has been taken. -/
def heldAfter : Out → Option Held
  | .next s => Map.get? (s.core 0).held 0
  | _ => none

theorem twoBatch_decodes : twoBatchState.slotDecode readySlot = some twoBatchInstr := by decide

theorem twoBatch_costs : twoBatchState.scratchCosts 5 twoBatchInstr
    (Slot.on twoBatchState readySlot twoBatchInstr (Instr.guardOf twoBatchInstr)) = [1, 1] := by decide

/-- The slot was to begin in cycle 5 and has waited for the 1250 cycles that have passed. -/
theorem twoBatch_heldAfter : heldAfter (exec .batchPortGrant twoBatchState) =
    some { slots := [{ twoBatchSlot with begins := some [(0, 1255)], paid := 1 }], port := true, at_ := 1251 } := by decide

/-- Refutes O47: after its first of two batches a slot that was to begin in cycle 5 begins in cycle 1255, and not in cycle 5. -/
theorem not_stallsEnd : ¬ Obligations.StallsEnd := by
  unfold Obligations.StallsEnd
  intro h
  obtain ⟨-, -, -, -, -, grant⟩ := h
  obtain ⟨t, ht, -, -, -, more⟩ := grant twoBatchState 0 twoBatchHeld twoBatchSlot [] twoBatchGroup twoBatchInstr 0 1 (by decide) rfl rfl
    rfl (by decide) (by decide) rfl rfl rfl twoBatch_decodes (congrArg (·[0]?) twoBatch_costs) (by decide)
  obtain ⟨-, hheld⟩ := more (Nat.lt_of_lt_of_eq (Nat.lt_succ_self 1) (congrArg List.length twoBatch_costs).symm)
  have hnow := twoBatch_heldAfter
  rw [ht] at hnow
  exact absurd (hheld.symm.trans hnow) (by decide)

end Sys2Proof.Machine
end

section
/-!
Proofs. A translation that a walker still keeps though its leaf has been replaced: whether writes wait at a trap frame is asked of the
state in which the trap is taken, and not of the one that reading the trap area's header leaves.
-/

namespace Sys2Proof.Machine

/-- A context whose trap area begins 512 bytes before the second page of 64 KiB, so that its one frame is that page's first. -/
def staleCtx : Ctx := { cfg := { sys := true, cores := [0], roots := [some 0] }, trapLo := 0xFE00 }

/-- The translation that the walker still keeps of the second page: it is replicated at stacks 0 and 2, at frame 0x5000. -/
def staleEntry : Tlb := ⟨0, 0, 0x10000, 0x10000, 0x30010, 0x5000033F, 0x40005⟩

/-- A replicated write to the old frame's first line, which die 1 has not acknowledged. -/
def staleWrite : ReplW := ⟨0x500000, 5, none, [1]⟩

/-- The root's entry 0 is a leaf of 1 GiB at frame 0x4000; the counter at the trap area's base is 0, and there is one frame. -/
def staleState : State :=
  { State.reset with
    mem := [(0, 0x3F), (1, 3), (3, 0x40), (8, 1), (0x4000FE04, 1)], tlb := [staleEntry], replQ := [(0, staleWrite)]
    ctxs := [(0, staleCtx)]
    ops := [(5, { ex := 9, core := 0, ctx := 0, gid := 5, lanes := [(0, 0)], ins := 4, kind := .store .global 0x10000 [0], issue := 0 })] }

/-- What an access gives, or `d` where it fails. -/
def valueOr {α : Type} (d : α) : Except XErr α → α
  | .ok a => a
  | .error _ => d

theorem eq_ok_valueOr {α : Type} (d : α) {r : Except XErr α} (h : r.isOk = true) : r = .ok (valueOr d r) := by
  cases r with
  | ok a => rfl
  | error e => cases h

/-- The counter as it is read. -/
def counterRead : State × List Byte := valueOr (staleState, []) (staleState.gread 0 0xFE00 4 { r := true, w := true } true 0)

/-- The counter has been counted. -/
def counted : State := valueOr staleState (counterRead.1.dwrite 0 0xFE00 (toBytes 4 (ofBytes counterRead.2 + 1)) true 0)

/-- The number of frames as it is read. -/
def numberRead : State × List Byte := valueOr (staleState, []) (counted.gread 0 0xFE04 4 { r := true } true 0)

/-- The frame's first word as it is read. -/
def frameRead : State × List Byte := valueOr (staleState, []) (numberRead.1.gread 0 0x10000 2 { r := true } true 0)

theorem counter_read : staleState.gread 0 0xFE00 4 { r := true, w := true } true 0 = .ok counterRead := eq_ok_valueOr _ (by decide)

theorem counter_counted : counterRead.1.dwrite 0 0xFE00 (toBytes 4 (ofBytes counterRead.2 + 1)) true 0 = .ok counted :=
  eq_ok_valueOr _ (by decide)

theorem number_read : counted.gread 0 0xFE04 4 { r := true } true 0 = .ok numberRead := eq_ok_valueOr _ (by decide)

theorem frame_read : numberRead.1.gread 0 0x10000 2 { r := true } true 0 = .ok frameRead := eq_ok_valueOr _ (by decide)

theorem number_eq : ofBytes numberRead.2 = 1 := by decide

theorem frame_eq : staleCtx.trapBase + 512 * (1 + ofBytes counterRead.2 % ofBytes numberRead.2) = 0x10000 := by decide

/-- By the leaf that reading the header has brought in, no write waits at the frame. -/
theorem frame_not_busy : frameRead.1.lineBusy 0 0x10000 512 = false := by decide

/-- By the old translation one waits, so that the frame is not taken. -/
theorem frame_not_taken : (staleState.takeFrame 0 0).2.isOk = false := by decide

theorem frame_free : ofBytes frameRead.2 = 0 := by decide

/-- Refutes O55: a write waits at the trap frame by the walker's old translation, and by the one that reading the trap area's header
brings in none does. -/
theorem not_trapsEnterTheHandler : ¬ Obligations.TrapsEnterTheHandler := by
  unfold Obligations.TrapsEnterTheHandler
  intro h
  obtain ⟨-, frame, -⟩ := h
  obtain ⟨-, taken⟩ := frame staleState counterRead.1 counted numberRead.1 0 0 staleCtx counterRead.2 numberRead.2 rfl
    counter_read counter_counted number_read
  have htaken := taken frameRead.1 frameRead.2 ⟨0, by decide, number_eq⟩ (frame_eq ▸ frame_read)
  rw [frame_eq, frame_not_busy, if_neg Bool.false_ne_true, if_pos frame_free] at htaken
  exact absurd (congrArg (fun r => r.2.isOk) htaken) (by rw [frame_not_taken]; exact Bool.false_ne_true)

end Sys2Proof.Machine
end

section

/-! Proofs. Encoding and decoding. -/

namespace Sys2Proof

/-! ### Fields of a word -/

/-- A word with an operand's code in its seven bits from `k`. -/
def withCode (x : Word) (o : Opnd) (k : Nat) : Word := x ||| ((o.code.setWidth 32) <<< k)

theorem getLsbD_code (o : Opnd) (k i : Nat) (h : i < k ∨ k + 7 ≤ i) : ((o.code.setWidth 32 : Word) <<< k).getLsbD i = false := by
  rw [BitVec.getLsbD_shiftLeft]
  rcases h with h | h
  · simp [h]
  · simp [BitVec.getLsbD_of_ge o.code (i - k) (by omega)]

@[simp] theorem getLsbD_withCode (x : Word) (o : Opnd) (k i : Nat) (h : i < k ∨ k + 7 ≤ i) : (withCode x o k).getLsbD i = x.getLsbD i := by
  rw [withCode, BitVec.getLsbD_or, getLsbD_code o k i h, Bool.or_false]

/-- The code changes no field beside it. -/
@[simp] theorem bits_withCode (x : Word) (o : Opnd) (k lo len : Nat) (h : lo + len ≤ k ∨ k + 7 ≤ lo) :
    bits (withCode x o k) lo len = bits x lo len := by
  ext i hi
  simp only [bits, BitVec.getElem_extractLsb', withCode, BitVec.getLsbD_or, getLsbD_code o k (lo + i) (by omega), Bool.or_false]

/-- The code is read back where the word held zeros. -/
theorem bits_withCode_self (x : Word) (o : Opnd) {k : Nat} (hk : k ≤ 25) (hx : bits x k 7 = 0) : bits (withCode x o k) k 7 = o.code := by
  ext i hi
  have hz : x.getLsbD (k + i) = false := by
    rw [← BitVec.getElem_extractLsb' hi, show x.extractLsb' k 7 = 0#7 from hx, BitVec.getElem_zero]
  rw [bits, BitVec.getElem_extractLsb', withCode, BitVec.getLsbD_or, hz, Bool.false_or, BitVec.getLsbD_shiftLeft,
    BitVec.getLsbD_setWidth, Nat.add_sub_cancel_left, BitVec.getLsbD_eq_getElem hi]
  simp [show k + i < 32 by omega, show i < 32 by omega]

/-! ### Names and codes -/

@[simp] theorem Guard.ofBits_toBits (g : Guard) : Guard.ofBits g.toBits = some g := by
  cases g with
  | pred n => fin_cases n <;> rfl
  | always => rfl
  | never => rfl

@[simp] theorem Ty.ofCode_code (t : Ty) : Ty.ofCode t.code = some t := by cases t <;> rfl
@[simp] theorem Rm.ofCode_code (r : Rm) : Rm.ofCode r.code = r := by cases r <;> rfl
@[simp] theorem Scope.ofCode_code (s : Scope) : Scope.ofCode s.code = some s := by cases s <;> rfl
@[simp] theorem Ord.ofCode_code (o : Ord) : Ord.ofCode o.code = o := by cases o <;> rfl
@[simp] theorem Space.ofCode_code (s : Space) : Space.ofCode s.code = some s := by cases s <;> rfl
@[simp] theorem CC.ofCode_code (c : CC) : CC.ofCode c.code = some c := by cases c <;> rfl
@[simp] theorem BarMode.ofCode_code (m : BarMode) : BarMode.ofCode m.code = some m := by cases m <;> rfl

theorem finOf_ofNat {n k : Nat} (x : Fin n) (h : n ≤ 2 ^ k) : finOf n (BitVec.ofNat k x.val) = some x := by
  have hx : (BitVec.ofNat k x.val).toNat = x.val := by
    rw [BitVec.toNat_ofNat, Nat.mod_eq_of_lt (x.isLt.trans_le h)]
  simp [finOf, hx]

@[simp] theorem finOf_six (x : Fin 6) : finOf 6 (BitVec.ofNat 4 x.val) = some x := finOf_ofNat x (by decide)
@[simp] theorem finOf_width (x : Fin 6) : finOf 6 (BitVec.ofNat 3 x.val) = some x := finOf_ofNat x (by decide)
@[simp] theorem finOf_twelve (x : Fin 12) : finOf 12 (BitVec.ofNat 4 x.val) = some x := finOf_ofNat x (by decide)
@[simp] theorem finOf_seven (x : Fin 7) : finOf 7 (BitVec.ofNat 4 x.val) = some x := finOf_ofNat x (by decide)
@[simp] theorem finOf_four (x : Fin 4) : finOf 4 (BitVec.ofNat 4 x.val) = some x := finOf_ofNat x (by decide)
@[simp] theorem finOf_three (x : Fin 3) : finOf 3 (BitVec.ofNat 2 x.val) = some x := finOf_ofNat x (by decide)

@[simp] theorem prOf_prBits (p : Option (Fin 6)) : prOf (prBits p) = some p := by
  cases p with
  | none => rfl
  | some k => fin_cases k <;> rfl

/-! ### Fields of words that are put together -/

@[simp] theorem getLsbD_b1 (b : Bool) : (b1 b).getLsbD 0 = b := by cases b <;> rfl

section

variable {v w : Nat} (a : BitVec v) (b : BitVec w)

@[simp] theorem getLsbD_bitVec_append (i : Nat) : (BitVec.append a b).getLsbD i = if i < w then b.getLsbD i else a.getLsbD (i - w) :=
  BitVec.getLsbD_append

@[simp] theorem extractLsb'_append_low {lo len : Nat} (h : lo + len ≤ w) : (BitVec.append a b).extractLsb' lo len = b.extractLsb' lo len :=
  BitVec.extractLsb'_append_eq_of_add_le h

@[simp] theorem extractLsb'_append_high {lo len : Nat} (h : w ≤ lo) :
    (BitVec.append a b).extractLsb' lo len = a.extractLsb' (lo - w) len :=
  BitVec.extractLsb'_append_eq_of_le h

end

@[simp] theorem Alu2.read_bits (x : Alu2) : Alu2.read x.bits = some x := by
  simp [-BitVec.append_eq, -BitVec.getLsbD_eq_getElem, Alu2.read, Alu2.bits, HAppend.hAppend, Sys2Proof.bits, bit1]

@[simp] theorem SelX.read_bits (x : SelX) : SelX.read x.bits = some x := by
  simp [-BitVec.append_eq, SelX.read, SelX.bits, HAppend.hAppend, Sys2Proof.bits]

@[simp] theorem CmpX.read_bits (x : CmpX) : CmpX.read x.bits = some x := by
  simp [-BitVec.append_eq, CmpX.read, CmpX.bits, HAppend.hAppend, Sys2Proof.bits]

@[simp] theorem PlopX.read_bits (x : PlopX) : PlopX.read x.bits = some x := by
  simp [-BitVec.append_eq, PlopX.read, PlopX.bits, HAppend.hAppend, Sys2Proof.bits]

@[simp] theorem CvtX.read_bits (x : CvtX) : CvtX.read x.bits = some x := by
  simp [-BitVec.append_eq, -BitVec.getLsbD_eq_getElem, CvtX.read, CvtX.bits, HAppend.hAppend, Sys2Proof.bits, bit1]

@[simp] theorem Mx.read_bits (x : Mx) : Mx.read x.bits = some x := by
  simp [-BitVec.append_eq, -BitVec.getLsbD_eq_getElem, Mx.read, Mx.bits, HAppend.hAppend, Sys2Proof.bits, bit1]

@[simp] theorem BkX.read_bits (x : BkX) : BkX.read x.bits = some x := by
  simp [-BitVec.append_eq, -BitVec.getLsbD_eq_getElem, BkX.read, BkX.bits, HAppend.hAppend, Sys2Proof.bits, bit1]

@[simp] theorem RsX.read_bits (x : RsX) : RsX.read x.bits = some x := by
  simp [-BitVec.append_eq, -BitVec.getLsbD_eq_getElem, RsX.read, RsX.bits, HAppend.hAppend, Sys2Proof.bits, bit1]

@[simp] theorem MmaX.read_bits (x : MmaX) : MmaX.read x.bits = some x := by
  simp [-BitVec.append_eq, -BitVec.getLsbD_eq_getElem, MmaX.read, MmaX.bits, HAppend.hAppend, Sys2Proof.bits, bit1]

@[simp] theorem LwX.read_bits (x : LwX) : LwX.read x.bits = some x := by
  simp [-BitVec.append_eq, -BitVec.getLsbD_eq_getElem, LwX.read, LwX.bits, HAppend.hAppend, Sys2Proof.bits, bit1]

@[simp] theorem EwX.read_bits (x : EwX) : EwX.read x.bits = some x := by
  simp [-BitVec.append_eq, EwX.read, EwX.bits, HAppend.hAppend, Sys2Proof.bits]

@[simp] theorem RlX.read_bits (x : RlX) : RlX.read x.bits = some x := by
  simp [-BitVec.append_eq, -BitVec.getLsbD_eq_getElem, RlX.read, RlX.bits, HAppend.hAppend, Sys2Proof.bits, bit1]

@[simp] theorem AmX.read_bits (x : AmX) : AmX.read x.bits = some x := by
  simp [-BitVec.append_eq, AmX.read, AmX.bits, HAppend.hAppend, Sys2Proof.bits]

@[simp] theorem RpX.read_bits (x : RpX) : RpX.read x.bits = some x := by
  simp [-BitVec.append_eq, RpX.read, RpX.bits, HAppend.hAppend, Sys2Proof.bits]

@[simp] theorem BarX.read_bits (x : BarX) : BarX.read x.bits = some x := by
  simp [-BitVec.append_eq, -BitVec.getLsbD_eq_getElem, BarX.read, BarX.bits, HAppend.hAppend, Sys2Proof.bits, bit1]

@[simp] theorem SpX.read_bits (x : SpX) : SpX.read x.bits = some x := by
  simp [-BitVec.append_eq, -BitVec.getLsbD_eq_getElem, SpX.read, SpX.bits, HAppend.hAppend, Sys2Proof.bits, bit1]

@[simp] theorem WfX.read_bits (x : WfX) : WfX.read x.bits = some x := by
  simp [-BitVec.append_eq, -BitVec.getLsbD_eq_getElem, WfX.read, WfX.bits, HAppend.hAppend, Sys2Proof.bits, bit1]

@[simp] theorem VtX.read_bits (x : VtX) : VtX.read x.bits = some x := by
  simp [-BitVec.append_eq, -BitVec.getLsbD_eq_getElem, VtX.read, VtX.bits, HAppend.hAppend, Sys2Proof.bits, bit1]

@[simp] theorem RxX.read_bits (x : RxX) : RxX.read x.bits = some x := by
  simp [-BitVec.append_eq, RxX.read, RxX.bits, HAppend.hAppend, Sys2Proof.bits]

@[simp] theorem ScX.read_bits (x : ScX) : ScX.read x.bits = some x := by
  simp [-BitVec.append_eq, -BitVec.getLsbD_eq_getElem, ScX.read, ScX.bits, HAppend.hAppend, Sys2Proof.bits, bit1]

@[simp] theorem GmX.read_bits (x : GmX) : GmX.read x.bits = some x := by
  simp [-BitVec.append_eq, -BitVec.getLsbD_eq_getElem, GmX.read, GmX.bits, HAppend.hAppend, Sys2Proof.bits, bit1]

@[simp] theorem LmX.read_bits (x : LmX) : LmX.read x.bits = some x := by
  simp [-BitVec.append_eq, LmX.read, LmX.bits, HAppend.hAppend, Sys2Proof.bits]

@[simp] theorem Alu3.read_withCode (x : Alu3) : Alu3.read (withCode x.bits x.c 25) x.c = some x := by
  simp [-BitVec.append_eq, -BitVec.getLsbD_eq_getElem, Alu3.read, Alu3.bits, HAppend.hAppend, Sys2Proof.bits, bit1]

theorem Alu3.bits_free (x : Alu3) : Sys2Proof.bits x.bits 25 7 = 0 := by
  simp [-BitVec.append_eq, Alu3.bits, HAppend.hAppend, Sys2Proof.bits]

@[simp] theorem Lop3X.read_withCode (x : Lop3X) : Lop3X.read (withCode x.bits x.c 25) x.c = some x := by
  simp [-BitVec.append_eq, Lop3X.read, Lop3X.bits, HAppend.hAppend, Sys2Proof.bits]

theorem Lop3X.bits_free (x : Lop3X) : Sys2Proof.bits x.bits 25 7 = 0 := by
  simp [-BitVec.append_eq, Lop3X.bits, HAppend.hAppend, Sys2Proof.bits]

@[simp] theorem Cx.read_withCode (x : Cx) : Cx.read (withCode x.bits x.bar 21) x.bar = some x := by
  simp [-BitVec.append_eq, -BitVec.getLsbD_eq_getElem, Cx.read, Cx.bits, HAppend.hAppend, Sys2Proof.bits, bit1]

theorem Cx.bits_free (x : Cx) : Sys2Proof.bits x.bits 21 7 = 0 := by
  simp [-BitVec.append_eq, Cx.bits, HAppend.hAppend, Sys2Proof.bits]

@[simp] theorem TxX.read_withCode (x : TxX) : TxX.read (withCode x.bits x.bar 14) x.bar = some x := by
  simp [-BitVec.append_eq, -BitVec.getLsbD_eq_getElem, TxX.read, TxX.bits, HAppend.hAppend, Sys2Proof.bits, bit1]

theorem TxX.bits_free (x : TxX) : Sys2Proof.bits x.bits 14 7 = 0 := by
  simp [-BitVec.append_eq, TxX.bits, HAppend.hAppend, Sys2Proof.bits]

@[simp] theorem MstsX.read_withCode (x : MstsX) : MstsX.read (withCode x.bits x.c 25) x.c = some x := by
  simp [-BitVec.append_eq, -BitVec.getLsbD_eq_getElem, MstsX.read, MstsX.bits, HAppend.hAppend, Sys2Proof.bits, bit1]

theorem MstsX.bits_free (x : MstsX) : Sys2Proof.bits x.bits 25 7 = 0 := by
  simp [-BitVec.append_eq, MstsX.bits, HAppend.hAppend, Sys2Proof.bits]

@[simp] theorem StX.read_withCode (x : StX) : StX.read (withCode x.bits x.c 25) x.c = some x := by
  simp [-BitVec.append_eq, StX.read, StX.bits, HAppend.hAppend, Sys2Proof.bits]

theorem StX.bits_free (x : StX) : Sys2Proof.bits x.bits 25 7 = 0 := by
  simp [-BitVec.append_eq, StX.bits, HAppend.hAppend, Sys2Proof.bits]

@[simp] theorem MsX.read_withCode (x : MsX) : MsX.read (withCode x.bits x.c 25) x.c = some x := by
  simp [-BitVec.append_eq, MsX.read, MsX.bits, HAppend.hAppend, Sys2Proof.bits]

theorem MsX.bits_free (x : MsX) : Sys2Proof.bits x.bits 25 7 = 0 := by
  simp [-BitVec.append_eq, MsX.bits, HAppend.hAppend, Sys2Proof.bits]

@[simp] theorem McX.read_withCode (x : McX) : McX.read (withCode x.bits x.c 24) x.c = some x := by
  simp [-BitVec.append_eq, -BitVec.getLsbD_eq_getElem, McX.read, McX.bits, HAppend.hAppend, Sys2Proof.bits, bit1]

theorem McX.bits_free (x : McX) : Sys2Proof.bits x.bits 24 7 = 0 := by
  simp [-BitVec.append_eq, McX.bits, HAppend.hAppend, Sys2Proof.bits]

@[simp] theorem ShX.read_withCode (x : ShX) : ShX.read (withCode x.bits x.c 25) x.c = some x := by
  simp [-BitVec.append_eq, -BitVec.getLsbD_eq_getElem, ShX.read, ShX.bits, HAppend.hAppend, Sys2Proof.bits, bit1]

theorem ShX.bits_free (x : ShX) : Sys2Proof.bits x.bits 25 7 = 0 := by
  simp [-BitVec.append_eq, ShX.bits, HAppend.hAppend, Sys2Proof.bits]

/-! ### Operands and fields that are written and read back (R46, R48) -/

theorem toNat_ofNat_seven {n : Nat} (h : n < 128) : (BitVec.ofNat 7 n).toNat = n := by
  rw [BitVec.toNat_ofNat, Nat.mod_eq_of_lt (by omega)]

theorem Opnd.ofCode_code {o l : Opnd} (h : o.code = 127 → o = l) : Opnd.ofCode o.code l = o := by
  cases o with
  | v n => simp [Opnd.ofCode, Opnd.code, toNat_ofNat_seven (show n.val < 128 by omega)]
  | s n => simp [Opnd.ofCode, Opnd.code, toNat_ofNat_seven (show 64 + n.val < 128 by omega)]
  | t n =>
    simp only [Opnd.ofCode, Opnd.code, toNat_ofNat_seven (show 112 + n.val < 128 by omega)]
    rw [dif_neg (by omega), dif_neg (by omega), dif_pos (by omega)]
    simp
  | k n =>
    simp only [Opnd.ofCode, Opnd.code, toNat_ofNat_seven (show 116 + n.val < 128 by omega)]
    rw [dif_neg (by omega), dif_neg (by omega), dif_neg (by omega), dif_pos (by omega)]
    simp
  | lane | hz | opc | rtime | nul => dsimp only [Opnd.code]; simp [Opnd.ofCode]
  | lit _ | litNone =>
    have hl := h rfl
    subst hl
    dsimp only [Opnd.code]
    simp [Opnd.ofCode]

theorem ofNat_seven_ne {n : Nat} (h : n < 127) : BitVec.ofNat 7 n ≠ 127 := fun e => by
  have := congrArg BitVec.toNat e
  rw [toNat_ofNat_seven (by omega)] at this
  exact absurd this (by simpa using h.ne)

/-- Code 127 is that of a literal. -/
theorem Opnd.code_eq_lit {o : Opnd} (h : o.code = 127) : o = .litNone ∨ ∃ w, o = .lit w := by
  cases o with
  | v n => exact absurd h (ofNat_seven_ne (by omega))
  | s n => exact absurd h (ofNat_seven_ne (by omega))
  | t n => exact absurd h (ofNat_seven_ne (by omega))
  | k n => exact absurd h (ofNat_seven_ne (by omega))
  | lane | hz | opc | rtime | nul => exact absurd h (by decide)
  | lit w => exact .inr ⟨w, rfl⟩
  | litNone => exact .inl rfl

/-- A field that a role reads as it is written. -/
def Fld.fits : Role → Fld → Bool
  | .none, .none => true
  | .dst, .op o => o.dst
  | .noLit, .op o => o.dst
  | .src, .op o => o.src
  | .imm, .imm _ => true
  | _, _ => false

theorem Opnd.ofCode_of_dst {o : Opnd} (h : o.dst = true) : Opnd.ofCode o.code .litNone = o :=
  Opnd.ofCode_code fun hc => by
    obtain rfl | ⟨w, rfl⟩ := Opnd.code_eq_lit hc
    · rfl
    · cases h

theorem Fld.lit_of_dst {o : Opnd} (h : o.dst = true) : (Fld.op o).lit = [] := by
  cases o with
  | lit w => cases h
  | _ => rfl

/-- A source that is a literal takes its word, and any other takes none. -/
theorem Opnd.src_cases {o : Opnd} (h : o.src = true) : (∃ w, o = .lit w) ∨ (o.code ≠ 127 ∧ o.dst = true) := by
  by_cases hc : o.code = 127
  · obtain rfl | hw := Opnd.code_eq_lit hc
    · cases h
    · exact .inl hw
  · refine .inr ⟨hc, ?_⟩
    cases o with
    | lit w => exact absurd rfl hc
    | _ => rfl

theorem Fld.read_code {r : Role} {f : Fld} (h : f.fits r = true) (ws : List Word) : Fld.read r f.code (f.lit ++ ws) = some (f, ws) := by
  cases r <;> cases f <;> try cases h
  case none.none => rfl
  case imm.imm => rfl
  case src.op o =>
    obtain ⟨w, rfl⟩ | ⟨hc, hd⟩ := Opnd.src_cases h
    · rfl
    · simp only [Fld.lit_of_dst hd, Fld.code, Fld.read, if_neg hc, Opnd.ofCode_of_dst hd, List.nil_append]
  case dst.op o => rw [Fld.lit_of_dst h, Fld.code, Fld.read, Opnd.ofCode_of_dst h, List.nil_append]
  case noLit.op o => rw [Fld.lit_of_dst h, Fld.code, Fld.read, Opnd.ofCode_of_dst h, List.nil_append]

/-- A field adds as many words as its role reads. -/
theorem Fld.lits_code {r : Role} {f : Fld} (h : f.fits r = true) : r.lits f.code = f.lit.length := by
  cases r <;> cases f <;> try cases h
  case none.none => rfl
  case imm.imm => rfl
  case src.op o =>
    obtain ⟨w, rfl⟩ | ⟨hc, hd⟩ := Opnd.src_cases h
    · rfl
    · rw [Fld.lit_of_dst hd, Fld.code, Role.lits, if_neg hc, List.length_nil]
  case dst.op o => rw [Fld.lit_of_dst h]; rfl
  case noLit.op o => rw [Fld.lit_of_dst h]; rfl


/-! ### Instructions whose fields are split (R39, R43, R48, R52) -/

/-- The operand that the extension word holds is one that a form with an operand at `at?` reads as it is written. -/
def Gen.extFits : Option Nat → Option Word → Option Opnd → Bool
  | none, _, none => true
  | some k, some x, some c => decide (k ≤ 25) && decide (bits x k 7 = 0) && c.src
  | _, _, _ => false

/-- The fields are those of the form of the opcode. -/
def Gen.fits (g : Gen) : Bool :=
  match formOf g.page g.op with
  | none => false
  | some f => decide (g.op < 64) && g.d.fits f.d && g.a.fits f.a && g.b.fits f.b && (g.x.isSome == f.ext) && Gen.extFits f.at? g.x g.c

/-- The extension word with the operand that it holds. -/
def extWord : Option Nat → Option Word → Option Opnd → Option Word
  | some k, some x, some c => some (withCode x c k)
  | _, x, _ => x

/-- Where the form of an opcode has an operand in the extension word. -/
def Gen.extAt (g : Gen) : Option Nat := ((formOf g.page g.op).map Form.at?).join

/-- The fields as they are read back: the extension word holds its operand. -/
def Gen.stored (g : Gen) : Gen := { g with x := extWord g.extAt g.x g.c }

/-- The first word. -/
def Gen.head (g : Gen) : Word := Guard.pre g.p ++ BitVec.ofNat 6 g.op ++ g.d.code ++ g.a.code ++ g.b.code

/-- The literal of the extension word's operand. -/
def Gen.extLit (g : Gen) : List Word := g.c.elim [] fun c => Fld.lit (.op c)

theorem Gen.words_eq (g : Gen) : g.words = g.head :: (g.stored.x.toList ++ (g.d.lit ++ (g.a.lit ++ (g.b.lit ++ (g.extLit ++ g.p.sp.toList))))) := by
  unfold Gen.words Gen.stored Gen.extAt Gen.extLit
  cases g.x <;> cases g.c <;> cases ((formOf g.page g.op).map Form.at?).join <;> simp [extWord, Gen.head, withCode]

section
variable (g : Gen)

theorem Gen.head_sp : bit1 g.head 31 = g.p.sp.isSome := by
  simp [-BitVec.append_eq, -BitVec.getLsbD_eq_getElem, Gen.head, Guard.pre, HAppend.hAppend, bit1]
theorem Gen.head_guard : bits g.head 27 4 = g.p.g.toBits := by
  simp [-BitVec.append_eq, Gen.head, Guard.pre, HAppend.hAppend, bits]
theorem Gen.head_op (h : g.op < 64) : opOf g.head = g.op := by
  simp [-BitVec.append_eq, opOf, Gen.head, Guard.pre, HAppend.hAppend, bits]
  omega
theorem Gen.head_d : bits g.head 14 7 = g.d.code := by
  simp [-BitVec.append_eq, Gen.head, HAppend.hAppend, bits]
theorem Gen.head_a : bits g.head 7 7 = g.a.code := by
  simp [-BitVec.append_eq, Gen.head, HAppend.hAppend, bits]
theorem Gen.head_b : bits g.head 0 7 = g.b.code := by
  simp [-BitVec.append_eq, Gen.head, HAppend.hAppend, bits]
end

theorem extWord_isSome (a : Option Nat) (x : Option Word) (c : Option Opnd) : (extWord a x c).isSome = x.isSome := by
  cases a <;> cases x <;> cases c <;> rfl

/-- The operand of an extension word is read back, with its literal. -/
theorem readExtOpnd_extWord {a : Option Nat} {x : Option Word} {c : Option Opnd} (h : Gen.extFits a x c = true) {w : Word}
    (hw : ∀ v, extWord a x c = some v → w = v) (ws : List Word) :
    readExtOpnd a w ((c.elim [] fun c => Fld.lit (.op c)) ++ ws) = some (c, ws) := by
  cases a <;> cases x <;> cases c <;> try cases h
  case none.none.none => rfl
  case none.some.none => rfl
  case some.some.some k x c =>
    simp only [Gen.extFits, Bool.and_eq_true, decide_eq_true_eq] at h
    obtain ⟨⟨hk, hx⟩, hc⟩ := h
    have hr : Fld.read .src c.code (Fld.lit (.op c) ++ ws) = some (.op c, ws) := Fld.read_code (r := .src) (f := .op c) hc ws
    simp only [readExtOpnd, hw _ rfl, bits_withCode_self x c hk hx, Option.elim_some, hr]

theorem Gen.fits_iff {g : Gen} : g.fits = true ↔ ∃ f, formOf g.page g.op = some f ∧ g.op < 64 ∧ g.d.fits f.d = true ∧
    g.a.fits f.a = true ∧ g.b.fits f.b = true ∧ g.x.isSome = f.ext ∧ Gen.extFits f.at? g.x g.c = true := by
  unfold Gen.fits
  cases formOf g.page g.op <;> simp [and_assoc]

/-- Fields that fit the form of their opcode are read back, with the words after them. -/
theorem readGen_words {g : Gen} (h : g.fits = true) (ws : List Word) : readGen g.page (g.words ++ ws) = .ok (g.stored, ws) := by
  obtain ⟨f, hf, ho, hd, ha, hb, hx, he⟩ := Gen.fits_iff.mp h
  have hst : g.stored = { g with x := extWord f.at? g.x g.c } := by rw [Gen.stored, Gen.extAt, hf]; rfl
  have hext : (extWord f.at? g.x g.c).isSome = f.ext := hx ▸ extWord_isSome ..
  have hc (w : Word) (hw : ∀ v, extWord f.at? g.x g.c = some v → w = v) (r : List Word) :
      readExtOpnd f.at? w (g.extLit ++ r) = some (g.c, r) := readExtOpnd_extWord he hw r
  rw [Gen.words_eq, hst]
  simp only [readGen, List.cons_append, List.append_assoc, Gen.head_guard, Guard.ofBits_toBits, Gen.head_op g ho, hf, Gen.head_d,
    Gen.head_a, Gen.head_b, Gen.head_sp, ← hext]
  obtain ⟨page, op, ⟨gd, sp⟩, d, a, b, x, c⟩ := g
  cases hs : extWord f.at? x c with
  | none =>
    simp only [Option.isSome_none, Bool.false_and, Bool.false_eq_true, if_false, Option.toList_none, List.nil_append, Fld.read_code hd,
      Fld.read_code ha, Fld.read_code hb, Option.bind_some, hc _ (by simp [hs]), Option.map_some]
    cases sp <;> rfl
  | some w =>
    have hr := hc w fun v e => Option.some.inj (hs.symm.trans e)
    simp only [Option.isSome_some, Bool.true_and, List.isEmpty_cons, Bool.false_eq_true, if_false, if_true, Option.toList_some,
      List.cons_append, List.nil_append, List.drop_succ_cons, List.drop_zero, List.headD_cons, Fld.read_code hd, Fld.read_code ha,
      Fld.read_code hb, Option.bind_some, hr, Option.map_some]
    cases sp <;> rfl

/-- The literal words that the operand of an extension word adds. -/
def extLits : Option Nat → Word → Nat
  | none, _ => 0
  | some k, x => Role.src.lits (bits x k 7)

theorem instrLen_of_form {page : Nat} {w : Word} {f : Form} (hf : formOf page (opOf w) = some f) (r : List Word) :
    instrLen page (w :: r) = 1 + (if f.ext then 1 else 0) + (f.d.lits (bits w 14 7) + f.a.lits (bits w 7 7) + f.b.lits (bits w 0 7)
      + extLits f.at? (r.headD 0)) + (if bit1 w 31 then 1 else 0) := by
  simp only [instrLen, hf]
  cases f.at? <;> rfl

theorem extLits_extWord {a : Option Nat} {x : Option Word} {c : Option Opnd} (h : Gen.extFits a x c = true) {w : Word}
    (hw : ∀ v, extWord a x c = some v → w = v) : extLits a w = (c.elim [] fun c => Fld.lit (.op c)).length := by
  cases a <;> cases x <;> cases c <;> try cases h
  case none.none.none => rfl
  case none.some.none => rfl
  case some.some.some k x c =>
    simp only [Gen.extFits, Bool.and_eq_true, decide_eq_true_eq] at h
    obtain ⟨⟨hk, hx⟩, hc⟩ := h
    simp only [extLits, hw _ rfl, bits_withCode_self x c hk hx]
    exact Fld.lits_code (r := .src) (f := .op c) hc

/-- An instruction is as long as its words. -/
theorem instrLen_words {g : Gen} (h : g.fits = true) (ws : List Word) : instrLen g.page (g.words ++ ws) = g.words.length := by
  obtain ⟨f, hf, ho, hd, ha, hb, hx, he⟩ := Gen.fits_iff.mp h
  have hst : g.stored.x = extWord f.at? g.x g.c := by rw [Gen.stored, Gen.extAt, hf]; rfl
  have hext : (extWord f.at? g.x g.c).isSome = f.ext := hx ▸ extWord_isSome ..
  have hl : extLits f.at? ((g.stored.x.toList ++ (g.d.lit ++ (g.a.lit ++ (g.b.lit ++ (g.extLit ++ g.p.sp.toList)))) ++ ws).headD 0)
      = g.extLit.length := extLits_extWord he fun v hv => by simp [hst, hv]
  rw [Gen.words_eq, List.cons_append, instrLen_of_form (by rwa [Gen.head_op g ho]), hl, hst, Gen.head_d, Gen.head_a, Gen.head_b,
    Gen.head_sp, Fld.lits_code hd, Fld.lits_code ha, Fld.lits_code hb, ← hext]
  cases extWord f.at? g.x g.c <;> cases g.p.sp <;> simp <;> omega

/-! ### Well-formed instructions fit the form of their opcode -/

section

variable {g : Gen} {f : Form}

theorem Gen.fits_of_form (hf : formOf g.page g.op = some f) (ho : decide (g.op < 64) = true) (hx : g.x.isSome = f.ext)
    (he : Gen.extFits f.at? g.x g.c = true) (h : (g.d.fits f.d && g.a.fits f.a && g.b.fits f.b) = true) : g.fits = true := by
  simp only [Bool.and_eq_true] at h
  obtain ⟨⟨hd, ha⟩, hb⟩ := h
  exact Gen.fits_iff.mpr ⟨f, hf, of_decide_eq_true ho, hd, ha, hb, hx, he⟩

end

theorem Gen.extFits_of_free {k : Nat} {x : Word} {c : Opnd} (hx : bits x k 7 = 0) (hc : c.src = true) (hk : k ≤ 25 := by decide) :
    Gen.extFits (some k) (some x) (some c) = true := by
  simp [Gen.extFits, hk, hx, hc]

theorem Opnd.dst_nul : Opnd.nul.dst = true := rfl

theorem fits_of_gen {i : Instr} {g : Gen} (hi : i.gen = some g) (hs : i.shapeOk = true) : g.fits = true := by
  cases i with
  | imad _ x | imadw _ x | bfi _ x | prmt _ x | ffma _ x | pfma _ x | dfma _ x =>
    cases hi
    simp only [Instr.shapeOk, Alu3.imad, Alu3.bare, Alu3.flt, Alu3.packed, Bool.and_eq_true] at hs
    exact Gen.fits_of_form rfl rfl rfl (Gen.extFits_of_free x.bits_free (by simp [hs])) (by simp [Fld.fits, hs])
  | cpy _ x | tload _ x | tstore _ x =>
    cases hi
    simp only [Instr.shapeOk, Cx.ok, TxX.ok, Bool.and_eq_true] at hs
    exact Gen.fits_of_form rfl rfl rfl (Gen.extFits_of_free x.bits_free (by simp [hs])) (by simp [Fld.fits, hs])
  | lop3 _ x | msts _ x | rstat _ x | mscale _ x | mcst _ x | shfl _ x =>
    cases hi
    simp only [Instr.shapeOk, MstsX.ok, Bool.and_eq_true] at hs
    exact Gen.fits_of_form rfl rfl rfl (Gen.extFits_of_free x.bits_free (by simp [hs])) (by simp [Fld.fits, hs])
  | _ =>
    cases hi <;>
    · simp only [Instr.shapeOk, Bool.and_eq_true] at hs
      exact Gen.fits_of_form rfl rfl rfl rfl (by simp [Fld.fits, hs, Opnd.dst_nul])

/-! ### The fields name the instruction that they were split from -/

theorem bind_eq_of_some {α β : Type} {o : Option α} {x : α} (h : o = some x) {f : α → Option β} : o.bind f = f x := by
  rw [h, Option.bind_some]

theorem map_eq_of_some {α β : Type} {o : Option α} {x : α} (h : o = some x) {f : α → β} : o.map f = some (f x) := by
  rw [h, Option.map_some]

/-- An immediate of 14 bits is that of its halves. -/
theorem append_halves_fourteen (x : BitVec 14) : x.extractLsb' 7 7 ++ x.extractLsb' 0 7 = x := by
  rw [BitVec.extractLsb'_append_extractLsb'_eq_extractLsb' (by omega)]
  exact BitVec.extractLsb'_eq_self

theorem append_thirds (x : BitVec 21) : x.extractLsb' 14 7 ++ x.extractLsb' 7 7 ++ x.extractLsb' 0 7 = x := by
  rw [BitVec.extractLsb'_append_extractLsb'_eq_extractLsb' (by omega), BitVec.extractLsb'_append_extractLsb'_eq_extractLsb' (by omega)]
  exact BitVec.extractLsb'_eq_self

theorem append_id (x : BitVec 8) : x.extractLsb' 7 1 ++ x.extractLsb' 0 7 = x := by
  rw [BitVec.extractLsb'_append_extractLsb'_eq_extractLsb' (by omega)]
  exact BitVec.extractLsb'_eq_self

theorem tileId_split (n : BitVec 8) : (if ((0 : BitVec 6) ++ n.extractLsb' 7 1).extractLsb' 1 6 = 0 then
    some (((0 : BitVec 6) ++ n.extractLsb' 7 1).extractLsb' 0 1 ++ n.extractLsb' 0 7) else none) = some n := by
  rw [BitVec.extractLsb'_append_eq_of_le (by omega), BitVec.extractLsb'_append_eq_of_add_le (by omega), if_pos (by decide)]
  simp [append_id]

theorem tileIdWord_split (n : BitVec 8) (w : BitVec 3) : (if ((0 : BitVec 3) ++ w ++ n.extractLsb' 7 1).extractLsb' 4 3 = 0 then
    some (((0 : BitVec 3) ++ w ++ n.extractLsb' 7 1).extractLsb' 0 1 ++ n.extractLsb' 0 7) else none) = some n := by
  rw [BitVec.extractLsb'_append_eq_of_le (by omega), BitVec.extractLsb'_append_eq_of_le (by omega),
    BitVec.extractLsb'_append_eq_of_add_le (by omega), if_pos (by decide)]
  simp [append_id]

theorem tileWord_split (n : BitVec 8) (w : BitVec 3) : ((0 : BitVec 3) ++ w ++ n.extractLsb' 7 1).extractLsb' 1 3 = w := by
  rw [BitVec.extractLsb'_append_eq_of_le (by omega), BitVec.extractLsb'_append_eq_of_add_le (by omega)]
  simp

theorem Gen.stored_instr {i : Instr} {g : Gen} (hi : i.gen = some g) : g.stored.instr = some i := by
  cases i with
  | sel _ x | padd _ x | psub _ x | pmul _ x | pmin _ x | pmax _ x | icmp _ x | fcmp _ x | plop _ x | cvt _ x | frnd _ x
  | ldg _ x | stg _ x | lds _ x | sts _ x | ldb _ x | stb _ x | atomg _ x | atoms _ x | atomb _ x | pref _ x | qpush _ x | qpop _ x
  | bankop _ x | restripe _ x | mldw _ x | mma _ x | mrd _ x | mwr _ x
  | rload _ x | arm _ x | rspawn _ x | spawn _ x | waitf _ x | redux _ x | scan _ x | gmred _ x | bar _ x | vote _ x | lanemask _ x =>
    cases hi
    exact bind_eq_of_some x.read_bits
  | fence _ x | tfence _ x =>
    cases hi
    exact map_eq_of_some x.read_bits
  | imad _ x | imadw _ x | bfi _ x | prmt _ x | ffma _ x | pfma _ x | dfma _ x | lop3 _ x | cpy _ x | tload _ x | tstore _ x
  | msts _ x | rstat _ x | mscale _ x | mcst _ x | shfl _ x =>
    cases hi
    exact bind_eq_of_some x.read_withCode
  | movi _ _ m | call _ _ m | trap _ m =>
    cases hi
    exact map_eq_of_some (congrArg some (append_halves_fourteen m))
  | brh p m a =>
    cases hi
    exact congrArg (fun y => some (Instr.brh p y a)) (append_halves_fourteen m)
  | bra _ m =>
    cases hi
    exact map_eq_of_some (congrArg some (append_thirds m))
  | tdef _ n =>
    cases hi
    exact bind_eq_of_some (tileId_split n)
  | tqry p d n w =>
    cases hi
    exact (bind_eq_of_some (tileIdWord_split n w)).trans (congrArg (fun y => some (Instr.tqry p d n y)) (tileWord_split n w))
  | coll p h a => cases hi; cases h <;> rfl
  | _ => cases hi <;> rfl


theorem page_of_gen {i : Instr} {g : Gen} (hi : i.gen = some g) : i.page = g.page := by
  rw [Instr.page, hi]; rfl

theorem encode_of_gen {i : Instr} {g : Gen} (hi : i.gen = some g) : encode i = g.words := by
  rw [encode, hi]; rfl

theorem decodeWords_encode {i : Instr} (hs : i.shapeOk = true) (hg : i.gen.isSome = true) (ws : List Word) :
    decodeWords i.page (encode i ++ ws) = .ok (i, ws) := by
  obtain ⟨g, hi⟩ := Option.isSome_iff_exists.mp hg
  rw [page_of_gen hi, encode_of_gen hi, decodeWords, readGen_words (fits_of_gen hi hs)]
  simp only [Gen.stored_instr hi, hs, if_true]

theorem instrLen_encode {i : Instr} (hs : i.shapeOk = true) (hg : i.gen.isSome = true) (ws : List Word) :
    instrLen i.page (encode i ++ ws) = (encode i).length := by
  obtain ⟨g, hi⟩ := Option.isSome_iff_exists.mp hg
  rw [page_of_gen hi, encode_of_gen hi, instrLen_words (fits_of_gen hi hs)]

/-! ### Step words (R363) -/

/-- The low half of a step word. -/
def StepW.low (op : BitVec 4) (x : StepW) : Word :=
  if op = 10 ∧ x.md = true then x.value else x.sb ++ x.fb ++ x.nb ++ (0 : BitVec 12)

/-- The fields of the low half that the form does not hold are zero. -/
def StepW.LowOk (op : BitVec 4) (x : StepW) : Prop :=
  if op = 10 ∧ x.md = true then x.sb = 0 ∧ x.fb = 0 ∧ x.nb = 0 else x.value = 0

section

variable (op : BitVec 4) (x : StepW)

theorem StepW.toDWord_eq : x.toDWord op =
    op ++ x.pa ++ x.pb ++ x.bs ++ x.bd ++ x.ia ++ x.ij ++ x.ib ++ b1 x.cf ++ b1 x.md ++ x.k ++ x.low op := rfl

theorem StepW.toDWord_op : dbits (x.toDWord op) 60 4 = op := by
  rw [StepW.toDWord_eq]
  simp [-BitVec.append_eq, HAppend.hAppend]

theorem StepW.toDWord_md : (x.toDWord op).getLsbD 44 = x.md := by
  rw [StepW.toDWord_eq]
  simp [-BitVec.append_eq, -BitVec.getLsbD_eq_getElem, HAppend.hAppend]

theorem StepW.toDWord_fields : dbits (x.toDWord op) 58 2 = x.pa ∧ dbits (x.toDWord op) 56 2 = x.pb ∧ dbits (x.toDWord op) 54 2 = x.bs ∧
    dbits (x.toDWord op) 52 2 = x.bd ∧ dbits (x.toDWord op) 50 2 = x.ia ∧ dbits (x.toDWord op) 48 2 = x.ij ∧
    dbits (x.toDWord op) 46 2 = x.ib ∧ (x.toDWord op).getLsbD 45 = x.cf ∧ dbits (x.toDWord op) 32 12 = x.k := by
  rw [StepW.toDWord_eq]
  simp [-BitVec.append_eq, -BitVec.getLsbD_eq_getElem, HAppend.hAppend]

theorem StepW.toDWord_low {lo len : Nat} (h : lo + len ≤ 32) : dbits (x.toDWord op) lo len = (x.low op).extractLsb' lo len :=
  BitVec.extractLsb'_append_eq_of_add_le h

/-- The fields of a low half that is not a value. -/
theorem low_fields (sb : BitVec 8) (fb nb : BitVec 6) :
    (sb ++ fb ++ nb ++ (0 : BitVec 12)).extractLsb' 24 8 = sb ∧ (sb ++ fb ++ nb ++ (0 : BitVec 12)).extractLsb' 18 6 = fb ∧
    (sb ++ fb ++ nb ++ (0 : BitVec 12)).extractLsb' 12 6 = nb ∧ (sb ++ fb ++ nb ++ (0 : BitVec 12)).extractLsb' 0 12 = 0 := by
  simp [-BitVec.append_eq, HAppend.hAppend]

end

/-- A step word gives back the fields that it was made of. -/
theorem StepW.ofDWord_toDWord {op : BitVec 4} {x : StepW} (h : x.LowOk op) : StepW.ofDWord (x.toDWord op) = x := by
  obtain ⟨hpa, hpb, hbs, hbd, hia, hij, hib, hcf, hk⟩ := StepW.toDWord_fields op x
  unfold StepW.ofDWord
  simp only [StepW.toDWord_op, StepW.toDWord_md, StepW.toDWord_low, Nat.reduceAdd, Nat.reduceLeDiff, hpa, hpb, hbs, hbd, hia, hij,
    hib, hcf, hk]
  obtain ⟨pa, pb, bs, bd, ia, ij, ib, cf, md, k, sb, fb, nb, value⟩ := x
  obtain ⟨hs, hf, hn, -⟩ := low_fields sb fb nb
  unfold StepW.LowOk at h
  by_cases hv : op = 10 ∧ md = true
  · rw [if_pos hv] at h
    obtain ⟨rfl, rfl, rfl⟩ := h
    simp [StepW.low, hv]
  · rw [if_neg hv] at h
    subst h
    simp only [StepW.low, if_neg hv, hs, hf, hn]

/-- The bits below the fields of a low half that is not a value are zero. -/
theorem StepW.toDWord_rest {op : BitVec 4} {x : StepW} (hv : ¬ (op = 10 ∧ x.md = true)) : dbits (x.toDWord op) 0 12 = 0 := by
  rw [StepW.toDWord_low op x (by decide), StepW.low, if_neg hv]
  exact (low_fields x.sb x.fb x.nb).2.2.2

theorem decodeStep_toDWord {op : BitVec 4} {x : StepW} {i : Instr} (hx : x.LowOk op) (hi : stepOf op.toNat x = some i)
    (hs : i.shapeOk = true) : decodeStep (x.toDWord op) = .ok i := by
  have hz : ¬ (¬ (op = 10 ∧ x.md = true) ∧ dbits (x.toDWord op) 0 12 ≠ 0) := fun h => h.2 (StepW.toDWord_rest h.1)
  simp only [decodeStep, StepW.toDWord_op, StepW.toDWord_md, if_neg hz, StepW.ofDWord_toDWord hx, hi, hs, if_true]

theorem StepW.lowOk_of_value {op : BitVec 4} {x : StepW} (ho : op ≠ 10) (h : x.value = 0) : x.LowOk op := by
  rwa [StepW.LowOk, if_neg fun hv => ho hv.1]

theorem StepW.lowOk_of_signal {x : StepW} (hs : (Instr.signal x).shapeOk = true) : x.LowOk 10 := by
  unfold StepW.LowOk
  simp only [Instr.shapeOk, Bool.and_eq_true, Bool.or_eq_true, decide_eq_true_eq] at hs
  obtain ⟨hv, ho⟩ := hs
  cases hm : x.md with
  | true =>
    simp only [hm, if_true, StepW.only, Bool.false_or, Bool.and_eq_true, decide_eq_true_eq] at ho
    simp [ho]
  | false => simpa [hm] using hv

theorem decodeStep_encodeStep {i : Instr} {w : DWord} (hs : i.shapeOk = true) (hi : encodeStep i = some w) :
    decodeStep w = .ok i := by
  have hs' := hs
  cases i with
  | signal x =>
    cases hi
    exact decodeStep_toDWord (StepW.lowOk_of_signal hs) rfl hs
  | _ =>
    cases hi <;>
    · simp only [Instr.shapeOk, Bool.and_eq_true, decide_eq_true_eq] at hs'
      exact decodeStep_toDWord (StepW.lowOk_of_value (by decide) (by simp [hs'])) rfl hs

/-- Settles O49: the fields of a well-formed instruction fit the form of its opcode, so that they are read back, and they
name the instruction that they were split from; the fields of a step word are read back in the same way. -/
theorem decodingInvertsEncoding : Obligations.DecodingInvertsEncoding := by
  unfold Obligations.DecodingInvertsEncoding
  exact ⟨fun _ ws hs hg => decodeWords_encode hs hg ws, fun _ ws hs hg => instrLen_encode hs hg ws,
    fun _ _ hs hi => decodeStep_encodeStep hs hi⟩

/-- Settles O50: each word is decoded. -/
theorem wordsOfTheSpecDecode : Obligations.WordsOfTheSpecDecode := by
  unfold Obligations.WordsOfTheSpecDecode
  refine ⟨?_, ?_, ?_, ?_, ?_, ?_, ?_, ?_, ?_, ?_, ?_, ?_⟩ <;> rfl

end Sys2Proof

end

section

/-! Proofs. The slot that a step executes. -/

namespace Sys2Proof.Machine

section

variable {s t : State} {sl : Slot} {rest : List Slot} {i : Instr}

theorem noteBack_timed (hi : s.issue = sl :: rest) (ht : (sl.begins.isSome || sl.prog.isSome) = true) : s.noteBack = s := by
  simp only [State.noteBack, hi, ht, if_true]

/-- A sweep whose slots have been timed goes on with its first slot. -/
theorem nextSlot_timed (hi : s.issue = sl :: rest) (ht : (sl.begins.isSome || sl.prog.isSome) = true) :
    s.nextSlot = State.slotInstr { s with issue := rest } sl := by
  simp only [State.nextSlot, hi, ht, if_true]

theorem step_of_fetched (hi : s.issue = sl :: rest) (ht : (sl.begins.isSome || sl.prog.isSome) = true)
    (h : State.slotInstr { s with issue := rest } sl = (t, some i)) : step s = after (exec i t) := by
  simp only [step, hi, noteBack_timed hi ht, nextSlot_timed hi ht, h]

theorem step_of_not_fetched (hi : s.issue = sl :: rest) (ht : (sl.begins.isSome || sl.prog.isSome) = true)
    (h : State.slotInstr { s with issue := rest } sl = (t, none)) : step s = .next t := by
  simp only [step, hi, noteBack_timed hi ht, nextSlot_timed hi ht, h]

end

/-- The decoder of a clause in progress. -/
theorem Clause.decode_eq (c : Clause) (pc : Nat) :
    c.decode pc = (decodeWords (c.pageAt (c.idx pc)) ((c.ws.take c.area).drop (c.idx pc))).map Prod.fst := rfl

section

variable {s t : State} {sl : Slot} {g : Group} {cl : Clause} {i : Instr} (hp : sl.prog = none) (hg : s.group? sl.gid = some g)
  (hc : ((s.slotLanes sl).head?.bind fun l => (s.thread sl.gid l).clause) = some cl)

include hp hg hc

theorem slotInstr_charged (hd : cl.decode sl.pc = .ok i) (h : s.charge { sl with lanes := s.slotLanes sl } g i = .ok t) :
    s.slotInstr sl = ({ t with cur := some { sl with lanes := s.slotLanes sl } }, some i) := by
  cases sl
  cases hp
  simp only [State.slotInstr, hg, hc, hd, h]

theorem slotInstr_waits (hd : cl.decode sl.pc = .ok i) (h : s.charge { sl with lanes := s.slotLanes sl } g i = .error t) :
    s.slotInstr sl = (t, none) := by
  cases sl
  cases hp
  simp only [State.slotInstr, hg, hc, hd, h]

theorem slotInstr_illegal {e : DecodeError} (hd : cl.decode sl.pc = .error e) :
    s.slotInstr sl = (s.trapAt sl.gid (s.slotLanes sl) .illegalInstruction .precise 0, none) := by
  simp only [State.slotInstr, hp, hg, hc, hd]

end

theorem slotInstr_prog {s : State} {sl : Slot} {k : Nat} {p : Prog} {w : DWord} {i : Instr} (hp : sl.prog = some k)
    (hk : s.prog? k = some p) (hw : p.words[p.ip]? = some w) (hd : decodeStep w = .ok i) :
    s.slotInstr sl = ({ s with cur := some sl }, some i) := by
  simp only [State.slotInstr, hp, hk, Option.bind_some, hw, Option.map_some, hd]

/-- The lanes that a slot executes stand at its address (R21). -/
theorem pc_of_mem_slotLanes {s : State} {sl : Slot} {l : Nat} (h : l ∈ s.slotLanes sl) : (s.thread sl.gid l).pc = sl.pc := by
  cases hg : s.group? sl.gid with
  | none => simp [State.slotLanes, hg] at h
  | some g =>
    simp only [State.slotLanes, hg, List.mem_filter, Bool.and_eq_true, decide_eq_true_eq] at h
    rw [state_thread_eq hg]
    obtain ⟨-, ⟨⟨-, hpc⟩, -⟩, -⟩ := h
    exact hpc

theorem step_due {s : State} {t : Nat} {i : Instr} {x : Sel} {rest : List (Nat × Instr × Sel)} (hi : s.issue = [])
    (ha : s.agenda = (t, i, x) :: rest) (ht : t ≤ s.rtime) :
    step s = after (exec i { s with rtime := max s.rtime t, sel := x, agenda := rest }) := by
  simp only [step, hi, ha, if_pos ht]

/-- Settles O51: a step runs what the first slot fetches, which its clause or its program decides, or the event that is due. -/
theorem stepRunsTheDecodedInstruction : Obligations.StepRunsTheDecodedInstruction := by
  unfold Obligations.StepRunsTheDecodedInstruction
  intro ended
  have he : ended = after := by
    funext o
    cases o <;> rfl
  rw [he]
  refine ⟨fun s sl rest g cl i more u hi hp hb => ?_, fun s sl rest g cl e hi hp hb => ?_, fun s sl l => pc_of_mem_slotLanes,
    fun s sl rest k p w i hi hp hk hw hd => ?_, fun s t i x rest hi ha ht => step_due hi ha ht⟩
  · intro t lanes hg hc hd
    have ht : (sl.begins.isSome || sl.prog.isSome) = true := by rw [hb, Bool.true_or]
    have hi' : cl.decode sl.pc = .ok i := by rw [Clause.decode_eq, hd]; rfl
    exact ⟨fun h => step_of_fetched hi ht (slotInstr_charged hp hg hc hi' h),
      fun h => step_of_not_fetched hi ht (slotInstr_waits hp hg hc hi' h)⟩
  · intro t lanes hg hc hd
    have ht : (sl.begins.isSome || sl.prog.isSome) = true := by rw [hb, Bool.true_or]
    exact step_of_not_fetched hi ht (slotInstr_illegal hp hg hc (e := e) (by rw [Clause.decode_eq, hd]; rfl))
  · have ht : (sl.begins.isSome || sl.prog.isSome) = true := by rw [hp, Option.isSome_some, Bool.or_true]
    exact step_of_fetched hi ht (slotInstr_prog hp hk hw hd)

end Sys2Proof.Machine

end

section

/-! Proofs. Compares. -/

namespace Sys2Proof.Machine

/-! ### A predicate pair that is written changes no operand -/

section

variable (s : State) (gid k l m : Nat) (b : Bool)

theorem setPair_eq : s.setPair gid k l b = s.modGroup gid fun g => (g.setPred (2 * k) l b).setPred (2 * k + 1) l (!b) := rfl

@[simp] theorem thread_setPair : (s.setPair gid k l b).thread gid m = s.thread gid m := by
  simp only [State.thread, setPair_eq, group?_modGroup]
  cases s.group? gid <;> rfl

@[simp] theorem hz_setPair : (s.setPair gid k l b).hz gid m = s.hz gid m := by
  simp only [State.hz, thread_setPair]
  rfl

@[simp] theorem cycOf_setPair : (s.setPair gid k l b).cycOf gid m = s.cycOf gid m := by
  simp only [State.cycOf, setPair_eq, group?_modGroup]
  cases s.group? gid <;> rfl

@[simp] theorem tickOf_setPair : (s.setPair gid k l b).tickOf gid m = s.tickOf gid m := by
  simp only [State.tickOf, cycOf_setPair]
  rw [setPair_eq, group?_modGroup, show (s.modGroup gid _).cur = s.cur from rfl]
  cases s.cur <;> cases s.group? gid <;> rfl

@[simp] theorem src32_setPair (o : Opnd) : (s.setPair gid k l b).src32 gid m o = s.src32 gid m o := by
  cases o with
  | s n =>
    simp only [State.src32, setPair_eq, group?_modGroup]
    cases s.group? gid <;> rfl
  | v _ | t _ | k _ | lane | hz | opc | rtime | nul | lit _ | litNone =>
    simp only [State.src32, thread_setPair, hz_setPair, tickOf_setPair]

@[simp] theorem src64_setPair (o : Opnd) (x : Bool) : (s.setPair gid k l b).src64 gid m o x = s.src64 gid m o x := by
  cases o <;> simp only [State.src64, src32_setPair]

@[simp] theorem srcAny_setPair (ty : Ty) (o : Opnd) : (s.setPair gid k l b).srcAny gid m ty o = s.srcAny gid m ty o := by
  have h : (s.setPair gid k l b).srcT gid m ty o = s.srcT gid m ty o := by
    cases o <;> simp only [State.srcT, src32_setPair]
  simp only [State.srcAny, State.srcT64, src64_setPair, h]

@[simp] theorem fpTrap?_setPair (fl : Flags) : (s.setPair gid k l b).fpTrap? gid fl = s.fpTrap? gid fl := by
  simp only [State.fpTrap?, setPair_eq, group?_modGroup]
  cases s.group? gid <;> rfl

theorem raise_setPair (fl : Flags) : (s.setPair gid k l b).raise gid fl = (s.raise gid fl).setPair gid k l b := by
  simp only [setPair_eq, raise_eq, modGroup_modGroup]
  rfl

end

/-- A compare of operands that neither a pair nor a flag changes. -/
def Blind (f : State → Nat → Nat → Bool × Flags) : Prop :=
  ∀ s gid m, (∀ k l b, f (s.setPair gid k l b) gid m = f s gid m) ∧ ∀ fl, f (s.raise gid fl) gid m = f s gid m

/-- What the compares of the lanes `ls` leave: first all flags, then all pairs. -/
def State.compared (s : State) (gid k : Nat) (f : State → Nat → Nat → Bool × Flags) (ls : List Nat) : State :=
  (s.raise gid (ls.foldl (fun x l => x ||| (f s gid l).2) 0)).paired gid k ls fun l => (f s gid l).1

section

variable (s : State) (gid k : Nat) (ls : List Nat)

theorem paired_append (l : Nat) (f : Nat → Bool) : s.paired gid k (ls ++ [l]) f = (s.paired gid k ls f).setPair gid k l (f l) := by
  simp [State.paired, List.foldl_append]

theorem raise_paired (f : Nat → Bool) (fl : Flags) : (s.paired gid k ls f).raise gid fl = (s.raise gid fl).paired gid k ls f := by
  unfold State.paired
  induction ls generalizing s with
  | nil => rfl
  | cons l ls ih => rw [List.foldl_cons, ih, raise_setPair, List.foldl_cons]

theorem fpTrap?_paired (f : Nat → Bool) (fl : Flags) : (s.paired gid k ls f).fpTrap? gid fl = s.fpTrap? gid fl := by
  unfold State.paired
  induction ls generalizing s with
  | nil => rfl
  | cons l ls ih => rw [List.foldl_cons, ih, fpTrap?_setPair]

variable {f : State → Nat → Nat → Bool × Flags}

theorem Blind.paired (hf : Blind f) (c : Nat → Bool) (m : Nat) : f (s.paired gid k ls c) gid m = f s gid m := by
  unfold State.paired
  induction ls generalizing s with
  | nil => rfl
  | cons l ls ih => rw [List.foldl_cons, ih, (hf s gid m).1]

theorem compared_append (l : Nat) : s.compared gid k f (ls ++ [l]) =
    ((s.compared gid k f ls).raise gid (f s gid l).2).setPair gid k l (f s gid l).1 := by
  simp only [State.compared, List.foldl_append, List.foldl_cons, List.foldl_nil, paired_append, raise_paired, raise_raise]

theorem Blind.compared (hf : Blind f) (m : Nat) : f (s.compared gid k f ls) gid m = f s gid m := by
  rw [State.compared, hf.paired, (hf s gid m).2]

theorem fpTrap?_compared (fl : Flags) : (s.compared gid k f ls).fpTrap? gid fl = s.fpTrap? gid fl := by
  rw [State.compared, fpTrap?_paired, (Same.raise gid 0 s _).fpTrap?]

end

theorem compared_nil (s : State) (gid k : Nat) (f : State → Nat → Nat → Bool × Flags) : s.compared gid k f [] = s :=
  raise_zero s gid

/-- What `compareOp` does in one lane. -/
def compareLane (k : Nat) (f : State → Nat → Nat → Bool × Flags) (s : State) (gid l : Nat) : State × LaneRes :=
  match (s.raise gid (f s gid l).2).fpTrap? gid (f s gid l).2 with
  | some e => (s.raise gid (f s gid l).2, .trap e 0)
  | none => ((s.raise gid (f s gid l).2).setPair gid k l (f s gid l).1, .next)

theorem compareLane_compared {f : State → Nat → Nat → Bool × Flags} (hf : Blind f) {s : State} {gid l : Nat}
    (ht : s.fpTrap? gid (f s gid l).2 = none) (k : Nat) (ls : List Nat) :
    compareLane k f (s.compared gid k f ls) gid l = (s.compared gid k f (ls ++ [l]), .next) := by
  simp only [compareLane, hf.compared, (Same.raise gid 0 _ _).fpTrap?, fpTrap?_compared, ht, compared_append]

/-- Everything that `compareOp` does for a path that executes and raises no enabled flag. -/
theorem compareOp_executes {i : Instr} {p : Pre} {k : BitVec 7} {f : State → Nat → Nat → Bool × Flags} (hf : Blind f)
    {s : State} {c : Slot} {g : Group} {on off : List Nat} {s1 : State} (h : Executes i p s c g on off s1)
    (hd : (i.need g.w).dst = none) (hm : (i.need g.w).mode = .thread)
    (ht : ∀ l ∈ on, s1.fpTrap? c.gid (f s1 c.gid l).2 = none) :
    compareOp i p k f s = .next ((s1.compared c.gid k.toNat f on).goOn c.gid off on) := by
  have hrun := perLane_thread_chain (i := i) (f := compareLane k.toNat f) (c := c) (g := g) h.ran hm
    (t := fun n => s1.compared c.gid k.toNat f (on.take n)) fun n hn => by
      have hl : on.getD n 0 = on[n] := List.getD_eq_getElem _ _ hn
      rw [hl, compareLane_compared hf (ht _ (List.getElem_mem hn)), List.take_concat_get' _ _ hn]
  simp only [List.take_zero, compared_nil, List.take_length] at hrun
  exact inSlot_start_next h (by rw [dstNames, hd]) hrun

theorem fpTrap?_zero (s : State) (gid : Nat) : s.fpTrap? gid 0 = none := by
  unfold State.fpTrap?
  cases s.group? gid <;> simp

theorem zero_union (ls : List Nat) : ls.foldl (fun (x : Flags) _ => x ||| 0) 0 = 0 := by
  simp

theorem icmp_blind (x : CmpX) (a b : Opnd) : Blind fun s g l =>
    (icond x.cc (x.ty.toInt (s.srcAny g l x.ty a)) (x.ty.toInt (s.srcAny g l x.ty b)), 0) := fun s gid m =>
  ⟨fun k l b => by simp only [srcAny_setPair], fun fl => by simp only [(Same.raise gid m s fl).srcAny]⟩

theorem fcmp_blind (x : CmpX) (a b : Opnd) : Blind fun s g l =>
    (scalarFmt x.ty).cond x.cc (s.srcAny g l x.ty a) (s.srcAny g l x.ty b) := fun s gid m =>
  ⟨fun k l b => by simp only [srcAny_setPair], fun fl => by simp only [(Same.raise gid m s fl).srcAny]⟩

/-- Settles O7: `ICMP` raises no flag, `FCMP` those of its lanes' comparisons. -/
theorem comparesComplete : Obligations.ComparesComplete := by
  unfold Obligations.ComparesComplete
  refine ⟨fun p x d a b s c g on off s1 h => ?_, fun p x d a b s c g on off s1 h ht => ?_⟩
  · have he := compareOp_executes (icmp_blind x a b) (k := d) h rfl rfl fun l _ => fpTrap?_zero s1 c.gid
    rwa [State.compared, zero_union, raise_zero] at he
  · exact compareOp_executes (fcmp_blind x a b) h rfl rfl ht

end Sys2Proof.Machine

end

section

/-! Proofs. Going on: what leaving a clause and going on to the next instruction change of a group. -/

namespace Sys2Proof.Machine

/-! ### Threads that are changed one after the other -/

/-- The threads `ls` are changed one after the other. -/
def Group.modThreads (g : Group) (ls : List Nat) (f : Nat → Thread → Thread) : Group := ls.foldl (fun g l => g.modThread l (f l)) g

theorem foldl_modThread (s : State) (gid : Nat) (ls : List Nat) (f : Nat → Thread → Thread) :
    ls.foldl (fun s l => s.modThread gid l (f l)) s = s.modGroup gid fun g => g.modThreads ls f := by
  induction ls generalizing s with
  | nil => exact (modGroup_self s gid).symm
  | cons l ls ih => rw [List.foldl_cons, ih, State.modThread, modGroup_modGroup]; rfl

/-- A thread when names have been released. -/
def Thread.release (ns : List Nat) (t : Thread) : Thread :=
  { t with
    v := t.v.filter fun e => !ns.contains e.1
    lost := if t.wait.isSome then ns ++ t.lost else t.lost }

/-- A group when names have been released (R26). -/
def Group.release (ns : List Nat) (g : Group) : Group :=
  { g with
    mapped := g.mapped.filter fun e => !ns.contains e.1
    inBlock := g.inBlock.filter fun e => !ns.contains e.1
    threads := Map.modAll (fun _ t => t.release ns) g.threads }

theorem unmap_eq (s : State) (gid : Nat) (ns : List Nat) : s.unmap gid ns = s.modGroup gid (Group.release ns) := rfl

theorem thread?_release (ns : List Nat) (g : Group) (l : Nat) : (g.release ns).thread? l = (g.thread? l).map (Thread.release ns) := by
  simp only [Group.thread?, Group.release, Map.get?_modAll]

/-- From `g` to `h` the path `lanes` has moved: its threads stand elsewhere, in no clause or in the same one. Names have been released
only where `rel` holds. -/
structure Moved (rel : Prop) (lanes : List Nat) (g h : Group) : Prop where
  rest : h = { g with skip := h.skip, threads := h.threads, mapped := h.mapped, inBlock := h.inBlock }
  held : ¬rel → h.mapped = g.mapped ∧ h.inBlock = g.inBlock
  threads : ∀ l x, g.thread? l = some x → ∃ y, h.thread? l = some y ∧
    y = { x with pc := y.pc, clause := y.clause, t := y.t, wait := y.wait, v := y.v, lost := y.lost } ∧
    (y.clause = x.clause ∨ y.clause = none) ∧ (l ∉ lanes → y = { x with v := y.v, lost := y.lost }) ∧
    (¬rel → y.v = x.v ∧ y.lost = x.lost)
  absent : ∀ l, g.thread? l = none → h.thread? l = none

section

variable {rel : Prop} {lanes : List Nat} {g h k : Group}

theorem Moved.refl (rel : Prop) (lanes : List Nat) (g : Group) : Moved rel lanes g g :=
  ⟨rfl, fun _ => ⟨rfl, rfl⟩, fun _ x hx => ⟨x, hx, rfl, .inl rfl, fun _ => rfl, fun _ => ⟨rfl, rfl⟩⟩, fun _ => id⟩

theorem Moved.trans (a : Moved rel lanes g h) (b : Moved rel lanes h k) : Moved rel lanes g k := by
  refine ⟨?_, fun n => ?_, fun l x hx => ?_, fun l hl => b.absent l (a.absent l hl)⟩
  · rw [b.rest, a.rest]
  · obtain ⟨am, ai⟩ := a.held n
    obtain ⟨bm, bi⟩ := b.held n
    exact ⟨bm.trans am, bi.trans ai⟩
  · obtain ⟨y, hy, ey, cy, oy, ny⟩ := a.threads l x hx
    obtain ⟨z, hz, ez, cz, oz, nz⟩ := b.threads l y hy
    refine ⟨z, hz, ?_, ?_, fun hl => ?_, fun n => ?_⟩
    · rw [ez, ey]
    · rcases cz with cz | cz
      · rw [cz]; exact cy
      · exact .inr cz
    · rw [oz hl, oy hl]
    · exact ⟨(nz n).1.trans (ny n).1, (nz n).2.trans (ny n).2⟩

theorem Moved.mono {rel' : Prop} {lanes' : List Nat} (hr : rel → rel') (hl : ∀ l ∈ lanes, l ∈ lanes') (a : Moved rel lanes g h) :
    Moved rel' lanes' g h := by
  refine ⟨a.rest, fun n => a.held fun r => n (hr r), fun l x hx => ?_, a.absent⟩
  obtain ⟨y, hy, ey, cy, oy, ny⟩ := a.threads l x hx
  exact ⟨y, hy, ey, cy, fun n => oy fun m => n (hl l m), fun n => ny fun r => n (hr r)⟩

/-- One thread of the path moves. -/
theorem Moved.modThread {l : Nat} (hl : l ∈ lanes) {f : Thread → Thread}
    (hf : ∀ x, f x = { x with pc := (f x).pc, clause := (f x).clause, t := (f x).t, wait := (f x).wait })
    (hc : ∀ x, (f x).clause = x.clause ∨ (f x).clause = none) (g : Group) : Moved rel lanes g (g.modThread l f) := by
  refine ⟨rfl, fun _ => ⟨rfl, rfl⟩, fun k x hx => ?_, fun k hk => ?_⟩
  · by_cases h : k = l
    · subst h
      refine ⟨f x, by rw [thread?_modThread, hx]; rfl, ?_, hc x, fun n => absurd hl n, fun _ => ?_⟩
      · rw [hf x]
      · rw [hf x]; exact ⟨rfl, rfl⟩
    · exact ⟨x, by rw [thread?_modThread_ne h, hx], rfl, .inl rfl, fun _ => rfl, fun _ => ⟨rfl, rfl⟩⟩
  · by_cases h : k = l
    · subst h; rw [thread?_modThread, hk]; rfl
    · rw [thread?_modThread_ne h, hk]

theorem Moved.modThreads {ls : List Nat} (hl : ∀ l ∈ ls, l ∈ lanes) {f : Nat → Thread → Thread}
    (hf : ∀ l x, f l x = { x with pc := (f l x).pc, clause := (f l x).clause, t := (f l x).t, wait := (f l x).wait })
    (hc : ∀ l x, (f l x).clause = x.clause ∨ (f l x).clause = none) (g : Group) : Moved rel lanes g (g.modThreads ls f) := by
  induction ls generalizing g with
  | nil => exact Moved.refl ..
  | cons l ls ih =>
    exact (Moved.modThread (hl l (by simp)) (hf l) (hc l) g).trans (ih (fun m hm => hl m (by simp [hm])) _)

theorem thread_eq_of_absent {l : Nat} (h : g.thread? l = none) : g.thread l = {} := by
  simp only [Group.thread, Map.get, show Map.get? g.threads l = none from h, Option.getD_none]

theorem Moved.pc (h : Moved rel lanes g k) {l : Nat} (hl : l ∉ lanes) : (k.thread l).pc = (g.thread l).pc := by
  cases hx : g.thread? l with
  | none => rw [thread_eq_of_absent hx, thread_eq_of_absent (h.absent l hx)]
  | some x =>
    obtain ⟨y, hy, -, -, oy, -⟩ := h.threads l x hx
    rw [thread_eq_of_thread? hx, thread_eq_of_thread? hy, oy hl]

theorem Moved.clause (h : Moved rel lanes g k) (l : Nat) : (k.thread l).clause = (g.thread l).clause ∨ (k.thread l).clause = none := by
  cases hx : g.thread? l with
  | none => exact .inl (by rw [thread_eq_of_absent hx, thread_eq_of_absent (h.absent l hx)])
  | some x =>
    obtain ⟨y, hy, -, cy, -, -⟩ := h.threads l x hx
    rwa [thread_eq_of_thread? hx, thread_eq_of_thread? hy]

/-- Names that are released leave a thread where it stands. -/
theorem Moved.released (hr : rel) (ns : List Nat) (g : Group) : Moved rel lanes g (g.release ns) :=
  ⟨rfl, fun n => absurd hr n, fun l x hx => ⟨x.release ns, by rw [thread?_release, hx]; rfl, rfl, .inl rfl, fun _ => rfl,
    fun n => absurd hr n⟩, fun l hl => by rw [thread?_release, hl]; rfl⟩

end

/-- From `s` to `t` the path `lanes` of group `gid` has moved, and nothing else has changed. -/
def MovedOn (rel : Prop) (gid : Nat) (lanes : List Nat) (s t : State) : Prop :=
  ∃ f : Group → Group, t = s.modGroup gid f ∧ ∀ g, Moved rel lanes g (f g)

section

variable {rel : Prop} {gid : Nat} {lanes : List Nat} {s t u : State}

theorem MovedOn.refl (rel : Prop) (gid : Nat) (lanes : List Nat) (s : State) : MovedOn rel gid lanes s s :=
  ⟨fun g => g, (modGroup_self s gid).symm, fun _ => Moved.refl ..⟩

theorem MovedOn.trans (a : MovedOn rel gid lanes s t) (b : MovedOn rel gid lanes t u) : MovedOn rel gid lanes s u := by
  obtain ⟨f, rfl, hf⟩ := a
  obtain ⟨h, rfl, hh⟩ := b
  exact ⟨fun g => h (f g), modGroup_modGroup .., fun g => (hf g).trans (hh _)⟩

theorem MovedOn.mono {rel' : Prop} {lanes' : List Nat} (hr : rel → rel') (hl : ∀ l ∈ lanes, l ∈ lanes')
    (a : MovedOn rel gid lanes s t) : MovedOn rel' gid lanes' s t := by
  obtain ⟨f, rfl, hf⟩ := a
  exact ⟨f, rfl, fun g => (hf g).mono hr hl⟩

theorem MovedOn.modThreads {ls : List Nat} (hl : ∀ l ∈ ls, l ∈ lanes) {f : Nat → Thread → Thread}
    (hf : ∀ l x, f l x = { x with pc := (f l x).pc, clause := (f l x).clause, t := (f l x).t, wait := (f l x).wait })
    (hc : ∀ l x, (f l x).clause = x.clause ∨ (f l x).clause = none) (s : State) :
    MovedOn rel gid lanes s (ls.foldl (fun s l => s.modThread gid l (f l)) s) :=
  ⟨_, foldl_modThread s gid ls f, Moved.modThreads hl hf hc⟩

theorem MovedOn.unmap (hr : rel) (ns : List Nat) (s : State) : MovedOn rel gid lanes s (s.unmap gid ns) :=
  ⟨_, rfl, Moved.released hr ns⟩

theorem MovedOn.pc (h : MovedOn rel gid lanes s t) {l : Nat} (hl : l ∉ lanes) : (t.thread gid l).pc = (s.thread gid l).pc := by
  obtain ⟨f, rfl, hf⟩ := h
  cases hg : s.group? gid with
  | none => simp only [State.thread, group?_modGroup, hg, Option.map_none]
  | some g =>
    rw [state_thread_eq (g := f g) (by rw [group?_modGroup, hg]; rfl), state_thread_eq hg, (hf g).pc hl]

theorem MovedOn.clause (h : MovedOn rel gid lanes s t) (l : Nat) :
    (t.thread gid l).clause = (s.thread gid l).clause ∨ (t.thread gid l).clause = none := by
  obtain ⟨f, rfl, hf⟩ := h
  cases hg : s.group? gid with
  | none => simp only [State.thread, group?_modGroup, hg, Option.map_none, true_or]
  | some g =>
    rw [state_thread_eq (g := f g) (by rw [group?_modGroup, hg]; rfl), state_thread_eq hg]
    exact (hf g).clause l

theorem MovedOn.skips (s : State) : MovedOn rel gid lanes s (s.modGroup gid fun g => { g with skip := true }) :=
  ⟨_, rfl, fun _ => ⟨rfl, fun _ => ⟨rfl, rfl⟩, fun _ x hx => ⟨x, hx, rfl, .inl rfl, fun _ => rfl, fun _ => ⟨rfl, rfl⟩⟩, fun _ => id⟩⟩

end

/-- Whether a clause in progress of these threads releases names at its end (R53). -/
def State.releasesIn (s : State) (gid : Nat) (lanes : List Nat) : Prop :=
  ∃ l ∈ lanes, ∃ c, (s.thread gid l).clause = some c ∧ c.header.rel = true

theorem leave_moves (s : State) (gid : Nat) (lanes : List Nat) (pc : Nat → Nat) :
    MovedOn (s.releasesIn gid lanes) gid lanes s (s.leave gid lanes pc) := by
  unfold State.leave
  extract_lets cl hold stop u
  have hu : MovedOn (s.releasesIn gid lanes) gid lanes s u :=
    MovedOn.modThreads (f := fun l t => { t with pc := pc l, clause := none, t := [], wait := stop l }) (fun _ => id)
      (fun _ _ => rfl) (fun _ _ => .inr rfl) s
  cases hcl : cl with
  | none => exact hu
  | some c =>
    dsimp only
    have hr : MovedOn (s.releasesIn gid lanes) gid lanes u (if c.header.rel then u.unmap gid c.releases else u) := by
      split
      next h =>
        obtain ⟨l, hl, hc⟩ := List.exists_of_findSome?_eq_some hcl
        exact MovedOn.unmap ⟨l, hl, c, hc, h⟩ _ u
      next => exact MovedOn.refl ..
    split
    · exact (hu.trans hr).trans (MovedOn.skips _)
    · exact hu.trans hr

theorem advance_moves (s : State) (gid : Nat) (lanes : List Nat) :
    MovedOn (s.releasesIn gid lanes) gid lanes s (s.advance gid lanes) := by
  unfold State.advance
  split
  next => exact MovedOn.refl ..
  next l0 ls =>
    extract_lets t
    split
    next => exact MovedOn.refl ..
    next c hc =>
      extract_lets i j
      split
      · exact leave_moves ..
      · exact MovedOn.modThreads (f := fun l t => { t with pc := t.pc + 4 * (j - i), wait := none }) (fun _ => id)
          (fun _ _ => rfl) (fun _ _ => .inl rfl) s

end Sys2Proof.Machine

end

section

/-! Proofs. Branches. -/

namespace Sys2Proof.Machine

/-! ### The results of a path's lanes, by what they are -/

section

variable (r : Nat × LaneRes)

def stallOf : Option Stall := match r.2 with | .stall x => some x | _ => none
def waitOf : Option (Nat × Wait) := match r.2 with | .wait w => some (r.1, w) | _ => none
def trapOf : Option (Nat × Cause × Nat) := match r.2 with | .trap c a => some (r.1, c, a) | _ => none
def recoverOf : Option (Nat × Cause × Nat) := match r.2 with | .recover c a => some (r.1, c, a) | _ => none
def jumpOf : Option (Nat × Nat) := match r.2 with | .jump pc => some (r.1, pc) | _ => none
def nextOf : Option Nat := match r.2 with | .next => some r.1 | _ => none
def holdOf : Option (Nat × Nat) := match r.2 with | .hold ex => some (r.1, ex) | _ => none

end

/-- The lanes that jump leave for their targets. -/
def State.leaveFor (s : State) (gid : Nat) (jumps : List (Nat × Nat)) : State :=
  if jumps.isEmpty then s else s.leave gid (jumps.map Prod.fst) fun l => ((jumps.find? fun j => j.1 = l).map Prod.snd).getD 0

section

variable {s : State} {gid : Nat} {off : List Nat} {rs : List (Nat × LaneRes)}

/-- What is picked from no lane's result is picked from none of them. -/
theorem filterMap_results {β : Type} {q : Nat × LaneRes → Option β} {r : Nat → LaneRes} (hq : ∀ l, q (l, r l) = none)
    (on : List Nat) : (on.map fun l => (l, r l)).filterMap q = [] := by
  rw [List.filterMap_eq_nil_iff]
  intro e he
  obtain ⟨l, -, rfl⟩ := List.mem_map.mp he
  exact hq l

/-- Results of which none stalls, waits or holds the slice: traps are taken, then lanes jump, then the others go on. -/
theorem finish_of_no_wait (hs : rs.filterMap stallOf = []) (hw : rs.filterMap waitOf = []) (hh : rs.filterMap holdOf = []) :
    s.finish gid off rs =
      ((((s.advance gid off).trapLanes gid .precise ((rs.filterMap trapOf).length + 1) (rs.filterMap trapOf)).trapLanes gid
        .recoverable ((rs.filterMap recoverOf).length + 1) (rs.filterMap recoverOf)).leaveFor gid (rs.filterMap jumpOf)).advance gid
        (rs.filterMap nextOf) := by
  unfold State.finish
  split
  next x hx =>
    have hn : rs.findSome? stallOf = none := List.findSome?_eq_none_iff.mpr (List.filterMap_eq_nil_iff.mp hs)
    exact absurd (hx.symm.trans hn) (by simp)
  next =>
    generalize hW : rs.filterMap (β := Nat × Wait) _ = W
    generalize hJ : rs.filterMap (β := Nat × Nat) _ = J
    generalize hK : rs.filterMap (β := Nat × Nat) _ = K
    obtain rfl : W = [] := hW.symm.trans hw
    obtain rfl : K = [] := hK.symm.trans hh
    subst hJ
    rfl

end

/-! ### Paths of which some lanes jump and the others go on -/

section

variable (taken : Nat → Bool) (tgt : Nat → Nat)

/-- What a lane that may branch comes to. -/
def branchRes (l : Nat) : LaneRes := if taken l then .jump (tgt l) else .next

theorem leave_congr {s : State} {gid : Nat} {lanes : List Nat} {f g : Nat → Nat} (h : ∀ l ∈ lanes, f l = g l) :
    s.leave gid lanes f = s.leave gid lanes g := by
  unfold State.leave
  have hf (stop : Nat → Option Wait) (s : State) :
      lanes.foldl (fun s l => s.modThread gid l fun t => { t with pc := f l, clause := none, t := [], wait := stop l }) s =
      lanes.foldl (fun s l => s.modThread gid l fun t => { t with pc := g l, clause := none, t := [], wait := stop l }) s :=
    List.foldl_ext _ _ _ fun t l hl => by rw [h l hl]
  simp only [hf]

/-- What is picked neither from jumps nor from lanes that go on is picked from none of them. -/
theorem filterMap_branchRes {β : Type} {q : Nat × LaneRes → Option β} (hj : ∀ l pc, q (l, .jump pc) = none)
    (hn : ∀ l, q (l, .next) = none) (on : List Nat) : ((on.map fun l => (l, branchRes taken tgt l)).filterMap q) = [] :=
  filterMap_results (fun l => by unfold branchRes; split; exacts [hj l _, hn l]) on

theorem jumps_branchRes (on : List Nat) : ((on.map fun l => (l, branchRes taken tgt l)).filterMap jumpOf) =
    (on.filter taken).map fun l => (l, tgt l) := by
  induction on with
  | nil => rfl
  | cons l on ih =>
    rw [List.map_cons]
    cases ht : taken l
    · rw [List.filter_cons_of_neg (by simp [ht]), ← ih, List.filterMap_cons_none (by simp [branchRes, ht, jumpOf])]
    · rw [List.filter_cons_of_pos ht, List.map_cons, ← ih, List.filterMap_cons_some (b := (l, tgt l)) (by simp [branchRes, ht, jumpOf])]

theorem nexts_branchRes (on : List Nat) : ((on.map fun l => (l, branchRes taken tgt l)).filterMap nextOf) =
    on.filter fun l => !taken l := by
  induction on with
  | nil => rfl
  | cons l on ih =>
    rw [List.map_cons]
    cases ht : taken l
    · rw [List.filter_cons_of_pos (by simp [ht]), ← ih, List.filterMap_cons_some (b := l) (by simp [branchRes, ht, nextOf])]
    · rw [List.filter_cons_of_neg (by simp [ht]), ← ih, List.filterMap_cons_none (by simp [branchRes, ht, nextOf])]

theorem target_of_jumps (ls : List Nat) {l : Nat} (h : l ∈ ls) :
    (((ls.map fun l => (l, tgt l)).find? fun j => j.1 = l).map Prod.snd).getD 0 = tgt l := by
  induction ls with
  | nil => cases h
  | cons k ls ih =>
    by_cases hk : k = l
    · simp [hk]
    · rw [List.map_cons, List.find?_cons_of_neg (by simp [hk])]
      exact ih (by simpa [Ne.symm hk] using h)

theorem leaveFor_targets (s : State) (gid : Nat) (ls : List Nat) :
    s.leaveFor gid (ls.map fun l => (l, tgt l)) = if ls.isEmpty then s else s.leave gid ls tgt := by
  unfold State.leaveFor
  rw [List.isEmpty_map, List.map_map, show (Prod.fst ∘ fun l => (l, tgt l)) = id from rfl, List.map_id]
  rw [leave_congr fun l hl => target_of_jumps tgt ls hl]

/-- The lanes that branch leave for their targets, and the others go on. -/
theorem finish_branch (s : State) (gid : Nat) (off on : List Nat) :
    s.finish gid off (on.map fun l => (l, branchRes taken tgt l)) =
      ((if on.any taken then (s.advance gid off).leave gid (on.filter taken) tgt else s.advance gid off).advance gid
        (on.filter fun l => !taken l)) := by
  have none' {β : Type} {q : Nat × LaneRes → Option β} (hj : ∀ l pc, q (l, .jump pc) = none) (hn : ∀ l, q (l, .next) = none) :=
    filterMap_branchRes taken tgt hj hn on
  rw [finish_of_no_wait (none' (fun _ _ => rfl) fun _ => rfl) (none' (fun _ _ => rfl) fun _ => rfl)
    (none' (fun _ _ => rfl) fun _ => rfl), none' (fun _ _ => rfl) fun _ => rfl, none' (fun _ _ => rfl) fun _ => rfl, jumps_branchRes, nexts_branchRes, leaveFor_targets]
  have he : (on.filter taken).isEmpty = !on.any taken := by
    rw [Bool.eq_iff_iff]
    simp [List.filter_eq_nil_iff]
  rw [he]
  cases on.any taken <;> rfl

/-- Lanes that all jump leave for their targets. -/
theorem finish_jump (s : State) (gid : Nat) (off : List Nat) {on : List Nat} (hne : on ≠ []) :
    s.finish gid off (on.map fun l => (l, .jump (tgt l))) = (s.advance gid off).leave gid on tgt := by
  have h := finish_branch (fun _ => true) tgt s gid off on
  obtain ⟨l, ls, rfl⟩ := List.exists_cons_of_ne_nil hne
  simpa [branchRes] using h

end

/-! ### Paths that trap -/

/-- Lanes that trap by one cause at one address, and stand at one instruction, take one trap. -/
theorem trapLanes_same {s : State} {gid pc : Nat} {on : List Nat} (hne : on ≠ []) (hpc : ∀ l ∈ on, (s.thread gid l).pc = pc)
    (cls : TrapClass) (n : Nat) (x : Cause) (a : Nat) :
    s.trapLanes gid cls (n + 1) (on.map fun l => (l, x, a)) = s.trapAt gid on x cls a := by
  obtain ⟨k, ls, rfl⟩ := List.exists_cons_of_ne_nil hne
  have hk : (s.thread gid k).pc = pc := hpc k (by simp)
  have hall : ∀ e ∈ (k :: ls).map fun l => (l, x, a), (decide (e.2.1 = x) && decide ((s.thread gid e.1).pc = pc)) = true := by
    intro e he
    obtain ⟨l, hl, rfl⟩ := List.mem_map.mp he
    simp [hpc l hl]
  rw [List.map_cons, State.trapLanes, ← List.map_cons (f := fun l => (l, x, a))]
  dsimp only
  rw [hk, List.filter_eq_self.mpr hall, List.filter_eq_nil_iff.mpr fun e he => by simpa using hall e he, trapLanes_nil, List.map_map,
    show (Prod.fst ∘ fun l => (l, x, a)) = id from rfl, List.map_id]

/-- A path whose lanes all trap by one cause at one address: the others go on, and the trap is taken. -/
theorem finish_trap {s : State} {gid pc : Nat} {off on : List Nat} (hne : on ≠ []) (hoff : ∀ l ∈ on, l ∉ off)
    (hpc : ∀ l ∈ on, (s.thread gid l).pc = pc) (x : Cause) (a : Nat) :
    s.finish gid off (on.map fun l => (l, .trap x a)) = (s.advance gid off).trapAt gid on x .precise a := by
  have htrap : (on.map fun l => (l, LaneRes.trap x a)).filterMap trapOf = on.map fun l => (l, x, a) := by
    rw [List.filterMap_map, ← List.filterMap_eq_map]
    rfl
  rw [finish_of_no_wait (filterMap_results (fun _ => rfl) on) (filterMap_results (fun _ => rfl) on)
    (filterMap_results (fun _ => rfl) on), filterMap_results (q := recoverOf) (fun _ => rfl) on,
    filterMap_results (q := jumpOf) (fun _ => rfl) on, filterMap_results (q := nextOf) (fun _ => rfl) on, htrap,
    trapLanes_same hne fun l hl => ((advance_moves s gid off).pc (hoff l hl)).trans (hpc l hl)]
  rfl

/-! ### Bodies whose lanes come to any result -/

/-- Lanes that each come to the result `r l`, with what `f'` makes of the state before, where `P` holds and stays. -/
theorem runLanes_results {P : State → Prop} {f : State → Nat → State × LaneRes} {f' : State → Nat → State} {r : Nat → LaneRes}
    {ls : List Nat} (hf : ∀ s, ∀ l ∈ ls, P s → f s l = (f' s l, r l) ∧ P (f' s l)) {s : State} (hs : P s) :
    runLanes f s ls = (ls.foldl f' s, ls.map fun l => (l, r l)) := by
  have key : ∀ (ls : List Nat) (s : State) (acc : List (Nat × LaneRes)), P s →
      (∀ s, ∀ l ∈ ls, P s → f s l = (f' s l, r l) ∧ P (f' s l)) →
      ls.foldl (fun x l => ((f x.1 l).1, x.2 ++ [(l, (f x.1 l).2)])) (s, acc) = (ls.foldl f' s, acc ++ ls.map fun l => (l, r l)) := by
    intro ls
    induction ls with
    | nil => intro s acc _ _; simp
    | cons l ls ih =>
      intro s acc hs hf
      obtain ⟨he, hp⟩ := hf s l (by simp) hs
      have hr := ih (f' s l) (acc ++ [(l, r l)]) hp fun s m hm => hf s m (by simp [hm])
      simpa [he] using hr
  simpa [runLanes] using key ls s [] hs hf

/-- A body that changes nothing and runs in every lane. -/
theorem perLane_pure {i : Instr} {g : Group} (hm : (i.need g.w).mode = .thread) {f : State → Nat → Nat → State × LaneRes} {s : State}
    {c : Slot} {on : List Nat} {r : Nat → LaneRes} (hf : ∀ l ∈ on, f s c.gid l = (s, r l)) :
    perLane i f s c g on = (s, on.map fun l => (l, r l)) := by
  have hp : (i.need g.w).perPath = false := by rw [Need.perPath, hm]
  have hrun := runLanes_results (P := fun t => t = s) (f := fun s l => f s c.gid l) (f' := fun s _ => s) (r := r) (ls := on)
    (fun t l hl ht => ⟨by rw [ht]; exact hf l hl, ht⟩) (s := s) rfl
  unfold perLane
  rw [hp, if_neg Bool.false_ne_true, hrun, List.foldl_fixed]

/-! ### Branches, calls and returns (R132, R133, R42) -/

section

variable {p : Pre} {s : State} {c : Slot} {g : Group} {on off : List Nat} {s1 : State}

theorem inSlot_start {i : Instr} (h : Executes i p s c g on off s1) (hd : (i.need g.w).dst = none)
    {body : State → Slot → Group → List Nat → State × List (Nat × LaneRes)} {t : State} {rs : List (Nat × LaneRes)}
    (hb : body s1 c g on = (t, rs)) : inSlot i p s body = .next (t.finish c.gid off rs) := by
  rw [inSlot_executes h, h.start (by rw [dstNames, hd]), hb]

theorem Executes.apart {i : Instr} (h : Executes i p s c g on off s1) : ∀ l ∈ on, l ∉ off := by
  rw [← h.on_eq, ← h.off_eq]
  intro l hl ho
  have h1 := (List.mem_filter.mp hl).2
  have h2 := (List.mem_filter.mp ho).2
  rw [h1] at h2
  cases h2

theorem codeTarget_aligned {pc : Nat} (h : pc % 4 = 0) (n : Int) : codeTarget pc n % 4 = 0 := by
  unfold codeTarget
  omega

theorem jumpTo_aligned {t : Nat} (h : t % 4 = 0) : jumpTo t = .jump t := if_pos h

theorem jumpTo_misaligned {t : Nat} (h : t % 4 ≠ 0) : jumpTo t = .trap .misaligned t := if_neg h

theorem bra_leaves {imm : BitVec 21} (h : Executes (.bra p imm) p s c g on off s1) (hpc : c.pc % 4 = 0) :
    exec (.bra p imm) s = .next ((s1.advance c.gid off).leave c.gid on fun _ => codeTarget c.pc imm.toInt) := by
  change inSlot _ p s (fun s c _ on => (s, on.map fun l => (l, jumpTo (codeTarget c.pc imm.toInt)))) = _
  rw [inSlot_start h rfl rfl, jumpTo_aligned (codeTarget_aligned hpc _), finish_jump _ _ _ _ h.ran]

/-- A branch to register targets, by one instruction or another. -/
theorem inSlot_jumps {i : Instr} {a : Opnd} (h : Executes i p s c g on off s1) (hd : (i.need g.w).dst = none)
    (hm : (i.need g.w).mode = .thread) (ha : ∀ l ∈ on, (s1.src32 c.gid l a).toNat % 4 = 0) :
    inSlot i p s (perLane i fun s gid l => (s, jumpTo (s.src32 gid l a).toNat)) =
      .next ((s1.advance c.gid off).leave c.gid on fun l => (s1.src32 c.gid l a).toNat) := by
  rw [inSlot_start h hd (perLane_pure hm (r := fun l => .jump (s1.src32 c.gid l a).toNat) fun l hl => by
    rw [jumpTo_aligned (ha l hl)]), finish_jump _ _ _ _ h.ran]

/-- A change of one thread leaves what it does not change of any thread. -/
theorem thread_modThread_keeps {γ : Type} (q : Thread → γ) {f : Thread → Thread} (hf : ∀ x, q (f x) = q x) (s : State)
    (gid l k : Nat) : q ((s.modThread gid l f).thread gid k) = q (s.thread gid k) := by
  cases hg : s.group? gid with
  | none => simp only [State.thread, State.modThread, group?_modGroup, hg, Option.map_none]
  | some g =>
    rw [state_thread_eq (g := g.modThread l f) (by rw [State.modThread, group?_modGroup, hg]; rfl), state_thread_eq hg]
    by_cases h : k = l
    · subst h
      cases hx : g.thread? k with
      | none => rw [thread_eq_of_absent (g := g.modThread k f) (by rw [thread?_modThread, hx]; rfl), thread_eq_of_absent hx]
      | some x => rw [thread_modThread g k f (by rw [hx]; rfl), hf]
    · rw [thread_modThread_ne h]

theorem pc_began (s : State) (i : Instr) (gid : Nat) (g : Group) (on : List Nat) (k : Nat) :
    ((s.began i gid g on).thread gid k).pc = (s.thread gid k).pc := by
  unfold State.began State.latchRtime
  split
  · exact foldl_keeps (fun t : State => (t.thread gid k).pc)
      (by exact fun t l => thread_modThread_keeps Thread.pc (by exact fun _ => rfl) t gid l k) _ _
  · rfl

theorem group?_entries (s : State) (gid : Nat) : Map.get? s.entries gid = (s.group? gid).map Group.unblocked := by
  unfold State.group? State.entries
  induction s.groups with
  | nil => rfl
  | cons e m ih =>
    rw [List.map_cons, Map.get?_cons, Map.get?_cons]
    split
    · rfl
    · exact ih

/-- States whose groups differ in register blocks only have the same threads. -/
theorem thread_of_entries {s t : State} (h : t.entries = s.entries) (gid l : Nat) : t.thread gid l = s.thread gid l := by
  have hg : (t.group? gid).map Group.unblocked = (s.group? gid).map Group.unblocked := by rw [← group?_entries, h, group?_entries]
  have hu (u : State) : u.thread gid l = ((u.group? gid).map Group.unblocked).elim {} fun g => g.thread l := by
    unfold State.thread
    cases u.group? gid <;> rfl
  rw [hu, hu, hg]

/-- The slot's lanes stand at its instruction in the state in which it runs. -/
theorem Executes.stands {i : Instr} (h : Executes i p s c g on off s1) : ∀ l ∈ on, (s1.thread c.gid l).pc = c.pc := by
  intro l hl
  have hin : l ∈ c.lanes := List.mem_of_mem_filter (h.on_eq ▸ hl)
  rw [← h.here l hin, ← state_thread_eq h.grp, thread_of_entries (entries_mapNames h.mapped), pc_began]

theorem inSlot_misaligned {i : Instr} {a : Opnd} {w : Word} (h : Executes i p s c g on off s1) (hd : (i.need g.w).dst = none)
    (hm : (i.need g.w).mode = .thread) (hw : w.toNat % 4 ≠ 0) (ha : ∀ l ∈ on, s1.src32 c.gid l a = w) :
    inSlot i p s (perLane i fun s gid l => (s, jumpTo (s.src32 gid l a).toNat)) =
      .next ((s1.advance c.gid off).trapAt c.gid on .misaligned .precise w.toNat) := by
  rw [inSlot_start h hd (perLane_pure hm (r := fun _ => .trap .misaligned w.toNat) fun l hl => by
    rw [ha l hl, jumpTo_misaligned hw]), finish_trap h.ran h.apart h.stands]

theorem brh_branches {imm : BitVec 14} {a : Opnd} (h : Executes (.brh p imm a) p s c g on off s1) :
    let taken (l : Nat) : Bool := s1.passed c.gid l (s1.clampSeq c.gid l (s1.src32 c.gid l a))
    let t := s1.advance c.gid off
    exec (.brh p imm a) s = .next ((if on.any taken then
        t.leave c.gid (on.filter taken) fun _ => codeTarget c.pc imm.toInt else t).advance c.gid (on.filter fun l => !taken l)) := by
  intro taken t
  rw [← finish_branch]
  exact inSlot_start h rfl (body := fun s c g on => perLane (.brh p imm a) (fun s gid l =>
    (s, if s.passed gid l (s.clampSeq gid l (s.src32 gid l a)) then .jump (codeTarget c.pc imm.toInt) else .next)) s c g on)
    (perLane_pure rfl fun _ _ => rfl)

/-- The address after its clause, to which a call in lane `l` returns. -/
def State.linkOf (s : State) (gid l : Nat) : Word := BitVec.ofNat 32 (((s.thread gid l).clause.map Clause.after).getD 0)

theorem clause_dst32 (s : State) (gid l k : Nat) (o : Opnd) (w : Word) :
    ((s.dst32 gid l o w).thread gid k).clause = (s.thread gid k).clause := by
  cases o with
  | v n | t n => exact thread_modThread_keeps Thread.clause (by exact fun _ => rfl) s gid l k
  | s n =>
    simp only [State.dst32, State.thread, group?_modGroup]
    cases s.group? gid <;> rfl
  | k _ | lane | hz | opc | rtime | nul | lit _ | litNone => rfl

theorem call_leaves {d : Opnd} {imm : BitVec 14} (h : Executes (.call p d imm) p s c g on off s1) :
    exec (.call p d imm) s = .next ((((doers (.call p d imm) g on).foldl (fun t l => t.dst32 c.gid l d (s1.linkOf c.gid l)) s1).advance
      c.gid off).leave c.gid on fun _ => codeTarget c.pc imm.toInt) := by
  have hb : perLane (.call p d imm) (fun s gid l => (s.dst32 gid l d (s.linkOf gid l), .jump (codeTarget c.pc imm.toInt))) s1 c g on =
      ((doers (.call p d imm) g on).foldl (fun t l => t.dst32 c.gid l d (s1.linkOf c.gid l)) s1,
        on.map fun l => (l, .jump (codeTarget c.pc imm.toInt))) := by
    unfold perLane doers
    split
    next =>
      obtain ⟨l, ls, rfl⟩ := List.exists_cons_of_ne_nil h.ran
      rfl
    next =>
      refine runLanes_results (P := fun t => ∀ l, (t.thread c.gid l).clause = (s1.thread c.gid l).clause) (fun t l _ ht => ⟨?_, ?_⟩)
        fun _ => rfl
      · simp only [State.linkOf, ht]
      · exact fun k => (clause_dst32 ..).trans (ht k)
  have hx := inSlot_executes h (withNames (.call p d imm) fun s c g on => perLane (.call p d imm) (fun s gid l =>
    (s.dst32 gid l d (s.linkOf gid l), .jump (codeTarget c.pc imm.toInt))) s c g on)
  rw [withNames_executes h, hb, finish_jump _ _ _ _ h.ran] at hx
  exact hx

/-- Settles O26: what each branch comes to in its lanes, and what the path's results come to. -/
theorem branchesComplete : Obligations.BranchesComplete := by
  unfold Obligations.BranchesComplete
  exact ⟨fun p imm s c g on off s1 h hpc => bra_leaves h hpc, fun p a s c g on off s1 h ha => inSlot_jumps h rfl rfl ha,
    fun p a s c g on off s1 h ha => inSlot_jumps h rfl rfl ha, fun p d imm s c g on off s1 h => call_leaves h,
    fun p imm a s c g on off s1 h => brh_branches h, fun p a s c g on off s1 w hw =>
      ⟨fun h ha => inSlot_misaligned h rfl rfl hw ha, fun h ha => inSlot_misaligned h rfl rfl hw ha⟩⟩

end

end Sys2Proof.Machine

end

section

/-! Proofs. Waits. -/

namespace Sys2Proof.Machine

section

variable {p : Pre} {s : State} {c : Slot} {g : Group} {on off : List Nat} {s1 : State}

theorem waith_goes_on {a : Opnd} (h : Executes (.waith p a) p s c g on off s1)
    (ha : ∀ l ∈ on, s1.passed c.gid l (s1.clampSeq c.gid l (s1.src32 c.gid l a)) = true) :
    exec (.waith p a) s = .next (s1.goOn c.gid off on) := by
  change execWaith p a s = _
  unfold execWaith
  exact inSlot_start_next h rfl (perLane_pure rfl fun l hl => if_pos (ha l hl))

theorem sleep_goes_on {a : Opnd} (h : Executes (.sleep p a) p s c g on off s1) (ha : ∀ l ∈ on, s1.src32 c.gid l a = 0) :
    exec (.sleep p a) s = .next (s1.goOn c.gid off on) := by
  change execSleep p a s = _
  unfold execSleep
  exact inSlot_start_next h rfl (perLane_pure rfl fun l hl => by simp only [ha l hl]; rfl)

theorem sleep_waits {a : Opnd} (h : Executes (.sleep p a) p s c g on off s1) (ha : ∀ l ∈ on, s1.src32 c.gid l a ≠ 0) :
    exec (.sleep p a) s = .next (s1.finish c.gid off
      (on.map fun l => (l, .wait (.sleep (s1.slotNow c.gid l + (s1.src32 c.gid l a).toNat))))) := by
  change execSleep p a s = _
  unfold execSleep
  refine inSlot_start h rfl (perLane_pure rfl fun l hl => ?_)
  have hn : ¬ (s1.src32 c.gid l a).toNat = 0 := fun e => ha l hl (BitVec.eq_of_toNat_eq e)
  simp only [if_neg hn]

theorem reconv_waits (h : Executes (.reconv p) p s c g on off s1) :
    exec (.reconv p) s = .next ((s1.finish c.gid off (on.map fun l => (l, .wait .reconv))).checkReconv c.gid) := by
  have hb := inSlot_start h rfl (body := fun s _ _ on => (s, on.map fun l => (l, .wait .reconv))) rfl
  change execReconv p s = _
  rw [execReconv, hb, andThen, h.cur]

/-- A `RECONV` keeps its threads while a live thread outside handlers is elsewhere. -/
theorem checkReconv_of_absent {s : State} {gid : Nat} {g : Group} (hg : s.group? gid = some g) {e : Nat × Thread} (he : e ∈ g.threads)
    (hp : e.2.phase ≠ .exited) (hh : e.2.hnd = none) (hr : e.2.wait ≠ some .reconv) (hw : ∀ l, e.2.wait ≠ some (.withPath l)) :
    s.checkReconv gid = s := by
  unfold State.checkReconv
  rw [hg]
  dsimp only
  rw [if_neg]
  intro h
  obtain ⟨-, hall⟩ := Bool.and_eq_true_iff.mp h
  have hlive : e ∈ g.threads.filter fun t => t.2.phase ≠ .exited && t.2.hnd.isNone := List.mem_filter.mpr ⟨he, by simp [hp, hh]⟩
  have hR := List.all_eq_true.mp hall e hlive
  obtain ⟨-, hwait⟩ := Bool.and_eq_true_iff.mp hR
  split at hwait
  next hx => exact hr hx
  next l hx => exact hw l hx
  next => cases hwait

theorem waitf_once {x : WfX} {d a b : Opnd} (h : Executes (.waitf p x d a b) p s c g on off s1)
    (hp : ((Instr.waitf p x d a b).need g.w).perPath = true) {t : State} (ht : s1.wfFirst x d a b c.gid (on.headD 0) = (t, .next)) :
    exec (.waitf p x d a b) s = .next ((t.wfShare c.gid (on.headD 0) x (on.drop 1)).goOn c.gid off on) := by
  change execWaitf p x d a b s = _
  unfold execWaitf
  refine inSlot_withNames_next h ?_
  obtain ⟨l, ls, rfl⟩ := List.exists_cons_of_ne_nil h.ran
  rw [if_pos hp]
  rw [List.headD_cons] at ht
  dsimp only
  rw [ht]
  rfl

theorem waitf_lanes {x : WfX} {d a b : Opnd} (h : Executes (.waitf p x d a b) p s c g on off s1)
    (hp : ((Instr.waitf p x d a b).need g.w).perPath = false) {t : Nat → State} (h0 : t 0 = s1)
    (ht : ∀ k, k < on.length → (t k).wfFirst x d a b c.gid (on.getD k 0) = (t (k + 1), .next)) :
    exec (.waitf p x d a b) s = .next ((t on.length).goOn c.gid off on) := by
  change execWaitf p x d a b s = _
  unfold execWaitf
  refine inSlot_withNames_next h ?_
  rw [if_neg (by rw [hp]; exact Bool.false_ne_true), ← h0]
  exact runLanes_chain ht

end

theorem eaBad_eq_none {s : State} {sp : Space} {gid ea n al : Nat} (ha : ea % al = 0)
    (hs : sp = .scratch → (s.scratch? (s.teamOf gid) ea n).isSome) : s.eaBad sp gid ea n al = none := by
  rw [State.eaBad, if_neg (by simp [ha]), if_neg]
  rw [Bool.and_eq_true, decide_eq_true_eq, Option.isNone_iff_eq_none]
  rintro ⟨hsp, hn⟩
  have := hs hsp
  rw [hn] at this
  cases this

/-- Settles O27: waits that are over let the path go on, and the others are what `finish` puts into effect. -/
theorem waitsComplete : Obligations.WaitsComplete := by
  unfold Obligations.WaitsComplete
  refine ⟨fun p a s c g on off s1 h ha => waith_goes_on h ha, fun p a s c g on off s1 h ha => sleep_goes_on h ha,
    fun p a s c g on off s1 h ha => sleep_waits h ha, fun p s c g on off s1 h => reconv_waits h,
    fun p x d a b s c g on off s1 h hp t ht => waitf_once h hp ht, fun p x d a b s c g on off s1 h hp t h0 => ?_, fun s gid g hg he => ?_⟩
  · intro n ht
    refine waitf_lanes h hp h0 fun k hk => ?_
    obtain ⟨ha, hs, hw⟩ := ht k hk
    have hbad := eaBad_eq_none ha hs
    simp only [State.wfFirst]
    rw [hbad]
    exact hw
  · obtain ⟨e, he, hp, hh, hr, hw⟩ := he
    exact checkReconv_of_absent hg he hp hh hr hw

end Sys2Proof.Machine

end

section

/-! Proofs. Exit, trap and return. -/

namespace Sys2Proof.Machine

/-- Lanes that are gone leave the others to go on. -/
theorem finish_gone (s : State) (gid : Nat) (off on : List Nat) :
    s.finish gid off (on.map fun l => (l, .gone)) = s.advance gid off := by
  rw [finish_of_no_wait (filterMap_results (fun _ => rfl) on) (filterMap_results (fun _ => rfl) on)
    (filterMap_results (fun _ => rfl) on), filterMap_results (q := trapOf) (fun _ => rfl) on,
    filterMap_results (q := recoverOf) (fun _ => rfl) on, filterMap_results (q := jumpOf) (fun _ => rfl) on,
    filterMap_results (q := nextOf) (fun _ => rfl) on]
  rfl

section

variable {p : Pre} {s : State} {c : Slot} {g : Group} {on off : List Nat} {s1 : State}

theorem exit_ends (h : Executes (.exit p) p s c g on off s1) :
    let cl := on.head?.bind fun l => (s1.thread c.gid l).clause
    let rel := (cl.map Clause.releases).getD []
    let r := if rel = [] then s1 else s1.unmap c.gid rel
    let t := on.foldl (fun t l => (t.drainThread c.gid l).modThread c.gid l fun x => { x with phase := .exiting, t := [] })
      (if cl.any fun x => x.header.y then r.modGroup c.gid fun x => { x with skip := true } else r)
    exec (.exit p) s = .next ((on.foldl (fun t l => t.exitDone c.gid l) t).advance c.gid off) := by
  intro cl rel r t
  have hr : (if rel.isEmpty then s1 else s1.unmap c.gid rel) = r := by
    simp only [List.isEmpty_iff]
    rfl
  change execExit p s = _
  unfold execExit
  rw [← finish_gone _ _ _ on]
  refine inSlot_start h rfl ?_
  dsimp only
  rw [hr]

theorem trap_traps {imm : BitVec 14} (h : Executes (.trap p imm) p s c g on off s1) :
    exec (.trap p imm) s = .next ((s1.advance c.gid off).trapAt c.gid on .userTrap .precise imm.toNat) := by
  rw [← finish_trap h.ran h.apart h.stands]
  exact inSlot_start h rfl (body := fun s _ _ on => (s, on.map fun l => (l, .trap .userTrap imm.toNat))) rfl

theorem rft_returns (h : Executes (.rft p) p s c g on off s1) (hu : ∀ l ∈ on, s1.unsettled c.gid l = []) :
    exec (.rft p) s = .next ((s1.returnAll c.gid on).advance c.gid off) := by
  change execRft p s = _
  unfold execRft
  rw [← finish_gone _ _ _ on]
  refine inSlot_start h rfl ?_
  rw [if_pos (List.all_eq_true.mpr fun l hl => by rw [hu l hl]; rfl)]

end

/-- Settles O28: the lanes are gone with what each instruction does to them, or trap. -/
theorem exitTrapAndReturnComplete : Obligations.ExitTrapAndReturnComplete := by
  unfold Obligations.ExitTrapAndReturnComplete
  exact ⟨fun _ _ _ _ _ _ _ h => exit_ends h, fun _ _ _ _ _ _ _ _ h => trap_traps h, fun _ _ _ _ _ _ _ h hu => rft_returns h hu⟩

end Sys2Proof.Machine

end

section

/-! Proofs. Names that a clause releases. -/

namespace Sys2Proof.Machine

/-! ### The names of the release masks (R53) -/

/-- A header with release masks has room for them. -/
theorem Header.room_of_rel {w : Word} {h : Header} (hr : Header.read w = some h) (hrel : h.rel = true) : 3 ≤ h.n := by
  unfold Header.read at hr
  obtain ⟨a, -, hr⟩ := Option.bind_eq_some_iff.mp hr
  obtain ⟨b, -, hr⟩ := Option.bind_eq_some_iff.mp hr
  dsimp only at hr
  split at hr
  next => cases hr
  next hn =>
    cases hr
    simp only [Bool.or_eq_true, Bool.and_eq_true, not_or, not_and, decide_eq_true_eq] at hn
    exact Nat.le_of_not_lt (hn.2 hrel)

theorem Clause.room_of_rel {c : Clause} (hrel : c.header.rel = true) : 3 ≤ c.header.n := by
  unfold Clause.header at hrel ⊢
  cases h : Header.read c.hw with
  | none => rw [h] at hrel; cases hrel
  | some x => rw [h] at hrel; exact Header.room_of_rel h hrel

theorem Clause.releases_of_not_rel {c : Clause} (h : c.header.rel = false) : c.releases = [] := by
  rw [Clause.releases, h]; rfl

theorem Clause.mem_releases {c : Clause} (h : c.header.rel = true) (n : Nat) : n ∈ c.releases ↔
    (n < 32 ∧ (c.ws.getD (c.header.n - 2) 0).getLsbD n = true) ∨
    (32 ≤ n ∧ n < 64 ∧ (c.ws.getD (c.header.n - 1) 0).getLsbD (n - 32) = true) := by
  have hroom := Clause.room_of_rel h
  have harea : c.area = c.header.n - 2 := by rw [Clause.area, h, if_pos rfl]
  simp only [Clause.releases, h, if_true, harea, List.mem_append, List.mem_filter, List.mem_range, List.mem_map]
  rw [show c.header.n - 2 + 1 = c.header.n - 1 by omega]
  constructor
  · rintro (hl | ⟨k, ⟨hk, hb⟩, rfl⟩)
    · exact .inl hl
    · exact .inr ⟨by omega, by omega, by rwa [Nat.add_sub_cancel]⟩
  · rintro (hl | ⟨h32, h64, hb⟩)
    · exact .inl hl
    · exact .inr ⟨n - 32, ⟨by omega, hb⟩, by omega⟩

/-! ### A clause that ends (R41, R53) -/

theorem Thread.release_nil (t : Thread) : t.release [] = t := by
  simp [Thread.release]

theorem Group.release_nil (g : Group) : g.release [] = g := by
  simp [Group.release, Thread.release_nil, Map.modAll]

theorem unmap_nil (s : State) (gid : Nat) : s.unmap gid [] = s := by
  rw [unmap_eq, modGroup_congr fun x => Group.release_nil x, modGroup_self]

/-- Where lanes leave their clause, its names are released once they have moved; the group may be told to yield. -/
theorem leave_of_clause {s : State} {gid : Nat} {lanes : List Nat} {c : Clause}
    (hc : (lanes.findSome? fun l => (s.thread gid l).clause) = some c) (pc : Nat → Nat) :
    ∃ u, MovedOn False gid lanes s u ∧ (s.leave gid lanes pc = u.unmap gid c.releases ∨
      s.leave gid lanes pc = (u.unmap gid c.releases).modGroup gid fun g => { g with skip := true }) := by
  unfold State.leave
  extract_lets cl hold stop u
  have hcl : cl = some c := hc
  have hrel : (if c.header.rel then u.unmap gid c.releases else u) = u.unmap gid c.releases := by
    split
    next => rfl
    next h => rw [Clause.releases_of_not_rel (by simpa using h), unmap_nil]
  refine ⟨u, MovedOn.modThreads (f := fun l t => { t with pc := pc l, clause := none, t := [], wait := stop l }) (fun _ => id)
    (fun _ _ => rfl) (fun _ _ => .inr rfl) s, ?_⟩
  rw [hcl]
  dsimp only
  rw [hrel]
  split
  · exact .inr rfl
  · exact .inl rfl

section

variable {s t : State} {gid l : Nat} {g h : Group} {n : Fin 64} {ns : List Nat}

theorem get?_filter_names {β : Type} (m : Map β) (ns : List Nat) (n : Nat) :
    Map.get? (m.filter fun e => !ns.contains e.1) n = if n ∈ ns then none else Map.get? m n := by
  split
  next h => exact Map.get?_filter_of_not _ _ _ fun v => by simp [h]
  next h => exact Map.get?_filter_of _ _ _ fun v => by simp [h]

/-- What a register reads once names have been released. -/
theorem src32_unmap (hg : s.group? gid = some g) (hl : (g.thread? l).isSome = true) :
    (s.unmap gid ns).src32 gid l (.v n) = if n.val ∈ ns then 0 else s.src32 gid l (.v n) := by
  obtain ⟨x, hx⟩ := Option.isSome_iff_exists.mp hl
  have hg' : (s.unmap gid ns).group? gid = some (g.release ns) := by rw [unmap_eq, group?_modGroup, hg]; rfl
  have hx' : (g.release ns).thread? l = some (x.release ns) := by rw [thread?_release, hx]; rfl
  rw [State.src32, State.src32, state_thread_eq hg', state_thread_eq hg, thread_eq_of_thread? hx', thread_eq_of_thread? hx, Map.get,
    Thread.release, get?_filter_names]
  split <;> rfl

theorem mapped_unmap (hg : s.group? gid = some g) (n : Nat) : ∃ k, (s.unmap gid ns).group? gid = some k ∧
    Map.get? k.mapped n = if n ∈ ns then none else Map.get? g.mapped n :=
  ⟨g.release ns, by rw [unmap_eq, group?_modGroup, hg]; rfl, get?_filter_names ..⟩

end

/-- A path that has moved without a release holds what it held. -/
theorem MovedOn.holds {s u : State} {gid : Nat} {lanes : List Nat} {g : Group} (hu : MovedOn False gid lanes s u)
    (hg : s.group? gid = some g) : ∃ k, u.group? gid = some k ∧ k.mapped = g.mapped ∧ ∀ l, (g.thread? l).isSome = true →
      (k.thread? l).isSome = true ∧ ∀ n : Fin 64, u.src32 gid l (.v n) = s.src32 gid l (.v n) := by
  obtain ⟨f, rfl, hf⟩ := hu
  have hk : (s.modGroup gid f).group? gid = some (f g) := by rw [group?_modGroup, hg]; rfl
  refine ⟨f g, hk, ((hf g).held id).1, fun l hl => ?_⟩
  obtain ⟨x, hx⟩ := Option.isSome_iff_exists.mp hl
  obtain ⟨y, hy, -, -, -, hv⟩ := (hf g).threads l x hx
  refine ⟨by rw [hy]; rfl, fun n => ?_⟩
  rw [State.src32, State.src32, state_thread_eq hk, state_thread_eq hg, thread_eq_of_thread? hy, thread_eq_of_thread? hx, (hv id).1]

theorem leave_releases {s : State} {gid : Nat} {lanes : List Nat} {g : Group} {c : Clause} (hg : s.group? gid = some g)
    (hc : (lanes.findSome? fun l => (s.thread gid l).clause) = some c) (pc : Nat → Nat) :
    ∃ h, (s.leave gid lanes pc).group? gid = some h ∧ ∀ l, (g.thread? l).isSome = true → ∀ n : Fin 64,
      Map.get? h.mapped n.val = (if n.val ∈ c.releases then none else Map.get? g.mapped n.val) ∧
      (s.leave gid lanes pc).src32 gid l (.v n) = if n.val ∈ c.releases then 0 else s.src32 gid l (.v n) := by
  obtain ⟨u, hu, ht⟩ := leave_of_clause hc pc
  obtain ⟨k, hk, hm, hr⟩ := hu.holds hg
  have hk' : (u.unmap gid c.releases).group? gid = some (k.release c.releases) := by rw [unmap_eq, group?_modGroup, hk]; rfl
  have key : ∀ l, (g.thread? l).isSome = true → ∀ n : Fin 64,
      Map.get? (k.release c.releases).mapped n.val = (if n.val ∈ c.releases then none else Map.get? g.mapped n.val) ∧
      (u.unmap gid c.releases).src32 gid l (.v n) = if n.val ∈ c.releases then 0 else s.src32 gid l (.v n) := fun l hl n =>
    ⟨by rw [Group.release, get?_filter_names, hm], by rw [src32_unmap hk (hr l hl).1, (hr l hl).2 n]⟩
  rcases ht with ht | ht
  · exact ⟨_, by rw [ht, hk'], fun l hl n => by rw [ht]; exact key l hl n⟩
  · refine ⟨{ k.release c.releases with skip := true }, by rw [ht, group?_modGroup, hk']; rfl, fun l hl n => ?_⟩
    obtain ⟨h1, h2⟩ := key l hl n
    refine ⟨h1, ?_⟩
    rw [ht, ← h2]
    simp only [State.src32, State.thread, group?_modGroup, hk', Option.map_some]
    rfl

/-- Settles O58: the masks' bits are the names, and leaving the clause releases them. -/
theorem releaseMasksUnmapAtTheEnd : Obligations.ReleaseMasksUnmapAtTheEnd := by
  unfold Obligations.ReleaseMasksUnmapAtTheEnd
  refine ⟨fun c h n => Clause.mem_releases h n, fun c h => Clause.releases_of_not_rel h,
    fun s gid lanes pc g c l0 hg hl0 hl => ?_⟩
  have hc : (lanes.findSome? fun l => (s.thread gid l).clause) = some c := by
    obtain ⟨k, ls, rfl⟩ := List.exists_cons_of_ne_nil (List.ne_nil_of_mem hl0)
    rw [List.findSome?_cons, state_thread_eq hg, (hl k (by simp)).1]
  obtain ⟨h, hh, hr⟩ := leave_releases hg hc pc
  refine ⟨h, hh, fun l hx n => ?_⟩
  obtain ⟨hm, hv⟩ := hr l hx n
  exact ⟨fun hn => ⟨by rw [hm, if_pos hn], by rw [hv, if_pos hn]⟩, fun hn => ⟨by rw [hm, if_neg hn], by rw [hv, if_neg hn]⟩⟩

end Sys2Proof.Machine

end

section

/-! Proofs. Checks, guards and floating-point traps. -/

namespace Sys2Proof.Machine

/-! ### Every path instruction runs in its slot -/

/-- The outcome `o` is that of a slot of `i`, with what `i` does whether or not a thread executed it. -/
def InSlot (i : Instr) (p : Pre) (s : State) (gid : Nat) (o : Out) : Prop :=
  ∃ body, o = andThen (inSlot i p s body) (closing i gid)

section

variable {i : Instr} {gid : Nat} (hc : ∀ t, closing i gid t = t) (p : Pre) (s : State)

include hc

theorem InSlot.slot (body : State → Slot → Group → List Nat → State × List (Nat × LaneRes)) :
    InSlot i p s gid (inSlot i p s body) :=
  ⟨body, by cases inSlot i p s body <;> simp only [andThen, hc]⟩

theorem InSlot.alu (d f) : InSlot i p s gid (alu i p d f s) := InSlot.slot hc ..
theorem InSlot.alu1 (d a f) : InSlot i p s gid (alu1 i p d a f s) := InSlot.alu hc ..
theorem InSlot.alu2 (d a b f) : InSlot i p s gid (alu2 i p d a b f s) := InSlot.alu hc ..
theorem InSlot.alu3 (d a b c f) : InSlot i p s gid (alu3 i p d a b c f s) := InSlot.alu hc ..
theorem InSlot.fop1 (d a f) : InSlot i p s gid (fop1 i p d a f s) := InSlot.alu hc ..
theorem InSlot.fop2 (d a b f) : InSlot i p s gid (fop2 i p d a b f s) := InSlot.alu hc ..
theorem InSlot.dop2 (d a b f) : InSlot i p s gid (dop2 i p d a b f s) := InSlot.alu hc ..
theorem InSlot.pop2 (o x d a b) : InSlot i p s gid (pop2 i p o x d a b s) := InSlot.alu hc ..
theorem InSlot.compareOp (k f) : InSlot i p s gid (compareOp i p k f s) := InSlot.slot hc ..
theorem InSlot.issueS (start a b f) : InSlot i p s gid (issueS i p start a b f s) := InSlot.slot hc ..
theorem InSlot.issue (start a b f) : InSlot i p s gid (issue i p start a b f s) := InSlot.issueS hc ..
theorem InSlot.asyncIssue (d f) : InSlot i p s gid (asyncIssue i p d f s) := InSlot.slot hc ..
theorem InSlot.anchored (an a b c mk) : InSlot i p s gid (anchored i p an a b c mk s) := InSlot.slot hc ..
theorem InSlot.cross (d f) : InSlot i p s gid (cross i p d f s) := InSlot.slot hc ..

end

theorem issue_inSlot (i : Instr) (p : Pre) (start : State → Nat → State) (a b : Bool) (f : State → Nat → Nat → Issue) (s : State) :
    ∃ body, issue i p start a b f s = inSlot i p s body := by
  unfold issue issueS
  exact ⟨_, rfl⟩

theorem exec_inSlot_alu {i : Instr} {p : Pre} (hi : i.gen.map Gen.p = some p) (hp : i.page = 0) (s : State) (gid : Nat) :
    InSlot i p s gid (exec i s) := by
  cases i with
  | iadd | isub | imul | imulhI | imulhU | iminI | iminU | imaxI | imaxU | and | or | xor | andn | shl | shr | sar | rol | bfeU
  | bfeI | clmul | clmulh =>
    cases hi
    delta exec
    dsimp only
    exact InSlot.alu2 (fun _ => rfl) ..
  | iadd64 | isub64 | imad | imadw | ffma | sel | pfma | dfma | movi | cvt | frnd =>
    cases hi
    delta exec
    dsimp only
    exact InSlot.alu (fun _ => rfl) ..
  | bfi | prmt | lop3 =>
    cases hi
    delta exec
    dsimp only
    exact InSlot.alu3 (fun _ => rfl) ..
  | popc | clz | brev | mov | iaddi | iabs =>
    cases hi
    delta exec
    dsimp only
    exact InSlot.alu1 (fun _ => rfl) ..
  | fadd | fsub | fmul | fmin | fmax =>
    cases hi
    delta exec
    dsimp only
    exact InSlot.fop2 (fun _ => rfl) ..
  | padd | psub | pmul | pmin | pmax =>
    cases hi
    delta exec
    dsimp only
    exact InSlot.pop2 (fun _ => rfl) ..
  | dadd | dmul =>
    cases hi
    delta exec
    dsimp only
    exact InSlot.dop2 (fun _ => rfl) ..
  | icmp | fcmp =>
    cases hi
    delta exec
    dsimp only
    exact InSlot.compareOp (fun _ => rfl) ..
  | plop =>
    cases hi
    delta exec
    dsimp only
    exact InSlot.slot (fun _ => rfl) ..
  | fclass | fabs =>
    cases hi
    delta exec
    dsimp only
    exact InSlot.fop1 (fun _ => rfl) ..
  | _ => cases hi <;> cases hp

theorem exec_inSlot_mem {i : Instr} {p : Pre} (hi : i.gen.map Gen.p = some p) (hp : i.page = 1) (s : State) (gid : Nat) :
    InSlot i p s gid (exec i s) := by
  cases i with
  | ldg | stg | lds | sts | ldb | stb | atomg | atoms | atomb | tfence | pref =>
    cases hi
    delta exec
    dsimp only
    exact InSlot.issue (fun _ => rfl) ..
  | fence | qpush | qpop =>
    cases hi
    delta exec
    dsimp only
    exact InSlot.slot (fun _ => rfl) ..
  | _ => cases hi <;> cases hp

theorem exec_inSlot_async {i : Instr} {p : Pre} (hi : i.gen.map Gen.p = some p) (hp : i.page = 2) (s : State) (gid : Nat) :
    InSlot i p s gid (exec i s) := by
  cases i with
  | cpy | tload | tstore | bankop | restripe =>
    cases hi
    delta exec
    dsimp only
    exact InSlot.asyncIssue (fun _ => rfl) ..
  | pwait | ptest | binit | bexp | barr | bwait | btest | cancel =>
    cases hi
    delta exec
    dsimp only
    exact InSlot.slot (fun _ => rfl) ..
  | geoq =>
    cases hi
    delta exec
    dsimp only
    exact InSlot.alu (fun _ => rfl) ..
  | _ => cases hi <;> cases hp

theorem exec_inSlot_mtx {i : Instr} {p : Pre} (hi : i.gen.map Gen.p = some p) (hp : i.page = 3) (s : State) (gid : Nat) :
    InSlot i p s gid (exec i s) := by
  cases i with
  | manch | tdef | mopr | mwait =>
    cases hi
    delta exec
    dsimp only
    exact InSlot.slot (fun _ => rfl) ..
  | mldw | mswap | mma | mzero | mrd | mwr | msts | rstat | mscale =>
    cases hi
    delta exec
    dsimp only
    exact InSlot.anchored (fun _ => rfl) ..
  | tqry =>
    cases hi
    delta exec
    dsimp only
    exact InSlot.alu (fun _ => rfl) ..
  | _ => cases hi <;> cases hp

theorem exec_inSlot_fab {i : Instr} {p : Pre} (hi : i.gen.map Gen.p = some p) (hp : i.page = 4) (s : State) (gid : Nat) :
    InSlot i p s gid (exec i s) := by
  cases i with
  | mcst p x d a b =>
    cases hi
    change InSlot _ _ _ _ (execMcst p x d a b s)
    obtain ⟨body, hb⟩ := issue_inSlot (.mcst p x d a b) p (byBelay fun s _ => s) true false (mcstReq x d a b) s
    exact ⟨body, by rw [execMcst, hb]; rfl⟩
  | rload | scbset | scbclr | peerq | wcflush | rspawn =>
    cases hi
    delta exec
    dsimp only
    exact InSlot.issue (fun _ => rfl) ..
  | coll | arm | gang | mgrp =>
    cases hi
    delta exec
    dsimp only
    exact InSlot.issueS (fun _ => rfl) ..
  | _ => cases hi <;> cases hp

theorem exec_inSlot_ctl {i : Instr} {p : Pre} (hi : i.gen.map Gen.p = some p) (hp : i.page = 5) {s : State} {c : Slot}
    (hc : s.cur = some c) : InSlot i p s c.gid (exec i s) := by
  cases i with
  | bra | brx | call | ret | brh | waith | bar | exit | suspend | cdiscard | sleep | trap | rft | setsr | yieldH | racq | rrel
  | nop | steal | launch | waitl | snap =>
    cases hi
    delta exec
    dsimp only
    exact InSlot.slot (fun _ => rfl) ..
  | reconv p =>
    cases hi
    exact ⟨_, by change execReconv p s = _; rw [execReconv, hc]; rfl⟩
  | spawn p x a b =>
    cases hi
    delta exec
    dsimp only
    unfold execSpawn
    split
    · exact InSlot.issue (fun _ => rfl) ..
    · exact InSlot.slot (fun _ => rfl) ..
  | resume | resumeS | ccopyMove | ccopyFork =>
    cases hi
    delta exec
    dsimp only
    exact InSlot.issue (fun _ => rfl) ..
  | waitf =>
    cases hi
    delta exec
    dsimp only
    unfold execWaitf
    exact InSlot.slot (fun _ => rfl) ..
  | getsr =>
    cases hi
    delta exec
    dsimp only
    unfold execGetsr
    exact InSlot.slot (fun _ => rfl) ..
  | _ => cases hi <;> cases hp

theorem exec_inSlot_sfu {i : Instr} {p : Pre} (hi : i.gen.map Gen.p = some p) (hp : i.page = 6) (s : State) (gid : Nat) :
    InSlot i p s gid (exec i s) := by
  cases i with
  | rcp | rsq | sqrt | exp2 | log2 | sinpi | cospi | tanh | sigm =>
    cases hi
    delta exec
    dsimp only
    exact InSlot.fop1 (fun _ => rfl) ..
  | fdiv =>
    cases hi
    delta exec
    dsimp only
    exact InSlot.fop2 (fun _ => rfl) ..
  | shfl =>
    cases hi
    delta exec
    dsimp only
    unfold execShfl
    exact InSlot.slot (fun _ => rfl) ..
  | vote =>
    cases hi
    delta exec
    dsimp only
    exact InSlot.slot (fun _ => rfl) ..
  | ballot | redux | scan | matchL | matchW64 | gmred | first | lanemask =>
    cases hi
    delta exec
    dsimp only
    exact InSlot.cross (fun _ => rfl) ..
  | gmtab =>
    cases hi
    delta exec
    dsimp only
    unfold execGmtab
    exact InSlot.slot (fun _ => rfl) ..
  | _ => cases hi <;> cases hp

theorem page_le_of_gen {i : Instr} {p : Pre} (hi : i.gen.map Gen.p = some p) : i.page ≤ 6 := by
  cases i <;> cases hi <;> exact Nat.le_of_ble_eq_true rfl

/-- An instruction of the seven pages runs in its slot. -/
theorem exec_inSlot {i : Instr} {p : Pre} (hi : i.gen.map Gen.p = some p) {s : State} {c : Slot} (hc : s.cur = some c) :
    InSlot i p s c.gid (exec i s) := by
  have hle := page_le_of_gen hi
  have hpage : i.page = 0 ∨ i.page = 1 ∨ i.page = 2 ∨ i.page = 3 ∨ i.page = 4 ∨ i.page = 5 ∨ i.page = 6 := by omega
  rcases hpage with h | h | h | h | h | h | h
  · exact exec_inSlot_alu hi h s c.gid
  · exact exec_inSlot_mem hi h s c.gid
  · exact exec_inSlot_async hi h s c.gid
  · exact exec_inSlot_mtx hi h s c.gid
  · exact exec_inSlot_fab hi h s c.gid
  · exact exec_inSlot_ctl hi h hc
  · exact exec_inSlot_sfu hi h s c.gid

/-! ### Slots in which nothing executes (R44, R65, R66) -/

section

variable {i : Instr} {p : Pre} {s : State} {c : Slot} {g : Group}
  (body : State → Slot → Group → List Nat → State × List (Nat × LaneRes))

/-- Threads that all fail a check of their instruction by one cause take it as their trap. -/
theorem inSlot_of_failed {x : Cause} (hc : s.cur = some c) (hg : s.group? c.gid = some g) (hne : c.lanes ≠ [])
    (hx : ∀ l ∈ c.lanes, (g.thread l).pc = c.pc ∧ s.check i g l = some x) :
    inSlot i p s body = .next (s.trapAt c.gid c.lanes x .precise 0) := by
  have hbad : c.lanes.filterMap (fun l => (s.check i g l).map fun x => (l, LaneRes.trap x 0)) =
      c.lanes.map fun l => (l, LaneRes.trap x 0) := by
    rw [← List.filterMap_eq_map]
    exact List.filterMap_congr fun l hl => by rw [(hx l hl).2]; rfl
  have hok : c.lanes.filter (fun l => (s.check i g l).isNone) = [] :=
    List.filter_eq_nil_iff.mpr fun l hl => by rw [(hx l hl).2]; exact Bool.false_ne_true
  have hpc : ∀ l ∈ c.lanes, (s.thread c.gid l).pc = c.pc := fun l hl => by rw [state_thread_eq hg, (hx l hl).1]
  simp only [inSlot, hc, hg, hbad, hok, List.filter_nil]
  rw [finish_trap hne (fun _ _ => List.not_mem_nil) hpc, advance_nil]

theorem finish_nil (s : State) (gid : Nat) (off : List Nat) : s.finish gid off [] = s.advance gid off := by
  rw [finish_of_no_wait rfl rfl rfl]
  rfl

/-- A path whose guard holds in no thread only goes on. -/
theorem inSlot_of_guarded (hc : s.cur = some c) (hg : s.group? c.gid = some g)
    (hx : ∀ l ∈ c.lanes, s.check i g l = none ∧ g.guard p.g l = false) :
    inSlot i p s body = .next (s.advance c.gid c.lanes) := by
  have hbad : c.lanes.filterMap (fun l => (s.check i g l).map fun x => (l, LaneRes.trap x 0)) = [] :=
    List.filterMap_eq_nil_iff.mpr fun l hl => by rw [(hx l hl).1]; rfl
  have hok : c.lanes.filter (fun l => (s.check i g l).isNone) = c.lanes :=
    List.filter_eq_self.mpr fun l hl => by rw [(hx l hl).1]; rfl
  have hon : c.lanes.filter (fun l => g.guard p.g l) = [] :=
    List.filter_eq_nil_iff.mpr fun l hl => by rw [(hx l hl).2]; exact Bool.false_ne_true
  have hoff : c.lanes.filter (fun l => !g.guard p.g l) = c.lanes :=
    List.filter_eq_self.mpr fun l hl => by rw [(hx l hl).2]; rfl
  simp only [inSlot, hc, hg, hbad, hok, hon, hoff, finish_nil]

end

/-! ### The checks of privilege and of the matrix page (R65, R66) -/

theorem check_privileged {s : State} {i : Instr} {g : Group} {l : Nat} (hp : i.privileged = true) (hs : s.sysMode g.ctx = false)
    (h3 : i.page ≠ 3) : s.check i g l = some .privileged := by
  cases i with
  | snap | gang | mgrp | tfence | getsr | setsr => simp [State.check, h3, hp, hs]
  | _ => cases hp

theorem check_mtx {s : State} {i : Instr} {g : Group} {l : Nat} (h3 : i.page = 3) (hm : (s.team? g.team).any Team.mtx = false) :
    s.check i g l = some .illegalInstruction := by
  cases i with
  | manch | mldw | mswap | mma | mzero | mrd | mwr | msts | rstat | mscale | tdef | tqry | mopr | mwait => simp [State.check, h3, hm]
  | _ => cases h3

/-! ### Enabled flags (R198) -/

section

variable {p : Pre} {s : State} {c : Slot} {g : Group} {on off : List Nat} {s1 : State}

theorem foldl_raise (s : State) (gid : Nat) (fl : Nat → Flags) (ls : List Nat) :
    ls.foldl (fun t l => t.raise gid (fl l)) s = s.raise gid (ls.foldl (fun x l => x ||| fl l) 0) := by
  have key : ∀ (ls : List Nat) (x : Flags), ls.foldl (fun t l => t.raise gid (fl l)) (s.raise gid x) =
      s.raise gid (ls.foldl (fun x l => x ||| fl l) x) := by
    intro ls
    induction ls with
    | nil => intro x; rfl
    | cons l ls ih => intro x; rw [List.foldl_cons, List.foldl_cons, raise_raise, ih]
  rw [← key, raise_zero]

/-- Computing lanes that all raise an enabled flag: their flags are united, and the path traps. -/
theorem alu_traps {i : Instr} {d : Opnd} {f : State → Nat → Nat → List Word × Flags} (hf : OwnLane f)
    (h : Executes i p s c g on off s1) (ht : ∀ l ∈ doers i g on, s1.fpTrap? c.gid (f s1 c.gid l).2 = some .fp) :
    alu i p d f s = .next (((s1.raise c.gid ((doers i g on).foldl (fun x l => x ||| (f s1 c.gid l).2) 0)).advance c.gid off).trapAt
      c.gid on .fp .precise 0) := by
  have hpc : ∀ l ∈ on, ((s1.raise c.gid ((doers i g on).foldl (fun x l => x ||| (f s1 c.gid l).2) 0)).thread c.gid l).pc = c.pc :=
    fun l hl => by rw [(Same.raise c.gid l s1 _).thread, h.stands l hl]
  have hlane : ∀ t, ∀ l ∈ doers i g on, (∀ k, Same c.gid k s1 t) →
      aluLane c.gid d f t l = (t.raise c.gid (f s1 c.gid l).2, .trap .fp 0) := fun t l hl hs => by
    have htr := ht l hl
    rw [← (hs l).fpTrap?, ← (Same.raise c.gid l t (f s1 c.gid l).2).fpTrap?] at htr
    simp only [aluLane, hf s1 t c.gid l (hs l), htr]
  have hb : perLane i (fun s gid l => aluLane gid d f s l) s1 c g on =
      (s1.raise c.gid ((doers i g on).foldl (fun x l => x ||| (f s1 c.gid l).2) 0), on.map fun l => (l, .trap .fp 0)) := by
    rw [← foldl_raise]
    unfold perLane
    unfold doers at hlane ⊢
    split
    next hp =>
      obtain ⟨l, ls, rfl⟩ := List.exists_cons_of_ne_nil h.ran
      simp only [hp, if_true, List.take_succ_cons, List.take_zero] at hlane ⊢
      rw [hlane s1 l (by simp) fun k => Same.refl ..]
      rfl
    next hp =>
      simp only [hp, if_false, Bool.false_eq_true] at hlane ⊢
      exact runLanes_results (P := fun t => ∀ k, Same c.gid k s1 t)
        (fun t l hl hs => ⟨hlane t l hl hs, fun k => (hs k).trans (Same.raise ..)⟩) fun k => Same.refl ..
  have hx := inSlot_executes h (withNames i (perLane i fun s gid l => aluLane gid d f s l))
  rw [withNames_executes h, hb, finish_trap h.ran h.apart hpc] at hx
  exact hx

theorem fop2_traps {i : Instr} {d a b : Opnd} {f : Nat → Nat → Nat × Flags} (h : Executes i p s c g on off s1)
    (ht : ∀ l ∈ doers i g on, s1.fpTrap? c.gid (f (s1.srcF c.gid l a) (s1.srcF c.gid l b)).2 = some .fp) :
    fop2 i p d a b f s = .next (((s1.raise c.gid ((doers i g on).foldl
      (fun x l => x ||| (f (s1.srcF c.gid l a) (s1.srcF c.gid l b)).2) 0)).advance c.gid off).trapAt c.gid on .fp .precise 0) :=
  alu_traps (f := fun s g l => ([BitVec.ofNat 32 (f (s.srcF g l a) (s.srcF g l b)).1], (f (s.srcF g l a) (s.srcF g l b)).2))
    (fun s t gid l hs => by simp only [hs.srcF]) h ht

end

/-- Settles O56: an instruction runs in its slot, whose frame holds the checks and the guard; the lanes of a floating-point
instruction raise their flags and trap. -/
theorem checksGuardsAndFloatingTraps : Obligations.ChecksGuardsAndFloatingTraps := by
  unfold Obligations.ChecksGuardsAndFloatingTraps
  refine ⟨fun i p s c g x hi hc hg hne hx => ?_, fun i p s c g hi hc hg hx => ?_, fun s i g l => check_privileged,
    fun s i g l => check_mtx, fun e he p d a b s c g on off s1 h => ?_⟩
  · obtain ⟨body, hb⟩ := exec_inSlot hi hc
    rw [hb, inSlot_of_failed body hc hg hne hx]
    rfl
  · obtain ⟨body, hb⟩ := exec_inSlot hi hc
    rw [hb, inSlot_of_guarded body hc hg hx]
    rfl
  · intro ls fl ht
    simp only [List.mem_cons, List.not_mem_nil, or_false] at he
    have hx : exec (e.1 p d a b) s = fop2 (e.1 p d a b) p d a b e.2 s := by
      rcases he with rfl | rfl | rfl | rfl | rfl | rfl <;> rfl
    rw [hx]
    exact fop2_traps h ht

end Sys2Proof.Machine

end

section

/-! Proofs. A service that runs on a halted belay die: the context's time-stop begins with the touch (R407), so an issue changes
more of the context than its touched dies and its scoreboard. -/

namespace Sys2Proof.Machine

/-- A thread in the first slot of a clause at code offset 0. -/
def queryThread : Thread := { pc := 4, clause := some ⟨0, 0x07F8000F, []⟩ }

/-- A group of one thread, every register of which is mapped. -/
def queryGroup : Group :=
  { ctx := 0, team := 1, core := 0, slice := 0, w := 16, cbase := 0, groupId := 0, pool := 4
    mapped := (List.range 64).map fun n => (n, 0), threads := [(0, queryThread)] }

/-- The slot of that thread. -/
def querySlot : Slot := { gid := 5, lanes := [0], pc := 4 }

/-- A system context that has touched no die. -/
def queryCtx : Ctx := { cfg := { sys := true, cores := [0] } }

/-- Belay die 8, which serves core 0, is halted (R355, R407); the context is not stopped, for it has touched no die. -/
def haltedBelay : State :=
  { State.reset with
    boot := ⟨.running, 0, 0, 0⟩, groups := [(5, queryGroup)], ctxs := [(0, queryCtx)], dies := [(8, { halted := true })]
    teams := [(1, { ctx := 0, core := 0, nthr := 1, w := 16 })], cur := some querySlot, rtime := 1000 }

/-- A query of the peer whose index `v4` holds. -/
def peerQuery : Instr := .peerq {} (.v 16) (.v 4)

/-- The state in which the query reads its operand. -/
def queryStart : State :=
  ((haltedBelay.began peerQuery 5 queryGroup [0]).mapNames 5 (dstNames peerQuery queryGroup.w)).get (by decide)

/-- What the first context's clocks show under a time-stop, after a step that goes on. -/
def stopAfter : Out → Option Nat
  | .next t => (t.ctx? 0).bind Ctx.stopAt
  | _ => none

theorem peerQuery_executes : Executes peerQuery {} haltedBelay querySlot queryGroup [0] [] queryStart := by
  exact ⟨rfl, rfl, by decide, by decide, by decide, by decide, by decide, by decide, (Option.some_get _).symm⟩

theorem peerQuery_issues : queryStart.issueStall querySlot [0] true (!true) = none := by decide

theorem peerQuery_quiet : queryStart.quiet querySlot queryGroup [0] :=
  ⟨by decide, by decide, by decide⟩

theorem stopAfter_peerQuery : stopAfter (exec peerQuery haltedBelay) = some 1000 := by decide

theorem goOn_ctxs (s : State) (gid : Nat) (off on : List Nat) : (s.goOn gid off on).ctxs = s.ctxs := by
  obtain ⟨f, hf, -⟩ := advance_moves s gid off
  obtain ⟨h, hh, -⟩ := advance_moves (s.advance gid off) gid on
  rw [State.goOn, hh, hf]
  rfl

/-- Refutes O57: a `PEERQ` on a belay die that is halted begins the time-stop of its context (R407), and the frame of the
instructions that a belay die serves lets only the touched dies and the scoreboard of the context change. -/
theorem not_framesOfInstructions : ¬ Obligations.FramesOfInstructions := by
  unfold Obligations.FramesOfInstructions
  rintro ⟨-, -, -, -, -, -, -, ⟨peerq, -⟩, -⟩
  obtain ⟨u, hu, -, hctx⟩ := peerq {} (.v 16) (.v 4) haltedBelay querySlot queryGroup [0] [] queryStart
    peerQuery_executes peerQuery_issues peerQuery_quiet fun _ _ => trivial
  obtain ⟨y, hy, hstop, -⟩ := hctx 0 queryCtx (by decide)
  have kept : y.stopAt = none := by rw [hstop]; rfl
  have begun := stopAfter_peerQuery
  have hg : (u.goOn querySlot.gid [] [0]).ctx? 0 = some y := by rw [State.ctx?, goOn_ctxs]; exact hy
  rw [peerQuery, hu, stopAfter, hg, Option.bind_some, kept] at begun
  cases begun

end Sys2Proof.Machine

end

section

/-! Proofs. What the answers of a peer do to the one operation that waits for them, and what their absence does (R70, R72, R350,
R403). -/

namespace Sys2Proof.Machine

/-! ### Answers that reach their operation (R72, R350, R403) -/

section

variable {s : State} {id : Nat} {o : Op}

/-- Data for the one operation of its tag, whose core's clock runs, reach it. -/
theorem receive_rdata_of_one (ha : s.asking s.sel.a s.sel.msg.tag = [(id, o)]) (hr : (s.pair (pairOf o.core)).relock = none) :
    s.receive { kind := .rdata, x := s.sel } = (s.dataFor id o s.sel.a s.sel.msg.data).flushes := by
  have hc : s.crossing { kind := .rdata, x := s.sel } = false := by simp [State.crossing, ha, hr]
  change (if s.crossing { kind := .rdata, x := s.sel } = true then _ else s.dataIn) = _
  rw [hc, if_neg Bool.false_ne_true, State.dataIn, ha, List.foldl_cons, List.foldl_nil]

variable (ha : s.asking s.sel.a s.sel.b = [(id, o)])

include ha

/-- An acknowledgement of the one operation of its tag, whose core's clock runs, reaches it. -/
theorem receive_ack_of_one (hr : (s.pair (pairOf o.core)).relock = none) :
    s.receive { kind := .ack, x := s.sel } = (s.ackFor id o s.sel.a).flushes := by
  have hc : s.crossing { kind := .ack, x := s.sel } = false := by simp [State.crossing, ha, hr]
  change (if s.crossing { kind := .ack, x := s.sel } = true then _ else s.ackIn) = _
  rw [hc, if_neg Bool.false_ne_true, State.ackIn, ha, List.foldl_cons, List.foldl_nil]

/-- A refusal of the one operation of its tag, whose core's clock runs, reaches it. -/
theorem receive_nack_of_one (hr : (s.pair (pairOf o.core)).relock = none) :
    s.receive { kind := .nack, x := s.sel } = (s.nackFor id o s.sel.a (Cause.ofCode s.sel.c)).flushes := by
  have hc : s.crossing { kind := .nack, x := s.sel } = false := by simp [State.crossing, ha, hr]
  change (if s.crossing { kind := .nack, x := s.sel } = true then _ else s.nackIn) = _
  rw [hc, if_neg Bool.false_ne_true, State.nackIn, ha, List.foldl_cons, List.foldl_nil]

/-- An acknowledgement waits at the clock crossing while the pair of its operation's core relocks. -/
theorem receive_ack_of_relock (hr : (s.pair (pairOf o.core)).relock.isSome = true) :
    s.receive { kind := .ack, x := s.sel } = { s with fifo := s.fifo ++ [{ kind := .ack, x := s.sel }] } := by
  have hc : s.crossing { kind := .ack, x := s.sel } = true := by simp [State.crossing, ha, hr]
  change (if s.crossing { kind := .ack, x := s.sel } = true then _ else s.ackIn) = _
  rw [if_pos hc]

end

/-! ### What an answer does to an operation of each kind (R70, R72) -/

section

variable {s : State} {id : Nat} {o : Op}

theorem dataFor_load {sp : Space} {a n : Nat} {sgn : Bool} (hk : o.kind = .load sp a n sgn) (peer : Nat) (bs : List Byte) :
    s.dataFor id o peer bs = s.loaded id o n sgn bs := by
  simp only [State.dataFor, hk]

theorem dataFor_atom {sp : Space} {a n : Nat} {aop : BitVec 4} {v : List Byte} {ret : Bool} {mode : BitVec 4} {shape : Word}
    (hk : o.kind = .atom sp a aop n v ret mode shape) (peer : Nat) (bs : List Byte) :
    s.dataFor id o peer bs = s.atomDone id o a n ret bs := by
  simp only [State.dataFor, hk]

theorem ackFor_store {sp : Space} {a : Nat} {bs : List Byte} (hk : o.kind = .store sp a bs) (peer : Nat) :
    s.ackFor id o peer = ((s.escape id ⟨.store, Nat.log2 bs.length, a⟩).settle id .ok).doneB id := by
  simp only [State.ackFor, hk]

/-- A store or a load. -/
def Op.isStoreOrLoad (o : Op) : Prop := (∃ sp a bs, o.kind = .store sp a bs) ∨ ∃ sp a n sgn, o.kind = .load sp a n sgn

theorem nackFor_of_isStoreOrLoad (hp : o.isStoreOrLoad) (peer : Nat) (c : Cause) : s.nackFor id o peer c = s.fail id c := by
  obtain ⟨sp, a, bs, hk⟩ | ⟨sp, a, n, sgn, hk⟩ := hp
  · simp only [State.nackFor, hk]
  · simp only [State.nackFor, hk]

end

/-! ### The timeout (R70) -/

section

variable {s : State} {o : Op} (ho : s.op? s.sel.a = some o) (hu : s.unanswered o = true) (hp : o.isStoreOrLoad)

include ho hu hp

theorem remoteTimeout_of_sent {tag : Nat} (hs : o.st = .sent tag) :
    exec .remoteTimeout s = .next (s.fail s.sel.a .remoteTimeout).flushes := by
  rw [← nackFor_of_isStoreOrLoad hp 0]
  change execRemoteTimeout s = _
  obtain ⟨sp, a, bs, hk⟩ | ⟨sp, a, n, sgn, hk⟩ := hp
  · simp only [execRemoteTimeout, ho, hs, hu, hk, Bool.not_true, Bool.false_eq_true, if_false]
  · simp only [execRemoteTimeout, ho, hs, hu, hk, Bool.not_true, Bool.false_eq_true, if_false]

theorem remoteTimeout_of_waiting (hs : o.st = .waiting) (hf : s.forPeer o = true) :
    exec .remoteTimeout s = .next (s.fail s.sel.a .remoteTimeout) := by
  change execRemoteTimeout s = _
  obtain ⟨sp, a, bs, hk⟩ | ⟨sp, a, n, sgn, hk⟩ := hp
  · simp only [execRemoteTimeout, ho, hs, hu, hk, hf, Bool.and_self, if_true]
  · simp only [execRemoteTimeout, ho, hs, hu, hk, hf, Bool.and_self, if_true]

end

/-! ### Flits that bring answers, and the statement -/

theorem flitIn_of_header {s : State} {h : BitVec 128} (hs : s.sel.hdr = some h) (k : MsgKind) (code : Nat) :
    s.flitIn k code = s.takeFlit k code h := by
  rw [State.flitIn, hs]

/-- Settles O37: an answer reaches its one operation or waits at the crossing, and each kind of operation takes it in its way. -/
theorem repliesSettleOperations : Obligations.RepliesSettleOperations := by
  unfold Obligations.RepliesSettleOperations
  refine ⟨?flits, ?answers, fun s id o => receive_ack_of_relock, ?timeouts⟩
  case flits =>
    simp only [List.forall_mem_cons, List.not_mem_nil, false_imp_iff, implies_true, and_true]
    exact ⟨fun s h hs => congrArg Host.Outcome.next (flitIn_of_header hs .rdata 0),
      fun s h hs => congrArg Host.Outcome.next (flitIn_of_header hs .ack 0),
      fun s h hs => congrArg Host.Outcome.next (flitIn_of_header hs .nack 0)⟩
  case answers =>
    intro s id o hr
    refine ⟨fun sp a n sgn ha hk => ?_, fun sp a aop n v ret mode shape ha hk => ?_, fun sp a bs ha hk => ?_, fun ha hp => ?_⟩
    · rw [receive_rdata_of_one ha hr, dataFor_load hk]
    · rw [receive_rdata_of_one ha hr, dataFor_atom hk]
    · rw [receive_ack_of_one ha hr, ackFor_store hk]
    · rw [receive_nack_of_one ha hr, nackFor_of_isStoreOrLoad hp]
  case timeouts =>
    intro s o ho hu hp
    exact ⟨fun tag => remoteTimeout_of_sent ho hu hp, remoteTimeout_of_waiting ho hu hp⟩

end Sys2Proof.Machine

end

section

/-! Proofs. What completes memory operations: accesses performed at their home, invalidates answered, held operations released, and the
acknowledgements of fences on translations (R70, R73, R101, R163, R168). -/

namespace Sys2Proof.Machine

/-! ### Global accesses at their home (R70, R163) -/

section

variable {s : State} {o : Op} (ho : s.op? s.sel.a = some o) (hr : s.homeReady s.sel.a o = true)

include ho hr

theorem globalLoadReturn_of_home (hl : o.isLoad = true) :
    exec .globalLoadReturn s = .next (s.performMem s.sel.flag s.sel.a) := by
  change execGlobalLoadReturn s = _
  simp only [execGlobalLoadReturn, ho, hl, hr, Bool.not_true, Bool.false_eq_true, if_false, if_true]

theorem globalStoreAccept_of_home (hl : o.isLoad = false) :
    exec .globalStoreAccept s = .next (s.performMem false s.sel.a) := by
  change execGlobalStoreAccept s = _
  simp only [execGlobalStoreAccept, ho, hl, hr, Bool.false_eq_true, if_false, if_true]

end

section

variable {s m : State} {id a n : Nat} {o : Op} {sgn : Bool} (ho : s.op? id = some o) (hk : o.kind = .load .global a n sgn)
  (hm : s.meets o.ctx a 1 { r := true } (s.sysMode o.ctx) (pairOf o.core) = m)

include ho hk hm

/-- A load that no L1 serves reads its home and fills the L1. -/
theorem performMem_of_read {t : State} {bs : List Byte}
    (hr : m.spaceRead .global o.gid o.ctx o.core a n { r := true } = .ok (t, bs)) :
    s.performMem false id = (t.l1Fill o.core o.ctx a).loaded id o n sgn bs := by
  simp [State.performMem, ho, Op.global?, Op.access?, hk, hm, hr]

theorem performMem_of_read_failed {c : Cause}
    (hr : m.spaceRead .global o.gid o.ctx o.core a n { r := true } = .error (.cause c)) :
    s.performMem false id = m.fail id c := by
  simp [State.performMem, ho, Op.global?, Op.access?, hk, hm, hr]

theorem performMem_of_read_absent
    (hr : m.spaceRead .global o.gid o.ctx o.core a n { r := true } = .error .notPresent) :
    s.performMem false id = m.park id o := by
  simp [State.performMem, ho, Op.global?, Op.access?, hk, hm, hr]

/-- A relaxed load of group or core scope is served by a line that its core's L1 holds. -/
theorem performMem_of_l1Hit {bs : List Byte} (hq : acquires o.ord = false) (hs : Scope.rank o.scope ≤ 1) (hy : m.mayRead o a = true)
    (hl : m.l1Read o.core o.ctx a n = some bs) : s.performMem true id = m.loaded id o n sgn bs := by
  simp [State.performMem, ho, Op.global?, Op.access?, hk, hm, hq, hs, hy, hl]

end

/-- A prefetch of a page that is not present settles. -/
theorem performMem_of_prefetch_absent {s m : State} {id a : Nat} {o : Op} {toL1 l1 : Bool} (ho : s.op? id = some o)
    (hk : o.kind = .pref a toL1) (hm : s.meets o.ctx a 1 { r := true } (s.sysMode o.ctx) (pairOf o.core) = m)
    (ht : m.translate o.ctx a { r := true } (m.sysMode o.ctx) (pairOf o.core) = .error .notPresent) :
    s.performMem l1 id = m.settleFlags id .ok := by
  simp [State.performMem, ho, Op.global?, Op.access?, hk, hm, ht]

section

variable {s m : State} {id a : Nat} {o : Op} {bs : List Byte} (ho : s.op? id = some o) (hk : o.kind = .store .global a bs)
  (hm : s.meets o.ctx a 1 { w := true } (s.sysMode o.ctx) (pairOf o.core) = m)

include ho hk hm

/-- A store without a translation waits for no holders: its write meets the fault. -/
theorem performMem_store_of_fault {e : XErr}
    (ht : m.translate o.ctx a { w := true } (m.sysMode o.ctx) (pairOf o.core) = .error e) :
    s.performMem false id = m.storeDone id o a bs := by
  simp [State.performMem, ho, Op.global?, Op.access?, hk, hm, ht, State.writeMem]

/-- A store enters memory where its line's holders let it, and waits for them otherwise (R101). -/
theorem performMem_store_of_gate {f : Leaf × Nat} {t : State} {go : Bool}
    (ht : m.translate o.ctx a { w := true } (m.sysMode o.ctx) (pairOf o.core) = .ok f)
    (hg : m.replGate id none o.ctx a = (t, go)) :
    s.performMem false id = if go then t.storeDone id o a bs else t := by
  cases go <;> simp [State.performMem, ho, Op.global?, Op.access?, hk, hm, ht, hg, State.writeMem]

end

section

variable {s m : State} {id a n : Nat} {o : Op} {aop : BitVec 4} {v : List Byte} {ret : Bool} {mode : BitVec 4} {shape : Word}
  (ho : s.op? id = some o) (hk : o.kind = .atom .global a aop n v ret mode shape)
  (hm : s.meets o.ctx a 1 { r := true, w := true } (s.sysMode o.ctx) (pairOf o.core) = m)

include ho hk hm

/-- An atomic without a translation waits for no holders: its access meets the fault. -/
theorem performMem_atom_of_fault {e : XErr}
    (ht : m.translate o.ctx a { r := true, w := true } (m.sysMode o.ctx) (pairOf o.core) = .error e) :
    s.performMem false id = m.writeMem id o := by
  simp [State.performMem, ho, Op.global?, Op.access?, hk, hm, ht]

/-- An atomic is performed where its line's holders let it, and waits for them otherwise (R101). -/
theorem performMem_atom_of_gate {f : Leaf × Nat} {t : State} {go : Bool}
    (ht : m.translate o.ctx a { r := true, w := true } (m.sysMode o.ctx) (pairOf o.core) = .ok f)
    (hg : m.replGate id none o.ctx a = (t, go)) :
    s.performMem false id = if go then t.writeMem id o else t := by
  cases go <;> simp [State.performMem, ho, Op.global?, Op.access?, hk, hm, ht, hg]

end

theorem storeDone_of_written {s t : State} {id va : Nat} {o : Op} {bs : List Byte}
    (hw : s.spaceWrite .global o.gid o.ctx o.core va bs = .ok t) : s.storeDone id o va bs =
      (((((t.l1Store o.core o.ctx va bs).notePromo id o va).escape id ⟨.store, Nat.log2 bs.length, va⟩).settle id .ok).doneB id) := by
  rw [State.storeDone, hw]

/-! ### Invalidates (R101) -/

/-- The entry `k` of the invalidate queue without its debt to a die. -/
def State.acked (s : State) (k die : Nat) : State :=
  { s with replQ := Map.mod k (fun e => { e with acks := e.acks.filter (· ≠ die) }) s.replQ }

/-- An answer that an entry waits for is taken, and the entries of its line from it on go where they wait for none. -/
theorem ackRepl_of_owed {s : State} {k die : Nat} {e : ReplW} (hk : Map.get? s.replQ k = some e) (hd : die ∈ e.acks) :
    s.ackRepl k die = ((s.acked k die).replQ.filter fun x => x.2.line = e.line && decide (k ≤ x.1)).foldl (fun s x =>
      if (Map.get? s.replQ x.1).any fun y => y.acks.isEmpty then s.replGo x.2 else s) (s.acked k die) := by
  rw [State.ackRepl, hk]
  exact if_neg (by simp [hd])

/-- An entry of the queue after an answer stands where it stood, for the line it was for. -/
theorem mem_acked {s : State} {k die : Nat} {x : Nat × ReplW} (hx : x ∈ (s.acked k die).replQ) :
    ∃ y ∈ s.replQ, x.1 = y.1 ∧ x.2.line = y.2.line := by
  obtain ⟨y, hy, rfl⟩ := List.mem_map.mp hx
  exact ⟨y, hy, by split <;> exact ⟨rfl, rfl⟩⟩

/-- A fold whose steps over its list leave a value alone leaves it alone. -/
theorem foldl_fixed_of_mem {α β : Type} {f : α → β → α} {a : α} {ls : List β} (h : ∀ b ∈ ls, f a b = a) : ls.foldl f a = a := by
  induction ls with
  | nil => rfl
  | cons b ls ih =>
    rw [List.foldl_cons, h b List.mem_cons_self]
    exact ih fun c hc => h c (List.mem_cons_of_mem b hc)

/-- While another holder still owes its answer nothing goes, if no other write of the line waits. -/
theorem ackRepl_of_more {s : State} {k die : Nat} {e : ReplW} (hk : Map.get? s.replQ k = some e) (hd : die ∈ e.acks)
    (hm : ∃ d ∈ e.acks, d ≠ die) (hl : ∀ x ∈ s.replQ, x.2.line = e.line → x.1 = k) : s.ackRepl k die = s.acked k die := by
  have owes : Map.get? (s.acked k die).replQ k = some { e with acks := e.acks.filter (· ≠ die) } := by
    simp only [State.acked, Map.get?_mod, hk, Option.map_some]
  rw [ackRepl_of_owed hk hd]
  refine foldl_fixed_of_mem fun x hx => if_neg ?_
  obtain ⟨hx, hline⟩ := List.mem_filter.mp hx
  obtain ⟨y, hy, hxy, hly⟩ := mem_acked hx
  obtain ⟨d, hd, hne⟩ := hm
  have hat : x.1 = k := hxy.trans (hl y hy (hly.symm.trans (by simpa using (Bool.and_eq_true_iff.mp hline).1)))
  simp only [hat, owes, Option.any_some, List.isEmpty_iff, List.filter_eq_nil_iff]
  exact fun h => h d hd (by simpa using hne)

/-- The write of an operation that waits at its home is performed. -/
theorem replGo_of_waiting {s : State} {e : ReplW} {o : Op} (he : e.src = none) (ho : s.op? e.op = some o) (hs : o.st = .waiting)
    (hg : o.global?.isSome = true) : s.replGo e = s.performMem false e.op := by
  simp only [State.replGo, he, ho, hs, hg, decide_true, Bool.and_self, if_true]

/-- The last answer lets the write of an operation, alone in the queue, be performed. -/
theorem ackRepl_of_last {s : State} {k die line id : Nat} {o : Op} (hq : s.replQ = [(k, ⟨line, id, none, [die]⟩)])
    (ho : s.op? id = some o) (hs : o.st = .waiting) (hg : o.global?.isSome = true) :
    s.ackRepl k die = ({ s with replQ := [(k, ⟨line, id, none, []⟩)] } : State).performMem false id := by
  have empty : s.acked k die = { s with replQ := [(k, ⟨line, id, none, []⟩)] } := by
    simp [State.acked, hq, Map.mod]
  have hk : Map.get? s.replQ k = some ⟨line, id, none, [die]⟩ := by simp [hq, Map.get?_cons]
  rw [ackRepl_of_owed hk List.mem_cons_self, empty]
  simp only [decide_true, le_refl, Bool.and_self, List.filter_cons_of_pos, List.filter_nil, List.foldl_cons, List.foldl_nil,
    Map.get?_cons, if_true, Option.any_some, List.isEmpty_nil]
  exact replGo_of_waiting (e := ⟨line, id, none, []⟩) rfl ho hs hg

/-! ### Held operations (R73, R286, R370) -/

section

variable {s : State} {o : Op} (ho : s.op? s.sel.a = some o)

include ho

/-- A mismatch that the pair comparator finds is asked for only where the operation is of a paired team (R286). -/
theorem heldOperationRelease_of_held (hh : o.held = true) (hs : o.st.settled = false) (hb : s.horizonBefore s.sel.a o = true)
    (hl : s.laneHeld s.sel.a o = false) : exec .heldOperationRelease s =
      if s.sel.flag && ((s.group? o.gid).bind fun g => s.team? g.team).any Team.paired then .next (s.fatal o.gid .pairMismatch)
      else .next ((s.modOp s.sel.a fun x => { x with held := false }).startOp s.sel.a) := by
  change execHeldOperationRelease s = _
  simp only [execHeldOperationRelease, ho, hh, hs, hb, hl]
  rfl

theorem heldOperationRelease_of_update {sb : Nat} {m : DWord} {set : Bool} (hh : o.held = false) (hs : o.st = .waiting)
    (hk : o.kind = .scb sb m set) :
    exec .heldOperationRelease s = .next (s.startOp s.sel.a) := by
  change execHeldOperationRelease s = _
  simp [execHeldOperationRelease, ho, hh, Op.inTurn, hk, hs]

end

theorem heldOperationRelease_of_queue {s : State} {g : Group} {t : Team} {k : Nat} {w : Word} (ho : s.op? s.sel.a = none)
    (hf : s.sel.flag = true) (hg : s.group? s.sel.b = some g) (ht : s.team? g.team = some t) (hp : t.paired = true)
    (hw : (s.thread s.sel.b s.sel.c).wait = some (.qpush k w false)) :
    exec .heldOperationRelease s = .next (s.fatal s.sel.b .pairMismatch) := by
  have hc : s.comparing s.sel.b s.sel.c = true := by simp [State.comparing, hg, ht, hp, hw]
  change execHeldOperationRelease s = _
  simp only [execHeldOperationRelease, ho, hf, hc, Bool.and_self, if_true]

/-! ### Fences on translations (R168) -/

theorem tfenceWalkerAck_of_asked {s : State} {o : Op} {acks : List Nat} (ho : s.op? s.sel.a = some o) (hk : o.kind = .tfence acks)
    (hb : s.sel.b ∈ acks) (hh : o.held = false) (hs : o.st = .waiting) (ha : s.storesAccepted s.sel.a o = true) {t : State}
    (ht : (({ s with tlb := s.tlb.filter fun e => !(e.ctx = o.ctx && e.home = s.sel.b) } : State).modOp s.sel.a fun x =>
      { x with kind := .tfence (acks.filter (· ≠ s.sel.b)) }) = t) :
    exec .tfenceWalkerAck s = .next (if acks.filter (· ≠ s.sel.b) = [] then t.settleFlags s.sel.a .ok else t) := by
  subst ht
  change execTfenceWalkerAck s = _
  unfold execTfenceWalkerAck
  simp only [ho, hk]
  rw [if_neg (by simp [hh, hs, hb, ha])]
  simp only [List.isEmpty_iff]

end Sys2Proof.Machine

end

section

/-! Proofs. What engines do sector by sector: a copy within scratchpads, a line that a re-stripe moves, and the end of either (R175, R187,
R321). -/

namespace Sys2Proof.Machine

/-! ### What a falling flag leaves alone -/

/-- A state without what the completion flags of an operation change. -/
def State.unflagged (s : State) : State := { s with ops := [], groups := [], images := [] }

theorem lowerFlag_unflagged (s : State) (gid ex f : Nat) : (s.lowerFlag gid ex f).unflagged = s.unflagged := by
  unfold State.lowerFlag
  dsimp only
  refine (foldl_keeps State.unflagged (fun t e => ?_) _ _).trans rfl
  split
  · split <;> rfl
  · rfl

theorem doneB_unflagged (s : State) (id : Nat) : (s.doneB id).unflagged = s.unflagged := by
  unfold State.doneB
  split
  · rfl
  split
  · rfl
  dsimp only
  split
  · rfl
  · exact lowerFlag_unflagged _ _ _ _

section

variable (s : State) (id : Nat)

@[simp] theorem doneB_mem : (s.doneB id).mem = s.mem := (congrArg State.mem (doneB_unflagged s id) :)
@[simp] theorem doneB_teams : (s.doneB id).teams = s.teams := (congrArg State.teams (doneB_unflagged s id) :)
@[simp] theorem doneB_clusters : (s.doneB id).clusters = s.clusters := (congrArg State.clusters (doneB_unflagged s id) :)
@[simp] theorem doneB_moving : (s.doneB id).moving = s.moving := (congrArg State.moving (doneB_unflagged s id) :)

end

/-! ### Runs of a sector -/

/-- Addresses in a row that stay in one block are one run. -/
theorem runsIn_range' {w a n : Nat} (h : (a + n) / w = a / w) : runsIn w (List.range' a (n + 1)) = [(a, n + 1)] := by
  induction n generalizing a with
  | zero => rfl
  | succ n ih =>
    have lo : a / w ≤ (a + 1) / w := Nat.div_le_div_right (Nat.le_succ a)
    have hi : (a + 1) / w ≤ (a + (n + 1)) / w := Nat.div_le_div_right (by omega)
    have one : (a + 1 + n) / w = (a + 1) / w := by rw [Nat.add_right_comm, Nat.add_assoc]; omega
    rw [List.range'_succ, runsIn, ih one]
    exact if_pos ⟨rfl, by omega⟩

/-- An aligned sector of scratchpad is one run. -/
theorem runsOf_scratch_sector {a : Nat} (h : a % 64 = 0) : runsOf .scratch (List.range' a 64) = [(a, 64)] := by
  rw [runsOf, if_neg (by decide)]
  exact runsIn_range' (n := 63) (by omega)

section

variable {a : Async} (hp : a.pos = 0) (sp dp : Space) (src dst : Nat)

include hp

theorem sectorNeed_copy : sectorNeed a (.copy sp dp src dst 64) = (sp, List.range' src 64) := by
  simp [sectorNeed, hp, List.range'_eq_map_range]

theorem sectorPut_copy (need : List Nat) {got : List Byte} (hg : got.length = 64) (img : Nat → Byte) :
    sectorPut a (.copy sp dp src dst 64) need got img = (dp, (List.range' dst 64).zip got) := by
  simp only [sectorPut, hp, hg, Nat.mul_zero, Nat.add_zero, Prod.mk.injEq, true_and]
  refine List.ext_getElem (by simp [hg]) fun i h _ => ?_
  have hi : i < got.length := by simpa [hg] using h
  simp [hi]

end

/-! ### Accesses of an engine to scratchpads (R161) -/

section

variable {s : State} {id : Nat} {o : Op} {a : Async} {word : Bool} {x n ph : Nat}

theorem gather_scratch_run (hs : s.scratch? a.team x n = some ph) (hp : s.poisoned ph n = false) :
    s.gather id o a .scratch word [] [(x, n)] = .all s (s.readPhys ph n) := by
  simp [State.gather, State.farAway, State.engineGate, State.aRead, hs, hp]

theorem mayScatter_scratch (runs : List (Nat × Nat)) : s.mayScatter id o .scratch runs = (s, true) := by
  simp [State.mayScatter]

theorem scatter_scratch_run {bs : List Byte} {wr : Nat} (hn : bs.length = n) (hs : s.scratch? a.team x n = some ph) :
    s.scatter id o a .scratch word wr bs [(x, n)] =
      (((s.writePhys ph bs).clearPoison ph n).modOp id (modAsync fun a => { a with wrote := true }), none) := by
  subst hn
  simp [State.scatter, State.farAway, State.aWrite, hs]

end

/-- Where an address of scratchpad lies depends on the teams and clusters alone. -/
theorem scratch?_congr {s t : State} (ht : t.teams = s.teams) (hc : t.clusters = s.clusters) (tid a n : Nat) :
    t.scratch? tid a n = s.scratch? tid a n := by
  simp only [State.scratch?, State.team?, State.rankAlloc, ht, hc]

@[simp] theorem readPhys_length (s : State) (a n : Nat) : (s.readPhys a n).length = n := by
  simp [State.readPhys, Memory.read]

/-! ### A sector of a copy (R175) -/

@[simp] theorem escape_mem (s : State) (id : Nat) (e : Esc) : (s.escape id e).mem = s.mem := rfl

theorem copySector_of_clocked {s : State} {o : Op} (ho : s.op? s.sel.a = some o) (hc : s.clocked o.core = true) :
    exec .copySector s = .next (s.sector false s.sel.a) := by
  change execCopySector s = _
  simp only [execCopySector, ho, hc, if_true]

section

variable {s : State} {id : Nat} {o : Op} {x : Async} {src dst p q : Nat} (ho : s.op? id = some o)
  (hk : o.kind = .async x (.copy .scratch .scratch src dst 64)) (hs : o.st = .waiting) (hh : o.held = false) (he : o.err = none)
  (hc : x.cancelled = false) (hr : s.copyReady id o = true) (ha : s.teamAway x (.copy .scratch .scratch src dst 64) = false)
  (hpos : x.pos = 0) (hbuf : x.buf = []) (hwr : x.wr = 0) (hsrc : src % 64 = 0) (hdst : dst % 64 = 0)
  (hp : s.scratch? x.team src 64 = some p) (hq : s.scratch? x.team dst 64 = some q) (hb : s.poisoned p 64 = false)

include ho hk hs hh he hc hr ha hpos hbuf hwr hsrc hdst hp hq hb

/-- The one sector of a copy within scratchpads is read whole and then written whole. -/
theorem sector_scratch_mem : (s.sector false id).mem = Memory.write s.mem q (s.readPhys p 64) := by
  have sectors : Job.sectors (.copy .scratch .scratch src dst 64) = 1 := by simp [Job.sectors, Job.count, ceilDiv]
  have there (t : State) (ht : t.teams = s.teams) (hc : t.clusters = s.clusters) : t.scratch? x.team dst 64 = some q :=
    (scratch?_congr ht hc x.team dst 64).trans hq
  have bytes : ((List.range' dst 64).zip (s.readPhys p 64)).map Prod.snd = s.readPhys p 64 := List.map_snd_zip (by simp)
  have places : ((List.range' dst 64).zip (s.readPhys p 64)).map Prod.fst = List.range' dst 64 := List.map_fst_zip (by simp)
  unfold State.sector
  simp only [ho, hk, hs, hh, he, hc, hr, ha, hpos, sectors]
  simp only [sectorNeed_copy hpos, hbuf, hwr, runsOf_scratch_sector hsrc, List.length_nil, List.drop_zero, gather_scratch_run hp hb,
    sectorPut_copy hpos _ _ _ _ _ (readPhys_length s p 64), mayScatter_scratch, bytes, places, runsOf_scratch_sector hdst, Job.stores]
  simp only [decide_true, if_true, Bool.false_and, Bool.false_eq_true, if_false]
  rw [scatter_scratch_run (readPhys_length s p 64) (there _ (by simp) (by simp))]
  simp [apply_ite State.mem]

end

/-! ### Lines of a re-stripe (R187, R321) -/

@[simp] theorem moveLine_moving (s : State) (m : Moving) (ofs : Nat) : (s.moveLine m ofs).moving = s.moving := by
  unfold State.moveLine State.lineMoved
  dsimp only
  split
  · dsimp only
    rw [foldl_keeps State.moving (by exact fun _ _ => rfl), foldl_keeps State.moving (by exact fun _ _ => rfl)]
  · dsimp only
    rw [foldl_keeps State.moving (by exact fun _ _ => rfl), foldl_keeps State.moving (by exact fun _ _ => rfl)]

theorem meets_moving (s : State) (ctx va n : Nat) (p : Perm) (sys : Bool) (die : Nat) :
    (s.meets ctx va n p sys die).moving = s.moving := by
  refine foldl_keeps State.moving (fun t e => ?_) _ s
  dsimp only
  split
  · rfl
  · split <;> rfl

theorem walked_moving {s t : State} {ctx va n ex lane : Nat} (h : s.walked ctx va n ex lane = (t, true)) : t.moving = s.moving := by
  unfold State.walked at h
  dsimp only at h
  split at h
  · split at h <;> cases h <;> rfl
  · cases h

/-- An access that an engine may make now has moved no page. -/
theorem engineGate_moving {s t : State} {o : Op} {sp : Space} {va n : Nat} (h : s.engineGate o sp va n = (t, true)) :
    t.moving = s.moving := by
  unfold State.engineGate at h
  split at h
  · cases h; rfl
  split at h
  · cases h
  split at h
  · cases h
  next hw =>
    cases h
    rw [meets_moving, walked_moving hw]

/-- The state when the line of a page has moved, and the page's move stands behind it. -/
def State.lineDone (s : State) (id : Nat) (m : Moving) : State :=
  { s.moveLine m m.pos with moving := { m with pos := m.pos + 256 } :: (s.moveLine m m.pos).moving.filter fun x => x.ea ≠ m.ea }.modOp id
    (modAsync fun a => { a with wrote := true, pos := a.pos + 1 })

theorem lineDone_moving (s : State) (id : Nat) (m : Moving) :
    (s.lineDone id m).moving = { m with pos := m.pos + 256 } :: s.moving.filter fun x => x.ea ≠ m.ea := by
  rw [← moveLine_moving s m m.pos]
  rfl

theorem pageMoved_moving (s : State) (m : Moving) : (s.pageMoved m).moving = s.moving.filter fun x => x.ea ≠ m.ea := rfl

section

variable {s g : State} {id : Nat} {o : Op} {x : Async} {va pages size done : Nat} {w : Word} {m : Moving} (ho : s.op? id = some o)
  (hk : o.kind = .async x (.restripe va pages w size done)) (hs : o.st = .waiting) (hh : o.held = false) (hc : x.cancelled = false)
  (hd : done < pages) (hv : vaOk (va + done * size) = true) (hr : s.remote? (va + done * size) = none) (hm : s.moving = [m])
  (hid : m.op = id) (hne : m.new ≠ m.old) (hg : s.engineGate o .global (va + done * size) 1 = (g, true))

include ho hk hs hh hc hd hv hr hm hid hne hg

/-- The line at the place of a page's move is moved, and behind the last line the page takes its new word. -/
theorem restripeLine_of_gate : ∃ f, s.restripeLine id =
    let u := (if m.pos + 256 = m.size && decide (done + 1 = pages) then g.doneB id else g).lineDone id m
    if m.pos + 256 < m.size then u else (u.pageMoved { m with pos := m.pos + 256 }).modOp id f := by
  have hgm : g.moving = [m] := (engineGate_moving hg).trans hm
  subst hid
  unfold State.restripeLine
  simp only [ho, hk]
  rw [if_neg (by simp [hs, hh, hc, hd]), if_neg (by simp [hv]), if_neg (by simp [hr])]
  simp only [hg, hgm, decide_true, List.find?_cons_of_pos]
  rw [if_neg hne]
  exact ⟨_, rfl⟩

/-- A line inside its page moves, and its page's move goes on behind it. -/
theorem restripeLine_of_inner (hl : m.pos + 256 < m.size) : (s.restripeLine id).mem = (g.moveLine m m.pos).mem ∧
    (s.restripeLine id).moving = [{ m with pos := m.pos + 256 }] := by
  have hgm : g.moving = [m] := (engineGate_moving hg).trans hm
  obtain ⟨f, hf⟩ := restripeLine_of_gate ho hk hs hh hc hd hv hr hm hid hne hg
  rw [hf]
  dsimp only
  rw [if_pos hl, if_neg (by simp [hl.ne]), lineDone_moving, hgm]
  exact ⟨rfl, by simp⟩

/-- Behind the last line of a page its move is over. -/
theorem restripeLine_of_last (hl : m.size ≤ m.pos + 256) : (s.restripeLine id).moving = [] := by
  have hgm : g.moving = [m] := (engineGate_moving hg).trans hm
  obtain ⟨f, hf⟩ := restripeLine_of_gate ho hk hs hh hc hd hv hr hm hid hne hg
  rw [hf]
  dsimp only
  rw [if_neg hl.not_gt, modOp_moving, pageMoved_moving, lineDone_moving, apply_ite State.moving, doneB_moving, ite_self, hgm]
  simp

end

/-! ### The end of a copy, of a stream or of a re-stripe (R175) -/

theorem copyComplete_of_whole {s : State} {o : Op} {a : Async} {j : Job} (ho : s.op? s.sel.a = some o) (hk : o.kind = .async a j)
    (he : o.err = none) (hs : o.st = .waiting) (hh : o.held = false) (hw : a.cancelled = true ∨ a.whole j = true)
    (hm : s.moving = []) : exec .copyComplete s = .next (s.asyncEnd s.sel.a .ok) := by
  have whole : (a.cancelled || a.whole j) = true := by simpa using hw
  change execCopyComplete s = _
  simp [execCopyComplete, ho, hk, he, hs, hh, whole, hm]

theorem copyComplete_of_bad {s : State} {o : Op} {a : Async} {j : Job} {c : Cause} (ho : s.op? s.sel.a = some o)
    (hk : o.kind = .async a j) (he : o.err = some c) : exec .copyComplete s = .next (s.asyncEnd s.sel.a (.failed c)) := by
  change execCopyComplete s = _
  simp only [execCopyComplete, ho, hk, he]

end Sys2Proof.Machine

end

section

/-! Proofs. What ends page walks, services of pages and replays, and what the queues of banks do with requests (R317 to R320, R325,
R326). -/

namespace Sys2Proof.Machine

/-! ### Walks (R317) -/

section

variable {s : State} {w : Walk} {f : Leaf} (hv : vaOk s.sel.b = true) (hr : s.remote? s.sel.b = none)
  (hw : (s.walks.find? fun w => w.live && w.covers s.sel.a s.sel.b) = some w)
  (hc : (s.pair (vaHome s.sel.b)).relock = none) (hd : s.dieServes (vaHome s.sel.b) = true)

include hv hr hw hc hd

theorem pageWalkComplete_of_found (hf : s.walk s.sel.a (vaHome s.sel.b) (vaOfs s.sel.b) = .ok f) :
    exec .pageWalkComplete s = .next ((s.walkOver w true).cache s.sel.a f) := by
  change execPageWalkComplete s = _
  simp only [execPageWalkComplete, hv, hr, hw, hc, hd, hf, Bool.not_true, Option.isSome_none, Bool.or_self, Bool.false_eq_true,
    if_false]

theorem pageWalkComplete_of_absent (hf : s.walk s.sel.a (vaHome s.sel.b) (vaOfs s.sel.b) = .error .notPresent)
    (hl : (s.walkOver w false).rawLeaf s.sel.a s.sel.b = some f) :
    exec .pageWalkComplete s = .next ((s.walkOver w false).parkOn s.sel.a (vaHome s.sel.b) f) := by
  change execPageWalkComplete s = _
  simp only [execPageWalkComplete, hv, hr, hw, hc, hd, hf, hl, Bool.not_true, Option.isSome_none, Bool.or_self, Bool.false_eq_true,
    if_false]

end

/-- A walk that nobody is to meet again, or that found its page, is forgotten. -/
theorem walkOver_of_done (s : State) {w : Walk} {found : Bool} (h : w.again = false ∨ found = true) :
    s.walkOver w found = State.startWalks { s with walks := s.walks.filter (· ≠ w) } w.home 1 := by
  rw [State.walkOver, if_neg (by rcases h with h | h <;> simp [h])]

/-! ### Services of pages (R320) -/

/-- A page without what is remembered of services that could not read its backing. -/
def State.forgetUnread (s : State) (ctx : Nat) (f : Leaf) : State :=
  { s with unread := s.unread.filter fun u => !(u.1 = ctx && u.2.1 = f.home && u.2.2.1 = f.base) }

/-- The bytes of a page come into its frame. -/
def State.filled (s : State) (f : Leaf) : State :=
  (s.wipe ((rangesOf (leafWord f.w1) f.size (leafFrame f.w0)).map physRange)).fill (leafWord f.w1) (leafFrame f.w0)
    (s.sel.msg.data.take f.size)

/-- A page becomes present, and no walker keeps what it was. -/
def State.present (s : State) (f : Leaf) : State :=
  { s.setLeafBits f.ea (fun w => w ||| 1) with tlb := s.tlb.filter fun e => e.ea ≠ f.ea }

/-- The page as its service leaves it. -/
def State.serviced (s : State) (ctx : Nat) (f : Leaf) : Service → State
  | .unreadable => { s with unread := (ctx, f.home, f.base, f.size) :: s.unread }
  | .removed => s.setLeafBits f.ea fun w => w &&& ~~~0x80
  | .served => (if s.leafOk f.size f.w0 f.w1 then s.filled f else s).present f

theorem serviced_of_leafOk {s : State} {f : Leaf} (ctx : Nat) (h : s.leafOk f.size f.w0 f.w1 = true) :
    s.serviced ctx f .served = (s.filled f).present f := by
  rw [State.serviced, if_pos h]

/-- What waited for a page goes on: requests of peers, and the installation of armed operations. -/
def State.goesOn (s : State) : State := s.serveAgain.ctxs.foldl (fun x c => x.installArms c.1) s.serveAgain

theorem pageService_of_absent {s : State} {f : Leaf} (hb : s.belayServes = true) (hv : vaOk s.sel.b = true)
    (hr : s.remote? s.sel.b = none) (hf : s.rawLeaf s.sel.a s.sel.b = some f) (hp : f.w0.getLsbD 0 = false) (hm : s.moving = []) :
    exec .pageService s = .next ((s.forgetUnread s.sel.a f).serviced s.sel.a f s.sel.svc).goesOn := by
  change execPageService s = _
  unfold execPageService
  dsimp only
  rw [if_neg (by simp [hv, hr, hb])]
  simp only [hf]
  rw [if_neg (by simp only [hp, hm, List.any_nil, Bool.or_self, Bool.false_eq_true, not_false_eq_true])]
  cases s.sel.svc <;> rfl

/-! ### Replays (R320) -/

/-- A parked access of global memory is made again. -/
theorem replayOne_of_access {s : State} {id : Nat} {o : Op} (ho : s.op? id = some o) (hs : o.st = .parked)
    (hg : o.global?.isSome = true) :
    s.replayOne id = (s.modOp id fun x => { x with st := .waiting }).performMem false id := by
  unfold State.replayOne
  simp only [ho]
  rw [if_neg (by simp [hs])]
  cases hk : o.kind <;> simp_all [Op.global?]

/-- The one parked access of a group replays where nothing stands before it. -/
theorem replay_of_one {s u : State} {id gid : Nat} {o q : Op} (hops : s.ops = [(id, o)]) (hgid : o.gid = gid) (hs : o.st = .parked)
    (hb : s.replayBehind id o = false) (hu : s.replayGate [(id, o)] = (u, true)) (hq : (u.replayOne id).op? id = some q)
    (hn : q.st ≠ .parked) : s.replay gid = (u.replayOne id).unpark gid := by
  simp [State.replay, hops, hgid, hs, List.eraseDups_cons, hb, hu, hq, hn]

/-! ### The queues of banks (R325, R326) -/

/-- What a request that enters does to one that reached its bank before it. -/
def State.overtaken (s : State) (id b : Nat) (o : Op) (e : Nat × Op) : Nat × Op :=
  if decide (e.2.arrived e.1 < o.arrived id) && s.atBank e.1 e.2 b then (e.1, { e.2 with passed := e.2.passed + 1 }) else e

theorem bankRequestAdmit_of_admitted {s : State} {o : Op} {b : Nat} (ho : s.op? s.sel.a = some o) (hb : o.bank? = some b)
    (ha : s.admits s.sel.a o b = true) (hk : ∀ a j, o.kind ≠ .async a j) :
    exec .bankRequestAdmit s = .next (({ s with
      ops := s.ops.map (s.overtaken s.sel.a b o), banks := Map.put b (s.queue b ++ [(s.sel.a, 0)]) s.banks } : State).modOp s.sel.a
        fun x => { x with passed := 0 }) := by
  change execBankRequestAdmit s = _
  have notStream : o.streams = false := by
    unfold Op.streams
    split
    next h => exact absurd h (hk _ _)
    next => rfl
  simp only [execBankRequestAdmit, ho, hb, ha, notStream, Bool.not_true, Bool.false_eq_true, if_false]
  rfl

/-- The bank's queue without its head, and its ALU busy with that request of an operation. -/
def State.takenFrom (s : State) (b : Nat) (o : Op) (rest : List BankReq) : State :=
  ({ s with banks := if rest = [] then Map.del b s.banks else Map.put b rest s.banks } : State).occupy b o.aluCycles

/-- What a request does at its bank, by the kind of its operation. -/
def State.atBankDo (s : State) (id i : Nat) (o : Op) : State :=
  match o.kind with
  | .async a (.bank _ _ _ _ _ _) => if a.cancelled then s else s.bankStep id i
  | .async _ _ => (s.sector true id).reaches id
  | .chunk _ _ _ _ _ => s.chunkAtBank id o
  | .poll _ l a n => s.bankPoll id o l a n
  | _ => s.performMem false id

theorem bankRequestPerform_of_head {s : State} {o : Op} {id i : Nat} {rest : List BankReq} (hq : s.queue s.sel.a = (id, i) :: rest)
    (hf : s.bankFree s.sel.a = true) (ho : s.op? id = some o) (hs : o.st = .waiting) :
    exec .bankRequestPerform s = .next ((s.takenFrom s.sel.a o rest).atBankDo id i o) := by
  change execBankRequestPerform s = _
  unfold execBankRequestPerform
  simp only [hq, hf, Bool.not_true, Bool.false_eq_true, if_false, List.isEmpty_iff]
  rw [show State.op? { s with banks := if rest = [] then Map.del s.sel.a s.banks else Map.put s.sel.a rest s.banks } id = some o
    from ho]
  dsimp only
  rw [if_neg (by simp [hs]), State.atBankDo]
  generalize o.kind = k
  cases k with
  | async a j => cases j <;> rfl
  | _ => rfl

end Sys2Proof.Machine

end

section

/-! Proofs. The statement of the events that complete memory operations, copies, walks, services and bank requests. -/

namespace Sys2Proof.Machine

/-- Settles O44: each event by the lemma about it. When each comes is the model's choice (log entries 23, 31 and 69), and so is what a page
service remembers (log entry 45). -/
theorem memoryEvents : Obligations.MemoryEvents := by
  unfold Obligations.MemoryEvents
  refine ⟨?load, ?prefetch, ?write, fun s t o va bs id => storeDone_of_written, ?acked, ?lastAck, ?held, ?update, ?queue, ?fence,
    fun s o => copySector_of_clocked, ?copy, fun s => rfl, ?restripe, ?whole, ?bad, ?walk, fun s w found => walkOver_of_done s,
    ?service, fun s => rfl, ?replay, fun s id o => replayOne_of_access, ?enters, ?perform⟩
  case load =>
    intro s o a n sgn id ho hr hk m r
    have isLoad : o.isLoad = true := by rw [Op.isLoad, hk]
    rw [globalLoadReturn_of_home ho hr isLoad]
    refine ⟨fun hf => ?_, fun bs hf hq hs hy hl => ?_⟩
    · rw [hf]
      exact ⟨fun t bs h => congrArg _ (performMem_of_read ho hk rfl h), fun c h => congrArg _ (performMem_of_read_failed ho hk rfl h),
        fun h => congrArg _ (performMem_of_read_absent ho hk rfl h)⟩
    · rw [hf, performMem_of_l1Hit ho hk rfl hq hs hy hl]
  case prefetch =>
    intro s o a l id ho hr hk m ht
    have isLoad : o.isLoad = true := by rw [Op.isLoad, hk]
    rw [globalLoadReturn_of_home ho hr isLoad, performMem_of_prefetch_absent ho hk rfl ht]
  case write =>
    intro s o id ho hr
    refine ⟨?store, ?atomic⟩
    case store =>
      intro a bs hk m r
      have isStore : o.isLoad = false := by rw [Op.isLoad, hk]
      rw [globalStoreAccept_of_home ho hr isStore]
      refine ⟨fun e h => ?_, fun f t h => ⟨fun hg => ?_, fun hg => ?_⟩⟩
      · rw [performMem_store_of_fault ho hk rfl h]
      · rw [performMem_store_of_gate ho hk rfl h hg]; rfl
      · rw [performMem_store_of_gate ho hk rfl h hg]; rfl
    case atomic =>
      intro a aop n v ret mode shape hk m r
      have isAtomic : o.isLoad = false := by rw [Op.isLoad, hk]
      rw [globalStoreAccept_of_home ho hr isAtomic]
      refine ⟨fun e h => ?_, fun f t h => ⟨fun hg => ?_, fun hg => ?_⟩⟩
      · rw [performMem_atom_of_fault ho hk rfl h]
      · rw [performMem_atom_of_gate ho hk rfl h hg]; rfl
      · rw [performMem_atom_of_gate ho hk rfl h hg]; rfl
  case acked => exact fun s e hk hd hm hl => congrArg Host.Outcome.next (ackRepl_of_more hk hd hm hl)
  case lastAck => exact fun s line id o hq ho hs hg => congrArg Host.Outcome.next (ackRepl_of_last hq ho hs hg)
  case held =>
    intro s o id ho hh hs hb hl
    rw [heldOperationRelease_of_held ho hh hs hb hl]
    refine ⟨fun hf => ?_, fun g t hf hg ht hp => ?_⟩
    · rw [hf]; rfl
    · rw [hf, hg, Option.bind_some, ht, Option.any_some, hp]; rfl
  case update => exact fun s o sb m set ho hh hs hk => heldOperationRelease_of_update ho hh hs hk
  case queue => exact fun s g t k w => heldOperationRelease_of_queue
  case fence => exact fun s o acks ho hk hb hh hs ha => tfenceWalkerAck_of_asked ho hk hb hh hs ha rfl
  case copy =>
    intro s o x src dst p q id ho hr hk hs hh he hc hrd ha hpos hbuf hwr hsrc hdst hp hq hb
    exact ⟨_, copySector_of_clocked ho hr, sector_scratch_mem ho hk hs hh he hc hrd ha hpos hbuf hwr hsrc hdst hp hq hb⟩
  case restripe =>
    intro s o x va pages w size done m ho hk hs hh hc hd hv hr hm hid hne g hg
    refine ⟨fun hl => ?_, fun hl => ?_⟩
    · exact ⟨_, rfl, restripeLine_of_inner ho hk hs hh hc hd hv hr hm hid hne hg hl⟩
    · exact ⟨_, rfl, restripeLine_of_last ho hk hs hh hc hd hv hr hm hid hne hg hl⟩
  case whole =>
    intro s o a j id ho hk he hs hh hw hm
    exact copyComplete_of_whole ho hk he hs hh hw hm
  case bad => exact fun s o a j c => copyComplete_of_bad
  case walk =>
    intro s w home hv hr hw hc hd
    exact ⟨fun f => pageWalkComplete_of_found hv hr hw hc hd, fun f => pageWalkComplete_of_absent hv hr hw hc hd⟩
  case service =>
    intro s f hb hv hr hf hp hm u goes
    have serviced := pageService_of_absent hb hv hr hf hp hm
    refine ⟨fun hs => ?_, fun hs => ?_, fun hs hl => ?_⟩
    · rw [hs] at serviced; exact serviced
    · rw [hs] at serviced; exact serviced
    · rw [hs, serviced_of_leafOk (s := s.forgetUnread s.sel.a f) s.sel.a hl] at serviced; exact serviced
  case replay =>
    exact fun s u id o q hops hgid hs hb hu hq hn => congrArg Host.Outcome.next (replay_of_one hops hgid hs hb hu hq hn)
  case enters =>
    intro s o b id ho hb ha hk
    exact bankRequestAdmit_of_admitted ho hb ha hk
  case perform =>
    intro s o id i rest hq hf ho hs t
    rw [bankRequestPerform_of_head hq hf ho hs, State.atBankDo]
    refine ⟨?_, fun a x d p q v m hk hc => ?_, fun a sp dp src dst n hk => ?_, fun k va n w comb hk => ?_, fun sp l a n hk => ?_⟩
    · rintro (⟨sp, a, n, sgn, hk⟩ | ⟨sp, a, bs, hk⟩ | ⟨sp, a, aop, n, v, ret, mode, shape, hk⟩)
      · rw [hk]; rfl
      · rw [hk]; rfl
      · rw [hk]; rfl
    · rw [hk]
      exact congrArg Host.Outcome.next (if_neg (by simp [hc]))
    · rw [hk]; rfl
    · rw [hk]; rfl
    · rw [hk]; rfl

end Sys2Proof.Machine

end

section

/-! Proofs. Hardware barriers: what one arrival leaves of a barrier where nobody waits, and what `BAR` comes to lane by lane (R99,
R135, R136). -/

namespace Sys2Proof.Machine

@[simp] theorem team?_modTeam (s : State) (tid : Nat) (f : Team → Team) : (s.modTeam tid f).team? tid = (s.team? tid).map f :=
  Map.get?_mod ..

/-! ### Barriers of a team, where nobody waits (R136) -/

/-- No thread waits at a barrier. -/
def State.NoneAtBar (s : State) : Prop := ∀ e ∈ s.groups, ∀ x ∈ e.2.threads, ∀ clu idx ph, x.2.wait ≠ some (.bar clu idx ph)

/-- A change of a group that adds no wait leaves it so that nobody waits at a barrier. -/
theorem noneAtBar_modGroup {s : State} (hs : s.NoneAtBar) (gid : Nat) {f : Group → Group}
    (hf : ∀ g, ∀ y ∈ (f g).threads, ∃ x ∈ g.threads, y.2.wait = x.2.wait) : (s.modGroup gid f).NoneAtBar := by
  intro e he y hy clu idx ph
  obtain ⟨e', he', rfl⟩ := List.mem_map.mp he
  split at hy
  · obtain ⟨x, hx, hw⟩ := hf e'.2 y hy
    rw [hw]
    exact hs e' he' x hx clu idx ph
  · exact hs e' he' y hy clu idx ph

theorem noneAtBar_modThread {s : State} (hs : s.NoneAtBar) (gid l : Nat) {f : Thread → Thread} (hf : ∀ x, (f x).wait = x.wait) :
    (s.modThread gid l f).NoneAtBar := by
  refine noneAtBar_modGroup hs gid fun g y hy => ?_
  obtain ⟨x, hx, rfl⟩ := List.mem_map.mp hy
  refine ⟨x, hx, ?_⟩
  split
  · exact hf x.2
  · rfl

/-- A fold whose steps leave it so that nobody waits at a barrier. -/
theorem noneAtBar_foldl {β : Type} {f : State → β → State} (hf : ∀ s b, s.NoneAtBar → (f s b).NoneAtBar) (ls : List β)
    {s : State} (hs : s.NoneAtBar) : (ls.foldl f s).NoneAtBar := by
  induction ls generalizing s with
  | nil => exact hs
  | cons b ls ih => exact ih (hf s b hs)

/-- The threads of a group that wait for a phase of barrier `k` go on. -/
def State.wakePhase (k : Nat) (ph : Bool) (s : State) (e : Nat × Group) : State :=
  let hit := e.2.threads.filter fun t => t.2.wait = some (.bar (decide (16 ≤ k)) (k % 16) ph) && !s.deliverable e.1 t.1
  hit.foldl (fun s t => s.wake e.1 t.1)
    (if 16 ≤ k && !hit.isEmpty then s.modCore e.2.core fun c => { c with l1 := [] } else s)

section

variable {s : State} {tid k : Nat}

/-- The barrier of a team depends on the teams alone. -/
theorem barrier_congr {t : State} (hk : k < 16) (h : t.teams = s.teams) : t.barrier tid k = s.barrier tid k := by
  simp only [State.barrier, State.team?, h, hk, if_true]

theorem groups_setBarrier (b : Barrier) : (s.setBarrier tid k b).groups = s.groups := by
  unfold State.setBarrier
  split
  · rfl
  · split <;> rfl

section

variable {tm : Team} (hk : k < 16) (ht : s.team? tid = some tm)

include hk ht

theorem setBarrier_of_team (b : Barrier) :
    s.setBarrier tid k b = s.modTeam tid fun t => { t with bars := Map.put k b t.bars } := by
  simp only [State.setBarrier, ht, hk, if_true]

theorem team?_setBarrier (b : Barrier) :
    (s.setBarrier tid k b).team? tid = some { tm with bars := Map.put k b tm.bars } := by
  rw [setBarrier_of_team hk ht, team?_modTeam, ht, Option.map_some]

theorem barrier_setBarrier (b : Barrier) : (s.setBarrier tid k b).barrier tid k = b := by
  simp only [State.barrier, team?_setBarrier hk ht, hk, if_true, Map.get_put]

end

variable (hs : s.NoneAtBar)

include hs

theorem noneAtBar_setBarrier (b : Barrier) : (s.setBarrier tid k b).NoneAtBar := by
  unfold State.NoneAtBar
  rw [groups_setBarrier]
  exact hs

/-- Nobody has abandoned a wait. -/
theorem withdrawAll_of_noneAtBar : s.withdrawAll tid k = s := by
  unfold State.withdrawAll
  refine foldl_fixed_of_mem fun e he => ?_
  rw [List.filter_eq_nil_iff.mpr, List.foldl_nil]
  intro x hx
  have hw := hs e (List.mem_of_mem_filter he) x hx
  cases h : x.2.wait with
  | none => simp
  | some w =>
    cases w with
    | bar clu idx ph => exact absurd h (hw clu idx ph)
    | _ => simp

/-- Nobody is woken. -/
theorem foldl_wakePhase_of_noneAtBar (q : Nat × Group → Bool) (ph : Bool) :
    (s.groups.filter q).foldl (State.wakePhase k ph) s = s := by
  refine foldl_fixed_of_mem fun e he => ?_
  have hit : (e.2.threads.filter fun t =>
      t.2.wait = some (.bar (decide (16 ≤ k)) (k % 16) ph) && !s.deliverable e.1 t.1) = [] := by
    rw [List.filter_eq_nil_iff]
    intro x hx
    simp [hs e (List.mem_of_mem_filter he) x hx]
  simp [State.wakePhase, hit]

end

/-- A barrier whose phase is complete begins the next one with the arrivals beyond its count. -/
def Barrier.flipped (b : Barrier) : Barrier := { b with ph := !b.ph, n := b.n - b.e }

/-- What the end of a phase of barrier `k` leaves of a group. -/
def Group.forgetArrivals (k : Nat) (g : Group) : Group :=
  { g with threads := Map.modAll (fun _ t => { t with arr := Map.del k t.arr }) g.threads }

theorem noneAtBar_forgetArrivals {s : State} (hs : s.NoneAtBar) (k gid : Nat) :
    (s.modGroup gid (Group.forgetArrivals k)).NoneAtBar := by
  refine noneAtBar_modGroup hs gid fun g y hy => ?_
  obtain ⟨x, hx, rfl⟩ := List.mem_map.mp hy
  exact ⟨x, hx, rfl⟩

section

variable {s : State} {tid k : Nat} {tm : Team} (hs : s.NoneAtBar) (hk : k < 16) (ht : s.team? tid = some tm)

include hs

/-- With nobody waiting the end of a phase changes the barrier and forgets who has arrived. -/
theorem completePhase_of_noneAtBar : ∃ ls : List (Nat × Group), s.completePhase tid k =
    ls.foldl (fun s e => s.modGroup e.1 (Group.forgetArrivals k)) (s.setBarrier tid k (s.barrier tid k).flipped) := by
  have kept := noneAtBar_foldl (f := fun s (e : Nat × Group) => s.modGroup e.1 (Group.forgetArrivals k))
    (fun s e h => noneAtBar_forgetArrivals h k e.1)
  exact ⟨_, foldl_wakePhase_of_noneAtBar (kept _ (noneAtBar_setBarrier hs _)) _ _⟩

include hk ht

theorem barrier_completePhase : (s.completePhase tid k).barrier tid k = (s.barrier tid k).flipped := by
  obtain ⟨ls, h⟩ := completePhase_of_noneAtBar (tid := tid) (k := k) hs
  rw [h, barrier_congr hk (foldl_keeps State.teams (by exact fun _ _ => rfl) ls _), barrier_setBarrier hk ht]

/-- A phase with a count is complete when the count is reached. -/
theorem barrier_checkPhase (hn : (s.barrier tid k).n ≠ 0) (he : (s.barrier tid k).e ≠ 0) : (s.checkPhase tid k).barrier tid k =
    if (s.barrier tid k).e ≤ (s.barrier tid k).n then (s.barrier tid k).flipped else s.barrier tid k := by
  have done : s.phaseDone tid k = decide ((s.barrier tid k).e ≤ (s.barrier tid k).n) := by simp [State.phaseDone, hn, he]
  unfold State.checkPhase
  rw [withdrawAll_of_noneAtBar hs]
  dsimp only
  rw [done, if_neg he]
  simp only [decide_eq_true_eq]
  split
  · exact barrier_completePhase hs hk ht
  · rfl

end

/-- A barrier with one more arrival: the first of a phase sets the count. -/
def Barrier.arrived (b : Barrier) (a : Word) : Barrier := { b with e := if b.n = 0 then a.toNat else b.e, n := b.n + 1 }

/-- The state in which an arrival has been counted, and it is still to be seen whether the phase is complete. -/
def State.withArrival (s : State) (gid l tid k : Nat) (a : Word) : State :=
  (s.setBarrier tid k ((s.barrier tid k).arrived a)).modThread gid l fun t => { t with arr := Map.put k (s.barrier tid k).ph t.arr }

theorem arrive_eq (s : State) (gid l tid k : Nat) (a : Word) : s.arrive gid l tid k a =
    ((s.withArrival gid l tid k a).checkPhase tid k,
      decide ((((s.withArrival gid l tid k a).checkPhase tid k).barrier tid k).ph ≠ (s.barrier tid k).ph)) := rfl

theorem barrier_arrive {s : State} {tid k : Nat} {tm : Team} (hs : s.NoneAtBar) (hk : k < 16) (ht : s.team? tid = some tm)
    (gid l : Nat) (a : Word) (hw : ((s.barrier tid k).arrived a).e ≠ 0) : let b := (s.barrier tid k).arrived a
    (s.arrive gid l tid k a).1.barrier tid k = (if b.e ≤ b.n then b.flipped else b) ∧
      (s.arrive gid l tid k a).2 = decide (b.e ≤ b.n) := by
  intro b
  have counted : (s.withArrival gid l tid k a).barrier tid k = b := by
    unfold State.withArrival
    rw [barrier_congr hk (modThread_teams _ _ _ _), barrier_setBarrier hk ht]
  have nobody : (s.withArrival gid l tid k a).NoneAtBar := noneAtBar_modThread (noneAtBar_setBarrier hs b) gid l fun _ => rfl
  have team : (s.withArrival gid l tid k a).team? tid = some { tm with bars := Map.put k b tm.bars } := team?_setBarrier hk ht b
  have after := barrier_checkPhase nobody hk team (by rw [counted]; exact Nat.succ_ne_zero _) (by rw [counted]; exact hw)
  rw [counted] at after
  rw [arrive_eq]
  dsimp only
  rw [after]
  refine ⟨rfl, ?_⟩
  change decide ((if b.e ≤ b.n then b.flipped else b).ph ≠ b.ph) = _
  split
  next h => simp [h, Barrier.flipped]
  next h => simp [h]

/-! ### `BAR` lane by lane (R135) -/

/-- The key of a barrier: the team's, and then the cluster's. -/
def barKey (x : BarX) : Nat := if x.clu then 16 + x.idx.toNat else x.idx.toNat

/-- The wait for the phase in which a barrier stands. -/
def barWait (x : BarX) (tid : Nat) (s : State) : LaneRes := .wait (.bar x.clu x.idx.toNat (s.barrier tid (barKey x)).ph)

/-- The arrival of lane `l`, with the count that its operand gives. -/
def barArrive (x : BarX) (a : Opnd) (gid tid : Nat) (s : State) (l : Nat) : State × Bool :=
  s.arrive gid l tid (barKey x) (s.src32 gid l a)

/-- The lanes arrive one after the other, none with a count above the limit: `t j` is the state before lane `j` of them. -/
def BarRun (x : BarX) (a : Opnd) (gid tid : Nat) (on : List Nat) (t : Nat → State) : Prop :=
  ∀ j, j < on.length → ((t j).src32 gid (on.getD j 0) a).toNat ≤ (t j).barLimit tid (barKey x) ∧
    t (j + 1) = (barArrive x a gid tid (t j) (on.getD j 0)).1

/-- What lane `l` makes of the state, of the lanes whose phase is not complete, and of the results. -/
def barStep (x : BarX) (a : Opnd) (gid tid : Nat) (r : State × List Nat × List (Nat × LaneRes)) (l : Nat) :
    State × List Nat × List (Nat × LaneRes) :=
  if r.1.barLimit tid (barKey x) < (r.1.src32 gid l a).toNat then (r.1, r.2.1, r.2.2 ++ [(l, .trap .illegalOperand 0)])
  else
    let u := barArrive x a gid tid r.1 l
    if x.mode = .arrive then (u.1, [], r.2.2 ++ [(l, .next)])
    else if u.2 then (u.1, [], r.2.2 ++ (r.2.1 ++ [l]).map fun l => (l, .next))
    else (u.1, r.2.1 ++ [l], r.2.2)

/-- A path of a `SYNC` of which a lane goes on acquires; the lanes whose phase is not complete wait for it. -/
def barEnd (x : BarX) (core tid : Nat) (r : State × List Nat × List (Nat × LaneRes)) : State × List (Nat × LaneRes) :=
  let s := if x.mode = .sync && r.2.2.any (fun r => r.2 = .next) then r.1.acquire core (if x.clu then .clu else .grp) else r.1
  (s, r.2.2 ++ r.2.1.map fun l => (l, barWait x tid s))

/-- Steps that lead from each state of a chain to the next. -/
theorem foldl_chain {α : Type} {f : α → Nat → α} {ls : List Nat} {q : Nat → α}
    (h : ∀ j, j < ls.length → f (q j) (ls.getD j 0) = q (j + 1)) : ls.foldl f (q 0) = q ls.length := by
  induction ls generalizing q with
  | nil => rfl
  | cons l ls ih =>
    have h0 : f (q 0) l = q 1 := by simpa using h 0 (by simp)
    rw [List.foldl_cons, h0]
    exact ih (q := fun j => q (j + 1)) fun j hj => by simpa using h (j + 1) (by simpa using hj)

theorem take_succ_getD {ls : List Nat} {j : Nat} (hj : j < ls.length) : ls.take (j + 1) = ls.take j ++ [ls.getD j 0] := by
  rw [List.take_succ_eq_append_getElem hj, List.getD_eq_getElem _ _ hj]

theorem foldl_take_succ {α : Type} (f : α → Nat → α) (a : α) {ls : List Nat} {j : Nat} (hj : j < ls.length) :
    (ls.take (j + 1)).foldl f a = f ((ls.take j).foldl f a) (ls.getD j 0) := by
  rw [take_succ_getD hj, List.foldl_append, List.foldl_cons, List.foldl_nil]

section

variable {p : Pre} {x : BarX} {a : Opnd} {s : State} {c : Slot} {g : Group} {on off : List Nat} {s1 : State}
  (h : Executes (.bar p x a) p s c g on off s1)

include h

theorem bar_waits (hm : x.mode = .wait) :
    exec (.bar p x a) s = .next (s1.finish c.gid off (on.map fun l => (l, barWait x g.team s1))) := by
  change execBar p x a s = _
  unfold execBar
  refine inSlot_start h rfl ?_
  dsimp only
  rw [if_pos hm]
  rfl

/-- Once the earlier accesses of its lanes have been performed, the lanes arrive one after the other. -/
theorem bar_arrives (hp : ∀ l ∈ on, s1.storesPending c.gid l = false) (hm : x.mode ≠ .wait)
    {r : State × List Nat × List (Nat × LaneRes)}
    (hr : on.foldl (barStep x a c.gid g.team) (s1, [], []) = r) :
    exec (.bar p x a) s = .next ((barEnd x g.core g.team r).1.finish c.gid off (barEnd x g.core g.team r).2) := by
  have free : (on.any fun l => s1.storesPending c.gid l) = false := by simpa using hp
  change execBar p x a s = _
  unfold execBar
  refine inSlot_start h rfl ?_
  dsimp only
  rw [if_neg hm, free, if_neg Bool.false_ne_true, ← hr]
  rfl

theorem bar_traps (hp : ∀ l ∈ on, s1.storesPending c.gid l = false) (hm : x.mode ≠ .wait)
    (hl : ∀ l ∈ on, s1.barLimit g.team (barKey x) < (s1.src32 c.gid l a).toNat) :
    exec (.bar p x a) s = .next ((s1.advance c.gid off).trapAt c.gid on .illegalOperand .precise 0) := by
  have steps := foldl_chain (f := barStep x a c.gid g.team) (ls := on)
    (q := fun j => (s1, [], (on.take j).map fun l => (l, .trap .illegalOperand 0))) fun j hj => by
      have hin : on.getD j 0 ∈ on := by rw [List.getD_eq_getElem _ _ hj]; exact List.getElem_mem hj
      rw [barStep, if_pos (hl _ hin), take_succ_getD hj, List.map_append]
      rfl
  have stays : barEnd x g.core g.team (s1, [], on.map fun l => (l, .trap .illegalOperand 0)) =
      (s1, on.map fun l => (l, .trap .illegalOperand 0)) := by
    simp [barEnd]
  rw [bar_arrives h hp hm steps, List.take_length, stays, finish_trap h.ran h.apart h.stands]

end

section

variable {x : BarX} {a : Opnd} {gid tid : Nat} {on : List Nat} {t : Nat → State}
  (ht : BarRun x a gid tid on t)

include ht

theorem barStep_arrive (hm : x.mode = .arrive) {j : Nat} (hj : j < on.length) (rs : List (Nat × LaneRes)) :
    barStep x a gid tid (t j, [], rs) (on.getD j 0) = (t (j + 1), [], rs ++ [(on.getD j 0, .next)]) := by
  obtain ⟨hl, hn⟩ := ht j hj
  rw [barStep, if_neg (Nat.not_lt.mpr hl), hn]
  exact if_pos hm

/-- A lane of a `SYNC` that completes the phase goes on with those that wait for it. -/
theorem barStep_sync (hm : x.mode = .sync) {j : Nat} (hj : j < on.length) (pend : List Nat) (rs : List (Nat × LaneRes)) :
    barStep x a gid tid (t j, pend, rs) (on.getD j 0) =
      if (barArrive x a gid tid (t j) (on.getD j 0)).2 then
        (t (j + 1), [], rs ++ (pend ++ [on.getD j 0]).map fun l => (l, .next))
      else (t (j + 1), pend ++ [on.getD j 0], rs) := by
  obtain ⟨hl, hn⟩ := ht j hj
  rw [barStep, if_neg (Nat.not_lt.mpr hl), hn]
  exact if_neg (by simp [hm])

/-- Each lane of a `SYNC` that has arrived goes on or waits for its phase. -/
theorem foldl_barStep_sync (hm : x.mode = .sync) {j : Nat} (hj : j ≤ on.length) : ∃ go pend,
    (on.take j).foldl (barStep x a gid tid) (t 0, [], []) = (t j, pend, go.map fun l => (l, .next)) ∧ go ++ pend = on.take j := by
  induction j with
  | zero => exact ⟨[], [], by simp, by simp⟩
  | succ j ih =>
    obtain ⟨go, pend, hf, hall⟩ := ih (by omega)
    have one := barStep_sync ht hm (show j < on.length by omega) pend (go.map fun l => (l, .next))
    rw [foldl_take_succ _ _ (show j < on.length by omega), hf, one, take_succ_getD (show j < on.length by omega), ← hall]
    split
    · exact ⟨go ++ (pend ++ [on.getD j 0]), [], by simp only [List.map_append], by simp⟩
    · exact ⟨go, pend ++ [on.getD j 0], rfl, by simp⟩

end

section

variable {p : Pre} {x : BarX} {a : Opnd} {s : State} {c : Slot} {g : Group} {on off : List Nat} {s1 : State} {t : Nat → State}
  (h : Executes (.bar p x a) p s c g on off s1) (hp : ∀ l ∈ on, s1.storesPending c.gid l = false) (h0 : t 0 = s1)
  (ht : BarRun x a c.gid g.team on t)

include h hp h0 ht

theorem bar_arrive_goes_on (hm : x.mode = .arrive) : exec (.bar p x a) s = .next ((t on.length).goOn c.gid off on) := by
  have steps := foldl_chain (f := barStep x a c.gid g.team) (ls := on)
    (q := fun j => (t j, [], (on.take j).map fun l => (l, .next))) fun j hj => by
      rw [barStep_arrive ht hm hj, take_succ_getD hj, List.map_append]
      rfl
  have stays : barEnd x g.core g.team (t on.length, [], on.map fun l => (l, .next)) =
      (t on.length, on.map fun l => (l, .next)) := by
    simp [barEnd, hm]
  rw [h0] at steps
  rw [bar_arrives h hp (by simp [hm]) steps, List.take_length, stays, finish_next]

theorem bar_sync_goes_on (hm : x.mode = .sync)
    (hd : (barArrive x a c.gid g.team (t (on.length - 1)) (on.getD (on.length - 1) 0)).2 = true) :
    exec (.bar p x a) s = .next (((t on.length).acquire g.core (if x.clu then .clu else .grp)).goOn c.gid off on) := by
  obtain ⟨n, hn⟩ : ∃ n, on.length = n + 1 := Nat.exists_eq_succ_of_ne_zero (by simpa using h.ran)
  have hlt : n < on.length := by omega
  rw [hn, Nat.add_sub_cancel] at hd
  obtain ⟨go, pend, hf, hall⟩ := foldl_barStep_sync ht hm hlt.le
  have steps := foldl_take_succ (barStep x a c.gid g.team) (t 0, [], []) hlt
  rw [hf, barStep_sync ht hm hlt, if_pos hd, ← List.map_append, ← List.append_assoc, hall, ← take_succ_getD hlt, ← hn,
    List.take_length, h0] at steps
  have ends : barEnd x g.core g.team (t on.length, [], on.map fun l => (l, .next)) =
      ((t on.length).acquire g.core (if x.clu then .clu else .grp), on.map fun l => (l, .next)) := by
    obtain ⟨l, ls, rfl⟩ := List.exists_cons_of_ne_nil h.ran
    simp [barEnd, hm]
  rw [bar_arrives h hp (by simp [hm]) steps, ends, finish_next]

theorem bar_sync_waits (hm : x.mode = .sync)
    (hd : ∀ j, j < on.length → (barArrive x a c.gid g.team (t j) (on.getD j 0)).2 = false) :
    exec (.bar p x a) s = .next ((t on.length).finish c.gid off (on.map fun l => (l, barWait x g.team (t on.length)))) := by
  have steps := foldl_chain (f := barStep x a c.gid g.team) (ls := on) (q := fun j => (t j, on.take j, [])) fun j hj => by
    rw [barStep_sync ht hm hj, hd j hj, if_neg Bool.false_ne_true, take_succ_getD hj]
  have ends : barEnd x g.core g.team (t on.length, on, []) = (t on.length, on.map fun l => (l, barWait x g.team (t on.length))) := by
    simp [barEnd]
  rw [h0] at steps
  rw [bar_arrives h hp (by simp [hm]) steps, List.take_length, ends]

end

/-- Settles O25: the lanes arrive one after the other, and each of them goes on, waits or traps; one arrival by what it leaves of the
barrier. That the path waits for earlier stores is the model's reading (log entry 24). -/
theorem barrierArrivals : Obligations.BarrierArrivals := by
  unfold Obligations.BarrierArrivals
  refine ⟨fun p x a s c g on off s1 h => ⟨fun hm => bar_waits h hm, fun hp hm hl => bar_traps h hp hm hl, fun hp t h0 ht =>
    ⟨bar_arrive_goes_on h hp h0 ht, bar_sync_goes_on h hp h0 ht, bar_sync_waits h hp h0 ht⟩⟩, ?_⟩
  intro s gid l tid tm k a g hk ht hg hgt hs b want hw
  exact barrier_arrive hs hk ht gid l a hw

end Sys2Proof.Machine

end

section

/-! Proofs. The steps of collective programs that move chunks, and what a bank does with carry words (R101, R209, R326, R329, R364,
R365). -/

namespace Sys2Proof.Machine

/-! ### A step that goes on (R364) -/

section

variable {s : State} {k : Nat} {p : Prog} (h : Steps s k p)

include h

/-- A step whose program goes on once the bytes of its source are there. -/
theorem inStep_goes_on {src : Prog → Option (Nat × Nat)} {f : State → Nat → Prog → StepRes} {t u : State}
    (hr : s.chunkReady k p (src p) = (t, true)) (hf : f t k p = .on u) : inStep src f s = .next (u.giveCredits k) := by
  obtain ⟨slot, prog, started, fine, runs, -, -⟩ := h
  unfold inStep
  rw [slot]
  dsimp only
  rw [prog]
  dsimp only
  rw [if_neg (by simp [started, fine, runs]), hr]
  dsimp only
  rw [hf]

/-- Where nothing of an earlier step is under way, a step without a source chunk may be executed. -/
theorem chunkReady_none : s.chunkReady k p none = (s, true) := by
  obtain ⟨-, -, -, -, -, idle, written⟩ := h
  have idleOps : (s.ops.any fun e => !e.2.st.settled && e.2.ofProg k) = false := by
    rw [List.any_eq_false]
    intro e he hb
    obtain ⟨hs, hk⟩ := Bool.and_eq_true_iff.mp hb
    rw [idle e he hk] at hs
    cases hs
  unfold State.chunkReady
  rw [idleOps, written, if_neg Bool.false_ne_true]

end

/-! ### What the parts of a step come to -/

section

variable {s u : State} {k : Nat} {p : Prog} {w : StepW}

theorem gated_of_free {va n : Nat} (hg : s.collGate k p va n = (u, true)) (f : State → StepRes) : s.gated k p va n f = f u := by
  rw [State.gated, hg]

theorem putChunk_of_written {va : Nat} {bs : List Byte} {comb : Bool} (hw : s.collWrite k p va bs comb true = .ok u) :
    s.putChunk k p va bs comb = .on (u.chunkPut k p va) := by
  rw [State.putChunk, hw]
  rfl

/-- The next chunk combined with the source chunk. -/
theorem reduceChunk_of_read {t : State} {bs : List Byte} {mine : List Nat} (ht : s.takeChunk k p (p.rank w.pa) = some (t, bs))
    (hr : t.readCarry p w.bs (p.chunk w w.bs) = .ok (u, mine)) (f : State → List Nat → StepRes) :
    s.reduceChunk k p w f = f u (combineAll p.d.ety p.d.rop (p.d.carried bs) mine) := by
  rw [State.reduceChunk, ht]
  dsimp only
  rw [hr]
  rfl

theorem inPlace_of_eq (hc : p.carryWords w.bd = true) (he : p.chunk w w.bs = p.chunk w w.bd) : p.inPlace w = true := by
  simp [Prog.inPlace, hc, he]

/-! ### The steps (R365) -/

/-- A chunk of a rank has come, and the step may write where it goes: it is taken. -/
def State.comesIn (s : State) (k : Nat) (p : Prog) (w : StepW) (r : State) (bs : List Byte) : Prop :=
  (s.takeChunk k p (p.rank w.pa)).isSome ∧ ∃ u, s.collGate k p (p.chunk w w.bd) p.d.csz = (u, true) ∧
    u.takeChunk k p (p.rank w.pa) = some (r, bs)

theorem gated_of_comesIn {r : State} {bs : List Byte} (hc : s.comesIn k p w r bs) : ∃ u, u.takeChunk k p (p.rank w.pa) = some (r, bs) ∧
    ∀ f, (if (s.takeChunk k p (p.rank w.pa)).isNone then StepRes.wait else s.gated k p (p.chunk w w.bd) p.d.csz f) = f u := by
  obtain ⟨hs, u, hg, ht⟩ := hc
  refine ⟨u, ht, fun f => ?_⟩
  rw [if_neg (by simpa using Option.ne_none_iff_isSome.mpr hs), gated_of_free hg]

/-- The bytes that a RECV writes. -/
def Prog.received (p : Prog) (w : StepW) (bs : List Byte) : List Byte :=
  if w.cf then p.chunkBytes w.bd (p.d.carried bs)
  else if p.carryWords w.bd then carryBytes (lineToCarry p.d.ety ((List.range p.d.csz).map fun i => bs.getD i 0))
  else (List.range p.d.csz).map fun i => bs.getD i 0

theorem recvDo_of_comesIn {r : State} {bs : List Byte} (hc : s.comesIn k p w r bs)
    (hw : r.collWrite k p (p.chunk w w.bd) (p.received w bs) false true = .ok u) :
    recvDo w s k p = .on (u.chunkPut k p (p.chunk w w.bd)) := by
  obtain ⟨v, hv, gated⟩ := gated_of_comesIn hc
  unfold recvDo
  rw [gated, hv]
  exact putChunk_of_written hw

theorem rrwDo_of_inPlace {r : State} {bs : List Byte} (hp : p.inPlace w = true) (hc : s.comesIn k p w r bs)
    (hw : r.collWrite k p (p.chunk w w.bd) (carryBytes (p.d.carried bs)) true true = .ok u) :
    rrwDo w s k p = .on (u.chunkPut k p (p.chunk w w.bd)) := by
  obtain ⟨v, hv, gated⟩ := gated_of_comesIn hc
  unfold rrwDo
  rw [gated, if_pos hp, hv]
  exact putChunk_of_written hw

theorem rrwDo_of_apart {r t : State} {bs : List Byte} {mine : List Nat} (hp : p.inPlace w = false) (hc : s.comesIn k p w r bs)
    (hr : r.readCarry p w.bs (p.chunk w w.bs) = .ok (t, mine))
    (hw : t.collWrite k p (p.chunk w w.bd) (p.chunkBytes w.bd (combineAll p.d.ety p.d.rop (p.d.carried bs) mine)) (p.carryWords w.bd)
      true = .ok u) : rrwDo w s k p = .on (u.chunkPut k p (p.chunk w w.bd)) := by
  obtain ⟨v, hv, gated⟩ := gated_of_comesIn hc
  unfold rrwDo
  rw [gated, if_neg (by simp [hp]), reduceChunk_of_read hv hr]
  exact putChunk_of_written hw

theorem sendDo_of_plain {t : State} {bs : List Byte} (hc : Map.get p.credits (p.rank w.pa) 0 ≠ 0) (hf : w.cf = false)
    (hb : p.carryWords w.bs = false) (hr : s.collRead p (p.chunk w w.bs) p.d.csz = .ok (t, bs))
    (hs : t.sendChunk k p (p.rank w.pa) (p.chunk w w.bs) bs = .on u) : sendDo w s k p = .on (u.nextStep k) := by
  unfold sendDo
  simp only [hf, hb, Bool.or_self, Bool.false_eq_true, if_false]
  rw [if_neg hc, hr]
  simp only [ofAccess, hs]

theorem sendDo_of_carry {t : State} {es : List Nat} (hc : Map.get p.credits (p.rank w.pa) 0 ≠ 0)
    (hf : w.cf = true ∨ p.carryWords w.bs = true) (hr : s.readCarry p w.bs (p.chunk w w.bs) = .ok (t, es))
    (hs : t.sendChunk k p (p.rank w.pa) (p.chunk w w.bs) (if w.cf then carryBytes es else lineFromCarry p.d.ety es) = .on u) :
    sendDo w s k p = .on (u.nextStep k) := by
  unfold sendDo
  dsimp only
  rw [if_neg hc, if_pos (by simpa using hf), hr]
  simp only [Except.map, ofAccess, hs]

theorem rrsDo_of_read {t v : State} {bs : List Byte} {mine : List Nat} (hc : Map.get p.credits (p.rank w.pb) 0 ≠ 0)
    (ht : s.takeChunk k p (p.rank w.pa) = some (t, bs)) (hr : t.readCarry p w.bs (p.chunk w w.bs) = .ok (u, mine))
    (hs : u.sendChunk k p (p.rank w.pb) (p.chunk w w.bs) (carryBytes (combineAll p.d.ety p.d.rop (p.d.carried bs) mine)) = .on v) :
    rrsDo w s k p = .on (v.nextStep k) := by
  unfold rrsDo
  rw [if_neg hc, reduceChunk_of_read ht hr]
  simp only [hs]

section

variable {v t : State} (hg : s.collGate k p (p.chunk w w.bd) p.d.csz = (v, true))

include hg

theorem copyDo_of_plain {bs : List Byte} (hb : p.carryWords w.bs = false) (hd : p.carryWords w.bd = false)
    (hr : v.collRead p (p.chunk w w.bs) p.d.csz = .ok (t, bs)) (hw : t.collWrite k p (p.chunk w w.bd) bs false true = .ok u) :
    copyDo w s k p = .on (u.chunkPut k p (p.chunk w w.bd)) := by
  unfold copyDo
  rw [gated_of_free hg, if_neg (by simp [hb, hd]), hr]
  exact putChunk_of_written hw

theorem copyDo_of_carry {es : List Nat} (hb : p.carryWords w.bs = true ∨ p.carryWords w.bd = true)
    (hr : v.readCarry p w.bs (p.chunk w w.bs) = .ok (t, es))
    (hw : t.collWrite k p (p.chunk w w.bd) (p.chunkBytes w.bd es) false true = .ok u) :
    copyDo w s k p = .on (u.chunkPut k p (p.chunk w w.bd)) := by
  unfold copyDo
  rw [gated_of_free hg, if_pos (by simpa using hb), hr]
  exact putChunk_of_written hw

end

end

/-! ### Carry words (R209, R329) -/

theorem readCarry_of_plain {s : State} {p : Prog} {b : BitVec 2} {va : Nat} {bs : List Byte} (hb : p.carryWords b = false)
    (hr : s.collRead p va p.d.csz = .ok (s, bs)) : s.readCarry p b va = .ok (s, lineToCarry p.d.ety bs) := by
  rw [State.readCarry, if_neg (by simp [hb]), hr]
  rfl

/-- A bank combines what a request brings with what its words hold. -/
theorem chunkAtBank_of_combined {s t u : State} {id k va n : Nat} {o : Op} {p : Prog} {bs was : List Byte}
    (hk : o.kind = .chunk k va n (some bs) true)
    (hr : (s.bankTouch o.ctx (va % 2 ^ 32) n).spaceRead .bank 0 o.ctx o.core (va % 2 ^ 32) n {} = .ok (t, was))
    (hp : t.prog? k = some p) (hw : t.spaceWrite .bank 0 o.ctx o.core (va % 2 ^ 32)
      (carryBytes (combineAll p.d.ety p.d.rop (elemsOf 8 was) (elemsOf 8 bs))) = .ok u) :
    s.chunkAtBank id o = u.chunkDone id k n none := by
  unfold State.chunkAtBank
  simp only [hk, hr, hp, Option.elim_some, hw, Bool.not_true, Bool.false_eq_true, if_false]

/-- Settles O31: each step by what it comes to once its source is there. Which bases hold carry words, how requests reach the banks and
how early credits go out is the model's choice (log entries 69, 71 and 29). -/
theorem dataStepsComplete : Obligations.DataStepsComplete := by
  unfold Obligations.DataStepsComplete
  refine ⟨fun s k p w h => ⟨fun bs r u hc hw => ?recv, fun bs r u hb he hc hw => ?inPlace, fun s1 hs => ⟨?plain, ?carry, ?rrs, ?rrw,
    ?copy, ?copyCarry⟩⟩, fun s p b va bs => readCarry_of_plain, fun p b es => rfl,
    fun s t u id o k p va n bs was hk hp hr ht hw => chunkAtBank_of_combined hk hr ht hw⟩
  case recv => exact inStep_goes_on h (chunkReady_none h) (recvDo_of_comesIn hc hw)
  case inPlace =>
    have hp := inPlace_of_eq hb he
    exact inStep_goes_on h (by rw [if_pos hp]; exact chunkReady_none h) (rrwDo_of_inPlace hp hc hw)
  case plain => exact fun t bs u hc hf hb hr hw => inStep_goes_on h hs (sendDo_of_plain hc hf hb hr hw)
  case carry => exact fun t es u hc hf hr hw => inStep_goes_on h hs (sendDo_of_carry hc hf hr hw)
  case rrs => exact fun t bs u mine v hc ht hr hw => inStep_goes_on h hs (rrsDo_of_read hc ht hr hw)
  case rrw =>
    intro r bs u mine x hp hc hr hw
    exact inStep_goes_on h (by rw [if_neg (by simp [hp])]; exact hs) (rrwDo_of_apart hp hc hr hw)
  case copy => exact fun s0 t bs u hg hb hd hr hw => inStep_goes_on h hs (copyDo_of_plain hg hb hd hr hw)
  case copyCarry => exact fun s0 t es u hg hb hr hw => inStep_goes_on h hs (copyDo_of_carry hg hb hr hw)

end Sys2Proof.Machine

end

section

/-! Proofs. Requests of peers: when one is served at once, what is kept of one that is not, and what comes by Ultra Ethernet (R101, R103,
R308, R343, R346, R359, R405). -/

namespace Sys2Proof.Machine

/-! ### When a request is served (R317, R403) -/

/-- The state at which a peer's access is made: the dies that it meets have been touched (R400). -/
def State.metBy (g : State) (x : Serve) (va n : Nat) : State := g.meets x.ctx (g.servedVa va) n { r := true } x.sys (homeDie va)

section

variable {s g t : State} {x y : Serve} {va n : Nat}

/-- A request whose access may be made is served as far as it can be. -/
theorem serveTry_of_gate (hx : x.kind.at? = some (va, n)) (hg : s.serveGate x va n = (g, true)) :
    s.serveTry x = (g.metBy x va n).serveNow x := by
  simp only [State.serveTry, hx, hg, State.metBy]

/-- A request that accesses no memory yet is served as far as it can be. -/
theorem serveTry_of_no_access (hx : x.kind.at? = none) : s.serveTry x = s.serveNow x := by
  simp only [State.serveTry, hx]

/-- A write of which sectors are still to come accesses no memory. -/
theorem at?_write_of_more {left : Nat} {f : Option Cause} {todo : List (Nat × DWord × List Byte)} (hl : left ≠ 0) :
    (ServeKind.write va left f todo).at? = none := if_neg hl

theorem serve_of_done (h : s.serveTry x = (t, none)) : s.serve x = t := by
  rw [State.serve, h]

theorem serve_of_kept (h : s.serveTry x = (t, some y)) : s.serve x = { t with serving := t.serving ++ [y] } := by
  rw [State.serve, h]

end

/-! ### Reads (R308) -/

section

variable {s t : State} {x : Serve} {va n : Nat} (hx : x.kind = .read va n)

include hx

theorem serveNow_read_of_ok {bs : List Byte} (h : s.gread x.ctx (s.servedVa va) n { r := true } x.sys (homeDie va) = .ok (t, bs)) :
    s.serveNow x = (t.reply x .rdata va bs, none) := by
  simp only [State.serveNow, hx, h]

theorem serveNow_read_of_cause {c : Cause}
    (h : s.gread x.ctx (s.servedVa va) n { r := true } x.sys (homeDie va) = .error (.cause c)) :
    s.serveNow x = (s.replyNack x va c, none) := by
  simp only [State.serveNow, hx, h]

theorem serveNow_read_of_absent (h : s.gread x.ctx (s.servedVa va) n { r := true } x.sys (homeDie va) = .error .notPresent) :
    s.serveNow x = (s, some x) := by
  simp only [State.serveNow, hx, h]

end

/-! ### Writes, atomics, multicasts and records (R101, R343, R346, R405) -/

section

variable {s t u : State} {x : Serve} {va : Nat}

/-- Sectors that do not make up a line among themselves are written one by one. -/
theorem wholeLine_singleton (e : Nat × DWord × List Byte) : wholeLine [e] = none := by
  unfold wholeLine
  dsimp only
  split
  next a b c d ha hb _ _ =>
    have at_ {k : Nat} {bs : List Byte} (h : ([e].find? fun x => x.1 = e.1 / 256 * 256 + 64 * k && x.2.1 = BitVec.allOnes 64 &&
        x.2.2.length = 64).map (fun x => x.2.2) = some bs) : e.1 = e.1 / 256 * 256 + 64 * k := by
      obtain ⟨y, hy, -⟩ := Option.map_eq_some_iff.mp h
      have hp := List.find?_some hy
      have hm := List.mem_of_find?_eq_some hy
      rw [List.mem_singleton] at hm
      subst hm
      simp only [Bool.and_eq_true, decide_eq_true_eq] at hp
      exact hp.1.1
    have h0 := at_ ha
    have h1 := at_ hb
    omega
  next => rfl

theorem serveNow_write_of_more {left : Nat} {f : Option Cause} {todo : List (Nat × DWord × List Byte)}
    (hx : x.kind = .write va left f todo) (hl : left ≠ 0) : s.serveNow x = (s, some x) := by
  simp only [State.serveNow, hx, ne_eq, hl, not_false_eq_true, if_true]

/-- A write of one sector is made once the holders of its line have answered. -/
theorem serveNow_write_of_sector {a : Nat} {m : DWord} {d : List Byte} (hx : x.kind = .write va 0 none [(a, m, d)])
    (hg : s.replGate x.tag (some x.src) x.ctx (s.servedVa (va / 256 * 256)) = (t, true))
    (hw : t.maskedWrite x (t.servedVa a) (sectorMask m) d = .ok u) : s.serveNow x = (u.reply x .ack va [], none) := by
  simp only [State.serveNow, hx, hg, wholeLine_singleton, State.writeSectors, hw]
  exact if_neg fun h => h rfl

theorem serveNow_atomic_of_ok {aop : BitVec 4} {n : Nat} {v old : List Byte} {t0 : State} (hx : x.kind = .atomic va aop n v)
    (hr : s.gread x.ctx (s.servedVa va) n { r := true, w := true } x.sys (homeDie va) = .ok (t0, old))
    (hg : s.replGate x.tag (some x.src) x.ctx (s.servedVa va) = (t, true))
    (hw : t.gwrite x.ctx (t.servedVa va) (toBytes n (atomNew aop.toNat n (ofBytes old) (ofBytes (v.take n)) (ofBytes (v.drop n))))
      x.sys (homeDie va) = .ok u) : s.serveNow x = (u.reply x .rdata va old, none) := by
  simp only [State.serveNow, hx, hr, hg, hw]

theorem serveNow_mcast_of_ok {m : DWord} {d : List Byte} (hx : x.kind = .mcast va m d)
    (hg : s.replGate x.tag (some x.src) x.ctx (s.servedVa va) = (t, true))
    (hw : t.maskedWrite x (t.servedVa va) (lineMask m) d = .ok u) : s.serveNow x = (u.reply x .ack va [], none) := by
  simp only [State.serveNow, hx, hg, hw]

section

variable {core node : Nat} {words : List Word} (hx : x.kind = .spawn core node words)

include hx

theorem serveNow_spawn_of_room (h : s.binAccept core x.ctx node words = some t) : s.serveNow x = (t.reply x .ack 0 [], none) := by
  simp only [State.serveNow, hx, h]

theorem serveNow_spawn_of_full (h : s.binAccept core x.ctx node words = none) : s.serveNow x = (s, some x) := by
  simp only [State.serveNow, hx, h]

end

end

/-! ### What a verified message of a peer does (R308, R343) -/

section

variable (s : State)

theorem receive_read : s.receive { kind := .read, x := s.sel } = s.serve (s.serveOf (.read s.sel.msg.addr s.sel.msg.n)) := by rfl

theorem receive_atomic : s.receive { kind := .atomic, x := s.sel } =
    s.serve (s.serveOf (.atomic s.sel.msg.addr s.sel.msg.aop (2 ^ s.sel.msg.w) s.sel.msg.data)) := by rfl

theorem receive_mcast : s.receive { kind := .mcast, x := s.sel } =
    s.serve (s.serveOf (.mcast (s.sel.msg.addr / 256 * 256) s.sel.msg.mask s.sel.msg.data)) := by rfl

theorem receive_wdata : s.receive { kind := .wdata, x := s.sel } = s.sectorIn := by rfl

theorem receive_spawn : s.receive { kind := .spawn, x := s.sel } = s.spawnIn := by rfl

/-- Whether the flit that has come is the last of its message. -/
def State.lastFlit (s : State) : Bool := s.sel.hdr.any fun h => h.getLsbD 12

theorem receive_write : s.receive { kind := .write, x := s.sel } =
    s.serve (s.serveOf (.write s.sel.msg.addr (if s.lastFlit then 0 else 1) none [])) := rfl

end

section

variable {s : State}

theorem lastFlit_eq_false (h : ∀ h, s.sel.hdr = some h → h.getLsbD 12 = false) : s.lastFlit = false := by
  cases hh : s.sel.hdr with
  | none => simp [State.lastFlit, hh]
  | some w => rw [State.lastFlit, hh, Option.any_some, h w hh]

theorem lastFlit_eq_true {h : BitVec 128} (hh : s.sel.hdr = some h) (hl : h.getLsbD 12 = true) : s.lastFlit = true := by
  simp [State.lastFlit, hh, hl]

/-- A WRITE whose data are still to come is kept. -/
theorem receive_write_of_more (h : ∀ h, s.sel.hdr = some h → h.getLsbD 12 = false) : s.receive { kind := .write, x := s.sel } =
    { s with serving := s.serving ++ [s.serveOf (.write s.sel.msg.addr 1 none [])] } := by
  rw [receive_write, lastFlit_eq_false h, if_neg Bool.false_ne_true]
  exact serve_of_kept ((serveTry_of_no_access rfl).trans (serveNow_write_of_more rfl Nat.one_ne_zero))

/-- The sector that a WDATA brings. -/
def State.broughtSector (s : State) : Nat × DWord × List Byte := (s.sel.msg.addr / 64 * 64, s.sel.msg.mask, s.sel.msg.data)

/-- A WDATA joins the first write that is being served, where that has its sender and tag. -/
theorem receive_wdata_of_head {x : Serve} {rest : List Serve} {va left : Nat} {f : Option Cause}
    {todo : List (Nat × DWord × List Byte)} (hq : s.serving = x :: rest) (hs : x.src = s.sel.a) (ht : x.tag = s.sel.msg.tag)
    (hx : x.kind = .write va left f todo) (hl : left ≠ 0) : s.receive { kind := .wdata, x := s.sel } =
      State.serve { s with serving := rest }
        { x with kind := .write va (if s.lastFlit then 0 else left) f (todo ++ [s.broughtSector]) } := by
  rw [receive_wdata, State.sectorIn]
  dsimp only
  rw [hq, List.find?_cons_of_pos (by simp [hs, ht, hx, hl])]
  simp only [hx, List.erase_cons_head]
  rfl

/-- A record for a core of its context, and for a node of its size, is served. -/
theorem receive_spawn_of_ok {c : Ctx} (hc : s.ctx? s.sel.msg.ctx = some c) (hk : s.sel.msg.addr % 256 ∈ c.cfg.cores)
    (hn : s.nodeBad s.sel.msg.ctx (s.sel.msg.addr / 256 % 1024) (wordsOf (s.sel.msg.data.length / 4) (ofBytes s.sel.msg.data)).length
      = false) : s.receive { kind := .spawn, x := s.sel } = s.serve (s.serveOf (.spawn (s.sel.msg.addr % 256)
        (s.sel.msg.addr / 256 % 1024) (wordsOf (s.sel.msg.data.length / 4) (ofBytes s.sel.msg.data)))) := by
  rw [receive_spawn, State.spawnIn, hn, hc, Option.any_some, List.contains_iff_mem.mpr hk]
  rfl

end

/-! ### Remote memory accesses by Ultra Ethernet (R103, R359) -/

/-- A packet of an open window writes its bytes, or reads them, and the completion or the data go out. -/
theorem uetRmaWrite_of_open {s : State} {c : Ctx} {n : Nat} (hc : s.ctx? s.sel.a = some c) (hp : s.sel.c < 8)
    (hd : s.dieServes (8 + s.sel.c / 4) = true) (hr : s.sel.msg.sys = false)
    (hn : n = if s.sel.flag then s.sel.d else s.sel.msg.data.length) (he : physExists s.sel.b n = true)
    (hw : ∃ w ∈ c.cfg.rma, w.base ≤ s.sel.b ∧ s.sel.b + n ≤ w.base + w.len) :
    let t := (s.touch s.sel.a (8 + s.sel.c / 4)).touch s.sel.a (dieOfPhys s.sel.b)
    let u := if s.sel.flag then t else (t.writePhys s.sel.b s.sel.msg.data).clearPoison s.sel.b n
    exec .uetRmaWrite s = .next { u with outbox := u.outbox ++ [
      { dest := 512, kind := if s.sel.flag then .rma else .uetDone, ctx := s.sel.a, addr := s.sel.b, arg := n
        data := if s.sel.flag then s.readPhys s.sel.b n else [] }] } := by
  intro t u
  have isOpen : ((s.ctx? s.sel.a).any fun c => c.cfg.rma.any fun w => w.base ≤ s.sel.b && s.sel.b + n ≤ w.base + w.len) = true := by
    obtain ⟨w, hm, hlo, hhi⟩ := hw
    rw [hc, Option.any_some, List.any_eq_true]
    exact ⟨w, hm, by simp [hlo, hhi]⟩
  change execUetRmaWrite s = _
  unfold execUetRmaWrite
  dsimp only
  rw [← hn, isOpen, State.uetDie, if_pos (by simp [hp, hd])]
  dsimp only
  rw [hr, he]
  rfl

/-- Settles O36: each message by what serving it comes to, at the state at which its access may be made. How a WDATA names its sector,
the ARG of a SPAWN, and that a write by RMA and its completion are one step is the model's choice (log entries 27, 39 and 48). -/
theorem peerRequestsAreServed : Obligations.PeerRequestsAreServed := by
  unfold Obligations.PeerRequestsAreServed
  refine ⟨?flits, ?read, fun s => receive_write_of_more, ?sector, ?last, ?atomic, ?mcast, ?spawn, ?uet⟩
  case flits =>
    simp only [List.forall_mem_cons, List.not_mem_nil, false_imp_iff, implies_true, and_true]
    exact ⟨fun s h hs => congrArg Host.Outcome.next (flitIn_of_header hs .read 0),
      fun s h hs => congrArg Host.Outcome.next (flitIn_of_header hs .write 0),
      fun s h hs => congrArg Host.Outcome.next (flitIn_of_header hs .wdata 0),
      fun s h hs => congrArg Host.Outcome.next (flitIn_of_header hs .atomic 0),
      fun s h hs => congrArg Host.Outcome.next (flitIn_of_header hs .mcast 0),
      fun s h hs => congrArg Host.Outcome.next (flitIn_of_header hs .spawn 0)⟩
  case read =>
    intro s g m x hg u
    have served := serveTry_of_gate rfl hg
    exact ⟨fun t bs hr => serve_of_done (served.trans (serveNow_read_of_ok rfl hr)),
      fun c hr => serve_of_done (served.trans (serveNow_read_of_cause rfl hr)),
      fun hr => serve_of_kept (served.trans (serveNow_read_of_absent rfl hr))⟩
  case sector =>
    intro s x rest va left f todo hq hs ht hx hl hh more
    rw [receive_wdata_of_head hq hs ht hx hl, lastFlit_eq_false hh, if_neg Bool.false_ne_true]
    exact serve_of_kept ((serveTry_of_no_access (at?_write_of_more hl)).trans (serveNow_write_of_more rfl hl))
  case last =>
    intro s h x rest va left g t u hq hs ht hx hl hh hb a line y hg hr hw
    rw [receive_wdata_of_head hq hs ht hx hl, lastFlit_eq_true hh hb, if_pos rfl, List.nil_append]
    exact serve_of_done ((serveTry_of_gate rfl hg).trans (serveNow_write_of_sector rfl hr hw))
  case atomic =>
    intro s g t t0 u old m n x hg v hr hp hw
    exact serve_of_done ((serveTry_of_gate rfl hg).trans (serveNow_atomic_of_ok rfl hr hp hw))
  case mcast =>
    intro s g t u m va x hg hp hw
    exact serve_of_done ((serveTry_of_gate rfl hg).trans (serveNow_mcast_of_ok rfl hp hw))
  case spawn =>
    intro s c m words x hc hk hn
    rw [receive_spawn_of_ok hc hk hn]
    have served := serveTry_of_no_access (s := s) (x := x) rfl
    exact ⟨fun t ha => serve_of_done (served.trans (serveNow_spawn_of_room rfl ha)),
      fun ha => serve_of_kept (served.trans (serveNow_spawn_of_full rfl ha))⟩
  case uet =>
    intro s c n hc hp hd hr hn he hw
    refine ⟨_, uetRmaWrite_of_open hc hp hd hr hn he hw, ?_, ?_, ?_⟩
    · cases s.sel.flag <;> rfl
    · cases s.sel.flag <;> rfl
    · cases s.sel.flag <;> rfl

end Sys2Proof.Machine

end

section

/-! Proofs. The matrix engine: the start, the operand release and the retirement of its operations (R218 to R220, R247). -/

namespace Sys2Proof.Machine

/-! ### Tiles after an update (R222) -/

section

variable {s : State} {tid : Nat} {tm : Team}

/-- The tiles that a team sees depend on the teams alone. -/
theorem tile_congr {t : State} (h : t.teams = s.teams) (tid k : Nat) : t.tile tid k = s.tile tid k := by
  simp only [State.tile, State.team?, h]

theorem tile_of_team (ht : s.team? tid = some tm) (k : Nat) : s.tile tid k = Map.get tm.tiles k {} := by
  simp only [State.tile, ht]

theorem team?_setTile (ht : s.team? tid = some tm) (k : Nat) (x : Tile) :
    (s.setTile tid k x).team? tid = some { tm with tiles := Map.put k x tm.tiles } := by
  rw [State.setTile, team?_modTeam, ht, Option.map_some]

theorem tile_setTile (ht : s.team? tid = some tm) (k : Nat) (x : Tile) : (s.setTile tid k x).tile tid k = x := by
  rw [tile_of_team (team?_setTile ht k x), Map.get_put]

theorem tile_setTile_ne (ht : s.team? tid = some tm) {j k : Nat} (hj : j ≠ k) (x : Tile) :
    (s.setTile tid k x).tile tid j = s.tile tid j := by
  rw [tile_of_team (team?_setTile ht k x), Map.get_put_ne hj, tile_of_team ht]

end

/-! ### Operands released by several signatures (R226) -/

section

variable (s : State) (ids : List Nat)

theorem foldl_doneB_teams : (ids.foldl (fun s i => s.doneB i) s).teams = s.teams := foldl_keeps State.teams doneB_teams ids s

theorem foldl_doneB_mem : (ids.foldl (fun s i => s.doneB i) s).mem = s.mem := foldl_keeps State.mem doneB_mem ids s

end

/-! ### The events of an operation (R219, R247) -/

/-- An operation's start reads the time and fixes its release and its retirement. -/
def EngOp.begun (now : Nat) (times : Nat × Nat) (e : EngOp) : EngOp :=
  { e with started := true, at_ := now, rel := times.1, ret := times.2 }

theorem matrixOpStart_of_ready {s : State} {e : EngOp} (he : s.eng? s.sel.a s.sel.b = some e) (hs : e.started = false)
    (hr : e.ready (s.engOlder s.sel.a s.sel.b) = true) (ho : s.engineOn s.sel.a = true) :
    exec .matrixOpStart s = .next (s.modEng s.sel.a s.sel.b (EngOp.begun (s.cyc (pairOf s.sel.a)) (s.engTimes e))) := by
  change Host.Outcome.next (s.engStart s.sel.a s.sel.b) = _
  unfold State.engStart
  rw [he]
  dsimp only
  rw [if_pos (by simp [hs, hr, ho])]
  rfl

/-- The operand release of an `MZERO`: its tile is cleared, it forms no bytes, and the flags of its `SETB` fall. -/
def State.zeroed (s : State) (core k : Nat) (e : EngOp) (tile : Nat) : State :=
  e.sigs.foldl (fun s i => s.doneB i)
    ((s.setTile e.team tile {}).modEng core k fun e => { e with released := true, out := [] })

theorem matrixOperandRelease_of_mzero {s : State} {e : EngOp} {p : Pre} {d a : BitVec 7} (he : s.eng? s.sel.a s.sel.b = some e)
    (hs : e.started = true) (hr : e.released = false) (hd : (s.engDue s.sel.a e).1 ≤ s.cyc (pairOf s.sel.a))
    (hi : e.sig.ins = .mzero p d a) :
    exec .matrixOperandRelease s = .next (s.zeroed s.sel.a s.sel.b e a.toNat) := by
  change Host.Outcome.next (s.engRelease s.sel.a s.sel.b) = _
  unfold State.engRelease
  rw [he]
  dsimp only
  rw [if_neg (by simp [hs, hr, hd]), hi]
  rfl

theorem zeroed_mem (s : State) (core k : Nat) (e : EngOp) (tile : Nat) : (s.zeroed core k e tile).mem = s.mem :=
  foldl_doneB_mem _ _

/-- What the team's tiles are after the release is what they are once the tile is set. -/
theorem tile_zeroed (s : State) (core k : Nat) (e : EngOp) (tile j : Nat) :
    (s.zeroed core k e tile).tile e.team j = (s.setTile e.team tile {}).tile e.team j :=
  tile_congr (foldl_doneB_teams _ _) e.team j

/-- What the retirement of `e` leaves of another operation: a load that shared the data lane with it keeps what it lost. -/
def EngOp.past (e o : EngOp) : EngOp :=
  if e.sig.isMma = true ∧ o.sig.isMldw = true ∧ o.started = true then
    { o with shared := o.shared + e.overlap o.at_ (e.at_ + e.rel) } else o

/-- Bytes that an operation has formed stand in its team's scratchpad. -/
def State.putOut (tid : Nat) (s : State) (w : Nat × List Byte) : State :=
  match s.ownScratch? tid w.1 w.2.length with
  | some ph => (s.writePhys ph w.2).clearPoison ph w.2.length
  | none => s

/-- A team's planes are exchanged. -/
def State.exchanged (s : State) (tid : Nat) : State := s.modTeam tid fun x => { x with active := x.shadowPl, shadowPl := x.active }

/-- An operation that has left the engine: its bytes are written, the planes are exchanged where it asks for that, and the flags of its
`SETA` fall. -/
def State.retired (s : State) (core k : Nat) (e : EngOp) : State :=
  let t := e.out.foldl (State.putOut e.team) s
  let u := if e.sig.swaps then t.exchanged e.team else t
  (e.sigs.foldl (fun v i => v.doneA i) (u.modCore core fun c =>
    { c with eng := Map.modAll (fun _ o => e.past o) (Map.del k c.eng) })).sweepOps

theorem matrixOpRetire_of_due {s : State} {e : EngOp} (he : s.eng? s.sel.a s.sel.b = some e) (hr : e.released = true)
    (hw : e.sig.swaps = true → ∀ o ∈ s.engOlder s.sel.a s.sel.b, o.sig.isMma = true → o.released = true)
    (hd : (s.engDue s.sel.a e).2 ≤ s.cyc (pairOf s.sel.a)) :
    exec .matrixOpRetire s = .next (s.retired s.sel.a s.sel.b e) := by
  have noStream : (e.sig.swaps && (s.engOlder s.sel.a s.sel.b).any fun o => o.sig.isMma && !o.released) = false := by
    cases hx : e.sig.swaps with
    | false => rfl
    | true => simpa using hw hx
  have past (o : EngOp) : (if e.sig.isMma && o.sig.isMldw && o.started then
      { o with shared := o.shared + e.overlap o.at_ (e.at_ + e.rel) } else o) = e.past o := by
    simp only [EngOp.past, Bool.and_eq_true, and_assoc]
  change Host.Outcome.next (s.engRetire s.sel.a s.sel.b) = _
  unfold State.engRetire
  rw [he]
  dsimp only
  rw [if_neg (by simp [hr, hd, noStream])]
  simp only [past]
  rfl

/-- Settles O45: each event by what it makes of the engine and of the team. That tiles change at operand release and that a load loses
the cycles of a shared lane is the model's reading (log entries 59 and 60). -/
theorem matrixEvents : Obligations.MatrixEvents := by
  unfold Obligations.MatrixEvents
  refine ⟨fun s e he hs hr ho => matrixOpStart_of_ready he hs hr ho, ?release,
    fun s e he hr hw hd => matrixOpRetire_of_due he hr hw hd⟩
  case release =>
    intro s e p d a tm he hs hr hd ht hi
    exact ⟨_, matrixOperandRelease_of_mzero he hs hr hd hi, (tile_zeroed ..).trans (tile_setTile ht ..), zeroed_mem ..,
      fun k hk => (tile_zeroed ..).trans (tile_setTile_ne ht hk _)⟩

end Sys2Proof.Machine

end

section

/-! Proofs. The word instructions of page 0: the value functions of the model against the formulas of the tables (R115 to R128). -/

namespace Sys2Proof.Machine

/-! ### Instructions of the frame `alu` -/

section

variable {i : Instr} {p : Pre} {d a b c : Opnd} {n : Nat} {f : State → Nat → Nat → List Word × Flags}

/-- An instruction that executes in the frame `alu` and writes `n` registers from `d` computes what the frame's function gives. -/
theorem computes_of_alu (hf : OwnLane f)
    (hm : ∀ w, (i.need w).mode = .byDst := by intros; rfl) (hd : ∀ w, (i.need w).dst = some (d, n) := by intros; rfl)
    (he : ∀ s, exec i s = alu i p d f s := by intros; rfl) : Computes i p d f :=
  fun s _ _ _ _ _ h ht => (he s).trans (alu_executes hf hm (fun w => ⟨n, hd w⟩) h ht)

theorem Computes.of_eq {f' : State → Nat → Nat → List Word × Flags} (h : Computes i p d f) (e : ∀ s g l, f s g l = f' s g l) :
    Computes i p d f' := by
  obtain rfl : f = f' := funext fun s => funext fun g => funext (e s g)
  exact h

theorem computes_of_alu1 (v : Word → Word)
    (hm : ∀ w, (i.need w).mode = .byDst := by intros; rfl) (hd : ∀ w, (i.need w).dst = some (d, 1) := by intros; rfl)
    (he : ∀ s, exec i s = alu1 i p d a v s := by intros; rfl) : Computes i p d fun s g l => ([v (s.src32 g l a)], 0) :=
  computes_of_alu (fun _ _ _ _ h => by simp only [h.src32]) hm hd he

theorem computes_of_alu2 (v : Word → Word → Word)
    (hm : ∀ w, (i.need w).mode = .byDst := by intros; rfl) (hd : ∀ w, (i.need w).dst = some (d, 1) := by intros; rfl)
    (he : ∀ s, exec i s = alu2 i p d a b v s := by intros; rfl) :
    Computes i p d fun s g l => ([v (s.src32 g l a) (s.src32 g l b)], 0) :=
  computes_of_alu (fun _ _ _ _ h => by simp only [h.src32]) hm hd he

theorem computes_of_alu3 (v : Word → Word → Word → Word)
    (hm : ∀ w, (i.need w).mode = .byDst := by intros; rfl) (hd : ∀ w, (i.need w).dst = some (d, 1) := by intros; rfl)
    (he : ∀ s, exec i s = alu3 i p d a b c v s := by intros; rfl) :
    Computes i p d fun s g l => ([v (s.src32 g l a) (s.src32 g l b) (s.src32 g l c)], 0) :=
  computes_of_alu (fun _ _ _ _ h => by simp only [h.src32]) hm hd he

end

/-! ### Two sources (R115, R116) -/

theorem mulhU_eq (a b : Word) : mulhU a b = (a.zeroExtend 64 * b.zeroExtend 64).extractLsb' 32 32 := by
  have hlt : a.toNat * b.toNat < 2 ^ 32 * 2 ^ 32 := Nat.mul_lt_mul'' a.isLt b.isLt
  apply BitVec.eq_of_toNat_eq
  simp only [mulhU, BitVec.toNat_ofNat, BitVec.extractLsb'_toNat, BitVec.toNat_mul, BitVec.zeroExtend, BitVec.toNat_setWidth,
    Nat.mod_mul_mod, Nat.mul_mod_mod, Nat.shiftRight_eq_div_pow]
  omega

theorem mulhI_eq (a b : Word) : mulhI a b = (a.signExtend 64 * b.signExtend 64).extractLsb' 32 32 := by
  have hx : a.signExtend 64 * b.signExtend 64 = BitVec.ofInt 64 (a.toInt * b.toInt) := (BitVec.ofInt_mul ..).symm
  rw [hx]
  apply BitVec.eq_of_toNat_eq
  simp only [mulhI, BitVec.toNat_ofInt, BitVec.extractLsb'_toNat, Nat.shiftRight_eq_div_pow]
  omega

theorem minI_eq (a b : Word) : minI a b = if a.sle b then a else b := by
  simp only [minI, BitVec.sle_iff_toInt_le]

theorem maxI_eq (a b : Word) : maxI a b = if a.sle b then b else a := by
  simp only [maxI, BitVec.sle_iff_toInt_le]

theorem minU_eq (a b : Word) : minU a b = if a.ule b then a else b := by
  simp only [minU, BitVec.ule_iff_toNat_le]

theorem maxU_eq (a b : Word) : maxU a b = if a.ule b then b else a := by
  simp only [maxU, BitVec.ule_iff_toNat_le]

theorem shl32_eq (a n : Word) : shl32 a n = a <<< n.toNat := by
  unfold shl32
  split
  next h => exact (BitVec.shiftLeft_eq_zero h).symm
  next => rfl

theorem shr32_eq (a n : Word) : shr32 a n = a >>> n.toNat := by
  unfold shr32
  split
  next h => exact (BitVec.ushiftRight_eq_zero h).symm
  next => rfl

theorem sar32_eq (a n : Word) : sar32 a n = a.sshiftRight n.toNat := by
  unfold sar32
  rcases Nat.lt_or_ge n.toNat 32 with h | h
  · rw [Nat.min_eq_left (by omega)]
  · rw [Nat.min_eq_right (by omega)]
    ext j hj
    simp only [BitVec.getElem_sshiftRight, show ¬n.toNat + j < 32 by omega, dite_false]
    split
    next h0 =>
      obtain rfl : j = 0 := by omega
      exact (BitVec.msb_eq_getLsbD_last a).symm
    next => rfl

theorem rol32_eq (a n : Word) : rol32 a n = a.rotateLeft n.toNat := by
  rw [rol32, BitVec.rotateLeft_mod_eq_rotateLeft]

/-- `e` pairs two-source instructions with the value that they compute. -/
def TwoSource (e : (Pre → Opnd → Opnd → Opnd → Instr) × (Word → Word → Word)) : Prop :=
  ∀ p d a b, Computes (e.1 p d a b) p d fun s g l => ([e.2 (s.src32 g l a) (s.src32 g l b)], 0)

theorem twoSource_of_value {mk : Pre → Opnd → Opnd → Opnd → Instr} (v : Word → Word → Word) {f : Word → Word → Word}
    (hv : ∀ x y, v x y = f x y := by intros; rfl)
    (hm : ∀ p d a b w, ((mk p d a b).need w).mode = .byDst := by intros; rfl)
    (hd : ∀ p d a b w, ((mk p d a b).need w).dst = some (d, 1) := by intros; rfl)
    (he : ∀ p d a b s, exec (mk p d a b) s = alu2 (mk p d a b) p d a b v s := by intros; rfl) : TwoSource (mk, f) :=
  fun p d a b => (computes_of_alu2 v (hm p d a b) (hd p d a b) (he p d a b)).of_eq fun _ _ _ => by rw [hv]

/-- Settles O1: each instruction by its value function in the frame of the two-source word instructions. -/
theorem twoSourceWordsComplete : Obligations.TwoSourceWordsComplete := by
  unfold Obligations.TwoSourceWordsComplete
  change ∀ e ∈ _, TwoSource e
  simp only [List.forall_mem_cons]
  exact ⟨twoSource_of_value _, twoSource_of_value _, twoSource_of_value _, twoSource_of_value mulhI mulhI_eq,
    twoSource_of_value mulhU mulhU_eq, twoSource_of_value minI minI_eq, twoSource_of_value minU minU_eq,
    twoSource_of_value maxI maxI_eq, twoSource_of_value maxU maxU_eq, twoSource_of_value _, twoSource_of_value _,
    twoSource_of_value _, twoSource_of_value _, twoSource_of_value shl32 shl32_eq, twoSource_of_value shr32 shr32_eq,
    twoSource_of_value sar32 sar32_eq, twoSource_of_value rol32 rol32_eq, twoSource_of_value _, twoSource_of_value _,
    List.forall_mem_nil _⟩

/-! ### A word from its bits -/

/-- The sum of the powers of two at the bits below `n` that `f` sets. -/
def bitSum (f : Nat → Bool) (n : Nat) : Nat := (List.range n).foldl (fun a i => if f i then a + 2 ^ i else a) 0

theorem bitSum_succ (f : Nat → Bool) (n : Nat) : bitSum f (n + 1) = if f n then bitSum f n + 2 ^ n else bitSum f n := by
  rw [bitSum, List.range_succ, List.foldl_append]
  rfl

theorem bitSum_lt (f : Nat → Bool) (n : Nat) : bitSum f n < 2 ^ n := by
  induction n with
  | zero => exact Nat.one_pos
  | succ n ih => rw [bitSum_succ]; split <;> omega

theorem testBit_bitSum (f : Nat → Bool) (n j : Nat) : (bitSum f n).testBit j = (decide (j < n) && f j) := by
  induction n with
  | zero => simp [bitSum]
  | succ n ih =>
    have hadd : bitSum f n + 2 ^ n = 2 ^ n ||| bitSum f n := by
      simpa [Nat.add_comm] using Nat.two_pow_add_eq_or_of_lt (bitSum_lt f n) 1
    rw [bitSum_succ, hadd]
    by_cases hj : n = j
    · subst hj
      split <;> simp_all
    · have hlt : decide (j < n + 1) = decide (j < n) := decide_eq_decide.mpr (by omega)
      rw [hlt]
      split <;> simp [ih, hj]

theorem getLsbD_ofBits (f : Nat → Bool) (j : Nat) : (ofBits f).getLsbD j = (decide (j < 32) && f j) := by
  change (BitVec.ofNat 32 (bitSum f 32)).getLsbD j = _
  rw [BitVec.getLsbD_ofNat, testBit_bitSum, ← Bool.and_assoc, Bool.and_self]

theorem eq_ofBits {w : Word} {f : Nat → Bool} (h : ∀ j, j < 32 → w.getLsbD j = f j) : w = ofBits f := by
  apply BitVec.eq_of_getLsbD_eq
  intro j hj
  rw [getLsbD_ofBits, h j hj, decide_eq_true hj, Bool.true_and]

/-! ### Bit fields and counts (R120 to R122) -/

theorem fieldPos_eq (b : Word) : fieldPos b = min (b.toNat % 256) 32 := by simp [fieldPos]

theorem fieldLen_eq (b : Word) : fieldLen b = min (b.toNat / 256 % 256) 32 := by
  simp [fieldLen, Nat.shiftRight_eq_div_pow]

theorem bfeU_eq (a b : Word) : bfe false a b = BitVec.ofNat 32 (a.toNat / 2 ^ fieldPos b % 2 ^ fieldLen b) := by
  have hx : (a.zeroExtend 64 >>> fieldPos b).toNat = a.toNat / 2 ^ fieldPos b := by
    have ha : a.toNat < 2 ^ 64 := by omega
    rw [BitVec.toNat_ushiftRight, BitVec.zeroExtend, BitVec.toNat_setWidth, Nat.mod_eq_of_lt ha, Nat.shiftRight_eq_div_pow]
  simp only [bfe, Bool.false_eq_true, if_false, hx]
  split
  next h => simp [h, Nat.mod_one]
  next => rfl

theorem getLsbD_fieldMask (pos len : Nat) {j : Nat} (hj : j < 32) :
    (BitVec.ofNat 32 ((2 ^ len - 1) * 2 ^ pos)).getLsbD j = (decide (pos ≤ j) && decide (j < pos + len)) := by
  rw [BitVec.getLsbD_ofNat, Nat.testBit_mul_two_pow, Nat.testBit_two_pow_sub_one, decide_eq_true hj, Bool.true_and]
  by_cases h : pos ≤ j
  · simp only [h, decide_true, Bool.true_and, decide_eq_decide]; omega
  · simp only [h, decide_false, Bool.false_and]

theorem bfi_eq (a b c : Word) : bfi a b c = ofBits fun j =>
    if decide (fieldPos b ≤ j) && decide (j < fieldPos b + fieldLen b) then a.getLsbD (j - fieldPos b) else c.getLsbD j := by
  refine eq_ofBits fun j hj => ?_
  have hshift : (BitVec.ofNat 32 (a.toNat * 2 ^ fieldPos b)).getLsbD j = (decide (fieldPos b ≤ j) && a.getLsbD (j - fieldPos b)) := by
    rw [BitVec.getLsbD_ofNat, Nat.testBit_mul_two_pow, decide_eq_true hj, Bool.true_and]
    rfl
  simp only [bfi, BitVec.getLsbD_or, BitVec.getLsbD_and, BitVec.getLsbD_not, getLsbD_fieldMask _ _ hj, hshift, decide_eq_true hj,
    Bool.true_and]
  cases decide (fieldPos b ≤ j) <;> cases decide (j < fieldPos b + fieldLen b) <;> simp

theorem popc32_eq (a : Word) : popc32 a = BitVec.ofNat 32 ((List.range 32).countP fun j => a.getLsbD j) := by
  rw [popc32, List.countP_eq_length_filter]

theorem brev32_eq (a : Word) : brev32 a = a.reverse := by
  refine (eq_ofBits fun j hj => ?_).symm
  rw [BitVec.getLsbD_reverse, BitVec.getMsbD_eq_getLsbD, decide_eq_true hj, Bool.true_and]

theorem iabs32_eq (a : Word) : iabs32 a = a.abs := by
  rw [iabs32, BitVec.abs_eq, BitVec.msb_eq_getLsbD_last]

/-! ### Selection by a predicate (R127) -/

/-- A predicate as lane `l` of a group reads it. -/
def State.predOf (s : State) (gid k l : Nat) : Bool :=
  match s.group? gid with
  | some g => g.pred k l
  | none => false

theorem Same.predOf {gid l : Nat} {s t : State} (h : Same gid l s t) (k : Nat) : t.predOf gid k l = s.predOf gid k l := h.pred k

/-- What `SEL` reads: its first operand where the predicate holds, and its second where it does not. -/
def selected (x : SelX) (a b : Opnd) (s : State) (gid l : Nat) : List Word × Flags :=
  let o := if s.predOf gid x.ps.val l then a else b
  (if x.ty.is64 then wordsOf 2 (s.src64 gid l o true).toNat else [s.src32 gid l o], 0)

theorem selected_ownLane (x : SelX) (a b : Opnd) : OwnLane (selected x a b) := fun _ _ _ _ h => by
  simp only [selected, h.predOf, h.src64, h.src32]

/-- Settles O2: each instruction by its value function. -/
theorem bitFieldsAndMovesComplete : Obligations.BitFieldsAndMovesComplete := by
  unfold Obligations.BitFieldsAndMovesComplete
  refine ⟨?bfeU, fun _ _ _ _ => computes_of_alu2 (bfe true), ?bfi,
    fun _ _ _ => (computes_of_alu1 popc32).of_eq fun _ _ _ => by rw [popc32_eq], fun _ _ _ => computes_of_alu1 clz32,
    fun _ _ _ => (computes_of_alu1 brev32).of_eq fun _ _ _ => by rw [brev32_eq],
    fun _ _ _ => (computes_of_alu1 iabs32).of_eq fun _ _ _ => by rw [iabs32_eq], fun _ _ _ => computes_of_alu1 id,
    fun _ _ _ => computes_of_alu (n := 1) fun _ _ _ _ _ => rfl,
    fun _ _ _ imm => computes_of_alu1 (· + imm.signExtend 32), fun _ _ _ _ _ => computes_of_alu3 prmt32,
    fun _ x _ _ _ => computes_of_alu3 (lop3 x.tt), fun _ x _ a b => computes_of_alu (n := x.ty.regs) (selected_ownLane x a b)⟩
  case bfeU =>
    exact fun _ _ _ _ => (computes_of_alu2 (bfe false)).of_eq fun _ _ _ => by rw [bfeU_eq, fieldPos_eq, fieldLen_eq]
  case bfi =>
    exact fun _ _ _ _ _ => (computes_of_alu3 bfi).of_eq fun _ _ _ => by rw [bfi_eq, fieldPos_eq, fieldLen_eq]

/-! ### Wide and multiply-add forms (R117 to R119) -/

/-- The signed reading of a word's number is the word's signed value. -/
theorem sext_toNat (a : Word) : sext 32 a.toNat = a.toInt := by
  rw [sext, BitVec.toInt_eq_toNat_cond, Nat.mod_eq_of_lt a.isLt]
  split <;> split <;> omega

theorem toInt_word {ty : Ty} (h : ty = .i32 ∨ ty = .u32) (a : Word) : ty.toInt a.toNat = if ty = .i32 then a.toInt else a.toNat := by
  rcases h with rfl | rfl
  · exact sext_toNat a
  · rfl

/-- What `IMAD` computes in a lane: its operands as its type reads them, then `mad` in 32 bits (R118). -/
def imadValue (x : Alu3) (a b : Opnd) (s : State) (gid l : Nat) : List Word × Flags :=
  let v (o : Opnd) : Int := x.ty.toInt (s.src32 gid l o).toNat
  ([BitVec.ofNat 32 (mad (x.ty = .i32) 32 x (v a) (v b) (v x.c))], 0)

theorem imadValue_ownLane (x : Alu3) (a b : Opnd) : OwnLane (imadValue x a b) := fun _ _ _ _ h => by
  simp only [imadValue, h.src32]

/-- What `IMADW` computes in a lane: the third operand is a pair, and `mad` in 64 bits (R119). -/
def imadwValue (x : Alu3) (a b : Opnd) (s : State) (gid l : Nat) : List Word × Flags :=
  let sgn : Bool := x.ty = .i32
  let v (o : Opnd) : Int := x.ty.toInt (s.src32 gid l o).toNat
  let c := s.src64 gid l x.c sgn
  (wordsOf 2 (mad sgn 64 x (v a) (v b) (if sgn then c.toInt else c.toNat)), 0)

theorem imadwValue_ownLane (x : Alu3) (a b : Opnd) : OwnLane (imadwValue x a b) := fun _ _ _ _ h => by
  simp only [imadwValue, h.src32, h.src64]

/-- Settles O3: the sums of pairs as the frame's function gives them, the multiply-add forms with their operands read as their type
says. -/
theorem wideAndMultiplyAddComplete : Obligations.WideAndMultiplyAddComplete := by
  unfold Obligations.WideAndMultiplyAddComplete
  refine ⟨fun _ _ _ _ => computes_of_alu (n := 2) fun _ _ _ _ h => by simp only [h.src64],
    fun _ _ _ _ => computes_of_alu (n := 2) fun _ _ _ _ h => by simp only [h.src64], fun p x d a b hx => ?imad,
    fun p x d a b hx => ?imadw⟩
  case imad =>
    refine (computes_of_alu (n := 1) (imadValue_ownLane x a b)).of_eq fun s g l => ?_
    simp only [imadValue, toInt_word hx]
  case imadw =>
    refine (computes_of_alu (n := 2) (imadwValue_ownLane x a b)).of_eq fun s g l => ?_
    rcases hx with h | h <;> simp [imadwValue, toInt_word, h]

end Sys2Proof.Machine

end

section

/-! Proofs. Writes of predicates. A state may list a group twice, though the keys of a map are to rise strictly: there `PLOP` looks its
table up in each of the two by itself. Where every group is listed once, the four instructions do what is said of them. -/

namespace Sys2Proof.Machine

/-! ### A state that lists a group twice -/

/-- Group 5 is listed twice: first with no predicate set, then with predicate 1 set in lane 0. -/
def twiceListed : State :=
  { State.reset with
    groups := [(5, queryGroup), (5, { queryGroup with p := [(1, 1)] })]
    teams := [(1, { ctx := 0, core := 0, nthr := 1, w := 16 })], cur := some querySlot }

/-- `PLOP p0, p1, p1` with the table of AND: predicate 0 becomes predicate 1. -/
def copyPred : Instr := .plop {} ⟨8⟩ 0 1 1

theorem copyPred_executes : Executes copyPred {} twiceListed querySlot queryGroup [0] [] twiceListed :=
  ⟨rfl, rfl, by decide, by decide, by decide, by decide, by decide, by decide, rfl⟩

/-- Predicate 0 of lane 0 in the second group that the state lists, after a step that goes on. -/
def secondPred : Out → Option Bool
  | .next t => t.groups[1]?.map fun e => e.2.pred 0 0
  | _ => none

theorem secondPred_copyPred : secondPred (exec copyPred twiceListed) = some true := by decide

/-- Refutes O8: of a group that is listed twice, `PLOP` writes each by that one's own predicates, and the statement has both written by
those of the first. -/
theorem not_predicateWritesComplete : ¬ Obligations.PredicateWritesComplete := by
  unfold Obligations.PredicateWritesComplete
  intro h
  obtain ⟨plop, -⟩ := h
  have hsecond := congrArg secondPred (plop {} ⟨8⟩ 0 1 1 _ _ _ _ _ _ copyPred_executes)
  exact absurd (hsecond.symm.trans secondPred_copyPred) (by decide)

/-! ### What holds of the four instructions

`PLOP` does what the statement says of it where every group is listed once; `VOTE`, `PTEST` and `BTEST` do it in every state (R126,
R178, R183, R263). -/

/-- Of a map whose keys differ, each entry is what is read at its key. -/
theorem Map.get?_of_mem {β : Type} {m : Map β} (hn : (m.map Prod.fst).Nodup) {e : Nat × β} (he : e ∈ m) :
    Map.get? m e.1 = some e.2 := by
  induction m with
  | nil => cases he
  | cons x m ih =>
    obtain ⟨hx, hm⟩ := List.nodup_cons.mp hn
    rw [Map.get?_cons]
    rcases List.mem_cons.mp he with rfl | he
    · rw [if_pos rfl]
    · rw [if_neg fun hk : x.1 = e.1 => hx (hk ▸ List.mem_map_of_mem he), ih hm he]

/-- Of a map whose keys differ, an update sees only what is read at its key. -/
theorem Map.mod_eq_of_get? {β : Type} {m : Map β} (hn : (m.map Prod.fst).Nodup) {k : Nat} {v : β} (hv : Map.get? m k = some v)
    {f h : β → β} (e : f v = h v) : Map.mod k f m = Map.mod k h m := by
  refine List.map_congr_left fun x hx => ?_
  split
  next hk =>
    obtain rfl : x.2 = v := Option.some.inj ((Map.get?_of_mem hn hx).symm.trans (by rw [hk, hv]))
    rw [e]
  next => rfl

theorem pred_setPred_ne {l m : Nat} (h : m ≠ l) (g : Group) (j k : Nat) (b : Bool) : (g.setPred k l b).pred j m = g.pred j m := by
  by_cases hj : j = k
  · subst hj
    have hbit : (1 <<< l : BitVec 64).getLsbD m = false := by
      rw [BitVec.natCast_eq_ofNat, BitVec.getLsbD_ofNat, Nat.one_shiftLeft, Nat.testBit_two_pow_of_ne h.symm, Bool.and_false]
    have hpred (w : BitVec 64) : Group.pred { g with p := Map.put j w g.p } j m = w.getLsbD m := by rw [Group.pred, Map.get_put]
    cases b with
    | true => rw [Group.setPred, hpred, if_pos rfl, BitVec.getLsbD_or, hbit, Bool.or_false]; rfl
    | false =>
      rw [Group.setPred, hpred, if_neg Bool.false_ne_true, BitVec.getLsbD_and, BitVec.getLsbD_not, hbit, Bool.not_false, Bool.and_true]
      exact Bool.and_eq_left_iff_imp.mpr fun hm => decide_eq_true (BitVec.lt_of_getLsbD hm)
  · simp only [Group.pred, Group.setPred, Map.get_put_ne hj]

/-- The group when the lanes `ls` have written predicate `k`, one after the other. -/
def Group.setPreds (g : Group) (k : Nat) (v : Nat → Bool) (ls : List Nat) : Group := ls.foldl (fun h l => h.setPred k l (v l)) g

theorem foldl_setPred (s : State) (gid k : Nat) (v : Nat → Bool) (ls : List Nat) :
    ls.foldl (fun t l => t.modGroup gid fun h => h.setPred k l (v l)) s = s.modGroup gid fun g => g.setPreds k v ls := by
  induction ls generalizing s with
  | nil => exact (modGroup_self s gid).symm
  | cons l ls ih => rw [List.foldl_cons, ih, modGroup_modGroup]; rfl

theorem pred_setPreds (g : Group) (j k : Nat) (v : Nat → Bool) {ls : List Nat} {m : Nat} (h : m ∉ ls) :
    (g.setPreds k v ls).pred j m = g.pred j m := by
  induction ls generalizing g with
  | nil => rfl
  | cons l ls ih =>
    rw [List.mem_cons, not_or] at h
    exact (ih _ h.2).trans (pred_setPred_ne h.1 ..)

theorem setPreds_append (g : Group) (k : Nat) (v : Nat → Bool) (ls : List Nat) (l : Nat) :
    g.setPreds k v (ls ++ [l]) = (g.setPreds k v ls).setPred k l (v l) := by
  rw [Group.setPreds, List.foldl_append]
  rfl

/-- What `PLOP` looks up in its table for a lane of `g` (R126). -/
def plopValue (x : PlopX) (a b : BitVec 7) (g : Group) (l : Nat) : Bool :=
  x.tt.getLsbD ((g.pred a.toNat l).toNat + 2 * (g.pred b.toNat l).toNat)

/-- A lane reads what it read before the lanes before it wrote, for each writes its own bit. -/
theorem plop_of_listedOnce {p : Pre} {x : PlopX} {d a b : BitVec 7} {s : State} {c : Slot} {g : Group} {on off : List Nat}
    {s1 : State} (h : Executes (.plop p x d a b) p s c g on off s1) (hn : (s.groups.map Prod.fst).Nodup) :
    exec (.plop p x d a b) s =
      .next ((on.foldl (fun t l => t.modGroup c.gid fun h => h.setPred d.toNat l (plopValue x a b g l)) s1).goOn c.gid off on) := by
  obtain rfl : s = s1 := h.start rfl
  have hon : on.Nodup := h.on_eq ▸ h.nodup.filter _
  have hrun := perLane_thread_chain (i := .plop p x d a b) (c := c) (g := g) h.ran rfl
    (f := fun s gid l => (s.modGroup gid fun g => g.setPred d.toNat l (plopValue x a b g l), .next))
    (t := fun n => s.modGroup c.gid fun h => h.setPreds d.toNat (plopValue x a b g) (on.take n)) fun n hl => by
      have hnew : on[n] ∉ on.take n := fun hmem => by
        obtain ⟨j, hj, hjn⟩ := List.mem_take_iff_getElem.mp hmem
        exact absurd (hon.getElem_inj_iff.mp hjn) (by omega)
      rw [List.getD_eq_getElem _ _ hl, modGroup_modGroup]
      refine congrArg (fun gs => ({ s with groups := gs }, LaneRes.next)) (Map.mod_eq_of_get? hn h.grp ?_)
      rw [← List.take_concat_get' _ _ hl, setPreds_append]
      simp only [plopValue, pred_setPreds _ _ _ _ hnew]
  simp only [List.take_zero, List.take_length, ← foldl_setPred] at hrun
  exact inSlot_start_next h rfl hrun

theorem vote_of_executes {p : Pre} {x : VtX} {d : BitVec 7} {s : State} {c : Slot} {g : Group} {on off : List Nat} {s1 : State}
    (h : Executes (.vote p x d) p s c g on off s1) :
    let n := on.countP fun l => g.pred x.ps.val l != x.neg
    exec (.vote p x d) s = .next ((s1.paired c.gid d.toNat on fun _ =>
      if x.mode = 0 then decide (n = on.length) else if x.mode = 1 then decide (n ≠ 0)
      else if x.mode = 2 then decide (n = 0 ∨ n = on.length) else decide (on.length < 2 * n)).goOn c.gid off on) := by
  intro n
  change execVote p x d s = _
  unfold execVote
  refine inSlot_start_next h rfl ?_
  refine congrArg (·, _) (congrArg (s1.paired c.gid d.toNat on) (funext fun _ => ?_))
  rw [← List.countP_eq_length_filter]
  have hmode : ∀ m : BitVec 2, m = 0 ∨ m = 1 ∨ m = 2 ∨ m = 3 := by decide
  rcases hmode x.mode with hm | hm | hm | hm <;> simp [hm, n, Nat.one_le_iff_ne_zero]

theorem teamOf_modThread (s : State) (gid l : Nat) (f : Thread → Thread) : (s.modThread gid l f).teamOf gid = s.teamOf gid := by
  rw [State.teamOf, State.modThread, group?_modGroup, Option.map_map]
  rfl

/-- An instruction without vector destination runs in its group's team. -/
theorem Executes.teamOf_start {i : Instr} {p : Pre} {s : State} {c : Slot} {g : Group} {on off : List Nat} {s1 : State}
    (h : Executes i p s c g on off s1) (hd : dstNames i g.w = []) : s1.teamOf c.gid = g.team := by
  have hs : s.teamOf c.gid = g.team := by rw [State.teamOf, h.grp]; rfl
  rw [← h.start hd, ← hs]
  unfold State.began
  split
  · exact foldl_keeps (fun t : State => t.teamOf c.gid) (fun _ _ => teamOf_modThread ..) _ _
  · rfl

/-! ### Tests that acquire where something is done (R178, R183) -/

/-- What the tests of the lanes `ls` leave: an acquire where one is done, then their pairs. -/
def State.tested (s : State) (core : Nat) (sc : Scope) (gid k : Nat) (done : Nat → Bool) (ls : List Nat) : State :=
  (if ls.any done then s.acquire core sc else s).paired gid k ls done

theorem acquire_paired (s : State) (core : Nat) (sc : Scope) (gid k : Nat) (ls : List Nat) (done : Nat → Bool) :
    (s.paired gid k ls done).acquire core sc = (s.acquire core sc).paired gid k ls done := by
  unfold State.paired
  induction ls generalizing s with
  | nil => rfl
  | cons l ls ih =>
    have hpair : (s.setPair gid k l (done l)).acquire core sc = (s.acquire core sc).setPair gid k l (done l) := by
      unfold State.acquire
      split <;> rfl
    rw [List.foldl_cons, ih, hpair, List.foldl_cons]

theorem tested_append (s : State) (core : Nat) (sc : Scope) (gid k : Nat) (done : Nat → Bool) (ls : List Nat) (l : Nat) :
    s.tested core sc gid k done (ls ++ [l]) =
      (if done l then (s.tested core sc gid k done ls).acquire core sc else s.tested core sc gid k done ls).setPair gid k l (done l) := by
  unfold State.tested
  rw [paired_append, List.any_append]
  cases hl : done l <;> cases hs : ls.any done <;> simp [hl, acquire_paired, acquire_acquire]

/-- Apart from predicates and the L1 of a core, tests leave the state as it was. -/
theorem tested_eq (s : State) (core : Nat) (sc : Scope) (gid k : Nat) (done : Nat → Bool) (ls : List Nat) :
    ∃ f : Group → Group, s.tested core sc gid k done ls = (if ls.any done then s.acquire core sc else s).modGroup gid f ∧
      ∀ g, f g = { g with p := (f g).p } := by
  unfold State.tested State.paired
  generalize (if ls.any done then s.acquire core sc else s) = u
  induction ls generalizing u with
  | nil => exact ⟨fun g => g, (modGroup_self u gid).symm, fun _ => rfl⟩
  | cons l ls ih =>
    obtain ⟨f, hf, hp⟩ := ih (u.setPair gid k l (done l))
    rw [List.foldl_cons, hf, setPair_eq, modGroup_modGroup]
    exact ⟨_, rfl, fun g => by rw [hp]; rfl⟩

section

variable (s : State) (core : Nat) (sc : Scope) (gid k : Nat) (done : Nat → Bool) (ls : List Nat)

theorem src32_tested (m : Nat) (o : Opnd) : (s.tested core sc gid k done ls).src32 gid m o = s.src32 gid m o := by
  have hpair (u : State) : (u.paired gid k ls done).src32 gid m o = u.src32 gid m o := by
    unfold State.paired
    induction ls generalizing u with
    | nil => rfl
    | cons l ls ih => rw [List.foldl_cons, ih, src32_setPair]
  rw [State.tested, hpair]
  split
  · rw [src32_acquire]
  · rfl

theorem ticketOp_tested (j : Nat) (t : Word) : (s.tested core sc gid k done ls).ticketOp j t = s.ticketOp j t := by
  obtain ⟨f, hf, -⟩ := tested_eq s core sc gid k done ls
  rw [hf]
  split
  · exact ticketOp_acquire s core sc j t
  · rfl

theorem coreOf_tested (j : Nat) : (s.tested core sc gid k done ls).coreOf j = s.coreOf j := by
  obtain ⟨f, hf, hp⟩ := tested_eq s core sc gid k done ls
  rw [hf, coreOf_modGroup _ _ _ fun g => by rw [hp]]
  split
  · rw [State.coreOf, group?_acquire, State.coreOf]
  · rfl

theorem teamOf_tested : (s.tested core sc gid k done ls).teamOf gid = s.teamOf gid := by
  obtain ⟨f, hf, hp⟩ := tested_eq s core sc gid k done ls
  rw [hf, State.teamOf, group?_modGroup, Option.map_map, show Group.team ∘ f = Group.team from funext fun g => by
    rw [Function.comp_apply, hp]]
  split
  · rw [group?_acquire, State.teamOf]
  · rfl

theorem scratch?_tested (tid a n : Nat) : (s.tested core sc gid k done ls).scratch? tid a n = s.scratch? tid a n := by
  obtain ⟨f, hf, -⟩ := tested_eq s core sc gid k done ls
  rw [hf]
  unfold State.acquire
  split
  · split <;> rfl
  · rfl

theorem bbar?_tested (tid a : Nat) : (s.tested core sc gid k done ls).bbar? tid a = s.bbar? tid a := by
  have hmem : (s.tested core sc gid k done ls).mem = s.mem := by
    obtain ⟨f, hf, -⟩ := tested_eq s core sc gid k done ls
    rw [hf]
    unfold State.acquire
    split
    · split <;> rfl
    · rfl
  simp only [State.bbar?, scratch?_tested, State.readPhys, hmem]

theorem barBad_tested (a : Nat) : (s.tested core sc gid k done ls).barBad gid a = s.barBad gid a := by
  simp only [State.barBad, State.eaBad, teamOf_tested, scratch?_tested]

/-- A test that runs lane by lane: `f` tests a lane in whatever state the tests before it left. -/
theorem perLane_tests {i : Instr} {f : State → Nat → Nat → State × LaneRes} {c : Slot} {g : Group} {on : List Nat}
    (hne : on ≠ []) (hm : (i.need g.w).mode = .thread)
    (hf : ∀ l ∈ on, ∀ ls, f (s.tested core sc c.gid k done ls) c.gid l =
      ((if done l then (s.tested core sc c.gid k done ls).acquire core sc else s.tested core sc c.gid k done ls).setPair c.gid k l
        (done l), .next)) :
    perLane i f s c g on = (s.tested core sc c.gid k done on, on.map fun l => (l, .next)) := by
  have := perLane_thread_chain (i := i) (f := f) (c := c) (g := g) hne hm
    (t := fun n => s.tested core sc c.gid k done (on.take n)) fun n hn => by
      rw [List.getD_eq_getElem _ _ hn, hf _ (List.getElem_mem hn), ← tested_append, List.take_concat_get' _ _ hn]
  simpa [State.tested, State.paired] using this

end

section

variable {p : Pre} {d : BitVec 7} {a b : Opnd} {s : State} {c : Slot} {g : Group} {on off : List Nat} {s1 : State}

theorem ptest_of_executes (h : Executes (.ptest p d a) p s c g on off s1) :
    let done (l : Nat) : Bool := (s1.ticketOp g.core (s1.src32 c.gid l a)).isNone
    exec (.ptest p d a) s = .next ((s1.tested g.core .dev c.gid d.toNat done on).goOn c.gid off on) := by
  intro done
  change execPtest p d a s = _
  unfold execPtest
  refine inSlot_start_next h rfl (perLane_tests s1 g.core .dev d.toNat done h.ran rfl fun l _ ls => ?_)
  have hcore := elim_core ((coreOf_tested s1 g.core .dev c.gid d.toNat done ls c.gid).trans h.coreOf)
  simp only [State.ticketAcquire, hcore, src32_tested, ticketOp_tested, done]

theorem btest_of_executes (h : Executes (.btest p d a b) p s c g on off s1) (bar : Nat → BBar)
    (hb : ∀ l ∈ on, s1.barBad c.gid (s1.src32 c.gid l a).toNat = none ∧
      (s1.bbar? g.team (s1.src32 c.gid l a).toNat).map Prod.snd = some (bar l) ∧ (bar l).overrun = false) :
    let done (l : Nat) : Bool := decide ((bar l).phase ≠ ((s1.src32 c.gid l b).getLsbD 0).toNat)
    exec (.btest p d a b) s = .next ((s1.tested g.core .clu c.gid d.toNat done on).goOn c.gid off on) := by
  intro done
  change execBtest p d a b s = _
  unfold execBtest
  refine inSlot_start_next h rfl (perLane_tests s1 g.core .clu d.toNat done h.ran rfl fun l hl ls => ?_)
  have hcore := elim_core ((coreOf_tested s1 g.core .clu c.gid d.toNat done ls c.gid).trans h.coreOf)
  have hteam := h.teamOf_start rfl
  obtain ⟨hbad, hbar, hover⟩ := hb l hl
  obtain ⟨y, hy, hy2⟩ := Option.map_eq_some_iff.mp hbar
  simp only [hcore, src32_tested, barBad_tested, teamOf_tested, bbar?_tested, hteam, hbad, hy, hy2, hover, done, Bool.and_false,
    Bool.false_eq_true, if_false]

end

end Sys2Proof.Machine

end

section

/-! Proofs. Special registers: what each number reads, what a write of one changes, and which numbers are refused (R152 to R155). -/

namespace Sys2Proof.Machine

/-! ### The clocks of a thread -/

theorem cycOf_modThread (s : State) (gid k : Nat) (f : Thread → Thread) (l : Nat) :
    (s.modThread gid k f).cycOf gid l = s.cycOf gid l := by
  unfold State.cycOf State.modThread
  rw [group?_modGroup]
  cases s.group? gid <;> rfl

theorem tickOf_modThread (s : State) (gid k : Nat) (f : Thread → Thread) (l : Nat) :
    (s.modThread gid k f).tickOf gid l = s.tickOf gid l := by
  unfold State.tickOf
  rw [cycOf_modThread]
  unfold State.modThread
  rw [group?_modGroup, modGroup_cur]
  cases s.group? gid <;> cases s.cur <;> rfl

theorem group?_modThread {s : State} {gid : Nat} {g : Group} (hg : s.group? gid = some g) (l : Nat) (f : Thread → Thread) :
    (s.modThread gid l f).group? gid = some (g.modThread l f) := by
  rw [State.modThread, group?_modGroup, hg, Option.map_some]

/-! ### The halves of the counts (R152, R153) -/

theorem ofNat_mod_double (n : Nat) : BitVec.ofNat 32 (n % 2 ^ 64) = BitVec.ofNat 32 n := by
  apply BitVec.eq_of_toNat_eq
  simp only [BitVec.toNat_ofNat]
  omega

theorem ofNat_mod_double_div (n : Nat) : BitVec.ofNat 32 (n % 2 ^ 64 / 2 ^ 32) = BitVec.ofNat 32 (n / 2 ^ 32) := by
  apply BitVec.eq_of_toNat_eq
  simp only [BitVec.toNat_ofNat]
  omega

section

variable {s : State} {gid l : Nat} {g : Group} (hg : s.group? gid = some g)

include hg

/-- The low half of `CYC` latches the high half for its thread. -/
theorem getSr_cyc : s.getSr gid l 15 = (BitVec.ofNat 32 (s.cycOf gid l),
    s.modThread gid l fun t => { t with cycHi := some (BitVec.ofNat 32 (s.cycOf gid l / 2 ^ 32)) }) := by
  simp only [State.getSr, hg, loHi]

/-- The low half of `ENERGY` latches the high half for its thread. -/
theorem getSr_energy {cx : Ctx} (hcx : s.ctx? g.ctx = some cx) : s.getSr gid l 18 = (BitVec.ofNat 32 cx.energy,
    s.modThread gid l fun t => { t with energyHi := some (BitVec.ofNat 32 (cx.energy / 2 ^ 32)) }) := by
  simp only [State.getSr, hg, hcx, Option.elim_some, loHi, ofNat_mod_double, ofNat_mod_double_div]

theorem getSr_cycHi : (s.getSr gid l 16).1 = (g.thread l).cycHi.getD (BitVec.ofNat 32 (s.cycOf gid l / 2 ^ 32)) := by
  simp only [State.getSr, hg, loHi]

theorem getSr_rtimeHi : (s.getSr gid l 17).1 = (g.thread l).rtimeHi.getD (BitVec.ofNat 32 (s.tickOf gid l / 2 ^ 32)) := by
  simp only [State.getSr, hg, loHi]

theorem getSr_energyHi {cx : Ctx} (hcx : s.ctx? g.ctx = some cx) :
    (s.getSr gid l 19).1 = (g.thread l).energyHi.getD (BitVec.ofNat 32 (cx.energy / 2 ^ 32)) := by
  simp only [State.getSr, hg, hcx, Option.elim_some, loHi, ofNat_mod_double_div]

end

/-- Every lane that reads the timer as an operand latches `RTIME_HI` (R152). -/
theorem latchRtime_latches {s : State} {gid l : Nat} {g : Group} (hg : s.group? gid = some g) (hl : (g.thread? l).isSome)
    {ls : List Nat} (hmem : l ∈ ls) : ∃ h, (s.latchRtime gid ls).group? gid = some h ∧
      (h.thread l).rtimeHi = some (BitVec.ofNat 32 (s.tickOf gid l / 2 ^ 32)) := by
  have key : ∀ (ls : List Nat) (s : State) (g : Group), s.group? gid = some g → (g.thread? l).isSome →
      (l ∈ ls ∨ (g.thread l).rtimeHi = some (BitVec.ofNat 32 (s.tickOf gid l / 2 ^ 32))) →
      ∃ h, (s.latchRtime gid ls).group? gid = some h ∧
        (h.thread l).rtimeHi = some (BitVec.ofNat 32 (s.tickOf gid l / 2 ^ 32)) := by
    intro ls
    induction ls with
    | nil => exact fun s g hg _ h => ⟨g, hg, h.resolve_left List.not_mem_nil⟩
    | cons k ls ih =>
      intro s g hg hl h
      have hnext := ih (s.modThread gid k fun t => { t with rtimeHi := some (BitVec.ofNat 32 (s.tickOf gid k / 2 ^ 32)) }) _
        (group?_modThread hg k _)
      rw [tickOf_modThread] at hnext
      by_cases hk : l = k
      · subst hk
        exact hnext (by simpa using hl) (.inr (by rw [thread_modThread _ _ _ hl]))
      · refine hnext (by rwa [thread?_modThread_ne hk]) ?_
        rw [thread_modThread_ne hk]
        exact h.imp_left fun h => (List.mem_cons.mp h).resolve_left hk
  exact key ls s g hg hl (.inl hmem)

/-! ### Numbers that are refused (R152, R155) -/

theorem not_srExists {n : Nat} (h : (23 ≤ n ∧ n ≤ 63) ∨ 70 ≤ n) : srExists n = false := by
  simp only [srExists, Bool.or_eq_false_iff, Bool.and_eq_false_iff, decide_eq_false_iff_not]
  omega

theorem not_srWritable {n : Nat} (h : n ≤ 10 ∨ (15 ≤ n ∧ n ≤ 63) ∨ 68 ≤ n) : srWritable n = false := by
  simp only [srWritable, List.contains_eq_mem, List.mem_cons, List.not_mem_nil, or_false, decide_eq_false_iff_not]
  omega

theorem opndOk_of_not_ok {w : Nat} {i : Instr} (h : (i.need w).ok = false) : i.opndOk w = false := by
  simp only [Instr.opndOk, Need.legal, h, Bool.false_and]

/-- Settles O60: each number by what `getSr` and `setSr` do with it, the high halves from what the thread has latched. -/
theorem specialRegisterValues : Obligations.SpecialRegisterValues := by
  unfold Obligations.SpecialRegisterValues
  refine ⟨?values, ?halves, ?writes, fun w p d n h => opndOk_of_not_ok ?_, fun w p n a h => opndOk_of_not_ok ?_,
    fun p d n h => decide_eq_true h, fun p n a h => decide_eq_true h⟩
  case values =>
    intro s gid l g tm cx hg htm hcx get w
    simpa [get, w, State.getSr, hg, htm, hcx, loHi] using ofNat_mod_double cx.energy
  case halves =>
    intro s gid l g x hg hx w cyc ticks
    have hsome : (g.thread? l).isSome := by rw [hx]; rfl
    have hthread : g.thread l = x := thread_eq_of_thread? hx
    refine ⟨?_, fun hnone => ?_, fun ls hl => ?_, fun hnone => ?_, fun cx hcx => ⟨?_, fun hnone => ?_⟩⟩
    · rw [getSr_cyc hg, getSr_cycHi (group?_modThread hg l _), thread_modThread _ _ _ hsome]
      rfl
    · rw [getSr_cycHi hg, hthread, hnone]
      rfl
    · obtain ⟨h, hh, hlatched⟩ := latchRtime_latches hg hsome hl
      rw [getSr_rtimeHi hh, hlatched]
      rfl
    · rw [getSr_rtimeHi hg, hthread, hnone]
      rfl
    · rw [getSr_energy hg hcx, getSr_energyHi (group?_modThread hg l _) hcx, thread_modThread _ _ _ hsome]
      rfl
    · rw [getSr_energyHi hg hcx, hthread, hnone]
      rfl
  case writes =>
    intro s gid g v hg
    have hctx : (s.group? gid).elim 0 Group.ctx = g.ctx := by rw [hg, Option.elim_some]
    rw [← hctx]
    exact ⟨rfl, rfl, rfl, rfl, rfl, rfl, rfl, rfl⟩
  · change (srExists n.toNat && _) = false
    rw [not_srExists h, Bool.false_and]
  · change (srExists n.toNat && srWritable n.toNat) = false
    rw [not_srWritable h, Bool.and_false]

end Sys2Proof.Machine

end

section

/-! Proofs. Continuations and spawns that issue, and records that enter the own core's bin (R140, R141, R146 to R149, R384). -/

namespace Sys2Proof.Machine

/-! ### Operands that a fresh identifier leaves alone -/

section

variable (s : State) (gid l : Nat) (o : Opnd)

@[simp] theorem src32_fresh : s.fresh.2.src32 gid l o = s.src32 gid l o := by cases o <;> rfl

@[simp] theorem src64_fresh (sext : Bool) : s.fresh.2.src64 gid l o sext = s.src64 gid l o sext := by
  cases o <;> rfl

@[simp] theorem srcRun_fresh (n : Nat) : s.fresh.2.srcRun gid l o n = s.srcRun gid l o n := by
  simp only [State.srcRun, src32_fresh]

@[simp] theorem nodeBad_fresh (ctx node nw : Nat) : s.fresh.2.nodeBad ctx node nw = s.nodeBad ctx node nw := rfl

@[simp] theorem ctxOf_fresh : s.fresh.2.ctxOf gid = s.ctxOf gid := rfl

end

/-! ### Fallible instructions whose checks pass -/

/-- An instruction of the frame `issue` issues what its checks ask for: they are made once the execution has its identifier. -/
theorem issues_of_issue {i : Instr} {p : Pre} {start : State → Nat → State} {a b : Bool} {ok : State → Nat → Nat → Prop}
    {r : State → Nat → Nat → Req} {f : State → Nat → Nat → Issue} (he : ∀ s, exec i s = issue i p start a b f s)
    (hf : ∀ s gid l, ok s gid l → f s.fresh.2 gid l = .ok (r s gid l)) : Issues i p start a b ok r := by
  intro s c g on off s1 h hst hok
  rw [he]
  exact issue_executes h hst fun l hl => hf s1 c.gid l (hok l hl)

theorem resumeReq_of_aligned {a : Opnd} {s : State} {gid l : Nat} (d : Option Opnd) (h : (s.src64 gid l a false).toNat % 256 = 0) :
    resumeReq a d s.fresh.2 gid l = .ok { kind := .resume (s.src64 gid l a false).toNat d.isSome false, scope := .dev
                                          dst := d.map fun d => (d, 1) } := by
  simp only [resumeReq, src64_fresh, h, ne_eq, not_true_eq_false, if_false]

theorem ccopyReq_of_aligned {a b : Opnd} {s : State} {gid l : Nat} (fork : Bool)
    (h : (s.src64 gid l a false).toNat % 256 = 0 ∧ (s.src64 gid l b false).toNat % 256 = 0) :
    ccopyReq fork a b s.fresh.2 gid l =
      .ok { kind := .ccopy fork (s.src64 gid l a false).toNat (s.src64 gid l b false).toNat, scope := .dev } := by
  simp only [ccopyReq, src64_fresh, h, ne_eq, not_true_eq_false, if_false]

/-! ### Records (R140, R141, R384) -/

/-- The request of a remote `SPAWN`, or the trap of a record that does not fit its node. -/
def spawnReq (x : SpX) (a b : Opnd) (s : State) (gid l : Nat) : Issue :=
  if s.nodeBad (s.ctxOf gid) x.node.toNat (x.nw.toNat + 1) then .error (.trap .illegalOperand 0)
  else .ok { kind := .spawn (s.src32 gid l b).toNat x.node.toNat (s.srcRun gid l a (x.nw.toNat + 1)), scope := .dev }

theorem exec_spawn_remote {p : Pre} {x : SpX} {a b : Opnd} (hx : x.rem = true) (s : State) :
    exec (.spawn p x a b) s = issue (.spawn p x a b) p State.startSpawn false true (spawnReq x a b) s := by
  change execSpawn p x a b s = _
  unfold execSpawn
  rw [if_pos hx]
  rfl

theorem spawn_remote_issues {p : Pre} {x : SpX} {a b : Opnd} (hx : x.rem = true) : Issues (.spawn p x a b) p State.startSpawn false true
    (fun s gid _ => s.nodeBad (s.ctxOf gid) x.node.toNat (x.nw.toNat + 1) = false)
    fun s gid l =>
      { kind := .spawn (s.src32 gid l b).toNat x.node.toNat (s.srcRun gid l a (x.nw.toNat + 1)), scope := .dev } := by
  refine issues_of_issue (exec_spawn_remote hx) fun s gid l hok => ?_
  simp only [spawnReq, ctxOf_fresh, nodeBad_fresh, hok, src32_fresh, srcRun_fresh, Bool.false_eq_true, if_false]

/-- The request of an `RSPAWN`, or the trap of a record that does not fit its node. -/
def rspawnReq (x : RpX) (a b : Opnd) (s : State) (gid l : Nat) : Issue :=
  if s.nodeBad (s.ctxOf gid) x.node.toNat (x.nw.toNat + 1) then .error (.trap .illegalOperand 0)
  else .ok { kind := .rspawn (s.src32 gid l b) x.node.toNat (s.srcRun gid l a (x.nw.toNat + 1)), scope := .sys }

theorem exec_rspawn (p : Pre) (x : RpX) (a b : Opnd) (s : State) :
    exec (.rspawn p x a b) s = issue (.rspawn p x a b) p (byBelay State.startRspawn) false true (rspawnReq x a b) s := by
  change execRspawn p x a b s = _
  unfold execRspawn
  rfl

theorem rspawn_issues (p : Pre) (x : RpX) (a b : Opnd) : Issues (.rspawn p x a b) p (byBelay State.startRspawn) false true
    (fun s gid _ => s.nodeBad (s.ctxOf gid) x.node.toNat (x.nw.toNat + 1) = false)
    fun s gid l => { kind := .rspawn (s.src32 gid l b) x.node.toNat (s.srcRun gid l a (x.nw.toNat + 1)), scope := .sys } := by
  refine issues_of_issue (exec_rspawn p x a b) fun s gid l hok => ?_
  simp only [rspawnReq, ctxOf_fresh, nodeBad_fresh, hok, src32_fresh, srcRun_fresh, Bool.false_eq_true, if_false]

/-- Where nothing that the path's threads stored is pending, a release goes on with its body. -/
theorem afterStores_of_performed {body : State → Slot → Group → List Nat → State × List (Nat × LaneRes)} {s : State} {c : Slot}
    {g : Group} {on : List Nat} (h : ∀ l ∈ on, s.storesPending c.gid l = false) : afterStores body s c g on = body s c g on := by
  unfold afterStores
  rw [if_neg]
  simpa using h

theorem spawn_local_accepts {p : Pre} {x : SpX} {a b : Opnd} {s : State} {c : Slot} {g : Group} {on off : List Nat} {s1 : State}
    (h : Executes (.spawn p x a b) p s c g on off s1) (hx : x.rem = false) (hst : ∀ l ∈ on, s1.storesPending c.gid l = false)
    {t : Nat → State} (h0 : t 0 = s1) (ht : ∀ k, k < on.length →
      (t k).binAccept g.core g.ctx x.node.toNat ((t k).srcRun c.gid (on.getD k 0) a (x.nw.toNat + 1)) = some (t (k + 1)) ∧
        (t k).nodeBad g.ctx x.node.toNat (x.nw.toNat + 1) = false) :
    exec (.spawn p x a b) s = .next ((t on.length).goOn c.gid off on) := by
  change execSpawn p x a b s = _
  unfold execSpawn
  rw [hx, if_neg Bool.false_ne_true]
  refine inSlot_start_next h rfl ((afterStores_of_performed hst).trans ?_)
  rw [← h0]
  refine runLanes_chain fun k hk => ?_
  obtain ⟨haccept, hnode⟩ := ht k hk
  rw [hnode, if_neg Bool.false_ne_true, haccept]

/-- Settles O17: the checks of each instruction come to its request, and a local `SPAWN` runs lane by lane. -/
theorem continuationsAndSpawnsIssue : Obligations.ContinuationsAndSpawnsIssue := by
  unfold Obligations.ContinuationsAndSpawnsIssue
  exact ⟨fun p a => issues_of_issue (fun _ => rfl) fun _ _ _ h => resumeReq_of_aligned none h,
    fun p d a => issues_of_issue (fun _ => rfl) fun _ _ _ h => resumeReq_of_aligned (some d) h,
    fun p a b => issues_of_issue (fun _ => rfl) fun _ _ _ h => ccopyReq_of_aligned false h,
    fun p a b => issues_of_issue (fun _ => rfl) fun _ _ _ h => ccopyReq_of_aligned true h,
    fun p x a b hx => spawn_remote_issues hx, rspawn_issues,
    fun p x a b s c g on off s1 h hx hst _ t h0 ht => spawn_local_accepts h hx hst h0 ht⟩

end Sys2Proof.Machine

end

section

/-! Proofs. Launches, steals, discards and suspensions (R142 to R144, R146, R148): instructions that execute once for their path,
and what an access of the device to its own memory leaves alone. -/

namespace Sys2Proof.Machine

/-! ### Instructions that execute once for their path (R51) -/

/-- Of a chain of checks the last one has passed where none stops. -/
theorem passed_of_checks {a b ok : Bool} {x y z : Cause} (h : (if a then some x else if b then some y else if !ok then some z else none) =
    none) : ok = true := by
  cases a <;> cases b <;> cases ok <;> simp at h ⊢

theorem opndOk_of_check {s : State} {i : Instr} {g : Group} {l : Nat} (h : s.check i g l = none) : i.opndOk g.w = true := by
  unfold State.check at h
  exact passed_of_checks h

theorem vnames_of_uniform {d : Opnd} (h : d.uniform = true) (n : Nat) : d.vnames n = [] := by
  cases d with
  | v n => cases h
  | _ => rfl

section

variable {i : Instr} {p : Pre} {s : State} {c : Slot} {g : Group} {on off : List Nat} {s1 : State} (h : Executes i p s c g on off s1)

include h

theorem Executes.legal_need : (i.need g.w).legal = true := by
  obtain ⟨l, hl⟩ := List.exists_mem_of_ne_nil on h.ran
  exact opndOk_of_check (h.legal l (List.mem_filter.mp (h.on_eq ▸ hl)).1)

/-- The destination of an instruction that executes once for its path is uniform, so it maps no name. -/
theorem Executes.names_of_once (hm : (i.need g.w).mode = .once) : dstNames i g.w = [] := by
  have hlegal := h.legal_need
  simp only [Need.legal, hm, Bool.and_eq_true] at hlegal
  obtain ⟨-, -, hdst⟩ := hlegal
  unfold dstNames
  cases hd : (i.need g.w).dst with
  | none => rfl
  | some d =>
    rw [hd] at hdst
    exact vnames_of_uniform hdst d.2

/-- An instruction that executes once for its path runs in the state that it reads. -/
theorem inSlot_once (hm : (i.need g.w).mode = .once) {body : State → Slot → Group → List Nat → State × List (Nat × LaneRes)}
    {t : State} {rs : List (Nat × LaneRes)} (hb : body s1 c g on = (t, rs)) : inSlot i p s body = .next (t.finish c.gid off rs) := by
  rw [inSlot_executes h, h.start (h.names_of_once hm), hb]

end

/-- A body that runs once for the path, whatever it comes to. -/
theorem perLane_once_res {i : Instr} {f : State → Nat → Nat → State × LaneRes} {s t : State} {c : Slot} {g : Group} {on : List Nat}
    {r : LaneRes} (hne : on ≠ []) (hm : (i.need g.w).mode = .once) (hf : f s c.gid (on.headD 0) = (t, r)) :
    perLane i f s c g on = (t, on.map fun l => (l, r)) := by
  obtain ⟨a, r, rfl⟩ := List.exists_cons_of_ne_nil hne
  rw [List.headD_cons] at hf
  simp only [perLane, Need.perPath, hm, if_true, hf]

/-! ### The context of a group -/

theorem ctxOf_modGroup (s : State) (gid k : Nat) {f : Group → Group} (hf : ∀ g, (f g).ctx = g.ctx) :
    (s.modGroup gid f).ctxOf k = s.ctxOf k := by
  unfold State.ctxOf
  by_cases h : k = gid
  · subst h
    rw [group?_modGroup]
    cases s.group? k with
    | none => rfl
    | some g => exact hf g
  · rw [group?_modGroup_ne h]

theorem ctxOf_modThread (s : State) (gid l k : Nat) (f : Thread → Thread) : (s.modThread gid l f).ctxOf k = s.ctxOf k :=
  ctxOf_modGroup s gid k fun _ => rfl

theorem ctxOf_dst32 (s : State) (gid l k : Nat) (o : Opnd) (w : Word) : (s.dst32 gid l o w).ctxOf k = s.ctxOf k := by
  rw [dst32_eq]
  exact ctxOf_modGroup s gid k fun g => by cases o <;> rfl

theorem ctxOf_eq_entries (s : State) (gid : Nat) : s.ctxOf gid = (Map.get? s.entries gid).elim 0 Group.ctx := by
  unfold State.ctxOf State.group? State.entries
  induction s.groups with
  | nil => rfl
  | cons e m ih =>
    rw [List.map_cons, Map.get?_cons, Map.get?_cons]
    split
    · rfl
    · exact ih

theorem ctxOf_began (s : State) (i : Instr) (gid : Nat) (g : Group) (on : List Nat) (k : Nat) : (s.began i gid g on).ctxOf k = s.ctxOf k := by
  unfold State.began
  split
  · exact foldl_keeps (fun t : State => t.ctxOf k) (fun _ _ => ctxOf_modThread ..) _ _
  · rfl

/-- The group of a slot is of its context in the state in which its instruction runs. -/
theorem Executes.ctxOf {i : Instr} {p : Pre} {s : State} {c : Slot} {g : Group} {on off : List Nat} {s1 : State}
    (h : Executes i p s c g on off s1) : s1.ctxOf c.gid = g.ctx := by
  rw [ctxOf_eq_entries, entries_mapNames h.mapped, ← ctxOf_eq_entries, ctxOf_began, State.ctxOf, h.grp]
  rfl

/-- A group that stands on a core is listed, with its core and its context. -/
theorem group?_of_coreOf {s : State} {gid k x : Nat} (hk : s.coreOf gid = some k) (hx : s.ctxOf gid = x) :
    ∃ g, s.group? gid = some g ∧ g.core = k ∧ g.ctx = x := by
  obtain ⟨g, hg, hcore⟩ := Option.map_eq_some_iff.mp hk
  refine ⟨g, hg, hcore, ?_⟩
  rw [← hx, State.ctxOf, hg, Option.elim_some]

/-! ### Accesses of the device to its own memory -/

/-- A state without what reads and writes of its own memory may change: the bytes and their poison, what the walkers and the near caches
keep, the copies of read-duplicated pages, and what a context notes of the dies that it met. -/
def State.offMemory (s : State) : State := { s with mem := [], poison := [], tlb := [], near := [], replBad := [], ctxs := [] }

section

variable {s t : State} {c va n die : Nat} {p : Perm} {sys : Bool} {bs : List Byte}

theorem cache_offMemory (s : State) (c : Nat) (f : Leaf) : (s.cache c f).offMemory = s.offMemory := by
  unfold State.cache
  dsimp only
  split <;> rfl

theorem noteLeaf_offMemory (s : State) (c : Nat) (f : Leaf) (w : Bool) : (s.noteLeaf c f w).offMemory = s.offMemory := by
  unfold State.noteLeaf
  dsimp only
  rw [cache_offMemory]
  generalize (if w then 0x200 else 0x100 : DWord) = b
  split <;> rfl

theorem refill_offMemory (s : State) (w : Word) (fr o die : Nat) : (s.refill w fr o die).offMemory = s.offMemory := by
  unfold State.refill
  dsimp only
  split <;> rfl

theorem nearFill_offMemory (s : State) (w : Word) (home a : Nat) : (s.nearFill w home a).offMemory = s.offMemory := by
  unfold State.nearFill
  split <;> rfl

theorem invalidate_offMemory (s : State) (w : Word) (a : Nat) : (s.invalidate w a).offMemory = s.offMemory := by
  unfold State.invalidate
  split <;> rfl

theorem touch_offMemory (s : State) (c d : Nat) : (s.touch c d).offMemory = s.offMemory := rfl

theorem writePhys_offMemory (s : State) (a : Nat) (bs : List Byte) : (s.writePhys a bs).offMemory = s.offMemory := rfl

theorem clearPoison_offMemory (s : State) (a n : Nat) : (s.clearPoison a n).offMemory = s.offMemory := rfl

theorem readPiece_offMemory (h : s.readPiece c va n p sys die = .ok (t, bs)) : t.offMemory = s.offMemory := by
  unfold State.readPiece at h
  split at h
  · unfold State.readEpoch at h
    split at h
    · cases h
    · split at h
      · cases h
      · cases h; rfl
  · split at h
    · cases h
    · dsimp only at h
      split at h
      · cases h
      · cases h
        rw [nearFill_offMemory, refill_offMemory, touch_offMemory, touch_offMemory, noteLeaf_offMemory]

theorem gread_offMemory (h : s.gread c va n p sys die = .ok (t, bs)) : t.offMemory = s.offMemory := by
  obtain ⟨u, hu, hq⟩ := foldl_except_keeps (fun r : State × List Byte => r.1.offMemory) (fun r b t hr => by
    cases r with
    | error x => cases hr
    | ok u =>
      dsimp only at hr
      split at hr
      · cases hr
      next hp => cases hr; exact ⟨u, rfl, readPiece_offMemory hp⟩) h
  cases hu
  exact hq

theorem writePiece_offMemory (h : s.writePiece c va bs sys die = .ok t) : t.offMemory = s.offMemory := by
  unfold State.writePiece at h
  split at h
  · cases h
  · split at h
    · cases h
    · cases h
      rw [nearFill_offMemory, invalidate_offMemory, clearPoison_offMemory, writePhys_offMemory, touch_offMemory, touch_offMemory,
        noteLeaf_offMemory]

theorem gwrite_offMemory (h : s.gwrite c va bs sys die = .ok t) : t.offMemory = s.offMemory := by
  obtain ⟨u, hu, hq⟩ := foldl_except_keeps State.offMemory (fun r b t hr => by
    cases r with
    | error x => cases hr
    | ok u => exact ⟨u, rfl, writePiece_offMemory hr⟩) h
  cases hu
  exact hq

theorem casState_offMemory {core obj old new was : Nat} (h : s.casState c core obj old new sys = .ok (t, was)) :
    t.offMemory = s.offMemory := by
  unfold State.casState at h
  dsimp only at h
  split at h
  · cases h
  next hr =>
  split at h
  · split at h
    · cases h
    next hw => cases h; exact (gwrite_offMemory hw).trans (gread_offMemory hr)
  · cases h; exact gread_offMemory hr

end

theorem groups_of_offMemory {s t : State} (h : t.offMemory = s.offMemory) : t.groups = s.groups := (congrArg State.groups h :)

theorem coreOf_congr {s t : State} (h : t.groups = s.groups) (gid : Nat) : t.coreOf gid = s.coreOf gid := by
  rw [State.coreOf, State.group?, h]; rfl

theorem ctxOf_congr {s t : State} (h : t.groups = s.groups) (gid : Nat) : t.ctxOf gid = s.ctxOf gid := by
  rw [State.ctxOf, State.group?, h]; rfl

/-! ### The instructions -/

section

variable {p : Pre} {d a : Opnd} {s : State} {c : Slot} {g : Group} {on off : List Nat} {s1 : State}

theorem launch_queues (h : Executes (.launch p d a) p s c g on off s1) (hst : ∀ l ∈ on, s1.storesPending c.gid l = false)
    {t u : State} {bs : List Byte} {gr : Nat} {w : Word} (ha : (s1.src64 c.gid (on.headD 0) a false).toNat % 64 = 0)
    (hr : s1.cread g.ctx g.core (s1.src64 c.gid (on.headD 0) a false).toNat 64 = .ok (t, bs))
    (hq : t.queueRecord g.ctx (pairOf g.core) bs none = .ok (u, gr, w)) :
    exec (.launch p d a) s = .next ((u.dst32 c.gid (on.headD 0) d w).goOn c.gid off on) := by
  change execLaunch p d a s = _
  unfold execLaunch
  refine inSlot_start_next h (h.names_of_once rfl) ((afterStores_of_performed hst).trans (perLane_once h.ran rfl ?_))
  simp only [ha, ne_eq, not_true_eq_false, if_false, hr, hq]

theorem waitl_of_ended (h : Executes (.waitl p d a) p s c g on off s1) {n : Nat}
    (hn : s1.ticketStatus g.ctx (s1.src32 c.gid (on.headD 0) a) = some n) : exec (.waitl p d a) s =
      .next (((s1.acquire g.core .dev).dst32 c.gid (on.headD 0) d (BitVec.ofNat 32 n)).goOn c.gid off on) := by
  have hctx : (s1.group? c.gid).elim 0 Group.ctx = g.ctx := h.ctxOf
  change execWaitl p d a s = _
  unfold execWaitl
  refine inSlot_start_next h (h.names_of_once rfl) (perLane_once h.ran rfl ?_)
  simp only [hctx, hn, elim_core h.coreOf]

theorem steal_asks (h : Executes (.steal p d a) p s c g on off s1) :
    let v := s1.src32 c.gid (on.headD 0) a
    let victim := if v = 0xFFFFFFFF then s1.pickVictim g.core g.ctx else v.toNat
    exec (.steal p d a) s = .next (if victim = g.core ∨ 160 ≤ victim then (s1.dst32 c.gid (on.headD 0) d 0).goOn c.gid off on
      else s1.finish c.gid off (on.map fun l => (l, .wait (.steal d victim s1.rtime)))) := by
  intro v victim
  obtain ⟨g1, hg, hcore, hctx⟩ := group?_of_coreOf h.coreOf h.ctxOf
  change execSteal p d a s = _
  unfold execSteal
  by_cases hv : victim = g.core ∨ 160 ≤ victim
  · rw [if_pos hv]
    refine inSlot_start_next h (h.names_of_once rfl) (perLane_once h.ran rfl ?_)
    simp only [hg, hcore, hctx, Bool.or_eq_true, decide_eq_true_eq]
    exact if_pos hv
  · rw [if_neg hv]
    refine inSlot_once h rfl (perLane_once_res h.ran rfl ?_)
    simp only [hg, hcore, hctx, Bool.or_eq_true, decide_eq_true_eq]
    exact if_neg hv

/-- A `CDISCARD` runs lane by lane: a compare and swap on an object changes no group, so every lane finds its group on the same core
and in the same context. -/
theorem cdiscard_chain (h : Executes (.cdiscard p d a) p s c g on off s1) (hst : ∀ l ∈ on, s1.storesPending c.gid l = false)
    {ls : List Nat} (hls : doers (.cdiscard p d a) g on = ls) {t u : Nat → State} {old : Nat → Nat} (h0 : t 0 = s1)
    (ht : ∀ k, k < ls.length →
      let obj := ((t k).src64 c.gid (ls.getD k 0) a false).toNat
      obj % 256 = 0 ∧ (t k).lineBusy g.ctx (obj + 8) 4 = false ∧
        (t k).casState g.ctx g.core obj stReady stDiscarded ((t k).sysMode g.ctx) = .ok (u k, old k) ∧
        t (k + 1) = (u k).dst32 c.gid (ls.getD k 0) d (BitVec.ofNat 32 (old k))) :
    exec (.cdiscard p d a) s = .next ((t ls.length).goOn c.gid off on) := by
  have stands : ∀ k, k ≤ ls.length → (t k).coreOf c.gid = some g.core ∧ (t k).ctxOf c.gid = g.ctx := by
    intro k
    induction k with
    | zero => exact fun _ => h0 ▸ ⟨h.coreOf, h.ctxOf⟩
    | succ k ih =>
      intro hk
      obtain ⟨-, -, hcas, hnext⟩ := ht k hk
      have hgroups := groups_of_offMemory (casState_offMemory hcas)
      obtain ⟨hcore, hctx⟩ := ih (Nat.le_of_succ_le hk)
      rw [hnext, coreOf_dst32, ctxOf_dst32, coreOf_congr hgroups, ctxOf_congr hgroups]
      exact ⟨hcore, hctx⟩
  subst hls
  change execCdiscard p d a s = _
  unfold execCdiscard
  refine inSlot_withNames_next h ((afterStores_of_performed hst).trans ?_)
  rw [← h0]
  refine perLane_chain h.ran fun k hk => ?_
  obtain ⟨hcore, hctx⟩ := stands k hk.le
  obtain ⟨g1, hg, hcore, hctx⟩ := group?_of_coreOf hcore hctx
  obtain ⟨hobj, hbusy, hcas, hnext⟩ := ht k hk
  simp only [hg, hcore, hctx, hobj, hbusy, hcas, hnext, ne_eq, not_true_eq_false, Bool.false_eq_true, if_false]

theorem suspend_waits (h : Executes (.suspend p d a) p s c g on off s1) {g1 : Group} (hg : s1.group? c.gid = some g1)
    (ha : (s1.src64 c.gid (on.headD 0) a false).toNat % 256 = 0) :
    exec (.suspend p d a) s = .next ((g1.threads.foldl (fun t e => t.drainThread c.gid e.1) s1).finish c.gid off
      (on.map fun l => (l, .wait (.suspend (some (s1.src64 c.gid (on.headD 0) a false).toNat) d (p.sp.getD 0))))) := by
  change execSuspend p d a s = _
  unfold execSuspend
  refine inSlot_once h rfl (perLane_once_res h.ran rfl ?_)
  simp only [ha, ne_eq, not_true_eq_false, if_false, hg]

end

/-- Settles O30: each instruction by the lemma about it. Which core a steal picks as its victim is the reading of log entry 42. -/
theorem launchesAndSuspensionsComplete : Obligations.LaunchesAndSuspensionsComplete := by
  unfold Obligations.LaunchesAndSuspensionsComplete
  refine ⟨?launch, fun p d a s c g on off s1 n h hn => waitl_of_ended h hn, fun p d a s c g on off s1 h => steal_asks h, ?discard,
    fun p d a s c g on off s1 g1 h hg ha => suspend_waits h hg ha⟩
  case launch =>
    intro p d a s c g on off s1 h hst va ha t bs u gr w hr hq
    exact launch_queues h hst ha hr hq
  case discard =>
    intro p d a s c g on off s1 h hst ls t u old h0 ht
    exact cdiscard_chain h hst rfl h0 ht

end Sys2Proof.Machine

end

section

/-! Proofs. What the events of continuations, pre-emption, saves, restores and checkpoints do to the object, the group or the team that
they name (R146 to R150, R280, R291 to R298). -/

namespace Sys2Proof.Machine

/-! ### Suspensions and restored groups (R146, R296) -/

section

variable {s : State} {g : Group} (hg : s.group? s.sel.a = some g)

include hg

theorem suspendWrite_of_ready {obj : Nat} {live : Word} {s1 s2 : State} {old : List Byte} (hl : g.suspLeader = some (obj, live))
    (hr : s.suspReady s.sel.a g true = true) (hc : s.cread g.ctx g.core (obj + 12) 16 = .ok (s1, old)) {bytes : List Byte}
    (hb : s.objBytes s.sel.a g live obj (fld old 0 4) (fld old 14 2) g.suspDs (s.detEntries s.sel.a g) = bytes)
    (hf : s.lineBusy g.ctx obj bytes.length = false)
    (hw : s1.writeObj g.ctx g.core obj bytes (s.sysMode g.ctx) stReady = (s2, none)) :
    exec .suspendWrite s = .next ((s2.detach s.sel.a g obj (s.detEntries s.sel.a g)).retireGroup s.sel.a) := by
  change execSuspendWrite s = _
  simp only [execSuspendWrite, hg, hl, hr, hc, hb, hf, hw, Bool.not_true, Bool.false_eq_true, if_false]

theorem restoredGroupStart_of_drawn {h : List Byte} {t : State} (hs : g.started = false) (hb : g.bySched = true)
    (hd : s.detDone g = some h)
    (hm : ∀ e ∈ s.groups, e.2.team = g.team → e.2.started = false → e.2.bySched = true → (s.detDone e.2).isSome = true)
    (ht : (s.modGroup s.sel.a fun x => { x with slice := g.slice }).drawTo s.sel.a (max 1 g.needBlocks) 4 = some t) :
    exec .restoredGroupStart s = .next (t.startRestored s.sel.a g h (g.from?.elim 0 fun x => x.2.1)) := by
  have mates : (s.groups.all fun e => e.2.team ≠ g.team || e.2.started || !e.2.bySched || (s.detDone e.2).isSome) = true := by
    rw [List.all_eq_true]
    intro e he
    have hdone := hm e he
    simp only [Bool.or_eq_true, decide_eq_true_eq, Bool.not_eq_true']
    grind
  change execRestoredGroupStart s = _
  simp only [execRestoredGroupStart, hg, hs, hb, hd, mates, ht, Bool.not_true, Bool.and_false, Bool.false_eq_true, if_false, if_true]

end

/-! ### Claims (R147, R292) -/

section

variable {s : State} {o : Op} {g : Group} {obj : Nat} {sf : Bool} (ho : s.op? s.sel.a = some o) (hr : s.contReady s.sel.a = true)
  (hg : s.group? o.gid = some g)

include ho hr hg

theorem resumeClaim_first (hk : o.kind = .resume obj sf false) :
    exec .resumeClaim s = .next (s.claimFirst s.sel.a o g obj sf) := by
  change execResumeClaim s = _
  simp only [execResumeClaim, State.claim, ho, hr, hg, hk, Bool.false_eq_true, if_false, if_true]

theorem resumeClaim_second (hk : o.kind = .resume obj sf true) :
    exec .resumeClaim s = .next (s.claimSecond s.sel.a o g obj sf) := by
  change execResumeClaim s = _
  simp only [execResumeClaim, State.claim, ho, hr, hg, hk, if_true]

end

section

variable {s s1 s2 : State} {id obj : Nat} {o : Op} {g : Group} {sf : Bool} {h : List Byte}
  (hf : s.lineBusy o.ctx (obj + 8) 4 = false)

include hf

theorem claimFirst_of_ready (hc : s.checkObj g obj = .ok (s1, h))
    (hs : s1.casState o.ctx o.core obj stReady stClaimed (s.sysMode o.ctx) = .ok (s2, stReady)) :
    s.claimFirst id o g obj sf = (s2.acquire o.core .dev).modOp id fun x => { x with kind := .resume obj sf true } := by
  simp only [State.claimFirst, hf, hc, hs, Bool.false_eq_true, if_false, if_true]

theorem claimFirst_of_not_ready {st : Nat} (hc : s.checkObj g obj = .ok (s1, h))
    (hs : s1.casState o.ctx o.core obj stReady stClaimed (s.sysMode o.ctx) = .ok (s2, st)) (hn : st ≠ stReady) :
    s.claimFirst id o g obj sf = s2.resumeEnd id o sf (some .doubleResume) := by
  simp only [State.claimFirst, hf, hc, hs, hn, Bool.false_eq_true, if_false]

theorem claimSecond_of_read (hc : s.readObj o.ctx o.core obj (s.sysMode o.ctx) = .ok (s1, h)) : ∃ base,
    s.claimSecond id o g obj sf = (s1.fresh.2.queueGroup s1.fresh.1 base h obj).resumeEnd id o sf none ∧
      base.ctx = g.ctx ∧ base.team = g.team ∧ base.core = g.core ∧ base.cls = g.cls ∧ base.prio = g.prio := by
  simp only [State.claimSecond, hf, hc, Bool.false_eq_true, if_false]
  exact ⟨_, rfl, rfl, rfl, rfl, rfl, rfl⟩

theorem claimSecond_of_cause {c : Cause} (hc : s.readObj o.ctx o.core obj (s.sysMode o.ctx) = .error (.cause c)) :
    s.claimSecond id o g obj sf = (s.faultObj o.ctx o.core obj (s.sysMode o.ctx)).resumeEnd id o sf (some c) := by
  simp only [State.claimSecond, hf, hc, Bool.false_eq_true, if_false]

end

/-! ### Copies (R149, R294) -/

theorem ccopyComplete_of_ready {s : State} (hr : s.contReady s.sel.a = true) : exec .ccopyComplete s = .next (s.ccopyDone s.sel.a) :=
  if_pos hr

/-- Objects of which one ends before the other begins do not overlap. -/
theorem not_overlapping_of_apart {src dst n : Nat} (h : src + n ≤ dst ∨ dst + n ≤ src) :
    (decide (src < dst + n) && decide (dst < src + n)) = false := by
  simp only [Bool.and_eq_false_iff, decide_eq_false_iff_not]
  omega

section

variable {s s1 s2 s3 : State} {id src dst : Nat} {o : Op} {g : Group} {h : List Byte} (ho : s.op? id = some o) (hg : s.group? o.gid = some g)
  (hw : s.sourceWaits o src = false) (hf : s.lineBusy o.ctx (src + 8) 4 = false) (hc : s.checkObj g src = .ok (s1, h))
  (hap : src + h.length ≤ dst ∨ dst + h.length ≤ src) (hd : s.lineBusy o.ctx dst h.length = false)

include ho hg hw hf hc hap hd

theorem ccopyDone_of_move (hk : o.kind = .ccopy false src dst)
    (hs : s1.casState o.ctx o.core src stReady stConsumed (s.sysMode o.ctx) = .ok (s2, stReady))
    (hb : s2.writeObj o.ctx o.core dst (copyBytes h dst false s.rtime) (s.sysMode o.ctx) stReady = (s3, none)) :
    s.ccopyDone id = (s3.copyImage h dst false).settleFlags id .ok := by
  simp only [State.ccopyDone, ho, hg, hk, hw, hf, hc, not_overlapping_of_apart hap, hd, hs, hb, Bool.false_and, Bool.or_self,
    Bool.false_eq_true, if_false, ne_eq, not_true_eq_false]

theorem ccopyDone_of_fork (hk : o.kind = .ccopy true src dst) (hfork : fld h 0xC 4 % 2 = 1) (hst : fld h 8 4 = stReady)
    (hb : s1.writeObj o.ctx o.core dst (copyBytes h dst true s.rtime) (s.sysMode o.ctx) stReady = (s2, none)) :
    s.ccopyDone id = (s2.copyImage h dst true).settleFlags id .ok := by
  simp only [State.ccopyDone, ho, hg, hk, hw, hf, hc, not_overlapping_of_apart hap, hd, hfork, hst, hb, Bool.or_self,
    Bool.false_eq_true, if_false, if_true, ne_eq, not_true_eq_false, Nat.one_ne_zero, decide_false, Bool.and_false]

end

/-! ### Pre-emption, saves and checkpoints (R280, R297, R298) -/

theorem Map.mem_of_get? {β : Type} {m : Map β} {k : Nat} {v : β} (h : Map.get? m k = some v) : (k, v) ∈ m := by
  induction m with
  | nil => cases h
  | cons e m ih =>
    rw [Map.get?_cons] at h
    split at h
    next hk => cases h; exact hk ▸ List.mem_cons_self
    next => exact List.mem_cons_of_mem _ (ih h)

/-- A team is listed among those of its cluster. -/
theorem mem_mates {s : State} {tid : Nat} {x t : Team} (hx : s.team? tid = some x) (hc : x.cluster = t.cluster) :
    tid ∈ (s.mates t).map Prod.fst :=
  List.mem_map.mpr ⟨(tid, x), List.mem_filter.mpr ⟨Map.mem_of_get? hx, by simpa using hc⟩, rfl⟩

/-- A group of a team that is let go on is not held, nor is any of its threads. -/
theorem unhold_lets_go (s : State) (tids : List Nat) : ∀ e ∈ (s.unhold tids).groups, e.2.team ∈ tids →
    e.2.susp = .none ∧ ∀ l ∈ e.2.threads, ∀ d v, l.2.wait ≠ some (.suspend none d v) := by
  intro e he hteam
  obtain ⟨x, -, rfl⟩ := List.mem_map.mp he
  by_cases hx : tids.contains x.2.team = true
  · rw [if_pos hx]
    refine ⟨rfl, fun l hl d v => ?_⟩
    obtain ⟨y, -, rfl⟩ := List.mem_map.mp hl
    split
    · exact nofun
    next hno => exact hno d v
  · rw [if_neg hx] at hteam
    exact absurd (List.contains_iff_mem.mpr hteam) hx

theorem preemption_stops {s : State} (hf : s.sel.flag = true) (hs : (s.team? s.sel.a).isSome) :
    ∃ t, exec .preemption s = .next t ∧ t = { s with groups := t.groups } ∧
    ∀ tm, s.team? s.sel.a = some tm → ∀ e ∈ t.groups, (s.team? e.2.team).any (fun x => x.cluster = tm.cluster) = true →
      e.2.susp = .none ∧ ∀ l ∈ e.2.threads, ∀ d v, l.2.wait ≠ some (.suspend none d v) := by
  obtain ⟨t, ht⟩ := Option.isSome_iff_exists.mp hs
  refine ⟨s.unhold ((s.mates t).map Prod.fst), ?_, rfl, fun tm htm e he hany => ?_⟩
  · change execPreemption s = _
    simp only [execPreemption, hf, ht, if_true]
  · cases ht.symm.trans htm
    obtain ⟨x, hx, hc⟩ := (Option.any_eq_true _ _).mp hany
    exact unhold_lets_go s _ e he (mem_mates hx (of_decide_eq_true hc))

/-- The groups of some teams are to be suspended for a reason. -/
def State.hold (s : State) (q : Nat → Bool) (why : Susp) : State :=
  { s with groups := s.groups.map fun e => if q e.2.team then (e.1, { e.2 with susp := why }) else e }

theorem susp_hold (s : State) (q : Nat → Bool) (why : Susp) : ∀ e ∈ (s.hold q why).groups, q e.2.team = true → e.2.susp = why := by
  intro e he hq
  obtain ⟨x, -, rfl⟩ := List.mem_map.mp he
  by_cases hx : q x.2.team = true
  · rw [if_pos hx]
  · rw [if_neg hx] at hq
    exact absurd hq hx

theorem preemption_holds {s : State} {g : Grid} {tid : Nat} {t : Team} {area : Nat × Nat} (hf : s.sel.flag = false)
    (hg : s.grid? s.sel.a = some g) (hst : g.st = .admittable) (hcls : g.r.cls ≠ 0) (he : s.energyFits g = true)
    (had : s.admitGrid s.sel.a = none)
    (hp : s.pickTeam g (s.allowedCores g.ctx g.r.cls g.r.mtx g.r.paired s.sel.a) = some (tid, t)) (ha : s.saveArea t.ctx t.core = .ok area)
    (hplace : (s.savePlace t.ctx area.1 area.2 ((s.mates t).map fun e => up256 (s.recordMax e.1 e.2)).sum).isSome = true) :
    exec .preemption s = .next (s.hold (fun team => (s.mates t).any fun m => m.1 = team) .preempt) := by
  have hsum : (s.mates t).foldl (fun n e => n + up256 (s.recordMax e.1 e.2)) 0 =
      ((s.mates t).map fun e => up256 (s.recordMax e.1 e.2)).sum := by
    rw [List.sum_eq_foldl, List.foldl_map]
  have hroom : (s.savePlace t.ctx area.1 area.2 ((s.mates t).map fun e => up256 (s.recordMax e.1 e.2)).sum).isNone = false := by
    rw [← Option.not_isSome, hplace]
    rfl
  change execPreemption s = _
  simp only [execPreemption, hf, hg, hst, had, hp, ha, hsum, hroom, he, hcls, ne_eq, not_true_eq_false, decide_false, Bool.not_true,
    Option.isSome_none, Bool.or_self, Bool.false_eq_true, if_false]
  rfl

section

variable {s : State} {t : Team} (ht : s.team? s.sel.a = some t)

include ht

theorem teamSave_of_ready {u : State} (hm : s.mates t = [(s.sel.a, t)]) (hg : s.groupsOf s.sel.a ≠ [])
    (hr : s.teamReady s.sel.a t .preempt = true) (hs : s.saveTeam s.sel.a t false = .ok u) :
    exec .teamSave s = .next (u.dropTeam s.sel.a) := by
  have hne : (s.groupsOf s.sel.a).isEmpty = false := by simpa using hg
  change execTeamSave s = _
  simp only [execTeamSave, ht, hm, List.all_cons, List.all_nil, List.any_cons, List.any_nil, hr, hne, List.foldl_cons, List.foldl_nil, hs,
    Bool.and_self, Bool.not_true, Bool.or_self, Bool.false_eq_true, if_false]

theorem checkpoint_holds (hp : t.paired = true) (hg : s.groupsOf s.sel.a ≠ []) (hn : ∀ e ∈ s.groupsOf s.sel.a, e.2.susp = .none) :
    exec .checkpoint s = .next (s.hold (fun team => decide (team = s.sel.a)) .checkpoint) := by
  have hne : (s.groupsOf s.sel.a).isEmpty = false := by simpa using hg
  have hall : (s.groupsOf s.sel.a).all (fun e => decide (e.2.susp = .none)) = true :=
    List.all_eq_true.mpr fun e he => decide_eq_true (hn e he)
  change execCheckpoint s = _
  simp only [execCheckpoint, ht, hp, hne, hall, Bool.not_true, Bool.or_self, Bool.false_eq_true, if_false, if_true, State.hold,
    decide_eq_true_eq]

end

/-! ### Restored teams (R280, R297) -/

theorem claimRecords_of_one_ok {s u : State} {v : Save} {c : Nat} {hs : List (List Byte)} (h : s.claimRecord v c = (u, .ok hs)) :
    s.claimRecords [v] [c] = (u, .ok [hs]) := by
  simp only [State.claimRecords, h]

theorem claimRecords_of_one_error {s u : State} {v : Save} {c : Nat} {e : XErr} (h : s.claimRecord v c = (u, .error e)) :
    s.claimRecords [v] [c] = (u, .error e) := by
  simp only [State.claimRecords, h]

/-- The saved team of a cluster of its own, put back at a core with the barriers of its cluster. -/
def State.putAlone (u : State) (v : Save) (hs : List (List Byte)) (c : Nat) (p : List Nat × Nat) : State :=
  let a := u.addCluster v.cluster.cols v.cluster.rows [c] v.cluster.nthr
  ({ a.2 with clusters := Map.mod a.1 (fun x => { x with bars := v.cluster.bars }) a.2.clusters } : State).putBack v hs c a.1 p

theorem objs_free {s : State} {v : Save} (hb : ∀ a ∈ v.objs, s.lineBusy v.ctx (a + 8) 4 = false) :
    (v.objs.any fun a => s.lineBusy v.ctx (a + 8) 4) = false :=
  List.any_eq_false.mpr fun a ha => by rw [hb a ha]; exact Bool.false_ne_true

/-- What a restore notes of each record: the saved teams `vs` are placed, and a checkpoint's is no longer asked for. -/
def noteRestored (key : Nat) (vs : Map Save) (k : Nat) (x : Save) : Save :=
  if x.ckpt then (if k = key then { x with team := { x.team with saving := false } } else x)
  else if vs.any fun y => y.1 = k then { x with placed := true } else x

theorem noteRestored_of_saved (key : Nat) (v : Save) {x : Save} (hx : x.ckpt = false) :
    noteRestored key [(key, v)] key x = { x with placed := true } := by
  unfold noteRestored
  rw [hx, if_neg Bool.false_ne_true, if_pos (by simp)]

section

variable {s u : State} {v : Save} {c : Nat} {p : List Nat × Nat} (hv : Map.get? s.saves s.sel.a = some v) (hk : v.ckpt = false)
  (hp : v.placed = false) (hg : s.gridFirst v = false) (hb : ∀ a ∈ v.objs, s.lineBusy v.ctx (a + 8) 4 = false)
  (hw : s.savedWith s.sel.a v = [(s.sel.a, v)]) (hr : s.restorePlace v [(s.sel.a, v)] = some ([c], [(c, p)]))

include hv hk hp hg hb hw hr

theorem teamRestore_of_claimed {hs : List (List Byte)} (hc : s.claimRecord v c = (u, .ok hs)) :
    exec .teamRestore s = .next { u.putAlone v hs c p with
      saves := Map.modAll (noteRestored s.sel.a [(s.sel.a, v)]) (u.putAlone v hs c p).saves } := by
  change execTeamRestore s = _
  simp only [execTeamRestore, hv, hk, hp, hg, objs_free hb, hw, hr, List.map_cons, List.map_nil, claimRecords_of_one_ok hc, Bool.or_self,
    Bool.false_eq_true, if_false, List.zip_cons_cons, List.zip_nil_right, List.foldl_cons, List.foldl_nil]
  rfl

theorem teamRestore_of_lost {x : Cause} (hc : s.claimRecord v c = (u, .error (.cause x))) :
    exec .teamRestore s = .next (u.recordLost s.sel.a v x) := by
  change execTeamRestore s = _
  simp only [execTeamRestore, hv, hk, hp, hg, objs_free hb, hw, hr, List.map_cons, List.map_nil, claimRecords_of_one_error hc, Bool.or_self,
    Bool.false_eq_true, if_false]

end

/-- Settles O43: each event by the lemma about it. The layout of a team record is the reading of log entry 20, and that the device's
writes wait for those that stand at their lines is that of log entry 73. -/
theorem continuationEvents : Obligations.ContinuationEvents := by
  unfold Obligations.ContinuationEvents
  refine ⟨?write, ?start, ?claim, ?reread, ?unread, ?twice, ?move, ?fork, fun s => preemption_stops, ?preempt,
    fun s t u ht hm hg hr hs => teamSave_of_ready ht hm hg hr hs, ?restore, ?checkpoint⟩
  case write =>
    intro s g obj live s1 s2 old hg hl hr hc bytes hf hw
    exact suspendWrite_of_ready hg hl hr hc rfl hf hw
  case start =>
    intro s g h t hg hs hb hd hm ht
    exact restoredGroupStart_of_drawn hg hs hb hd hm ht
  case claim =>
    intro s o g obj sf s1 h s2 ho hr hk hg hf hc hs
    rw [resumeClaim_first ho hr hg hk, claimFirst_of_ready hf hc hs]
  case reread =>
    intro s o g obj sf s1 h ho hr hk hg hf hc
    rw [resumeClaim_second ho hr hg hk]
    obtain ⟨base, he, hbase⟩ := claimSecond_of_read (id := s.sel.a) (g := g) (sf := sf) hf hc
    exact ⟨base, congrArg _ he, hbase⟩
  case unread =>
    intro s o g obj sf c ho hr hk hg hf hc
    rw [resumeClaim_second ho hr hg hk, claimSecond_of_cause hf hc]
  case twice =>
    intro s o g obj sf s1 h s2 st ho hr hk hg hf hc hs hn
    rw [resumeClaim_first ho hr hg hk, claimFirst_of_not_ready hf hc hs hn]
  case move =>
    intro s o g src dst s1 h s2 s3 ho hr hk hg hw hf hc hap hd hs hb
    rw [ccopyComplete_of_ready hr, ccopyDone_of_move ho hg hw hf hc hap hd hk hs hb]
  case fork =>
    intro s o g src dst s1 h s2 ho hr hk hg hw hf hc hap hd hfork hst hb
    rw [ccopyComplete_of_ready hr, ccopyDone_of_fork ho hg hw hf hc hap hd hk hfork hst hb]
  case preempt =>
    intro s g tid t area hf hg hst hcls he had hp ha hplace
    exact ⟨_, preemption_holds hf hg hst hcls he had hp ha hplace, rfl, susp_hold s _ _⟩
  case restore =>
    intro s v c p hv hk hp hg hb hw hr
    refine ⟨fun u hs hc => ⟨_, teamRestore_of_claimed hv hk hp hg hb hw hr hc, rfl, fun x hx hckpt => ?_⟩, fun u x hc =>
      teamRestore_of_lost hv hk hp hg hb hw hr hc⟩
    have hx : Map.get? (u.putAlone v hs c p).saves s.sel.a = some x := hx
    rw [Map.get?_modAll, hx, Option.map_some, noteRestored_of_saved _ _ hckpt]
  case checkpoint =>
    intro s t ht hp hg hn
    refine ⟨_, checkpoint_holds ht hp hg hn, rfl, fun e he hteam => ?_⟩
    exact susp_hold s _ _ e he (decide_eq_true hteam)

end Sys2Proof.Machine

end

section

/-! Proofs. Loads, stores, atomics and asynchronous instructions that issue (R160 to R169, R174 to R177, R186, R187). -/

namespace Sys2Proof.Machine

/-! ### Checks that a fresh identifier leaves alone -/

section

variable (s : State) (gid l : Nat) (a b : Opnd) (ofs : BitVec 17)

@[simp] theorem srcBytes_fresh (o : Opnd) (n : Nat) : s.fresh.2.srcBytes gid l o n = s.srcBytes gid l o n := by
  simp only [State.srcBytes, src64_fresh, srcRun_fresh]

@[simp] theorem eaGlobal_fresh : s.fresh.2.eaGlobal gid l a b ofs = s.eaGlobal gid l a b ofs := by
  simp only [State.eaGlobal, src64_fresh, src32_fresh]

@[simp] theorem ea_fresh (sp : Space) : s.fresh.2.ea sp gid l a b ofs = s.ea sp gid l a b ofs := by
  simp only [State.ea, State.eaLocal, eaGlobal_fresh, src32_fresh]

@[simp] theorem eaBad_fresh (sp : Space) (ea n al : Nat) : s.fresh.2.eaBad sp gid ea n al = s.eaBad sp gid ea n al := rfl

@[simp] theorem tooEarly_fresh (sp : Space) (x : Mx) (ordered : Bool) :
    s.fresh.2.tooEarly sp gid x ordered = s.tooEarly sp gid x ordered := rfl

@[simp] theorem group?_fresh : s.fresh.2.group? gid = s.group? gid := rfl

@[simp] theorem walkers_fresh (sc : Scope) : s.fresh.2.walkers sc = s.walkers sc := rfl

end

/-! ### Addresses that pass their checks (R161) -/

/-- The address of an access is aligned, and in scratchpad it is in range and does not come too early. -/
def State.accessOk (s : State) (sp : Space) (gid ea n al : Nat) (x : Mx) (ordered : Bool) : Prop :=
  ea % al = 0 ∧ (sp = .scratch → (s.scratch? (s.teamOf gid) ea n).isSome ∧ s.tooEarly sp gid x ordered = false)

theorem eaBad_of_accessOk {s : State} {sp : Space} {gid ea n al : Nat} {x : Mx} {ordered : Bool}
    (h : s.accessOk sp gid ea n al x ordered) : s.eaBad sp gid ea n al = none := by
  obtain ⟨hal, hsp⟩ := h
  rw [State.eaBad, if_neg (not_not_intro hal)]
  by_cases hs : sp = .scratch
  · have hin := (hsp hs).1
    rw [← Option.not_isNone, Bool.not_eq_true'] at hin
    simp only [hin, Bool.and_false, Bool.false_eq_true, if_false]
  · simp only [hs, decide_false, Bool.false_and, Bool.false_eq_true, if_false]

/-- Only accesses to scratchpad come too early. -/
theorem tooEarly_of_accessOk {s : State} {sp : Space} {gid ea n al : Nat} {x : Mx} {ordered : Bool}
    (h : s.accessOk sp gid ea n al x ordered) : s.tooEarly sp gid x ordered = false := by
  by_cases hs : sp = .scratch
  · exact (h.2 hs).2
  · simp [State.tooEarly, hs]

/-! ### Loads, stores and atomics (R160 to R166) -/

section

variable {s : State} {gid l : Nat} {sp : Space} {x : Mx} {d a b : Opnd}

theorem loadReq_of_accessOk (h : s.accessOk sp gid (s.ea sp gid l a b x.ofs) (Mx.bytes x) (Mx.bytes x) x false) :
    loadReq sp x d a b s.fresh.2 gid l = .ok
      { kind := .load sp (s.ea sp gid l a b x.ofs) (Mx.bytes x) x.sgn, ord := x.ord, scope := x.scope, h := x.h, ordered := false
        dst := some (d, widthRegs x.w.val) } := by
  simp only [loadReq, ea_fresh, eaBad_fresh, tooEarly_fresh, eaBad_of_accessOk h, tooEarly_of_accessOk h, Bool.false_eq_true, if_false]

theorem storeReq_of_accessOk (h : s.accessOk sp gid (s.ea sp gid l a b x.ofs) (Mx.bytes x) (Mx.bytes x) x true) :
    storeReq sp x d a b s.fresh.2 gid l = .ok
      { kind := .store sp (s.ea sp gid l a b x.ofs) (s.srcBytes gid l d (Mx.bytes x)), ord := x.ord, scope := x.scope, h := x.h } := by
  simp only [storeReq, ea_fresh, eaBad_fresh, tooEarly_fresh, srcBytes_fresh, eaBad_of_accessOk h, tooEarly_of_accessOk h,
    Bool.false_eq_true, if_false]

/-- The alignment of an atomic: that of a cell for `GMADD` and `GMEXIT` (R166). -/
def atomAlign (x : Mx) : Nat := if x.aop = 14 ∨ x.aop = 15 then 32 else Mx.bytes x

theorem atomAlign_eq (x : Mx) : (if 14 ≤ x.aop.toNat then 32 else Mx.bytes x) = atomAlign x := by
  have : 14 ≤ x.aop.toNat ↔ x.aop = 14 ∨ x.aop = 15 := by bv_omega
  simp only [atomAlign, this]

/-- What an atomic asks for: its operands, and the transform of its group. -/
def atomAsks (sp : Space) (x : Mx) (d a b : Opnd) (s : State) (gid l : Nat) : Req :=
  { kind := .atom sp (s.ea sp gid l a b x.ofs) x.aop (Mx.bytes x)
      (s.srcBytes gid l d (if x.aop = 12 then 2 * Mx.bytes x else Mx.bytes x)) x.ret
      ((s.group? gid).elim 0 Group.gmMode) ((s.group? gid).elim 0 Group.gmShape)
    ord := x.ord, scope := x.scope, h := x.h, dst := if x.ret then some (d, widthRegs x.w.val) else none }

theorem atomReq_of_accessOk (h : s.accessOk sp gid (s.ea sp gid l a b x.ofs) (Mx.bytes x) (atomAlign x) x true) :
    atomReq sp x d a b s.fresh.2 gid l = .ok (atomAsks sp x d a b s gid l) := by
  have hbad := eaBad_of_accessOk h
  rw [← atomAlign_eq] at hbad
  simp only [atomReq, ea_fresh, eaBad_fresh, tooEarly_fresh, srcBytes_fresh, group?_fresh, hbad, tooEarly_of_accessOk h,
    Bool.false_eq_true, if_false, atomAsks]
  cases s.group? gid <;> rfl

end

/-- The request of a `PREF`, which no check stops (R169). -/
def prefReq (x : Mx) (a b : Opnd) (s : State) (gid l : Nat) : Issue :=
  .ok { kind := .pref (s.eaGlobal gid l a b x.ofs) (x.w.val == 0), ordered := false }

theorem exec_pref (p : Pre) (x : Mx) (a b : Opnd) (s : State) :
    exec (.pref p x a b) s = issue (.pref p x a b) p State.startMem false true (prefReq x a b) s := by
  change execPref p x a b s = _
  unfold execPref
  rfl

/-- The request of a `TFENCE`, which no check stops (R168). -/
def tfenceReq (x : Mx) (s : State) (_ _ : Nat) : Issue := .ok { kind := .tfence (s.walkers x.scope), ordered := false }

theorem exec_tfence (p : Pre) (x : Mx) (s : State) :
    exec (.tfence p x) s = issue (.tfence p x) p State.startMem false true (tfenceReq x) s := by
  change execTfence p x s = _
  unfold execTfence
  rfl

/-- Settles O13: the checks of each instruction come to its request. -/
theorem loadsAndStoresIssue : Obligations.LoadsAndStoresIssue := by
  unfold Obligations.LoadsAndStoresIssue
  refine ⟨?ldg, ?lds, ?ldb, ?stg, ?sts, ?stb, ?pref, ?tfence⟩
  case ldg => exact fun p x d a b => issues_of_issue (fun _ => rfl) fun _ _ _ h => loadReq_of_accessOk ⟨h, nofun⟩
  case lds => exact fun p x d a b => issues_of_issue (fun _ => rfl) fun _ _ _ h => loadReq_of_accessOk ⟨h.1, fun _ => h.2⟩
  case ldb => exact fun p x d a b => issues_of_issue (fun _ => rfl) fun _ _ _ h => loadReq_of_accessOk ⟨h, nofun⟩
  case stg => exact fun p x d a b => issues_of_issue (fun _ => rfl) fun _ _ _ h => storeReq_of_accessOk ⟨h, nofun⟩
  case sts => exact fun p x d a b => issues_of_issue (fun _ => rfl) fun _ _ _ h => storeReq_of_accessOk ⟨h.1, fun _ => h.2⟩
  case stb => exact fun p x d a b => issues_of_issue (fun _ => rfl) fun _ _ _ h => storeReq_of_accessOk ⟨h, nofun⟩
  case pref =>
    intro p x a b
    refine issues_of_issue (exec_pref p x a b) fun s gid l _ => ?_
    rw [prefReq, eaGlobal_fresh]
    rfl
  case tfence =>
    intro p x
    refine issues_of_issue (exec_tfence p x) fun s gid l _ => ?_
    rw [tfenceReq, walkers_fresh]

/-- Settles O14: the checks of each atomic come to its request. -/
theorem atomicsIssue : Obligations.AtomicsIssue := by
  unfold Obligations.AtomicsIssue
  refine ⟨?atomg, ?atoms, ?atomb⟩
  case atomg => exact fun p x d a b => issues_of_issue (fun _ => rfl) fun _ _ _ h => atomReq_of_accessOk ⟨h, nofun⟩
  case atoms => exact fun p x d a b => issues_of_issue (fun _ => rfl) fun _ _ _ h => atomReq_of_accessOk ⟨h.1, fun _ => h.2⟩
  case atomb => exact fun p x d a b => issues_of_issue (fun _ => rfl) fun _ _ _ h => atomReq_of_accessOk ⟨h, nofun⟩

/-! ### Asynchronous instructions (R174 to R177, R186, R187) -/

/-- An instruction of the frame `asyncIssue` issues what its checks ask for. -/
theorem issuesAsync_of_asyncIssue {i : Instr} {p : Pre} {d : Opnd} {ok : State → Nat → Nat → Prop} {r : State → Nat → Nat → AReq}
    {f : State → Nat → Nat → Except LaneRes AReq} (he : ∀ s, exec i s = asyncIssue i p d f s)
    (hf : ∀ s gid l, ok s gid l → f s gid l = .ok (r s gid l)) : IssuesAsync i p d ok r := by
  intro s c g on off s1 h hst hfree hok
  rw [he]
  exact asyncIssue_executes h hst hfree fun l hl => hf s1 c.gid l (hok l hl)

/-- The checks of R175 pass where every address is aligned and what lies in scratchpad is in range. -/
theorem cpyBad_eq_none {x : Cx} {dst src n : Nat} {bar : Option Nat} {out : Nat → Nat → Bool} (hd : dst % 16 = 0) (hs : src % 16 = 0)
    (hn : n % 16 = 0) (hmax : n ≤ 2 ^ 30) (hdst : x.dsp = .scratch → out dst n = false) (hsrc : x.ssp = .scratch → out src n = false)
    (hbar : ∀ q ∈ bar, q % 16 = 0 ∧ out q 16 = false) : cpyBad x dst src n bar out = none := by
  have hfar {sp : Space} {q : Nat} (h : sp = .scratch → out q n = false) : (decide (sp = .scratch) && out q n) = false := by
    by_cases hsp : sp = .scratch
    · rw [h hsp, Bool.and_false]
    · rw [decide_eq_false hsp, Bool.false_and]
  have hal : (bar.any fun q => decide (q % 16 ≠ 0)) = false := by
    rw [Option.any_eq_false]
    intro q hq
    simp only [(hbar q hq).1, ne_eq, not_true_eq_false, decide_false]
  have hin : (bar.any fun q => out q 16) = false := by
    rw [Option.any_eq_false]
    intro q hq
    rw [(hbar q hq).2]
  simp only [cpyBad, hd, hs, hn, hal, hfar hdst, hfar hsrc, hin, Nat.not_lt.mpr hmax, ne_eq, not_true_eq_false, Bool.false_eq_true, if_false]

theorem isNone_of_isSome {α : Type} {o : Option α} (h : o.isSome) : o.isNone = false := by
  rw [← Option.not_isSome, h]
  rfl

/-- The checks and the request of a copy (R175). -/
def cpyReq (x : Cx) (a b : Opnd) (s : State) (gid l : Nat) : Except LaneRes AReq :=
  let ad (sp : Space) (k : Nat) : Nat :=
    if sp = .global then (s.src64 gid l (a.plus k) false).toNat else (s.src32 gid l (a.plus k)).toNat
  let n := (s.src32 gid l b).toNat
  let bar := s.barOpnd gid l x.bar
  match cpyBad x (ad x.dsp 0) (ad x.ssp 2) n bar fun q k => (s.scratch? (s.teamOf gid) q k).isNone with
  | some (c, q) => .error (.trap c q)
  | none => .ok ⟨.copy x.ssp x.dsp (ad x.ssp 2) (ad x.dsp 0) n, bar, x.bytes, x.par, x.csc, x.h⟩

/-- The checks and the request of a bank stream (R186). -/
def bankReq (x : BkX) (a b : Opnd) (s : State) (gid l : Nat) : Except LaneRes AReq :=
  let r (k : Nat) : Nat := (s.src32 gid l (a.plus k)).toNat
  match [r 0, r 1, r 2].find? fun q => q % (4 * x.ty.regs) ≠ 0 with
  | some q => .error (.trap .misaligned q)
  | none =>
    if 2 ^ 24 < r 3 then .error (.trap .illegalOperand 0)
    else .ok ⟨.bank x (r 0) (r 1) (r 2) (if x.sc then s.srcAny gid l x.ty b else 0) (r 3), none, false, false, x.csc, x.h⟩

/-- The check and the request of a re-stripe (R187). -/
def restripeReq (x : RsX) (a b : Opnd) (s : State) (gid l : Nat) : Except LaneRes AReq :=
  let va := (s.src64 gid l a false).toNat
  if va % 2 ^ 16 ≠ 0 then .error (.trap .misaligned va)
  else .ok ⟨.restripe va (x.npg.toNat + 1) (s.src32 gid l b) 0 0, none, false, false, x.csc, x.h⟩

section

variable (p : Pre) (d a b : Opnd) (s : State)

theorem exec_cpy (x : Cx) : exec (.cpy p x d a b) s = asyncIssue (.cpy p x d a b) p d (cpyReq x a b) s := by
  change execCpy p x d a b s = _
  unfold execCpy
  rfl

theorem exec_bankop (x : BkX) : exec (.bankop p x d a b) s = asyncIssue (.bankop p x d a b) p d (bankReq x a b) s := by
  change execBankop p x d a b s = _
  unfold execBankop
  rfl

theorem exec_restripe (x : RsX) : exec (.restripe p x d a b) s = asyncIssue (.restripe p x d a b) p d (restripeReq x a b) s := by
  change execRestripe p x d a b s = _
  unfold execRestripe
  rfl

end

/-- Settles O16: the checks of each instruction come to its request. -/
theorem asyncOperationsIssue : Obligations.AsyncOperationsIssue := by
  unfold Obligations.AsyncOperationsIssue
  refine ⟨?cpy, ?tload, ?tstore, ?bankop, ?restripe⟩
  case cpy =>
    intro p x d a b
    refine issuesAsync_of_asyncIssue (exec_cpy p d a b · x) fun s gid l hok => ?_
    obtain ⟨hd, hs, hn, hmax, hdst, hsrc, hbar⟩ := hok
    dsimp only [cpyReq]
    rw [cpyBad_eq_none hd hs hn hmax (fun h => isNone_of_isSome (hdst h)) (fun h => isNone_of_isSome (hsrc h))]
    · rfl
    · intro q hq
      by_cases hnul : x.bar = .nul
      · simp [State.barOpnd, hnul] at hq
      · obtain rfl : (s.src32 gid l x.bar).toNat = q := by simpa [State.barOpnd, hnul] using hq
        exact ⟨(hbar hnul).1, isNone_of_isSome (hbar hnul).2⟩
  case tload => exact fun p x d a b r => issuesAsync_of_asyncIssue (fun _ => rfl) fun _ _ _ h => h
  case tstore => exact fun p x d a b r => issuesAsync_of_asyncIssue (fun _ => rfl) fun _ _ _ h => h
  case bankop =>
    intro p x d a b
    refine issuesAsync_of_asyncIssue (exec_bankop p d a b · x) fun s gid l hok => ?_
    obtain ⟨h0, h1, h2, hmax⟩ := hok
    simp only [bankReq, List.find?_cons, List.find?_nil, h0, h1, h2, ne_eq, not_true_eq_false, decide_false, Nat.not_lt.mpr hmax, if_false]
  case restripe =>
    intro p x d a b
    refine issuesAsync_of_asyncIssue (exec_restripe p d a b · x) fun s gid l hok => ?_
    simp only [restripeReq, hok, ne_eq, not_true_eq_false, if_false]

end Sys2Proof.Machine
end

section

/-! Proofs. Byte-counting barriers (R181 to R183). A lane of `BWAIT` reads its operands after the lanes before it have written the
barrier's state word, and the destination may be a uniform register that is also a source: there a later lane reads what an earlier one
wrote. -/

namespace Sys2Proof.Machine

/-! ### Updates lane by lane (R181) -/

/-- Each lane names a barrier that is aligned and in range and a value that is not bad, and updates it: from `t k` to `t (k + 1)`. -/
def BarLanes (gid : Nat) (a v : Opnd) (bad : Word → Prop) (f : Word → BBar → BBar) (on : List Nat) (t : Nat → State) (ph : Nat → Nat) :
    Prop :=
  ∀ k, k < on.length →
    ((t k).src32 gid (on.getD k 0) a).toNat % 16 = 0 ∧
    (t k).scratch? ((t k).teamOf gid) ((t k).src32 gid (on.getD k 0) a).toNat 16 = some (ph k) ∧
    ¬ bad ((t k).src32 gid (on.getD k 0) v) ∧
    t (k + 1) = (t k).updBar (ph k) (f ((t k).src32 gid (on.getD k 0) v))

theorem barBad_of_inRange {s : State} {gid ad ph : Nat} (hal : ad % 16 = 0) (hph : s.scratch? (s.teamOf gid) ad 16 = some ph) :
    s.barBad gid ad = none := by
  rw [State.barBad, State.eaBad, if_neg (not_not_intro hal), hph]
  rfl

theorem barUpdate_chain {i : Instr} {a v : Opnd} {bad : Word → Bool} {f : Word → BBar → BBar} {c : Slot} {g : Group} {on : List Nat}
    (hne : on ≠ []) (hm : (i.need g.w).mode = .thread) {t : Nat → State} {ph : Nat → Nat}
    (ht : BarLanes c.gid a v (fun w => bad w = true) f on t ph) :
    barUpdate i a bad v f (t 0) c g on = (t on.length, on.map fun l => (l, .next)) := by
  refine perLane_thread_chain hne hm fun k hk => ?_
  obtain ⟨hal, hph, hbad, hnext⟩ := ht k hk
  rw [Bool.not_eq_true] at hbad
  simp only [barBad_of_inRange hal hph, hbad, hph, hnext, Bool.false_eq_true, if_false]

section

variable {p : Pre} {a b : Opnd} {s : State} {c : Slot} {g : Group} {on off : List Nat} {t : Nat → State} {ph : Nat → Nat}

theorem binit_of_lanes (h : Executes (.binit p a b) p s c g on off (t 0)) (ht : BarLanes c.gid a b (fun w => w = 0 ∨ 65535 < w.toNat)
    (fun w _ => ⟨w.toNat, w.toNat, 0, 0, 0⟩) on t ph) : exec (.binit p a b) s = .next ((t on.length).goOn c.gid off on) := by
  change execBinit p a b s = _
  refine inSlot_start_next h rfl (barUpdate_chain h.ran rfl (ph := ph) fun k hk => ?_)
  obtain ⟨hal, hph, hbad, hnext⟩ := ht k hk
  refine ⟨hal, hph, fun h => hbad ?_, hnext⟩
  simpa [← BitVec.toNat_inj] using h

theorem bexp_of_lanes (h : Executes (.bexp p a b) p s c g on off (t 0))
    (ht : BarLanes c.gid a b (fun _ => False) (fun w x => x.expect w) on t ph) :
    exec (.bexp p a b) s = .next ((t on.length).goOn c.gid off on) := by
  change execBexp p a b s = _
  refine inSlot_start_next h rfl (barUpdate_chain h.ran rfl (ph := ph) fun k hk => ?_)
  obtain ⟨hal, hph, -, hnext⟩ := ht k hk
  exact ⟨hal, hph, Bool.false_ne_true, hnext⟩

theorem barr_of_lanes (h : Executes (.barr p a) p s c g on off (t 0)) (hst : ∀ l ∈ on, (t 0).storesPending c.gid l = false)
    (ht : BarLanes c.gid a .nul (fun _ => False) (fun _ x => x.arrive) on t ph) :
    exec (.barr p a) s = .next ((t on.length).goOn c.gid off on) := by
  change execBarr p a s = _
  refine inSlot_start_next h rfl ((afterStores_of_performed hst).trans (barUpdate_chain h.ran rfl (ph := ph) fun k hk => ?_))
  obtain ⟨hal, hph, -, hnext⟩ := ht k hk
  exact ⟨hal, hph, Bool.false_ne_true, hnext⟩

end

/-! ### Waits for a phase that has passed (R183) -/

/-- What the `BWAIT`s of the lanes `ls` leave where each finds its phase passed: an acquire, then their state words. -/
def State.bwaited (s : State) (core gid : Nat) (d : Opnd) (st : Nat → Word) (ls : List Nat) : State :=
  ls.foldl (fun t l => t.dst32 gid l d (st l)) (if ls.isEmpty then s else s.acquire core .clu)

theorem acquire_dst32 (s : State) (core gid l : Nat) (sc : Scope) (d : Opnd) (w : Word) :
    (s.dst32 gid l d w).acquire core sc = (s.acquire core sc).dst32 gid l d w := by
  rw [dst32_eq, dst32_eq]
  unfold State.acquire
  split <;> rfl

section

variable (s : State) (core gid : Nat) (d : Opnd) (st : Nat → Word) (ls : List Nat)

theorem acquire_foldl_dst32 (sc : Scope) : (ls.foldl (fun t l => t.dst32 gid l d (st l)) s).acquire core sc =
    ls.foldl (fun t l => t.dst32 gid l d (st l)) (s.acquire core sc) := by
  induction ls generalizing s with
  | nil => rfl
  | cons l ls ih => rw [List.foldl_cons, ih, acquire_dst32, List.foldl_cons]

theorem bwaited_append (l : Nat) :
    s.bwaited core gid d st (ls ++ [l]) = ((s.bwaited core gid d st ls).acquire core .clu).dst32 gid l d (st l) := by
  unfold State.bwaited
  rw [acquire_foldl_dst32, List.foldl_append]
  cases ls with
  | nil => rfl
  | cons k ls => simp only [List.cons_append, List.isEmpty_cons, Bool.false_eq_true, if_false, acquire_acquire, List.foldl_cons,
      List.foldl_nil]

/-- A lane whose turn is still to come sees none of the writes before it, where the destination is not uniform. -/
theorem same_bwaited {l : Nat} (hd : Opnd.laned d) (hl : l ∉ ls) :
    Same gid l (if ls.isEmpty then s else s.acquire core .clu) (s.bwaited core gid d st ls) := by
  unfold State.bwaited
  generalize (if ls.isEmpty then s else s.acquire core .clu) = u
  induction ls generalizing u with
  | nil => exact Same.refl _ _ _
  | cons k ls ih =>
    rw [List.mem_cons, not_or] at hl
    exact (Same.dst32 hl.1 hd u _).trans (ih hl.2 _)

theorem src32_bwaited {l : Nat} (hd : Opnd.laned d) (hl : l ∉ ls) (o : Opnd) :
    (s.bwaited core gid d st ls).src32 gid l o = s.src32 gid l o := by
  rw [(same_bwaited s core gid d st ls hd hl).src32]
  split
  · rfl
  · exact src32_acquire ..

/-- Apart from registers and the L1 of a core, the waits leave the state as it was. -/
theorem bwaited_eq : ∃ f : Group → Group, s.bwaited core gid d st ls =
    (if ls.isEmpty then s else s.acquire core .clu).modGroup gid f ∧ ∀ g, (f g).team = g.team ∧ (f g).core = g.core := by
  unfold State.bwaited
  generalize (if ls.isEmpty then s else s.acquire core .clu) = u
  induction ls generalizing u with
  | nil => exact ⟨fun g => g, (modGroup_self u gid).symm, fun _ => ⟨rfl, rfl⟩⟩
  | cons l ls ih =>
    obtain ⟨f, hf, hk⟩ := ih (u.dst32 gid l d (st l))
    rw [List.foldl_cons, hf, dst32_eq, modGroup_modGroup]
    refine ⟨_, rfl, fun g => ?_⟩
    have hw : (wrote d l (st l) g).team = g.team ∧ (wrote d l (st l) g).core = g.core := by cases d <;> exact ⟨rfl, rfl⟩
    exact ⟨(hk _).1.trans hw.1, (hk _).2.trans hw.2⟩

theorem teamOf_bwaited : (s.bwaited core gid d st ls).teamOf gid = s.teamOf gid := by
  obtain ⟨f, hf, hk⟩ := bwaited_eq s core gid d st ls
  rw [hf, State.teamOf, group?_modGroup, Option.map_map, show Group.team ∘ f = Group.team from funext fun g => (hk g).1]
  split
  · rfl
  · rw [group?_acquire, State.teamOf]

theorem coreOf_bwaited : (s.bwaited core gid d st ls).coreOf gid = s.coreOf gid := by
  obtain ⟨f, hf, hk⟩ := bwaited_eq s core gid d st ls
  rw [hf, coreOf_modGroup _ _ _ fun g => (hk g).2]
  split
  · rfl
  · rw [State.coreOf, group?_acquire, State.coreOf]

theorem scratch?_bwaited (tid a n : Nat) : (s.bwaited core gid d st ls).scratch? tid a n = s.scratch? tid a n := by
  obtain ⟨f, hf, -⟩ := bwaited_eq s core gid d st ls
  rw [hf]
  unfold State.acquire
  split
  · rfl
  · split <;> rfl

theorem bbar?_bwaited (tid a : Nat) : (s.bwaited core gid d st ls).bbar? tid a = s.bbar? tid a := by
  have hmem : (s.bwaited core gid d st ls).mem = s.mem := by
    obtain ⟨f, hf, -⟩ := bwaited_eq s core gid d st ls
    rw [hf]
    unfold State.acquire
    split
    · rfl
    · split <;> rfl
  simp only [State.bbar?, scratch?_bwaited, State.readPhys, hmem]

end

theorem teamOf_eq_entries (s : State) (gid : Nat) : s.teamOf gid = ((Map.get? s.entries gid).map Group.team).getD 0 := by
  unfold State.teamOf State.group? State.entries
  induction s.groups with
  | nil => rfl
  | cons e m ih =>
    rw [List.map_cons, Map.get?_cons, Map.get?_cons]
    split
    · rfl
    · exact ih

/-- The group of a slot is of its team in the state in which its instruction runs. -/
theorem Executes.teamOf {i : Instr} {p : Pre} {s : State} {c : Slot} {g : Group} {on off : List Nat} {s1 : State}
    (h : Executes i p s c g on off s1) : s1.teamOf c.gid = g.team := by
  have hs : s.teamOf c.gid = g.team := by rw [State.teamOf, h.grp]; rfl
  rw [teamOf_eq_entries, entries_mapNames h.mapped, ← teamOf_eq_entries, ← hs]
  unfold State.began
  split
  · exact foldl_keeps (fun t : State => t.teamOf c.gid) (fun _ _ => teamOf_modThread ..) _ _
  · rfl

/-- `BWAIT` in one lane. -/
def bwaitLane (d a b : Opnd) (s : State) (gid l : Nat) : State × LaneRes :=
  let ad := (s.src32 gid l a).toNat
  let par := (s.src32 gid l b).getLsbD 0
  match s.barBad gid ad, s.bbar? (s.teamOf gid) ad with
  | some c, _ => (s, .trap c ad)
  | none, none => (s, .trap .scratchRange ad)
  | none, some (_, x) =>
    if x.phase = par.toNat then (s, .wait (.bwait ad par d))
    else if x.overrun then (s, .trap .barrierOverrun ad)
    else ((s.acquire ((s.group? gid).elim 0 Group.core) .clu).dst32 gid l d (BitVec.ofNat 32 x.st), .next)

theorem exec_bwait (p : Pre) (d a b : Opnd) (s : State) :
    exec (.bwait p d a b) s = inSlot (.bwait p d a b) p s (withNames (.bwait p d a b) (perLane (.bwait p d a b) (bwaitLane d a b))) := by
  change execBwait p d a b s = _
  unfold execBwait
  rfl

section

variable {p : Pre} {d a b : Opnd} {s : State} {c : Slot} {g : Group} {on off : List Nat} {s1 : State} {bar : Nat → BBar}
  (h : Executes (.bwait p d a b) p s c g on off s1) (hd : Opnd.laned d)

include h hd

/-- A lane whose phase has passed acquires and writes its state word, whatever the lanes before it wrote. -/
theorem bwaitLane_bwaited {l : Nat} {x : BBar} {st : Nat → Word} {ls : List Nat} (hl : l ∉ ls) (hx : st l = BitVec.ofNat 32 x.st)
    (hal : (s1.src32 c.gid l a).toNat % 16 = 0) (hbar : (s1.bbar? g.team (s1.src32 c.gid l a).toNat).map Prod.snd = some x)
    (hphase : x.phase ≠ ((s1.src32 c.gid l b).getLsbD 0).toNat) (hover : x.overrun = false) :
    bwaitLane d a b (s1.bwaited g.core c.gid d st ls) c.gid l = (s1.bwaited g.core c.gid d st (ls ++ [l]), .next) := by
  obtain ⟨y, hy, rfl⟩ := Option.map_eq_some_iff.mp hbar
  obtain ⟨ph, hph, -⟩ := Option.map_eq_some_iff.mp hy
  have hteam := (teamOf_bwaited s1 g.core c.gid d st ls).trans h.teamOf
  have hcore := elim_core ((coreOf_bwaited s1 g.core c.gid d st ls).trans h.coreOf)
  have hbad := barBad_of_inRange hal (((congrArg (State.scratch? _ · _ 16) hteam).trans (scratch?_bwaited ..)).trans hph)
  rw [bwaited_append, hx]
  simp only [bwaitLane, src32_bwaited _ _ _ _ _ _ hd hl, hbad, hteam, bbar?_bwaited, hy, hphase, hover, hcore, Bool.false_eq_true,
    if_false]

/-- Where the destination is not a uniform register, every lane of `BWAIT` reads its own operands as they were (R183). -/
theorem bwait_of_laned (hb : ∀ l ∈ on, (s1.src32 c.gid l a).toNat % 16 = 0 ∧
      (s1.bbar? g.team (s1.src32 c.gid l a).toNat).map Prod.snd = some (bar l) ∧
      (bar l).phase ≠ ((s1.src32 c.gid l b).getLsbD 0).toNat ∧ (bar l).overrun = false) :
    exec (.bwait p d a b) s =
      .next ((s1.bwaited g.core c.gid d (fun l => BitVec.ofNat 32 (bar l).st) on).goOn c.gid off on) := by
  have hon : on.Nodup := h.on_eq ▸ h.nodup.filter _
  have hrun := perLane_thread_chain (i := .bwait p d a b) (f := bwaitLane d a b) (c := c) (g := g) h.ran rfl
    (t := fun n => s1.bwaited g.core c.gid d (fun l => BitVec.ofNat 32 (bar l).st) (on.take n)) fun n hn => by
      have hnew : on[n] ∉ on.take n := fun hmem => by
        obtain ⟨j, hj, hjn⟩ := List.mem_take_iff_getElem.mp hmem
        exact absurd (hon.getElem_inj_iff.mp hjn) (by omega)
      obtain ⟨hal, hbar, hphase, hover⟩ := hb _ (List.getElem_mem hn)
      rw [List.getD_eq_getElem _ _ hn, ← List.take_concat_get' _ _ hn]
      exact bwaitLane_bwaited h hd hnew rfl hal hbar hphase hover
  rw [exec_bwait]
  rw [List.take_zero, List.take_length] at hrun
  exact inSlot_withNames_next h hrun

end

/-! ### A uniform destination that is also a source -/

/-- Two threads of a team with scratchpad stand at one instruction; `s3` is 1, and the barrier at address 0 is in phase 0. -/
def twoWait : State :=
  { State.reset with
    groups := [(5, { queryGroup with s := [(3, 1)], threads := [(0, queryThread), (1, queryThread)] })]
    teams := [(1, { ctx := 0, core := 0, nthr := 2, w := 16, scrLen := 4096 })], cur := some { querySlot with lanes := [0, 1] } }

/-- `BWAIT s3, NUL, s3`: waits until the phase of the barrier at address 0 is not the parity that `s3` gives, and writes `s3`. -/
def waitUniform : Instr := .bwait {} (.s 3) .nul (.s 3)

theorem waitUniform_executes : Executes waitUniform {} twoWait { querySlot with lanes := [0, 1] }
    { queryGroup with s := [(3, 1)], threads := [(0, queryThread), (1, queryThread)] } [0, 1] [] twoWait :=
  ⟨rfl, rfl, by decide, by decide, by decide, by decide, by decide, by decide, rfl⟩

/-- Whether thread 1 waits after a step that goes on. -/
def secondWaits : Out → Bool
  | .next t => (t.thread 5 1).wait.isSome
  | _ => false

/-- Thread 0 writes the state word 0 to `s3`, and thread 1, which reads the parity 0 there, waits. -/
theorem secondWaits_waitUniform : secondWaits (exec waitUniform twoWait) = true := by decide

/-- Refutes O22: where the destination of `BWAIT` is a uniform register from which a later lane reads its parity, that lane waits, and the
statement has it go on. What the statement says of `BINIT`, `BEXP` and `BARR` holds (`binit_of_lanes`, `bexp_of_lanes`,
`barr_of_lanes`), and of `BWAIT` where the destination is not uniform (`bwait_of_laned`). -/
theorem not_byteBarriersComplete : ¬ Obligations.ByteBarriersComplete := by
  unfold Obligations.ByteBarriersComplete
  intro h
  obtain ⟨-, -, -, bwait⟩ := h
  have hsecond := congrArg secondWaits (bwait {} (.s 3) .nul (.s 3) _ _ _ _ _ _ waitUniform_executes (fun _ => ⟨0, 0, 0, 0, 0⟩)
    (by decide))
  exact absurd (hsecond.symm.trans secondWaits_waitUniform) (by decide)

end Sys2Proof.Machine
end

section

/-! Proofs. Memory stays canonical (log entry 3). Only `State.writePhys`, `State.wipe` and a reset change the bytes that a state lists.
Every other function of the model is followed here in the order of the model: a lemma `_mem` says that it leaves memory alone, a lemma
`_canon` that it keeps memory canonical, each from the lemmas about what it calls. These are the operations that the pages share. -/

open Sys2Proof Sys2Proof.Machine

namespace Sys2Proof.Machine

/-- The bytes that a state's memory lists stand in the canonical form. -/
abbrev State.Canon (s : State) : Prop := Memory.wf s.mem = true

theorem State.Canon.of_mem {s t : State} (h : s.Canon) (e : t.mem = s.mem) : t.Canon := by
  rwa [State.Canon, e]

theorem State.Canon.of_fst {α : Type} {r : State × α} {t : State} {x : α} (h : r.1.Canon) (e : r = (t, x)) : t.Canon := by
  rwa [e] at h

theorem State.Canon.ite {p : Prop} [Decidable p] {s t : State} (hs : s.Canon) (ht : t.Canon) :
    State.Canon (if p then s else t) := by
  split
  · exact hs
  · exact ht

/-- The two lemmas on folds are disjunctions, with no hypothesis about every step, so that `grind` can use them: the second case is the
step that it then refutes. -/
theorem foldl_mem {β : Type} {f : State → β → State} (s : State) (ls : List β) :
    (ls.foldl f s).mem = s.mem ∨ ∃ t b, (f t b).mem ≠ t.mem := by
  induction ls generalizing s with
  | nil => exact .inl rfl
  | cons b ls ih =>
    by_cases hb : (f s b).mem = s.mem
    · exact (ih (f s b)).imp_left (·.trans hb)
    · exact .inr ⟨s, b, hb⟩

theorem foldl_canon {β : Type} {f : State → β → State} {s : State} (h : s.Canon) (ls : List β) :
    (ls.foldl f s).Canon ∨ ∃ t b, t.Canon ∧ ¬ (f t b).Canon := by
  induction ls generalizing s with
  | nil => exact .inl h
  | cons b ls ih =>
    by_cases hb : (f s b).Canon
    · exact ih hb
    · exact .inr ⟨s, b, h, hb⟩

theorem writePhys_canon {s : State} (h : s.Canon) (a bs) : (s.writePhys a bs).Canon := wf_writePhys h a bs

theorem wipe_canon {s : State} (h : s.Canon) (rs) : (s.wipe rs).Canon := wf_wipe h rs

theorem foldl_mem_of {β : Type} {f : State → β → State} (hf : ∀ s b, (f s b).mem = s.mem) (s : State) (ls : List β) :
    (ls.foldl f s).mem = s.mem := foldl_keeps (fun s : State => s.mem) hf ls s

theorem bind_eq_ok {ε α β : Type} {f : α → Except ε β} {x : Except ε α} {y : β} (e : (x >>= f) = .ok y) :
    ∃ u, x = .ok u ∧ f u = .ok y := by
  cases x with
  | error => cases e
  | ok u => exact ⟨u, rfl, e⟩

theorem map_eq_ok {ε α β : Type} {f : α → β} {x : Except ε α} {y : β} (e : Except.map f x = .ok y) :
    ∃ u, x = .ok u ∧ f u = y := by
  cases x with
  | error => cases e
  | ok u => exact ⟨u, rfl, Except.ok.inj e⟩

/-- Every state that `gather` stops at has canonical memory. -/
def Got.Canon : Got → Prop
  | .all s _ | .sent s | .bad s _ _ => s.Canon

/-- A body of a slot's instruction keeps memory canonical. -/
abbrev BodyCanon (b : State → Slot → Group → List Nat → State × List (Nat × LaneRes)) : Prop :=
  ∀ s c g on, s.Canon → (b s c g on).1.Canon

/-! ### Parts of the state, registers and register blocks -/

@[simp] theorem touch_mem (s : State) (c d) : (s.touch c d).mem = s.mem := rfl

@[simp] theorem touchBelay_mem (s : State) (c core) : (s.touchBelay c core).mem = s.mem := by
  grind [State.touchBelay, touch_mem]

@[simp] theorem acquire_mem (s : State) (core sc) : (s.acquire core sc).mem = s.mem := by
  grind [State.acquire, modCore_mem]

@[simp] theorem lowerFlag_mem (s : State) (gid ex f) : (s.lowerFlag gid ex f).mem = s.mem := by
  grind [State.lowerFlag, modGroup_mem, foldl_mem]

@[simp] theorem doneA_mem (s : State) (id) : (s.doneA id).mem = s.mem := by
  grind [State.doneA, modOp_mem, lowerFlag_mem]

@[simp] theorem sweepOps_mem (s : State) : (s.sweepOps).mem = s.mem := rfl

@[simp] theorem settle_mem (s : State) (id st) : (s.settle id st).mem = s.mem := by
  grind [State.settle, doneA_mem, doneB_mem, modOp_mem]

@[simp] theorem settleFlags_mem (s : State) (id st) : (s.settleFlags id st).mem = s.mem := by
  grind [State.settleFlags, doneA_mem, doneB_mem, settle_mem]

@[simp] theorem shrink_mem (s : State) (gid k) : (s.shrink gid k).mem = s.mem := by
  grind [State.shrink, modGroup_mem, modCore_mem, foldl_mem]

@[simp] theorem reclaim_mem (s : State) (core gid) : (s.reclaim core gid).mem = s.mem := by
  grind [State.reclaim, shrink_mem, foldl_mem]

theorem drawBlock_mem {s t : State} {gid} (e : s.drawBlock gid = some t) : t.mem = s.mem := by
  grind [State.drawBlock, modGroup_mem, reclaim_mem, modCore_mem, foldl_mem]

theorem drawTo_mem {gid k n} {s t : State} (e : s.drawTo gid k n = some t) : t.mem = s.mem := by
  induction n generalizing s with
  | zero => cases e; rfl
  | succ n ih =>
    unfold State.drawTo at e
    split at e
    · cases e
    split at e
    · cases e
      rfl
    · obtain ⟨u, hu, he⟩ := Option.bind_eq_some_iff.mp e
      exact (ih he).trans (drawBlock_mem hu)

theorem mapNames_mem {s t : State} {gid ns} (e : s.mapNames gid ns = some t) : t.mem = s.mem := by
  unfold State.mapNames at e
  split at e
  · cases e
  dsimp only at e
  split at e
  · cases e
    rfl
  · obtain ⟨u, hu, rfl⟩ := Option.map_eq_some_iff.mp e
    exact (modGroup_mem ..).trans (drawTo_mem hu)

@[simp] theorem unmap_mem (s : State) (gid ns) : (s.unmap gid ns).mem = s.mem := rfl

@[simp] theorem dst32_mem (s : State) (gid l o w) : (s.dst32 gid l o w).mem = s.mem := by
  unfold State.dst32
  repeat' split
  all_goals grind [modGroup_mem, modThread_mem]

@[simp] theorem dstWait_mem (s : State) (gid l o w) : (s.dstWait gid l o w).mem = s.mem := by
  unfold State.dstWait
  dsimp only
  repeat' split
  all_goals grind [dst32_mem]

@[simp] theorem dstRun_mem (s : State) (gid l o ws) : (s.dstRun gid l o ws).mem = s.mem := by
  grind [State.dstRun, dst32_mem, foldl_mem]

@[simp] theorem setPair_mem (s : State) (gid k l b) : (s.setPair gid k l b).mem = s.mem := rfl

@[simp] theorem deliver_mem (s : State) (o ws) : (s.deliver o ws).mem = s.mem := by
  grind [State.deliver, dst32_mem, foldl_mem]

/-! ### Walks and accesses through translation -/

theorem readEpoch_mem {s t : State} {d o n p} {y} (e : s.readEpoch d o n p = .ok (t, y)) : t.mem = s.mem := by
  grind [State.readEpoch]

@[simp] theorem startWalks_mem (s : State) (home n) : (s.startWalks home n).mem = s.mem := by
  induction n generalizing s with
  | zero => rfl
  | succ n ih => grind [State.startWalks]

@[simp] theorem miss_mem (s : State) (ctx va ex lane again) : (s.miss ctx va ex lane again).mem = s.mem := by
  grind [State.miss, startWalks_mem]

@[simp] theorem walked_mem (s : State) (ctx va n ex lane) : (s.walked ctx va n ex lane).1.mem = s.mem := by
  grind [State.walked, miss_mem, foldl_mem]

@[simp] theorem cache_mem (s : State) (ctx f) : (s.cache ctx f).mem = s.mem := by
  grind [State.cache]

theorem noteLeaf_canon {s : State} (h : s.Canon) (ctx f write) : (s.noteLeaf ctx f write).Canon := by
  grind [State.noteLeaf, cache_mem, writePhys_canon]

@[simp] theorem nearFill_mem (s : State) (w home a) : (s.nearFill w home a).mem = s.mem := by
  grind [State.nearFill]

theorem refill_canon {s : State} (h : s.Canon) (w frame o die) : (s.refill w frame o die).Canon := by
  grind [State.refill, writePhys_canon, clearPoison_mem]

@[simp] theorem invalidate_mem (s : State) (w phys) : (s.invalidate w phys).mem = s.mem := by
  grind [State.invalidate]

theorem readPiece_canon {s t : State} {ctx va n p sys die} {y} (h : s.Canon)
    (e : s.readPiece ctx va n p sys die = .ok (t, y)) : t.Canon := by
  grind [State.readPiece, touch_mem, readEpoch_mem, nearFill_mem, refill_canon, noteLeaf_canon]

theorem writePiece_canon {s t : State} {ctx va bs sys die} (h : s.Canon) (e : s.writePiece ctx va bs sys die = .ok t) : t.Canon := by
  grind [State.writePiece, touch_mem, nearFill_mem, invalidate_mem, writePhys_canon, clearPoison_mem, noteLeaf_canon]

@[simp] theorem meets_mem (s : State) (ctx va n p sys die) : (s.meets ctx va n p sys die).mem = s.mem := by
  grind [State.meets, touch_mem, foldl_mem]

theorem gread_canon {s t : State} {ctx va n p sys die bs} (h : s.Canon) (e : s.gread ctx va n p sys die = .ok (t, bs)) : t.Canon := by
  refine List.foldlRecOn (motive := fun r : Except XErr (State × List Byte) => ∀ t bs, r = .ok (t, bs) → t.Canon) _ _ ?_ ?_ _ _ e
  · grind
  · grind [readPiece_canon]

theorem gwrite_canon {s t : State} {ctx va bs sys die} (h : s.Canon) (e : s.gwrite ctx va bs sys die = .ok t) : t.Canon := by
  refine List.foldlRecOn (motive := fun r : Except XErr State => ∀ t, r = .ok t → t.Canon) _ _ ?_ ?_ _ e
  · grind
  · grind [writePiece_canon]

theorem dwrite_canon {s t : State} {ctx va bs sys die} (h : s.Canon) (e : s.dwrite ctx va bs sys die = .ok t) : t.Canon := by
  grind [State.dwrite, gwrite_canon]

theorem cread_canon {s t : State} {ctx core va n} {y} (h : s.Canon) (e : s.cread ctx core va n = .ok (t, y)) : t.Canon := by
  grind [State.cread, gread_canon]

theorem cwrite_canon {s t : State} {ctx core va bs} (h : s.Canon) (e : s.cwrite ctx core va bs = .ok t) : t.Canon := by
  grind [State.cwrite, gwrite_canon]

/-! ### Groups, traps, the slot of an instruction and issue -/

@[simp] theorem trigger_mem (s : State) : (s.trigger).mem = s.mem := by
  grind [State.trigger]

@[simp] theorem setBarrier_mem (s : State) (tid k b) : (s.setBarrier tid k b).mem = s.mem := by
  grind [State.setBarrier, modTeam_mem]

@[simp] theorem leave_mem (s : State) (gid lanes pc) : (s.leave gid lanes pc).mem = s.mem := by
  grind [State.leave, modGroup_mem, modThread_mem, unmap_mem, foldl_mem]

@[simp] theorem advance_mem (s : State) (gid lanes) : (s.advance gid lanes).mem = s.mem := by
  unfold State.advance
  dsimp only
  repeat' split
  all_goals grind [leave_mem, modThread_mem, foldl_mem]

@[simp] theorem wake_mem (s : State) (gid l) : (s.wake gid l).mem = s.mem := by
  grind [State.wake, advance_mem]

@[simp] theorem freeWith_mem (s : State) (gid lanes) : (s.freeWith gid lanes).mem = s.mem := by
  grind [State.freeWith, advance_mem]

@[simp] theorem completePhase_mem (s : State) (tid k) : (s.completePhase tid k).mem = s.mem := by
  grind [State.completePhase, modGroup_mem, setBarrier_mem, wake_mem, modCore_mem, foldl_mem]

@[simp] theorem withdraw_mem (s : State) (gid l) : (s.withdraw gid l).mem = s.mem := by
  grind [State.withdraw, setBarrier_mem, modThread_mem]

@[simp] theorem withdrawAll_mem (s : State) (tid k) : (s.withdrawAll tid k).mem = s.mem := by
  grind [State.withdrawAll, withdraw_mem, foldl_mem]

@[simp] theorem checkPhase_mem (s : State) (tid k) : (s.checkPhase tid k).mem = s.mem := by
  grind [State.checkPhase, setBarrier_mem, completePhase_mem, withdrawAll_mem]

@[simp] theorem recount_mem (s : State) (tid) : (s.recount tid).mem = s.mem := by
  grind [State.recount, checkPhase_mem, foldl_mem]

@[simp] theorem checkReconv_mem (s : State) (gid) : (s.checkReconv gid).mem = s.mem := by
  grind [State.checkReconv, wake_mem, foldl_mem]

@[simp] theorem dropGroup_mem (s : State) (gid) : (s.dropGroup gid).mem = s.mem := by
  grind [State.dropGroup, shrink_mem]

@[simp] theorem dropTeam_mem (s : State) (tid) : (s.dropTeam tid).mem = s.mem := by
  grind [State.dropTeam, modCore_mem, dropGroup_mem, foldl_mem]

@[simp] theorem wakeWaitl_mem (s : State) (ctx ticket status) : (s.wakeWaitl ctx ticket status).mem = s.mem := by
  grind [State.wakeWaitl, dst32_mem, wake_mem, modCore_mem, foldl_mem]

@[simp] theorem retest_mem (s : State) : (s.retest).mem = s.mem := rfl

@[simp] theorem endGrid_mem (s : State) (gr status) : (s.endGrid gr status).mem = s.mem := by
  grind [State.endGrid, wakeWaitl_mem, modGrid_mem, retest_mem, dropTeam_mem, modCtx_mem, foldl_mem]

@[simp] theorem dropTeamOps_mem (s : State) (tid) : (s.dropTeamOps tid).mem = s.mem := by
  grind [State.dropTeamOps, modCore_mem, foldl_mem]

@[simp] theorem fatal_mem (s : State) (gid cause) : (s.fatal gid cause).mem = s.mem := by
  grind [State.fatal, dropTeamOps_mem, trigger_mem, dropTeam_mem, endGrid_mem, dropGroup_mem]

theorem takeFrame_canon {s : State} (h : s.Canon) (ctx core) : (s.takeFrame ctx core).1.Canon := by
  unfold State.takeFrame
  split
  · exact h
  · dsimp only
    split
    · exact h
    next e =>
      split at e
      · cases e
      next hr =>
        obtain ⟨u, hw, he⟩ := map_eq_ok e
        cases he
        have hu := dwrite_canon (gread_canon h hr) hw
        repeat' split
        all_goals grind [→ gread_canon]

@[simp] theorem awaitFrame_mem (s : State) (gid lanes va) : (s.awaitFrame gid lanes va).mem = s.mem := by
  grind [State.awaitFrame, modThread_mem, foldl_mem]

@[simp] theorem enterHandler_mem (s : State) (gid g handler lanes fr resume) :
    (s.enterHandler gid g handler lanes fr resume).mem = s.mem := by
  grind [State.enterHandler, modGroup_mem, modThread_mem, modCore_mem, foldl_mem]

theorem takeTrap_canon {s : State} (h : s.Canon) (gid lanes f) : (s.takeTrap gid lanes f).Canon := by
  unfold State.takeTrap
  split
  · exact h
  next g _ =>
  split
  · exact h.of_mem (fatal_mem ..)
  split
  · exact h.of_mem (fatal_mem ..)
  have ht := takeFrame_canon h g.ctx g.core
  split <;> (rename_i e; rw [e] at ht)
  · exact State.Canon.ite ht (ht.of_mem (awaitFrame_mem ..))
  · exact ht.of_mem (fatal_mem ..)
  · split
    · exact ht.of_mem (fatal_mem ..)
    next hw => exact (gwrite_canon ht hw).of_mem (enterHandler_mem ..)

theorem trapAt_canon {s : State} (h : s.Canon) (gid lanes c cls fault) : (s.trapAt gid lanes c cls fault).Canon := by
  unfold State.trapAt
  dsimp only
  repeat' split
  all_goals grind [takeTrap_canon]

@[simp] theorem dropOne_mem (s : State) (id) : (s.dropOne id).mem = s.mem := by
  grind [State.dropOne, modCore_mem, settle_mem]

@[simp] theorem dropHeld_mem (s : State) (gid lane id) : (s.dropHeld gid lane id).mem = s.mem := by
  grind [State.dropHeld, dropOne_mem, foldl_mem]

@[simp] theorem fail_mem (s : State) (id c) : (s.fail id c).mem = s.mem := by
  grind [State.fail, settle_mem, dropHeld_mem, foldl_mem]

theorem deliverDetached_canon {s : State} (h : s.Canon) (gid g l) : (s.deliverDetached gid g l).Canon := by
  grind [State.deliverDetached, modThread_mem, takeTrap_canon, foldl_canon]

theorem deliverFailure_canon {s : State} (h : s.Canon) (gid l) : (s.deliverFailure gid l).Canon := by
  unfold State.deliverFailure
  split
  · exact h
  split
  · exact h
  split
  · split
    · exact deliverDetached_canon h ..
    · exact h
  · dsimp only
    have drop (s : State) (ls : List Nat) := foldl_mem_of (f := fun s l => match s.failure? gid l with
        | some (id, _, _) => s.dropHeld gid l id
        | none => s) (by grind [dropHeld_mem]) s ls
    have take (s : State) (ls : List Nat) := foldl_mem_of (fun s l => withdraw_mem s gid l) s ls
    split
    · exact h.of_mem (drop ..)
    · generalize hu : State.takeTrap _ _ _ _ = u
      have hc : u.Canon := hu ▸ takeTrap_canon (h.of_mem ((take ..).trans (drop ..))) ..
      repeat' split
      · exact hc
      · exact hc.of_mem ((sweepOps_mem ..).trans (freeWith_mem ..))
      · exact hc

theorem freed_canon {s t : State} {g frame but} (h : s.Canon) (e : s.freed g frame but = .ok t) : t.Canon := by
  grind [State.freed, dwrite_canon]

theorem returnFrom_canon {s : State} (h : s.Canon) (gid lanes) : (s.returnFrom gid lanes).Canon := by
  unfold State.returnFrom
  split
  · split
    · exact h
    · split
      · exact h.of_mem (awaitFrame_mem ..)
      · exact h.of_mem (fatal_mem ..)
      next hr =>
        have hr := gread_canon h hr
        dsimp only
        split
        · exact hr.of_mem (fatal_mem ..)
        split
        · exact hr.of_mem (fatal_mem ..)
        · exact h.of_mem (awaitFrame_mem ..)
        next hf =>
          have hf := freed_canon hr hf
          repeat' split
          all_goals grind [leave_mem, foldl_mem, modThread_mem, modGroup_mem]
  · exact h

theorem freeFrame_canon {s : State} (h : s.Canon) (gid l) : (s.freeFrame gid l).Canon := by
  grind [State.freeFrame, fatal_mem, modThread_mem, freed_canon]

theorem trapLanes_canon {s : State} (h : s.Canon) (gid cls n ls) : (s.trapLanes gid cls n ls).Canon := by
  induction n generalizing s ls with
  | zero => exact h
  | succ n ih =>
    unfold State.trapLanes
    split
    · exact h
    · exact ih (trapAt_canon h ..) _

@[simp] theorem holdSlice_mem (s : State) (port at_ sl) : (s.holdSlice port at_ sl).mem = s.mem := by
  grind [State.holdSlice, modCore_mem]

theorem finish_canon {s : State} (h : s.Canon) (gid off rs) : (s.finish gid off rs).Canon := by
  grind [State.finish, holdSlice_mem, trapLanes_canon, leave_mem, modThread_mem, advance_mem, foldl_canon, foldl_mem]

theorem runLanes_canon {f : State → Nat → State × LaneRes} (hf : ∀ s l, s.Canon → (f s l).1.Canon) {s : State} (h : s.Canon) (ls) :
    (runLanes f s ls).1.Canon :=
  List.foldlRecOn (motive := fun r : State × List (Nat × LaneRes) => r.1.Canon) _ _ h fun r h l _ => hf r.1 l h

@[simp] theorem latchRtime_mem (s : State) (gid ls) : (s.latchRtime gid ls).mem = s.mem := by
  grind [State.latchRtime, modThread_mem, foldl_mem]

theorem perLane_canon {i f} (hf : ∀ s gid l, State.Canon s → (f s gid l).1.Canon) : BodyCanon (perLane i f) := by
  intro s c g on h
  unfold perLane
  split
  · split
    · exact h
    · exact hf s c.gid _ h
  · exact runLanes_canon (fun s l => hf s c.gid l) h on

theorem withNames_canon {i b} (hb : BodyCanon b) : BodyCanon (withNames i b) := by
  intro s c g on h
  unfold withNames
  dsimp only
  split
  next e => exact hb _ c g on (h.of_mem (mapNames_mem e))
  · exact h

theorem underLimit_canon {b} (hb : BodyCanon b) : BodyCanon (underLimit b) := by
  intro s c g on h
  unfold underLimit
  split
  · exact h
  · exact hb s c g on h

theorem afterStores_canon {b} (hb : BodyCanon b) : BodyCanon (afterStores b) := by
  intro s c g on h
  unfold afterStores
  split
  · exact h
  · exact hb s c g on h

@[simp] theorem raiseFlags_mem (s : State) (c a b) : (s.raiseFlags c a b).mem = s.mem := by
  grind [State.raiseFlags, modGroup_mem]

@[simp] theorem closeEx_mem (s : State) (gid ex fl) : (s.closeEx gid ex fl).mem = s.mem := by
  grind [State.closeEx, lowerFlag_mem]

theorem executing_canon {f} (hf : ∀ s : State, s.Canon → (f s).Canon) {s : State} (h : s.Canon) (c ex a b) :
    (s.executing c ex a b f).Canon := by
  have := hf { s.raiseFlags c a b with opening := ex :: (s.raiseFlags c a b).opening } (h.of_mem (raiseFlags_mem ..))
  rwa [State.executing, State.Canon, closeEx_mem]

@[simp] theorem number_mem (s : State) (gid ls) : (s.number gid ls).2.mem = s.mem := by
  grind [State.number, modThread_mem, foldl_mem]

@[simp] theorem addOp_mem (s : State) (o) : (s.addOp o).2.mem = s.mem := rfl

/-! ### Links, flits and the write-combining buffer -/

@[simp] theorem pump_mem (s : State) (peer plane) : (s.pump peer plane).mem = s.mem := rfl

@[simp] theorem enqueue_mem (s : State) (peer plane m) : (s.enqueue peer plane m).mem = s.mem := rfl

theorem send_mem {s t : State} {peer idx grp m} (e : s.send peer idx grp m = some t) : t.mem = s.mem := by
  obtain ⟨p, -, rfl⟩ := Option.map_eq_some_iff.mp e
  exact enqueue_mem ..

@[simp] theorem send_getD_mem (s : State) (peer idx grp m) : ((s.send peer idx grp m).getD s).mem = s.mem := by
  cases e : s.send peer idx grp m with
  | none => rfl
  | some t => exact send_mem e

theorem send_getD_canon {s d : State} (h : s.Canon) (hd : d.Canon) (peer idx grp m) : ((s.send peer idx grp m).getD d).Canon := by
  cases e : s.send peer idx grp m with
  | none => exact hd
  | some t => exact h.of_mem (send_mem e)

@[simp] theorem sendCtl_mem (s : State) (peer plane code arg) : (s.sendCtl peer plane code arg).mem = s.mem := by
  grind [State.sendCtl, enqueue_mem]

@[simp] theorem takeFlit_mem (s : State) (k code h') : (s.takeFlit k code h').mem = s.mem := by
  grind [State.takeFlit, modLink_mem]

@[simp] theorem flitIn_mem (s : State) (k code) : (s.flitIn k code).mem = s.mem := by
  grind [State.flitIn, takeFlit_mem]

@[simp] theorem sendOr_mem (s : State) (id o peer idx grp m) : (s.sendOr id o peer idx grp m).mem = s.mem := by
  grind [State.sendOr, touchBelay_mem, modOp_mem, send_mem, fail_mem]

@[simp] theorem drain_mem (s : State) (core key) : (s.drain core key).mem = s.mem := by
  unfold State.drain
  split
  · rfl
  next e _ =>
  extract_lets s1 torn live s2 s3
  have h1 : s1.mem = s.mem := modCore_mem ..
  have h3 : s3.mem = s.mem := (foldl_mem_of (fun _ _ => fail_mem ..) ..).trans ((touchBelay_mem ..).trans h1)
  clear_value s1 s3
  split
  · exact h1
  extract_lets sys m
  clear_value m
  split
  · exact h3
  split
  · exact (foldl_mem_of (fun _ _ => fail_mem ..) ..).trans h3
  next hs => exact (foldl_mem_of (fun _ _ => modOp_mem ..) ..).trans ((send_mem hs).trans h3)

@[simp] theorem drainIf_mem (s : State) (core t') : (s.drainIf core t').mem = s.mem := by
  grind [State.drainIf, drain_mem, foldl_mem]

@[simp] theorem drainThread_mem (s : State) (gid l) : (s.drainThread gid l).mem = s.mem := by
  grind [State.drainThread, drainIf_mem]

@[simp] theorem drainLine_mem (s : State) (core va) : (s.drainLine core va).mem = s.mem := by
  grind [State.drainLine, drainIf_mem]

@[simp] theorem collect_mem (s : State) (id o va bs) : (s.collect id o va bs).mem = s.mem := by
  unfold State.collect
  dsimp only
  repeat' split
  all_goals grind [modCore_mem, drain_mem]

@[simp] theorem sendMem_mem (s : State) (id) : (s.sendMem id).mem = s.mem := by
  grind [State.sendMem, sendOr_mem, collect_mem, drainLine_mem]

theorem beginOp_canon {start} (hs : ∀ s : State, s.Canon → ∀ id, (start s id).Canon) {s : State} (h : s.Canon) (id) :
    (s.beginOp start id).Canon := by
  unfold State.beginOp
  repeat' split
  all_goals grind [dropOne_mem, modOp_mem, foldl_mem, drainThread_mem]

theorem issueOp_canon {start} (hs : ∀ s : State, s.Canon → ∀ id, (start s id).Canon) {s : State} (h : s.Canon) (c g ex a b ls r) :
    (s.issueOp start c g ex a b ls r).Canon := by
  rw [issueOp_eq]
  exact beginOp_canon (s := { s with
    groups := (s.number c.gid ls).2.groups, ops := Map.put s.nextId (s.issuing c g ex a b ls r) s.ops, nextId := s.nextId + 1 }) hs h _

end Sys2Proof.Machine
end

section

/-! Proofs. Memory stays canonical under the accesses, the asynchronous operations, control and scheduling. -/

open Sys2Proof Sys2Proof.Machine

namespace Sys2Proof.Machine

/-! ### Accesses, atomics, fences and queue windows -/

@[simp] theorem occupy_mem (s : State) (b n) : (s.occupy b n).mem = s.mem := rfl

@[simp] theorem occupyAll_mem (s : State) (a n) : (s.occupyAll a n).mem = s.mem := by
  grind [State.occupyAll, occupy_mem, foldl_mem]

@[simp] theorem bankTouch_mem (s : State) (ctx a n) : (s.bankTouch ctx a n).mem = s.mem := by
  grind [State.bankTouch, touch_mem, foldl_mem]

theorem spaceRead_canon {s t : State} {sp gid ctx core a n p} {y} (h : s.Canon)
    (e : s.spaceRead sp gid ctx core a n p = .ok (t, y)) : t.Canon := by
  unfold State.spaceRead at e
  dsimp only at e
  repeat' split at e
  all_goals grind [bankTouch_mem, gread_canon]

theorem spaceWrite_canon {s t : State} {sp gid ctx core a bs} (h : s.Canon)
    (e : s.spaceWrite sp gid ctx core a bs = .ok t) : t.Canon := by
  unfold State.spaceWrite at e
  dsimp only at e
  repeat' split at e
  all_goals grind [gwrite_canon, writePhys_canon, clearPoison_mem, bankTouch_mem]

@[simp] theorem promoAt_mem (s : State) (core id ctx va sc) : (s.promoAt core id ctx va sc).mem = s.mem := by
  grind [State.promoAt]

@[simp] theorem notePromo_mem (s : State) (id o va) : (s.notePromo id o va).mem = s.mem := by
  grind [State.notePromo, promoAt_mem]

@[simp] theorem promoOver_mem (s : State) (core id ctx va n sc) : (s.promoOver core id ctx va n sc).mem = s.mem := by
  grind [State.promoOver, promoAt_mem, foldl_mem]

@[simp] theorem l1Store_mem (s : State) (core ctx va bs) : (s.l1Store core ctx va bs).mem = s.mem := by
  grind [State.l1Store, modCore_mem]

@[simp] theorem l1Drop_mem (s : State) (core ctx va) : (s.l1Drop core ctx va).mem = s.mem := by
  grind [State.l1Drop, modCore_mem]

@[simp] theorem gateAt_mem (s : State) (ctx va n ex lane) : (s.gateAt ctx va n ex lane).1.mem = s.mem := by
  grind [State.gateAt, walked_mem]

theorem l1Fill_canon {s : State} (h : s.Canon) (core ctx va) : (s.l1Fill core ctx va).Canon := by
  grind [State.l1Fill, modCore_mem, refill_canon]

theorem atomicAt_canon {s t : State} {o sp a aop n v mode shape y} (h : s.Canon)
    (e : s.atomicAt o sp a aop n v mode shape = .ok (t, y)) : t.Canon := by
  unfold State.atomicAt at e
  dsimp only at e
  split at e
  · cases e
  next hr =>
    have := spaceRead_canon h hr
    grind [spaceWrite_canon]

@[simp] theorem park_mem (s : State) (id o) : (s.park id o).mem = s.mem := by
  grind [State.park, modThread_mem, modOp_mem, foldl_mem]

@[simp] theorem loaded_mem (s : State) (id o n sgn bs) : (s.loaded id o n sgn bs).mem = s.mem := by
  grind [State.loaded, acquire_mem, doneA_mem, settle_mem, deliver_mem]

@[simp] theorem replGate_mem (s : State) (op src ctx va) : (s.replGate op src ctx va).1.mem = s.mem := by
  grind [State.replGate]

@[simp] theorem replGates_mem (s : State) (op src ctx vas) : (s.replGates op src ctx vas).1.mem = s.mem := by
  have := foldl_keeps (fun r : State × Bool => r.1.mem) (f := fun r va =>
    let (t, b) := r.1.replGate op src ctx va
    if b then ({ t with replQ := r.1.replQ }, r.2) else (t, false)) (by grind [replGate_mem]) vas (s, true)
  grind [State.replGates]

theorem storeDone_canon {s : State} (h : s.Canon) (id o va bs) : (s.storeDone id o va bs).Canon := by
  grind [State.storeDone, notePromo_mem, doneB_mem, l1Store_mem, settle_mem, escape_mem, spaceWrite_canon, fail_mem, park_mem]

theorem writeMem_canon {s : State} (h : s.Canon) (id o) : (s.writeMem id o).Canon := by
  grind [State.writeMem, acquire_mem, notePromo_mem, doneA_mem, doneB_mem, l1Store_mem, atomicAt_canon, settle_mem, escape_mem,
    spaceWrite_canon, deliver_mem, fail_mem, park_mem, storeDone_canon]

theorem performMem_canon {s : State} (h : s.Canon) (l1 id) : (s.performMem l1 id).Canon := by
  unfold State.performMem
  split
  · exact h
  extract_lets s1 s2
  have h1 : s1.Canon := by grind [meets_mem]
  have h2 : s2.Canon := by grind [bankTouch_mem]
  clear_value s1 s2
  dsimp only
  repeat' split
  all_goals grind [settleFlags_mem, → spaceRead_canon, nearFill_mem, writeMem_canon, l1Fill_canon, loaded_mem, noteLeaf_canon,
    replGate_mem, fail_mem, park_mem]

@[simp] theorem startFar_mem (s : State) (id o) : (s.startFar id o).mem = s.mem := by
  grind [State.startFar, sendMem_mem, loaded_mem]

theorem startMem_canon {s : State} (h : s.Canon) (id) : (s.startMem id).Canon := by
  grind [State.startMem, performMem_canon, miss_mem, fail_mem, park_mem, startFar_mem]

@[simp] theorem fenceEnd_mem (s : State) (gid x) : (s.fenceEnd gid x).mem = s.mem := by
  grind [State.fenceEnd, acquire_mem]

@[simp] theorem setWindow_mem (s : State) (gid l k q) : (s.setWindow gid l k q).mem = s.mem := rfl

@[simp] theorem countOne_mem (s : State) (gid l) : (s.countOne gid l).mem = s.mem := rfl

@[simp] theorem countDropped_mem (s : State) (gid l) : (s.countDropped gid l).mem = s.mem := by
  grind [State.countDropped, fresh_mem, countOne_mem, addOp_mem]

theorem push_mem {s t : State} {gid l k w h'} (e : s.push gid l k w h' = some t) : t.mem = s.mem := by
  grind [State.push, setWindow_mem, countOne_mem, countDropped_mem]

theorem pop_mem {s t : State} {gid l k h' old} {y} (e : s.pop gid l k h' old = some (t, y)) : t.mem = s.mem := by
  grind [State.pop, setWindow_mem, countOne_mem, countDropped_mem]

/-! ### Asynchronous operations, barriers and tickets -/

theorem wakeBwait_canon {s : State} (h : s.Canon) (ph) : (s.wakeBwait ph).Canon := by
  grind [State.wakeBwait, acquire_mem, trapLanes_canon, dstWait_mem, wake_mem, freeWith_mem, foldl_canon, foldl_mem]

theorem updBar_canon {s : State} (h : s.Canon) (ph f) : (s.updBar ph f).Canon := by
  grind [State.updBar, wakeBwait_canon, writePhys_canon]

theorem barUpdate_canon {s : State} (h : s.Canon) (i a bad v f c g on) : (barUpdate i a bad v f s c g on).1.Canon :=
  perLane_canon (fun s gid l h => by grind [updBar_canon]) s c g on h

@[simp] theorem freeSlot_mem (s : State) (core a) : (s.freeSlot core a).mem = s.mem := by
  grind [State.freeSlot, modCore_mem]

theorem putStatus_canon {s t : State} {ctx core st addrs} (h : s.Canon) (e : s.putStatus ctx core st addrs = .ok t) : t.Canon := by
  refine List.foldlRecOn (motive := fun r : Except XErr State => ∀ t, r = .ok t → t.Canon) _ _ ?_ ?_ _ e
  · grind
  · grind [dwrite_canon]

@[simp] theorem noteStopped_mem (s : State) (id) : (s.noteStopped id).mem = s.mem := by
  grind [State.noteStopped]

theorem conclude_canon {s : State} (h : s.Canon) (id st) : (s.conclude id st).Canon := by
  unfold State.conclude
  split
  · exact h
  extract_lets s1 s2 cut s3
  have h1 : s1.Canon := by grind [fail_mem, settle_mem]
  have h3 : s3.Canon := by
    refine List.foldlRecOn _ _ (h1.of_mem (modOp_mem ..)) fun s h e _ => ?_
    split
    next hs => exact putStatus_canon h hs
    · exact h
  clear_value s1 s3
  split
  · exact h1
  split
  next hs => exact (putStatus_canon h3 hs).of_mem (noteStopped_mem ..)
  · exact h3
  · exact h

theorem asyncEnd_canon {s : State} (h : s.Canon) (id st) : (s.asyncEnd id st).Canon := by
  have hc := conclude_canon h id st
  unfold State.asyncEnd
  split
  · exact h
  split
  case h_2 => exact h
  extract_lets s1 err s2 s3
  have h1 : s1.Canon := hc
  have h2 : s2.Canon := by grind [updBar_canon]
  have h3 : s3.Canon := by
    unfold s3
    split
    · exact List.foldlRecOn _ _ h2 fun s h r _ => h.of_mem (promoOver_mem ..)
    · exact h2
  clear_value s1 s3
  split
  · exact h
  split
  · exact h
  exact h3.of_mem ((doneA_mem ..).trans ((doneB_mem ..).trans (freeSlot_mem ..)))

theorem aRead_canon {s t : State} {o a sp ad n} {y} (h : s.Canon) (e : s.aRead o a sp ad n = .ok (t, y)) : t.Canon := by
  unfold State.aRead at e
  repeat' split at e
  all_goals grind [spaceRead_canon, gread_canon]

theorem aWrite_canon {s t : State} {o a sp ad bs} (h : s.Canon) (e : s.aWrite o a sp ad bs = .ok t) : t.Canon := by
  unfold State.aWrite at e
  repeat' split at e
  all_goals grind [gwrite_canon, writePhys_canon, clearPoison_mem, spaceWrite_canon]

theorem sendAsync_canon {s : State} (h : s.Canon) (id o peer idx m) : (s.sendAsync id o peer idx m).Canon := by
  grind [State.sendAsync, asyncEnd_canon, touchBelay_mem, modOp_mem, send_mem]

@[simp] theorem engineGate_mem (s : State) (o sp va n) : (s.engineGate o sp va n).1.mem = s.mem := by
  grind [State.engineGate, meets_mem, walked_mem]

theorem scatter_canon {s : State} (h : s.Canon) (id o a sp word wr bs runs) : (s.scatter id o a sp word wr bs runs).1.Canon := by
  induction runs generalizing s word wr bs with
  | nil => exact h
  | cons r runs ih => grind [State.scatter, sendAsync_canon, modOp_mem, drainLine_mem, aWrite_canon]

@[simp] theorem mayScatter_mem (s : State) (id o sp runs) : (s.mayScatter id o sp runs).1.mem = s.mem := by
  have key (ls : List (Nat × Nat)) := foldl_keeps (fun r : State × Bool => r.1.mem) (f := fun q r =>
    let (s, b) := q.1.engineGate o sp r.1 r.2
    (s, q.2 && b)) (by grind [engineGate_mem]) ls (s, true)
  grind [State.mayScatter, replGates_mem]

theorem gather_canon {s : State} (h : s.Canon) (id o a sp word bs runs) : (s.gather id o a sp word bs runs).Canon := by
  induction runs generalizing s bs with
  | nil => exact h
  | cons r runs ih =>
    unfold State.gather
    dsimp only
    repeat' split
    all_goals grind [Got.Canon, sendAsync_canon, modOp_mem, drainLine_mem, → aRead_canon, engineGate_mem, bankTouch_mem]

theorem sector_canon {s : State} (h : s.Canon) (word id) : (s.sector word id).Canon := by
  unfold State.sector
  split
  · exact h
  next o _ =>
  split
  case h_2 => exact h
  next a j _ =>
  split
  · exact h
  have hg := gather_canon h id o a (sectorNeed a j).1 word a.buf (runsOf (sectorNeed a j).1 ((sectorNeed a j).2.drop a.buf.length))
  split
  next hn =>
  rw [hn] at hg
  extract_lets
  split
  next e => rwa [e] at hg
  · exact h
  next s1 _ _ e =>
    have h1 : s1.Canon := by rwa [e] at hg
    clear e hg
    extract_lets todo
    clear_value todo
    repeat' split
    all_goals grind [asyncEnd_canon, modOp_mem, escape_mem, scatter_canon, mayScatter_mem]
  next s1 got e =>
    have h1 : s1.Canon := by rwa [e] at hg
    clear e hg
    split
    · exact asyncEnd_canon h1 ..
    extract_lets s2 s3
    have h3 : s3.Canon := by grind [modOp_mem, doneB_mem]
    clear_value s3
    repeat' split
    all_goals grind [asyncEnd_canon, doneB_mem, modOp_mem, escape_mem, scatter_canon, mayScatter_mem]

@[simp] theorem gathered_mem (s : State) (id bs) : (s.gathered id bs).mem = s.mem := rfl

@[simp] theorem scattered_mem (s : State) (id) : (s.scattered id).mem = s.mem := by
  grind [State.scattered, modOp_mem, escape_mem]

theorem bankStep_canon {s : State} (h : s.Canon) (id i) : (s.bankStep id i).Canon := by
  unfold State.bankStep
  split
  · exact h
  split
  case h_2 => exact h
  dsimp only
  split
  · grind [asyncEnd_canon, bankTouch_mem]
  next e =>
    obtain ⟨x, hx, e⟩ := bind_eq_ok e
    have hx : x.1.Canon := spaceRead_canon (by grind [bankTouch_mem]) hx
    split at e <;> obtain ⟨y, hy, e⟩ := bind_eq_ok e
    all_goals
      have hy : y.1.Canon := by grind [→ spaceRead_canon]
      split at e <;> obtain ⟨z, hz, e⟩ := bind_eq_ok e
      all_goals
        have hz : z.1.Canon := by grind [→ spaceRead_canon]
        have := spaceWrite_canon hz e
        grind [modOp_mem, escape_mem, doneB_mem]

@[simp] theorem lineMoved_mem (s : State) (old copies new) : (s.lineMoved old copies new).mem = s.mem := by
  grind [State.lineMoved]

theorem moveLine_canon {s : State} (h : s.Canon) (m o) : (s.moveLine m o).Canon := by
  grind [State.moveLine, touch_mem, lineMoved_mem, writePhys_canon, foldl_canon, foldl_mem]

theorem pageMoved_canon {s : State} (h : s.Canon) (m) : (s.pageMoved m).Canon := by
  grind [State.pageMoved, writePhys_canon]

theorem undoMove_canon {s : State} (h : s.Canon) (m) : (s.undoMove m).Canon := by
  grind [State.undoMove, moveLine_canon, foldl_canon]

theorem restripeLine_canon {s : State} (h : s.Canon) (id) : (s.restripeLine id).Canon := by
  unfold State.restripeLine
  split
  · exact h
  split
  case h_2 => exact h
  split
  · exact h
  extract_lets at_ go
  split
  · exact asyncEnd_canon h ..
  split
  · exact asyncEnd_canon h ..
  have hg := engineGate_mem s ‹Op› .global at_ 1
  split
  next e => exact h.of_mem (by rw [← hg, e])
  next t e =>
    have ht : t.Canon := h.of_mem (by rw [← hg, e])
    have hgo (s : State) (h : s.Canon) (m : Moving) : (go s m).Canon := by
      unfold go
      grind [doneB_mem, modOp_mem, pageMoved_canon, moveLine_canon]
    clear_value go
    repeat' split
    all_goals grind [asyncEnd_canon]

@[simp] theorem promiseOf_mem (s : State) (gid j) : (s.promiseOf gid j).2.mem = s.mem := by
  grind [State.promiseOf, freeNum_mem]

theorem startAsync_canon {s : State} (h : s.Canon) (id) : (s.startAsync id).Canon := by
  grind [State.startAsync, asyncEnd_canon]

theorem issueAsync_canon {s : State} (h : s.Canon) (c g ex l d x) : (s.issueAsync c g ex l d x).Canon := by
  unfold State.issueAsync
  dsimp only
  rw [State.Canon, dstRun_mem]
  refine issueOp_canon (fun s h id => startAsync_canon h id) ?_ ..
  rwa [State.Canon, modCore_mem, promiseOf_mem]

@[simp] theorem ticketAcquire_mem (s : State) (gid) : (s.ticketAcquire gid).mem = s.mem := rfl

@[simp] theorem pwaitNow_mem (s : State) (gid t' pr) : (s.pwaitNow gid t' pr).1.mem = s.mem := by
  grind [State.pwaitNow, freeNum_mem, ticketAcquire_mem]

/-! ### Control -/

@[simp] theorem arrive_mem (s : State) (gid l tid k a) : (s.arrive gid l tid k a).1.mem = s.mem := by
  grind [State.arrive, setBarrier_mem, modThread_mem, checkPhase_mem]

@[simp] theorem wfPair_mem (s : State) (gid l x ok) : (s.wfPair gid l x ok).mem = s.mem := by
  grind [State.wfPair, setPair_mem]

@[simp] theorem wfGot_mem (s : State) (gid l x d addr b start bs) : (s.wfGot gid l x d addr b start bs).1.mem = s.mem := by
  grind [State.wfGot, acquire_mem, dstWait_mem, wfPair_mem]

@[simp] theorem sendPoll_mem (s : State) (gid l sp addr n) : (s.sendPoll gid l sp addr n).mem = s.mem := by
  grind [State.sendPoll, sendOr_mem, drainLine_mem, addOp_mem]

theorem wfStep_canon {s : State} (h : s.Canon) (gid l x d addr b start) : (s.wfStep gid l x d addr b start).1.Canon := by
  grind [State.wfStep, spaceRead_canon, meets_mem, modThread_mem, walked_mem, wfGot_mem, sendPoll_mem, wfPair_mem, l1Drop_mem]

theorem wfFirst_canon {s : State} (h : s.Canon) (x d a b gid l) : (s.wfFirst x d a b gid l).1.Canon := by
  grind [State.wfFirst, wfStep_canon]

@[simp] theorem wfShare_mem (s : State) (gid l x ls) : (s.wfShare gid l x ls).mem = s.mem := by
  grind [State.wfShare, setPair_mem, foldl_mem]

@[simp] theorem wfOver_mem (s : State) (gid l x) : (s.wfOver gid l x).mem = s.mem := by
  grind [State.wfOver, wake_mem, wfShare_mem]

@[simp] theorem polled_mem (s : State) (id o l bs) : (s.polled id o l bs).mem = s.mem := by
  grind [State.polled, settle_mem, wfGot_mem, wfPair_mem, wfOver_mem, l1Drop_mem]

theorem bankPoll_canon {s : State} (h : s.Canon) (id o l a n) : (s.bankPoll id o l a n).Canon := by
  grind [State.bankPoll, spaceRead_canon, polled_mem, bankTouch_mem]

theorem wfAgain_canon {s : State} (h : s.Canon) (gid l) : (s.wfAgain gid l).Canon := by
  grind [State.wfAgain, wfOver_mem, wfStep_canon]

@[simp] theorem endTeam_mem (s : State) (tid) : (s.endTeam tid).mem = s.mem := by
  grind [State.endTeam, modGrid_mem, dropTeam_mem]

@[simp] theorem retireGroup_mem (s : State) (gid) : (s.retireGroup gid).mem = s.mem := by
  grind [State.retireGroup, endTeam_mem, dropGroup_mem, recount_mem]

theorem exitDone_canon {s : State} (h : s.Canon) (gid l) : (s.exitDone gid l).Canon := by
  grind [State.exitDone, checkReconv_mem, modThread_mem, retireGroup_mem, freeFrame_canon, recount_mem]

theorem returnAll_canon {s : State} (h : s.Canon) (gid lanes) : (s.returnAll gid lanes).Canon := by
  grind [State.returnAll, returnFrom_canon, foldl_canon]

@[simp] theorem getSr_mem (s : State) (gid l n) : (s.getSr gid l n).2.mem = s.mem := by
  grind [State.getSr, modThread_mem]

@[simp] theorem setSr_mem (s : State) (gid n v) : (s.setSr gid n v).mem = s.mem := by
  unfold State.setSr
  dsimp only
  repeat' split
  all_goals grind [modGroup_mem, modCtx_mem]

/-! ### Launch, placement and admission -/

theorem readTable_canon {s t : State} {ctx die x y} (h : s.Canon) (e : s.readTable ctx die x = .ok (t, y)) : t.Canon := by
  unfold State.readTable at e
  split at e
  · cases e; exact h
  · dsimp only at e
    split at e
    · cases e
    next hr =>
      have := gread_canon h hr
      grind [gread_canon]

theorem freshScratch_canon {s : State} (h : s.Canon) (core base len ctx) : (s.freshScratch core base len ctx).Canon := by
  grind [State.freshScratch, writePhys_canon, freeNum_mem, foldl_canon]

@[simp] theorem freshTiles_mem (s : State) (core ctx) : (s.freshTiles core ctx).1.mem = s.mem := by
  unfold State.freshTiles
  split
  · refine foldl_keeps (fun r : State × Map Tile => r.1.mem) (fun r t => ?_) _ (s, [])
    exact foldl_keeps (fun r : State × Map DWord => r.1.mem) (by exact fun _ _ => rfl) t.2.e (r.1, [])
  · rfl

@[simp] theorem addGroup_mem (s : State) (gid i) : (s.addGroup gid i).mem = s.mem := by
  unfold State.addGroup
  dsimp only
  split
  next e => rw [mapNames_mem e]
  · rfl

@[simp] theorem addTo_mem (s : State) (tid t') : (Team.addTo s tid t').mem = s.mem := by
  grind [Team.addTo, touch_mem]

theorem placeTeam_canon {s : State} (h : s.Canon) (gr g idx core cl rank p) : (s.placeTeam gr g idx core cl rank p).Canon := by
  grind [State.placeTeam, acquire_mem, fresh_mem, addTo_mem, freshTiles_mem, addGroup_mem, freshScratch_canon, foldl_canon]

@[simp] theorem addCluster_mem (s : State) (cols rows cores nthr) : (s.addCluster cols rows cores nthr).2.mem = s.mem := rfl

theorem placeNext_canon {s t : State} {gr} (h : s.Canon) (e : s.placeNext gr = some t) : t.Canon := by
  unfold State.placeNext at e
  dsimp only at e
  split at e
  · cases e
  split at e
  · obtain ⟨x, -, rfl⟩ := Option.map_eq_some_iff.mp e
    exact (placeTeam_canon (h.of_mem (addCluster_mem ..)) ..).of_mem (modGrid_mem ..)
  · obtain ⟨x, -, rfl⟩ := Option.map_eq_some_iff.mp e
    exact (List.foldlRecOn _ _ (h.of_mem (addCluster_mem ..)) fun s h x _ => placeTeam_canon h ..).of_mem (modGrid_mem ..)

theorem placeAll_canon {gr n} {s t : State} (h : s.Canon) (e : s.placeAll gr n = some t) : t.Canon := by
  induction n generalizing s with
  | zero => cases e
  | succ n ih => grind [State.placeAll, placeNext_canon]

@[simp] theorem emptied_mem (s : State) : (s.emptied).mem = s.mem := rfl

theorem queueRecord_canon {s t : State} {ctx die bs gang} {y} (h : s.Canon)
    (e : s.queueRecord ctx die bs gang = .ok (t, y)) : t.Canon := by
  grind [State.queueRecord, readTable_canon, fresh_mem, modCtx_mem]

theorem admitGrid_canon {s t : State} {gr} (h : s.Canon) (e : s.admitGrid gr = some t) : t.Canon := by
  unfold State.admitGrid at e
  split at e
  · cases e
  split at e
  · cases e
  dsimp only at e
  split at e
  · split at e
    · cases e
    · exact placeAll_canon (h.of_mem (modGrid_mem ..)) e
  · obtain ⟨u, hu, rfl⟩ := Option.map_eq_some_iff.mp e
    exact h.of_mem (modGrid_mem ..)

end Sys2Proof.Machine
end

section

/-! Proofs. Memory stays canonical under node records, saved teams and what the fabric, collectives and links do. -/

open Sys2Proof Sys2Proof.Machine

namespace Sys2Proof.Machine

/-! ### Records, acceptance and stealing -/

theorem spill_canon {s t : State} {core ctx node acc words} (h : s.Canon) (e : s.spill core ctx node acc words = some t) : t.Canon := by
  unfold State.spill at e
  dsimp only at e
  repeat' split at e
  all_goals grind [→ spaceWrite_canon, occupyAll_mem]

theorem unspill_canon {s t : State} {ctx x y} (h : s.Canon) (e : s.unspill ctx x = some (t, y)) : t.Canon := by
  unfold State.unspill at e
  dsimp only at e
  repeat' split at e
  all_goals grind [→ spaceWrite_canon, → spaceRead_canon, occupyAll_mem]

theorem takeRec_canon {s : State} (h : s.Canon) (core ctx x) : (s.takeRec core ctx x).1.Canon := by
  grind [State.takeRec, modCore_mem, unspill_canon]

theorem launchNode_canon {s : State} (h : s.Canon) (core ctx n t xs) : (s.launchNode core ctx n t xs).Canon := by
  unfold State.launchNode
  dsimp only
  split
  · exact h
  split
  · exact h
  · have key : (xs.foldl (fun (r : State × List (List Word)) x =>
        ((r.1.takeRec core ctx x).1, match (r.1.takeRec core ctx x).2 with
          | some ws => r.2 ++ [ws]
          | none => r.2)) (s, [])).1.Canon :=
      List.foldlRecOn (motive := fun r : State × List (List Word) => r.1.Canon) _ _ h fun r h x _ => takeRec_canon h core ctx x
    grind [acquire_mem, addGroup_mem, addTo_mem, freshTiles_mem, freshScratch_canon, addCluster_mem, fresh_mem]

theorem binLaunch_canon {s : State} (h : s.Canon) (core ctx node) : (s.binLaunch core ctx node).Canon := by
  grind [State.binLaunch, launchNode_canon]

theorem binAccept_canon {s t : State} {core ctx node words} (h : s.Canon) (e : s.binAccept core ctx node words = some t) : t.Canon := by
  unfold State.binAccept at e
  dsimp only at e
  obtain ⟨u, hu, rfl⟩ := Option.map_eq_some_iff.mp e
  refine binLaunch_canon ?_ ..
  split at hu
  · cases hu
    exact h
  · obtain ⟨v, hv, rfl⟩ := Option.map_eq_some_iff.mp hu
    exact (spill_canon (h.of_mem (modCore_mem ..)) hv).of_mem (modCore_mem ..)

@[simp] theorem startSpawn_mem (s : State) (id) : (s.startSpawn id).mem = s.mem := by
  grind [State.startSpawn, fail_mem]

theorem acceptSpawn_canon {s : State} (h : s.Canon) (id) : (s.acceptSpawn id).Canon := by
  unfold State.acceptSpawn
  repeat' split
  all_goals grind [settleFlags_mem, binAccept_canon, escape_mem]

@[simp] theorem stealAnswer_mem (s : State) (gid lanes d w) : (s.stealAnswer gid lanes d w).mem = s.mem := by
  grind [State.stealAnswer, dst32_mem, wake_mem, foldl_mem]

@[simp] theorem lendRec_mem (s : State) (victim thief r') : (s.lendRec victim thief r').mem = s.mem := rfl

@[simp] theorem modLend_mem (s : State) (k f) : (s.modLend k f).mem = s.mem := rfl

/-! ### Suspension, resumption and saved teams -/

theorem writeSome_canon {s : State} (h : s.Canon) (ctx va bs sys die) : (s.writeSome ctx va bs sys die).1.Canon := by
  refine List.foldlRecOn (motive := fun r : State × Option XErr => r.1.Canon) _ _ h ?_
  grind [writePiece_canon]

theorem writeObj_canon {s : State} (h : s.Canon) (ctx core obj bytes sys state) : (s.writeObj ctx core obj bytes sys state).1.Canon := by
  grind [State.writeObj, writeSome_canon]

@[simp] theorem detach_mem (s : State) (gid g obj dets) : (s.detach gid g obj dets).mem = s.mem := by
  grind [State.detach, fresh_mem, modOp_mem, foldl_mem]

theorem suspFails_canon {s : State} (h : s.Canon) (gid g obj c) : (s.suspFails gid g obj c).Canon := by
  grind [State.suspFails, dst32_mem, wake_mem, cwrite_canon, foldl_canon, foldl_mem]

theorem readObj_canon {s t : State} {ctx core obj sys y} (h : s.Canon) (e : s.readObj ctx core obj sys = .ok (t, y)) : t.Canon := by
  unfold State.readObj at e
  dsimp only at e
  repeat' split at e
  all_goals grind [→ gread_canon]

theorem checkFor_canon {s t : State} {ctx core tm sched obj} {y} (h : s.Canon)
    (e : s.checkFor ctx core tm sched obj = .ok (t, y)) : t.Canon := by
  grind [State.checkFor, readObj_canon]

theorem checkObj_canon {s t : State} {g obj} {y} (h : s.Canon) (e : s.checkObj g obj = .ok (t, y)) : t.Canon := by
  grind [State.checkObj, checkFor_canon]

theorem casState_canon {s t : State} {ctx core obj old new sys y} (h : s.Canon)
    (e : s.casState ctx core obj old new sys = .ok (t, y)) : t.Canon := by
  unfold State.casState at e
  dsimp only at e
  repeat' split at e
  all_goals grind [→ gread_canon, → gwrite_canon]

@[simp] theorem queueGroup_mem (s : State) (gid base h' obj) : (s.queueGroup gid base h' obj).mem = s.mem := rfl

@[simp] theorem reparked_mem (s : State) (gid g own os) : (s.reparked gid g own os).mem = s.mem := by
  grind [State.reparked, addOp_mem, foldl_mem]

@[simp] theorem freeSave_mem (s : State) (tid) : (s.freeSave tid).mem = s.mem := by
  grind [State.freeSave]

@[simp] theorem startRestored_mem (s : State) (gid g h' k) : (s.startRestored gid g h' k).mem = s.mem := by
  grind [State.startRestored, acquire_mem, modGroup_mem, freeSave_mem, retireGroup_mem, reparked_mem]

@[simp] theorem resumeEnd_mem (s : State) (id o sf c) : (s.resumeEnd id o sf c).mem = s.mem := by
  unfold State.resumeEnd
  repeat' split
  all_goals grind [settleFlags_mem, deliver_mem, fail_mem]

theorem claimFirst_canon {s : State} (h : s.Canon) (id o g obj sf) : (s.claimFirst id o g obj sf).Canon := by
  unfold State.claimFirst
  repeat' split
  all_goals grind [acquire_mem, modOp_mem, resumeEnd_mem, park_mem, → checkObj_canon, → casState_canon]

theorem faultObj_canon {s : State} (h : s.Canon) (ctx core obj sys) : (s.faultObj ctx core obj sys).Canon := by
  grind [State.faultObj, casState_canon]

theorem claimSecond_canon {s : State} (h : s.Canon) (id o g obj sf) : (s.claimSecond id o g obj sf).Canon := by
  grind [State.claimSecond, resumeEnd_mem, fresh_mem, readObj_canon, queueGroup_mem, park_mem, faultObj_canon]

theorem claim_canon {s : State} (h : s.Canon) (id) : (s.claim id).Canon := by
  grind [State.claim, claimFirst_canon, claimSecond_canon]

@[simp] theorem copyImage_mem (s : State) (h' dst fork) : (s.copyImage h' dst fork).mem = s.mem := by
  grind [State.copyImage, fresh_mem]

theorem ccopyDone_canon {s : State} (h : s.Canon) (id) : (s.ccopyDone id).Canon := by
  unfold State.ccopyDone
  split
  · exact h
  split
  case h_2 => exact h
  extract_lets sys faulted
  have hf (s : State) (h : s.Canon) : (faulted s).Canon := by
    unfold faulted
    grind [→ gwrite_canon]
  clear_value faulted
  split
  · exact h
  split
  · exact h.of_mem (park_mem ..)
  · exact h.of_mem (fail_mem ..)
  next hc =>
    have h1 := checkObj_canon h hc
    split
    · exact h1.of_mem (fail_mem ..)
    split
    · exact h
    split
    · exact h.of_mem (park_mem ..)
    · exact h1.of_mem (fail_mem ..)
    next s2 _ hs =>
      have h2 : s2.Canon := by
        split at hs
        · cases hs
          exact h1
        · exact casState_canon h1 hs
      split
      · exact h2.of_mem (fail_mem ..)
      split
      · exact h.of_mem (park_mem ..)
      next hw =>
        refine State.Canon.of_mem (hf _ ?_) (fail_mem ..)
        have h3 := State.Canon.of_fst (writeObj_canon h2 ..) hw
        split
        · exact h3
        · grind [→ gwrite_canon]
      next hw =>
        have h3 := State.Canon.of_fst (writeObj_canon h2 ..) hw
        exact h3.of_mem ((settleFlags_mem ..).trans (copyImage_mem ..))

theorem saveTeam_canon {s t : State} {tid t' ckpt} (h : s.Canon) (e : s.saveTeam tid t' ckpt = .ok t) : t.Canon := by
  unfold State.saveTeam at e
  dsimp only at e
  repeat' split at e
  all_goals grind [fresh_mem, dwrite_canon, detach_mem, foldl_canon]

@[simp] theorem unhold_mem (s : State) (tids) : (s.unhold tids).mem = s.mem := rfl

theorem schedClaim_canon {s : State} (h : s.Canon) (v core obj) : (s.schedClaim v core obj).1.Canon := by
  unfold State.schedClaim
  repeat' split
  all_goals grind [→ checkFor_canon, → casState_canon, → readObj_canon, faultObj_canon]

theorem schedClaims_canon {s : State} (h : s.Canon) (v core objs) : (s.schedClaims v core objs).1.Canon := by
  induction objs generalizing s with
  | nil => exact h
  | cons obj objs ih => grind [State.schedClaims, schedClaim_canon]

theorem claimRecord_canon {s : State} (h : s.Canon) (v core) : (s.claimRecord v core).1.Canon := by
  unfold State.claimRecord
  dsimp only
  repeat' split
  all_goals grind [→ gread_canon, schedClaims_canon]

theorem claimRecords_canon {s : State} (h : s.Canon) (vs cs) : (s.claimRecords vs cs).1.Canon := by
  induction vs generalizing s cs with
  | nil => cases cs <;> exact h
  | cons v vs ih =>
    cases cs with
    | nil => exact h
    | cons c cs => grind [State.claimRecords, claimRecord_canon]

theorem putBack_canon {s : State} (h : s.Canon) (v hs core cl p) : (s.putBack v hs core cl p).Canon := by
  grind [State.putBack, addTo_mem, writePhys_canon, queueGroup_mem, foldl_canon]

@[simp] theorem recordLost_mem (s : State) (key v c) : (s.recordLost key v c).mem = s.mem := by
  grind [State.recordLost, trigger_mem, endGrid_mem]

theorem resumeTeam_canon {s : State} (h : s.Canon) (v) : (s.resumeTeam v).Canon := by
  grind [State.resumeTeam, modGroup_mem, readObj_canon, foldl_canon]

/-! ### Multicast, pulled reductions and gangs -/

theorem byBelay_canon {f} (hf : ∀ s : State, s.Canon → ∀ id, (f s id).Canon) {s : State} (h : s.Canon) (id) :
    (byBelay f s id).Canon := by
  unfold byBelay
  split
  · exact hf _ (h.of_mem (touchBelay_mem ..)) _
  · exact h

theorem readDesc_canon {s : State} (h : s.Canon) (gid l va n) : (s.readDesc gid l va n).1.Canon := by
  grind [State.readDesc, cread_canon, meets_mem, gateAt_mem]

@[simp] theorem ownGate_mem (s : State) (id o va) : (s.ownGate id o va).1.mem = s.mem := by
  grind [State.ownGate, meets_mem, gateAt_mem]

theorem mcstDone_canon {s : State} (h : s.Canon) (id) : (s.mcstDone id).Canon := by
  grind [State.mcstDone, doneA_mem, conclude_canon, deliver_mem]

theorem mcstAck_canon {s : State} (h : s.Canon) (id peer) : (s.mcstAck id peer).Canon := by
  grind [State.mcstAck, mcstDone_canon, modOp_mem, escape_mem]

theorem mcstNack_canon {s : State} (h : s.Canon) (id peer c) : (s.mcstNack id peer c).Canon := by
  grind [State.mcstNack, mcstDone_canon, modOp_mem]

theorem mcstOwn_canon {s : State} (h : s.Canon) (id o m) : (s.mcstOwn id o m).Canon := by
  grind [State.mcstOwn, gwrite_canon, ownGate_mem, promoAt_mem, mcstAck_canon, mcstNack_canon, replGate_mem, l1Drop_mem]

theorem mcstSend_canon {s : State} (h : s.Canon) (id o m i) : (s.mcstSend id o m i).Canon := by
  grind [State.mcstSend, mcstOwn_canon, modOp_mem, mcstNack_canon, send_mem]

theorem mcstFetch_canon {s : State} (h : s.Canon) (id) : (s.mcstFetch id).Canon := by
  unfold State.mcstFetch
  split
  · exact h
  split
  case h_2 => exact h
  dsimp only
  repeat' split
  all_goals grind [→ spaceRead_canon, touchBelay_mem, conclude_canon, ownGate_mem, modOp_mem, drainLine_mem, → send_mem, → gread_canon]

theorem mcstFetches_canon {s : State} (h : s.Canon) : (s.mcstFetches).Canon := by
  grind [State.mcstFetches, mcstFetch_canon, foldl_canon]

@[simp] theorem mcstLine_mem (s : State) (id bs) : (s.mcstLine id bs).mem = s.mem := rfl

@[simp] theorem rloadGot_mem (s : State) (id peer bs) : (s.rloadGot id peer bs).mem = s.mem := rfl

@[simp] theorem rloadNack_mem (s : State) (id peer c) : (s.rloadNack id peer c).mem = s.mem := rfl

theorem rloadOwn_canon {s : State} (h : s.Canon) (id o r') : (s.rloadOwn id o r').Canon := by
  grind [State.rloadOwn, rloadNack_mem, ownGate_mem, gread_canon, rloadGot_mem]

theorem startRload_canon {s : State} (h : s.Canon) (id) : (s.startRload id).Canon := by
  grind [State.startRload, rloadNack_mem, fresh_mem, modOp_mem, drainLine_mem, send_mem, rloadOwn_canon, foldl_canon]

theorem rloadEnd_canon {s : State} (h : s.Canon) (id o r x) : (s.rloadEnd id o r x).Canon := by
  unfold State.rloadEnd
  dsimp only
  repeat' split
  all_goals grind [acquire_mem, settleFlags_mem, settle_mem, spaceWrite_canon, fail_mem, send_getD_mem]

theorem rloadMove_canon {s : State} (h : s.Canon) (id o r) : (s.rloadMove id o r).Canon := by
  unfold State.rloadMove
  dsimp only
  have hm : ((s.fresh).2.modOp id fun o => { o with
      kind := .rload { r with got := [], nacks := [], moved := true }, st := .sent (tagOf s.fresh.1) }).Canon :=
    h.of_mem ((modOp_mem ..).trans (fresh_mem ..))
  split
  · exact rloadEnd_canon hm ..
  · exact send_getD_canon hm (rloadEnd_canon hm ..) ..

theorem reduceIn_canon {s : State} (h : s.Canon) : s.reduceIn.Canon := by
  unfold State.reduceIn
  exact byBelay_canon (fun s h id => startRload_canon h id) (h.of_mem ((addOp_mem ..).trans (fresh_mem ..))) _

@[simp] theorem startPeerq_mem (s : State) (id) : (s.startPeerq id).mem = s.mem := by
  grind [State.startPeerq, settleFlags_mem, deliver_mem]

@[simp] theorem startMgrp_mem (s : State) (id) : (s.startMgrp id).mem = s.mem := by
  grind [State.startMgrp, settleFlags_mem, fail_mem]

@[simp] theorem flushes_mem (s : State) : (s.flushes).mem = s.mem := by
  grind [State.flushes, settleFlags_mem, foldl_mem]

@[simp] theorem startWcflush_mem (s : State) (id) : (s.startWcflush id).mem = s.mem := by
  grind [State.startWcflush, flushes_mem, modOp_mem, drain_mem, foldl_mem]

@[simp] theorem startRspawn_mem (s : State) (id) : (s.startRspawn id).mem = s.mem := by
  grind [State.startRspawn, drainThread_mem, fail_mem, foldl_mem]

theorem rspawnGo_canon {s : State} (h : s.Canon) (id) : (s.rspawnGo id).Canon := by
  unfold State.rspawnGo
  dsimp only
  repeat' split
  all_goals grind [settleFlags_mem, binAccept_canon, sendOr_mem, escape_mem, fail_mem]

@[simp] theorem gangSend_mem (s : State) (poss gang code ctx data) : (s.gangSend poss gang code ctx data).1.mem = s.mem := by
  refine foldl_keeps (fun r : State × Bool => r.1.mem) ?_ poss (s, true)
  grind [send_mem]

@[simp] theorem gangRelease_mem (s : State) (gang) : (s.gangRelease gang).mem = s.mem := by
  grind [State.gangRelease, dropTeam_mem, modCtx_mem, foldl_mem]

@[simp] theorem startGangGrid_mem (s : State) (gr on) : (s.startGangGrid gr on).mem = s.mem := rfl

theorem gangReserve_canon {s t : State} {gang src ctx words} (h : s.Canon) (e : s.gangReserve gang src ctx words = .ok t) : t.Canon := by
  unfold State.gangReserve at e
  dsimp only at e
  repeat' split at e
  all_goals grind [placeAll_canon, modGrid_mem, queueRecord_canon, placeNext_canon, startGangGrid_mem]

@[simp] theorem gangAbortAll_mem (s : State) (id o g) : (s.gangAbortAll id o g).mem = s.mem := by
  grind [State.gangAbortAll, gangSend_mem, gangRelease_mem, fail_mem]

@[simp] theorem gangHeard_mem (s : State) (id peer) : (s.gangHeard id peer).mem = s.mem := by
  grind [State.gangHeard, modOp_mem, gangSend_mem]

@[simp] theorem gangAcked_mem (s : State) (id peer) : (s.gangAcked id peer).mem = s.mem := by
  grind [State.gangAcked, settleFlags_mem, modOp_mem]

@[simp] theorem startGang_mem (s : State) (id) : (s.startGang id).mem = s.mem := by
  grind [State.startGang, modOp_mem, gangAbortAll_mem, gangSend_mem, fail_mem]

@[simp] theorem unkeep_mem (s : State) (gang) : (s.unkeep gang).1.mem = s.mem := rfl

theorem memberPrepare_canon {s : State} (h : s.Canon) (src gang ctx words) : (s.memberPrepare src gang ctx words).Canon := by
  have hu : (s.unkeep gang).1.Canon := h.of_mem (unkeep_mem s gang)
  unfold State.memberPrepare
  dsimp only
  repeat' split
  all_goals grind [→ gangReserve_canon, send_getD_mem]

theorem ownPrepare_canon {s : State} (h : s.Canon) (gang) : (s.ownPrepare gang).Canon := by
  grind [State.ownPrepare, gangReserve_canon, gangHeard_mem, gangAbortAll_mem]

@[simp] theorem gangRefusal_mem (s : State) (id peer) : (s.gangRefusal id peer).mem = s.mem := by
  grind [State.gangRefusal, gangAbortAll_mem]

@[simp] theorem memberGo_mem (s : State) (gang) : (s.memberGo gang).mem = s.mem := by
  unfold State.memberGo
  dsimp only
  repeat' split
  all_goals grind [startGangGrid_mem, modGrid_mem, gangAcked_mem, send_getD_mem]

@[simp] theorem gangTorn_mem (s : State) (gang) : (s.gangTorn gang).mem = s.mem := by
  grind [State.gangTorn, modGrid_mem, gangRelease_mem]

theorem gangMsgIn_canon {s : State} (h : s.Canon) (code) : (s.gangMsgIn code).Canon := by
  have own (x : Nat) {f : Nat → State} (hf : ∀ id, (f id).mem = s.mem) : ((s.gangOp x).elim s fun e => f e.1).Canon := by
    cases s.gangOp x with
    | none => exact h
    | some e => exact h.of_mem (hf e.1)
  unfold State.gangMsgIn
  dsimp only
  repeat' split
  · exact memberPrepare_canon h ..
  · exact own _ (f := fun id => s.gangHeard id s.sel.b) fun _ => gangHeard_mem ..
  · exact own _ (f := fun id => s.gangRefusal id s.sel.b) fun _ => gangRefusal_mem ..
  · exact h.of_mem (memberGo_mem ..)
  · exact own _ (f := fun id => s.gangAcked id s.sel.b) fun _ => gangAcked_mem ..
  · exact h.of_mem ((gangRelease_mem ..).trans (unkeep_mem ..))
  · exact h.of_mem ((gangTorn_mem ..).trans (unkeep_mem ..))

/-! ### Scoreboards, armed operations and collectives -/

theorem readWords_canon {s : State} (h : s.Canon) (ctx core sys n va depth) : (s.readWords ctx core sys n va depth).1.Canon := by
  induction n generalizing s va depth with
  | zero => exact h
  | succ n ih => grind [State.readWords, gread_canon]

theorem fireCopy_canon {s : State} (h : s.Canon) (ctx a x) : (s.fireCopy ctx a x).Canon := by
  grind [State.fireCopy, asyncEnd_canon, fresh_mem, startAsync_canon, addOp_mem]

@[simp] theorem fireColl_mem (s : State) (ctx a) : (s.fireColl ctx a).mem = s.mem := rfl

theorem fire_canon {s : State} (h : s.Canon) (ctx a) : (s.fire ctx a).Canon := by
  grind [State.fire, fireCopy_canon, fireColl_mem]

theorem fireReady_canon {s : State} (h : s.Canon) (ctx) : (s.fireReady ctx).Canon := by
  grind [State.fireReady, fire_canon, modCtx_mem, foldl_canon]

theorem installArm_canon {s : State} (h : s.Canon) (id) : (s.installArm id).Canon := by
  unfold State.installArm
  dsimp only
  repeat' split
  all_goals grind [settleFlags_mem, dwrite_canon, modCtx_mem, fail_mem, fireReady_canon]

theorem installArms_canon {s : State} (h : s.Canon) (ctx) : (s.installArms ctx).Canon := by
  grind [State.installArms, installArm_canon, foldl_canon]

theorem scbUpdate_canon {s : State} (h : s.Canon) (ctx sb f) : (s.scbUpdate ctx sb f).Canon := by
  grind [State.scbUpdate, installArms_canon, retest_mem, modCtx_mem, fireReady_canon]

theorem startScb_canon {s : State} (h : s.Canon) (id) : (s.startScb id).Canon := by
  grind [State.startScb, scbUpdate_canon, settleFlags_mem, escape_mem]

theorem startArm_canon {s : State} (h : s.Canon) (id) : (s.startArm id).Canon := by
  grind [State.startArm, installArm_canon, fail_mem]

theorem startColl_canon {s : State} (h : s.Canon) (id) : (s.startColl id).Canon := by
  grind [State.startColl, fresh_mem, conclude_canon]

@[simp] theorem modProg_mem (s : State) (k f) : (s.modProg k f).mem = s.mem := rfl

theorem progEnd_canon {s : State} (h : s.Canon) (k p st) : (s.progEnd k p st).Canon := by
  grind [State.progEnd, acquire_mem, doneB_mem, conclude_canon, putStatus_canon]

@[simp] theorem collCtl_mem (s : State) (k p rank code) : (s.collCtl k p rank code).mem = s.mem := send_getD_mem ..

theorem progFail_canon {s : State} (h : s.Canon) (k c tell) : (s.progFail k c tell).Canon := by
  grind [State.progFail, progEnd_canon, collCtl_mem, modProg_mem, foldl_canon]

@[simp] theorem giveCredit_mem (s : State) (k rank) : (s.giveCredit k rank).mem = s.mem := by
  grind [State.giveCredit, collCtl_mem, modProg_mem]

@[simp] theorem giveCredits_mem (s : State) (k) : (s.giveCredits k).mem = s.mem := by
  grind [State.giveCredits, modProg_mem, giveCredit_mem, foldl_mem]

theorem chunkFail_canon {s : State} (h : s.Canon) (id k c) : (s.chunkFail id k c).Canon := by
  grind [State.chunkFail, settle_mem, modProg_mem, progFail_canon]

@[simp] theorem chunkDone_mem (s : State) (id k n got) : (s.chunkDone id k n got).mem = s.mem := by
  unfold State.chunkDone
  dsimp only
  repeat' split
  all_goals grind [settle_mem, modProg_mem, escape_mem]

theorem ask_canon {s : State} (h : s.Canon) (k p va n w comb) : (s.ask k p va n w comb).Canon := by
  unfold State.ask
  dsimp only
  repeat' split
  all_goals grind [chunkFail_canon, fresh_mem, modOp_mem, send_mem, addOp_mem]

theorem askNext_canon {s : State} (h : s.Canon) (k p va n) : (s.askNext k p va n).Canon := by
  grind [State.askNext, ask_canon, modProg_mem]

theorem chunkAtBank_canon {s : State} (h : s.Canon) (id o) : (s.chunkAtBank id o).Canon := by
  unfold State.chunkAtBank
  split
  case h_2 => exact h
  extract_lets a s1 put old
  have h1 : s1.Canon := h.of_mem (bankTouch_mem ..)
  have hput (s : State) (h : s.Canon) (bs) : (put s bs).Canon := by
    unfold put
    grind [→ spaceWrite_canon, chunkDone_mem, chunkFail_canon]
  have hold {t bs} (e : old = .ok (t, bs)) : t.Canon := spaceRead_canon h1 e
  clear_value s1 put old
  grind [chunkDone_mem, chunkFail_canon]

theorem chunkReady_canon {s : State} (h : s.Canon) (k p src) : (s.chunkReady k p src).1.Canon := by
  unfold State.chunkReady
  dsimp only
  repeat' split
  all_goals grind [meets_mem, ask_canon, gateAt_mem, askNext_canon]

theorem collRead_canon {s t : State} {p va n} {y} (h : s.Canon) (e : s.collRead p va n = .ok (t, y)) : t.Canon := by
  grind [State.collRead, gread_canon]

theorem collWrite_canon {s t : State} {k p va bs comb chunk} (h : s.Canon) (e : s.collWrite k p va bs comb chunk = .ok t) : t.Canon := by
  grind [State.collWrite, gwrite_canon, modProg_mem]

theorem readCarry_canon {s t : State} {p b va y} (h : s.Canon) (e : s.readCarry p b va = .ok (t, y)) : t.Canon := by
  unfold State.readCarry at e
  split at e
  all_goals
    obtain ⟨x, hx, he⟩ := map_eq_ok e
    cases he
    exact collRead_canon h hx

@[simp] theorem collGate_mem (s : State) (k p va n) : (s.collGate k p va n).1.mem = s.mem := by
  grind [State.collGate, meets_mem, replGates_mem, gateAt_mem]

@[simp] theorem nextStep_mem (s : State) (k) : (s.nextStep k).mem = s.mem := rfl

theorem takeChunk_mem {s t : State} {k p rank y} (e : s.takeChunk k p rank = some (t, y)) : t.mem = s.mem := by
  obtain ⟨c, -, hc⟩ := Option.map_eq_some_iff.mp e
  cases hc
  rfl

@[simp] theorem chunkIn_mem (s : State) : (s.chunkIn).mem = s.mem := by
  grind [State.chunkIn, collCtl_mem, modProg_mem]

theorem collCtlIn_canon {s : State} (h : s.Canon) : (s.collCtlIn).Canon := by
  grind [State.collCtlIn, reduceIn_canon, modProg_mem, progFail_canon]

/-! ### What arrives on the links -/

@[simp] theorem reply_mem (s : State) (x kind va data) : (s.reply x kind va data).mem = s.mem := send_getD_mem ..

@[simp] theorem replyNack_mem (s : State) (x va c) : (s.replyNack x va c).mem = s.mem := by
  grind [State.replyNack, reply_mem]

theorem maskedWrite_canon {s t : State} {x va bytes data} (h : s.Canon) (e : s.maskedWrite x va bytes data = .ok t) : t.Canon := by
  refine List.foldlRecOn (motive := fun r : Except XErr State => ∀ t, r = .ok t → t.Canon) _ _ ?_ ?_ _ e
  · grind
  · grind [gwrite_canon]

theorem writeSectors_canon {s : State} (h : s.Canon) (x fail ws) : (s.writeSectors x fail ws).1.Canon := by
  induction ws generalizing s fail with
  | nil => exact h
  | cons w ws ih => grind [State.writeSectors, maskedWrite_canon]

@[simp] theorem serveGate_mem (s : State) (x va n) : (s.serveGate x va n).1.mem = s.mem := by
  grind [State.serveGate, gateAt_mem]

theorem serveNow_canon {s : State} (h : s.Canon) (x) : (s.serveNow x).1.Canon := by
  unfold State.serveNow
  dsimp only
  split
  · grind [→ gread_canon, reply_mem, replyNack_mem]
  · grind [→ gread_canon, → gwrite_canon, reply_mem, replyNack_mem, replGate_mem]
  · grind [→ binAccept_canon, reply_mem]
  · exact h
  · grind [→ maskedWrite_canon, replGate_mem, reply_mem, replyNack_mem]
  · grind [→ gwrite_canon, writeSectors_canon, replGate_mem, reply_mem, replyNack_mem]

theorem serveTry_canon {s : State} (h : s.Canon) (x) : (s.serveTry x).1.Canon := by
  grind [State.serveTry, meets_mem, serveGate_mem, serveNow_canon]

theorem serve_canon {s : State} (h : s.Canon) (x) : (s.serve x).Canon := by
  grind [State.serve, serveTry_canon]

theorem serveAgain_canon {s : State} (h : s.Canon) : (s.serveAgain).Canon := by
  grind [State.serveAgain, serve_canon, foldl_canon]

theorem sectorIn_canon {s : State} (h : s.Canon) : (s.sectorIn).Canon := by
  grind [State.sectorIn, serve_canon]

theorem spawnIn_canon {s : State} (h : s.Canon) : (s.spawnIn).Canon := by
  grind [State.spawnIn, reply_mem, serve_canon]

@[simp] theorem atomDone_mem (s : State) (id o a n ret bs) : (s.atomDone id o a n ret bs).mem = s.mem := by
  grind [State.atomDone, acquire_mem, doneA_mem, doneB_mem, settle_mem, escape_mem, deliver_mem, l1Drop_mem]

theorem dataFor_canon {s : State} (h : s.Canon) (id o peer bs) : (s.dataFor id o peer bs).Canon := by
  grind [State.dataFor, settleFlags_mem, chunkDone_mem, rloadEnd_canon, modCore_mem, gathered_mem, atomDone_mem, mcstLine_mem, loaded_mem,
    polled_mem, rloadGot_mem]

theorem ackFor_canon {s : State} (h : s.Canon) (id o peer) : (s.ackFor id o peer).Canon := by
  grind [State.ackFor, settleFlags_mem, chunkDone_mem, doneB_mem, settle_mem, atomDone_mem, escape_mem, mcstAck_canon, scattered_mem]

theorem nackFor_canon {s : State} (h : s.Canon) (id o peer c) : (s.nackFor id o peer c).Canon := by
  grind [State.nackFor, chunkFail_canon, asyncEnd_canon, rloadNack_mem, conclude_canon, rloadEnd_canon, mcstNack_canon, polled_mem,
    fail_mem]

theorem dataIn_canon {s : State} (h : s.Canon) : (s.dataIn).Canon := by
  grind [State.dataIn, flushes_mem, dataFor_canon, foldl_canon]

theorem ackIn_canon {s : State} (h : s.Canon) : (s.ackIn).Canon := by
  grind [State.ackIn, flushes_mem, ackFor_canon, foldl_canon]

theorem nackIn_canon {s : State} (h : s.Canon) : (s.nackIn).Canon := by
  grind [State.nackIn, flushes_mem, nackFor_canon, foldl_canon]

@[simp] theorem resend_mem (s : State) (ms) : (s.resend ms).mem = s.mem := by
  grind [State.resend, enqueue_mem, foldl_mem]

@[simp] theorem unqueue_mem (s : State) (key) : (s.unqueue key).mem = s.mem := rfl

@[simp] theorem modLinkOf_mem (s : State) (f) : (s.modLinkOf f).mem = s.mem := rfl

@[simp] theorem retry_mem (s : State) (peer plane seq) : (s.retry peer plane seq).mem = s.mem := by
  grind [State.retry, modLink_mem, resend_mem, unqueue_mem]

@[simp] theorem giveBack_mem (s : State) (peer plane m) : (s.giveBack peer plane m).mem = s.mem := by
  grind [State.giveBack, modLink_mem, enqueue_mem]

@[simp] theorem linkctlIn_mem (s : State) : (s.linkctlIn).mem = s.mem := by
  grind [State.linkctlIn, trigger_mem, retry_mem, modLinkOf_mem]

theorem receive_canon {s : State} (h : s.Canon) (m) : (s.receive m).Canon := by
  grind [State.receive, modLink_mem, pump_mem, collCtlIn_canon, serve_canon, chunkIn_mem, spawnIn_canon, gangMsgIn_canon, dataIn_canon,
    nackIn_canon, linkctlIn_mem, sectorIn_canon, ackIn_canon]

theorem rechoose_mem {change : State → State} (hc : ∀ s, (change s).mem = s.mem) (s : State) : (s.rechoose change).mem = s.mem := by
  unfold State.rechoose
  dsimp only
  rw [resend_mem, hc]

end Sys2Proof.Machine
end

section

/-! Proofs. Memory stays canonical under the matrix engine, the events of memory and the sweeps of the slices. -/

open Sys2Proof Sys2Proof.Machine

namespace Sys2Proof.Machine

/-! ### The matrix engine -/

@[simp] theorem engIssue_mem (s : State) (tid core g sigs) : (s.engIssue tid core g sigs).mem = s.mem := by
  grind [State.engIssue, modTeam_mem, fresh_mem, doneB_mem, modCore_mem, settle_mem, fail_mem, foldl_mem]

@[simp] theorem sign_mem (s : State) (id) : (s.sign id).mem = s.mem := by
  unfold State.sign
  dsimp only
  repeat' split
  all_goals grind [modTeam_mem, engIssue_mem, modOp_mem, fail_mem, foldl_mem]

@[simp] theorem setTile_mem (s : State) (tid k x) : (s.setTile tid k x).mem = s.mem := rfl

@[simp] theorem modEng_mem (s : State) (core k f) : (s.modEng core k f).mem = s.mem := rfl

@[simp] theorem engStart_mem (s : State) (core k) : (s.engStart core k).mem = s.mem := by
  grind [State.engStart, modEng_mem]

@[simp] theorem engRelease_mem (s : State) (core k) : (s.engRelease core k).mem = s.mem := by
  grind [State.engRelease, modEng_mem, modTeam_mem, doneB_mem, setTile_mem, foldl_mem]

theorem engRetire_canon {s : State} (h : s.Canon) (core k) : (s.engRetire core k).Canon := by
  grind [State.engRetire, modTeam_mem, doneA_mem, sweepOps_mem, modCore_mem, writePhys_canon, clearPoison_mem, foldl_canon, foldl_mem]

/-! ### Performed accesses, walks, pages and banks -/

theorem replGo_canon {s : State} (h : s.Canon) (e') : (s.replGo e').Canon := by
  grind [State.replGo, performMem_canon, serveAgain_canon]

theorem ackRepl_canon {s : State} (h : s.Canon) (k die) : (s.ackRepl k die).Canon := by
  grind [State.ackRepl, replGo_canon, foldl_canon, foldl_mem]

theorem startOp_canon {s : State} (h : s.Canon) (id) : (s.startOp id).Canon := by
  have belay {f} (hf : ∀ s : State, s.Canon → ∀ id, (f s id).Canon) : (byBelay f s id).Canon := byBelay_canon hf h id
  unfold State.startOp
  split
  · exact h
  split
  iterate 4 exact startMem_canon h id
  iterate 6 exact h
  · exact startAsync_canon h id
  · exact h.of_mem (startSpawn_mem ..)
  · exact h.of_mem (sign_mem ..)
  · exact belay fun _ h _ => h
  · exact belay fun _ h id => startRload_canon h id
  · exact belay fun _ h id => startColl_canon h id
  · exact belay fun _ h id => startScb_canon h id
  · exact belay fun _ h id => startArm_canon h id
  · exact belay fun _ h id => h.of_mem (startGang_mem ..)
  · exact belay fun _ h id => h.of_mem (startPeerq_mem ..)
  · exact belay fun _ h id => h.of_mem (startWcflush_mem ..)
  · exact belay fun _ h id => h.of_mem (startRspawn_mem ..)
  · exact belay fun _ h id => h.of_mem (startMgrp_mem ..)

@[simp] theorem parkOn_mem (s : State) (ctx home f) : (s.parkOn ctx home f).mem = s.mem := by
  grind [State.parkOn, park_mem, foldl_mem]

@[simp] theorem walkOver_mem (s : State) (w found) : (s.walkOver w found).mem = s.mem := by
  grind [State.walkOver, startWalks_mem]

theorem fill_canon {s : State} (h : s.Canon) (w frame bs) : (s.fill w frame bs).Canon := by
  grind [State.fill, writePhys_canon, foldl_canon, foldl_mem]

theorem setLeafBits_canon {s : State} (h : s.Canon) (ea f) : (s.setLeafBits ea f).Canon := by
  grind [State.setLeafBits, writePhys_canon]

theorem replayOne_canon {s : State} (h : s.Canon) (id) : (s.replayOne id).Canon := by
  grind [State.replayOne, performMem_canon, ccopyDone_canon, modOp_mem, claim_canon]

theorem unpark_canon {s : State} (h : s.Canon) (gid) : (s.unpark gid).Canon := by
  grind [State.unpark, modThread_mem, wfAgain_canon, foldl_canon]

@[simp] theorem replayGate_mem (s : State) (mine) : (s.replayGate mine).1.mem = s.mem := by
  unfold State.replayGate
  dsimp only
  split
  · rfl
  · refine foldl_keeps (fun r : State × Bool => r.1.mem) ?_ _ (s, true)
    grind [gateAt_mem]

theorem replay_canon {s : State} (h : s.Canon) (gid) : (s.replay gid).Canon := by
  grind [State.replay, replayGate_mem, unpark_canon, replayOne_canon, foldl_canon, foldl_mem]

@[simp] theorem reaches_mem (s : State) (id) : (s.reaches id).mem = s.mem := rfl

theorem relocate_canon {s : State} (h : s.Canon) (ps f w fr) : (s.relocate ps f w fr).Canon := by
  grind [State.relocate, pageMoved_canon, moveLine_canon, foldl_canon, foldl_mem]

theorem dropHolder_canon {s : State} (h : s.Canon) (ps f w) : (s.dropHolder ps f w).Canon := by
  grind [State.dropHolder, pageMoved_canon, refill_canon, foldl_canon, foldl_mem]

theorem tryWords_canon {s t : State} {ps f ws} (h : s.Canon) (e : s.tryWords ps f ws = some t) : t.Canon := by
  obtain ⟨w, -, hw⟩ := List.exists_of_findSome?_eq_some e
  obtain ⟨fr, -, rfl⟩ := Option.map_eq_some_iff.mp hw
  exact relocate_canon h ..

theorem evacuate_canon {s : State} (h : s.Canon) (die) : (s.evacuate die).Canon := by
  unfold State.evacuate
  refine List.foldlRecOn _ _ (List.foldlRecOn (motive := fun r : State × List PageAt => r.1.Canon) _ _ h ?_) ?_
  · intro r h p _
    show (ite _ _ _ : State × List PageAt).1.Canon
    split
    · exact dropHolder_canon h ..
    split
    next e => exact tryWords_canon h e
    · exact h
  · intro s h p _
    generalize hr : s.tryWords _ _ _ = r
    cases r with
    | none => exact h
    | some t => exact tryWords_canon h hr

theorem dropAcks_canon {s : State} (h : s.Canon) (die) : (s.dropAcks die).Canon := by
  grind [State.dropAcks, ackRepl_canon, foldl_canon]

@[simp] theorem moveProgs_mem (s : State) (die) : (s.moveProgs die).mem = s.mem := by
  grind [State.moveProgs, touch_mem, foldl_mem]

/-! ### Slices and sweeps -/

@[simp] theorem reissue_mem (s : State) (gid l) : (s.reissue gid l).mem = s.mem := rfl

@[simp] theorem lateResult_mem (s : State) (gid l d) : (s.lateResult gid l d).mem = s.mem := rfl

theorem wakeRft_canon {s : State} (h : s.Canon) (gid g pc) : (s.wakeRft gid g pc).Canon := by
  grind [State.wakeRft, freeWith_mem, returnAll_canon]

theorem wakeOne_canon {s : State} (h : s.Canon) (gid l) : (s.wakeOne gid l).Canon := by
  unfold State.wakeOne
  split
  · exact h
  extract_lets t
  split
  · exact h
  split
  · exact h
  clear_value t
  have again (ls : List Nat) := foldl_mem_of (fun s l => reissue_mem s gid l) s ls
  dsimp only
  repeat' split
  all_goals grind [acquire_mem, lateResult_mem, dst32_mem, dstWait_mem, wake_mem, wakeRft_canon, reissue_mem, → pop_mem, → push_mem,
    ticketAcquire_mem, fenceEnd_mem, advance_mem]

theorem wakeWaits_canon {s : State} (h : s.Canon) (gid) : (s.wakeWaits gid).Canon := by
  grind [State.wakeWaits, checkReconv_mem, wakeOne_canon, foldl_canon]

theorem fetch_canon {ctx die sys n va} {s t : State} {ws} (h : s.Canon) (e : s.fetch ctx die sys n va = .ok (t, ws)) : t.Canon := by
  induction n generalizing s t va ws with
  | zero => cases e; exact h
  | succ n ih => grind [State.fetch, gread_canon]

theorem fetchClause_canon {s t : State} {g pc y} (h : s.Canon) (e : s.fetchClause g pc = .ok (t, y)) : t.Canon := by
  unfold State.fetchClause at e
  dsimp only at e
  repeat' split at e
  all_goals grind [→ fetch_canon]

theorem trapHeader_canon {s : State} (h : s.Canon) (gid g pc lanes c fault) : (s.trapHeader gid g pc lanes c fault).Canon := by
  grind [State.trapHeader, takeTrap_canon]

theorem codeWalked_canon {s : State} (h : s.Canon) (gid g pc lane) : (s.codeWalked gid g pc lane).1.Canon := by
  grind [State.codeWalked, walked_mem]

theorem reach_canon {s : State} (h : s.Canon) (gid p) : (s.reach gid p).Canon := by
  unfold State.reach
  repeat' split
  all_goals grind [fetchClause_canon, modThread_mem, trapHeader_canon, codeWalked_canon, foldl_canon]

theorem startPath_canon {s : State} (h : s.Canon) (gid p) : (s.startPath gid p).Canon := by
  grind [State.startPath, modThread_mem, drainThread_mem, foldl_canon]

theorem deliverAll_canon {s : State} (h : s.Canon) (gid) : (s.deliverAll gid).Canon := by
  grind [State.deliverAll, deliverFailure_canon, foldl_canon]

theorem settleIn_canon {s : State} (h : s.Canon) (gid) : (s.settleIn gid).Canon := by
  grind [State.settleIn, wakeWaits_canon, deliverAll_canon, reach_canon, foldl_canon]

theorem gate_canon {s : State} (h : s.Canon) (core) : (s.gate core).Canon := by
  grind [State.gate, modCore_mem]

theorem noteReady_canon {s : State} (h : s.Canon) (core k) : (s.noteReady core k).Canon := by
  grind [State.noteReady, modGroup_mem, foldl_canon]

theorem sweepGroup_canon {s : State} (h : s.Canon) (core k gid) : (s.sweepGroup core k gid).Canon := by
  grind [State.sweepGroup, modGroup_mem, modCore_mem, startPath_canon, foldl_canon, foldl_mem]

@[simp] theorem usePort_mem (s : State) (g p cost) : (s.usePort g p cost).mem = s.mem := rfl

@[simp] theorem waited_mem (s : State) (core k h') : (s.waited core k h').1.mem = s.mem := rfl

@[simp] theorem releaseSlice_mem (s : State) (core k h') : (s.releaseSlice core k h').mem = s.mem := by
  grind [State.releaseSlice, modGroup_mem, waited_mem, modCore_mem, foldl_mem]

@[simp] theorem unstall_mem (s : State) (gid t') : (s.unstall gid t').mem = s.mem := by
  grind [State.unstall, reissue_mem, foldl_mem]

@[simp] theorem unstallOn_mem (s : State) (core t') : (s.unstallOn core t').mem = s.mem := by
  grind [State.unstallOn, unstall_mem, foldl_mem]

/-! ### Power, clocks, errors and contexts -/

theorem restart_canon (s : State) (keepTime reason) : (s.restart keepTime reason).Canon := rfl

@[simp] theorem tellHost_mem (s : State) (kind arg data) : (s.tellHost kind arg data).mem = s.mem := by
  grind [State.tellHost]

@[simp] theorem frequencyStep_mem (s : State) (d mhz) : (s.step_ d mhz).mem = s.mem := rfl

theorem uncross_canon {s : State} (h : s.Canon) : (s.uncross).Canon := by
  grind [State.uncross, serveAgain_canon, receive_canon, foldl_canon]

@[simp] theorem kill_mem (s : State) (c cause) : (s.kill c cause).mem = s.mem := by
  grind [State.kill, fatal_mem, trigger_mem, dropTeam_mem, endGrid_mem, modCtx_mem, foldl_mem]

@[simp] theorem resumeClocks_mem (s : State) (c t') : (s.resumeClocks c t').mem = s.mem := rfl

@[simp] theorem timeStops_mem (s : State) : (s.timeStops).mem = s.mem := by
  grind [State.timeStops, resumeClocks_mem, modCtx_mem, foldl_mem]

@[simp] theorem reconfigure_mem (s : State) (c cfg clear) : (s.reconfigure c cfg clear).mem = s.mem := rfl

/-! ### The next slot and event -/

@[simp] theorem timeSweep_mem (s : State) (sls) : (s.timeSweep sls).1.mem = s.mem := by
  grind [State.timeSweep, modGroup_mem, modCore_mem]

theorem charge_ok_mem {s t : State} {sl g i} (e : s.charge sl g i = .ok t) : t.mem = s.mem := by
  grind [State.charge, modCore_mem, usePort_mem]

theorem charge_error_mem {s t : State} {sl g i} (e : s.charge sl g i = .error t) : t.mem = s.mem := by
  grind [State.charge, holdSlice_mem, usePort_mem]

theorem slotInstr_canon {s : State} (h : s.Canon) (sl) : (s.slotInstr sl).1.Canon := by
  unfold State.slotInstr
  dsimp only
  repeat' split
  all_goals grind [trapAt_canon, charge_ok_mem, charge_error_mem]

theorem nextSlot_canon {s : State} (h : s.Canon) : (s.nextSlot).1.Canon := by
  grind [State.nextSlot, timeSweep_mem, slotInstr_canon]

@[simp] theorem endSlot_mem (s : State) : (s.endSlot).mem = s.mem := rfl

@[simp] theorem atCand_mem (s : State) (c) : (s.atCand c).mem = s.mem := rfl

/-! ### The step -/

theorem noteBack_canon {s : State} (h : s.Canon) : (s.noteBack).Canon := by
  grind [State.noteBack]

end Sys2Proof.Machine
end

section

/-! Proofs. Memory stays canonical under the frames of instructions and steps, and under each instruction and event up to those of saved
teams. -/

open Sys2Proof Sys2Proof.Machine

namespace Sys2Proof.Machine

/-- What an instruction's meaning goes on with has canonical memory. -/
def OutCanon (o : Out) : Prop := ∀ t, o = .next t → t.Canon

/-- What a collective's step goes on with has canonical memory. -/
def StepCanon (r : StepRes) : Prop := ∀ t, r = .on t → t.Canon

theorem outCanon_next {t : State} (h : t.Canon) : OutCanon (.next t) := by
  rintro _ ⟨⟩
  exact h

theorem stepCanon_on {t : State} (h : t.Canon) : StepCanon (.on t) := by
  rintro _ ⟨⟩
  exact h

theorem StepCanon.ite {p : Prop} [Decidable p] {q r : StepRes} (hq : StepCanon q) (hr : StepCanon r) :
    StepCanon (if p then q else r) := by
  split
  · exact hq
  · exact hr

theorem inSlot_canon {i p s b} (hb : BodyCanon b) (h : s.Canon) : OutCanon (inSlot i p s b) := by
  unfold inSlot
  split
  · exact outCanon_next h
  · split
    · exact outCanon_next h
    · dsimp only
      split
      · exact outCanon_next (finish_canon h ..)
      · refine outCanon_next (finish_canon (hb _ _ _ _ ?_) ..)
        split
        · exact h.of_mem (latchRtime_mem ..)
        · exact h

theorem alu_canon {i p d f s} (h : s.Canon) : OutCanon (alu i p d f s) := by
  refine inSlot_canon (withNames_canon (perLane_canon fun s gid l h => ?_)) h
  dsimp only
  split
  · exact h.of_mem (raise_mem ..)
  · exact h.of_mem ((dstRun_mem ..).trans (raise_mem ..))

theorem compareOp_canon {i p k f s} (h : s.Canon) : OutCanon (compareOp i p k f s) := by
  refine inSlot_canon (perLane_canon fun s gid l h => ?_) h
  dsimp only
  split
  · exact h.of_mem (raise_mem ..)
  · exact h.of_mem ((setPair_mem ..).trans (raise_mem ..))

theorem cross_canon {i p d f s} (h : s.Canon) : OutCanon (cross i p d f s) := by
  refine inSlot_canon (withNames_canon fun s c g on h => ?_) h
  dsimp only
  split
  · exact h.of_mem (raise_mem ..)
  · exact h.of_mem ((foldl_mem_of (fun _ _ => dstRun_mem ..) ..).trans (raise_mem ..))

theorem issueS_canon {i p start a b f s} (hs : ∀ s : State, s.Canon → ∀ id, (start s id).Canon)
    (hf : ∀ s gid l, State.Canon s → (f s gid l).1.Canon) (h : s.Canon) : OutCanon (issueS i p start a b f s) := by
  refine inSlot_canon (withNames_canon fun s c g on h => ?_) h
  dsimp only
  split
  · exact h
  · have tried (ls : List Nat) : (ls.foldl (fun (r : State × List (Nat × Issue)) l =>
        ((f r.1 c.gid l).1, r.2 ++ [(l, (f r.1 c.gid l).2)])) (s.fresh.2, [])).1.Canon :=
      List.foldlRecOn (motive := fun r : State × List (Nat × Issue) => r.1.Canon) _ _ (h.of_mem (fresh_mem ..))
        fun r h l _ => hf r.1 c.gid l h
    refine State.Canon.ite (tried _) (executing_canon (fun s h => ?_) (tried _) ..)
    exact List.foldlRecOn _ _ h fun s h e _ => issueOp_canon hs h ..

theorem issue_canon {i p start a b f s} (hs : ∀ s : State, s.Canon → ∀ id, (start s id).Canon) (h : s.Canon) :
    OutCanon (issue i p start a b f s) :=
  issueS_canon hs (fun _ _ _ h => h) h

theorem asyncIssue_canon {i p d f s} (h : s.Canon) : OutCanon (asyncIssue i p d f s) := by
  refine inSlot_canon (withNames_canon fun s c g on h => ?_) h
  dsimp only
  generalize (match s.issueStall c on true true with
    | some st => some st
    | none => _) = stall
  split
  · exact h
  · split
    · exact h
    · refine executing_canon (fun s h => ?_) (h.of_mem (fresh_mem ..)) ..
      exact List.foldlRecOn _ _ h fun s h e _ => issueAsync_canon h ..

theorem anchored_canon {i p an a b c f s} (h : s.Canon) : OutCanon (anchored i p an a b c f s) := by
  refine inSlot_canon (fun s sl g on h => ?_) h
  dsimp only
  generalize (if sl.ex.isSome then none else s.issueStall sl on true true) = stall
  split
  · exact h
  · generalize hr : List.foldl _ _ _ = r
    have hr : r.1.Canon := by
      rw [← hr]
      refine List.foldlRecOn (motive := fun r : State × Bool × List (Nat × LaneRes) => r.1.Canon) _ _ ?_ fun r h l _ => ?_
      · split
        · exact h
        · exact h.of_mem ((raiseFlags_mem ..).trans (fresh_mem ..))
      · split
        · exact h
        · split
          · exact h
          · split
            · exact h
            · exact issueOp_canon (fun s h id => h.of_mem (sign_mem ..)) h ..
    split
    · exact hr
    · exact hr.of_mem (closeEx_mem ..)

theorem andThen_canon {o : Out} {f : State → State} (ho : OutCanon o) (hf : ∀ s : State, s.Canon → (f s).Canon) :
    OutCanon (andThen o f) := by
  cases o with
  | next s => exact outCanon_next (hf s (ho s rfl))
  | fault => exact fun _ e => nomatch e
  | refused => exact fun _ e => nomatch e

theorem ofAccess_canon {α : Type} {r : Except XErr α} {f : α → StepRes} (hf : ∀ x, r = .ok x → StepCanon (f x)) :
    StepCanon (ofAccess r f) := by
  unfold ofAccess
  split
  · exact hf _ rfl
  · exact fun _ e => nomatch e
  · exact fun _ e => nomatch e

theorem gated_canon {s : State} {k p va n f} (h : s.Canon) (hf : ∀ s : State, s.Canon → StepCanon (f s)) :
    StepCanon (s.gated k p va n f) := by
  have hg : (s.collGate k p va n).1.Canon := h.of_mem (collGate_mem ..)
  unfold State.gated
  split
  next e => exact hf _ (by rwa [e] at hg)
  next e => exact stepCanon_on (by rwa [e] at hg)

theorem reduceChunk_canon {s : State} {k p w f} (h : s.Canon) (hf : ∀ (s : State) e, s.Canon → StepCanon (f s e)) :
    StepCanon (s.reduceChunk k p w f) := by
  unfold State.reduceChunk
  split
  · exact fun _ e => nomatch e
  next e => exact ofAccess_canon fun x hx => hf _ _ (readCarry_canon (h.of_mem (takeChunk_mem e)) hx)

theorem putChunk_canon {s : State} {k p va bs comb} (h : s.Canon) : StepCanon (s.putChunk k p va bs comb) := by
  refine ofAccess_canon fun t ht => stepCanon_on ?_
  have ht := collWrite_canon h ht
  refine State.Canon.of_mem ?_ (nextStep_mem ..)
  split
  · split
    · exact ht
    · exact ht.of_mem (escape_mem ..)
  · exact ht

theorem sendChunk_canon {s : State} {k p rank va bs} (h : s.Canon) : StepCanon (s.sendChunk k p rank va bs) := by
  unfold State.sendChunk
  dsimp only
  refine StepCanon.ite (fun _ e => nomatch e) ?_
  split
  · exact stepCanon_on (h.of_mem ((modProg_mem ..).trans (modProg_mem ..)))
  · split
    · exact fun _ e => nomatch e
    next hs => exact stepCanon_on (h.of_mem ((modProg_mem ..).trans ((send_mem hs).trans (modProg_mem ..))))

theorem ownStep_canon {s : State} {k q} (h : s.Canon) : StepCanon (ownStep s k q) := by
  cases q with
  | none => exact fun _ e => nomatch e
  | some q => exact stepCanon_on h

theorem sendDo_canon {s : State} {w k p} (h : s.Canon) : StepCanon (sendDo w s k p) := by
  unfold sendDo
  dsimp only
  refine StepCanon.ite (fun _ e => nomatch e) (ofAccess_canon fun x hx => ?_)
  have hx : x.1.Canon := by
    split at hx
    · obtain ⟨y, hy, rfl⟩ := map_eq_ok hx
      exact readCarry_canon h hy
    · exact collRead_canon h hx
  have hsent := sendChunk_canon (k := k) (p := p) (rank := p.rank w.pa) (va := p.chunk w w.bs) (bs := x.2) hx
  split
  next u e => exact stepCanon_on ((hsent _ e).of_mem (nextStep_mem ..))
  · exact hsent

theorem recvDo_canon {s : State} {w k p} (h : s.Canon) : StepCanon (recvDo w s k p) := by
  refine StepCanon.ite (fun _ e => nomatch e) (gated_canon h fun s h => ?_)
  split
  · exact fun _ e => nomatch e
  next e => exact putChunk_canon (h.of_mem (takeChunk_mem e))

theorem rrsDo_canon {s : State} {w k p} (h : s.Canon) : StepCanon (rrsDo w s k p) := by
  refine StepCanon.ite (fun _ e => nomatch e) (reduceChunk_canon h fun s e h => ?_)
  have hsent := sendChunk_canon (k := k) (p := p) (rank := p.rank w.pb) (va := p.chunk w w.bs) (bs := carryBytes e) h
  split
  next u e => exact stepCanon_on ((hsent _ e).of_mem (nextStep_mem ..))
  · exact hsent

theorem rrwDo_canon {s : State} {w k p} (h : s.Canon) : StepCanon (rrwDo w s k p) := by
  refine StepCanon.ite (fun _ e => nomatch e) (gated_canon h fun s h => StepCanon.ite ?_ ?_)
  · split
    · exact fun _ e => nomatch e
    next e => exact putChunk_canon (h.of_mem (takeChunk_mem e))
  · exact reduceChunk_canon h fun s e h => putChunk_canon h

theorem copyDo_canon {s : State} {w k p} (h : s.Canon) : StepCanon (copyDo w s k p) :=
  gated_canon h fun _ h => StepCanon.ite
    (ofAccess_canon fun _ hx => putChunk_canon (readCarry_canon h hx))
    (ofAccess_canon fun _ hx => putChunk_canon (collRead_canon h hx))

theorem waitDo_canon {s : State} {w k p} (h : s.Canon) : StepCanon (waitDo w s k p) :=
  StepCanon.ite (stepCanon_on (h.of_mem (nextStep_mem ..))) (fun _ e => nomatch e)

theorem signalDo_canon {s : State} {w k p} (h : s.Canon) : StepCanon (signalDo w s k p) :=
  StepCanon.ite (fun _ e => nomatch e) (StepCanon.ite
    (gated_canon h fun _ h => ofAccess_canon fun _ hx => stepCanon_on ((collWrite_canon h hx).of_mem (nextStep_mem ..)))
    (stepCanon_on (scbUpdate_canon (h.of_mem (nextStep_mem ..)) ..)))

theorem endDo_canon {s : State} {k p} (h : s.Canon) : StepCanon (endDo s k p) :=
  StepCanon.ite (stepCanon_on (progEnd_canon h ..)) (fun _ e => nomatch e)

theorem inStep_canon {src f s} (hf : ∀ s k p, State.Canon s → StepCanon (f s k p)) (h : s.Canon) : OutCanon (inStep src f s) := by
  unfold inStep
  split
  · exact outCanon_next h
  split
  · exact outCanon_next h
  next k _ _ p _ =>
  split
  · exact outCanon_next h
  have hc := chunkReady_canon h k p (src p)
  split
  next e => exact outCanon_next (by rwa [e] at hc)
  next t e =>
    have ht : t.Canon := by rwa [e] at hc
    split
    · exact outCanon_next ht
    · exact outCanon_next (progFail_canon ht ..)
    next hu => exact outCanon_next ((hf t k p ht _ hu).of_mem (giveCredits_mem ..))

/-! ### Integer instructions -/

theorem execPlop_canon {s : State} (h : s.Canon) {p x d a b} :
    OutCanon (execPlop p x d a b s) := inSlot_canon (perLane_canon (fun s gid l h => by exact h)) h

/-! ### Accesses, atomics, fences and queue windows -/

theorem execFence_canon {s : State} (h : s.Canon) {p x} :
    OutCanon (execFence p x s) :=
  inSlot_canon (perLane_canon (fun s gid l h => by grind [modThread_mem, drainThread_mem, fenceEnd_mem])) h

theorem execQpush_canon {s : State} (h : s.Canon) {p x d a} :
    OutCanon (execQpush p x d a s) :=
  inSlot_canon (underLimit_canon (perLane_canon (fun s gid l h => by grind [drainThread_mem, → push_mem]))) h

theorem execQpop_canon {s : State} (h : s.Canon) {p x d a} :
    OutCanon (execQpop p x d a s) :=
  inSlot_canon (withNames_canon (underLimit_canon (perLane_canon (fun s gid l h => by grind [dst32_mem, drainThread_mem, → pop_mem])))) h

/-! ### Asynchronous operations, barriers and tickets -/

theorem execBinit_canon {s : State} (h : s.Canon) {p a b} :
    OutCanon (execBinit p a b s) := inSlot_canon (fun _ _ _ _ h => barUpdate_canon h ..) h

theorem execBexp_canon {s : State} (h : s.Canon) {p a b} :
    OutCanon (execBexp p a b s) := inSlot_canon (fun _ _ _ _ h => barUpdate_canon h ..) h

theorem execBarr_canon {s : State} (h : s.Canon) {p a} :
    OutCanon (execBarr p a s) := inSlot_canon (afterStores_canon (fun _ _ _ _ h => barUpdate_canon h ..)) h

theorem execBwait_canon {s : State} (h : s.Canon) {p d a b} :
    OutCanon (execBwait p d a b s) :=
  inSlot_canon (withNames_canon (perLane_canon (fun s gid l h => by grind [acquire_mem, dst32_mem]))) h

theorem execBtest_canon {s : State} (h : s.Canon) {p d a b} :
    OutCanon (execBtest p d a b s) := inSlot_canon (perLane_canon (fun s gid l h => by grind [acquire_mem, setPair_mem])) h

theorem execPwait_canon {s : State} (h : s.Canon) {p a} :
    OutCanon (execPwait p a s) := inSlot_canon (perLane_canon (fun s gid l h => by grind [pwaitNow_mem])) h

theorem execPtest_canon {s : State} (h : s.Canon) {p d a} :
    OutCanon (execPtest p d a s) := inSlot_canon (perLane_canon (fun s gid l h => by grind [setPair_mem, ticketAcquire_mem])) h

theorem execCancel_canon {s : State} (h : s.Canon) {p d a} :
    OutCanon (execCancel p d a s) := inSlot_canon (withNames_canon (perLane_canon (fun s gid l h => by grind [dst32_mem, modOp_mem]))) h

/-! ### Control -/

theorem execBra_canon {s : State} (h : s.Canon) {p imm} : OutCanon (execBra p imm s) := inSlot_canon (fun s c g on h => by exact h) h

theorem execBrx_canon {s : State} (h : s.Canon) {p a} :
    OutCanon (execBrx p a s) := inSlot_canon (perLane_canon (fun s gid l h => by exact h)) h

theorem execRet_canon {s : State} (h : s.Canon) {p a} :
    OutCanon (execRet p a s) := inSlot_canon (perLane_canon (fun s gid l h => by exact h)) h

theorem execCall_canon {s : State} (h : s.Canon) {p d imm} : OutCanon (execCall p d imm s) :=
  inSlot_canon (withNames_canon fun s c g on h => perLane_canon (fun _ _ _ h => h.of_mem (dst32_mem ..)) s c g on h) h

theorem execBrh_canon {s : State} (h : s.Canon) {p imm a} : OutCanon (execBrh p imm a s) :=
  inSlot_canon (fun s c g on h => perLane_canon (fun _ _ _ h => h) s c g on h) h

theorem execWaith_canon {s : State} (h : s.Canon) {p a} :
    OutCanon (execWaith p a s) := inSlot_canon (perLane_canon (fun s gid l h => by grind [drainThread_mem])) h

theorem execReconv_canon {s : State} (h : s.Canon) {p} : OutCanon (execReconv p s) := by
  refine andThen_canon (inSlot_canon (fun s c g on h => h) h) fun t ht => ?_
  split
  · exact ht.of_mem (checkReconv_mem ..)
  · exact ht

theorem execBar_canon {s : State} (h : s.Canon) {p x a} : OutCanon (execBar p x a s) := by
  refine inSlot_canon (fun s c g on h => ?_) h
  extract_lets tid k here step
  have hstep (r : State × List Nat × List (Nat × LaneRes)) (l : Nat) (h : r.1.Canon) : (step r l).1.Canon := by
    obtain ⟨s, pend, rs⟩ := r
    have ha : (s.arrive c.gid l tid k (s.src32 c.gid l a)).1.Canon := h.of_mem (arrive_mem ..)
    unfold step
    clear_value k
    dsimp only
    split
    · exact h
    split
    · exact ha
    split <;> exact ha
  have hr : (on.foldl step (s, [], [])).1.Canon :=
    List.foldlRecOn (motive := fun r : State × List Nat × List (Nat × LaneRes) => r.1.Canon) _ _ h fun r h l _ => hstep r l h
  clear_value step
  split
  · exact h
  split
  · exact h
  · exact State.Canon.ite (hr.of_mem (acquire_mem ..)) hr

theorem execSleep_canon {s : State} (h : s.Canon) {p a} :
    OutCanon (execSleep p a s) := inSlot_canon (perLane_canon (fun s gid l h => by exact h)) h

theorem execWaitf_canon {s : State} (h : s.Canon) {p x d a b} : OutCanon (execWaitf p x d a b s) := by
  unfold execWaitf
  refine inSlot_canon (withNames_canon fun s c g on h => ?_) h
  split
  · split
    · exact h
    next l rest =>
      have hf := wfFirst_canon h x d a b c.gid l
      split
      next e => exact State.Canon.of_mem (by rwa [e] at hf) (wfShare_mem ..)
      next e => rwa [e] at hf
      next e => rwa [e] at hf
  · exact runLanes_canon (fun s l h => wfFirst_canon h ..) h on

theorem execExit_canon {s : State} (h : s.Canon) {p} :
    OutCanon (execExit p s) :=
  inSlot_canon (fun s c g on h => by grind [modGroup_mem, modThread_mem, exitDone_canon, unmap_mem, drainThread_mem, foldl_canon]) h

theorem execTrap_canon {s : State} (h : s.Canon) {p imm} : OutCanon (execTrap p imm s) := inSlot_canon (fun s c g on h => by exact h) h

theorem execRft_canon {s : State} (h : s.Canon) {p} :
    OutCanon (execRft p s) := inSlot_canon (fun s c g on h => by grind [returnAll_canon]) h

theorem execGetsr_canon {s : State} (h : s.Canon) {p d a} : OutCanon (execGetsr p d a s) := by
  unfold execGetsr
  exact inSlot_canon (withNames_canon fun _ _ _ on h => runLanes_canon
    (fun _ _ h => State.Canon.ite (h.of_mem (getSr_mem ..)) (h.of_mem ((dst32_mem ..).trans (getSr_mem ..)))) h on) h

theorem execSetsr_canon {s : State} (h : s.Canon) {p d a} :
    OutCanon (execSetsr p d a s) := inSlot_canon (perLane_canon (fun s gid l h => by grind [setSr_mem])) h

theorem execYieldH_canon {s : State} (h : s.Canon) {p} :
    OutCanon (execYieldH p s) := inSlot_canon (perLane_canon (fun s gid l h => by exact h)) h

theorem execRacq_canon {s : State} (h : s.Canon) {p a} :
    OutCanon (execRacq p a s) := inSlot_canon (perLane_canon (fun s gid l h => by grind [→ drawTo_mem])) h

theorem execRrel_canon {s : State} (h : s.Canon) {p} :
    OutCanon (execRrel p s) := inSlot_canon (perLane_canon (fun s gid l h => by grind [shrink_mem])) h

theorem execNop_canon {s : State} (h : s.Canon) {p} : OutCanon (execNop p s) := inSlot_canon (fun s c g on h => by exact h) h

theorem execSnap_canon {s : State} (h : s.Canon) {p a} :
    OutCanon (execSnap p a s) := inSlot_canon (perLane_canon (fun s gid l h => by grind [trigger_mem])) h

/-! ### Launch, placement and admission -/

theorem execLaunch_canon {s : State} (h : s.Canon) {p d a} : OutCanon (execLaunch p d a s) := by
  refine inSlot_canon (fun s c g on h => afterStores_canon (perLane_canon fun s gid l h => ?_) s c g on h) h
  dsimp only
  split
  · exact h
  split
  · exact h.of_mem (dst32_mem ..)
  · exact h
  next hc =>
    have hc := cread_canon h hc
    split
    · exact hc.of_mem (dst32_mem ..)
    · exact hc
    next hq => exact (queueRecord_canon hc hq).of_mem (dst32_mem ..)

theorem execWaitl_canon {s : State} (h : s.Canon) {p d a} :
    OutCanon (execWaitl p d a s) := inSlot_canon (perLane_canon (fun s gid l h => by grind [acquire_mem, dst32_mem])) h

theorem execHostIntake_canon {s : State} (h : s.Canon) : OutCanon (execHostIntake s) := by
  intro t e
  grind [execHostIntake, → queueRecord_canon]

theorem execGridQueueHead_canon {s : State} (h : s.Canon) : OutCanon (execGridQueueHead s) := by
  intro t e
  grind [execGridQueueHead, modGrid_mem, retest_mem]

theorem execEffectivePriorityAging_canon {s : State} (h : s.Canon) : OutCanon (execEffectivePriorityAging s) := by
  intro t e
  grind [execEffectivePriorityAging, modGrid_mem]

theorem execTeamPlacement_canon {s : State} (h : s.Canon) : OutCanon (execTeamPlacement s) := by
  unfold execTeamPlacement
  split
  · split
    · cases e : s.placeNext s.sel.a with
      | none => exact outCanon_next h
      | some t => exact outCanon_next (placeNext_canon h e)
    · exact outCanon_next h
  · exact outCanon_next h

theorem execClusterReservation_canon {s : State} (h : s.Canon) : OutCanon (execClusterReservation s) := by
  intro t e
  grind [execClusterReservation]

theorem execGridEnd_canon {s : State} (h : s.Canon) : OutCanon (execGridEnd s) := by
  intro t e
  grind [execGridEnd, endGrid_mem]

theorem execEnergyWindowEnd_canon {s : State} (h : s.Canon) : OutCanon (execEnergyWindowEnd s) := by
  intro t e
  grind [execEnergyWindowEnd, modGrid_mem, freeNum_mem, modCtx_mem, foldl_canon]

/-! ### Records, acceptance and stealing -/

theorem execSpawn_canon {s : State} (h : s.Canon) {p x a b} : OutCanon (execSpawn p x a b s) := by
  unfold execSpawn
  dsimp only
  split
  · exact issue_canon (fun s h id => h.of_mem (startSpawn_mem ..)) h
  · refine inSlot_canon (afterStores_canon fun s c g on h => runLanes_canon (fun s l h => ?_) h on) h
    split
    · exact h
    split
    next e => exact binAccept_canon h e
    · exact h

theorem execBinTimerExpiry_canon {s : State} (h : s.Canon) : OutCanon (execBinTimerExpiry s) := by
  intro t e
  grind [execBinTimerExpiry, binLaunch_canon]

theorem execBinDeferredLaunch_canon {s : State} (h : s.Canon) : OutCanon (execBinDeferredLaunch s) := outCanon_next (binLaunch_canon h ..)

theorem execSpillRefill_canon {s : State} (h : s.Canon) : OutCanon (execSpillRefill s) := by
  intro t e
  grind [execSpillRefill, modCore_mem, → unspill_canon]

theorem execSteal_canon {s : State} (h : s.Canon) {p d a} :
    OutCanon (execSteal p d a s) := inSlot_canon (perLane_canon (fun s gid l h => by grind [dst32_mem])) h

theorem execStealRequest_canon {s : State} (h : s.Canon) : OutCanon (execStealRequest s) := by
  intro t e
  unfold execStealRequest at e
  dsimp only at e
  repeat' split at e
  all_goals grind [stealAnswer_mem, lendRec_mem, foldl_canon]

theorem execStealAnswerTimeout_canon {s : State} (h : s.Canon) : OutCanon (execStealAnswerTimeout s) := by
  intro t e
  grind [execStealAnswerTimeout, stealAnswer_mem]

theorem execStealCopyArrival_canon {s : State} (h : s.Canon) : OutCanon (execStealCopyArrival s) := by
  intro t e
  grind [execStealCopyArrival, modLend_mem]

theorem execStealAck_canon {s : State} (h : s.Canon) : OutCanon (execStealAck s) := by
  intro t e
  grind [execStealAck, modCore_mem, modLend_mem]

theorem execStealConfirm_canon {s : State} (h : s.Canon) : OutCanon (execStealConfirm s) := by
  intro t e
  grind [execStealConfirm, modCore_mem, binLaunch_canon]

theorem execStealRefusal_canon {s : State} (h : s.Canon) : OutCanon (execStealRefusal s) := by
  intro t e
  grind [execStealRefusal]

theorem execLendTimeout_canon {s : State} (h : s.Canon) : OutCanon (execLendTimeout s) := by
  intro t e
  grind [execLendTimeout, modCore_mem, binLaunch_canon]

theorem execThiefCoreReset_canon {s : State} (h : s.Canon) : OutCanon (execThiefCoreReset s) := by
  intro t e
  grind [execThiefCoreReset]

theorem execVictimCoreReset_canon {s : State} (h : s.Canon) : OutCanon (execVictimCoreReset s) := by
  intro t e
  grind [execVictimCoreReset, → spill_canon, modCore_mem, foldl_canon]

theorem execAdmission_canon {s : State} (h : s.Canon) : OutCanon (execAdmission s) := by
  intro t e
  grind [execAdmission, → admitGrid_canon]

/-! ### Suspension, resumption and saved teams -/

theorem execSuspend_canon {s : State} (h : s.Canon) {p d a} :
    OutCanon (execSuspend p d a s) := inSlot_canon (perLane_canon (fun s gid l h => by grind [drainThread_mem, foldl_canon])) h

theorem execSuspendWrite_canon {s : State} (h : s.Canon) : OutCanon (execSuspendWrite s) := by
  intro t e
  unfold execSuspendWrite at e
  dsimp only at e
  repeat' split at e
  all_goals grind [suspFails_canon, → cread_canon, retireGroup_mem, detach_mem, writeObj_canon]

theorem execRestoredGroupStart_canon {s : State} (h : s.Canon) : OutCanon (execRestoredGroupStart s) := by
  intro t e
  grind [execRestoredGroupStart, modGroup_mem, startRestored_mem, → drawTo_mem]

theorem execResumeClaim_canon {s : State} (h : s.Canon) : OutCanon (execResumeClaim s) := by
  intro t e
  grind [execResumeClaim, claim_canon]

theorem execCdiscard_canon {s : State} (h : s.Canon) {p d a} :
    OutCanon (execCdiscard p d a s) :=
  inSlot_canon (withNames_canon (afterStores_canon (perLane_canon (fun s gid l h => by grind [dst32_mem, → casState_canon])))) h

theorem execCcopyComplete_canon {s : State} (h : s.Canon) : OutCanon (execCcopyComplete s) := by
  intro t e
  grind [execCcopyComplete, ccopyDone_canon]

theorem execPreemption_canon {s : State} (h : s.Canon) : OutCanon (execPreemption s) := by
  intro t e
  grind [execPreemption, unhold_mem]

theorem execTeamSave_canon {s : State} (h : s.Canon) : OutCanon (execTeamSave s) := by
  unfold execTeamSave
  split
  · exact outCanon_next h
  dsimp only
  split
  · exact outCanon_next h
  split
  · exact outCanon_next h
  · exact outCanon_next (h.of_mem (unhold_mem ..))
  next e =>
    have hs := List.foldlRecOn (motive := fun r : Except XErr State => ∀ t, r = .ok t → t.Canon) _ _
      (by grind) (fun r hr e _ t ht => by cases r with
        | error => cases ht
        | ok s => exact saveTeam_canon (hr s rfl) ht) _ e
    exact outCanon_next (hs.of_mem (foldl_mem_of (fun _ _ => dropTeam_mem ..) ..))

theorem execTeamRestore_canon {s : State} (h : s.Canon) : OutCanon (execTeamRestore s) := by
  unfold execTeamRestore
  split
  · exact outCanon_next h
  next v _ =>
  generalize (_ || _ || _ : Bool) = wait
  split
  · exact outCanon_next h
  dsimp only
  split
  · exact outCanon_next h
  next rc ps _ =>
    have hc := claimRecords_canon h ((s.savedWith s.sel.a v).map Prod.snd) (ps.map Prod.fst)
    split
    · exact outCanon_next h
    next e => exact outCanon_next (State.Canon.of_mem (by rwa [e] at hc) (recordLost_mem ..))
    next e =>
      rw [e] at hc
      refine outCanon_next (show State.Canon (List.foldl _ _ _) from List.foldlRecOn _ _ ?_ fun s h x _ => putBack_canon h ..)
      exact hc.of_mem (addCluster_mem _ v.cluster.cols v.cluster.rows rc v.cluster.nthr)

theorem execCheckpoint_canon {s : State} (h : s.Canon) : OutCanon (execCheckpoint s) := by
  intro t e
  grind [execCheckpoint, resumeTeam_canon, → saveTeam_canon, unhold_mem]

end Sys2Proof.Machine
end

section

/-! Proofs. Memory stays canonical under the instructions and events of the fabric, memory, slices and the device, and so under every
step. -/

open Sys2Proof Sys2Proof.Machine

namespace Sys2Proof.Machine

/-! ### Multicast, pulled reductions and gangs -/

theorem execMcst_canon {s : State} (h : s.Canon) {p x d a b} : OutCanon (execMcst p x d a b s) :=
  andThen_canon (issue_canon (fun _ h _ => byBelay_canon (fun _ h _ => h) h _) h) fun _ h => mcstFetches_canon h

theorem execMcastRound_canon {s : State} (h : s.Canon) : OutCanon (execMcastRound s) := by
  intro t e
  unfold execMcastRound at e
  dsimp only at e
  repeat' split at e
  all_goals grind [mcstOwn_canon, mcstSend_canon, mcstDone_canon, modOp_mem, mcstFetch_canon, foldl_mem, foldl_canon]

theorem execLaneRetuneDone_canon {s : State} (h : s.Canon) : OutCanon (execLaneRetuneDone s) := outCanon_next (h.of_mem (modOp_mem ..))

theorem execMcastReplyTimeout_canon {s : State} (h : s.Canon) : OutCanon (execMcastReplyTimeout s) := by
  intro t e
  grind [execMcastReplyTimeout, mcstNack_canon]

theorem execRloadRepliesComplete_canon {s : State} (h : s.Canon) : OutCanon (execRloadRepliesComplete s) := by
  unfold execRloadRepliesComplete
  extract_lets id
  split
  · exact outCanon_next h
  split
  case h_2 => exact outCanon_next h
  extract_lets i s1
  have h1 : s1.Canon := by grind [rloadOwn_canon]
  clear_value s1
  split
  · exact outCanon_next h
  split
  · exact outCanon_next (byBelay_canon (fun s h id => startRload_canon h id) h id)
  split
  · split
    · exact outCanon_next h1
    split
    · exact outCanon_next (rloadEnd_canon h1 ..)
    · exact outCanon_next (rloadEnd_canon h1 ..)
  · exact outCanon_next h1

theorem execRloadServerFallback_canon {s : State} (h : s.Canon) : OutCanon (execRloadServerFallback s) := by
  intro t e
  grind [execRloadServerFallback, rloadMove_canon, modOp_mem, modDie_mem, startRload_canon, byBelay_canon]

theorem execWcDrain_canon {s : State} (h : s.Canon) : OutCanon (execWcDrain s) := by
  intro t e
  grind [execWcDrain, flushes_mem, drain_mem]

theorem execWcEntryAgeExpiry_canon {s : State} (h : s.Canon) : OutCanon (execWcEntryAgeExpiry s) := by
  intro t e
  grind [execWcEntryAgeExpiry, flushes_mem, drain_mem]

theorem execBinRecordAccept_canon {s : State} (h : s.Canon) : OutCanon (execBinRecordAccept s) := by
  intro t e
  grind [execBinRecordAccept, acceptSpawn_canon, rspawnGo_canon]

theorem execGangPrepare_canon {s : State} (h : s.Canon) : OutCanon (execGangPrepare s) := by
  intro t e
  grind [execGangPrepare, memberPrepare_canon, ownPrepare_canon, flitIn_mem]

theorem execGangPrepared_canon {s : State} (h : s.Canon) : OutCanon (execGangPrepared s) := outCanon_next (h.of_mem (flitIn_mem ..))

theorem execGangRefused_canon {s : State} (h : s.Canon) : OutCanon (execGangRefused s) := outCanon_next (h.of_mem (flitIn_mem ..))

theorem execGangGo_canon {s : State} (h : s.Canon) : OutCanon (execGangGo s) := by
  intro t e
  grind [execGangGo, memberGo_mem, flitIn_mem]

theorem execGangGoAck_canon {s : State} (h : s.Canon) : OutCanon (execGangGoAck s) := outCanon_next (h.of_mem (flitIn_mem ..))

theorem execGangAbort_canon {s : State} (h : s.Canon) : OutCanon (execGangAbort s) := outCanon_next (h.of_mem (flitIn_mem ..))

theorem execGangTear_canon {s : State} (h : s.Canon) : OutCanon (execGangTear s) := outCanon_next (h.of_mem (flitIn_mem ..))

theorem execGangPrepareTimeout_canon {s : State} (h : s.Canon) : OutCanon (execGangPrepareTimeout s) := by
  intro t e
  grind [execGangPrepareTimeout, gangAbortAll_mem]

theorem execGangGoWaitTimeout_canon {s : State} (h : s.Canon) : OutCanon (execGangGoWaitTimeout s) := by
  intro t e
  grind [execGangGoWaitTimeout, gangRelease_mem]

theorem execGangAckTimeout_canon {s : State} (h : s.Canon) : OutCanon (execGangAckTimeout s) := by
  intro t e
  grind [execGangAckTimeout, gangTorn_mem, gangSend_mem, fail_mem]

/-! ### Scoreboards, armed operations and collectives -/

theorem execCollProgramStart_canon {s : State} (h : s.Canon) : OutCanon (execCollProgramStart s) := by
  unfold execCollProgramStart
  extract_lets k
  split
  · exact outCanon_next h
  next p _ =>
  extract_lets ready
  split
  · exact outCanon_next h
  split
  next va _ =>
    have hg : (s.gateAt p.ctx va 64 k 0).1.Canon := h.of_mem (gateAt_mem ..)
    split
    · exact outCanon_next (progFail_canon h ..)
    split
    next e => exact outCanon_next (hg.of_fst e)
    next e =>
      have ht := hg.of_fst e
      split
      · exact outCanon_next ht
      · exact outCanon_next (progFail_canon ht ..)
      next hr =>
        have hr := gread_canon ht hr
        split
        · exact outCanon_next (progFail_canon hr ..)
        · exact outCanon_next (hr.of_mem (modProg_mem ..))
  · have hg : (s.gateAt p.ctx p.d.prog 32768 k 0).1.Canon := h.of_mem (gateAt_mem ..)
    split
    · split
      · split
        · exact outCanon_next (h.of_mem (modProg_mem ..))
        · exact outCanon_next (h.of_mem (modProg_mem ..))
        · exact outCanon_next (State.Canon.ite h (askNext_canon h ..))
      split
      next e => exact outCanon_next (hg.of_fst e)
      next e =>
        have ht := hg.of_fst e
        split
        · exact outCanon_next ht
        next hr => exact outCanon_next (State.Canon.of_mem (State.Canon.of_fst (readWords_canon ht ..) hr) (modProg_mem ..))
    split
    · exact outCanon_next (progFail_canon h ..)
    split
    · exact outCanon_next h
    · exact outCanon_next (h.of_mem ((giveCredits_mem ..).trans ((modProg_mem ..).trans (touch_mem ..))))

theorem execSend_canon {s : State} (h : s.Canon) {w} : OutCanon (execSend w s) := inStep_canon (fun _ _ _ h => sendDo_canon h) h

theorem execRecv_canon {s : State} (h : s.Canon) {w} : OutCanon (execRecv w s) := inStep_canon (fun _ _ _ h => recvDo_canon h) h

theorem execRrs_canon {s : State} (h : s.Canon) {w} : OutCanon (execRrs w s) := inStep_canon (fun _ _ _ h => rrsDo_canon h) h

theorem execRrw_canon {s : State} (h : s.Canon) {w} : OutCanon (execRrw w s) := inStep_canon (fun _ _ _ h => rrwDo_canon h) h

theorem execCopyStep_canon {s : State} (h : s.Canon) {w} : OutCanon (execCopyStep w s) := inStep_canon (fun _ _ _ h => copyDo_canon h) h

theorem execWaitStep_canon {s : State} (h : s.Canon) {w} : OutCanon (execWaitStep w s) := inStep_canon (fun _ _ _ h => waitDo_canon h) h

theorem execLoopStep_canon {s : State} (h : s.Canon) {w} : OutCanon (execLoopStep w s) := inStep_canon (fun _ _ _ h => ownStep_canon h) h

theorem execEndl_canon {s : State} (h : s.Canon) {w} : OutCanon (execEndl w s) := inStep_canon (fun _ _ _ h => ownStep_canon h) h

theorem execPeerStep_canon {s : State} (h : s.Canon) {w} : OutCanon (execPeerStep w s) := inStep_canon (fun _ _ _ h => ownStep_canon h) h

theorem execSignal_canon {s : State} (h : s.Canon) {w} : OutCanon (execSignal w s) := inStep_canon (fun _ _ _ h => signalDo_canon h) h

theorem execEndStep_canon {s : State} (h : s.Canon) {w} : OutCanon (execEndStep w s) := inStep_canon (fun _ _ _ h => endDo_canon h) h

theorem execProgramFault_canon {s : State} (h : s.Canon) : OutCanon (execProgramFault s) := by
  intro t e
  grind [execProgramFault, progEnd_canon, progFail_canon]

theorem execChunkTimeout_canon {s : State} (h : s.Canon) : OutCanon (execChunkTimeout s) := by
  intro t e
  grind [execChunkTimeout, progFail_canon]

theorem execCdata_canon {s : State} (h : s.Canon) : OutCanon (execCdata s) := outCanon_next (h.of_mem (flitIn_mem ..))

theorem execCctl_canon {s : State} (h : s.Canon) : OutCanon (execCctl s) := outCanon_next (h.of_mem (flitIn_mem ..))

/-! ### What arrives on the links -/

theorem execSpillWaitEnd_canon {s : State} (h : s.Canon) : OutCanon (execSpillWaitEnd s) := by
  intro t e
  grind [execSpillWaitEnd, serveAgain_canon, modThread_mem, acceptSpawn_canon, foldl_canon]

theorem execRemoteTimeout_canon {s : State} (h : s.Canon) : OutCanon (execRemoteTimeout s) := by
  intro t e
  grind [execRemoteTimeout, asyncEnd_canon, flushes_mem, conclude_canon, rloadEnd_canon, nackFor_canon, fail_mem]

theorem execPreamble_canon {s : State} (h : s.Canon) : OutCanon (execPreamble s) := by
  intro t e
  grind [execPreamble]

theorem execRead_canon {s : State} (h : s.Canon) : OutCanon (execRead s) := outCanon_next (h.of_mem (flitIn_mem ..))

theorem execWrite_canon {s : State} (h : s.Canon) : OutCanon (execWrite s) := outCanon_next (h.of_mem (flitIn_mem ..))

theorem execWdata_canon {s : State} (h : s.Canon) : OutCanon (execWdata s) := outCanon_next (h.of_mem (flitIn_mem ..))

theorem execAtomic_canon {s : State} (h : s.Canon) : OutCanon (execAtomic s) := outCanon_next (h.of_mem (flitIn_mem ..))

theorem execMcast_canon {s : State} (h : s.Canon) : OutCanon (execMcast s) := outCanon_next (h.of_mem (flitIn_mem ..))

theorem execSpawnFlit_canon {s : State} (h : s.Canon) : OutCanon (execSpawnFlit s) := outCanon_next (h.of_mem (flitIn_mem ..))

theorem execRdata_canon {s : State} (h : s.Canon) : OutCanon (execRdata s) := outCanon_next (h.of_mem (flitIn_mem ..))

theorem execAck_canon {s : State} (h : s.Canon) : OutCanon (execAck s) := outCanon_next (h.of_mem (flitIn_mem ..))

theorem execNack_canon {s : State} (h : s.Canon) : OutCanon (execNack s) := outCanon_next (h.of_mem (flitIn_mem ..))

theorem execGrant_canon {s : State} (h : s.Canon) : OutCanon (execGrant s) := outCanon_next (h.of_mem (flitIn_mem ..))

theorem execLinkctl_canon {s : State} (h : s.Canon) : OutCanon (execLinkctl s) := by
  intro t e
  grind [execLinkctl, linkctlIn_mem, takeFlit_mem]

theorem execInteg_canon {s : State} (h : s.Canon) : OutCanon (execInteg s) := by
  intro t e
  grind [execInteg, modLink_mem, giveBack_mem, receive_canon, sendCtl_mem, foldl_canon]

theorem execSealedBlockClose_canon {s : State} (h : s.Canon) : OutCanon (execSealedBlockClose s) := by
  intro t e
  grind [execSealedBlockClose, pump_mem, modLinkOf_mem]

theorem execRekeyStart_canon {s : State} (h : s.Canon) : OutCanon (execRekeyStart s) := by
  intro t e
  grind [execRekeyStart, modLinkOf_mem, sendCtl_mem]

theorem execKeyInstall_canon {s : State} (h : s.Canon) : OutCanon (execKeyInstall s) := by
  intro t e
  grind [execKeyInstall, modLinkOf_mem, sendCtl_mem]

theorem execGenFlip_canon {s : State} (h : s.Canon) : OutCanon (execGenFlip s) := by
  intro t e
  grind [execGenFlip, pump_mem, modLinkOf_mem]

theorem execOldKeyErase_canon {s : State} (h : s.Canon) : OutCanon (execOldKeyErase s) := by
  intro t e
  grind [execOldKeyErase, modLinkOf_mem]

theorem execPlaneLoss_canon {s : State} (h : s.Canon) : OutCanon (execPlaneLoss s) := by
  intro t e
  grind [execPlaneLoss, resend_mem, rechoose_mem, unqueue_mem, foldl_mem]

theorem execPlaneOnline_canon {s : State} (h : s.Canon) : OutCanon (execPlaneOnline s) :=
  outCanon_next (h.of_mem (rechoose_mem (change := fun t => { t with planesOff := t.planesOff.filter (· ≠ s.sel.a) }) (fun _ => rfl) s))

theorem execUetRmaWrite_canon {s : State} (h : s.Canon) : OutCanon (execUetRmaWrite s) := by
  intro t e
  grind [execUetRmaWrite, touch_mem, writePhys_canon, clearPoison_mem]

theorem execCxlExpanderRemoval_canon {s : State} (h : s.Canon) : OutCanon (execCxlExpanderRemoval s) := by
  intro t e
  grind [execCxlExpanderRemoval]

/-! ### The matrix engine -/

theorem execManch_canon {s : State} (h : s.Canon) {p d a} :
    OutCanon (execManch p d a s) := inSlot_canon (perLane_canon (fun s gid l h => by grind [modTeam_mem, fail_mem, foldl_canon])) h

theorem execTdef_canon {s : State} (h : s.Canon) {p id a} :
    OutCanon (execTdef p id a s) := inSlot_canon (perLane_canon (fun s gid l h => by grind [modCtx_mem])) h

theorem execMopr_canon {s : State} (h : s.Canon) {p} :
    OutCanon (execMopr p s) := inSlot_canon (perLane_canon (fun s gid l h => by exact h)) h

theorem execMwait_canon {s : State} (h : s.Canon) {p a} :
    OutCanon (execMwait p a s) := inSlot_canon (perLane_canon (fun s gid l h => by grind [acquire_mem])) h

theorem execMatrixOpStart_canon {s : State} (h : s.Canon) : OutCanon (execMatrixOpStart s) := outCanon_next (h.of_mem (engStart_mem ..))

theorem execMatrixOperandRelease_canon {s : State} (h : s.Canon) :
    OutCanon (execMatrixOperandRelease s) := outCanon_next (h.of_mem (engRelease_mem ..))

theorem execMatrixOpRetire_canon {s : State} (h : s.Canon) : OutCanon (execMatrixOpRetire s) := outCanon_next (engRetire_canon h ..)

/-! ### Performed accesses, walks, pages and banks -/

theorem execGlobalLoadReturn_canon {s : State} (h : s.Canon) : OutCanon (execGlobalLoadReturn s) := by
  intro t e
  grind [execGlobalLoadReturn, performMem_canon, startFar_mem]

theorem execGlobalStoreAccept_canon {s : State} (h : s.Canon) : OutCanon (execGlobalStoreAccept s) := by
  intro t e
  grind [execGlobalStoreAccept, performMem_canon, startFar_mem]

theorem execReplInvalidateAck_canon {s : State} (h : s.Canon) : OutCanon (execReplInvalidateAck s) := outCanon_next (ackRepl_canon h ..)

theorem execHeldOperationRelease_canon {s : State} (h : s.Canon) : OutCanon (execHeldOperationRelease s) := by
  intro t e
  grind [execHeldOperationRelease, fatal_mem, modOp_mem, startOp_canon]

theorem execTfenceWalkerAck_canon {s : State} (h : s.Canon) : OutCanon (execTfenceWalkerAck s) := by
  intro t e
  grind [execTfenceWalkerAck, settleFlags_mem, modOp_mem]

theorem execCopySector_canon {s : State} (h : s.Canon) : OutCanon (execCopySector s) := by
  intro t e
  grind [execCopySector, sector_canon]

theorem execRestripeLineMove_canon {s : State} (h : s.Canon) :
    OutCanon (execRestripeLineMove s) := outCanon_next (restripeLine_canon h ..)

theorem execCopyComplete_canon {s : State} (h : s.Canon) : OutCanon (execCopyComplete s) := by
  intro t e
  grind [execCopyComplete, asyncEnd_canon, undoMove_canon]

theorem execPageWalkComplete_canon {s : State} (h : s.Canon) : OutCanon (execPageWalkComplete s) := by
  intro t e
  grind [execPageWalkComplete, cache_mem, walkOver_mem, parkOn_mem]

theorem execPageService_canon {s : State} (h : s.Canon) : OutCanon (execPageService s) := by
  intro t e
  grind [execPageService, installArms_canon, serveAgain_canon, setLeafBits_canon, wipe_canon, fill_canon, foldl_canon]

theorem execParkedReplay_canon {s : State} (h : s.Canon) : OutCanon (execParkedReplay s) := outCanon_next (replay_canon h ..)

theorem execBankRequestAdmit_canon {s : State} (h : s.Canon) : OutCanon (execBankRequestAdmit s) := by
  intro t e
  grind [execBankRequestAdmit, modOp_mem, reaches_mem]

theorem execBankRequestPerform_canon {s : State} (h : s.Canon) : OutCanon (execBankRequestPerform s) := by
  intro t e
  grind [execBankRequestPerform, performMem_canon, bankStep_canon, chunkAtBank_canon, reaches_mem, sector_canon, bankPoll_canon,
    occupy_mem]

theorem execPlannedDieOffline_canon {s : State} (h : s.Canon) : OutCanon (execPlannedDieOffline s) := by
  intro t e
  grind [execPlannedDieOffline, moveProgs_mem, dropAcks_canon, modDie_mem, evacuate_canon]

theorem execRetainedStateExit_canon {s : State} (h : s.Canon) : OutCanon (execRetainedStateExit s) := by
  intro t e
  grind [execRetainedStateExit, modDie_mem]

/-! ### Slices and sweeps -/

theorem execClauseStart_canon {s : State} (h : s.Canon) : OutCanon (execClauseStart s) := by
  intro t e
  grind [execClauseStart, wakeWaits_canon, deliverAll_canon, startPath_canon, reach_canon]

theorem execCoreRestartEnd_canon {s : State} (h : s.Canon) : OutCanon (execCoreRestartEnd s) := by
  intro t e
  grind [execCoreRestartEnd, modCore_mem]

theorem execGroupBoost_canon {s : State} (h : s.Canon) : OutCanon (execGroupBoost s) := by
  intro t e
  grind [execGroupBoost, modGroup_mem]

theorem execPathStarvation_canon {s : State} (h : s.Canon) : OutCanon (execPathStarvation s) := by
  intro t e
  grind [execPathStarvation, modGroup_mem]

theorem execInstructionSweep_canon {s : State} (h : s.Canon) : OutCanon (execInstructionSweep s) := by
  intro t e
  grind [execInstructionSweep, sweepGroup_canon, noteReady_canon, gate_canon, settleIn_canon, foldl_canon]

theorem execBatchPortGrant_canon {s : State} (h : s.Canon) : OutCanon (execBatchPortGrant s) := by
  intro t e
  unfold execBatchPortGrant at e
  dsimp only at e
  repeat' split at e
  all_goals grind [waited_mem, usePort_mem, modCore_mem, releaseSlice_mem]

theorem execRegisterBlockAvailable_canon {s : State} (h : s.Canon) : OutCanon (execRegisterBlockAvailable s) := by
  intro t e
  grind [execRegisterBlockAvailable, unstallOn_mem]

theorem execFlagHeadroomFreed_canon {s : State} (h : s.Canon) : OutCanon (execFlagHeadroomFreed s) := by
  intro t e
  grind [execFlagHeadroomFreed, unstall_mem]

theorem execOperationLimitFreed_canon {s : State} (h : s.Canon) : OutCanon (execOperationLimitFreed s) := by
  intro t e
  grind [execOperationLimitFreed, unstall_mem]

theorem execTicketSlotFreed_canon {s : State} (h : s.Canon) :
    OutCanon (execTicketSlotFreed s) := outCanon_next (h.of_mem (unstallOn_mem ..))

theorem execEnginePlaceFreed_canon {s : State} (h : s.Canon) : OutCanon (execEnginePlaceFreed s) := by
  intro t e
  grind [execEnginePlaceFreed, releaseSlice_mem]

theorem execTrapDelivery_canon {s : State} (h : s.Canon) : OutCanon (execTrapDelivery s) := by
  intro t e
  grind [execTrapDelivery, deliverFailure_canon]

theorem execThreadExitComplete_canon {s : State} (h : s.Canon) :
    OutCanon (execThreadExitComplete s) := outCanon_next (exitDone_canon h ..)

theorem execWaithReturn_canon {s : State} (h : s.Canon) : OutCanon (execWaithReturn s) := by
  intro t e
  grind [execWaithReturn, wakeOne_canon]

theorem execWaitfWake_canon {s : State} (h : s.Canon) : OutCanon (execWaitfWake s) := by
  intro t e
  grind [execWaitfWake, wfAgain_canon]

theorem execWaitfTimeout_canon {s : State} (h : s.Canon) : OutCanon (execWaitfTimeout s) := by
  intro t e
  grind [execWaitfTimeout, wfAgain_canon]

theorem execSleepExpiry_canon {s : State} (h : s.Canon) : OutCanon (execSleepExpiry s) := by
  intro t e
  grind [execSleepExpiry, wake_mem]

theorem execPromiseExpiry_canon {s : State} (h : s.Canon) : OutCanon (execPromiseExpiry s) := by
  unfold execPromiseExpiry
  dsimp only
  split
  · exact outCanon_next h
  generalize hr : List.foldl _ (s, []) _ = r
  have hr : r.1.Canon := by
    rw [← hr]
    exact List.foldlRecOn (motive := fun r : State × List (Nat × LaneRes) => r.1.Canon) _ _ h
      fun r h m _ => h.of_mem (pwaitNow_mem ..)
  refine outCanon_next (State.Canon.of_mem (trapLanes_canon (hr.of_mem (foldl_mem_of ?_ ..)) ..) (freeWith_mem ..))
  grind [wake_mem]

/-! ### Power, clocks, errors and contexts -/

theorem execPowerOn_canon (s : State) : OutCanon (execPowerOn s) := by
  intro t e
  grind [execPowerOn, restart_canon]

theorem execBootImage_canon {s : State} (h : s.Canon) : OutCanon (execBootImage s) := by
  intro t e
  grind [execBootImage, tellHost_mem]

theorem execGetMeasurements_canon {s : State} (h : s.Canon) : OutCanon (execGetMeasurements s) := by
  intro t e
  grind [execGetMeasurements, tellHost_mem]

theorem execFrequencyStep_canon {s : State} (h : s.Canon) : OutCanon (execFrequencyStep s) := by
  intro t e
  grind [execFrequencyStep, frequencyStep_mem]

theorem execRelockDone_canon {s : State} (h : s.Canon) : OutCanon (execRelockDone s) := by
  intro t e
  grind [execRelockDone, uncross_canon, modPair_mem]

theorem execThermalStep_canon {s : State} (h : s.Canon) : OutCanon (execThermalStep s) := by
  intro t e
  grind [execThermalStep, frequencyStep_mem]

theorem execThermalShutdown_canon (s : State) : OutCanon (execThermalShutdown s) := by
  intro t e
  grind [execThermalShutdown, restart_canon]

theorem execScrubRead_canon {s : State} (h : s.Canon) : OutCanon (execScrubRead s) := by
  intro t e
  grind [execScrubRead, modDie_mem]

theorem execUncorrectableError_canon {s : State} (h : s.Canon) : OutCanon (execUncorrectableError s) := by
  intro t e
  grind [execUncorrectableError, kill_mem]

theorem execDieFailure_canon {s : State} (h : s.Canon) : OutCanon (execDieFailure s) := by
  intro t e
  grind [execDieFailure, moveProgs_mem, kill_mem, dropAcks_canon, modDie_mem, foldl_canon]

theorem execDebugHalt_canon {s : State} (h : s.Canon) : OutCanon (execDebugHalt s) := by
  intro t e
  grind [execDebugHalt, modDie_mem, timeStops_mem]

theorem execDebugRelease_canon {s : State} (h : s.Canon) : OutCanon (execDebugRelease s) := by
  intro t e
  grind [execDebugRelease, modDie_mem, timeStops_mem]

theorem execSnapIn_canon {s : State} (h : s.Canon) : OutCanon (execSnapIn s) := by
  intro t e
  grind [execSnapIn, trigger_mem]

theorem execSnapshotRearm_canon {s : State} (h : s.Canon) : OutCanon (execSnapshotRearm s) := by
  intro t e
  grind [execSnapshotRearm]

theorem execContextCreation_canon {s : State} (h : s.Canon) : OutCanon (execContextCreation s) := by
  intro t e
  grind [execContextCreation, reconfigure_mem]

theorem execContextEnd_canon {s : State} (h : s.Canon) : OutCanon (execContextEnd s) := by
  intro t e
  grind [execContextEnd]

/-! ### Cross-lane instructions -/

theorem execShfl_canon {s : State} (h : s.Canon) {p x d a b} : OutCanon (execShfl p x d a b s) := by
  unfold execShfl
  dsimp only
  refine inSlot_canon (withNames_canon fun s c g on h => h.of_mem (foldl_mem_of (fun s e => ?_) ..)) h
  split
  · exact (setPair_mem ..).trans (dstRun_mem ..)
  · exact dstRun_mem ..

theorem execVote_canon {s : State} (h : s.Canon) {p x d} :
    OutCanon (execVote p x d s) := inSlot_canon (fun s c g on h => by grind [setPair_mem, foldl_canon]) h

theorem execGmtab_canon {s : State} (h : s.Canon) {p d a} : OutCanon (execGmtab p d a s) := by
  unfold execGmtab
  refine inSlot_canon (perLane_canon fun s gid l h => ?_) h
  split
  · exact h
  dsimp only
  repeat' split
  · exact h
  · exact h
  · exact h.of_mem (modCtx_mem ..)
  · exact h

/-! ### Instructions that read a descriptor -/

theorem execColl_canon {s : State} (h : s.Canon) {p x a} : OutCanon (execColl p x a s) := by
  refine issueS_canon (fun s h id => byBelay_canon (fun s h id => startColl_canon h id) h id) (fun s gid l h => ?_) h
  dsimp only
  have hd := readDesc_canon h gid l (s.src64 gid l a false).toNat 64
  repeat' split
  all_goals grind [gateAt_mem]

theorem execArm_canon {s : State} (h : s.Canon) {p x a b} : OutCanon (execArm p x a b s) := by
  refine issueS_canon (fun s h id => byBelay_canon (fun s h id => startArm_canon h id) h id) (fun s gid l h => ?_) h
  dsimp only
  have hd := readDesc_canon h gid l (s.src64 gid l a false).toNat 64
  repeat' split
  all_goals grind

theorem execGang_canon {s : State} (h : s.Canon) {p a b} : OutCanon (execGang p a b s) := by
  refine issueS_canon (fun s h id => byBelay_canon (fun s h id => h.of_mem (startGang_mem ..)) h id) (fun s gid l h => ?_) h
  dsimp only
  have hd := readDesc_canon h gid l (s.src64 gid l a false).toNat 64
  repeat' split
  all_goals grind

theorem execMgrp_canon {s : State} (h : s.Canon) {p a b} : OutCanon (execMgrp p a b s) := by
  refine issueS_canon (fun s h id => byBelay_canon (fun s h id => h.of_mem (startMgrp_mem ..)) h id) (fun s gid l h => ?_) h
  dsimp only
  repeat' split
  all_goals grind [readDesc_canon]

/-! ### Every instruction, every step -/

section

variable {i : Instr} {p : Pre} {d a b c : Opnd} {s : State} (h : s.Canon)
include h

theorem alu1_canon {f} : OutCanon (alu1 i p d a f s) := alu_canon h
theorem alu2_canon {f} : OutCanon (alu2 i p d a b f s) := alu_canon h
theorem alu3_canon {f} : OutCanon (alu3 i p d a b c f s) := alu_canon h
theorem fop1_canon {f} : OutCanon (fop1 i p d a f s) := alu_canon h
theorem fop2_canon {f} : OutCanon (fop2 i p d a b f s) := alu_canon h
theorem dop2_canon {f} : OutCanon (dop2 i p d a b f s) := alu_canon h
theorem pop2_canon {o x} : OutCanon (pop2 i p o x d a b s) := alu_canon h

end

/-- Every instruction and event leaves canonical memory canonical. -/
theorem exec_canon {s : State} (h : s.Canon) (i : Instr) : OutCanon (exec i s) := by
  cases i with
  | iadd64 | isub64 | imad | imadw | ffma | sel | pfma | dfma | movi | cvt | frnd | geoq | tqry =>
    delta exec
    dsimp only
    exact alu_canon h
  | popc | clz | brev | mov | iaddi | iabs =>
    delta exec
    dsimp only
    exact alu1_canon h
  | iadd | isub | imul | imulhI | imulhU | iminI | iminU | imaxI | imaxU | and | or | xor | andn | shl | shr | sar |
    rol | bfeU | bfeI | clmul | clmulh =>
    delta exec
    dsimp only
    exact alu2_canon h
  | bfi | prmt | lop3 =>
    delta exec
    dsimp only
    exact alu3_canon h
  | fclass | fabs | rcp | rsq | sqrt | exp2 | log2 | sinpi | cospi | tanh | sigm =>
    delta exec
    dsimp only
    exact fop1_canon h
  | fadd | fsub | fmul | fmin | fmax | fdiv =>
    delta exec
    dsimp only
    exact fop2_canon h
  | dadd | dmul =>
    delta exec
    dsimp only
    exact dop2_canon h
  | padd | psub | pmul | pmin | pmax =>
    delta exec
    dsimp only
    exact pop2_canon h
  | icmp | fcmp =>
    delta exec
    dsimp only
    exact compareOp_canon h
  | ballot | redux | scan | matchL | matchW64 | gmred | first | lanemask =>
    delta exec
    dsimp only
    exact cross_canon h
  | cpy | tload | tstore | bankop | restripe =>
    delta exec
    dsimp only
    exact asyncIssue_canon h
  | mldw | mswap | mma | mzero | mrd | mwr | msts | rstat | mscale =>
    delta exec
    dsimp only
    exact anchored_canon h
  | ldg | stg | lds | sts | ldb | stb | atomg | atoms | atomb | tfence | pref | resume | resumeS | ccopyMove |
    ccopyFork =>
    delta exec
    dsimp only
    exact issue_canon (fun _ h id => startMem_canon h id) h
  | rload =>
    delta exec
    dsimp only
    exact issue_canon (fun _ h id => byBelay_canon (fun _ h id => startRload_canon h id) h id) h
  | scbset | scbclr =>
    delta exec
    dsimp only
    exact issue_canon (fun _ h id => byBelay_canon (fun _ h id => startScb_canon h id) h id) h
  | peerq =>
    delta exec
    dsimp only
    exact issue_canon (fun _ h id => byBelay_canon (fun _ h id => h.of_mem (startPeerq_mem _ id)) h id) h
  | wcflush =>
    delta exec
    dsimp only
    exact issue_canon (fun _ h id => byBelay_canon (fun _ h id => h.of_mem (startWcflush_mem _ id)) h id) h
  | rspawn =>
    delta exec
    dsimp only
    exact issue_canon (fun _ h id => byBelay_canon (fun _ h id => h.of_mem (startRspawn_mem _ id)) h id) h
  | plop => exact execPlop_canon h
  | fence => exact execFence_canon h
  | qpush => exact execQpush_canon h
  | qpop => exact execQpop_canon h
  | pwait => exact execPwait_canon h
  | ptest => exact execPtest_canon h
  | binit => exact execBinit_canon h
  | bexp => exact execBexp_canon h
  | barr => exact execBarr_canon h
  | bwait => exact execBwait_canon h
  | btest => exact execBtest_canon h
  | cancel => exact execCancel_canon h
  | manch => exact execManch_canon h
  | tdef => exact execTdef_canon h
  | mopr => exact execMopr_canon h
  | mwait => exact execMwait_canon h
  | mcst => exact execMcst_canon h
  | bra => exact execBra_canon h
  | brx => exact execBrx_canon h
  | call => exact execCall_canon h
  | ret => exact execRet_canon h
  | brh => exact execBrh_canon h
  | waith => exact execWaith_canon h
  | reconv => exact execReconv_canon h
  | bar => exact execBar_canon h
  | spawn => exact execSpawn_canon h
  | exit => exact execExit_canon h
  | suspend => exact execSuspend_canon h
  | cdiscard => exact execCdiscard_canon h
  | sleep => exact execSleep_canon h
  | waitf => exact execWaitf_canon h
  | trap => exact execTrap_canon h
  | rft => exact execRft_canon h
  | getsr => exact execGetsr_canon h
  | setsr => exact execSetsr_canon h
  | yieldH => exact execYieldH_canon h
  | racq => exact execRacq_canon h
  | rrel => exact execRrel_canon h
  | nop => exact execNop_canon h
  | steal => exact execSteal_canon h
  | launch => exact execLaunch_canon h
  | waitl => exact execWaitl_canon h
  | snap => exact execSnap_canon h
  | shfl => exact execShfl_canon h
  | vote => exact execVote_canon h
  | gmtab => exact execGmtab_canon h
  | send => exact execSend_canon h
  | recv => exact execRecv_canon h
  | rrs => exact execRrs_canon h
  | rrw => exact execRrw_canon h
  | copyStep => exact execCopyStep_canon h
  | waitStep => exact execWaitStep_canon h
  | loopStep => exact execLoopStep_canon h
  | endl w => exact execEndl_canon (w := w) h
  | peerStep => exact execPeerStep_canon h
  | signal => exact execSignal_canon h
  | endStep w => exact execEndStep_canon (w := w) h
  | instructionSweep => exact execInstructionSweep_canon h
  | pathStarvation => exact execPathStarvation_canon h
  | groupBoost => exact execGroupBoost_canon h
  | clauseStart => exact execClauseStart_canon h
  | coreRestartEnd => exact execCoreRestartEnd_canon h
  | registerBlockAvailable => exact execRegisterBlockAvailable_canon h
  | flagHeadroomFreed => exact execFlagHeadroomFreed_canon h
  | operationLimitFreed => exact execOperationLimitFreed_canon h
  | ticketSlotFreed => exact execTicketSlotFreed_canon h
  | enginePlaceFreed => exact execEnginePlaceFreed_canon h
  | batchPortGrant => exact execBatchPortGrant_canon h
  | trapDelivery => exact execTrapDelivery_canon h
  | globalLoadReturn => exact execGlobalLoadReturn_canon h
  | globalStoreAccept => exact execGlobalStoreAccept_canon h
  | remoteTimeout => exact execRemoteTimeout_canon h
  | heldOperationRelease => exact execHeldOperationRelease_canon h
  | threadExitComplete => exact execThreadExitComplete_canon h
  | waithReturn => exact execWaithReturn_canon h
  | waitfWake => exact execWaitfWake_canon h
  | waitfTimeout => exact execWaitfTimeout_canon h
  | sleepExpiry => exact execSleepExpiry_canon h
  | promiseExpiry => exact execPromiseExpiry_canon h
  | copySector => exact execCopySector_canon h
  | copyComplete => exact execCopyComplete_canon h
  | pageWalkComplete => exact execPageWalkComplete_canon h
  | pageService => exact execPageService_canon h
  | parkedReplay => exact execParkedReplay_canon h
  | replInvalidateAck => exact execReplInvalidateAck_canon h
  | restripeLineMove => exact execRestripeLineMove_canon h
  | tfenceWalkerAck => exact execTfenceWalkerAck_canon h
  | plannedDieOffline => exact execPlannedDieOffline_canon h
  | retainedStateExit => exact execRetainedStateExit_canon h
  | bankRequestAdmit => exact execBankRequestAdmit_canon h
  | bankRequestPerform => exact execBankRequestPerform_canon h
  | wcDrain => exact execWcDrain_canon h
  | wcEntryAgeExpiry => exact execWcEntryAgeExpiry_canon h
  | binRecordAccept => exact execBinRecordAccept_canon h
  | binTimerExpiry => exact execBinTimerExpiry_canon h
  | binDeferredLaunch => exact execBinDeferredLaunch_canon h
  | spillRefill => exact execSpillRefill_canon h
  | spillWaitEnd => exact execSpillWaitEnd_canon h
  | stealCopyArrival => exact execStealCopyArrival_canon h
  | stealAck => exact execStealAck_canon h
  | stealConfirm => exact execStealConfirm_canon h
  | stealRefusal => exact execStealRefusal_canon h
  | lendTimeout => exact execLendTimeout_canon h
  | stealAnswerTimeout => exact execStealAnswerTimeout_canon h
  | thiefCoreReset => exact execThiefCoreReset_canon h
  | victimCoreReset => exact execVictimCoreReset_canon h
  | hostIntake => exact execHostIntake_canon h
  | gridQueueHead => exact execGridQueueHead_canon h
  | admission => exact execAdmission_canon h
  | effectivePriorityAging => exact execEffectivePriorityAging_canon h
  | teamPlacement => exact execTeamPlacement_canon h
  | clusterReservation => exact execClusterReservation_canon h
  | gridEnd => exact execGridEnd_canon h
  | preemption => exact execPreemption_canon h
  | teamSave => exact execTeamSave_canon h
  | teamRestore => exact execTeamRestore_canon h
  | energyWindowEnd => exact execEnergyWindowEnd_canon h
  | checkpoint => exact execCheckpoint_canon h
  | suspendWrite => exact execSuspendWrite_canon h
  | resumeClaim => exact execResumeClaim_canon h
  | restoredGroupStart => exact execRestoredGroupStart_canon h
  | matrixOpStart => exact execMatrixOpStart_canon h
  | matrixOperandRelease => exact execMatrixOperandRelease_canon h
  | matrixOpRetire => exact execMatrixOpRetire_canon h
  | preamble => exact execPreamble_canon h
  | integ => exact execInteg_canon h
  | sealedBlockClose => exact execSealedBlockClose_canon h
  | grant => exact execGrant_canon h
  | linkctl => exact execLinkctl_canon h
  | read => exact execRead_canon h
  | write => exact execWrite_canon h
  | wdata => exact execWdata_canon h
  | atomic => exact execAtomic_canon h
  | rdata => exact execRdata_canon h
  | ack => exact execAck_canon h
  | nack => exact execNack_canon h
  | mcast => exact execMcast_canon h
  | mcastRound => exact execMcastRound_canon h
  | laneRetuneDone => exact execLaneRetuneDone_canon h
  | mcastReplyTimeout => exact execMcastReplyTimeout_canon h
  | rloadRepliesComplete => exact execRloadRepliesComplete_canon h
  | rloadServerFallback => exact execRloadServerFallback_canon h
  | spawnFlit => exact execSpawnFlit_canon h
  | cdata => exact execCdata_canon h
  | cctl => exact execCctl_canon h
  | rekeyStart => exact execRekeyStart_canon h
  | keyInstall => exact execKeyInstall_canon h
  | genFlip => exact execGenFlip_canon h
  | oldKeyErase => exact execOldKeyErase_canon h
  | planeLoss => exact execPlaneLoss_canon h
  | gangPrepare => exact execGangPrepare_canon h
  | gangPrepared => exact execGangPrepared_canon h
  | gangRefused => exact execGangRefused_canon h
  | gangGo => exact execGangGo_canon h
  | gangGoAck => exact execGangGoAck_canon h
  | gangAbort => exact execGangAbort_canon h
  | gangTear => exact execGangTear_canon h
  | gangPrepareTimeout => exact execGangPrepareTimeout_canon h
  | gangGoWaitTimeout => exact execGangGoWaitTimeout_canon h
  | gangAckTimeout => exact execGangAckTimeout_canon h
  | collProgramStart => exact execCollProgramStart_canon h
  | programFault => exact execProgramFault_canon h
  | chunkTimeout => exact execChunkTimeout_canon h
  | uetRmaWrite => exact execUetRmaWrite_canon h
  | cxlExpanderRemoval => exact execCxlExpanderRemoval_canon h
  | powerOn => exact execPowerOn_canon s
  | bootImage => exact execBootImage_canon h
  | getMeasurements => exact execGetMeasurements_canon h
  | frequencyStep => exact execFrequencyStep_canon h
  | relockDone => exact execRelockDone_canon h
  | thermalStep => exact execThermalStep_canon h
  | thermalShutdown => exact execThermalShutdown_canon s
  | scrubRead => exact execScrubRead_canon h
  | uncorrectableError => exact execUncorrectableError_canon h
  | dieFailure => exact execDieFailure_canon h
  | debugHalt => exact execDebugHalt_canon h
  | debugRelease => exact execDebugRelease_canon h
  | snapIn => exact execSnapIn_canon h
  | snapshotRearm => exact execSnapshotRearm_canon h
  | ccopyComplete => exact execCcopyComplete_canon h
  | stealRequest => exact execStealRequest_canon h
  | planeOnline => exact execPlaneOnline_canon h
  | contextCreation => exact execContextCreation_canon h
  | contextEnd => exact execContextEnd_canon h
  | coll => exact execColl_canon h
  | arm => exact execArm_canon h
  | gang => exact execGang_canon h
  | mgrp => exact execMgrp_canon h

theorem firstOf_canon {s : State} (h : s.Canon) {cs c o} (e : s.firstOf cs = some (c, o)) : OutCanon o := by
  induction cs with
  | nil => cases e
  | cons c cs ih =>
    have hx := exec_canon (h.of_mem (atCand_mem s c)) c.i
    unfold State.firstOf at e
    split at e
    next t ht =>
      split at e
      · exact ih e
      · cases e
        exact ht ▸ hx
    · cases e
      exact hx

theorem after_canon {o : Out} (ho : OutCanon o) : OutCanon (after o) := by
  cases o with
  | next s => exact outCanon_next (ho s rfl)
  | fault => exact fun _ e => nomatch e
  | refused => exact fun _ e => nomatch e

theorem step_canon {s : State} (h : s.Canon) : OutCanon (step s) := by
  unfold step
  split
  · have hn := nextSlot_canon (noteBack_canon h)
    split
    next e => exact after_canon (exec_canon (by rwa [e] at hn) _)
    next e => exact outCanon_next (by rwa [e] at hn)
  · split
    next time i x rest _ =>
      have arrive := after_canon (exec_canon (s := { s with rtime := max s.rtime time, sel := x, agenda := rest }) h i)
      dsimp only
      split
      · exact arrive
      · split
        next e => exact after_canon (firstOf_canon h e)
        · exact arrive
    · split
      next e => exact after_canon (firstOf_canon h e)
      · exact outCanon_next h

/-- Settles O52: every function of the model that a step runs keeps memory canonical. -/
theorem stepsKeepMemoryCanonical : Obligations.StepsKeepMemoryCanonical := by
  intro s t h e
  exact step_canon h t e

end Sys2Proof.Machine
end

section

/-! Proofs. A write is read back and leaves every other byte alone, and canonical memories that read the same are the same list (log entry
3); so the acceptance of a store changes the stored bytes and, at most, its leaf (R162, R163). -/

open Sys2Proof Sys2Proof.Machine

namespace Sys2Proof.Machine

/-! ### Reading a list of cells -/

theorem Memory.read1_of_absent {m : List Host.Cell} {q : Nat} (h : ∀ c ∈ m, c.1 ≠ q) : Memory.read1 m q = 0 := by
  induction m with
  | nil => rfl
  | cons c m ih =>
    obtain ⟨hc, hm⟩ := List.forall_mem_cons.mp h
    rw [Memory.read1, if_neg hc, ih hm]

theorem Memory.read1_append_of_absent {m n : List Host.Cell} {q : Nat} (h : ∀ c ∈ m, c.1 ≠ q) :
    Memory.read1 (m ++ n) q = Memory.read1 n q := by
  induction m with
  | nil => rfl
  | cons c m ih =>
    obtain ⟨hc, hm⟩ := List.forall_mem_cons.mp h
    rw [List.cons_append, Memory.read1, if_neg hc, ih hm]

theorem Memory.read1_append_left {m n : List Host.Cell} {q : Nat} (h : ∀ c ∈ n, c.1 ≠ q) :
    Memory.read1 (m ++ n) q = Memory.read1 m q := by
  induction m with
  | nil => exact Memory.read1_of_absent h
  | cons c m ih => rw [List.cons_append, Memory.read1, Memory.read1, ih]

theorem Memory.read1_filter {p : Host.Cell → Bool} {m : List Host.Cell} {q : Nat} (h : ∀ c ∈ m, c.1 = q → p c = true) :
    Memory.read1 (m.filter p) q = Memory.read1 m q := by
  induction m with
  | nil => rfl
  | cons c m ih =>
    obtain ⟨hc, hm⟩ := List.forall_mem_cons.mp h
    cases hp : p c with
    | true => rw [List.filter_cons_of_pos hp, Memory.read1, Memory.read1, ih hm]
    | false =>
      have hne : c.1 ≠ q := fun e => Bool.false_ne_true (hp.symm.trans (hc e))
      rw [List.filter_cons_of_neg (Bool.eq_false_iff.mp hp), ih hm, Memory.read1, if_neg hne]

theorem Memory.read1_cells (bs : List Byte) {a q : Nat} (h : a ≤ q) : Memory.read1 (Memory.cells a bs) q = bs.getD (q - a) 0 := by
  induction bs generalizing a with
  | nil => rfl
  | cons b bs ih =>
    rcases Nat.eq_or_lt_of_le h with rfl | hlt
    · rw [Nat.sub_self, List.getD_cons_zero, Memory.cells]
      split
      next hb =>
        subst hb
        exact Memory.read1_of_absent fun c hc => Nat.ne_of_gt ((Memory.cells_spec bs (a + 1)).2 c hc).1
      · rw [Memory.read1, if_pos rfl]
    · have htail : (b :: bs).getD (q - a) 0 = bs.getD (q - (a + 1)) 0 := by
        rw [show q - a = q - (a + 1) + 1 by omega, List.getD_cons_succ]
      rw [htail, ← ih hlt, Memory.cells]
      split
      · rfl
      · rw [Memory.read1, if_neg (Nat.ne_of_lt hlt)]

/-! ### Reading what was written -/

theorem Memory.read1_write (m : List Host.Cell) (a : Nat) (bs : List Byte) (q : Nat) : Memory.read1 (Memory.write m a bs) q =
    if a ≤ q ∧ q < a + bs.length then bs.getD (q - a) 0 else Memory.read1 m q := by
  have hcells := (Memory.cells_spec bs a).2
  have hbelow : ∀ c ∈ m.filter (fun c => decide (c.1 < a)), c.1 < a := fun c hc => of_decide_eq_true (List.mem_filter.mp hc).2
  have habove : ∀ c ∈ m.filter (fun c => decide (a + bs.length ≤ c.1)), a + bs.length ≤ c.1 :=
    fun c hc => of_decide_eq_true (List.mem_filter.mp hc).2
  unfold Memory.write
  split
  next hq =>
    rw [Memory.read1_append_left fun c hc => by have := habove c hc; omega,
      Memory.read1_append_of_absent fun c hc => by have := hbelow c hc; omega, Memory.read1_cells bs hq.1]
  next hq =>
    rcases Nat.lt_or_ge q a with hlt | hge
    · rw [Memory.read1_append_left fun c hc => by have := habove c hc; omega,
        Memory.read1_append_left fun c hc => by have := hcells c hc; omega,
        Memory.read1_filter fun c _ e => decide_eq_true (e ▸ hlt)]
    · have hout : a + bs.length ≤ q := by omega
      rw [List.append_assoc, Memory.read1_append_of_absent fun c hc => by have := hbelow c hc; omega,
        Memory.read1_append_of_absent fun c hc => by have := hcells c hc; omega,
        Memory.read1_filter fun c _ e => decide_eq_true (e ▸ hout)]

theorem Memory.read1_write_of_outside {m : List Host.Cell} {a q : Nat} {bs : List Byte} (h : q < a ∨ a + bs.length ≤ q) :
    Memory.read1 (Memory.write m a bs) q = Memory.read1 m q := by
  rw [Memory.read1_write, if_neg (by omega)]

theorem Memory.read_write (m : List Host.Cell) (a : Nat) (bs : List Byte) : Memory.read (Memory.write m a bs) a bs.length = bs := by
  refine List.ext_getElem (by simp [Memory.read]) fun i _ hi => ?_
  simp only [Memory.read, List.getElem_map, List.getElem_range]
  rw [Memory.read1_write, if_pos (by omega), Nat.add_sub_cancel_left, List.getD_eq_getElem _ _ hi]

/-! ### Canonical memories that read the same -/

theorem Memory.Canonical.read1_eq_iff {m : List Host.Cell} (h : Memory.Canonical m) (q : Nat) (b : Byte) :
    (q, b) ∈ m ↔ b ≠ 0 ∧ Memory.read1 m q = b := by
  obtain ⟨hsort, hne⟩ := h
  induction m with
  | nil => exact ⟨fun hq => absurd hq List.not_mem_nil, fun hq => absurd hq.2.symm hq.1⟩
  | cons c m ih =>
    obtain ⟨hc, hm⟩ := List.pairwise_cons.mp hsort
    obtain ⟨hc0, hm0⟩ := List.forall_mem_cons.mp hne
    rw [List.mem_cons, Memory.read1]
    split
    next e =>
      have habsent : (q, b) ∉ m := fun hq => absurd (hc _ hq) (by simp [e])
      rw [or_iff_left habsent]
      constructor
      · rintro rfl
        exact ⟨hc0, rfl⟩
      · rintro ⟨-, rfl⟩
        exact Prod.ext e.symm rfl
    next e =>
      have hhead : (q, b) ≠ c := fun hq => e (hq ▸ rfl)
      rw [or_iff_right hhead, ih hm hm0]

theorem Memory.Canonical.ext {m n : List Host.Cell} (hm : Memory.Canonical m) (hn : Memory.Canonical n)
    (h : ∀ q, Memory.read1 m q = Memory.read1 n q) : m = n := by
  have hmem (c : Host.Cell) : c ∈ m ↔ c ∈ n := by
    rw [hm.read1_eq_iff c.1 c.2, hn.read1_eq_iff c.1 c.2, h]
  have hnodup {k : List Host.Cell} (hk : Memory.Canonical k) : k.Nodup := hk.1.imp fun hlt e => Nat.ne_of_lt hlt (congrArg Prod.fst e)
  refine ((List.perm_ext_iff_of_nodup (hnodup hm) (hnodup hn)).mpr hmem).eq_of_pairwise (fun a b _ _ hab hba => ?_) hm.1 hn.1
  exact absurd (Nat.lt_trans hab hba) (Nat.lt_irrefl _)

/-! ### What a store's acceptance changes (R163) -/

theorem pieces_of_line {va n : Nat} (h0 : n ≠ 0) (h : va % 256 + n ≤ 256) : pieces va (n + 1) n = [(va, n)] := by
  obtain ⟨k, rfl⟩ := Nat.exists_eq_succ_of_ne_zero h0
  simp only [pieces, if_neg h0, Nat.min_eq_left (by omega : k.succ ≤ 256 - va % 256), Nat.sub_self, if_true]

theorem gwrite_of_line (s : State) (ctx va : Nat) {bs : List Byte} (sys : Bool) (die : Nat) (h0 : bs ≠ [])
    (h : va % 256 + bs.length ≤ 256) : s.gwrite ctx va bs sys die = s.writePiece ctx va bs sys die := by
  rw [State.gwrite, pieces_of_line (by simpa using h0) h]
  simp

theorem writePiece_of_translated {s : State} {ctx va die : Nat} {bs : List Byte} {sys : Bool} {f : Leaf} {ph : Nat}
    (ht : s.translate ctx va { w := true } sys die = .ok (f, ph)) (hc : s.cxlGone ph = false) :
    ∃ t, s.writePiece ctx va bs sys die = .ok t ∧ t.mem = Memory.write (s.noteLeaf ctx f true).mem ph bs := by
  simp only [State.writePiece, ht, hc]
  exact ⟨_, rfl, by simp⟩

theorem read1_noteLeaf_of_outside (s : State) (ctx : Nat) (f : Leaf) (write : Bool) {q : Nat} (h : q < f.ea ∨ f.ea + 8 ≤ q) :
    Memory.read1 (s.noteLeaf ctx f write).mem q = Memory.read1 s.mem q := by
  unfold State.noteLeaf
  extract_lets b w0 m u
  rw [cache_mem]
  unfold u
  split
  · rfl
  · exact Memory.read1_write_of_outside (bs := toBytes 8 m.toNat) h

theorem storeDone_mem_of_translated {s : State} {id va ph : Nat} {o : Op} {bs : List Byte} {f : Leaf} (h0 : bs ≠ [])
    (h : va % 256 + bs.length ≤ 256) (ht : s.translate o.ctx va { w := true } (s.sysMode o.ctx) (pairOf o.core) = .ok (f, ph))
    (hc : s.cxlGone ph = false) : (s.storeDone id o va bs).mem = Memory.write (s.noteLeaf o.ctx f true).mem ph bs := by
  obtain ⟨t, hw, hm⟩ := writePiece_of_translated (bs := bs) ht hc
  rw [storeDone_of_written (t := t) (by rw [State.spaceWrite, gwrite_of_line _ _ _ _ _ h0 h, hw])]
  simp only [doneB_mem, settle_mem, escape_mem, notePromo_mem, l1Store_mem, hm]

/-- Settles O53: a byte of a written list is a byte that was written, or the one below or above, whatever the list; a canonical list is
the sorted list of the bytes that it reads as. -/
theorem memoryReadsBackWrites : Obligations.MemoryReadsBackWrites := by
  refine ⟨fun m a bs h => Memory.wf_write h a bs, Memory.read1_write, fun m n hm hn => ?_, ?_, loaded_mem⟩
  · exact ((Memory.wf_iff m).mp hm).ext ((Memory.wf_iff n).mp hn)
  · intro s id o va bs f ph h0 h ht hc
    have hm := storeDone_mem_of_translated (id := id) h0 h ht hc
    refine ⟨?_, fun q hq hleaf => ?_⟩
    · rw [State.readPhys, hm, Memory.read_write]
    · rw [hm, Memory.read1_write_of_outside hq, read1_noteLeaf_of_outside _ _ _ _ hleaf]

end Sys2Proof.Machine
end

section

/-! Proofs. Special functions, and queries of a page's placement word and of a tensor-extent register (R188, R216, R217, R233). The
queries look something up for the context of their group, which no lane of their path changes. -/

namespace Sys2Proof.Machine

/-! ### Bodies that agree on the states that a run meets -/

theorem runLanes_congr {P : State → Prop} {f f' : State → Nat → State × LaneRes} (hf : ∀ s l, P s → f s l = f' s l)
    (hP : ∀ s l, P s → P (f' s l).1) {s : State} (hs : P s) (ls : List Nat) : runLanes f s ls = runLanes f' s ls := by
  have key (acc : List (Nat × LaneRes)) :
      ls.foldl (fun r l => ((f r.1 l).1, r.2 ++ [(l, (f r.1 l).2)])) (s, acc) =
        ls.foldl (fun r l => ((f' r.1 l).1, r.2 ++ [(l, (f' r.1 l).2)])) (s, acc) := by
    induction ls generalizing s acc with
    | nil => rfl
    | cons l ls ih =>
      simp only [List.foldl_cons, hf s l hs]
      exact ih (hP s l hs) _
  exact key []

theorem perLane_congr {P : State → Prop} {i : Instr} {f f' : State → Nat → Nat → State × LaneRes} {c : Slot}
    (hf : ∀ s l, P s → f s c.gid l = f' s c.gid l) (hP : ∀ s l, P s → P (f' s c.gid l).1) {s : State} (hs : P s) (g : Group)
    (on : List Nat) : perLane i f s c g on = perLane i f' s c g on := by
  unfold perLane
  split
  next =>
    cases on with
    | nil => rfl
    | cons l ls => simp only [hf s l hs]
  next => exact runLanes_congr hf hP hs on

/-! ### Values that depend on the context of the group -/

theorem ctxOf_raise (s : State) (gid k : Nat) (fl : Flags) : (s.raise gid fl).ctxOf k = s.ctxOf k :=
  ctxOf_modGroup s gid k fun _ => rfl

theorem ctxOf_dstRun (s : State) (gid l k : Nat) (o : Opnd) (ws : List Word) : (s.dstRun gid l o ws).ctxOf k = s.ctxOf k := by
  unfold State.dstRun
  generalize (List.range ws.length).zip ws = xs
  induction xs generalizing s with
  | nil => rfl
  | cons e xs ih => exact (ih _).trans (ctxOf_dst32 ..)

theorem ctxOf_aluLane (gid k : Nat) (d : Opnd) (f : State → Nat → Nat → List Word × Flags) (s : State) (l : Nat) :
    (aluLane gid d f s l).1.ctxOf k = s.ctxOf k := by
  unfold aluLane
  split
  next => exact ctxOf_raise ..
  next => exact (ctxOf_dstRun ..).trans (ctxOf_raise ..)

section

variable {i : Instr} {p : Pre} {d : Opnd}

/-- A path's lanes compute what they would with the context that its group has at the start. -/
theorem alu_of_ctxOf {v : Nat → State → Nat → Nat → List Word × Flags} {s : State} {c : Slot} {g : Group} {on off : List Nat}
    {s1 : State} (h : Executes i p s c g on off s1) :
    alu i p d (fun s gid l => v (s.ctxOf gid) s gid l) s = alu i p d (v (s1.ctxOf c.gid)) s := by
  have hbody := perLane_congr (P := fun t => t.ctxOf c.gid = s1.ctxOf c.gid) (i := i) (c := c)
    (f := fun s gid l => aluLane gid d (fun s gid l => v (s.ctxOf gid) s gid l) s l)
    (f' := fun s gid l => aluLane gid d (v (s1.ctxOf c.gid)) s l)
    (fun t l ht => by simp only [aluLane, ht]) (fun t l ht => (ctxOf_aluLane ..).trans ht) rfl g on
  unfold alu
  rw [inSlot_executes h, inSlot_executes h, withNames_executes h, withNames_executes h]
  exact congrArg (fun r : State × List (Nat × LaneRes) => Host.Outcome.next (r.1.finish c.gid off r.2)) hbody

theorem computes_of_alu_ctxOf {n : Nat} {v : Nat → State → Nat → Nat → List Word × Flags} (hv : ∀ k, OwnLane (v k))
    (hm : ∀ w, (i.need w).mode = .byDst := by intros; rfl) (hd : ∀ w, (i.need w).dst = some (d, n) := by intros; rfl)
    (he : ∀ s, exec i s = alu i p d (fun s gid l => v (s.ctxOf gid) s gid l) s := by intros; rfl) :
    Computes i p d fun s gid l => v (s.ctxOf gid) s gid l :=
  fun s _ _ _ _ _ h ht => ((he s).trans (alu_of_ctxOf h)).trans (alu_executes (hv _) hm (fun w => ⟨n, hd w⟩) h ht)

end

/-! ### Queries -/

theorem Same.geoq {gid l : Nat} {s t : State} (h : Same gid l s t) (ctx va : Nat) : t.geoq ctx va = s.geoq ctx va := by
  obtain ⟨f, rfl, -⟩ := h.group
  rfl

theorem Same.txWords {gid l : Nat} {s t : State} (h : Same gid l s t) (ctx k : Nat) : t.txWords ctx k = s.txWords ctx k := by
  obtain ⟨f, rfl, -⟩ := h.group
  rfl

/-- What `GEOQ` computes in a lane of context `k`: the placement word of the page of its address (R188). -/
def geoqValue (a : Opnd) (k : Nat) (s : State) (gid l : Nat) : List Word × Flags := ([s.geoq k (s.src64 gid l a false).toNat], 0)

theorem geoqValue_ownLane (a : Opnd) (k : Nat) : OwnLane (geoqValue a k) := fun _ _ _ _ h => by
  simp only [geoqValue, h.geoq, h.src64]

/-- What `TQRY` computes in context `k`: a word of the tensor-extent register (R233). -/
def tqryValue (id : BitVec 8) (wd : BitVec 3) (k : Nat) (s : State) (_gid _l : Nat) : List Word × Flags :=
  ([(s.txWords k id.toNat).getD wd.toNat 0], 0)

theorem tqryValue_ownLane (id : BitVec 8) (wd : BitVec 3) (k : Nat) : OwnLane (tqryValue id wd k) := fun _ _ _ _ h => by
  simp only [tqryValue, h.txWords]

/-! ### Functions of one F32 operand -/

/-- `e` pairs an instruction of one F32 operand with the result and the flags of its function. -/
def OneFloat (e : (Pre → Opnd → Opnd → Instr) × (Word → Nat × Flags)) : Prop :=
  ∀ p d a, Computes (e.1 p d a) p d fun s g l =>
    let r := e.2 (BitVec.ofNat 32 (s.srcF g l a))
    ([BitVec.ofNat 32 r.1], r.2)

theorem oneFloat_of_fop1 {mk : Pre → Opnd → Opnd → Instr} {f : Word → Nat × Flags}
    (hm : ∀ p d a w, ((mk p d a).need w).mode = .byDst := by intros; rfl)
    (hd : ∀ p d a w, ((mk p d a).need w).dst = some (d, 1) := by intros; rfl)
    (he : ∀ p d a s, exec (mk p d a) s = fop1 (mk p d a) p d a f s := by intros; rfl) : OneFloat (mk, f) :=
  fun p d a => computes_of_alu (fun _ _ _ _ h => by simp only [h.srcF]) (hm p d a) (hd p d a) (he p d a)

/-- Settles O6: each special function as the function of its operand, the queries for the context of the group. Which value within the
error bound a special function takes is free (log entry 6). -/
theorem specialFunctionsAndQueriesComplete : Obligations.SpecialFunctionsAndQueriesComplete := by
  unfold Obligations.SpecialFunctionsAndQueriesComplete
  refine ⟨?functions, fun p d a => computes_of_alu_ctxOf (geoqValue_ownLane a),
    fun p d id wd => computes_of_alu_ctxOf (tqryValue_ownLane id wd)⟩
  case functions =>
    change ∀ e ∈ _, OneFloat e
    simp only [List.forall_mem_cons]
    exact ⟨oneFloat_of_fop1, oneFloat_of_fop1, oneFloat_of_fop1, oneFloat_of_fop1, oneFloat_of_fop1, oneFloat_of_fop1,
      oneFloat_of_fop1, oneFloat_of_fop1, oneFloat_of_fop1, List.forall_mem_nil _⟩

end Sys2Proof.Machine

end

section

/-! Proofs. The control of the matrix engine (R226, R232, R233, R244, R245). `MANCH` and `TDEF` act once for their path, on the team and on the
context of its group; `MOPR` and `MWAIT` go on from the state that they read where nothing that they wait for is outstanding. -/

namespace Sys2Proof.Machine

section

variable {p : Pre} {s : State} {c : Slot} {g : Group} {on off : List Nat} {s1 : State}

/-! ### Anchors and tensor-extent registers (R232, R233) -/

theorem manch_sets_up {d : BitVec 7} {a : Opnd} {tm : Team} (h : Executes (.manch p d a) p s c g on off s1)
    (ht : s1.team? g.team = some tm) (h0 : 0 < (s1.src32 c.gid (on.headD 0) a).toNat)
    (hn : (s1.src32 c.gid (on.headD 0) a).toNat ≤ tm.nthr) :
    exec (.manch p d a) s = .next (((Map.get tm.anchors d.toNat {}).sigs.foldl (fun t id => t.fail id .anchorMismatch)
      (s1.modTeam g.team fun x => { x with anchors := Map.put d.toNat { n := (s1.src32 c.gid (on.headD 0) a).toNat } x.anchors })).goOn
        c.gid off on) := by
  change execManch p d a s = _
  unfold execManch
  refine inSlot_start_next h (h.names_of_once rfl) (perLane_once h.ran rfl ?_)
  simp only [h.teamOf, ht, decide_eq_false h0.ne', decide_eq_false hn.not_gt, Bool.or_false, Bool.false_eq_true, if_false]

theorem tdef_enters {id : BitVec 8} {a : Opnd} (h : Executes (.tdef p id a) p s c g on off s1)
    (hw : (Tx.read (s1.srcRun c.gid (on.headD 0) a 8)).isSome) :
    exec (.tdef p id a) s = .next ((s1.modCtx g.ctx fun x =>
      { x with tx := Map.put id.toNat (s1.srcRun c.gid (on.headD 0) a 8) x.tx }).goOn c.gid off on) := by
  obtain ⟨extent, hread⟩ := Option.isSome_iff_exists.mp hw
  have hctx : (s1.group? c.gid).elim 0 Group.ctx = g.ctx := h.ctxOf
  change execTdef p id a s = _
  unfold execTdef
  refine inSlot_start_next h (h.names_of_once rfl) (perLane_once h.ran rfl ?_)
  simp only [hread, hctx]

/-! ### Waits of the engine (R226, R244, R245) -/

theorem mopr_goes_on (h : Executes (.mopr p) p s c g on off s1)
    (hl : ∀ l ∈ on, s1.moprPending c.gid l (s1.thread c.gid l).opc.toNat = false) :
    exec (.mopr p) s = .next (s1.goOn c.gid off on) := by
  change execMopr p s = _
  unfold execMopr
  refine inSlot_start_next h rfl (perLane_pure rfl fun l hon => ?_)
  simp only [hl l hon, Bool.false_eq_true, if_false]

/-- Only an acquire at cluster scope or wider empties the L1. -/
theorem acquire_core (s : State) (k : Nat) : s.acquire k .core = s := rfl

/-- No operation of the engine is one that an `MWAIT` for `a` of the team waits for: the number 16 stands for every tile (R245). -/
theorem mwait_filter_eq_nil {eng : List (Nat × EngOp)} {team : Nat} {a : BitVec 7}
    (he : ∀ e ∈ eng, e.2.team = team → a.toNat ≠ 16 ∧ e.2.sig.tile ≠ some a.toNat) :
    (eng.filter fun e => e.2.team = team && (a.toNat = 16 || e.2.sig.tile = some a.toNat)) = [] := by
  rw [List.filter_eq_nil_iff]
  intro e hmem hwaits
  simp only [Bool.and_eq_true, Bool.or_eq_true, decide_eq_true_eq] at hwaits
  obtain ⟨hteam, hall | htile⟩ := hwaits
  · exact (he e hmem hteam).1 hall
  · exact (he e hmem hteam).2 htile

theorem mwait_goes_on {a : BitVec 7} (h : Executes (.mwait p a) p s c g on off s1)
    (he : ∀ e ∈ (s1.core g.core).eng, e.2.team = g.team → a.toNat ≠ 16 ∧ e.2.sig.tile ≠ some a.toNat) :
    exec (.mwait p a) s = .next (s1.goOn c.gid off on) := by
  change execMwait p a s = _
  unfold execMwait
  refine inSlot_start_next h rfl (perLane_pure rfl fun l _ => ?_)
  simp only [elim_core h.coreOf, h.teamOf, mwait_filter_eq_nil he, List.map_nil, List.isEmpty_nil, if_true, acquire_core]

end

/-- Settles O21: each instruction by the lemma about it. When the cores see an entry of `TDEF` is the model's reading (log entry 66). -/
theorem engineControlCompletes : Obligations.EngineControlCompletes := by
  unfold Obligations.EngineControlCompletes
  refine ⟨?manch, ?tdef, fun p s c g on off s1 h hl => mopr_goes_on h hl, fun p a s c g on off s1 h he => mwait_goes_on h he⟩
  case manch =>
    intro p d a s c g on off s1 tm h ht n h0 hn
    exact manch_sets_up h ht h0 hn
  case tdef =>
    intro p id a s c g on off s1 h ws hw
    exact tdef_enters h hw

end Sys2Proof.Machine

end

section

/-! Proofs. The floating-point instructions of page 0, packed instructions and conversions (R249 to R257, R259). -/

namespace Sys2Proof.Machine

/-! ### Instructions of two sources (R249) -/

/-- `e` pairs an instruction of two F32 operands with the result and the flags of its function. -/
def TwoFloats (e : (Pre → Opnd → Opnd → Opnd → Instr) × (Nat → Nat → Nat × Flags)) : Prop :=
  ∀ p d a b, Computes (e.1 p d a b) p d fun s g l =>
    let r := e.2 (s.srcF g l a) (s.srcF g l b)
    ([BitVec.ofNat 32 r.1], r.2)

theorem twoFloats_of_fop2 {mk : Pre → Opnd → Opnd → Opnd → Instr} {f : Nat → Nat → Nat × Flags}
    (hm : ∀ p d a b w, ((mk p d a b).need w).mode = .byDst := by intros; rfl)
    (hd : ∀ p d a b w, ((mk p d a b).need w).dst = some (d, 1) := by intros; rfl)
    (he : ∀ p d a b s, exec (mk p d a b) s = fop2 (mk p d a b) p d a b f s := by intros; rfl) : TwoFloats (mk, f) :=
  fun p d a b => computes_of_alu (fun _ _ _ _ h => by simp only [h.srcF]) (hm p d a b) (hd p d a b) (he p d a b)

/-- The same for F64 operands, which lie in pairs of registers. -/
def TwoDoubles (e : (Pre → Opnd → Opnd → Opnd → Instr) × (Nat → Nat → Nat × Flags)) : Prop :=
  ∀ p d a b, Computes (e.1 p d a b) p d fun s g l =>
    let r := e.2 (s.srcT64 g l .f64 a) (s.srcT64 g l .f64 b)
    (wordsOf 2 r.1, r.2)

theorem twoDoubles_of_dop2 {mk : Pre → Opnd → Opnd → Opnd → Instr} {f : Nat → Nat → Nat × Flags}
    (hm : ∀ p d a b w, ((mk p d a b).need w).mode = .byDst := by intros; rfl)
    (hd : ∀ p d a b w, ((mk p d a b).need w).dst = some (d, 2) := by intros; rfl)
    (he : ∀ p d a b s, exec (mk p d a b) s = dop2 (mk p d a b) p d a b f s := by intros; rfl) : TwoDoubles (mk, f) :=
  fun p d a b => computes_of_alu (fun _ _ _ _ h => by simp only [h.srcT64]) (hm p d a b) (hd p d a b) (he p d a b)

/-! ### Rounding to an integral value, and the sign bit (R252, R259) -/

/-- What `FRND` computes in a lane: its operand rounded to an integral value of its type. -/
def frndValue (x : Alu2) (a : Opnd) (s : State) (gid l : Nat) : List Word × Flags :=
  let r := (scalarFmt x.ty).integral x.rm (s.srcAny gid l x.ty a)
  (regsOf x.ty r.1, r.2)

theorem frnd_computes (p : Pre) (x : Alu2) (d a : Opnd) : Computes (.frnd p x d a) p d (frndValue x a) :=
  computes_of_alu (n := x.ty.regs) fun _ _ _ _ h => by simp only [frndValue, h.srcAny]

theorem wordsOf_one (v : Nat) : wordsOf 1 v = [BitVec.ofNat 32 v] := by
  rw [wordsOf, List.range_one, List.map_singleton, Nat.mul_zero, Nat.pow_zero, Nat.div_one]

theorem frndValue_f32 {x : Alu2} (h : x.ty = .f32) (a : Opnd) (s : State) (gid l : Nat) :
    frndValue x a s gid l = ([BitVec.ofNat 32 (Fmt.f32.integral x.rm (s.srcF gid l a)).1],
      (Fmt.f32.integral x.rm (s.srcF gid l a)).2) := by
  rw [← wordsOf_one, frndValue, h]
  rfl

theorem frndValue_f64 {x : Alu2} (h : x.ty = .f64) (a : Opnd) (s : State) (gid l : Nat) :
    frndValue x a s gid l = (wordsOf 2 (Fmt.f64.integral x.rm (s.srcT64 gid l .f64 a)).1,
      (Fmt.f64.integral x.rm (s.srcT64 gid l .f64 a)).2) := by
  rw [frndValue, h]
  rfl

/-- The sign bit of a word's number is dropped before or after its higher bits. -/
theorem toNat_ofNat_mod_sign (v : Nat) : (BitVec.ofNat 32 v).toNat % 2 ^ 31 = v % 2 ^ 31 := by
  rw [BitVec.toNat_ofNat]
  omega

/-- Settles O4: each instruction by the function of its frame. `FABS` and `FCLASS` read a constant as the F32 number that it stands
for (log entry 34). -/
theorem floatArithmeticComplete : Obligations.FloatArithmeticComplete := by
  unfold Obligations.FloatArithmeticComplete
  refine ⟨?floats, ?doubles,
    fun p x d a b => computes_of_alu (n := 1) fun _ _ _ _ h => by simp only [h.srcF],
    fun p x d a b => computes_of_alu (n := 2) fun _ _ _ _ h => by simp only [h.srcT64],
    fun p x d a h => (frnd_computes p x d a).of_eq (frndValue_f32 h a),
    fun p x d a h => (frnd_computes p x d a).of_eq (frndValue_f64 h a),
    fun p d a => computes_of_alu (n := 1) fun _ _ _ _ h => by simp only [h.srcF], ?fabs⟩
  case floats =>
    change ∀ e ∈ _, TwoFloats e
    simp only [List.forall_mem_cons]
    exact ⟨twoFloats_of_fop2, twoFloats_of_fop2, twoFloats_of_fop2, twoFloats_of_fop2, twoFloats_of_fop2, twoFloats_of_fop2,
      List.forall_mem_nil _⟩
  case doubles =>
    change ∀ e ∈ _, TwoDoubles e
    simp only [List.forall_mem_cons]
    exact ⟨twoDoubles_of_dop2, twoDoubles_of_dop2, List.forall_mem_nil _⟩
  case fabs =>
    intro p d a
    have h : Computes (.fabs p d a) p d fun s g l =>
        ([BitVec.ofNat 32 ((BitVec.ofNat 32 (s.srcF g l a)).toNat % 2 ^ 31)], 0) :=
      computes_of_alu (n := 1) fun _ _ _ _ h => by simp only [h.srcF]
    exact h.of_eq fun s g l => by rw [toNat_ofNat_mod_sign]

/-! ### Packed instructions and conversions (R253, R256, R257) -/

/-- What a packed instruction writes: the elements' results in one register, their flags united. -/
def packed (t : Ty) (f : Nat → Nat × Flags) : List Word × Flags :=
  let r := (List.range t.elems).map f
  ([BitVec.ofNat 32 (pack t.ebits (r.map Prod.fst))], (r.map Prod.snd).foldl (· ||| ·) 0)

theorem overElems_packed (t : Ty) (f : Nat → Nat × Flags) :
    ([BitVec.ofNat 32 (overElems t f).1], (overElems t f).2) = packed t f := by
  simp only [overElems, packed, List.foldl_map]

/-- `e` pairs a packed instruction of two sources with the operation of its elements. -/
def TwoPacked (e : (Pre → Alu2 → Opnd → Opnd → Opnd → Instr) × POp) : Prop :=
  ∀ p x d a b, Computes (e.1 p x d a b) p d fun s g l => packed x.ty fun k =>
    packElem e.2 x (elemAt x.ty.ebits k (s.srcT g l x.ty a)) (elemAt x.ty.ebits k (s.srcT g l x.ty b))

theorem twoPacked_of_pop2 {mk : Pre → Alu2 → Opnd → Opnd → Opnd → Instr} {o : POp}
    (hm : ∀ p x d a b w, ((mk p x d a b).need w).mode = .byDst := by intros; rfl)
    (hd : ∀ p x d a b w, ((mk p x d a b).need w).dst = some (d, 1) := by intros; rfl)
    (he : ∀ p x d a b s, exec (mk p x d a b) s = pop2 (mk p x d a b) p o x d a b s := by intros; rfl) : TwoPacked (mk, o) :=
  fun p x d a b => (computes_of_alu (fun _ _ _ _ h => by simp only [h.srcT]) (hm p x d a b) (hd p x d a b) (he p x d a b)).of_eq
    fun _ _ _ => overElems_packed ..

theorem pfma_computes (p : Pre) (x : Alu3) (d a b : Opnd) : Computes (.pfma p x d a b) p d fun s g l => packed x.ty fun k =>
    packFma x (elemAt x.ty.ebits k (s.srcT g l x.ty a)) (elemAt x.ty.ebits k (s.srcT g l x.ty b))
      (elemAt x.ty.ebits k (s.srcT g l x.ty x.c)) :=
  (computes_of_alu (n := 1) fun _ _ _ _ h => by simp only [h.srcT]).of_eq fun _ _ _ => overElems_packed ..

theorem Same.srcElems {gid l : Nat} {s t : State} (h : Same gid l s t) (ty other : Ty) (a : Opnd) :
    t.srcElems gid l ty other a = s.srcElems gid l ty other a := by
  simp only [State.srcElems, h.srcT, h.srcT64]

/-- What `CVT` computes in a lane: each element of its run by itself. -/
def cvtValue (x : CvtX) (a : Opnd) (s : State) (gid l : Nat) : List Word × Flags :=
  let r := (s.srcElems gid l x.sty x.dty a).map (cvtElem x)
  (elemRegs x.dty (r.map Prod.fst), r.foldl (fun f e => f ||| e.2) 0)

theorem cvtValue_ownLane (x : CvtX) (a : Opnd) : OwnLane (cvtValue x a) := fun _ _ _ _ h => by
  simp only [cvtValue, h.srcElems]

theorem cvt_computes (p : Pre) (x : CvtX) (d a : Opnd) : Computes (.cvt p x d a) p d fun s g l =>
    let r := (s.srcElems g l x.sty x.dty a).map (cvtElem x)
    (elemRegs x.dty (r.map Prod.fst), (r.map Prod.snd).foldl (· ||| ·) 0) :=
  (computes_of_alu (n := cvtRegs x.dty x.sty) (cvtValue_ownLane x a)).of_eq fun _ _ _ => by simp only [cvtValue, List.foldl_map]

/-- Settles O5: each instruction by the function of its frame, whose fold over the elements takes the results apart from the flags. -/
theorem packedAndConversionsComplete : Obligations.PackedAndConversionsComplete := by
  unfold Obligations.PackedAndConversionsComplete
  refine ⟨?packed, pfma_computes, cvt_computes⟩
  case packed =>
    change ∀ e ∈ _, TwoPacked e
    simp only [List.forall_mem_cons]
    exact ⟨twoPacked_of_pop2, twoPacked_of_pop2, twoPacked_of_pop2, twoPacked_of_pop2, twoPacked_of_pop2, List.forall_mem_nil _⟩

end Sys2Proof.Machine

end

section

/-! Proofs. Cross-lane instructions: masks, classes, reductions, scans, transformed means and shuffles (R258, R260 to R267). -/

namespace Sys2Proof.Machine

/-! ### The frame of the cross-lane instructions (R261) -/

theorem fpTrap?_raise (s : State) (gid : Nat) (fl e : Flags) : (s.raise gid fl).fpTrap? gid e = s.fpTrap? gid e :=
  (Same.raise gid 0 s fl).fpTrap? e

/-- Everything that the frame `cross` does for a path that executes and raises no enabled flag. -/
theorem computesPath_of_cross {i : Instr} {p : Pre} {d : Opnd} {f : State → Nat → Group → List Nat → (Nat → List Word) × Flags}
    (he : ∀ s, exec i s = cross i p d f s := by intros; rfl) : ComputesPath i p d f := by
  intro s c g on off s1 h ht
  rw [he]
  unfold cross
  refine inSlot_withNames_next h ?_
  simp only [fpTrap?_raise, ht]
  rfl

theorem ComputesPath.of_eq {i : Instr} {p : Pre} {d : Opnd} {f f' : State → Nat → Group → List Nat → (Nat → List Word) × Flags}
    (h : ComputesPath i p d f) (e : ∀ s gid g on, f s gid g on = f' s gid g on) : ComputesPath i p d f' := by
  obtain rfl : f = f' := funext fun s => funext fun gid => funext fun g => funext (e s gid g)
  exact h

/-! ### Masks (R258, R263) -/

theorem testBit_maskWhere (w : Nat) (f : Nat → Bool) (j : Nat) : (maskWhere w f).testBit j = (decide (j < w) && f j) :=
  testBit_bitSum f w j

/-- The test by which `LANEMASK` puts lane `j` into the mask of lane `l`, by its mode. -/
def laneTest (mode : BitVec 3) (on : List Nat) (l j : Nat) : Bool :=
  match mode.toNat with
  | 0 => decide (j < l)
  | 1 => decide (j ≤ l)
  | 2 => decide (l < j)
  | 3 => decide (l ≤ j)
  | 4 => decide (j = l)
  | 5 => on.contains j
  | 6 => on.contains j && decide (j < l)
  | _ => on.contains j && decide (l < j)

theorem laneTest_eq (mode : BitVec 3) (on : List Nat) (l j : Nat) : laneTest mode on l j =
    if mode = 0 then decide (j < l) else if mode = 1 then decide (j ≤ l) else if mode = 2 then decide (l < j)
    else if mode = 3 then decide (l ≤ j) else if mode = 4 then decide (j = l) else if mode = 5 then on.contains j
    else if mode = 6 then on.contains j && decide (j < l) else on.contains j && decide (l < j) := by
  obtain ⟨n, hn⟩ := mode
  interval_cases n <;> rfl

/-- A bit of one of the words of a number. -/
theorem getLsbD_wordsOf {n k j : Nat} (hk : k < n) (hj : j < 32) (v : Nat) : ((wordsOf n v).getD k 0).getLsbD j = v.testBit (32 * k + j) := by
  rw [wordsOf, List.getD_eq_getElem _ _ (by simpa using hk), List.getElem_map, List.getElem_range, BitVec.getLsbD_ofNat,
    Nat.testBit_div_two_pow, decide_eq_true hj, Bool.true_and, Nat.add_comm]

theorem maskRegs_of_pair (m : Nat) {j : Nat} (hj : j < 32) :
    ((maskRegs 64 m).getD 0 0).getLsbD j = m.testBit j ∧ ((maskRegs 64 m).getD 1 0).getLsbD j = m.testBit (32 + j) := by
  have hlow : j < 64 := by omega
  have hhigh : 32 + j < 64 := by omega
  simp only [maskRegs, if_true, getLsbD_wordsOf (show 0 < 2 by decide) hj, getLsbD_wordsOf (show 1 < 2 by decide) hj,
    Nat.testBit_mod_two_pow, Nat.mul_zero, Nat.zero_add, Nat.mul_one, hlow, hhigh, decide_true, Bool.true_and, and_self]

theorem maskRegs_of_word {w : Nat} (hw : w = 16 ∨ w = 32) (m : Nat) {j : Nat} (hj : j < 32) :
    (maskRegs w m).length = 1 ∧ ((maskRegs w m).getD 0 0).getLsbD j = (decide (j < w) && m.testBit j) := by
  have h64 : w ≠ 64 := by omega
  simp only [maskRegs, if_neg h64]
  refine ⟨by simp [wordsOf], ?_⟩
  rw [getLsbD_wordsOf (by decide) hj, Nat.testBit_mod_two_pow, Nat.mul_zero, Nat.zero_add]

/-- Settles O9: each instruction by the function of its frame; the bits of a mask by those of a sum of powers of two. -/
theorem masksComplete : Obligations.MasksComplete := by
  unfold Obligations.MasksComplete
  refine ⟨fun p d a => computesPath_of_cross, fun p d a => computesPath_of_cross, fun p d a => computesPath_of_cross,
    fun p d a => computesPath_of_cross, ?lanemask, testBit_maskWhere, fun m j hj => maskRegs_of_pair m hj,
    fun w m j hw hj => maskRegs_of_word hw m hj⟩
  case lanemask =>
    intro p x d
    have h : ComputesPath (.lanemask p x d) p d fun _ _ g on => (fun l => maskRegs g.w (maskWhere g.w (laneTest x.mode on l)), 0) :=
      computesPath_of_cross
    exact h.of_eq fun _ _ g on => by
      have htest (l : Nat) : laneTest x.mode on l = _ := funext (laneTest_eq x.mode on l)
      simp only [htest]

/-! ### Shuffles (R262) -/

theorem setPred_wrote (o : Opnd) (m n l : Nat) (w : Word) (b : Bool) (g : Group) :
    (wrote o m w g).setPred n l b = wrote o m w (g.setPred n l b) := by cases o <;> rfl

/-- A pair that is written and a register that is written do not meet. -/
theorem dst32_setPair (s : State) (gid k l m : Nat) (b : Bool) (o : Opnd) (w : Word) :
    (s.setPair gid k l b).dst32 gid m o w = (s.dst32 gid m o w).setPair gid k l b := by
  simp only [dst32_eq, setPair_eq, modGroup_modGroup, setPred_wrote]

theorem dstRun_setPair (s : State) (gid k l m : Nat) (b : Bool) (o : Opnd) (ws : List Word) :
    (s.setPair gid k l b).dstRun gid m o ws = (s.dstRun gid m o ws).setPair gid k l b := by
  unfold State.dstRun
  generalize (List.range ws.length).zip ws = xs
  induction xs generalizing s with
  | nil => rfl
  | cons e xs ih => rw [List.foldl_cons, List.foldl_cons, dst32_setPair, ih]

theorem dstRun_paired (s : State) (gid k m : Nat) (ls : List Nat) (f : Nat → Bool) (o : Opnd) (ws : List Word) :
    (s.paired gid k ls f).dstRun gid m o ws = (s.dstRun gid m o ws).paired gid k ls f := by
  unfold State.paired
  induction ls generalizing s with
  | nil => rfl
  | cons l ls ih => rw [List.foldl_cons, List.foldl_cons, ih, dstRun_setPair]

/-- Lanes that each write a run of registers and then their pair: first all registers, then all pairs. -/
theorem foldl_dstRun_setPair (s : State) (gid k : Nat) (d : Opnd) (r : Nat → List Word) (f : Nat → Bool) (ls : List Nat) :
    ls.foldl (fun t l => (t.dstRun gid l d (r l)).setPair gid k l (f l)) s
      = (ls.foldl (fun t l => t.dstRun gid l d (r l)) s).paired gid k ls f := by
  induction ls using List.reverseRecOn with
  | nil => rfl
  | append_singleton ls l ih =>
    rw [List.foldl_append, List.foldl_append, ih, paired_append]
    change ((State.paired ..).dstRun ..).setPair .. = _
    rw [dstRun_paired]
    rfl

section

variable (x : ShX) (s : State) (gid : Nat) (g : Group) (on : List Nat) (a b : Opnd)

/-- The registers that lane `l` offers to a shuffle. -/
def shflRead (l : Nat) : List Word := if x.w64 then wordsOf 2 (s.src64 gid l a true).toNat else [s.src32 gid l a]

/-- The position in its segment that lane `l` asks for. -/
def shflAsked (l : Nat) : Int :=
  shflPos x.mode.toNat (g.w / 2 ^ x.seg.toNat) (l % (g.w / 2 ^ x.seg.toNat)) (s.src32 gid l b)

/-- The lane at that position. -/
def shflSrc (l : Nat) : Nat := l - l % (g.w / 2 ^ x.seg.toNat) + (shflAsked x s gid g b l).toNat

/-- The mask operand of lane `l`. -/
def shflMask (l : Nat) : DWord := if g.w = 64 then s.src64 gid l x.c true else (s.src32 gid l x.c).zeroExtend 64

/-- Whether lane `l` can read the lane that it asks for. -/
def shflOk (l : Nat) : Bool :=
  decide (0 ≤ shflAsked x s gid g b l ∧ shflAsked x s gid g b l < (g.w / 2 ^ x.seg.toNat : Nat) ∧ shflSrc x s gid g b l ∈ on ∧
    (x.c = .nul ∨ (shflMask x s gid g l).getLsbD (shflSrc x s gid g b l) = true))

/-- What lane `l` receives. -/
def shflGot (l : Nat) : List Word := shflRead x s gid a (if shflOk x s gid g on b l then shflSrc x s gid g b l else l)

/-- The model's test of the mask operand is the bit of the mask. -/
theorem shflMask_getLsbD (l j : Nat) : (if g.w = 64 then (s.src64 gid l x.c true).getLsbD j else (s.src32 gid l x.c).getLsbD j)
    = (shflMask x s gid g l).getLsbD j := by
  unfold shflMask
  split
  · rfl
  · rw [BitVec.getLsbD_setWidth]
    by_cases hj : j < 64
    · rw [decide_eq_true hj, Bool.true_and]
    · rw [BitVec.getLsbD_of_ge _ j (by omega), Bool.and_false]

/-- The model's tests of the lane that lane `l` asks for, and what it receives. -/
def shflPick (l : Nat) : Bool × List Word :=
  if decide (0 ≤ shflAsked x s gid g b l) && decide (shflAsked x s gid g b l < (g.w / 2 ^ x.seg.toNat : Nat)) &&
      on.contains (shflSrc x s gid g b l) && (if x.c = .nul then true
        else if g.w = 64 then (s.src64 gid l x.c true).getLsbD (shflSrc x s gid g b l)
        else (s.src32 gid l x.c).getLsbD (shflSrc x s gid g b l))
  then (true, shflRead x s gid a (shflSrc x s gid g b l)) else (false, shflRead x s gid a l)

theorem shflPick_eq (l : Nat) : shflPick x s gid g on a b l = (shflOk x s gid g on b l, shflGot x s gid g on a b l) := by
  have hok : (decide (0 ≤ shflAsked x s gid g b l) && decide (shflAsked x s gid g b l < (g.w / 2 ^ x.seg.toNat : Nat)) &&
      on.contains (shflSrc x s gid g b l) && (if x.c = .nul then true
        else (shflMask x s gid g l).getLsbD (shflSrc x s gid g b l))) = shflOk x s gid g on b l := by
    rw [shflOk, Bool.eq_iff_iff]
    simp only [Bool.and_eq_true, decide_eq_true_eq, List.contains_iff_mem, and_assoc]
    by_cases hc : x.c = .nul <;> simp [hc]
  rw [shflPick, shflMask_getLsbD, hok, shflGot]
  cases shflOk x s gid g on b l <;> rfl

/-- A shuffle's own state after it: every lane's registers, and its pair where it has one. -/
def shuffled (d : Opnd) : State :=
  let t := on.foldl (fun t l => t.dstRun gid l d (shflGot x s gid g on a b l)) s
  match x.pr with
  | some k => t.paired gid k.val on (shflOk x s gid g on b)
  | none => t

theorem foldl_shuffled (d : Opnd) : on.foldl (fun t l =>
    match x.pr with
    | some k => (t.dstRun gid l d (shflGot x s gid g on a b l)).setPair gid k.val l (shflOk x s gid g on b l)
    | none => t.dstRun gid l d (shflGot x s gid g on a b l)) s = shuffled x s gid g on a b d := by
  unfold shuffled
  cases x.pr with
  | none => rfl
  | some k => exact foldl_dstRun_setPair ..

end

theorem shfl_executes {p : Pre} {x : ShX} {d a b : Opnd} {s : State} {c : Slot} {g : Group} {on off : List Nat} {s1 : State}
    (h : Executes (.shfl p x d a b) p s c g on off s1) :
    exec (.shfl p x d a b) s = .next ((shuffled x s1 c.gid g on a b d).goOn c.gid off on) := by
  change execShfl p x d a b s = _
  unfold execShfl
  refine inSlot_withNames_next h ?_
  have hpick := List.map_congr_left fun l (_ : l ∈ on) => congrArg (Prod.mk l) (shflPick_eq x s1 c.gid g on a b l)
  rw [← foldl_shuffled]
  exact congrArg (·, _) ((congrArg (List.foldl _ s1) hpick).trans List.foldl_map)

/-- Settles O10: the lanes' registers and pairs are written one lane after the other, from what all of them read before. -/
theorem shuffleCompletes : Obligations.ShuffleCompletes := by
  unfold Obligations.ShuffleCompletes
  intro p x d a b s c g on off s1 h
  exact shfl_executes h

end Sys2Proof.Machine

end

section

/-! Proofs. Reductions by the canonical tree, scans and transformed means (R264 to R267). -/

namespace Sys2Proof.Machine

/-! ### The canonical tree over integers (R264) -/

/-- The value of the participants at the leaves of a tree. -/
def leafSum (ls : List (Option (Nat × Flags))) : Nat := (ls.map fun x => x.elim 0 Prod.fst).sum

/-- Every participant's value is a number of 32 bits. -/
def LeavesSmall (ls : List (Option (Nat × Flags))) : Prop := ∀ x ∈ ls, ∀ y, x = some y → y.1 < 2 ^ 32

/-- Addition in the type of the reduction is addition of numbers of 32 bits. -/
theorem combineF_add {t : Ty} (ht : t = .i32 ∨ t = .u32) (a b : Nat × Flags) : (combineF .add t a b).1 = (a.1 + b.1) % 2 ^ 32 := by
  rcases ht with rfl | rfl <;> rfl

section

variable {t : Ty} (ht : t = .i32 ∨ t = .u32)

include ht

theorem leafSum_treeLevel (ls : List (Option (Nat × Flags))) : leafSum (treeLevel (combineF .add t) ls) % 2 ^ 32 = leafSum ls % 2 ^ 32 := by
  induction ls using treeLevel.induct with
  | case1 a b rest ih =>
    simp only [treeLevel, leafSum, List.map_cons, List.sum_cons] at ih ⊢
    cases a <;> cases b <;> simp only [Option.elim_some, Option.elim_none, combineF_add ht] <;> omega
  | case2 a => rfl
  | case3 => rfl

theorem LeavesSmall.treeLevel {ls : List (Option (Nat × Flags))} (h : LeavesSmall ls) : LeavesSmall (treeLevel (combineF .add t) ls) := by
  induction ls using treeLevel.induct with
  | case1 a b rest ih =>
    intro x hx y hy
    have hrest : LeavesSmall rest := fun x hx => h x (by simp [hx])
    rcases List.mem_cons.mp hx with rfl | hx
    · have ha := h a (by simp)
      have hb := h b (by simp)
      cases a with
      | none => exact hb y hy
      | some u =>
        cases b with
        | none => exact ha y hy
        | some v =>
          cases hy
          rw [combineF_add ht]
          omega
    · exact ih hrest x hx y hy
  | case2 a => exact h
  | case3 => exact h

end

theorem length_treeLevel {α : Type} (f : α → α → α) {n : Nat} {ls : List (Option α)} (h : ls.length = 2 * n) :
    (treeLevel f ls).length = n := by
  induction ls using treeLevel.induct generalizing n with
  | case1 a b rest ih =>
    simp only [treeLevel, List.length_cons] at h ⊢
    have := ih (n := n - 1) (by omega)
    omega
  | case2 a => simp at h; omega
  | case3 => simp at h; simp [treeLevel]; omega

/-- A level has a participant where the one below it has. -/
theorem exists_some_treeLevel {α : Type} (f : α → α → α) {ls : List (Option α)} (h : ∃ x, some x ∈ ls) : ∃ x, some x ∈ treeLevel f ls := by
  induction ls using treeLevel.induct with
  | case1 a b rest ih =>
    obtain ⟨x, hx⟩ := h
    simp only [treeLevel, List.mem_cons] at hx ⊢
    rcases hx with rfl | rfl | hx
    · cases b with
      | none => exact ⟨x, .inl rfl⟩
      | some v => exact ⟨f x v, .inl rfl⟩
    · cases a with
      | none => exact ⟨x, .inl rfl⟩
      | some u => exact ⟨f u x, .inl rfl⟩
    · obtain ⟨y, hy⟩ := ih ⟨x, hx⟩
      exact ⟨y, .inr hy⟩
  | case2 a => exact h
  | case3 => exact h

/-- Over integers the tree delivers the sum of its leaves, whatever its shape. -/
theorem tree_add {t : Ty} (ht : t = .i32 ∨ t = .u32) {h : Nat} {ls : List (Option (Nat × Flags))} (hl : ls.length = 2 ^ h)
    (hs : LeavesSmall ls) (he : ∃ x, some x ∈ ls) : (tree (combineF .add t) h ls).map Prod.fst = some (leafSum ls % 2 ^ 32) := by
  induction h generalizing ls with
  | zero =>
    obtain ⟨a, rfl⟩ := List.length_eq_one_iff.mp hl
    obtain ⟨x, hx⟩ := he
    obtain rfl : some x = a := by simpa using hx
    have hlt := hs (some x) (by simp) x rfl
    simp only [tree, List.headD_cons, Option.map_some, leafSum, List.map_cons, List.map_nil, Option.elim_some, List.sum_cons,
      List.sum_nil, Nat.add_zero, Nat.mod_eq_of_lt hlt]
  | succ h ih =>
    rw [tree, ih (length_treeLevel _ (by rw [hl, Nat.pow_succ, Nat.mul_comm])) (hs.treeLevel ht) (exists_some_treeLevel _ he),
      leafSum_treeLevel ht]

/-- The leaves of a reduction: the participants' values at their lanes. -/
def leavesOf {α : Type} (on : List Nat) (v : Nat → α) (n : Nat) : List (Option (α × Flags)) :=
  (List.range n).map fun l => if l ∈ on then some (v l, 0) else none

theorem leafSum_leavesOf {on : List Nat} (hn : on.Nodup) {n : Nat} (hlt : ∀ l ∈ on, l < n) (v : Nat → Nat) :
    leafSum (leavesOf on v n) = (on.map v).sum := by
  have hleaf : leafSum (leavesOf on v n) = (((List.range n).filter (· ∈ on)).map v).sum := by
    unfold leafSum leavesOf
    rw [List.map_map]
    induction List.range n with
    | nil => rfl
    | cons l ls ih =>
      by_cases hl : l ∈ on <;> simp [hl, ← ih]
  have hperm : ((List.range n).filter (· ∈ on)).Perm on := by
    refine (List.perm_ext_iff_of_nodup (List.nodup_range.filter _) hn).mpr fun l => ?_
    simpa using hlt l
  rw [hleaf]
  exact (hperm.map v).sum_eq

/-- Settles O12: every level of the tree keeps the sum of its leaves modulo 2^32. -/
theorem integerReductionIsSum : Obligations.IntegerReductionIsSum := by
  unfold Obligations.IntegerReductionIsSum
  intro x v on h hop ht hne hn hlt
  have hsmall : LeavesSmall (leavesOf on v (2 ^ h)) := by
    intro y hy z hz
    obtain ⟨l, -, rfl⟩ := List.mem_map.mp hy
    by_cases hl : l ∈ on
    · rw [if_pos hl] at hz
      cases hz
      exact (hlt l hl).2
    · rw [if_neg hl] at hz
      cases hz
  have hsome : ∃ y, some y ∈ leavesOf on v (2 ^ h) := by
    obtain ⟨l, hl⟩ := List.exists_mem_of_ne_nil on hne
    exact ⟨(v l, 0), List.mem_map.mpr ⟨l, List.mem_range.mpr (hlt l hl).1, if_pos hl⟩⟩
  rw [hop, ← leafSum_leavesOf hn (fun l hl => (hlt l hl).1) v]
  exact tree_add ht (by simp) hsmall hsome

/-! ### Reductions of the frame `cross` (R264 to R266) -/

theorem leavesOf_contains {α : Type} (on : List Nat) (v : Nat → α) (n : Nat) :
    ((List.range n).map fun l => if on.contains l then some (v l, (0 : Flags)) else none) = leavesOf on v n := by
  simp only [leavesOf, List.contains_iff_mem]

/-- What a map that lists the values of lanes gives for a lane. -/
theorem get?_map_lane {α : Type} (on : List Nat) (v : Nat → α) (l : Nat) :
    Map.get? (on.map fun k => (k, v k)) l = if l ∈ on then some (v l) else none := by
  induction on with
  | nil => rfl
  | cons k on ih =>
    rw [List.map_cons, Map.get?_cons, ih]
    by_cases hk : k = l
    · subst hk; simp
    · simp [hk, Ne.symm hk]

theorem leavesOf_get? {α : Type} (on : List Nat) (v : Nat → α) (n : Nat) :
    ((List.range n).map fun l => (Map.get? (on.map fun k => (k, v k)) l).map fun x => (x, (0 : Flags))) = leavesOf on v n := by
  unfold leavesOf
  refine List.map_congr_left fun l _ => ?_
  rw [get?_map_lane]
  split <;> rfl

/-- The state that a lane brings to `GMRED`. -/
def gmLeaf (x : GmX) (v : GmEnv) (a : Opnd) (s : State) (gid l : Nat) : GmState :=
  if x.inS then
    let r := s.srcRun gid l a 4
    if r.getD 2 0 = 0 then {} else ⟨(r.getD 0 0).toNat, r.getD 1 0, r.getD 2 0⟩
  else Gm.term v (s.srcF gid l a)

/-- The state and the flags to which `GMRED` comes over the lanes of its path (R266). -/
def gmAll (x : GmX) (v : GmEnv) (a : Opnd) (s : State) (gid w : Nat) (on : List Nat) : GmState × Flags :=
  if Gm.bad v then (⟨Gm.nanC, 0, on.foldl (fun n l => n + (gmLeaf x v a s gid l).n) 0⟩, flGM)
  else
    let r := (tree (gmCombine v) (Nat.log2 w) (leavesOf on (gmLeaf x v a s gid) w)).getD ({}, 0)
    if on.any fun l => (gmLeaf x v a s gid l).n ≠ 0 && Gm.isNan (gmLeaf x v a s gid l).s then ({ r.1 with s := Gm.nanC }, r.2 ||| flGM)
    else r

/-- What `REDUX` computes over a path, with its leaves as the model lists them. -/
def reduxValue (x : RxX) (a : Opnd) (s : State) (gid : Nat) (g : Group) (on : List Nat) : (Nat → List Word) × Flags :=
  let r := (tree (combineF (RxX.rop x) x.ty) (Nat.log2 g.w) ((List.range g.w).map fun l =>
    if on.contains l then some (s.srcAny gid l x.ty a, 0) else none)).getD (0, 0)
  (fun _ => regsOf x.ty r.1, r.2)

theorem redux_computes (p : Pre) (x : RxX) (d a : Opnd) : ComputesPath (.redux p x d a) p d fun s gid g on =>
    let r := (tree (combineF (RxX.rop x) x.ty) (Nat.log2 g.w) (leavesOf on (fun l => s.srcAny gid l x.ty a) g.w)).getD (0, 0)
    (fun _ => regsOf x.ty r.1, r.2) := by
  have h : ComputesPath (.redux p x d a) p d (reduxValue x a) := computesPath_of_cross
  exact h.of_eq fun s gid g on => by simp only [reduxValue, leavesOf_contains]

/-- What `GMRED` computes over a path, with its leaves as the model lists them. -/
def gmredValue (x : GmX) (a : Opnd) (s : State) (gid : Nat) (g : Group) (on : List Nat) : (Nat → List Word) × Flags :=
  let v := s.gmEnv g.ctx g.gmMode g.gmShape
  let leaves := on.map fun l => (l, gmLeaf x v a s gid l)
  let (st, fl) : GmState × Flags :=
    if Gm.bad v then (⟨Gm.nanC, 0, leaves.foldl (fun n e => n + e.2.n) 0⟩, flGM)
    else
      let cells := (List.range g.w).map fun l => (Map.get? leaves l).map fun st => (st, (0 : Flags))
      let (st, fl) := (tree (gmCombine v) (Nat.log2 g.w) cells).getD ({}, 0)
      if leaves.any fun e => e.2.n ≠ 0 && Gm.isNan e.2.s then ({ st with s := Gm.nanC }, fl ||| flGM) else (st, fl)
  if x.ext then
    let (c, xf) := Gm.exit v st
    (fun _ => [BitVec.ofNat 32 c], fl ||| xf)
  else (fun _ => [BitVec.ofNat 32 st.s, st.e, st.n, 0], fl)

theorem gmred_computes (p : Pre) (x : GmX) (d a : Opnd) : ComputesPath (.gmred p x d a) p d fun s gid g on =>
    let v := s.gmEnv g.ctx g.gmMode g.gmShape
    let all := gmAll x v a s gid g.w on
    if x.ext then (fun _ => [BitVec.ofNat 32 (Gm.exit v all.1).1], all.2 ||| (Gm.exit v all.1).2)
    else (fun _ => [BitVec.ofNat 32 all.1.s, all.1.e, all.1.n, 0], all.2) := by
  have h : ComputesPath (.gmred p x d a) p d (gmredValue x a) := computesPath_of_cross
  exact h.of_eq fun s gid g on => by
    simp only [gmredValue, gmAll, leavesOf_get?, List.foldl_map, List.any_map, Function.comp_def]

/-! ### Loading a table (R267) -/

/-- The group of a slot is listed in the state in which its instruction runs, of its context and its team. -/
theorem Executes.listed {i : Instr} {p : Pre} {s : State} {c : Slot} {g : Group} {on off : List Nat} {s1 : State}
    (h : Executes i p s c g on off s1) : ∃ g1, s1.group? c.gid = some g1 ∧ g1.ctx = g.ctx ∧ g1.team = g.team := by
  obtain ⟨g1, hg1, -, hctx⟩ := group?_of_coreOf h.coreOf h.ctxOf
  have hteam := h.teamOf
  rw [State.teamOf, hg1] at hteam
  exact ⟨g1, hg1, hctx, hteam⟩

theorem gmtab_loads {p : Pre} {d : BitVec 7} {a : Opnd} {s : State} {c : Slot} {g : Group} {on off : List Nat} {s1 : State}
    (h : Executes (.gmtab p d a) p s c g on off s1) {ph : Nat} (hal : (s1.src32 c.gid (on.headD 0) a).toNat % 16 = 0)
    (hph : s1.scratch? g.team (s1.src32 c.gid (on.headD 0) a).toNat 536 = some ph)
    (hok : Gm.imageOk ⟨4, 0, wordsOf 134 (ofBytes (s1.readPhys ph 536))⟩ = true) :
    exec (.gmtab p d a) s = .next ((s1.modCtx g.ctx fun x =>
      { x with gm := Map.put d.toNat (wordsOf 134 (ofBytes (s1.readPhys ph 536))) x.gm }).goOn c.gid off on) := by
  obtain ⟨g1, hg1, hctx, hteam⟩ := h.listed
  change execGmtab p d a s = _
  unfold execGmtab
  refine inSlot_start_next h rfl (perLane_once h.ran rfl ?_)
  have hbad : s1.scratchBad g.team (s1.src32 c.gid (on.headD 0) a).toNat 536 16 = none := by
    simp only [State.scratchBad, hal, hph, Option.isNone_some, ne_eq, not_true_eq_false, if_false, Bool.false_eq_true]
  simp only [hg1, hctx, hteam, hbad, hph, hok, if_true]

/-- Settles O11: `REDUX`, `SCAN` and `GMRED` by the functions of their frame, `GMTAB` by what it reads. A `GMRED` over leaves with n = 0
follows the model's reading (log entry 33). -/
theorem reductionsComplete : Obligations.ReductionsComplete := by
  unfold Obligations.ReductionsComplete
  refine ⟨redux_computes, fun p x d a => computesPath_of_cross, gmred_computes, ?gmtab⟩
  case gmtab =>
    intro p d a s c g on off s1 h ph ad hal hph _ hok
    exact gmtab_loads h hal hph hok

end Sys2Proof.Machine

end

section

/-! Proofs. The fabric's instructions and those that read a descriptor at issue (R352, R358, R362, R370, R375 to R383). -/

namespace Sys2Proof.Machine

/-! ### Instructions whose operands are registers (R352, R370, R375, R376, R378, R382, R383) -/

section

variable {i : Instr} {p : Pre} {s : State} {c : Slot} {g : Group} {on off : List Nat} {s1 : State}

theorem elim_of_ctxOf {gid k : Nat} (h : s.ctxOf gid = k) : (s.group? gid).elim 0 Group.ctx = k := h

/-- The core of a slot's group in the state in which its instruction runs. -/
theorem Executes.elim_core (h : Executes i p s c g on off s1) : (s1.group? c.gid).elim 0 Group.core = g.core :=
  Sys2Proof.Machine.elim_core h.coreOf

/-- `MCST` issues a multicast of the line that its operands name, once their checks pass. -/
theorem mcstReq_of_checks {x : McX} {d a b : Opnd} (h : Executes i p s c g on off s1) {l : Nat} {ps : List Nat}
    (hsrc : (if x.ssp then (s1.src32 c.gid l a).toNat else (s1.src64 c.gid l a false).toNat) % 256 = 0)
    (hdst : (s1.src64 c.gid l x.c false).toNat % 256 = 0) (hpos : (s1.src64 c.gid l x.c false).toNat / 2 ^ 47 % 2 ^ 10 = 0)
    (hps : s1.groupOf? (s1.src32 c.gid l b).toNat = some ps) (hst : s1.pathStores c.gid l = false)
    (hpage : if x.ssp then
        (s1.scratch? g.team (if x.ssp then (s1.src32 c.gid l a).toNat else (s1.src64 c.gid l a false).toNat) 256).isSome = true
      else s1.absent g.ctx (if x.ssp then (s1.src32 c.gid l a).toNat else (s1.src64 c.gid l a false).toNat) { r := true }
        (pairOf g.core) = false) :
    mcstReq x d a b s1.fresh.2 c.gid l = .ok
      { kind := .mcst { grp := (s1.src32 c.gid l b).toNat, poss := ps, addr := (s1.src64 c.gid l x.c false).toNat, local_ := x.ssp
                        src := if x.ssp then (s1.src32 c.gid l a).toNat else (s1.src64 c.gid l a false).toNat }
        ord := if x.rel then .rel else .rlx, scope := .sys, dst := some (d, 4) } := by
  have hfresh : mcstReq x d a b s1.fresh.2 c.gid l = mcstReq x d a b s1 c.gid l := by
    simp only [mcstReq, src32_fresh, src64_fresh]
    rfl
  rw [hfresh]
  simp only [mcstReq, hsrc, hdst, hpos, hps, hst, h.teamOf, h.ctxOf, h.elim_core, ne_eq, not_true_eq_false, if_false,
    Bool.false_eq_true]
  cases hx : x.ssp with
  | true =>
    simp only [hx, if_true] at hpage
    obtain ⟨ph, hph⟩ := Option.isSome_iff_exists.mp hpage
    simp [hph]
  | false =>
    simp only [hx, Bool.false_eq_true, if_false] at hpage
    simp [hpage]

theorem rloadReq_of_checks {x : RlX} {d a b : Opnd} {gid l : Nat} {ps : List Nat}
    (hal : (s.src64 gid l a false).toNat % 256 = 0) (hpos : (s.src64 gid l a false).toNat / 2 ^ 47 % 2 ^ 10 = 0)
    (hsp : (s.src32 gid l d).toNat % 16 = 0) (hsc : (s.scratch? (s.teamOf gid) (s.src32 gid l d).toNat 256).isSome)
    (hps : s.groupOf? (s.src32 gid l b).toNat = some ps) :
    rloadReq x d a b s.fresh.2 gid l = .ok
      { kind := .rload { poss := ps, addr := (s.src64 gid l a false).toNat, spad := (s.src32 gid l d).toNat
                         ety := x.ety.toNat, rop := x.rop.val, server := s.progDie ((s.group? gid).elim 0 Group.core) }
        ord := if x.acq then .acq else .rlx, scope := .sys, ordered := false } := by
  have hfresh : rloadReq x d a b s.fresh.2 gid l = rloadReq x d a b s gid l := by
    simp only [rloadReq, src32_fresh, src64_fresh]
    rfl
  obtain ⟨ph, hph⟩ := Option.isSome_iff_exists.mp hsc
  rw [hfresh]
  simp only [rloadReq, hal, hpos, hsp, hps, hph, Option.isNone_some, ne_eq, not_true_eq_false, if_false, Bool.false_eq_true]
  rfl

theorem scbReq_of_number {set : Bool} {a b : Opnd} {gid l : Nat} (h : (s.src32 gid l a).toNat < 256) :
    scbReq set a b s.fresh.2 gid l =
      .ok { kind := .scb (s.src32 gid l a).toNat (s.src64 gid l b true) set, scope := .dev, h := set } := by
  simp only [scbReq, src32_fresh, src64_fresh, if_neg (show ¬255 < (s.src32 gid l a).toNat by omega)]

/-- The request of a `PEERQ`. -/
def peerqReq (d a : Opnd) (s : State) (gid l : Nat) : Issue :=
  .ok { kind := .peerq (s.src32 gid l a).toNat, ordered := false, dst := some (d, 1) }

theorem exec_peerq (p : Pre) (d a : Opnd) (s : State) :
    exec (.peerq p d a) s = issue (.peerq p d a) p (byBelay State.startPeerq) true false (peerqReq d a) s := by
  change execPeerq p d a s = _
  unfold execPeerq
  rfl

theorem exec_wcflush (p : Pre) (s : State) : exec (.wcflush p) s =
    issue (.wcflush p) p (byBelay State.startWcflush) false true (fun _ _ _ => .ok { kind := .wcflush [], ordered := false }) s := by
  change execWcflush p s = _
  unfold execWcflush
  rfl

/-- Settles O18: the checks of each instruction come to its request; after a `MCST` the sources are read. -/
theorem fabricOperationsIssue : Obligations.FabricOperationsIssue := by
  unfold Obligations.FabricOperationsIssue
  refine ⟨?mcst, ?rload, fun p d a => issues_of_issue (exec_peerq p d a) fun _ _ _ _ => by rw [peerqReq, src32_fresh],
    fun p => issues_of_issue (exec_wcflush p) fun _ _ _ _ => rfl,
    fun p a b => issues_of_issue (fun _ => rfl) fun _ _ _ h => scbReq_of_number h,
    fun p a b => issues_of_issue (fun _ => rfl) fun _ _ _ h => scbReq_of_number h⟩
  case mcst =>
    intro p x d a b s c g on off s1 h hst src dst ps hok
    change execMcst p x d a b s = _
    unfold execMcst
    rw [issue_executes h hst fun l hl => ?_]
    · rfl
    · obtain ⟨hsrc, hdst, hpos, hps, hstores, hpage⟩ := hok l hl
      exact mcstReq_of_checks h hsrc hdst hpos hps hstores hpage
  case rload =>
    intro p x d a b ps
    refine issues_of_issue (fun _ => rfl) fun s gid l hok => ?_
    obtain ⟨hal, hpos, hsp, hsc, hps⟩ := hok
    exact rloadReq_of_checks hal hpos hsp hsc hps

end

/-! ### Fallible instructions whose checks read memory -/

/-- What a chain of lanes leaves where each in turn takes the state on and answers. -/
theorem foldl_answers {α : Type} {f : State → Nat → State × α} {ls : List Nat} {t : Nat → State} {r : Nat → α}
    (h : ∀ k, k < ls.length → f (t k) (ls.getD k 0) = (t (k + 1), r k)) :
    ls.foldl (fun (q : State × List (Nat × α)) l => ((f q.1 l).1, q.2 ++ [(l, (f q.1 l).2)])) (t 0, [])
      = (t ls.length, (List.range ls.length).map fun k => (ls.getD k 0, r k)) := by
  refine foldl_chain (q := fun k => (t k, (List.range k).map fun j => (ls.getD j 0, r j))) fun k hk => ?_
  simp only [h k hk, List.range_succ, List.map_append, List.map_singleton]

section

variable {i : Instr} {p : Pre} {start : State → Nat → State} {a b : Bool} {f : State → Nat → Nat → State × Issue} {s : State} {c : Slot}
  {g : Group} {on off : List Nat} {s1 : State} (h : Executes i p s c g on off s1) (hst : s1.issueStall c on a b = none)

include h hst

/-- Where nothing holds the issue back and the computing lanes' checks pass one after the other, from `t 0` to `t` of their number, the
operations are in flight and the path goes on. -/
theorem issueS_executes {t : Nat → State} {r : Nat → Req} (h0 : t 0 = s1.fresh.2)
    (hf : ∀ k, k < (doers i g on).length → f (t k) c.gid ((doers i g on).getD k 0) = (t (k + 1), .ok (r k))) :
    issueS i p start a b f s = .next (((t (doers i g on).length).executing c s1.fresh.1 a b fun v =>
      (List.range (doers i g on).length).foldl (fun u k => u.issueOp start c g s1.fresh.1 a b
        (if (i.need g.w).perPath then on else [(doers i g on).getD k 0]) (r k)) v).goOn c.gid off on) := by
  have hne : (doers i g on).length ≠ 0 := by simpa using doers_ne_nil h
  have htried := foldl_answers (f := fun u l => f u c.gid l) hf
  rw [h0] at htried
  unfold issueS
  rw [inSlot_executes h, withNames_executes h]
  simp only [hst]
  unfold doers at htried hne ⊢
  simp only [htried, List.filterMap_map, Function.comp_def]
  rw [filterMap_some, if_neg (by simpa using hne), ← finish_next (on := on)]
  simp only [List.foldl_map]
  refine congrArg (fun rs => Host.Outcome.next (State.finish _ c.gid off rs)) (List.map_congr_left fun l _ => congrArg (Prod.mk l) ?_)
  split
  next e he =>
    obtain ⟨k, -, rfl⟩ := List.mem_map.mp (List.mem_of_find?_eq_some he)
    rfl
  next => rfl

/-- The same for an instruction that issues in every lane. -/
theorem issueS_thread (hm : (i.need g.w).mode = .thread) {t : Nat → State} {r : Nat → Req} (h0 : t 0 = s1.fresh.2)
    (hf : ∀ k, k < on.length → f (t k) c.gid (on.getD k 0) = (t (k + 1), .ok (r k))) :
    issueS i p start a b f s = .next (((t on.length).executing c s1.fresh.1 a b fun v =>
      (List.range on.length).foldl (fun u k => u.issueOp start c g s1.fresh.1 a b [on.getD k 0] (r k)) v).goOn c.gid off on) := by
  have hd := doers_thread hm on
  have hp : (i.need g.w).perPath = false := by rw [Need.perPath, hm]
  have hrun := issueS_executes (start := start) h hst h0 (by rwa [hd])
  simpa only [hd, hp, Bool.false_eq_true, if_false] using hrun

/-- The same for an instruction that issues once for its path. -/
theorem issueS_once (hm : (i.need g.w).mode = .once) {t : State} {r : Req}
    (hf : f s1.fresh.2 c.gid (on.headD 0) = (t, .ok r)) :
    issueS i p start a b f s =
      .next ((t.executing c s1.fresh.1 a b fun u => u.issueOp start c g s1.fresh.1 a b on r).goOn c.gid off on) := by
  have hp : (i.need g.w).perPath = true := by rw [Need.perPath, hm]
  have hd : doers i g on = [on.headD 0] := by
    obtain ⟨l, ls, rfl⟩ := List.exists_cons_of_ne_nil h.ran
    simp [doers, hp]
  have hrun := issueS_executes (start := start) h hst (t := fun k => if k = 0 then s1.fresh.2 else t) (r := fun _ => r) rfl fun k hk => by
    obtain rfl : k = 0 := by simpa [hd] using hk
    simpa [hd] using hf
  rw [hrun, hd, hp]
  rfl

end

/-! ### Descriptors that can be read (R317, R362, R377) -/

section

variable {s t : State} {gid l va n : Nat} {bs : List Byte}

theorem walked_groups {ctx ex lane : Nat} (h : s.walked ctx va n ex lane = (t, true)) : t.groups = s.groups := by
  unfold State.walked at h
  dsimp only at h
  split at h
  · split at h <;> (cases h; rfl)
  · cases h

theorem gateAt_groups {ctx ex lane : Nat} (h : s.gateAt ctx va n ex lane = (t, true)) : t.groups = s.groups := by
  unfold State.gateAt at h
  split at h
  · cases h
  · exact walked_groups h

theorem meets_groups (ctx : Nat) (p : Perm) (sys : Bool) (die : Nat) : (s.meets ctx va n p sys die).groups = s.groups := by
  refine foldl_keeps State.groups (fun u e => ?_) _ s
  split
  · rfl
  · dsimp only
    split <;> rfl

/-- A descriptor that is read leaves the groups as they are. -/
theorem readDesc_groups (h : s.readDesc gid l va n = (t, .bytes bs)) : t.groups = s.groups := by
  unfold State.readDesc at h
  split at h
  · cases h
  next g hg =>
    split at h
    · cases h
    · split at h
      · cases h
      next u hu =>
        split at h
        next v w hread =>
          cases h
          exact (congrArg State.groups (gread_offMemory hread)).trans ((meets_groups ..).trans (gateAt_groups hu))
        · cases h
        · cases h

/-- Readings one after the other, from `t 0` on, leave the groups as they are. -/
theorem readDesc_chain_groups {ls : List Nat} {t : Nat → State} {va : Nat → Nat} {bs : Nat → List Byte} {m : Nat}
    (h : ∀ k, k < m → (t k).readDesc gid (ls.getD k 0) (va k) n = (t (k + 1), .bytes (bs k))) :
    ∀ k, k ≤ m → (t k).groups = (t 0).groups := by
  intro k hk
  induction k with
  | zero => rfl
  | succ k ih => rw [readDesc_groups (h k hk), ih (by omega)]

end

/-- Settles O19: `ARM` lane by lane, the others once for their path. -/
theorem descriptorOperationsIssue : Obligations.DescriptorOperationsIssue := by
  unfold Obligations.DescriptorOperationsIssue
  refine ⟨?arm, ?coll, ?gang, ?mgrp⟩
  case arm =>
    intro p x a b s c g on off s1 h hst t bs h0 r hr
    have hgroups := readDesc_chain_groups fun k hk => (hr k hk).2.1
    change execArm p x a b s = _
    unfold execArm
    refine issueS_thread h hst rfl h0 fun k hk => ?_
    obtain ⟨hal, hread, hok⟩ := hr k hk
    have hg : (t k).group? c.gid = s1.group? c.gid := by rw [State.group?, hgroups k hk.le, h0]; rfl
    have hcore : ((t k).group? c.gid).elim 0 Group.core = g.core := by rw [hg]; exact h.elim_core
    have hteam : (t k).teamOf c.gid = g.team := by rw [State.teamOf, hg]; exact h.teamOf
    dsimp only [r] at hal hread hok ⊢
    simp only [hal, hcore, hteam, hread, hok, ne_eq, not_true_eq_false, if_false, if_true]
  case coll =>
    intro p hflag a s c g on off s1 h hst t bs d v va hal hread hdesc hgate hslots
    change execColl p hflag a s = _
    unfold execColl
    refine issueS_once h hst rfl ?_
    have hcore : (s1.fresh.2.group? c.gid).elim 0 Group.core = g.core := h.elim_core
    have hctx : s1.fresh.2.ctxOf c.gid = g.ctx := h.ctxOf
    have hbuffer : (if 4 * (8 * d.elems) ≤ chunkBuffer then (t, true)
        else t.gateAt g.ctx d.prog 32768 (2 ^ 65 + 64 * c.gid + on.headD 0) (on.headD 0)) = (v, true) := by
      split at hgate
      next hle => rw [if_pos hle, hgate]
      next hle => rw [if_neg hle, hgate]
    dsimp only [va] at hal hread
    simp only [src64_fresh, hcore, hctx, hal, hread, hdesc, hbuffer, hslots, ne_eq, not_true_eq_false, if_false]
  case gang =>
    intro p a b s c g on off s1 h hst t bs ps va hal hps hread
    change execGang p a b s = _
    unfold execGang
    refine issueS_once h hst rfl ?_
    have hgrp : s1.fresh.2.groupOf? (s1.src32 c.gid (on.headD 0) b).toNat = some ps := hps
    dsimp only [va] at hal hread
    simp only [src64_fresh, src32_fresh, hal, hgrp, hread, ne_eq, not_true_eq_false, if_false]
  case mgrp =>
    intro p a b s c g on off s1 h hst t hd u tl ps va n hn hal hread hcnt hrest hdesc
    change execMgrp p a b s = _
    unfold execMgrp
    refine issueS_once h hst rfl ?_
    dsimp only [va, n] at hal hread hrest hn ⊢
    simp only [src64_fresh, src32_fresh, hal, hread, hrest, hdesc, if_neg (Nat.not_le.mpr hn), if_neg (Nat.not_lt.mpr hcnt), ne_eq, not_true_eq_false, if_false]

end Sys2Proof.Machine

end

section

/-! Proofs. The steps of collective programs that move no chunk (R364, R366). -/

namespace Sys2Proof.Machine

/-! ### The bits that a step names on a scoreboard (R366) -/

theorem getLsbD_stepMask (w : StepW) (i : Nat) :
    (stepMask w).getLsbD i = (decide (i < 64) && (decide (w.fb.toNat ≤ i) && decide (i - w.fb.toNat < w.nb.toNat + 1))) := by
  rw [stepMask, BitVec.getLsbD_ofNat, Nat.testBit_mul_two_pow, Nat.testBit_two_pow_sub_one]

/-- A scoreboard covers the mask of a step where the `NB` + 1 bits from `FB` on are set. -/
theorem and_stepMask_of_set {w : StepW} {v : DWord}
    (h : ∀ j, j ≤ w.nb.toNat → w.fb.toNat + j < 64 → v.getLsbD (w.fb.toNat + j) = true) : v &&& stepMask w = stepMask w := by
  apply BitVec.eq_of_getLsbD_eq
  intro i hi
  rw [BitVec.getLsbD_and, getLsbD_stepMask, decide_eq_true hi, Bool.true_and]
  by_cases hm : w.fb.toNat ≤ i ∧ i - w.fb.toNat < w.nb.toNat + 1
  · obtain ⟨hlo, hhi⟩ := hm
    have hset := h (i - w.fb.toNat) (by omega) (by omega)
    rw [Nat.add_sub_cancel' hlo] at hset
    rw [hset, Bool.true_and]
  · have hout : (decide (w.fb.toNat ≤ i) && decide (i - w.fb.toNat < w.nb.toNat + 1)) = false := by simpa using hm
    rw [hout, Bool.and_false]

/-! ### What the steps come to (R364, R366) -/

section

variable {s t : State} {k : Nat} {p q : Prog} {w : StepW}

theorem waitDo_of_set (hm : w.md = false) (h : ∀ j, j ≤ w.nb.toNat → w.fb.toNat + j < 64 →
    (Map.get ((s.ctx? p.ctx).elim [] Ctx.scb) w.sb.toNat 0).getLsbD (w.fb.toNat + j) = true) : waitDo w s k p = .on (s.nextStep k) := by
  unfold waitDo
  simp only [hm, and_stepMask_of_set h, Bool.false_eq_true, if_false, decide_true, if_true]

theorem waitDo_of_complete (hm : w.md = true) (h : p.complete = true) : waitDo w s k p = .on (s.nextStep k) := by
  simp only [waitDo, hm, h, if_true]

theorem ownStep_some (s : State) (k : Nat) (q : Prog) : ownStep s k (some q) = .on (s.modProg k fun _ => q) := rfl

theorem signalDo_of_scoreboard (hm : w.md = false) (h : p.complete = true) :
    signalDo w s k p = .on ((s.nextStep k).scbUpdate p.ctx w.sb.toNat fun v => v ||| stepMask w) := by
  simp only [signalDo, hm, h, Bool.not_true, Bool.false_eq_true, if_false]

theorem signalDo_of_word {va : Nat} {u : State} (hm : w.md = true) (h : p.complete = true)
    (hva : va = ((((p.d.b.getD w.bd.toNat 0 : Nat) : Int) + 4 * w.k.toInt) % ((2 ^ 64 : Nat) : Int)).toNat)
    (hg : s.collGate k p va 4 = (t, true)) (hw : t.collWrite k p va (toBytes 4 w.value.toNat) false false = .ok u) :
    signalDo w s k p = .on (u.nextStep k) := by
  subst hva
  simp only [signalDo, hm, h, Bool.not_true, Bool.false_eq_true, if_false, if_true]
  rw [gated_of_free hg, hw]
  rfl

theorem endDo_of_complete (h : p.complete = true) : endDo s k p = .on (s.progEnd k p .ok) := by
  simp only [endDo, h, if_true]

end

/-- Settles O32: each step by what it comes to where nothing is under way. How early credits go out is the model's (log entry 29). -/
theorem controlStepsComplete : Obligations.ControlStepsComplete := by
  unfold Obligations.ControlStepsComplete
  intro s k p w h
  have complete (hu : p.unacked = []) : p.complete = true := by rw [Prog.complete, hu]; rfl
  have runs {f : State → Nat → Prog → StepRes} {u : State} (hf : f s k p = .on u) : inStep noSource f s = .next (u.giveCredits k) :=
    inStep_goes_on h (chunkReady_none h) hf
  refine ⟨fun hm hset => runs (waitDo_of_set hm hset), fun hm hu => runs (waitDo_of_complete hm (complete hu)), fun q hq => runs ?loop,
    fun q hq => runs ?endl, fun q hq => runs ?peer, fun hu hm => runs (signalDo_of_scoreboard hm (complete hu)),
    fun s0 t hu hm hg hw => runs (signalDo_of_word hm (complete hu) rfl hg hw), fun hu => runs (endDo_of_complete (complete hu))⟩
  case loop => rw [hq, ownStep_some]
  case endl => rw [hq, ownStep_some]
  case peer => rw [hq, ownStep_some]

end Sys2Proof.Machine

end

section

/-! Proofs. Collective programs that start, take chunks and control in, and end where they fail (R344, R362, R365, R367). -/

namespace Sys2Proof.Machine

theorem prog?_modProg (s : State) (k : Nat) (f : Prog → Prog) : (s.modProg k f).prog? k = (s.prog? k).map f := Map.get?_mod k f s.progs

/-! ### Receiving steps ahead (R365) -/

theorem length_receives_le (fuel k : Nat) (p : Prog) : (Prog.receives fuel k p).length ≤ k := by
  induction fuel generalizing k p with
  | zero => exact Nat.zero_le _
  | succ fuel ih =>
    have hnext (q : Option Prog) : (match q with
        | some q => Prog.receives fuel k q
        | none => []).length ≤ k := by
      cases q with
      | none => exact Nat.zero_le _
      | some q => exact ih k q
    unfold Prog.receives
    split
    · exact Nat.zero_le _
    next hk =>
      have htake (r : Nat) (q : Prog) : (r :: Prog.receives fuel (k - 1) q).length ≤ k := by
        have := ih (k - 1) q
        rw [List.length_cons]
        omega
      generalize (p.words[p.ip]?).map decodeStep = x
      cases x with
      | none => exact Nat.zero_le _
      | some r =>
        cases r with
        | error e => exact Nat.zero_le _
        | ok i =>
          cases i with
          | recv w | rrs w | rrw w => exact htake ..
          | loopStep w | endl w | peerStep w => exact hnext _
          | endStep w => exact Nat.zero_le _
          | _ => exact ih k _

theorem giveCredits_of_prog {s : State} {k : Nat} {p : Prog} (h : s.prog? k = some p) : s.giveCredits k =
    ((Prog.receives lookAhead 4 p).drop p.due).foldl (fun t r => t.giveCredit k r)
      (s.modProg k fun q => { q with due := max q.due (Prog.receives lookAhead 4 p).length }) := by
  rw [State.giveCredits, h]

/-! ### A program's start (R362, R365) -/

section

variable {s : State} {p : Prog} (hp : s.prog? s.sel.a = some p)

include hp

section

variable (hst : p.started = false) (hf : p.failed = none) (ho : p.op = none) (hu : p.unread = none) (hq : s.sequences p = true)

include hst hf ho hu hq

/-- With its step words read, a program starts where a place and chunk space are free. -/
theorem collProgramStart_of_room (hr : p.read = true) {run : Map Prog} (hrun : run = s.progs.filter fun e => e.2.started && e.2.die = p.die)
    (hlen : run.length < 16) (hbuf : (run.map fun e => 4 * e.2.d.slot e.2.words).sum + 4 * p.d.slot p.words ≤ chunkBuffer) :
    exec .collProgramStart s =
      .next (((s.touch p.ctx p.die).modProg s.sel.a fun q => { q with started := true }).giveCredits s.sel.a) := by
  subst hrun
  have hused : ((s.progs.filter fun e => e.2.started && e.2.die = p.die).map Prod.snd).foldl (fun n q => n + 4 * q.d.slot q.words) 0 =
      ((s.progs.filter fun e => e.2.started && e.2.die = p.die).map fun e => 4 * e.2.d.slot e.2.words).sum := by
    rw [List.sum_eq_foldl, List.foldl_map, List.foldl_map]
  have hown : ¬chunkBuffer < 4 * p.d.slot p.words := by omega
  change execCollProgramStart s = _
  unfold execCollProgramStart
  simp only [hp, hst, hf, ho, hu, hq, hr, hused, List.length_map]
  rw [if_neg (by simp), if_neg (by simp), if_neg hown, if_neg (by simpa using ⟨hlen, hbuf⟩)]

/-- Step words that lie on the own device are read whole. -/
theorem collProgramStart_of_words {s0 t : State} {ws : List DWord} (hr : p.read = false) (ha : s.apart p.d.prog = false)
    (hg : s.gateAt p.ctx p.d.prog 32768 s.sel.a 0 = (s0, true))
    (hw : s0.readWords p.ctx p.core p.sys 4096 p.d.prog 0 = (t, ws, none)) : exec .collProgramStart s =
      .next (t.modProg s.sel.a fun q => { q with words := ws, short := none, read := true, rd := none }) := by
  change execCollProgramStart s = _
  unfold execCollProgramStart
  simp only [hp, hst, hf, ho, hu, hq, hr, ha]
  rw [if_neg (by simp), if_pos (by simp), if_neg Bool.false_ne_true, hg]
  dsimp only
  rw [hw]
  rfl

end

/-! ### Programs that fail (R365, R367) -/

theorem programFault_of_illegal {w : DWord} {e : DecodeError} (hst : p.started = true) (hf : p.failed = none)
    (hw : p.words[p.ip]? = some w) (hd : decodeStep w = .error e) :
    exec .programFault s = .next (s.progFail s.sel.a .remoteError true) := by
  change execProgramFault s = _
  simp only [execProgramFault, hp, hf, hst, hw, hd, Option.map_some, Bool.not_true, Bool.false_eq_true, if_false]

theorem programFault_of_end (hst : p.started = true) (hf : p.failed = none) (hw : p.words[p.ip]? = none) (hs : p.short = none) :
    exec .programFault s = .next (s.progFail s.sel.a .remoteError true) := by
  change execProgramFault s = _
  simp only [execProgramFault, hp, hf, hst, hw, hs, Option.map_none, Option.getD_none, Bool.not_true, Bool.false_eq_true, if_false]

theorem programFault_of_failed {c : Cause} (hf : p.failed = some c) : exec .programFault s = .next (s.progEnd s.sel.a p (.failed c)) := by
  change execProgramFault s = _
  simp only [execProgramFault, hp, hf]

theorem chunkTimeout_of_unacked {r at_ : Nat} {rest : List (Nat × Nat)} (hu : p.unacked = (r, at_) :: rest)
    (ht : at_ + 50000 ≤ s.ctxNow p.ctx) : exec .chunkTimeout s = .next (s.progFail s.sel.a .remoteTimeout true) := by
  change execChunkTimeout s = _
  have hdue : at_ + Config.remoteTimeout ≤ s.ctxNow p.ctx := ht
  simp only [execChunkTimeout, hp, hu, if_pos hdue]

/-! ### Chunks and control that come in (R344, R365) -/

theorem receive_cdata (hm : s.sel.b ∈ p.d.grp) (hst : p.started = true) (hf : p.failed = none) (hi : p.inbox.length < 4) :
    s.receive { kind := .cdata, x := s.sel } = (s.modProg s.sel.a fun q =>
      { q with inbox := q.inbox ++ [(p.d.grp.idxOf s.sel.b, s.sel.msg.data)] }).collCtl s.sel.a p (p.d.grp.idxOf s.sel.b) 1 := by
  have hrank : p.rankOf s.sel.b = some (p.d.grp.idxOf s.sel.b) := by simp [Prog.rankOf, hm]
  change s.chunkIn = _
  simp only [State.chunkIn, hp, hrank]
  rw [if_neg (by simp [hst, hf, hi])]

/-- Collective control that is for a program of the device, from a member of its group. -/
theorem receive_cctl (hm : s.sel.b ∈ p.d.grp) (hc : s.sel.coll ≠ .reduce) : s.receive { kind := .cctl, x := s.sel } =
    match s.sel.coll with
    | .credit => s.modProg s.sel.a fun q =>
      { q with credits := Map.put (p.d.grp.idxOf s.sel.b) (Map.get q.credits (p.d.grp.idxOf s.sel.b) 0 + 1) q.credits }
    | .ack => s.modProg s.sel.a fun q => match q.unacked.find? fun u => u.1 = p.d.grp.idxOf s.sel.b with
      | some u => { q with unacked := q.unacked.erase u }
      | none => q
    | .abort => s.progFail s.sel.a .remoteError false
    | .nack c => s.progFail s.sel.a (Cause.ofCode c) true
    | .reduce => s := by
  have hrank : p.rankOf s.sel.b = some (p.d.grp.idxOf s.sel.b) := by simp [Prog.rankOf, hm]
  change s.collCtlIn = _
  simp only [State.collCtlIn, if_neg hc, hp, hrank] <;> rfl

theorem receive_cctl_ack (hm : s.sel.b ∈ p.d.grp) {at_ : Nat} {rest : List (Nat × Nat)} (hc : s.sel.coll = .ack)
    (hu : p.unacked = (p.d.grp.idxOf s.sel.b, at_) :: rest) :
    ((s.receive { kind := .cctl, x := s.sel }).prog? s.sel.a).map Prog.unacked = some rest := by
  rw [receive_cctl hp hm (by simp [hc]), hc]
  simp [prog?_modProg, hp, hu]

end

/-- Settles O40: each event by what it does to the program that it names. How early credits are given is the model's (log entry 29). -/
theorem collectiveEvents : Obligations.CollectiveEvents := by
  unfold Obligations.CollectiveEvents
  refine ⟨fun s p hp hst hf ho hu hq => ⟨fun hr => collProgramStart_of_room hp hst hf ho hu hq hr rfl,
      fun s0 t ws => collProgramStart_of_words hp hst hf ho hu hq⟩,
    fun s k p hp => ⟨length_receives_le _ _ _, giveCredits_of_prog hp⟩,
    fun s p w e hp => programFault_of_illegal hp, fun s p hp => programFault_of_end hp, fun s p c hp => programFault_of_failed hp,
    fun s p r at_ rest hp => chunkTimeout_of_unacked hp, ?flits, fun s p hp => receive_cdata hp, ?control⟩
  case flits =>
    exact fun s h hs => ⟨congrArg Host.Outcome.next (flitIn_of_header hs .cdata 0), congrArg Host.Outcome.next (flitIn_of_header hs .cctl 0)⟩
  case control =>
    intro s p hp hm r t
    have ht (hc : s.sel.coll ≠ .reduce) := receive_cctl hp hm hc
    refine ⟨fun hc => ?_, fun at_ rest => receive_cctl_ack hp hm, fun hc => ?_, fun c hc => ?_⟩
    · exact (ht (by simp [hc])).trans (by rw [hc])
    · exact (ht (by simp [hc])).trans (by rw [hc])
    · exact (ht (by simp [hc])).trans (by rw [hc])

end Sys2Proof.Machine

end

section

/-! Proofs. Power-on, boot and attestation, clocks, heat, epoch windows and the energy window (R287, R402 to R404, R410 to R412). -/

namespace Sys2Proof.Machine

/-! ### Resets, boot and attestation (R402, R411, R412) -/

theorem die_restart (s : State) (keep : Bool) (reason d : Nat) : ((s.restart keep reason).die d).st = .online := by
  change (Map.get ((List.range 10).map fun d => (d, ({} : Die))) d {}).st = .online
  rw [Map.get]
  generalize List.range 10 = ds
  induction ds with
  | nil => rfl
  | cons k ds ih =>
    rw [List.map_cons, Map.get?_cons]
    split
    · rfl
    · exact ih

theorem edOk_iff (i : Sys2Proof.Image) : Img.edOk i = true ↔ Config.keyHash i.edKey = Config.edKeyHash ∧
    Config.edVerifies i.edKey i.edSig (Config.sha512 i.bytes) = true := by
  rw [Img.edOk, Bool.and_eq_true, decide_eq_true_eq]
  rfl

theorem mlOk_iff (i : Sys2Proof.Image) : Img.mlOk i = true ↔ Config.keyHash i.mlKey = Config.mlKeyHash ∧
    Config.mlVerifies i.mlKey i.mlSig (Config.sha512 i.bytes) = true := by
  rw [Img.mlOk, Bool.and_eq_true, decide_eq_true_eq]
  rfl

theorem reason_eq (i : Sys2Proof.Image) : Img.reason i = if Img.edOk i = false then 1 else if Img.mlOk i = false then 2
    else if Config.imageVersion i.bytes < Config.fusedMinVersion then 3 else 0 := by
  unfold Img.reason Img.version
  cases Img.edOk i <;> cases Img.mlOk i <;> rfl

theorem tellHost_eq (s : State) (kind : MsgKind) (arg : Nat) (data : List Byte) : s.tellHost kind arg data = { s with
    outbox := s.outbox ++ (if s.belayServes then [{ dest := 512, kind := kind, arg := arg, data := data }] else []) } := by
  unfold State.tellHost
  cases s.belayServes
  · simp
  · simp

/-- An image is accepted, or discarded with its reason. -/
theorem bootImage_of_rom {s : State} (hb : s.boot.st = .rom) (hd : s.dieServes 8 = true) : exec .bootImage s =
    .next (if Img.reason s.sel.img = 0 then
        { s with boot := ⟨.running, 0, Config.imageVersion s.sel.img.bytes, Config.sha512 s.sel.img.bytes⟩ }
      else { s with
        boot := { s.boot with reason := Img.reason s.sel.img }
        outbox := s.outbox ++ (if s.belayServes then [{ dest := 512, kind := .host, arg := Img.reason s.sel.img }] else []) }) := by
  change execBootImage s = _
  unfold execBootImage
  rw [hb]
  dsimp only
  rw [if_neg (by simp [hd])]
  split
  · rfl
  · rw [tellHost_eq]
    rfl

theorem getMeasurements_of_running {s : State} (hb : s.boot.st = .running) (hs : s.belayServes = true) : exec .getMeasurements s =
    .next { s with outbox := s.outbox ++ [{ dest := 512, kind := .measurements, data := s.measurements }] } := by
  change execGetMeasurements s = _
  unfold execGetMeasurements
  rw [hb]
  dsimp only
  rw [tellHost_eq, if_pos hs]

/-! ### Clocks and heat (R403, R404, R410) -/

theorem frequencyStep_of_legal {s : State} (hd : s.sel.a < 4) (hlo : 800 ≤ s.sel.b) (hhi : s.sel.b ≤ 1500) (h50 : s.sel.b % 50 = 0)
    (hr : (s.pair s.sel.a).relock = none) (hb : s.boundedOn s.sel.a = false) : exec .frequencyStep s =
      .next (s.modPair s.sel.a fun p =>
        { p with cyc := s.cyc s.sel.a, rt := s.rtime, mhz := s.sel.b, relock := some (s.rtime + 2000) }) := by
  change execFrequencyStep s = _
  unfold execFrequencyStep
  rw [if_neg (by simp [hr, hb, h50]; omega)]
  rfl

theorem thermalStep_of_above {s : State} (hd : s.sel.a < 4) (hr : (s.pair s.sel.a).relock = none) (hm : 800 < (s.pair s.sel.a).mhz) :
    exec .thermalStep s = .next (s.modPair s.sel.a fun p =>
      { p with cyc := s.cyc s.sel.a, rt := s.rtime, mhz := p.mhz - 50, relock := some (s.rtime + 2000) }) := by
  change execThermalStep s = _
  unfold execThermalStep
  rw [if_neg (by simp [hr]; omega)]
  rfl

theorem relockDone_of_due {s : State} {e : Nat} (hr : (s.pair s.sel.a).relock = some e) (he : e ≤ s.rtime) :
    exec .relockDone s = .next (s.modPair s.sel.a fun p =>
      { p with relock := none, rt := e, eseq := (p.eseq + 1) % 2 ^ 32
               epochs := p.epochs.set (p.eseq % 4) (e, p.cyc, p.mhz) }).uncross := by
  change execRelockDone s = _
  simp only [execRelockDone, hr, if_neg (Nat.not_lt.mpr he)]

theorem uncross_of_nothing {s : State} (hf : s.fifo = []) (hs : s.serving = []) : s.uncross = s := by
  unfold State.uncross State.serveAgain
  rw [hf]
  simp only [List.foldl_nil, hs]
  cases s
  cases hf
  cases hs
  rfl

theorem uncross_of_one {s : State} {m : RxMsg} (hf : s.fifo = [m]) :
    s.uncross = ({ (({ s with fifo := [] } : State).receive m) with sel := s.sel } : State).serveAgain := by
  rw [State.uncross, hf]
  rfl

/-! ### Epoch windows (R404) -/

section

variable {s : State} {ctx va d o : Nat} (he : s.epoch? ctx va = some (d, o))

include he

theorem readPiece_of_epoch (hd : s.dieServes d = true) {n : Nat} (hn : o + n ≤ 128) (sys : Bool) (die : Nat) :
    s.readPiece ctx va n { r := true } sys die = .ok (s, ((s.pair d).window.drop o).take n) := by
  unfold State.readPiece
  rw [he]
  dsimp only
  rw [State.readEpoch, if_neg (by simp [hd]), if_neg (by simpa using hn)]

theorem writePiece_of_epoch (bs : List Byte) (sys : Bool) (die : Nat) :
    s.writePiece ctx va bs sys die = .error (.cause .permission) := by
  have hown : ¬(!vaOk va || (s.remote? va).isSome) = true := by
    intro h
    rw [State.epoch?, if_pos h] at he
    cases he
  unfold State.writePiece State.translate
  rw [if_neg hown, State.leafOf, he]
  rfl

end

/-! ### The energy window (R287) -/

/-- A context's energy grows by a free amount. -/
def State.addEnergy (s : State) (c : Nat) : State :=
  s.freeNum.2.modCtx c fun x => { x with energy := (x.energy + Config.energyUsed s.freeNum.1) % 2 ^ 64 }

/-- A grid's use and duty follow from a free amount, where it runs or is being placed. -/
def State.setDuty (s : State) (e : Nat × Grid) : State :=
  if e.2.st = .running || e.2.st = .placing then
    let used := Config.energyUsed s.freeNum.1
    s.freeNum.2.modGrid e.1 fun g =>
      if g.r.cls = 2 || g.r.ebud = 0 then { g with used := used }
      else if 1000 * g.r.ebud < used then { g with used := used, duty := max 16 (g.duty * (1000 * g.r.ebud) / used) }
      else { g with used := used, duty := min 256 (g.duty + 16) }
  else s

/-- The accounts of the contexts, then the duties of the grids. -/
def State.energyEnded (s : State) : State :=
  let t := (s.ctxs.map Prod.fst).foldl State.addEnergy s
  t.grids.foldl State.setDuty t

theorem energyWindowEnd_of_due {s : State} (h : s.energyEnd ≤ s.rtime) :
    exec .energyWindowEnd s = .next { s.energyEnded with energyEnd := s.energyEnded.energyEnd + 1000000 } := by
  change execEnergyWindowEnd s = _
  unfold execEnergyWindowEnd
  rw [if_neg (Nat.not_lt.mpr h), State.energyEnded, List.foldl_map]
  rfl

theorem energyEnd_setDuty (s : State) (e : Nat × Grid) : (s.setDuty e).energyEnd = s.energyEnd := by
  unfold State.setDuty
  split <;> rfl

theorem ctxs_setDuty (s : State) (e : Nat × Grid) : (s.setDuty e).ctxs = s.ctxs := by
  unfold State.setDuty
  split <;> rfl

theorem energyEnd_energyEnded (s : State) : s.energyEnded.energyEnd = s.energyEnd :=
  (foldl_keeps State.energyEnd energyEnd_setDuty _ _).trans (foldl_keeps State.energyEnd (f := State.addEnergy) (fun _ _ => rfl) _ _)

theorem ctx?_modCtx (s : State) (k : Nat) (f : Ctx → Ctx) : (s.modCtx k f).ctx? k = (s.ctx? k).map f := Map.get?_mod k f s.ctxs

theorem ctx?_modCtx_ne {k c : Nat} (h : c ≠ k) (s : State) (f : Ctx → Ctx) : (s.modCtx k f).ctx? c = s.ctx? c :=
  Map.get?_mod_ne h f s.ctxs

theorem ctx?_addEnergy (s : State) (c : Nat) : (s.addEnergy c).ctx? c =
    (s.ctx? c).map fun x => { x with energy := (x.energy + Config.energyUsed s.freeCtr) % 2 ^ 64 } :=
  ctx?_modCtx s.freeNum.2 c _

theorem ctx?_addEnergy_ne (s : State) {c k : Nat} (h : k ≠ c) : (s.addEnergy c).ctx? k = s.ctx? k :=
  ctx?_modCtx_ne h s.freeNum.2 _

/-- A context keeps its account where the account is not among those that grow, and it grows once where it is among them once. -/
theorem ctx?_addEnergies {c : Nat} (cs : List Nat) (s : State) {x : Ctx} (hx : s.ctx? c = some x) :
    ∃ y n, (cs.foldl State.addEnergy s).ctx? c = some y ∧ (c ∉ cs → y = x) ∧
      (c ∈ cs → cs.Nodup → y.energy = (x.energy + Config.energyUsed n) % 2 ^ 64) := by
  induction cs generalizing s x with
  | nil => exact ⟨x, 0, hx, fun _ => rfl, fun h => absurd h List.not_mem_nil⟩
  | cons d cs ih =>
    rw [List.foldl_cons]
    by_cases hd : c = d
    · subst hd
      have hgrown := ctx?_addEnergy s c
      rw [hx, Option.map_some] at hgrown
      obtain ⟨y, n, hy, hkept, -⟩ := ih (s.addEnergy c) hgrown
      refine ⟨y, s.freeCtr, hy, fun h => absurd (List.mem_cons_self ..) h, fun _ hn => ?_⟩
      rw [hkept (List.nodup_cons.mp hn).1]
    · obtain ⟨y, n, hy, hkept, hgrown⟩ := ih (s.addEnergy d) ((ctx?_addEnergy_ne s hd).trans hx)
      exact ⟨y, n, hy, fun h => hkept fun hm => h (List.mem_cons_of_mem _ hm),
        fun hm hn => hgrown ((List.mem_cons.mp hm).resolve_left hd) (List.nodup_cons.mp hn).2⟩

theorem mem_keys_of_get? {β : Type} {m : Map β} {k : Nat} {v : β} (h : Map.get? m k = some v) : k ∈ m.map Prod.fst := by
  induction m with
  | nil => cases h
  | cons e m ih =>
    rw [Map.get?_cons] at h
    split at h
    next hk => exact List.mem_map.mpr ⟨e, List.mem_cons_self .., hk⟩
    next => exact List.mem_cons_of_mem _ (ih h)

theorem ctx?_energyEnded {s : State} {c : Nat} {x : Ctx} (hx : s.ctx? c = some x) : ∃ y n, s.energyEnded.ctx? c = some y ∧
    ((s.ctxs.map Prod.fst).Nodup → y.energy = (x.energy + Config.energyUsed n) % 2 ^ 64) := by
  obtain ⟨y, n, hy, -, hgrown⟩ := ctx?_addEnergies (s.ctxs.map Prod.fst) s hx
  refine ⟨y, n, ?_, hgrown (mem_keys_of_get? hx)⟩
  rw [State.energyEnded, State.ctx?, foldl_keeps State.ctxs ctxs_setDuty]
  exact hy

/-- Settles O33: each event by its effect. What the boot ROM computes over an image and the energy used are free (log entries 74 and 8);
what a reset keeps, the reasons of a discarded image and where an epoch window is mapped are the model's (log entries 40, 46 and 37). -/
theorem powerAndClockEvents : Obligations.PowerAndClockEvents := by
  unfold Obligations.PowerAndClockEvents
  refine ⟨fun s => ⟨_, rfl, rfl, rfl, rfl, rfl, rfl, rfl, rfl, die_restart s s.sel.flag 0⟩,
    fun s => ⟨_, rfl, rfl, rfl, rfl, rfl, rfl, rfl, rfl, rfl⟩, ?boot, fun i => ⟨edOk_iff i, mlOk_iff i⟩,
    fun s => getMeasurements_of_running, fun s => frequencyStep_of_legal, fun s => thermalStep_of_above, fun s e => relockDone_of_due,
    fun s => ⟨uncross_of_nothing, fun m => uncross_of_one⟩, fun s ctx va d o n sys die he hd hn => readPiece_of_epoch he hd hn sys die,
    fun s ctx va d o bs sys die he => writePiece_of_epoch he bs sys die, ?energy⟩
  case boot =>
    intro s hb hd i r
    have h := bootImage_of_rom hb hd
    rw [reason_eq] at h
    exact h
  case energy =>
    intro s c x hend hx
    obtain ⟨y, n, hy, hgrown⟩ := ctx?_energyEnded hx
    exact ⟨_, y, n, energyWindowEnd_of_due hend, congrArg (· + 1000000) (energyEnd_energyEnded s), hy, hgrown⟩

end Sys2Proof.Machine

end

section

/-! Proofs. Host intake, queue heads, admission, ageing, placement, reservation and the end of a grid (R271 to R279, R287, R331). -/

namespace Sys2Proof.Machine

/-! ### Reservation (R279) -/

/-- Keeping the lighter of two at every step ends with a lightest one: the fold by which a reservation chooses its rectangle. -/
theorem foldl_lightest {α : Type} (load : α → Nat) (b : α) (xs : List α) :
    let best := xs.foldl (fun b x => if load x < load b then x else b) b
    best ∈ b :: xs ∧ ∀ x ∈ b :: xs, load best ≤ load x := by
  induction xs generalizing b with
  | nil => exact ⟨List.mem_singleton_self b, fun x hx => by rw [List.mem_singleton.mp hx]; rfl⟩
  | cons y ys ih =>
    rw [List.foldl_cons]
    obtain ⟨hmem, hle⟩ := ih (if load y < load b then y else b)
    have hhead := hle _ (List.mem_cons_self ..)
    refine ⟨?_, fun x hx => ?_⟩
    · rcases List.mem_cons.mp hmem with h | h
      · rw [h]
        split <;> simp
      · simp [h]
    · rcases List.mem_cons.mp hx with rfl | hx
      · split at hhead <;> split <;> omega
      · rcases List.mem_cons.mp hx with rfl | hx
        · split at hhead <;> split <;> omega
        · exact hle x (List.mem_cons_of_mem _ hx)

theorem foldl_add_eq_sum {α : Type} (f : α → Nat) (xs : List α) (n : Nat) : xs.foldl (fun n x => n + f x) n = n + (xs.map f).sum := by
  induction xs generalizing n with
  | nil => rfl
  | cons x xs ih =>
    rw [List.foldl_cons, ih, List.map_cons, List.sum_cons, Nat.add_assoc]

/-- Where no grid waits longer, none stands before this one in the order of reservations. -/
theorem none_older {s : State} {gr : Nat} {g : Grid} (h : ∀ e ∈ s.grids, e.1 ≠ gr → g.since ≤ e.2.since) (P Q : Nat × Grid → Bool) :
    (s.grids.any fun e => decide (e.1 ≠ gr) && P e && decide (e.2.since < g.since) && Q e) = false := by
  refine List.any_eq_false.mpr fun e he hall => ?_
  simp only [Bool.and_eq_true, decide_eq_true_eq] at hall
  obtain ⟨⟨⟨hne, -⟩, hlt⟩, -⟩ := hall
  exact absurd (h e he hne) (Nat.not_le.mpr hlt)

theorem execClusterReservation_unreserved {s : State} {g : Grid} (hg : s.grid? s.sel.a = some g) (hst : g.st = .admittable)
    (hsize : g.r.clusterSize ≠ 1) (hcoop : g.r.coop = false) (hpair : g.r.paired = false) (hroom : s.findsRoom s.sel.a g = false)
    (hres : s.reserved = []) (hold : ∀ e ∈ s.grids, e.1 ≠ s.sel.a → g.since ≤ e.2.since) (hage : g.since + 100000 ≤ s.rtime)
    {rc : List Nat} {rest : List (List Nat)} (hcould : s.couldHold s.sel.a g = rc :: rest) :
    let load (rc : List Nat) : Nat := rc.foldl (fun n c => n + s.residentThreads c) 0
    execClusterReservation s = .next { s with reserved :=
      let best := rest.foldl (fun b x => if load x < load b then x else b) rc
      [(pairOf (best.headD 0), (s.sel.a, best))] } := by
  have hyoung : ¬ s.rtime < g.since + 100000 := Nat.not_lt.mpr hage
  have hold := none_older hold (fun e => (e.2.st = .admittable || e.2.st = .placing) && (e.2.r.clusterSize ≠ 1 || e.2.r.coop)) fun e =>
    !s.reserved.any fun v => v.2.1 = e.1
  simp only [execClusterReservation, hg, hcould]
  rw [if_neg]
  · simp only [hpair, hres]
    rfl
  · rw [hold]
    simp [hst, hsize, hcoop, hroom, hyoung, hres]

/-! ### The statement -/

/-- Settles O42: intake and queue heads by their definitions; a grid is admitted as none stands before it, placed as no saved
team waits, and reserved for on a rectangle with the fewest resident threads. -/
theorem gridEvents : Obligations.GridEvents := by
  unfold Obligations.GridEvents
  refine ⟨?_, ?_, ?_, ?_, ?_, ?_, ?_⟩
  · intro s hboot hserve hflag halign
    refine ⟨fun t gr w hq => ?_, fun k hq => ?_⟩
    · change execHostIntake s = _
      simp [execHostIntake, hboot, hserve, hflag, halign, hq]
    · change execHostIntake s = _
      simp [execHostIntake, hboot, hserve, hflag, halign, hq]
  · intro s gr hq
    change execGridQueueHead s = _
    simp only [execGridQueueHead, hq]
  · intro s t g hg hadmit hbefore hcls
    have hfirst : (s.grids.any fun e => e.1 ≠ s.sel.a && s.before e (s.sel.a, g) && (s.admitGrid e.1).isSome) = false := by
      refine List.any_eq_false.mpr fun e he hall => ?_
      simp only [Bool.and_eq_true, decide_eq_true_eq] at hall
      obtain ⟨⟨hne, hbef⟩, hsome⟩ := hall
      rw [hbefore e he hne hbef] at hsome
      cases hsome
    change execAdmission s = _
    simp only [execAdmission, hg, hadmit, hfirst, hcls]
    rfl
  · intro s g hg hst hcls hage
    change execEffectivePriorityAging s = _
    simp [execEffectivePriorityAging, hg, hst, hcls, hage]
  · intro s t g hg hst hsaves hplace
    change execTeamPlacement s = _
    simp [execTeamPlacement, hg, hst, State.savedFirst, hsaves, hplace]
  · intro s g hg hst hsize hcoop hpair hroom hres hold hage hcould load
    obtain ⟨rc, rest, hlist⟩ := List.exists_cons_of_ne_nil hcould
    have hload : (fun rc : List Nat => rc.foldl (fun n c => n + s.residentThreads c) 0) = load :=
      funext fun rc => (foldl_add_eq_sum _ rc 0).trans (Nat.zero_add _)
    have hexec := execClusterReservation_unreserved hg hst hsize hcoop hpair hroom hres hold hage hlist
    simp only [hload] at hexec
    obtain ⟨hmem, hleast⟩ := foldl_lightest load rc rest
    rw [hlist]
    exact ⟨_, hmem, hleast, hexec⟩
  · intro s g hg hst hleft
    change execGridEnd s = _
    simp [execGridEnd, hg, hst, hleft]

end Sys2Proof.Machine
end

section

/-! Proofs. Multicast rounds, pulled reductions, write-combining drains and accepted spawns (R282, R340, R346, R350 to R356, R375,
R376, R384). -/

namespace Sys2Proof.Machine

/-! ### The positions of a round (R352) -/

/-- Of rising numbers, those with fewer than `n` of them below are at most `n`: else the last one kept would have `n` below it. -/
theorem length_filter_few_below {xs : List Nat} (h : xs.Pairwise (· < ·)) (n : Nat) :
    (xs.filter fun i => decide ((xs.filter fun j => decide (j < i)).length < n)).length ≤ n := by
  by_contra hlong
  generalize hys : xs.filter (fun i => decide ((xs.filter fun j => decide (j < i)).length < n)) = ys at hlong
  have hne : ys ≠ [] := fun h => hlong (by rw [h]; exact Nat.zero_le n)
  have hsub : ys.Sublist xs := hys ▸ List.filter_sublist
  have hsplit := List.dropLast_append_getLast hne
  have hbelow : ∀ j ∈ ys.dropLast, j < ys.getLast hne := fun j hj => by
    have hpair := h.sublist hsub
    rw [← hsplit, List.pairwise_append] at hpair
    exact hpair.2.2 j hj _ (List.mem_singleton_self _)
  have hkept : ∀ i ∈ ys, (xs.filter fun j => decide (j < i)).length < n := fun i hi => by
    rw [← hys] at hi
    exact of_decide_eq_true (List.mem_filter.mp hi).2
  have hlast := hkept _ (List.getLast_mem hne)
  have hcount : ys.dropLast.length ≤ (xs.filter fun j => decide (j < ys.getLast hne)).length := by
    refine List.Sublist.length_le ?_
    rw [← List.filter_eq_self.mpr fun j hj => decide_eq_true (hbelow j hj)]
    exact (List.dropLast_sublist ys |>.trans hsub).filter _
  have : ys.dropLast.length = ys.length - 1 := List.length_dropLast
  omega

theorem mem_round {m : Mcst} {own lanes i : Nat} (h : i ∈ m.round own lanes) : i < m.poss.length ∧ i ∉ m.sent := by
  rw [Mcst.round] at h
  obtain ⟨hleft, -⟩ := List.mem_filter.mp h
  obtain ⟨hrange, hsent⟩ := List.mem_filter.mp hleft
  exact ⟨List.mem_range.mp hrange, by simpa using hsent⟩

/-- A round sends to at most as many positions of a port as it has lanes: the positions of the port that are left rise, and the
round takes those with fewer than `lanes` of them below. -/
theorem length_round_port_le (m : Mcst) (own lanes port : Nat) :
    ((m.round own lanes).filter fun i => decide (m.poss.getD i 0 ≠ own ∧ portTo (m.poss.getD i 0) = port)).length ≤ lanes := by
  let left := (List.range m.poss.length).filter fun i => !m.sent.contains i
  let onPort (i : Nat) : Bool := decide (m.poss.getD i 0 ≠ own ∧ portTo (m.poss.getD i 0) = port)
  have hrise : (left.filter onPort).Pairwise (· < ·) := (List.pairwise_lt_range.filter _).filter _
  refine le_of_eq_of_le (congrArg List.length ?_) (length_filter_few_below hrise lanes)
  rw [Mcst.round, List.filter_comm]
  refine List.filter_congr fun i hi => ?_
  obtain ⟨hfar, hport⟩ := of_decide_eq_true (List.mem_filter.mp hi).2
  have hbefore : (left.filter fun j => decide (m.poss.getD j 0 ≠ own) && j < i &&
      portTo (m.poss.getD j 0) = portTo (m.poss.getD i 0)) = (left.filter onPort).filter fun j => decide (j < i) := by
    refine (List.filter_congr fun j _ => ?_).trans List.filter_filter.symm
    simp only [onPort, hport, Bool.decide_and, Bool.and_comm, Bool.and_assoc]
  rw [hbefore]
  change (!decide (m.poss.getD i 0 ≠ own) || _) = _
  rw [decide_eq_true hfar]
  rfl

/-! ### The statement -/

theorem modMcst_of_kind {o : Op} {m : Mcst} (h : o.kind = .mcst m) (f : Mcst → Mcst) : modMcst f o = { o with kind := .mcst (f m) } := by
  rw [modMcst, h]

theorem binAccept_of_room {s : State} {core ctx node : Nat} (h : s.binRoom core ctx node = true) (ws : List Word) :
    s.binAccept core ctx node ws = some ((s.modCore core fun c =>
      { c with accCtr := c.accCtr + 1
               bin := c.bin ++ [⟨ctx, node, (s.core core).accCtr, s.ctxNow ctx, ws, .unlent, 0⟩] }).binLaunch core ctx node) := by
  simp only [State.binAccept, h, if_true, Option.map_some, Option.some.injEq]
  congr 1
  simp only [State.modCore, State.core, Map.get_put, Map.put_put]

/-- Settles O38: each event's function takes the branch that its clause describes; a round's size is a count of rising numbers. -/
theorem fabricEvents : Obligations.FabricEvents := by
  unfold Obligations.FabricEvents
  refine ⟨?_, ?_, ?_, ?_, ?_, ?_, ?_, ?_, ?_, ?_, ?_, ?_, ?_, ?_⟩
  · intro s o m ho hk hline hst
    change execMcastRound s = _
    simp [execMcastRound, ho, hk, hline, hst]
  · intro s o m ho hk hheld hset hlen htuned
    have hline : m.line ≠ [] := fun h => by simp [h] at hlen
    refine ⟨fun hround howes => ?_, fun i is hround => ?_⟩
    · change execMcastRound s = _
      simp [execMcastRound, ho, hk, hheld, hset, hlen, htuned, hline, hround, howes]
    · change execMcastRound s = _
      simp only [execMcastRound, ho, hk, hheld, hset, hlen, htuned, List.isEmpty_eq_false_iff.mpr hline, hround]
      rfl
  · exact fun m own lanes => ⟨fun i hi => mem_round hi, length_round_port_le m own lanes⟩
  · intro s
    refine ⟨?_, fun h8 h9 => ?_⟩
    · unfold State.lanesOf
      split <;> decide
    · simp [State.lanesOf, h8, h9]
  · intro s o m ho hk
    refine ⟨_, rfl, rfl, ?_⟩
    change Map.get? (Map.mod _ _ s.ops) _ = _
    rw [Map.get?_mod, show Map.get? s.ops s.sel.a = some o from ho, Option.map_some, modMcst_of_kind hk]
    split
    · rfl
    · rw [← hk]
  · intro s o m ho hk hun hsent
    change execMcastReplyTimeout s = _
    simp [execMcastReplyTimeout, ho, hk, hun, hsent]
  · intro s o r ho hk hheld hset hst hmoved hred hgot hall line
    have hexec : execRloadRepliesComplete s = .next (s.rloadEnd s.sel.a o r (match r.nacks with
        | (_, c) :: _ => .error (Cause.ofCode c)
        | [] => .ok line)) := by
      simp only [execRloadRepliesComplete, ho, hk, hheld, hset, hst, hmoved, hred, hgot, Bool.true_or, Bool.or_false,
        Bool.not_true, if_true, if_false, Bool.false_eq_true, Option.map_some, Nat.not_lt.mpr hall]
      cases r.nacks <;> rfl
    refine ⟨fun j c rest hn hfor => ?_, fun t hn hfor hw => ?_, fun peer tag hn hfor => ?_⟩
    · refine hexec.trans ?_
      simp only [hn, State.rloadEnd, hfor]
    · refine hexec.trans ?_
      simp only [hn, State.rloadEnd, hfor, hw]
    · refine hexec.trans ?_
      simp only [hn, State.rloadEnd, hfor]
  · intro s o r ho hk hheld hset hst hmoved hoff t
    have hserve : (!s.sel.flag && s.reduces r.server) = false := by
      rcases hoff with h | h <;> simp [h]
    refine ⟨fun hown hred => ?_, fun hfar hserves => ?_⟩
    · have hown : (decide (r.poss.headD 0 = s.deviceIndex.toNat) || !s.dieServes r.server) = true := by
        rcases hown with h | h <;> simp only [h, decide_true, Bool.true_or, Bool.not_false, Bool.or_true]
      change execRloadServerFallback s = _
      simp only [execRloadServerFallback, ho, hk, hheld, hset, hst, hmoved, hserve, hown, hred]
      rfl
    · change execRloadServerFallback s = _
      simp only [execRloadServerFallback, ho, hk, hheld, hset, hst, hmoved, hserve, decide_eq_false hfar, hserves]
      rfl
  · intro s t id o r q u htorn hsend
    refine (if_neg (Bool.eq_false_iff.mp htorn)).trans ?_
    exact congrArg (Option.getD · _) hsend
  · intro s e he hdue
    change execWcDrain s = _
    simp only [execWcDrain, he, hdue, if_true]
  · intro s e he hage
    change execWcEntryAgeExpiry s = _
    simp only [execWcEntryAgeExpiry, he, hage, if_true]
  · intro s o core node ws ho hk hst hheld hready
    have hexec : execBinRecordAccept s = .next (match s.binAccept core o.ctx node ws with
        | none => s
        | some t => (t.escape s.sel.a ⟨.spawn, ws.length, core⟩).settleFlags s.sel.a .ok) := by
      simp only [execBinRecordAccept, State.acceptSpawn, ho, hk, hst, hheld, hready, Option.map_some]
      rfl
    refine ⟨fun t ht => hexec.trans ?_, fun ht => hexec.trans ?_⟩ <;> rw [ht]
  · exact fun s core ctx node ws hroom => binAccept_of_room hroom ws
  · intro s o tg node ws ho hk hst hheld hrel peer core
    have hexec : execBinRecordAccept s = .next (s.rspawnGo s.sel.a) := by
      simp only [execBinRecordAccept, ho, hk, Option.map_some]
    refine ⟨fun c t hpeer hc hcore hacc => hexec.trans ?_, fun t hpeer htorn hsend => hexec.trans ?_⟩
    · have hcores : (s.ctx? o.ctx).any (fun c => c.cfg.cores.contains core) = true := by
        simp only [hc, Option.any_some, List.contains_iff_mem.mpr hcore]
      simp only [peer, core] at hpeer hcores hacc
      simp only [State.rspawnGo, ho, hk, hst, hheld, hrel, hpeer, hcores, hacc]
      rfl
    · simp only [peer, core] at hpeer htorn hsend
      simp only [State.rspawnGo, ho, hk, hst, hheld, hrel, hpeer, State.sendOr, htorn, hsend]
      rfl

end Sys2Proof.Machine
end

section

/-! Proofs. A gang launch at its launcher and at its members (R277, R308, R358, R380). -/

namespace Sys2Proof.Machine

/-! ### What comes in, and what is kept -/

theorem receive_gang (s : State) (code : Nat) : s.receive { kind := .gang, code := code, x := s.sel } = s.gangMsgIn code := rfl

/-- Sending leaves all but the links and what goes to the host. -/
theorem send_getD_frame (s : State) (peer idx grp : Nat) (m : Msg) : (s.send peer idx grp m).getD s =
    { s with links := ((s.send peer idx grp m).getD s).links, outbox := ((s.send peer idx grp m).getD s).outbox } := by
  unfold State.send
  cases s.stuckOn peer idx with
  | some p => rfl
  | none => cases s.planeFor peer idx <;> rfl

theorem unkeep_of_none_kept {s : State} {gang : Nat} (h : ∀ x ∈ s.serving, x.kind.asksFor gang = false) :
    s.unkeep gang = (s, none) := by
  have hkeep : (s.serving.filter fun x => !x.kind.asksFor gang) = s.serving :=
    List.filter_eq_self.mpr fun x hx => by rw [h x hx]; rfl
  have hfind : (s.serving.find? fun x => x.kind.asksFor gang) = none :=
    List.find?_eq_none.mpr fun x hx => by rw [h x hx]; exact Bool.false_ne_true
  simp only [State.unkeep, hkeep, hfind]

/-! ### A member's room -/

/-- What a grid's groups are told: whether they may start. -/
theorem started_startGangGrid {s : State} {gr : Nat} {on : Bool} {e : Nat × Group} (he : e ∈ (s.startGangGrid gr on).groups)
    (hmine : (s.team? e.2.team).any (fun x => x.grid = some gr) = true) : e.2.started = on := by
  obtain ⟨e0, -, rfl⟩ := List.mem_map.mp he
  dsimp only at hmine ⊢
  split at hmine
  next h => rw [if_pos h]
  next h => exact absurd hmine h

theorem grid?_modGrid_st {s : State} {gr : Nat} {f : Grid → Grid} {x : Grid} (h : (s.modGrid gr f).grid? gr = some x) :
    ∃ y, x = f y := by
  change Map.get? (Map.mod gr f s.grids) gr = some x at h
  rw [Map.get?_mod] at h
  obtain ⟨y, -, hy⟩ := Option.map_eq_some_iff.mp h
  exact ⟨y, hy.symm⟩

/-- A reservation that succeeds leaves a prepared member, whose grid is prepared and whose groups do not start. -/
theorem gangReserve_prepared {s t : State} {gang src ctx : Nat} {ws : List Word} (h : s.gangReserve gang src ctx ws = .ok t) :
    ∃ m gr, Map.get? t.members gang = some m ∧ m.st = .prepared ∧ m.src = src ∧ m.ctx = ctx ∧ m.grid = some gr ∧
      (∀ x, t.grid? gr = some x → x.st = .prepared) ∧
      ∀ e ∈ t.groups, (t.team? e.2.team).any (fun x => x.grid = some gr) = true → e.2.started = false := by
  unfold State.gangReserve at h
  split at h
  next => cases h
  next s1 gr _ hq =>
    split at h
    next => cases h
    next g hg =>
      split at h
      next => cases h
      split at h
      next => cases h
      dsimp only at h
      split at h
      next => cases h
      next s3 hplace =>
        cases h
        refine ⟨_, gr, Map.get?_put .., rfl, rfl, rfl, rfl, fun x hx => ?_, fun e he hmine => started_startGangGrid he hmine⟩
        have hgrid : (s3.modGrid gr fun g => { g with st := .prepared }).grid? gr = some x := hx
        obtain ⟨y, rfl⟩ := grid?_modGrid_st hgrid
        rfl

theorem memberPrepare_of_no_member {s : State} {src gang ctx : Nat} {ws : List Word} (h : Map.get? s.members gang = none) :
    s.memberPrepare src gang ctx ws = match (s.unkeep gang).1.gangReserve gang src ctx ws with
      | .error (.inr _) => { (s.unkeep gang).1 with serving := (s.unkeep gang).1.serving ++
          [(s.unkeep gang).2.getD ⟨src, 0, ctx, false, .prepare gang ws⟩] }
      | .error (.inl k) => ((s.unkeep gang).1.send src 0 gang (gangMsg gang 2 ctx (toBytes 4 (2 ^ 31 + k)))).getD (s.unkeep gang).1
      | .ok t => (t.send src 0 gang (gangMsg gang 1 ctx [])).getD t := by
  have hnone : (Map.get? (s.unkeep gang).1.members gang).isSome = false := by
    change (Map.get? s.members gang).isSome = false
    rw [h]
    rfl
  refine (if_neg (Bool.eq_false_iff.mp hnone)).trans ?_
  rfl

/-! ### A member that goes, or goes back -/

/-- A prepared member of another device's gang runs with GO. -/
theorem memberGo_of_prepared {s : State} {gang : Nat} {m : Member} (hm : Map.get? s.members gang = some m) (hst : m.st = .prepared)
    (hsrc : m.src ≠ s.deviceIndex.toNat) :
    s.memberGo gang =
      let t := (({ s with members := Map.put gang { m with st := .running } s.members } : State).startGangGrid (m.grid.getD 0) true).modGrid
        (m.grid.getD 0) fun g => { g with st := if g.nextIdx = g.r.teams then .running else .placing }
      (t.send m.src 0 gang (gangMsg gang 4 m.ctx [])).getD t := by
  simp only [State.memberGo, hm, hst, decide_eq_false hsrc]
  cases s.gangOp gang with
  | none => rfl
  | some e =>
    obtain ⟨id, o, x⟩ := e
    exact if_neg hsrc

theorem memberGo_runs {s : State} {gang gr : Nat} {m : Member} (hm : Map.get? s.members gang = some m) (hst : m.st = .prepared)
    (hsrc : m.src ≠ s.deviceIndex.toNat) (hgr : m.grid = some gr) :
    Map.get? (s.memberGo gang).members gang = some { m with st := .running } ∧
      ∀ e ∈ (s.memberGo gang).groups, ((s.memberGo gang).team? e.2.team).any (fun x => x.grid = some gr) = true →
        e.2.started = true := by
  rw [memberGo_of_prepared hm hst hsrc, send_getD_frame, hgr]
  exact ⟨Map.get?_put .., fun e he hmine => started_startGangGrid he hmine⟩

@[simp] theorem shrink_members (s : State) (gid k : Nat) : (s.shrink gid k).members = s.members := by
  unfold State.shrink
  split
  · rfl
  · split
    · rfl
    · exact foldl_keeps State.members (by exact fun _ _ => rfl) _ _

@[simp] theorem dropTeam_members (s : State) (tid : Nat) : (s.dropTeam tid).members = s.members := by
  unfold State.dropTeam
  split
  · rfl
  next t ht =>
    have hg : ((s.groups.filter fun e => e.2.team = tid).foldl (fun s e => s.dropGroup e.1) s).members = s.members :=
      foldl_keeps State.members (by exact fun s e => shrink_members s e.1 0) _ s
    dsimp only
    split <;> split <;> split <;> simp [hg]

/-- A prepared member that is released is none any longer, and its grid is gone. -/
theorem gangRelease_of_prepared {s : State} {gang gr : Nat} {m : Member} (hm : Map.get? s.members gang = some m)
    (hst : m.st = .prepared) (hgr : m.grid = some gr) :
    Map.get? (s.gangRelease gang).members gang = none ∧ (s.gangRelease gang).grid? gr = none := by
  have hrel : s.gangRelease gang =
      let t : State := { s with members := Map.del gang s.members }
      let u := (t.teams.filter fun e => e.2.grid = some gr).foldl (fun s e => s.dropTeam e.1) t
      let v := u.modCtx m.ctx fun c => { c with ended := Map.put ((u.grid? gr).elim 0 Grid.ticket) 2 c.ended }
      { v with grids := Map.del gr v.grids } := by
    simp only [State.gangRelease, hm, hst, hgr]
    rfl
  rw [hrel]
  refine ⟨?_, Map.get?_del ..⟩
  refine (congrArg (Map.get? · gang) (foldl_keeps State.members (by exact fun _ _ => dropTeam_members ..) _ _)).trans ?_
  exact Map.get?_del ..

theorem gangTorn_of_running {s : State} {gang gr : Nat} {m : Member} (hm : Map.get? s.members gang = some m) (hst : m.st = .running)
    (hgr : m.grid = some gr) :
    s.gangTorn gang = ({ s with members := Map.put gang { m with st := .torn } s.members } : State).modGrid gr
      fun y => { y with torn := m.peers, tornAt := s.nextId } := by
  simp only [State.gangTorn, hm, hst, hgr]
  rfl

/-! ### The launcher -/

section

variable {s : State} {id peer : Nat} {o : Op} {x : Gang}

theorem gangHeard_of_asking (ho : s.op? id = some o) (hk : o.kind = .gang x) (hset : o.st.settled = false) (hst : o.st ≠ .waiting)
    (hgo : x.going = false) (hin : peer ∈ x.poss) (hnew : peer ∉ x.heard) :
    s.gangHeard id peer = if x.heard.length + 1 < x.poss.length then s.modOp id (modGang fun y => { y with heard := peer :: x.heard })
      else ((s.modOp id (modGang fun y =>
        { y with heard := [], going := true, since := s.ctxNow o.ctx })).gangSend x.poss x.gang 3 o.ctx []).1 := by
  simp [State.gangHeard, ho, hk, hset, hst, hgo, hin, hnew]

theorem gangAcked_of_going (ho : s.op? id = some o) (hk : o.kind = .gang x) (hset : o.st.settled = false)
    (hgo : x.going = true) (hin : peer ∈ x.poss) (hnew : peer ∉ x.heard) :
    s.gangAcked id peer =
      let more := s.modOp id (modGang fun y => { y with heard := peer :: x.heard })
      if x.heard.length + 1 < x.poss.length then more else more.settleFlags id .ok := by
  simp [State.gangAcked, ho, hk, hset, hgo, hin, hnew]

theorem gangRefusal_of_asking (ho : s.op? id = some o) (hk : o.kind = .gang x) (hset : o.st.settled = false) (hst : o.st ≠ .waiting)
    (hgo : x.going = false) (hin : peer ∈ x.poss) : s.gangRefusal id peer = s.gangAbortAll id o x := by
  simp [State.gangRefusal, ho, hk, hset, hst, hgo, hin]

end

/-! ### The statement -/

/-- Settles O39: by what each message and each clock does at the launcher and at the member; sending changes links only, so a
member's groups stay as GO started them. -/
theorem gangEvents : Obligations.GangEvents := by
  unfold Obligations.GangEvents
  intro got free
  refine ⟨?_, fun s gang hfree => unkeep_of_none_kept hfree, ?_, ?_, ?_, fun s t gang src ctx ws h => gangReserve_prepared h, ?_, ?_,
    fun s m gr hm hst hsrc hgr => memberGo_runs hm hst hsrc hgr, ?_, ?_, ?_⟩
  · intro e he s h hh
    have hflit (code : Nat) : s.flitIn .gang code = s.takeFlit .gang code h := flitIn_of_header hh .gang code
    simp only [List.mem_cons, List.not_mem_nil, or_false] at he
    rcases he with rfl | rfl | rfl | rfl | rfl | rfl | rfl
    · change execGangPrepare s = _
      simp [execGangPrepare, hh, hflit]
    · exact congrArg Host.Outcome.next (hflit 1)
    · exact congrArg Host.Outcome.next (hflit 2)
    · change execGangGo s = _
      simp [execGangGo, hh, hflit]
    · exact congrArg Host.Outcome.next (hflit 4)
    · exact congrArg Host.Outcome.next (hflit 5)
    · exact congrArg Host.Outcome.next (hflit 6)
  · intro s hnone u
    have hprep : got s 0 = s.memberPrepare s.sel.a s.sel.b s.sel.c s.sel.words := rfl
    rw [memberPrepare_of_no_member hnone] at hprep
    refine ⟨fun t ht => hprep.trans ?_, fun k hk => hprep.trans ?_, fun k hfree hk => hprep.trans ?_⟩
    · simp only [u] at ht
      rw [ht]
    · simp only [u] at hk
      rw [hk]
    · rw [unkeep_of_none_kept hfree, hk]
      rfl
  · intro s x ws hh hsrc hfind hk
    change execGangPrepare s = _
    simp [execGangPrepare, hh, hsrc, hfind, hk]
  · intro s id o x hh hown hop hnone hgo hin t ht
    change execGangPrepare s = _
    simp [execGangPrepare, State.ownPrepare, hh, hown, hop, hnone, hgo, hin, ht]
  · intro s id o x hop ho hk hset hst hin out more
    have hrecv (code : Nat) (f : Nat → State) (hf : s.gangMsgIn code = (s.gangOp s.sel.a).elim s fun e => f e.1) : got s code = f id := by
      rw [← receive_gang, hop] at hf
      exact hf
    refine ⟨fun hgo hnew hmore => ?_, fun hgo hnew hlast => ?_, fun hgo => ?_, fun hgo hnew => ?_⟩
    · rw [hrecv 1 (s.gangHeard · s.sel.b) rfl, gangHeard_of_asking ho hk hset hst hgo hin hnew, if_pos hmore]
    · rw [hrecv 1 (s.gangHeard · s.sel.b) rfl, gangHeard_of_asking ho hk hset hst hgo hin hnew, if_neg (Nat.not_lt.mpr hlast)]
    · rw [hrecv 2 (s.gangRefusal · s.sel.b) rfl, gangRefusal_of_asking ho hk hset hst hgo hin]
      rfl
    · rw [hrecv 4 (s.gangAcked · s.sel.b) rfl, gangAcked_of_going ho hk hset hgo hin hnew]
  · intro s o x ho hk hset hst hgo hage
    change execGangPrepareTimeout s = _
    simp only [execGangPrepareTimeout, ho, hk, hset, hst, hgo, Nat.not_lt.mpr hage]
    rfl
  · intro s m gr hm hst hgr
    obtain ⟨hmem, hgrid⟩ := gangRelease_of_prepared (s := (s.unkeep s.sel.a).1) hm hst hgr
    refine ⟨hmem, hgrid, fun hfree hage => ?_⟩
    have hgot : got s 5 = s.gangRelease s.sel.a := by
      change ((s.unkeep s.sel.a).1).gangRelease s.sel.a = _
      rw [unkeep_of_none_kept hfree]
    rw [hgot]
    change execGangGoWaitTimeout s = _
    simp only [execGangGoWaitTimeout, hm, hage, if_true]
  · intro s m gr hm hst hgr hfree
    change ((s.unkeep s.sel.a).1).gangTorn s.sel.a = _
    rw [unkeep_of_none_kept hfree]
    exact gangTorn_of_running hm hst hgr
  · intro s o x ho hk hset hgo hage
    change execGangAckTimeout s = _
    simp only [execGangAckTimeout, ho, hk, hset, hgo, Nat.not_lt.mpr hage]
    rfl

end Sys2Proof.Machine
end
